-- ==== Sys2Proof/Word.lean ====
section
/-! DEFINITION. The word types of the Ngagor and their plainest arithmetic (R3, R4: bit 0 is the least significant bit; R25). -/

namespace Sys2Proof

/-- A lane value or register (R9, "Lane": one 64-bit datapath). -/
abbrev W64 := BitVec 64
/-- An instruction word, a code address (R25, R37). -/
abbrev W32 := BitVec 32
/-- One byte of memory. -/
abbrev Byte := BitVec 8
/-- The data of one 128-byte line, byte i at bits [8i+7:8i] (R121, R3). -/
abbrev Line := BitVec 1024
/-- One bit per byte of a line (R160: byte mask). -/
abbrev LineMask := BitVec 128
/-- One bit per lane of a group (at most 64 lanes, R9). -/
abbrev LaneMask := BitVec 64

/-- Bits [lo+n-1:lo] of a number (R4: a field is written [hi:lo]). -/
def bitsOf (x lo n : Nat) : Nat := (x / 2 ^ lo) % 2 ^ n

/-- The two's complement value of the low `w` bits of `x` (R7: int8 to int64). -/
def toSigned (w x : Nat) : Int :=
  let y := x % 2 ^ w
  if 2 * y < 2 ^ w then (y : Int) else (y : Int) - (2 ^ w : Nat)

/-- The low `w` bits of an exact integer (R7: narrowing is modulo 2^w where stated). -/
def ofSigned (w : Nat) (x : Int) : Nat := (x % ((2 ^ w : Nat) : Int)).toNat

/-- Sign extension of the low `w` bits to 64 (R25: IMM9; R169: sext64). -/
def sext64 (w x : Nat) : W64 := BitVec.ofNat 64 (ofSigned 64 (toSigned w x))

end Sys2Proof
end

