-- ==== Sys2Proof/Syntax.lean ====
section
/-! DEFINITION. The instructions and events of the Ngagor as syntax: one constructor of Instr for each row of
spec/opcode_table.json, in the table's order. An encoded word carries its decoded operand fields (R25, R27);
an event without an encoding carries what the outside or the implementation decides (which request, which answer). -/

namespace Sys2Proof

/-- A source operand (Table 2.4, R27). -/
inductive Src where
  | v (r : Fin 32) | int (n : Fin 16) | neg (n : Fin 8) | fpc (k : Fin 8)
  | s (r : Fin 32) | y (k : Fin 3) | lane | octet | slice | ones
  | pinf | ninf | nan | maxf
  deriving DecidableEq, Repr

/-- A destination under the pairing of WS and D (R28). -/
inductive Dst where
  | v (r : Fin 32) | s (r : Fin 32) | y (k : Fin 3)
  deriving DecidableEq, Repr

/-- A window or uniform register (address, offset, index fields; destinations without a WS bit). -/
inductive Reg where
  | v (r : Fin 32) | s (r : Fin 32)
  deriving DecidableEq, Repr

/-- SF class W (Table 10.3). -/
inductive Width where | w64 | w32 | w16 | w8
  deriving DecidableEq, Repr
/-- SF class S (Table 10.3). -/
inductive SWidth where | s64 | s32 | n64 | n32
  deriving DecidableEq, Repr
/-- SF class F (Table 10.3). -/
inductive FFmt where | fp64 | fp32 | fp16 | bf16
  deriving DecidableEq, Repr
/-- Formats of the special functions, F 1..3 (R253). -/
inductive SpFmt where | fp32 | fp16 | bf16
  deriving DecidableEq, Repr
/-- FRED and FSCAN formats (Table 10.4). -/
inductive RFmt where | fp64 | fp32
  deriving DecidableEq, Repr
/-- FDOT2 formats (Table 10.4: SF 2 fp16, 3 bf16). -/
inductive DFmt where | fp16 | bf16
  deriving DecidableEq, Repr
/-- SF class P (Table 10.3). -/
inductive PFmt where | bf16x4 | fp16x4 | fp32x2
  deriving DecidableEq, Repr
/-- PACK and UNPK widths (R258). -/
inductive PkW where | w32 | w16 | w8
  deriving DecidableEq, Repr
/-- FCVT format codes (Table 10.11). -/
inductive CFmt where | fp64 | fp32 | fp16 | bf16 | e4m3 | e5m2
  deriving DecidableEq, Repr
/-- Integer types of ICVT and FICVT (Table 10.4, note). -/
inductive IntTy where | s64 | n64 | s32 | n32 | s16 | n16 | s8 | n8
  deriving DecidableEq, Repr
/-- FP8 kinds (R220). -/
inductive F8 where | e4m3 | e5m2
  deriving DecidableEq, Repr
/-- Integer conditions (Table 10.7). -/
inductive ICond where | eq | ne | lts | ges | gts | les | ltu | geu | gtu | leu
  deriving DecidableEq, Repr
/-- Floating-point conditions (Table 10.9). -/
inductive FCond where | eq | ne | lt | le | gt | ge | un | or
  deriving DecidableEq, Repr
/-- IRED and ISCAN operations (Table 10.8). -/
inductive LaneOp where | add | mins | maxs | minu | maxu | and | or | xor
  deriving DecidableEq, Repr
/-- FRED and FSCAN operations (Table 10.4). -/
inductive FOp where | add | min | max
  deriving DecidableEq, Repr
/-- SHFL modes (R244). -/
inductive ShMode where | idx | up | down | xor
  deriving DecidableEq, Repr
/-- VOTE modes (R246). -/
inductive VoteMode where | any | all | ballot
  deriving DecidableEq, Repr
/-- Request type T (R25, R159). -/
inductive MType where | o | w | s | u
  deriving DecidableEq, Repr
/-- Access size SZ (R25). -/
inductive MSize where | b1 | b2 | b4 | b8
  deriving DecidableEq, Repr
/-- Direct target: OVR and WIX of the B format (R25, R348). -/
structure Target where
  ovr : BitVec 6
  wix : BitVec 14
  deriving DecidableEq, Repr
/-- Lane selection of FEND, BRK, DEMOTE: ALL, or a predicate with N (Table 14.1). -/
inductive Sel where | all | pred (p : Fin 8) (neg : Bool)
  deriving DecidableEq, Repr
/-- COUNT of LOOP: s[a] or the constant 0 to 15 (R363). -/
inductive LoopCount where | s (r : Fin 32) | k (n : Fin 16)
  deriving DecidableEq, Repr
/-- CWSET operations (R376). -/
inductive CwOp where | set | add | or | and
  deriving DecidableEq, Repr
/-- MQA forms (Table 11.3). -/
inductive MqaF where | bf16 | fp16 | e4m3 | e5m2
  deriving DecidableEq, Repr
/-- MQAX forms (Table 11.3). -/
inductive MqaxF where | mx4 | e4m3e5m2 | e5m2e4m3
  deriving DecidableEq, Repr
/-- MQAI forms (Table 11.3). -/
inductive MqaiF where | s8 | n8 | s4
  deriving DecidableEq, Repr
/-- B operand of a matrix word: registers or a scratchpad tile (R276). -/
inductive MatB where | v (r : Fin 32) | tile (s : Fin 32)
  deriving DecidableEq, Repr
/-- Small-matrix formats by SF (R290). -/
inductive SmF where | fp32 | fp64 | sym64
  deriving DecidableEq, Repr
/-- Atomic operation codes (Table 12.4), in code order. -/
inductive AOp where
  | addN32 | addN64 | addF32 | addBf16 | addF64 | minN32 | maxN32 | minS32 | maxS32 | minN64 | maxN64
  | minS64 | maxS64 | minF32 | maxF32 | minF64 | maxF64 | and32 | or32 | xor32 | and64 | or64 | xor64
  | exch32 | exch64
  deriving DecidableEq, Repr
/-- Order of an atomic (R312). -/
inductive AOrd where | rlx | acq | rel | ar
  deriving DecidableEq, Repr
/-- Scope of an atomic (R312). -/
inductive AScope where | core | clu | dev | fab
  deriving DecidableEq, Repr
/-- FENCE kinds (Table 12.5). -/
inductive FKind where | ar | acq | rel
  deriving DecidableEq, Repr
/-- Scopes (Table 12.1). -/
inductive Scope where | fibre | group | core | cluster | device | fabric | host
  deriving DecidableEq, Repr
/-- RED types (Table 6.6). -/
inductive RedTy where | n32 | s32 | n64 | s64 | fp32 | bf16 | fp64
  deriving DecidableEq, Repr
/-- RED operations (Table 6.6). -/
inductive RedOp where | add | min | max | and | or | xor
  deriving DecidableEq, Repr
/-- Agents that write the register window (R109, R386, R397, R406). -/
inductive Agent where | host | fw | core
  deriving DecidableEq, Repr

/-- An answer of another device: a fabric code (Table 6.3), up to 128 bytes of data, and with code POISON the poisoned sectors of
the line among those that the request touches (R123); none named stands for all of them. -/
structure FabAns where
  code : Nat
  data : Line
  poison : BitVec 4 := 0
  /-- The narrow release whose write an acquiring atomic has read: chip, core and scope (R310). -/
  release : Option (Nat × Nat × AScope) := none
  deriving DecidableEq, Repr

/-- A request over the fabric (R135, R137). `pass`: a .u request, or one to a page with NC = 1, which passes through the switch
without allocating. An atomic names the core that acquires, when its scope is device or fabric, and the core that releases, when its scope
is core or cluster, each with the scope (R310). -/
inductive FabReq where
  | read (la : Nat) (len : Nat) (pass : Bool)
  | write (la : Nat) (mask : LineMask) (data : Line) (poison : BitVec 4) (pass : Bool)
  | atom (la : Nat) (op : AOp) (x : W64) (pass : Bool) (acq : Option (AScope × Nat)) (rel : Option (AScope × Nat))
  | cas (la : Nat) (is64 facq : Bool) (exp new : W64) (pass : Bool) (acq : Option (AScope × Nat)) (rel : Option (AScope × Nat))
  | red (line : Nat) (ty : RedTy) (op : RedOp) (valid : LineMask) (vals : List (Nat × W64)) (pass : Bool)
  /-- A promotion asks a core to drain its buffers (R310). -/
  | promote (core : Nat)
  /-- An element of XACC performed at another device: FMT, the source element, and the random value of a stochastic conversion (R185,
  R186). -/
  | acc (la fmt src : Nat) (rand : Option Nat) (pass : Bool)
  deriving DecidableEq, Repr

/-- A firmware image in a slot of module flash, as the boot ROM finds it (R401): the SHA-512 digest of its public key, the key's bits and
exponent, whether its RSASSA-PSS signature verifies, and its security version. -/
structure FwSlot where
  keyDigest : Nat
  keyBits : Nat
  exponent : Nat
  verifies : Bool
  svn : Nat
  deriving DecidableEq, Repr

/-- What a host snoop of a host-window half asks (R127, CXL.cache). -/
inductive SnoopKind where | data | inv
  deriving DecidableEq, Repr

/-- Which pending write a home slice serves next (R161): a lane of a memory word, or an entry of a core's store buffer. -/
inductive WSource where
  | lane (g id l : Nat) | storeBuf (core line : Nat) | l1Evict (core line : Nat)
  deriving DecidableEq, Repr

/-- One constructor for each row of spec/opcode_table.json. -/
inductive Instr where
  /-- CLAUSE_HEADER (R22). A path reaches a clause header, the wait conditions WSB, WTE and WBE are checked, and the clause is fetched and begins to issue; an overlay or header fault is raised here. -/
  | clauseHeader (count : BitVec 4) (eng : BitVec 2) (wsb wte : Bool) (wt : BitVec 6) (wbe : Bool) (wb : BitVec 4) (yld lnd lcp : Bool)
  /-- PATH_AGED (R332). A path that has been a candidate for 1,024 consecutive cycles without issuing becomes aged and an AGED event is counted. -/
  | pathAged (g p : Nat)
  /-- NOP (R34). Changes no state. -/
  | nop
  /-- PFX (R31). Supplies mask, zeroing, rounding, a third source and threshold to the next word of the clause. -/
  | pfx (msk : Fin 8) (mske : Bool) (rnd : BitVec 3) (mz : Bool) (c : BitVec 7) (ce : Bool) (thr : BitVec 4)
  /-- UDF (R34). Always raises the illegal-instruction trap with sub-cause UDF, carrying 24 payload bits for the handler. -/
  | udf (u : BitVec 24)
  /-- BRA (R350). Sends every active lane to the direct target. -/
  | bra (t : Target)
  /-- BRC (R350). Sends the lanes selected by a predicate to the direct target and the others to the next clause. -/
  | brc (p : Fin 8) (n : Bool) (t : Target)
  /-- JMP (R351). Sends each lane to the indirect target in its operand after the UNMAPPED, MISALIGN and NOLAND checks. -/
  | jmp (a : Reg)
  /-- CALL (R353). Checks the window, raises WB by 8, writes the return address to the callee's v24 and transfers to the direct target. -/
  | call (t : Target)
  /-- CALLI (R353). Indirect call: window check, target checks of R351, then as CALL to each lane's target. -/
  | calli (a : Reg)
  /-- RET (R354). Ends fibres with WB 0 and returns the others to the address in v24 after the fill check, lowering WB by 8. -/
  | ret
  /-- FORK (R360). Creates child fibres in free lanes for the selected lanes, starting them at the target, and sets the parents' predicate byte. -/
  | fork (p : Fin 8) (n : Bool) (t : Target)
  /-- FEND (R361). Ends the fibres of the selected lanes. -/
  | fend (sel : Sel)
  /-- GROUP_END (R361). When the last fibre of a group has ended and its outstanding memory operations have completed, the group gives up its index and register slots. -/
  | groupEnd (g : Nat)
  /-- REJOIN (R355). Pushes the target onto the rejoin stack of every active fibre of the path, or raises the rejoin-stack trap when a stack is full. -/
  | rejoin (t : Target)
  /-- BRK (R358). Selected fibres discard n rejoin entries and go to the address now on top; the others go on. -/
  | brk (sel : Sel) (n : BitVec 4)
  /-- DEMOTE (R362). Makes the selected lanes helper lanes whose memory side effects are suppressed. -/
  | demote (sel : Sel)
  /-- LOOP (R363). Starts a counted loop of NCL body clauses with register rotation and uniform-register stepping. -/
  | loop (ncl : BitVec 4) (count : LoopCount) (inc : Option (Fin 32))
  /-- LEND (R365). Ends a loop pass, steps the uniform registers and either starts the next pass or leaves the loop. -/
  | lend
  /-- BAR (R369). Makes each active lane arrive at a barrier slot as a release at cluster scope. -/
  | bar (k : Fin 16)
  /-- LAUNCH (R375). Submits a graph header to the escapement's pending queue, or returns ARG or FULL. -/
  | launch (d a : Fin 32)
  /-- CWSET (R376). Performs an indivisible set, add, or or and on the graph instance's condition word and returns the old value. -/
  | cwset (op : CwOp) (d a : Fin 32)
  /-- MWAIT (R373). Holds the path until the group's monitor triggers, a timeout passes, or the monitor is lost, then writes the outcome. -/
  | mwait (d a : Fin 32)
  /-- MWAIT_TIMEOUT (R373). Global time reaches the MWAIT issue time plus T and the wait ends with TIMEOUT. -/
  | mwaitTimeout (g p : Nat)
  /-- MARM (R371). Translates an address and arms the group's monitor on its local HBM line, or disarms it for other targets. -/
  | marm (d a : Fin 32)
  /-- YIELD (R374). Ends the clause and makes the path's next clause not a candidate for n cycles. -/
  | yield (n : BitVec 9)
  /-- YIELD_EXPIRY (R374). The n-cycle count of a YIELD runs out and the path becomes a candidate again. -/
  | yieldExpiry (g p : Nat)
  /-- MOVW (R232). Writes a 16-bit immediate into one quarter of the destination, keeping or clearing the rest. -/
  | movw (q : Fin 4) (d : Reg) (k : Bool) (imm : BitVec 16)
  /-- MOV (R233). Copies the whole 64-bit source. -/
  | mov (d : Dst) (a : Src)
  /-- SEL (R233). Selects per element between two sources by a third. -/
  | sel (d : Dst) (a b : Src) (w : Width)
  /-- ADD (R233). Integer elementwise addition modulo 2^w. -/
  | add (d : Dst) (a b : Src) (w : Width)
  /-- SUB (R233). Integer elementwise subtraction modulo 2^w. -/
  | sub (d : Dst) (a b : Src) (w : Width)
  /-- ADDI (R233). Adds a sign-extended 9-bit immediate to a 64-bit value. -/
  | addi (d : Dst) (a : Src) (imm : BitVec 9)
  /-- MUL (R233). Integer elementwise multiplication modulo 2^w. -/
  | mul (d : Dst) (a b : Src) (w : Width)
  /-- MULHI (R233). High half of the exact integer product. -/
  | mulhi (d : Dst) (a b : Src) (t : SWidth)
  /-- MAD (R233). Integer multiply-add modulo 2^w. -/
  | mad (d : Dst) (a b : Src) (w : Width)
  /-- DIV (R234). Integer division truncating toward zero with defined results for zero and overflow. -/
  | div (d : Dst) (a b : Src) (t : SWidth)
  /-- REM (R234). Integer remainder with the sign of the dividend. -/
  | rem (d : Dst) (a b : Src) (t : SWidth)
  /-- MIN (R233). Integer elementwise minimum. -/
  | min (d : Dst) (a b : Src) (t : SWidth)
  /-- MAX (R233). Integer elementwise maximum. -/
  | max (d : Dst) (a b : Src) (t : SWidth)
  /-- ABS (R233). Integer elementwise absolute value. -/
  | abs (d : Dst) (a : Src) (w : Width)
  /-- NEG (R233). Integer elementwise negation. -/
  | neg (d : Dst) (a : Src) (w : Width)
  /-- ADDS (R233). Saturating integer addition. -/
  | adds (d : Dst) (a b : Src) (t : SWidth)
  /-- SUBS (R233). Saturating integer subtraction. -/
  | subs (d : Dst) (a b : Src) (t : SWidth)
  /-- AND (R233). Bitwise AND over 64 bits. -/
  | and (d : Dst) (a b : Src)
  /-- OR (R233). Bitwise OR over 64 bits. -/
  | or (d : Dst) (a b : Src)
  /-- XOR (R233). Bitwise XOR over 64 bits. -/
  | xor (d : Dst) (a b : Src)
  /-- ANDN (R233). Bitwise AND with the complement of the second source. -/
  | andn (d : Dst) (a b : Src)
  /-- ANDI (R233). Bitwise AND with a sign-extended immediate. -/
  | andi (d : Dst) (a : Src) (imm : BitVec 9)
  /-- ORI (R233). Bitwise OR with a sign-extended immediate. -/
  | ori (d : Dst) (a : Src) (imm : BitVec 9)
  /-- XORI (R233). Bitwise XOR with a sign-extended immediate. -/
  | xori (d : Dst) (a : Src) (imm : BitVec 9)
  /-- SHL (R233). Elementwise logical left shift. -/
  | shl (d : Dst) (a b : Src) (w : Width)
  /-- SHR (R233). Elementwise logical right shift. -/
  | shr (d : Dst) (a b : Src) (w : Width)
  /-- SAR (R233). Elementwise arithmetic right shift. -/
  | sar (d : Dst) (a b : Src) (w : Width)
  /-- ROT (R233). Elementwise rotate left. -/
  | rot (d : Dst) (a b : Src) (w : Width)
  /-- SHLI (R233). Elementwise left shift by an immediate count. -/
  | shli (d : Dst) (a : Src) (w : Width) (n : BitVec 6)
  /-- SHRI (R233). Elementwise logical right shift by an immediate count. -/
  | shri (d : Dst) (a : Src) (w : Width) (n : BitVec 6)
  /-- SARI (R233). Elementwise arithmetic right shift by an immediate count. -/
  | sari (d : Dst) (a : Src) (w : Width) (n : BitVec 6)
  /-- CLZ (R233). Counts leading zero bits per element. -/
  | clz (d : Dst) (a : Src) (w : Width)
  /-- POPC (R233). Counts one bits per element. -/
  | popc (d : Dst) (a : Src) (w : Width)
  /-- BREV (R233). Reverses the bits of each element. -/
  | brev (d : Dst) (a : Src) (w : Width)
  /-- BFX (R235). Extracts a bit field, zero- or sign-extended. -/
  | bfx (d : Dst) (a b : Src) (sgn : Bool)
  /-- BFI (R235). Inserts a bit field into the third source. -/
  | bfi (d : Dst) (a b : Src)
  /-- BDEP (R236). Deposits low bits into the positions of a mask. -/
  | bdep (d : Dst) (a b : Src)
  /-- BEXT (R236). Gathers bits at the positions of a mask into the low bits. -/
  | bext (d : Dst) (a b : Src)
  /-- PERM (R238). Arbitrary 64-bit bit permutation controlled by six consecutive registers. -/
  | perm (d : Dst) (a : Src) (b : Reg)
  /-- GFMM (R237). 8 x 8 matrix multiply over GF(2), optionally with the second operand transposed. -/
  | gfmm (d : Dst) (a b : Src) (tr : Bool)
  /-- ICMP (R239). Integer elementwise compare writing a predicate. -/
  | icmp (cc : ICond) (k : Fin 8) (a b : Src) (w : Width)
  /-- ICMPI (R239). Integer 64-bit compare with a sign-extended immediate writing a predicate. -/
  | icmpi (cc : ICond) (k : Fin 8) (a : Src) (imm : BitVec 9)
  /-- PLOG (R241). Bitwise logic of two predicates by a four-bit truth table. -/
  | plog (tt : BitVec 4) (d a b : Fin 8)
  /-- PMOV_TO_VREG (R242). Copies one predicate byte into a window register, zero-extended. -/
  | pmovToVreg (d : Fin 32) (k : Fin 8)
  /-- PMOV_TO_PRED (R242). Sets one predicate byte from the low byte of a register. -/
  | pmovToPred (k : Fin 8) (a : Src)
  /-- PMOV_PALL_TO_VREG (R242). Copies the whole predicate word into a window register. -/
  | pmovPallToVreg (d : Fin 32)
  /-- PMOV_VREG_TO_PALL (R242). Sets the whole predicate word from a register. -/
  | pmovVregToPall (a : Src)
  /-- LEA (R233). Adds a scaled sign-extended 32-bit index to a 64-bit base. -/
  | lea (d : Dst) (a b : Src) (sc : Fin 4)
  /-- SEXT (R233). Sign-extends the low 8, 16 or 32 bits to 64. -/
  | sext (d : Dst) (a : Src) (fr : Fin 3)
  /-- ZEXT (R233). Zero-extends the low 8, 16 or 32 bits to 64. -/
  | zext (d : Dst) (a : Src) (fr : Fin 3)
  /-- SHFL (R244). Cross-lane shuffle by index, up, down or xor. -/
  | shfl (d : Dst) (a b : Src) (m : ShMode)
  /-- BCAST (R245). Broadcasts one lane's value, chosen by an operand, to every participating lane or a uniform register. -/
  | bcast (d : Dst) (a b : Src)
  /-- BCAST_FIRST (R245). Broadcasts the lowest participating lane's value. -/
  | bcastFirst (d : Dst) (a : Src)
  /-- VOTE (R246). Computes any, all or ballot of a predicate across the path. -/
  | vote (d : Dst) (k : Fin 8) (m : VoteMode)
  /-- IRED (R247). Integer reduction across the participating lanes. -/
  | ired (d : Dst) (a : Src) (op : LaneOp)
  /-- ISCAN (R247). Integer inclusive or exclusive scan across lanes in ascending order. -/
  | iscan (d : Dst) (a : Src) (op : LaneOp) (excl : Bool)
  /-- FADD (R248). Correctly rounded floating-point addition. -/
  | fadd (d : Dst) (a b : Src) (f : FFmt)
  /-- FSUB (R248). Correctly rounded floating-point subtraction. -/
  | fsub (d : Dst) (a b : Src) (f : FFmt)
  /-- FMUL (R248). Correctly rounded floating-point multiplication. -/
  | fmul (d : Dst) (a b : Src) (f : FFmt)
  /-- FFMA (R248). Fused multiply-add with one rounding. -/
  | ffma (d : Dst) (a b : Src) (f : FFmt)
  /-- FMIN (R249). IEEE minimumNumber. -/
  | fmin (d : Dst) (a b : Src) (f : FFmt)
  /-- FMAX (R249). IEEE maximumNumber. -/
  | fmax (d : Dst) (a b : Src) (f : FFmt)
  /-- FABS (R248). Clears the sign bit. -/
  | fabs (d : Dst) (a : Src) (f : FFmt)
  /-- FNEG (R248). Inverts the sign bit. -/
  | fneg (d : Dst) (a : Src) (f : FFmt)
  /-- FDIV (R248). Correctly rounded floating-point division. -/
  | fdiv (d : Dst) (a b : Src) (f : FFmt)
  /-- FSQRT (R248). Correctly rounded square root. -/
  | fsqrt (d : Dst) (a : Src) (f : FFmt)
  /-- FRCP (R248). Correctly rounded reciprocal. -/
  | frcp (d : Dst) (a : Src) (f : FFmt)
  /-- FRSQ (R248). Correctly rounded reciprocal square root. -/
  | frsq (d : Dst) (a : Src) (f : FFmt)
  /-- FCMP (R240). Floating-point compare of element 0 writing a whole-lane predicate. -/
  | fcmp (cc : FCond) (k : Fin 8) (a b : Src) (f : FFmt)
  /-- FCLASS (R251). Writes a one-hot class mask of the value. -/
  | fclass (d : Dst) (a : Src) (f : FFmt)
  /-- FCPYS (R248). Copies a value with the sign of another. -/
  | fcpys (d : Dst) (a b : Src) (f : FFmt)
  /-- FDOT2 (R250). Two-element FP16 or BF16 dot product plus an FP32 addend, rounded once. -/
  | fdot2 (d : Dst) (a b : Src) (f : DFmt)
  /-- FEXP2 (R253). Computes 2^x. -/
  | fexp2 (d : Dst) (a : Src) (f : SpFmt)
  /-- FLOG2 (R253). Computes log2 x. -/
  | flog2 (d : Dst) (a : Src) (f : SpFmt)
  /-- FSIN (R253). Computes sin(pi x). -/
  | fsin (d : Dst) (a : Src) (f : SpFmt)
  /-- FCOS (R253). Computes cos(pi x). -/
  | fcos (d : Dst) (a : Src) (f : SpFmt)
  /-- FTANH (R253). Computes tanh x. -/
  | ftanh (d : Dst) (a : Src) (f : SpFmt)
  /-- FERF (R253). Computes erf x. -/
  | ferf (d : Dst) (a : Src) (f : SpFmt)
  /-- FRND (R252). Rounds to an integral value in the format. -/
  | frnd (d : Dst) (a : Src) (f : FFmt)
  /-- FFRAC (R252). Returns x minus trunc(x). -/
  | ffrac (d : Dst) (a : Src) (f : FFmt)
  /-- FRED (R254). Floating-point reduction over a full tree of W leaves. -/
  | fred (d : Dst) (a : Src) (op : FOp) (f : RFmt)
  /-- FSCAN (R255). Sequential floating-point scan in ascending lane order. -/
  | fscan (d : Dst) (a : Src) (op : FOp) (excl : Bool) (f : RFmt)
  /-- FCVT (R256). Converts between floating-point formats, optionally saturating. -/
  | fcvt (d : Dst) (a : Src) (dst src : CFmt) (sat : Bool)
  /-- ICVT (R257). Converts an integer to a floating-point format. -/
  | icvt (d : Dst) (a : Src) (dst : FFmt) (ty : IntTy)
  /-- FICVT (R257). Converts a floating-point value to a saturated integer. -/
  | ficvt (d : Dst) (a : Src) (src : CFmt) (ty : IntTy)
  /-- PACK (R258). Packs the even elements of two sources. -/
  | pack (d : Dst) (a b : Src) (w : PkW)
  /-- UNPK (R258). Spreads the elements of one half of a source. -/
  | unpk (d : Dst) (a : Src) (w : PkW) (hi : Bool)
  /-- QMX4 (R259). Quantises each octet's 32 BF16 values into one MXFP4 block. -/
  | qmx4 (d : Fin 32) (a : Src)
  /-- DQMX4 (R260). Dequantises four MXFP4 codes to BF16. -/
  | dqmx4 (d : Dst) (a b : Src) (q : Fin 4)
  /-- QF8 (R261). Scales and quantises two FP32 values to FP8. -/
  | qf8 (d : Dst) (a b : Src) (k : F8)
  /-- DQF8 (R261). Dequantises two FP8 values to scaled FP32. -/
  | dqf8 (d : Dst) (a b : Src) (k : F8)
  /-- QI8 (R262). Scales and quantises two FP32 values to INT8. -/
  | qi8 (d : Dst) (a b : Src)
  /-- QI4 (R262). Scales and quantises two FP32 values to INT4. -/
  | qi4 (d : Dst) (a b : Src)
  /-- RSCL (R263). Applies two-level channel scales from a scratchpad table to an FP32 accumulation. -/
  | rscl (d : Dst) (a : Src) (b : Fin 32)
  /-- SRND (R264). Computes the counter-based 64-bit random mix. -/
  | srnd (d : Dst) (a b : Src)
  /-- PADD (R265). Packed floating-point addition. -/
  | padd (d : Dst) (a b : Src) (f : PFmt)
  /-- PSUB (R265). Packed floating-point subtraction. -/
  | psub (d : Dst) (a b : Src) (f : PFmt)
  /-- PMUL (R265). Packed floating-point multiplication. -/
  | pmul (d : Dst) (a b : Src) (f : PFmt)
  /-- PFMA (R265). Packed fused multiply-add. -/
  | pfma (d : Dst) (a b : Src) (f : PFmt)
  /-- PMIN (R265). Packed minimumNumber. -/
  | pmin (d : Dst) (a b : Src) (f : PFmt)
  /-- PMAX (R265). Packed maximumNumber. -/
  | pmax (d : Dst) (a b : Src) (f : PFmt)
  /-- PDOT (R266). Packed dot product plus an FP32 addend, rounded once. -/
  | pdot (d : Dst) (a b : Src) (f : PFmt)
  /-- MQA (R277). Posts a floating-point matrix multiply-accumulate request of fragments to the cluster's matrix engine. -/
  | mqa (d a : Fin 32) (b : MatB) (f : MqaF)
  /-- MQAX (R277). Posts an MXFP4 or mixed-FP8 matrix request. -/
  | mqax (d a : Fin 32) (b : MatB) (f : MqaxF)
  /-- MQAI (R279). Posts an integer matrix request accumulating modulo 2^32. -/
  | mqai (d a : Fin 32) (b : MatB) (f : MqaiF)
  /-- MATRIX_GRANT (R269). The matrix arbiter grants a waiting request when the array is free, by priority, posting order and core index. -/
  | matrixGrant (c : Nat)
  /-- MATRIX_REQUEST_AGED (R269). A matrix request that has waited 256 engine cycles counts as having the highest priority. -/
  | matrixRequestAged (c id : Nat)
  /-- MATRIX_PASS_END (R270). A matrix pass finishes its summation and writes its destination registers, producing NaN results and a storage-error event on an uncorrectable error. -/
  | matrixPassEnd (c id : Nat) (regErr : Bool)
  /-- MTF (R284). Starts a remote tile fetch from line 0 into the scratchpad staging area. -/
  | mtf (d a : Fin 32)
  /-- MTFR (R286). Resumes a tile fetch from its PROGRESS line. -/
  | mtfr (d a : Fin 32)
  /-- MTF_LINE_ARRIVAL (R287). A fetched line's response arrives and lands in staging, or stops the fetch with its fault, poison or fabric code. -/
  | mtfLineArrival (core id line : Nat) (ans : FabAns)
  /-- MSYNC (R283). Waits until every earlier matrix word of the group has written back and delivers pending storage errors. -/
  | msync
  /-- SMM (R294). Per-lane small-matrix multiply. -/
  | smm (d a b : Fin 32) (f : SmF)
  /-- SMADD (R294). Per-lane small-matrix addition. -/
  | smadd (d a b : Fin 32) (f : SmF)
  /-- STRN (R294). Per-lane small-matrix transpose. -/
  | strn (d a b : Fin 32) (f : SmF)
  /-- SCHOL (R295). Per-lane Cholesky factorisation with pivot tests. -/
  | schol (d a b : Fin 32) (f : SmF)
  /-- SLUF (R296). Per-lane LU factorisation with partial pivoting. -/
  | sluf (d a b : Fin 32) (f : SmF)
  /-- SSOL (R297). Per-lane solve from LU or Cholesky factors. -/
  | ssol (d a b : Fin 32) (f : SmF)
  /-- STRS (R298). Per-lane triangular solve. -/
  | strs (d a b : Fin 32) (f : SmF)
  /-- SDET (R299). Per-lane determinant by LU steps. -/
  | sdet (d a b : Fin 32) (f : SmF)
  /-- LD (R169). Loads per lane, or once for a uniform destination, with the request type's caching behaviour. -/
  | ld (d : Reg) (a : Reg) (t : MType) (z : MSize) (off : BitVec 6)
  /-- ST (R169). Stores per lane with the request type's caching behaviour. -/
  | st (d : Src) (a : Reg) (t : MType) (z : MSize) (off : BitVec 6)
  /-- LDS (R169). Loads from the block's scratchpad, checked against range and buffer state. -/
  | lds (d : Reg) (a : Reg) (z : MSize) (off : BitVec 6)
  /-- STS (R169). Stores to the block's scratchpad, checked against range and buffer state. -/
  | sts (d : Src) (a : Reg) (z : MSize) (off : BitVec 6)
  /-- GATH (R172). Gathers per lane from a uniform base plus scaled 32-bit index. -/
  | gath (d : Fin 32) (a : Reg) (b : Fin 32) (z : MSize)
  /-- SCAT (R172). Scatters per lane to a uniform base plus scaled 32-bit index. -/
  | scat (d : Src) (a : Reg) (b : Fin 32) (z : MSize)
  /-- LDU (R169). Unaligned load that may span two words or two pages. -/
  | ldu (d : Reg) (a : Reg) (t : MType) (z : MSize) (off : BitVec 6)
  /-- PREF (R173). Brings a line into the L1 or home slice without trapping. -/
  | pref (k : Bool) (a : Reg) (t : MType) (off : BitVec 6)
  /-- MEMORY_RESPONSE (R169). A load lane's data returns from the L1, home slice, fabric or host and writes its destination. -/
  | memoryResponse (g id l : Nat)
  /-- PAGE_WALK_COMPLETE (R112). A page walk ends with a translation that is cached and given to every joined request, or with a fault sub-cause. -/
  | pageWalkComplete (die vpage : Nat)
  /-- HOME_SLICE_WRITE (R161). A home slice serves a write: recalls an owned copy, drops other tracked copies and merges bytes under the mask. -/
  | homeSliceWrite (src : WSource)
  /-- HOME_SLICE_READ (R161). A home slice serves a read, recalling dirty bytes of an owned copy. -/
  | homeSliceRead (g id l : Nat)
  /-- CFLUSH (R174). Writes back and drops a line at the L1 or at the home slice too. -/
  | cflush (a : Reg) (k : Bool)
  /-- CINV (R175). Drops untracked copies in the issuing L1, by line or all. -/
  | cinv (a : Option Reg)
  /-- BUFSET (R176). Requests EMPTY or FULL on a scratchpad buffer and returns old state and status. -/
  | bufset (d : Fin 32) (f : Bool) (n : Fin 16)
  /-- BUFGET (R176). Returns the state code of a scratchpad buffer. -/
  | bufget (d : Fin 32) (n : Fin 16)
  /-- ATOM (R313). Performs an indivisible read-modify-write per lane at the home with optional release and acquire. -/
  | atom (d : Fin 32) (a : Reg) (op : AOp) (sc : AScope) (ord : AOrd)
  /-- CAS (R314). Compare-and-swap per lane with optional ordering and acquire on failure. -/
  | cas (d : Fin 32) (a : Reg) (facq is64 : Bool) (sc : AScope) (ord : AOrd)
  /-- FENCE (R315). Release, acquire or both at a scope, performing the scope's actions. -/
  | fence (sc : Scope) (k : FKind)
  /-- FENCE_MODE_GIVE (R57). Drains the group's stores, moves a RESERVED lease to GIVING and starts the sweep, waiting until HELD. -/
  | fenceModeGive (d a : Fin 32)
  /-- FENCE_MODE_TAKE (R68). Waits for a lease to return, or returns an ENDING lease once its BGEs have stopped, ordering the return before later accesses. -/
  | fenceModeTake (d a : Fin 32)
  /-- ROWGIVE (R67). Reads a lease request block and reserves a lease or returns a refusal status. -/
  | rowgive (d a : Fin 32)
  /-- ROWTAKE (R69). Applies the ROWTAKE event to a lease and returns its status without waiting. -/
  | rowtake (d a : Fin 32)
  /-- LAYOUT (R70). Queues a transpose into bank-striped form on the destination stack's layout engine. -/
  | layout (a : Fin 32) (n : BitVec 6)
  /-- PHASE_OPEN (R316). Opens a private publication region for the block on the core. -/
  | phaseOpen (d a b : Fin 32)
  /-- PHASE_END (R318). Releases at device scope and publishes a private region at one point, then closes it. -/
  | phaseEnd (d a : Fin 32)
  /-- PHASE_PUBLICATION (R318). A held publication takes effect when its row sets are compute-owned, writing private bytes and dropping every copy of the lines. -/
  | phasePublication (core handle : Nat)
  /-- RED (R147). Merges no-return reductions into the core's merge buffer per lane. -/
  | red (d : Src) (a : Reg) (ty : RedTy) (op : RedOp)
  /-- RED_ENTRY_APPLY (R149). At the home each valid element of a flushed entry is applied as an indivisible read-modify-write, with poison raising an imprecise trap. -/
  | redEntryApply (core line el : Nat)
  /-- XCOPY (R183). Issues a byte copy to the cluster's transfer engine. -/
  | xcopy (bar : Option (Fin 16)) (a : Fin 32) (n : BitVec 6)
  /-- XSTR (R183). Issues a strided row copy. -/
  | xstr (bar : Option (Fin 16)) (a : Fin 32) (n : BitVec 6)
  /-- XLAY (R184). Issues a bank-striped to row-major copy. -/
  | xlay (bar : Option (Fin 16)) (a : Fin 32) (n : BitVec 6)
  /-- XACC (R185). Issues an element accumulation with conversion. -/
  | xacc (bar : Option (Fin 16)) (a : Fin 32) (n : BitVec 6)
  /-- TRANSFER_START (R182). A transfer command starts, checks its block and applies buffer state events. -/
  | transferStart (c id : Nat)
  /-- TRANSFER_END (R188). A transfer command completes or stops, writes its block fields, changes buffer state, makes its tag ready and arrives at its barrier. -/
  | transferEnd (c id : Nat)
  /-- XPUB (R196). Requests commit or discard of a shadow set. -/
  | xpub (d : Fin 32) (x : Bool) (h : Fin 4)
  /-- XPUB_COMMIT (R196). Once the set's earlier commands complete, the shadow lines are committed or discarded at one point and the set freed. -/
  | xpubCommit (c h : Nat)
  /-- OVLD (R198). Loads an overlay into a named instruction-store slot. -/
  | ovld (d a : Fin 32) (slot : Fin 4) (n : BitVec 6)
  /-- OVPF (R199). Prefetches an overlay into an available slot when possible. -/
  | ovpf (a : Fin 32) (n : BitVec 6)
  /-- OVERLAY_LOAD_END (R198). An overlay load completes, making the slot resident or empty and releasing frozen paths. -/
  | overlayLoadEnd (c id : Nat)
  /-- WAITANY (R192). Waits until any tag of a mask is ready and returns the ready set. -/
  | waitany (d a : Fin 32)
  /-- WAITALL (R192). Waits until every tag of a mask is ready. -/
  | waitall (a : Fin 32)
  /-- FFR (R192). Returns the lowest ready tag in a mask without waiting. -/
  | ffr (d a : Fin 32)
  /-- BGLOAD (R99). Queues a bank-program image load for a set of BGEs. -/
  | bgload (a : Fin 32) (n : BitVec 6)
  /-- BGVEC (R100). Queues a vector-store fill for a set of BGEs. -/
  | bgvec (a : Fin 32) (n : BitVec 6)
  /-- BGRUN (R101). Queues a run of bank programs, or refuses at once for a bad CREC. -/
  | bgrun (a : Fin 32) (n : BitVec 6)
  /-- BGWAIT (R103). Writes the status of the last bank command on a tag when the tag is ready. -/
  | bgwait (d : Fin 32) (n : BitVec 6)
  /-- BGLOAD_EXECUTE (R99). At its turn and with its set idle, BGLOAD clears VALID and copies and checks the image into each command store. -/
  | bgloadExecute (st id : Nat)
  /-- BGLOAD_END (R99). The image copy ends, setting VALID on success, writing STATUS and making the tag ready. -/
  | bgloadEnd (st id : Nat)
  /-- BGVEC_EXECUTE (R100). When its halves are free, or with FORCE when the set is idle, BGVEC writes entries to every BGE of the set. -/
  | bgvecExecute (st id : Nat)
  /-- BGVEC_END (R100). The vector fill ends, sets FULL bits on success, writes STATUS and DONE and makes the tag ready. -/
  | bgvecEnd (st id : Nat)
  /-- BGRUN_START (R102). At its turn BGRUN checks its block and leases, fills the row-translation cache and starts every BGE at ENTRY. -/
  | bgrunStart (st id : Nat)
  /-- BANK_RUN_END (R94). When every BGE of a run has stopped, the stack writes the completion record and makes the tag ready. -/
  | bankRunEnd (st id : Nat)
  /-- BANK_MOVE_PORT (R74). A BGE executes a move from a source port to a destination port under its guard, starting the unit behind a trigger port. -/
  | bankMovePort (gn : Bool) (gsel : Fin 8) (dst src : BitVec 7) (md : BitVec 13)
  /-- BANK_MOVE_IMMEDIATE (R74). A BGE executes a move of a 16-bit immediate to a destination port under its guard. -/
  | bankMoveImmediate (gn : Bool) (gsel : Fin 8) (dst : BitVec 7) (imm : BitVec 16) (md : BitVec 4)
  /-- BANK_STREAM_END (R80). A running DOT, BSLD, ACCST or ACCLD stream has read or written its last slice, releasing stalled moves. -/
  | bankStreamEnd (k : Nat)
  /-- BANK_CHIME_STEP (R90). The broadcast sequencer carries one move to every BGE of a chime set and advances every stream by one slice when all can take it. -/
  | bankChimeStep (st id : Nat)
  /-- BANK_REFRESH (R48). Every 2,340 BGE cycles a bank is refreshed and its BGE stalls 108 cycles at a column boundary. -/
  | bankRefresh (k bank : Nat)
  /-- BUFFER_TAKE_TIMEOUT (R49). An ordinary request that has waited 256 BGE cycles takes a row buffer and the BGE stalls 48 cycles. -/
  | bufferTakeTimeout (k bank row : Nat)
  /-- GRED (R105). Issues weighted element reads that are reduced per physical bank in ascending lane order. -/
  | gred (d : Fin 32) (a : Reg) (b : Src) (fp32 : Bool)
  /-- GRED_COMPLETE (R106). When every partial has returned, GRED writes each bank's sum and -0.0 to the other lanes. -/
  | gredComplete (g id : Nat)
  /-- MLR (R151). Reads one element on every member device of a block and returns the reduced sum, count and code per lane. -/
  | mlr (d : Fin 32) (a : Reg) (b : Fin 32) (fp32 : Bool)
  /-- MLR_COMPLETE (R152). When every member has answered, MLR writes each lane's result and the block's PMASK and CODE. -/
  | mlrComplete (g id : Nat)
  /-- TRAP (R392). Raises SOFTWARE with code n. -/
  | trap (n : BitVec 9)
  /-- TRET (R384). Returns through the frame, restoring registers, replaying listed lanes and resuming the paths. -/
  | tret
  /-- TRET_FAIL (R382). Ends the block FATAL. -/
  | tretFail
  /-- RDSR (R393). Reads a status register. -/
  | rdsr (d : Reg) (idx : BitVec 8)
  /-- WRSR (R393). Writes a status register, with WINBASE, TAGS and CW following their own rules. -/
  | wrsr (a : Src) (idx : BitVec 8)
  /-- BKPT (R392). Raises BREAK with code n. -/
  | bkpt (n : BitVec 9)
  /-- RDTIME (R394). Writes the core's copy of global time. -/
  | rdtime (d : Reg)
  /-- PERF (R394). Writes a scheduling-event counter of the core. -/
  | perf (d : Reg) (e : Fin 8)
  /-- TRAP_ENTRY (R379). After the group's translations, matrix passes and buffers settle, the frame is written and the handler starts at TVEC. -/
  | trapEntry (g : Nat)
  /-- LEASE_RESERVATION_TIMEOUT (R53). A RESERVED lease not fenced within DUR µs is freed with cause CANCELLED. -/
  | leaseReservationTimeout (st x : Nat)
  /-- SWEEP_COMPLETE (R57). The hand-over sweep's write-backs reach DRAM and a GIVING lease becomes HELD with E set, or FREE if taken meanwhile. -/
  | sweepComplete (st x : Nat)
  /-- LEASE_EXPIRY (R53). Controller time reaches E and a HELD lease moves to ENDING with cause EXPIRED. -/
  | leaseExpiry (st x : Nat)
  /-- BGE_LEASE_EXPIRY (R61). A BGE's own clock copy reaches E and it stops its program with EXPIRED at a column boundary. -/
  | bgeLeaseExpiry (k slices : Nat)
  /-- ENDING_TIMEOUT (R53). A lease 2,000 ticks in ENDING is returned, with LEASE-LOST if a BGE had not stopped. -/
  | endingTimeout (st x : Nat)
  /-- CLOCK_READBACK (R61). Every 1,000 ticks the base die reads each BGE's clock copy back and slews it toward its own. -/
  | clockReadback (st : Nat)
  /-- LEASE_RETURN (R58). A lease returns: BGEs stop and drain, translations drop, the record is written, row sets become compute-owned and held requests are served. -/
  | leaseReturn (st x : Nat)
  /-- LAYOUT_COMMAND_START (R70). A layout engine takes a queued transpose, reads and checks its block and begins writing rows. -/
  | layoutCommandStart (st : Nat)
  /-- LAYOUT_COMMAND_END (R70). A transpose ends or stops, writes DONE and STATUS and makes its tag ready. -/
  | layoutCommandEnd (st : Nat)
  /-- XLINV_WRITE (R120). A write to XLINV queues one translation invalidation on every die, or is dropped and sets PERR. -/
  | xlinvWrite (ag : Agent) (v : W64)
  /-- XLINV_COMPLETE (R120). A queued invalidation completes after its entries are dropped, walks finish and accesses using them are performed. -/
  | xlinvComplete (die idx : Nat)
  /-- XLSTAT_WRITE (R120). A write of 1 to XLSTAT.PERR clears it. -/
  | xlstatWrite (ag : Agent) (v : W64)
  /-- PTBASE_WRITE (R111). A write to PTBASE sets the root and enable, or is dropped with PERR while groups are resident or for a root outside HBM. -/
  | ptbaseWrite (ag : Agent) (v : W64)
  /-- HOST_MEM_READ (R126). The host reads a half of device memory over CXL.mem and is served with the latest device-scope value. -/
  | hostMemRead (half : Nat)
  /-- HOST_MEM_WRITE (R126). The host writes or requests ownership of a half, invalidating every device L1 copy of it. -/
  | hostMemWrite (half : Nat) (own : Bool) (mask : BitVec 64) (data : BitVec 512) (poison : Bool)
  /-- BACK_INVALIDATE_RESPONSE (R126). The host's response to a back-invalidation arrives, merging its data and moving the half's host state. -/
  | backInvalidateResponse (half : Nat) (dirty : Option (BitVec 512 × Bool))
  /-- HOST_SNOOP (R127). The host snoops a host-window half that the device caches, answered per half. -/
  | hostSnoop (half : Nat) (k : SnoopKind) (data : Option (BitVec 512 × Bool))
  /-- LINK_UP (R130). A fabric link comes up and negotiates its extension version, or is reported down to the regulator cores. -/
  | linkUp (port : Fin 16) (ver : Option (BitVec 16))
  /-- FABRIC_REQUEST_ARRIVAL (R139). A receiver takes a transaction, performing it in SN order, holding it, or discarding a duplicate with PENDING or the kept response. -/
  | fabricRequestArrival (chip plane sn low : Nat) (req : FabReq)
  /-- FABRIC_RESPONSE (R138). A response arrives at the source and retires its transaction from the replay buffer. -/
  | fabricResponse (chip plane sn : Nat) (ans : FabAns)
  /-- PENDING_NOTICE (R140). A PENDING notice arrives and restarts RSPT and the resend count. -/
  | pendingNotice (chip plane sn : Nat)
  /-- RSPT_EXPIRY (R140). A transaction's response timer expires and it is resent with the same SN, reporting the chip failing after eight resends. -/
  | rsptExpiry (chip plane sn : Nat)
  /-- DLRT_EXPIRY (R140). A packet that has waited 10 µs in one hop's queue is dropped silently. -/
  | dlrtExpiry (chip plane sn : Nat)
  /-- FHOLD_EXPIRY (R142). A chip stays DOWN for FHOLD.MS and its held transactions complete ABSENT. -/
  | fholdExpiry (chip : Nat)
  /-- RESYNC (R144). A receiver gets a RESYNC, drops its window and kept responses for the chip and sets NEXP to LOW. -/
  | resync (chip plane low : Nat)
  /-- CALIBRE_WRITE (R144). A regulator-core write to a calibre entry changes routing; DOWN falling with a new GEN makes sources send RESYNC and resend. -/
  | calibreWrite (ag : Agent) (pod : Bool) (i : Nat) (v : W64)
  /-- FHOLD_WRITE (R133). A write to FHOLD sets the hold limit, taking 0 and values above 4,000 as 4,000. -/
  | fholdWrite (ag : Agent) (v : W64)
  /-- TIME_SAMPLE (R404). A time sample arrives on a link and the local copy is slewed toward it. -/
  | timeSample (port : Fin 16) (v : W64)
  /-- TIME_SAMPLE_TIMEOUT (R405). No sample arrives within 10 ms of leaving off and the device starts its own count at 0. -/
  | timeSampleTimeout
  /-- ANCHOR_WRITE (R335). A write to an anchor register sets its line and enable, starting a scan when EN becomes 1. -/
  | anchorWrite (ag : Agent) (k : Fin 16) (v : W64)
  /-- ANCHOR_SCAN (R335). After a write to an anchor line, the escapement exchanges non-empty slots with 0 and starts an instance for each. -/
  | anchorScan (k : Fin 16)
  /-- INSTANCE_START (R336). The escapement reads and checks a graph header, initialises CW and nodes and fires nodes with NDEP 0. -/
  | instanceStart
  /-- NODE_FIRE (R338). A node's CNT reaches 0, it is reset and the node joins the ready queue or keeps a firing. -/
  | nodeFire (inst node : Nat)
  /-- KERNEL_NODE_RUN (R342). A kernel node enters the dispatch list after its launch header is checked. -/
  | kernelNodeRun (inst node : Nat)
  /-- TRANSFER_NODE_RUN (R337). A transfer node issues its command to a cluster's transfer engine. -/
  | transferNodeRun (inst node : Nat)
  /-- BANK_NODE_RUN (R337). A bank node queues BGLOAD, BGVEC or BGRUN at the stack of its set. -/
  | bankNodeRun (inst node : Nat)
  /-- CONDITION_NODE_RUN (R337). A condition node tests the masked condition word. -/
  | conditionNodeRun (inst node : Nat)
  /-- WHILE_NODE_RUN (R337). A while node tests the condition word and adds CWADD when true. -/
  | whileNodeRun (inst node : Nat)
  /-- BARRIER_NODE_RUN (R337). A barrier node runs and does nothing. -/
  | barrierNodeRun (inst node : Nat)
  /-- HOST_SIGNAL_NODE_RUN (R337). A host-signal node writes a value with a host-scope release and may raise MSI-X vector 0. -/
  | hostSignalNodeRun (inst node : Nat)
  /-- NODE_RUN_END (R338). A node run ends, writes STATUS and RUNS and decrements its successors or stops the instance. -/
  | nodeRunEnd (inst node : Nat)
  /-- INSTANCE_END (R339). With no node running or ready, the escapement writes STATUS, TEND and DONEV to DONEA. -/
  | instanceEnd (inst : Nat)
  /-- BLOCK_PLACEMENT (R342). The dispatcher places a block, or a saved block, on cores with room and sets up its groups. -/
  | blockPlacement
  /-- DISPATCH_WAIT_EXPIRY (R342). A head block waiting 100,000 ticks reserves the cluster with most free room against other launches. -/
  | dispatchWaitExpiry
  /-- BLOCK_END (R328). A block whose fibres have ended and whose commands, fetches and buffers have finished leaves its cores as a host-scope release. -/
  | blockEnd (b : Nat)
  /-- PREQ_CLOSE (R386). PREQ with OP 1 closes the named clusters and pre-empts every resident block. -/
  | preqClose (ag : Agent) (v : W64)
  /-- PREQ_OPEN (R386). PREQ with OP 2 opens the named clusters again. -/
  | preqOpen (ag : Agent) (v : W64)
  /-- BLOCK_PREEMPT_SAVE (R387). Once a pre-empted block's groups, commands and buffers have settled, the remontoire writes its image to a free context slot. -/
  | blockPreemptSave (b : Nat)
  /-- REGISTER_WRITE (R109). A write to a register-window register without behaviour of its own stores its RW fields. -/
  | registerWrite (ag : Agent) (off : Nat) (v : W64)
  /-- VERSEL_WRITE (R397). The host selects interface versions; unacceptable fields read back 0 and their interfaces are refused. -/
  | verselWrite (ag : Agent) (v : W64)
  /-- MB_VERSION (R399). Mailbox command re-reading the firmware version into VERCAP.FW. -/
  | mbVersion (seq : Byte)
  /-- MB_ATTEST (R403). Mailbox command writing a signed attestation report over the host's nonce. -/
  | mbAttest (seq : Byte)
  /-- MB_IDCERT (R402). Mailbox command writing the device certificate. -/
  | mbIdcert (seq : Byte)
  /-- MB_POWERCAP (R399). Mailbox command setting the governor's package cap. -/
  | mbPowercap (seq : Byte)
  /-- MB_PREPARE (R412). Mailbox command that stops the escapement, returns leases and pre-empts every cluster toward QUIET. -/
  | mbPrepare (seq : Byte)
  /-- PREPARE_QUIET (R412). With every block saved and engine idle, PHASE becomes QUIET with DONE, or reopens on NOSLOT. -/
  | prepareQuiet
  /-- PREPARE_TIMEOUT (R412). QUIET not reached within 3 s: status TIMEOUT, clusters reopen and PHASE returns to RUN. -/
  | prepareTimeout
  /-- MB_COMMIT (R413). Mailbox command that writes back caches, saves the escapement and replay state and enters RETAINED. -/
  | mbCommit (seq : Byte)
  /-- MB_ABORT (R414). Mailbox command reopening clusters and restarting the escapement from QUIET. -/
  | mbAbort (seq : Byte)
  /-- MB_WAKE (R415). Mailbox command powering the dies, restoring state and entering WOKEN. -/
  | mbWake (seq : Byte)
  /-- MB_RELEASE (R415). Mailbox command resending restored transactions, opening clusters, restarting the escapement and returning to RUN. -/
  | mbRelease (seq : Byte)
  /-- MB_BADCMD (R400). An MBCMD write with an unknown command or reserved bit completes with BADCMD. -/
  | mbBadcmd (v : W64)
  /-- DVREQ (R406). A write to DVREQ requests an operating point for named dies, denied by BUSY, BIN, FLOOR, THERMAL or CURRENT or started as a step. -/
  | dvreq (ag : Agent) (v : W64)
  /-- DVFLOOR_WRITE (R406). A write to DVFLOOR sets SWFLOOR unless above a die's current point. -/
  | dvfloorWrite (ag : Agent) (v : W64)
  /-- DVFS_CLOCK_SWITCH (R407). Once the rail and the idle PLL are ready, the die's clock switches at one glitch-free edge. -/
  | dvfsClockSwitch (die : Fin 2)
  /-- DVFS_RAIL_SETTLED (R407). A down-step's rail reaches the target voltage and the step ends with LAST written. -/
  | dvfsRailSettled (die : Fin 2)
  /-- DVSAMP_WINDOW (R406). Every 10,000 ticks each DVSAMP register is replaced with the last window's counts. -/
  | dvsampWindow
  /-- THERMAL_TRIP (R408). At 105 °C each die is forced to OP0, abandoning any step, and TLIM is set. -/
  | thermalTrip
  /-- THERMAL_RECOVERY (R408). After 1 ms below 100 °C TLIM clears. -/
  | thermalRecovery
  /-- THERMAL_SHUTDOWN (R408). At 120 °C the device goes to off without saving state. -/
  | thermalShutdown
  /-- CURRENT_SAMPLE (R409). Every 100 ns core-rail current is sampled, starting or ending alternate-cycle throttling and counting episodes. -/
  | currentSample (amps : Nat)
  /-- IDLE_ENTRY (R410). After 1 ms with nothing resident or running, compute-die clocks are gated. -/
  | idleEntry
  /-- POWER_ON_BOOT (R401). At power-on the boot ROM verifies and loads firmware from slot A or B, or presents CXL.io only. -/
  | powerOnBoot (slotA slotB : FwSlot)
  /-- BGE_CLOCK_STOP (R61). A BGE's clock stops, so its copy of global time stops advancing and drifts from the base die's copy. -/
  | bgeClockStop (k : Nat)
  /-- COMMIT_RETAINED (R413). The COMMIT sequence finishes its write-backs, saves state, powers the compute dies off, and PHASE becomes RETAINED with status DONE. -/
  | commitRetained
  /-- WAKE_WOKEN (R415). After WAKE has powered the dies, brought HBM out of self-refresh and restored state, PHASE becomes WOKEN. -/
  | wakeWoken
  /-- FABRIC_TIME_REACHED (R405). A self-timed device whose count was held at a later value resumes counting once fabric time reaches it, and then accepts ROWGIVE again. -/
  | fabricTimeReached
  deriving DecidableEq, Repr

end Sys2Proof
end

