-- ==== Sys2Proof/WellFormed.lean ====
section
/-! DEFINITION. What every instruction's operands must satisfy beyond their types: the legal sources of integer and
floating-point instructions (Table 2.4), the sources of a uniform destination (R209), and each instruction's own limits.
A word whose instruction is not well formed is refused by the decoder with OPERAND (R27, R28). -/

namespace Sys2Proof

/-- Legal source of an integer instruction (Table 2.4). -/
def Src.isInt : Src → Bool
  | .fpc _ | .pinf | .ninf | .nan | .maxf => false
  | _ => true

/-- Legal source of a floating-point instruction (Table 2.4). -/
def Src.isFp : Src → Bool
  | .lane | .octet | .slice | .ones => false
  | _ => true

/-- A source that a uniform destination allows (R209); the uniform mark of a latch is checked when the word runs (R212). -/
def Src.isUni : Src → Bool
  | .v _ | .lane | .octet | .slice => false
  | _ => true

/-- Integer store data (R167): 0..55 or 64..102. -/
def Src.isData (a : Src) : Bool := a.isInt

/-- Whether a destination is not a uniform register. -/
def Dst.notS : Dst → Bool
  | .s _ => false
  | _ => true

/-- R209 for an integer instruction. -/
def wfInt (d : Dst) (srcs : List Src) : Bool := srcs.all Src.isInt && (d.notS || srcs.all Src.isUni)
/-- R209 for a floating-point instruction. -/
def wfFp (d : Dst) (srcs : List Src) : Bool := srcs.all Src.isFp && (d.notS || srcs.all Src.isUni)

/-- Operations that RED allows for a type (Table 6.6). -/
def redAllowed (ty : RedTy) (op : RedOp) : Bool :=
  match ty, op with
  | .n32, _ | .n64, _ => true
  | .bf16, .add => true
  | .s32, .add | .s32, .min | .s32, .max | .s64, .add | .s64, .min | .s64, .max => true
  | .fp32, .add | .fp32, .min | .fp32, .max | .fp64, .add | .fp64, .min | .fp64, .max => true
  | _, _ => false

/-- Whether a RED type is floating-point (R146: D is any source that is legal for the type). -/
def RedTy.isFp : RedTy → Bool
  | .fp32 | .bf16 | .fp64 => true
  | _ => false

/-- A load's destination and address (R167): a uniform destination needs a uniform address. -/
def wfLoad (d a : Reg) : Bool :=
  match d, a with
  | .s _, .v _ => false
  | _, _ => true

/-- E8M0 constants (R224): only exact powers of two, and codes 103, 105, 106. -/
def Src.isE8m0 : Src → Bool
  | .int n => n.val = 1 || n.val = 2 || n.val = 4 || n.val = 8
  | .fpc k => k.val < 4
  | .neg _ | .ninf | .lane | .octet | .slice | .ones => false
  | _ => true

/-- E2M1 constants (Table 10.2): there is no NaN. -/
def Src.isE2m1 : Src → Bool
  | .nan | .lane | .octet | .slice | .ones => false
  | _ => true

/-- An operand of B of PERM: six registers that stay in the window or in the uniform file (R238). -/
def Reg.permOk : Reg → Bool
  | .v r => r.val ≤ 26
  | .s r => r.val ≤ 26

/-- Well-formed instructions. Events have no operand fields and are always well formed. -/
def Instr.wf : Instr → Bool
  | .sel d a b _ | .add d a b _ | .sub d a b _ | .mul d a b _ | .mad d a b _ => wfInt d [a, b]
  | .shl d a b _ | .shr d a b _ | .sar d a b _ | .rot d a b _ => wfInt d [a, b]
  | .mulhi d a b _ | .div d a b _ | .rem d a b _ | .min d a b _ | .max d a b _ => wfInt d [a, b]
  | .adds d a b _ | .subs d a b _ => wfInt d [a, b]
  | .abs d a _ | .neg d a _ | .clz d a _ | .popc d a _ | .brev d a _ => wfInt d [a]
  | .and d a b | .or d a b | .xor d a b | .andn d a b | .bfi d a b | .bdep d a b | .bext d a b => wfInt d [a, b]
  | .addi d a _ | .andi d a _ | .ori d a _ | .xori d a _ => wfInt d [a]
  | .shli d a _ _ | .shri d a _ _ | .sari d a _ _ => wfInt d [a]
  | .mov d a => wfInt d [a]
  | .bfx d a b _ | .gfmm d a b _ | .lea d a b _ => wfInt d [a, b]
  | .sext d a _ | .zext d a _ => wfInt d [a]
  | .perm d a b => d.notS && a.isInt && b.permOk
  | .icmp _ _ a b _ => a.isInt && b.isInt
  | .icmpi _ _ a _ => a.isInt
  | .pmovToPred _ a | .pmovVregToPall a => a.isInt
  | .shfl d a b _ => d.notS && a.isInt && b.isInt
  | .bcast _ a b => a.isInt && b.isInt
  | .bcastFirst _ a => a.isInt
  | .ired _ a _ => a.isInt
  | .iscan d a _ _ => d.notS && a.isInt
  | .fadd d a b _ | .fsub d a b _ | .fmul d a b _ | .ffma d a b _ | .fmin d a b _ | .fmax d a b _ => wfFp d [a, b]
  | .fdiv d a b _ | .fcpys d a b _ => wfFp d [a, b]
  | .fabs d a _ | .fneg d a _ | .fsqrt d a _ | .frcp d a _ | .frsq d a _ | .fclass d a _ => wfFp d [a]
  | .frnd d a _ | .ffrac d a _ => wfFp d [a]
  | .fexp2 d a _ | .flog2 d a _ | .fsin d a _ | .fcos d a _ | .ftanh d a _ | .ferf d a _ => wfFp d [a]
  | .fcmp _ _ a b _ => a.isFp && b.isFp
  | .fdot2 d a b _ => wfFp d [a, b]
  | .fred _ a _ _ => a.isFp
  | .fscan d a _ _ _ => d.notS && a.isFp
  | .fcvt d a _ _ _ => wfFp d [a]
  | .icvt d a _ _ => wfInt d [a]
  | .ficvt d a _ _ => wfFp d [a]
  | .pack d a b _ => wfInt d [a, b]
  | .unpk d a _ _ => wfInt d [a]
  | .qmx4 _ a => a.isFp
  | .dqmx4 d a b _ => a.isE2m1 && b.isE8m0 && (d.notS || (a.isUni && b.isUni))
  | .qf8 d a b _ | .dqf8 d a b _ | .qi8 d a b | .qi4 d a b => wfFp d [a, b]
  | .rscl d a _ => wfInt d [a]
  | .srnd d a b => wfInt d [a, b]
  | .padd d a b _ | .psub d a b _ | .pmul d a b _ | .pfma d a b _ | .pmin d a b _ | .pmax d a b _ => wfFp d [a, b]
  | .pdot d a b _ => wfFp d [a, b]
  | .loop ncl _ _ => ncl ≠ 0
  | .ld d a _ _ _ | .ldu d a _ _ _ => wfLoad d a
  | .lds d a _ _ => wfLoad d a
  | .st d _ _ _ _ | .sts d _ _ _ | .scat d _ _ _ => d.isData
  | .smm _ _ _ f | .strn _ _ _ f | .sluf _ _ _ f => f ≠ .sym64
  | .pref _ _ t _ => t ≠ .u
  | .atom _ _ _ sc ord => ord ≠ .rlx || sc = .core
  | .cas d _ facq _ sc ord => d.val < 31 && (ord ≠ .rlx || sc = .core) && (!facq || ord = .acq || ord = .ar)
  | .red d _ ty op => redAllowed ty op && (if ty.isFp then d.isFp else d.isInt)
  | .gred _ _ b _ => b.isFp
  | .wrsr a idx => (match a with
      | .v _ => !(idx = 1 || idx = 4 || idx = 5 || idx = 8 || idx = 9 || idx = 10)
      | .int _ | .neg _ | .s _ | .ones => true
      | _ => false)
  | .rdsr d idx => (match d with
      | .s _ => !(idx = 0 || idx = 2 || idx = 3)
      | .v _ => true)
  | _ => true

end Sys2Proof
end

