-- ==== Sys2Proof/Machine/Flags.lean ====
section
/-! DEFINITION. The exception flags of LSTAT (R216, Table 9.5; R228): IV 0, DZ 1, OF 2, UF 3, IX 4, SING 8, NEARSING 9,
HELPER 16, and how an instruction joins the flags it raises. -/

namespace Sys2Proof.Machine

/-- The five exception flags, as LSTAT [4:0]. -/
abbrev Flags := BitVec 5

/-- No flag. -/
def noFlags : Flags := 0
/-- IV: invalid operation. -/
def flIV : Flags := 1
/-- DZ: an exact infinite result from finite operands. -/
def flDZ : Flags := 2
/-- OF: the rounded result overflows. -/
def flOF : Flags := 4
/-- UF: tiny and inexact. -/
def flUF : Flags := 8
/-- IX: inexact. -/
def flIX : Flags := 16

/-- A flag when a condition holds. -/
def flagIf (b : Bool) (f : Flags) : Flags := if b then f else noFlags

/-- Sticky flags only become set (R216). -/
def lstatSetFlags (l : W64) (f : Flags) : W64 := l ||| f.setWidth 64

/-- SING [8] and NEARSING [9] are written, not sticky (R216). -/
def lstatSetSing (l : W64) (sing near : Bool) : W64 :=
  (l &&& ~~~(0x300 : W64)) ||| (if sing then 0x100 else 0) ||| (if near then 0x200 else 0)

/-- HELPER [16]. -/
def lstatHelper (l : W64) : Bool := l.getLsbD 16
/-- HELPER set (R362). -/
def lstatSetHelper (l : W64) : W64 := l ||| 0x10000

/-- The RW fields of LSTAT: [9:8] and [4:0] (Table 9.5). -/
def lstatRW : W64 := 0x31F
/-- A WRSR to LSTAT: RO fields keep their value (R215). -/
def lstatWrite (old v : W64) : W64 := (old &&& ~~~lstatRW) ||| (v &&& lstatRW)

end Sys2Proof.Machine
end

