-- ==== Sys2Proof/Machine/Float.lean ====
section
/-! DEFINITION. The floating-point formats bit by bit (R220 to R224, Tables 10.1 and 10.2), exact values, rounding once
under a mode (R31, R227, R228), and the arithmetic that the vector unit, the matrix engine, the bank engines, the
transfer engine and the atomic units share (R83, R186, R248 to R252, R256, R257). -/

namespace Sys2Proof.Machine

/-- How a format uses its all-ones exponent (R220). -/
inductive FpKind where | ieee | e4m3 | e2m1
  deriving DecidableEq, Repr

/-- A floating-point format: exponent bits, fraction bits, bias (Table 10.1). -/
structure Fmt where
  eb : Nat
  fb : Nat
  bias : Nat
  kind : FpKind
  deriving DecidableEq, Repr

def fmt64 : Fmt := ⟨11, 52, 1023, .ieee⟩
def fmt32 : Fmt := ⟨8, 23, 127, .ieee⟩
def fmt16 : Fmt := ⟨5, 10, 15, .ieee⟩
def fmtB16 : Fmt := ⟨8, 7, 127, .ieee⟩
def fmtE4m3 : Fmt := ⟨4, 3, 7, .e4m3⟩
def fmtE5m2 : Fmt := ⟨5, 2, 15, .ieee⟩
def fmtE2m1 : Fmt := ⟨2, 1, 1, .e2m1⟩

/-- Width in bits. -/
def fmtWidth (f : Fmt) : Nat := 1 + f.eb + f.fb
/-- The sign bit's weight. -/
def fmtSign (f : Fmt) : Nat := 2 ^ (f.eb + f.fb)
/-- Encoding of +∞, where the format has it; otherwise of the all-ones exponent with fraction 0. -/
def fmtInf (f : Fmt) : Nat := (2 ^ f.eb - 1) * 2 ^ f.fb
/-- Encoding of the largest finite value (Table 10.1). -/
def fmtMax (f : Fmt) : Nat :=
  match f.kind with
  | .ieee => fmtInf f - 1
  | .e4m3 => 0x7E
  | .e2m1 => 7
/-- The canonical NaN (Table 10.1); E2M1 has none. -/
def fmtNan (f : Fmt) : Nat :=
  match f.kind with
  | .ieee => fmtInf f + 2 ^ (f.fb - 1)
  | .e4m3 => 0x7F
  | .e2m1 => 7
/-- The smallest normal exponent. -/
def fmtEmin (f : Fmt) : Int := 1 - (f.bias : Int)

/-- The exact value that an encoding stands for: a NaN (signalling or not), an infinity, or (−1)^neg × m × 2^e. -/
inductive FVal where
  | nan (sig : Bool)
  | inf (neg : Bool)
  | fin (neg : Bool) (m : Nat) (e : Int)
  deriving DecidableEq, Repr

/-- R220: the value of the low bits of `x` in a format. -/
def fUnpack (f : Fmt) (x : Nat) : FVal :=
  let frac := bitsOf x 0 f.fb
  let ex := bitsOf x f.fb f.eb
  let neg := bitsOf x (f.eb + f.fb) 1 = 1
  let top := ex = 2 ^ f.eb - 1
  match f.kind with
  | .ieee =>
    if top then
      if frac = 0 then .inf neg else .nan (frac < 2 ^ (f.fb - 1))
    else if ex = 0 then .fin neg frac (fmtEmin f - f.fb)
    else .fin neg (frac + 2 ^ f.fb) ((ex : Int) - f.bias - f.fb)
  | .e4m3 =>
    if top && frac = 7 then .nan false
    else if ex = 0 then .fin neg frac (fmtEmin f - f.fb)
    else .fin neg (frac + 2 ^ f.fb) ((ex : Int) - f.bias - f.fb)
  | .e2m1 =>
    if ex = 0 then .fin neg frac (fmtEmin f - f.fb)
    else .fin neg (frac + 2 ^ f.fb) ((ex : Int) - f.bias - f.fb)

/-- The sign bit of an encoding. -/
def fNegBit (f : Fmt) (x : Nat) : Bool := bitsOf x (f.eb + f.fb) 1 = 1

/-- Whether a value is a NaN. -/
def fvIsNan : FVal → Bool | .nan _ => true | _ => false
/-- Whether a value is a signalling NaN (R228). -/
def fvIsSnan : FVal → Bool | .nan s => s | _ => false
/-- Whether a value is a zero. -/
def fvIsZero : FVal → Bool | .fin _ m _ => m = 0 | _ => false
/-- Sign of a value; NaN counts as positive. -/
def fvNeg : FVal → Bool | .nan _ => false | .inf n => n | .fin n _ _ => n
/-- The value with the other sign. -/
def fvFlip : FVal → FVal
  | .nan s => .nan s
  | .inf n => .inf !n
  | .fin n m e => .fin (!n) m e

/-- Rounding modes (R31); `sr r` is stochastic with the 24-bit draw r (R227). -/
inductive Rm where
  | rne | rtz | rup | rdn | rna | sr (r : Nat)
  deriving DecidableEq, Repr

/-- An encoding with the flags its computation raises. -/
abbrev FRes := Nat × Flags

/-- Whether a magnitude lo + rem / 2^sh (plus a sliver when `sticky`) rounds away from zero. -/
def roundsUp (rm : Rm) (neg : Bool) (lo rem sh : Nat) (sticky : Bool) : Bool :=
  let half := 2 ^ sh
  match rm with
  | .rne => 2 * rem > half || (2 * rem = half && (sticky || lo % 2 = 1))
  | .rtz => false
  | .rup => !neg && (rem ≠ 0 || sticky)
  | .rdn => neg && (rem ≠ 0 || sticky)
  | .rna => 2 * rem ≥ half
  | .sr r => r < rem * 2 ^ 24 / 2 ^ sh

/-- m × 2^e (plus a sliver when `sticky`) as a multiple of 2^q, rounded: the multiple and whether it is inexact. -/
def roundAt (rm : Rm) (neg : Bool) (m : Nat) (e q : Int) (sticky : Bool) : Nat × Bool :=
  if q ≤ e then (m * 2 ^ (e - q).toNat, sticky)
  else
    let sh := (q - e).toNat
    let lo := m / 2 ^ sh
    let rem := m % 2 ^ sh
    (if roundsUp rm neg lo rem sh sticky then lo + 1 else lo, rem ≠ 0 || sticky)

/-- The result of a finite overflow without saturation (R256, first row; R228). -/
def overflowRes (f : Fmt) (rm : Rm) (neg : Bool) : FRes :=
  let s := if neg then fmtSign f else 0
  match f.kind with
  | .ieee =>
    let toInf := match rm with
      | .rne | .rna | .sr _ => true
      | .rtz => false
      | .rup => !neg
      | .rdn => neg
    ((if toInf then fmtInf f else fmtMax f) + s, flOF ||| flIX)
  | .e4m3 => (fmtNan f, flIV)
  | .e2m1 => (fmtMax f + s, flIX)

/-- Rounding of the exact value (−1)^neg × m × 2^e (a sliver more when `sticky`) to a format, once, with its flags
(R227, R228, R256). `sat` gives ±largest finite on overflow. Tininess is detected after rounding. Under stochastic rounding a
value above the largest finite one is drawn like any other, between it and the next value of an unbounded exponent, but every
such value overflows under `sat` (R256). -/
def fRound (f : Fmt) (rm : Rm) (sat neg : Bool) (m : Nat) (e : Int) (sticky : Bool) : FRes :=
  let s := if neg then fmtSign f else 0
  if m = 0 && !sticky then (s, noFlags)
  else
    let ex := (Nat.log2 m : Int) + e
    let big := ex < fmtEmin f
    let q := (if big then fmtEmin f else ex) - f.fb
    let (mant, inex) := roundAt rm neg m e q sticky
    let bits := mant + (q + f.fb - fmtEmin f).toNat * 2 ^ f.fb
    let above := sat && inex && (match rm with | .sr _ => true | _ => false)
      && (roundAt .rtz neg m e q sticky).1 + (q + f.fb - fmtEmin f).toNat * 2 ^ f.fb = fmtMax f
    if bits > fmtMax f || above then
      if sat then (fmtMax f + s, flOF ||| flIX)
      else overflowRes f rm neg
    else
      let tiny := big && (
        let (u, _) := roundAt rm neg m e (ex - f.fb) sticky
        !(u = 2 ^ (f.fb + 1) && ex + 1 = fmtEmin f))
      (bits + s, flagIf inex flIX ||| flagIf (inex && tiny) flUF)

/-- The canonical NaN with IV when some input is signalling. -/
def fNanRes (f : Fmt) (sig : Bool) : FRes := (fmtNan f, flagIf sig flIV)
/-- An invalid operation: the canonical NaN with IV (R228, R229). -/
def fInvalid (f : Fmt) : FRes := (fmtNan f, flIV)
/-- An infinity of a sign. -/
def fInfRes (f : Fmt) (neg : Bool) : FRes := (fmtInf f + (if neg then fmtSign f else 0), noFlags)
/-- A zero of a sign. -/
def fZeroRes (f : Fmt) (neg : Bool) : FRes := (if neg then fmtSign f else 0, noFlags)

/-- The signed integer mantissa of a finite value at exponent `e` (at most its own). -/
def fvAt (e : Int) : FVal → Int
  | .fin n m e' => let k : Int := ((m * 2 ^ (e' - e).toNat : Nat) : Int); if n then -k else k
  | _ => 0
/-- The exponent of a finite value; a zero has none of its own. -/
def fvExp : FVal → Int | .fin _ _ e => e | _ => 0

/-- The sign of an exact zero sum (IEEE 754-2019): −0 when every addend is −0, or under rounding toward −∞ unless every
addend is +0. -/
def zeroSumNeg (rm : Rm) (negs : List Bool) : Bool :=
  if negs.all id then true else if negs.all (!·) then false else rm = .rdn

/-- The exact sum of addends, each a finite product or value, rounded once (R248, R250, R266). An addend list that is
empty gives +0. `vs` holds no NaN; infinities of both signs are invalid. -/
def fSum (f : Fmt) (rm : Rm) (vs : List FVal) : FRes :=
  let pinf := vs.any (fun v => v = .inf false)
  let ninf := vs.any (fun v => v = .inf true)
  if pinf && ninf then fInvalid f
  else if pinf then fInfRes f false
  else if ninf then fInfRes f true
  else
    let e := vs.foldl (fun a v => if fvIsZero v then a else min a (fvExp v)) (fvExp (vs.headD (.fin false 0 0)))
    let t := vs.foldl (fun (a : Int) v => if fvIsZero v then a else a + fvAt e v) 0
    if t = 0 then fZeroRes f (zeroSumNeg rm (vs.map fvNeg))
    else fRound f rm false (t < 0) t.natAbs e false

/-- The exact product of two values: none for 0 × ∞ (invalid). Neither is a NaN. -/
def fvMul (x y : FVal) : Option FVal :=
  match x, y with
  | .fin nx mx ex, .fin ny my ey => some (.fin (nx != ny) (mx * my) (ex + ey))
  | .inf nx, y => if fvIsZero y then none else some (.inf (nx != fvNeg y))
  | x, .inf ny => if fvIsZero x then none else some (.inf (fvNeg x != ny))
  | x, _ => some x

/-- x + y (R248). -/
def fAddV (f : Fmt) (rm : Rm) (x y : FVal) : FRes :=
  if fvIsNan x || fvIsNan y then fNanRes f (fvIsSnan x || fvIsSnan y) else fSum f rm [x, y]
/-- x × y (R248). -/
def fMulV (f : Fmt) (rm : Rm) (x y : FVal) : FRes :=
  if fvIsNan x || fvIsNan y then fNanRes f (fvIsSnan x || fvIsSnan y)
  else match fvMul x y with
    | none => fInvalid f
    | some (.fin n m e) => fRound f rm false n m e false
    | some (.inf n) => fInfRes f n
    | some (.nan _) => fNanRes f false
/-- Products plus an addend, summed exactly and rounded once (R248, R250, R266). ∞ × 0 is invalid even beside a quiet NaN. -/
def fDotV (f : Fmt) (rm : Rm) (ps : List (FVal × FVal)) (z : FVal) : FRes :=
  let ins := ps.map Prod.fst ++ ps.map Prod.snd ++ [z]
  let isZeroInf := fun (p : FVal × FVal) =>
    match p.1, p.2 with
    | .inf _, y => fvIsZero y
    | x, .inf _ => fvIsZero x
    | _, _ => false
  let inv := ps.any isZeroInf
  if ins.any fvIsNan || inv then fNanRes f (ins.any fvIsSnan || inv)
  else fSum f rm (ps.map (fun p => (fvMul p.1 p.2).getD (.fin false 0 0)) ++ [z])
/-- x × y + z with one rounding (R248). -/
def fFmaV (f : Fmt) (rm : Rm) (x y z : FVal) : FRes := fDotV f rm [(x, y)] z

/-- floor(√n) by bits: `b` bits still to decide, `r` found so far. -/
def isqrtGo (n : Nat) : Nat → Nat → Nat
  | 0, r => r
  | b + 1, r => let t := r + 2 ^ b; if t * t ≤ n then isqrtGo n b t else isqrtGo n b r
/-- floor(√n). -/
def isqrt (n : Nat) : Nat := isqrtGo n (Nat.log2 n / 2 + 1) 0

/-- x / y (R248). -/
def fDivV (f : Fmt) (rm : Rm) (x y : FVal) : FRes :=
  match x, y with
  | .nan a, .nan b => fNanRes f (a || b)
  | .nan a, _ => fNanRes f a
  | _, .nan b => fNanRes f b
  | .inf _, .inf _ => fInvalid f
  | .inf a, y => fInfRes f (a != fvNeg y)
  | x, .inf b => fZeroRes f (fvNeg x != b)
  | .fin nx mx ex, .fin ny my ey =>
    if my = 0 then
      if mx = 0 then fInvalid f
      else ((fInfRes f (nx != ny)).1, flDZ)
    else if mx = 0 then fZeroRes f (nx != ny)
    else
      let s := f.fb + 4 + Nat.log2 my
      let q := mx * 2 ^ s / my
      fRound f rm false (nx != ny) q (ex - ey - s) (mx * 2 ^ s % my ≠ 0)

/-- √x (R248). -/
def fSqrtV (f : Fmt) (rm : Rm) (x : FVal) : FRes :=
  match x with
  | .nan a => fNanRes f a
  | .inf n => if n then fInvalid f else fInfRes f false
  | .fin n m e =>
    if m = 0 then fZeroRes f n
    else if n then fInvalid f
    else
      let k := f.fb + 4
      let m1 := (if e % 2 = 0 then m else 2 * m) * 2 ^ (2 * k)
      let e1 := if e % 2 = 0 then e else e - 1
      let r := isqrt m1
      fRound f rm false false r (e1 / 2 - k) (r * r ≠ m1)

/-- 1 / √x (R248). -/
def fRsqrtV (f : Fmt) (rm : Rm) (x : FVal) : FRes :=
  match x with
  | .nan a => fNanRes f a
  | .inf n => if n then fInvalid f else fZeroRes f false
  | .fin n m e =>
    if m = 0 then ((fInfRes f n).1, flDZ)
    else if n then fInvalid f
    else
      let m1 := if e % 2 = 0 then m else 2 * m
      let e1 := if e % 2 = 0 then e else e - 1
      let k := f.fb + 4 + Nat.log2 m1
      let r := isqrt (2 ^ (2 * k) / m1)
      fRound f rm false false r (-(k : Int) - e1 / 2) (r * r * m1 ≠ 2 ^ (2 * k))

/-- Order of two values that are not NaNs, −0 below +0. -/
def fvLtTotal (x y : FVal) : Bool :=
  match x, y with
  | .inf nx, .inf ny => nx && !ny
  | .inf nx, _ => nx
  | _, .inf ny => !ny
  | x, y =>
    let e := min (fvExp x) (fvExp y)
    let a := fvAt e x
    let b := fvAt e y
    if a = 0 && b = 0 then fvNeg x && !fvNeg y else a < b

/-- Numerical comparison of two values that are not NaNs; −0 equals +0 (R240). -/
def fvCmp (x y : FVal) : Ordering :=
  match x, y with
  | .inf nx, .inf ny => if nx = ny then .eq else if nx then .lt else .gt
  | .inf nx, _ => if nx then .lt else .gt
  | _, .inf ny => if ny then .gt else .lt
  | x, y =>
    let e := min (fvExp x) (fvExp y)
    compare (fvAt e x) (fvAt e y)

/-- minimumNumber or maximumNumber on encodings (R249). -/
def fMinMax (f : Fmt) (isMax : Bool) (a b : Nat) : FRes :=
  let x := fUnpack f a
  let y := fUnpack f b
  let fl := flagIf (fvIsSnan x || fvIsSnan y) flIV
  let w := fmtWidth f
  match fvIsNan x, fvIsNan y with
  | true, true => (fmtNan f, fl)
  | true, false => (bitsOf b 0 w, fl)
  | false, true => (bitsOf a 0 w, fl)
  | false, false =>
    let lt := fvLtTotal x y
    (bitsOf (if isMax then (if lt then b else a) else (if fvLtTotal y x then b else a)) 0 w, fl)

/-- Arithmetic on encodings. -/
def fAdd (f : Fmt) (rm : Rm) (a b : Nat) : FRes := fAddV f rm (fUnpack f a) (fUnpack f b)
def fSub (f : Fmt) (rm : Rm) (a b : Nat) : FRes := fAddV f rm (fUnpack f a) (fvFlip (fUnpack f b))
def fMul (f : Fmt) (rm : Rm) (a b : Nat) : FRes := fMulV f rm (fUnpack f a) (fUnpack f b)
def fFma (f : Fmt) (rm : Rm) (a b c : Nat) : FRes := fFmaV f rm (fUnpack f a) (fUnpack f b) (fUnpack f c)
def fDiv (f : Fmt) (rm : Rm) (a b : Nat) : FRes := fDivV f rm (fUnpack f a) (fUnpack f b)
def fSqrt (f : Fmt) (rm : Rm) (a : Nat) : FRes := fSqrtV f rm (fUnpack f a)
def fRcp (f : Fmt) (rm : Rm) (a : Nat) : FRes := fDivV f rm (.fin false 1 0) (fUnpack f a)
def fRsq (f : Fmt) (rm : Rm) (a : Nat) : FRes := fRsqrtV f rm (fUnpack f a)
/-- FABS, FNEG, FCPYS move bits and set no flag (R229, R248). -/
def fAbsBits (f : Fmt) (a : Nat) : Nat := bitsOf a 0 (f.eb + f.fb)
def fNegBits (f : Fmt) (a : Nat) : Nat := fAbsBits f a + (if fNegBit f a then 0 else fmtSign f)
def fCpysBits (f : Fmt) (a b : Nat) : Nat := fAbsBits f a + (if fNegBit f b then fmtSign f else 0)

/-- FP comparison conditions and their flags (R240). -/
def fCompare (f : Fmt) (cc : FCond) (a b : Nat) : Bool × Flags :=
  let x := fUnpack f a
  let y := fUnpack f b
  let un := fvIsNan x || fvIsNan y
  let signalling := match cc with | .lt | .le | .gt | .ge => true | _ => false
  let fl := flagIf (fvIsSnan x || fvIsSnan y || (un && signalling)) flIV
  let r := if un then (match cc with | .ne | .un => true | _ => false)
    else match cc with
      | .eq => fvCmp x y = .eq
      | .ne => fvCmp x y ≠ .eq
      | .lt => fvCmp x y = .lt
      | .le => fvCmp x y ≠ .gt
      | .gt => fvCmp x y = .gt
      | .ge => fvCmp x y ≠ .lt
      | .un => false
      | .or => true
  (r, fl)

/-- FCLASS (R251). -/
def fClass (f : Fmt) (a : Nat) : Nat :=
  let nrm := bitsOf a f.fb f.eb ≠ 0
  match fUnpack f a with
  | .nan s => if s then 2 ^ 8 else 2 ^ 9
  | .inf n => if n then 1 else 2 ^ 7
  | .fin n m _ =>
    if m = 0 then (if n then 2 ^ 3 else 2 ^ 4)
    else if nrm then (if n then 2 ^ 1 else 2 ^ 6) else (if n then 2 ^ 2 else 2 ^ 5)

/-- A finite value rounded to an integer under a mode: the magnitude and whether it is inexact. -/
def fvToInt (rm : Rm) (n : Bool) (m : Nat) (e : Int) : Nat × Bool := roundAt rm n m e 0 false

/-- FRND (R252): IV for a signalling NaN only, never IX. -/
def fRnd (f : Fmt) (rm : Rm) (a : Nat) : FRes :=
  match fUnpack f a with
  | .nan s => fNanRes f s
  | .inf n => fInfRes f n
  | .fin n m e =>
    if e ≥ 0 then (bitsOf a 0 (fmtWidth f), noFlags)
    else let (k, _) := fvToInt rm n m e; ((fRound f .rne false n k 0 false).1, noFlags)

/-- FFRAC (R252): x − trunc(x), with the sign of x. -/
def fFrac (f : Fmt) (a : Nat) : FRes :=
  match fUnpack f a with
  | .nan s => fNanRes f s
  | .inf _ => fInvalid f
  | .fin n m e =>
    if e ≥ 0 then fZeroRes f n
    else ((fRound f .rne false n (m % 2 ^ (-e).toNat) e false).1, noFlags)

/-- FCVT between formats (R256, Table 10.11). -/
def fConvert (dst src : Fmt) (rm : Rm) (sat : Bool) (a : Nat) : FRes :=
  match fUnpack src a with
  | .nan s => fNanRes dst s
  | .inf n =>
    let s := if n then fmtSign dst else 0
    if dst = src then (bitsOf a 0 (fmtWidth src), noFlags)
    else if sat then (fmtMax dst + s, noFlags)
    else match dst.kind with
      | .ieee => (fmtInf dst + s, noFlags)
      | .e4m3 => fInvalid dst
      | .e2m1 => (fmtMax dst + s, noFlags)
  | .fin n m e => fRound dst rm sat n m e false

/-- cvt of R186: the FP32 value to BF16, E4M3 or E5M2, saturating, with no flag. -/
def cvt186 (dst : Fmt) (rm : Rm) (s : Nat) : Nat :=
  match fUnpack fmt32 s with
  | .nan _ => fmtNan dst
  | .inf n => (match dst.kind with | .ieee => fmtInf dst | _ => fmtMax dst) + (if n then fmtSign dst else 0)
  | .fin n m e => (fRound dst rm true n m e false).1

/-- An integer to a format (R257, R226). -/
def fOfInt (f : Fmt) (rm : Rm) (sat : Bool) (x : Int) : FRes := fRound f rm sat (x < 0) x.natAbs 0 false

/-- FICVT (R257): a value to a `w`-bit integer, saturating, sign- or zero-extended to 64 bits. -/
def fToInt (src : Fmt) (rm : Rm) (signed : Bool) (w : Nat) (a : Nat) : FRes :=
  let lo : Int := if signed then -(2 ^ (w - 1) : Nat) else 0
  let hi : Int := if signed then (2 ^ (w - 1) : Nat) - 1 else (2 ^ w : Nat) - 1
  match fUnpack src a with
  | .nan _ => (0, flIV)
  | .inf n => (ofSigned 64 (if n then lo else hi), flIV)
  | .fin n m e =>
    let (k, inex) := fvToInt rm n m e
    let v : Int := if n then -(k : Int) else k
    if v < lo then (ofSigned 64 lo, flIV)
    else if v > hi then (ofSigned 64 hi, flIV)
    else (ofSigned 64 v, flagIf inex flIX)

/-- round32 of the bank, matrix and transfer paths (R83): to nearest even, no flag. -/
def add32 (a b : Nat) : Nat := (fAdd fmt32 .rne a b).1
def mul32 (a b : Nat) : Nat := (fMul fmt32 .rne a b).1
/-- A value of another format as FP32; widening is exact (R256). -/
def to32 (src : Fmt) (a : Nat) : Nat := (fConvert fmt32 src .rne false a).1
/-- An encoding rounded from FP32. -/
def of32 (dst : Fmt) (a : Nat) : Nat := (fConvert dst fmt32 .rne false a).1

/-- The value of an E8M0 exponent (R221). -/
def e8m0Val (x : Nat) : FVal := if x % 256 = 255 then .nan false else .fin false 1 ((x % 256 : Nat) - 127)
/-- The value of an E2M1 code (R220). -/
def e2m1Val (x : Nat) : FVal := fUnpack fmtE2m1 (x % 16)

/-- The format of a class F code. -/
def ffmtFmt : FFmt → Fmt | .fp64 => fmt64 | .fp32 => fmt32 | .fp16 => fmt16 | .bf16 => fmtB16
def spfmtFmt : SpFmt → Fmt | .fp32 => fmt32 | .fp16 => fmt16 | .bf16 => fmtB16
def rfmtFmt : RFmt → Fmt | .fp64 => fmt64 | .fp32 => fmt32
def dfmtFmt : DFmt → Fmt | .fp16 => fmt16 | .bf16 => fmtB16
def pfmtFmt : PFmt → Fmt | .bf16x4 => fmtB16 | .fp16x4 => fmt16 | .fp32x2 => fmt32
def cfmtFmt : CFmt → Fmt
  | .fp64 => fmt64 | .fp32 => fmt32 | .fp16 => fmt16 | .bf16 => fmtB16 | .e4m3 => fmtE4m3 | .e5m2 => fmtE5m2
def f8Fmt : F8 → Fmt | .e4m3 => fmtE4m3 | .e5m2 => fmtE5m2

/-- The counter-based random mix (R186, R264). -/
def randMix (seed ctr : W64) : W64 :=
  let z := seed + ctr * 0x9E3779B97F4A7C15
  let z := (z ^^^ (z >>> 30)) * 0xBF58476D1CE4E5B9
  let z := (z ^^^ (z >>> 27)) * 0x94D049BB133111EB
  z ^^^ (z >>> 31)

/-- Bytes of XACC's source and destination elements (Table 8.4). -/
def accSrcBytes (fmt : Nat) : Nat := if fmt ≥ 4 then 2 else 4
def accDstBytes (fmt : Nat) : Nat := if fmt % 4 = 0 then 2 else 1
/-- XACC's destination format. -/
def accFmt (fmt : Nat) : Fmt := if fmt % 4 = 0 then fmtB16 else if fmt % 4 = 1 then fmtE4m3 else fmtE5m2
/-- The new destination element of XACC, with the random value of a stochastic conversion (R185, R186). -/
def accNew (fmt : Nat) (rand : Option Nat) (src dst : Nat) : Nat :=
  let x := if fmt ≥ 4 then to32 fmtB16 src else src
  cvt186 (accFmt fmt) (match rand with | none => .rne | some r => .sr r) (add32 x (to32 (accFmt fmt) dst))

end Sys2Proof.Machine
end

