-- ==== Sys2Proof/Decode.lean ====
section
/-! DEFINITION. The decoder: from a word to an instruction or the sub-cause of R35 that applies to the word alone
(Table 2.8, orders 3 to 8; CLASS and HEADER need the clause and stand in Machine/Fetch), and the encoder,
both from the encoding tables of the spec (Tables 2.3, 2.4, 3.8, 4.3, 4.10, 7.4, 8.1, 10.4, 11.3, 11.7, 12.5, 14.1, 15.10). -/

namespace Sys2Proof

/-- Sub-causes of an illegal word (Table 2.8). -/
inductive Illegal where
  | unassigned | udf | subfn | reserved | operand | prefix_ | class_ | header
  deriving DecidableEq, Repr

/-- The code of a sub-cause (Table 2.8). -/
def Illegal.code : Illegal → Nat
  | .unassigned => 1 | .udf => 2 | .subfn => 3 | .reserved => 4 | .operand => 5 | .prefix_ => 6 | .class_ => 7 | .header => 8

/-- The code of Width in its field. -/
def Width.code : Width → Nat
  | .w64 => 0
  | .w32 => 1
  | .w16 => 2
  | .w8 => 3
/-- The Width a code names; the others are unassigned. -/
def Width.ofCode : Nat → Option Width
  | 0 => some .w64
  | 1 => some .w32
  | 2 => some .w16
  | 3 => some .w8
  | _ => none
/-- The code of SWidth in its field. -/
def SWidth.code : SWidth → Nat
  | .s64 => 0
  | .s32 => 1
  | .n64 => 2
  | .n32 => 3
/-- The SWidth a code names; the others are unassigned. -/
def SWidth.ofCode : Nat → Option SWidth
  | 0 => some .s64
  | 1 => some .s32
  | 2 => some .n64
  | 3 => some .n32
  | _ => none
/-- The code of FFmt in its field. -/
def FFmt.code : FFmt → Nat
  | .fp64 => 0
  | .fp32 => 1
  | .fp16 => 2
  | .bf16 => 3
/-- The FFmt a code names; the others are unassigned. -/
def FFmt.ofCode : Nat → Option FFmt
  | 0 => some .fp64
  | 1 => some .fp32
  | 2 => some .fp16
  | 3 => some .bf16
  | _ => none
/-- The code of PFmt in its field. -/
def PFmt.code : PFmt → Nat
  | .bf16x4 => 0
  | .fp16x4 => 1
  | .fp32x2 => 2
/-- The PFmt a code names; the others are unassigned. -/
def PFmt.ofCode : Nat → Option PFmt
  | 0 => some .bf16x4
  | 1 => some .fp16x4
  | 2 => some .fp32x2
  | _ => none
/-- The code of CFmt in its field. -/
def CFmt.code : CFmt → Nat
  | .fp64 => 0
  | .fp32 => 1
  | .fp16 => 2
  | .bf16 => 3
  | .e4m3 => 4
  | .e5m2 => 5
/-- The CFmt a code names; the others are unassigned. -/
def CFmt.ofCode : Nat → Option CFmt
  | 0 => some .fp64
  | 1 => some .fp32
  | 2 => some .fp16
  | 3 => some .bf16
  | 4 => some .e4m3
  | 5 => some .e5m2
  | _ => none
/-- The code of IntTy in its field. -/
def IntTy.code : IntTy → Nat
  | .s64 => 0
  | .n64 => 1
  | .s32 => 2
  | .n32 => 3
  | .s16 => 4
  | .n16 => 5
  | .s8 => 6
  | .n8 => 7
/-- The IntTy a code names; the others are unassigned. -/
def IntTy.ofCode : Nat → Option IntTy
  | 0 => some .s64
  | 1 => some .n64
  | 2 => some .s32
  | 3 => some .n32
  | 4 => some .s16
  | 5 => some .n16
  | 6 => some .s8
  | 7 => some .n8
  | _ => none
/-- The code of ICond in its field. -/
def ICond.code : ICond → Nat
  | .eq => 0
  | .ne => 1
  | .lts => 2
  | .ges => 3
  | .gts => 4
  | .les => 5
  | .ltu => 6
  | .geu => 7
  | .gtu => 8
  | .leu => 9
/-- The ICond a code names; the others are unassigned. -/
def ICond.ofCode : Nat → Option ICond
  | 0 => some .eq
  | 1 => some .ne
  | 2 => some .lts
  | 3 => some .ges
  | 4 => some .gts
  | 5 => some .les
  | 6 => some .ltu
  | 7 => some .geu
  | 8 => some .gtu
  | 9 => some .leu
  | _ => none
/-- The code of FCond in its field. -/
def FCond.code : FCond → Nat
  | .eq => 0
  | .ne => 1
  | .lt => 2
  | .le => 3
  | .gt => 4
  | .ge => 5
  | .un => 6
  | .or => 7
/-- The FCond a code names; the others are unassigned. -/
def FCond.ofCode : Nat → Option FCond
  | 0 => some .eq
  | 1 => some .ne
  | 2 => some .lt
  | 3 => some .le
  | 4 => some .gt
  | 5 => some .ge
  | 6 => some .un
  | 7 => some .or
  | _ => none
/-- The code of LaneOp in its field. -/
def LaneOp.code : LaneOp → Nat
  | .add => 0
  | .mins => 1
  | .maxs => 2
  | .minu => 3
  | .maxu => 4
  | .and => 5
  | .or => 6
  | .xor => 7
/-- The LaneOp a code names; the others are unassigned. -/
def LaneOp.ofCode : Nat → Option LaneOp
  | 0 => some .add
  | 1 => some .mins
  | 2 => some .maxs
  | 3 => some .minu
  | 4 => some .maxu
  | 5 => some .and
  | 6 => some .or
  | 7 => some .xor
  | _ => none
/-- The code of FOp in its field. -/
def FOp.code : FOp → Nat
  | .add => 0
  | .min => 1
  | .max => 2
/-- The FOp a code names; the others are unassigned. -/
def FOp.ofCode : Nat → Option FOp
  | 0 => some .add
  | 1 => some .min
  | 2 => some .max
  | _ => none
/-- The code of ShMode in its field. -/
def ShMode.code : ShMode → Nat
  | .idx => 0
  | .up => 1
  | .down => 2
  | .xor => 3
/-- The ShMode a code names; the others are unassigned. -/
def ShMode.ofCode : Nat → Option ShMode
  | 0 => some .idx
  | 1 => some .up
  | 2 => some .down
  | 3 => some .xor
  | _ => none
/-- The code of VoteMode in its field. -/
def VoteMode.code : VoteMode → Nat
  | .any => 0
  | .all => 1
  | .ballot => 2
/-- The VoteMode a code names; the others are unassigned. -/
def VoteMode.ofCode : Nat → Option VoteMode
  | 0 => some .any
  | 1 => some .all
  | 2 => some .ballot
  | _ => none
/-- The code of MType in its field. -/
def MType.code : MType → Nat
  | .o => 0
  | .w => 1
  | .s => 2
  | .u => 3
/-- The MType a code names; the others are unassigned. -/
def MType.ofCode : Nat → Option MType
  | 0 => some .o
  | 1 => some .w
  | 2 => some .s
  | 3 => some .u
  | _ => none
/-- The code of MSize in its field. -/
def MSize.code : MSize → Nat
  | .b1 => 0
  | .b2 => 1
  | .b4 => 2
  | .b8 => 3
/-- The MSize a code names; the others are unassigned. -/
def MSize.ofCode : Nat → Option MSize
  | 0 => some .b1
  | 1 => some .b2
  | 2 => some .b4
  | 3 => some .b8
  | _ => none
/-- The code of CwOp in its field. -/
def CwOp.code : CwOp → Nat
  | .set => 0
  | .add => 1
  | .or => 2
  | .and => 3
/-- The CwOp a code names; the others are unassigned. -/
def CwOp.ofCode : Nat → Option CwOp
  | 0 => some .set
  | 1 => some .add
  | 2 => some .or
  | 3 => some .and
  | _ => none
/-- The code of MqaF in its field. -/
def MqaF.code : MqaF → Nat
  | .bf16 => 0
  | .fp16 => 1
  | .e4m3 => 2
  | .e5m2 => 3
/-- The MqaF a code names; the others are unassigned. -/
def MqaF.ofCode : Nat → Option MqaF
  | 0 => some .bf16
  | 1 => some .fp16
  | 2 => some .e4m3
  | 3 => some .e5m2
  | _ => none
/-- The code of MqaxF in its field. -/
def MqaxF.code : MqaxF → Nat
  | .mx4 => 0
  | .e4m3e5m2 => 1
  | .e5m2e4m3 => 2
/-- The MqaxF a code names; the others are unassigned. -/
def MqaxF.ofCode : Nat → Option MqaxF
  | 0 => some .mx4
  | 1 => some .e4m3e5m2
  | 2 => some .e5m2e4m3
  | _ => none
/-- The code of MqaiF in its field. -/
def MqaiF.code : MqaiF → Nat
  | .s8 => 0
  | .n8 => 1
  | .s4 => 2
/-- The MqaiF a code names; the others are unassigned. -/
def MqaiF.ofCode : Nat → Option MqaiF
  | 0 => some .s8
  | 1 => some .n8
  | 2 => some .s4
  | _ => none
/-- The code of SmF in its field. -/
def SmF.code : SmF → Nat
  | .fp32 => 0
  | .fp64 => 1
  | .sym64 => 2
/-- The SmF a code names; the others are unassigned. -/
def SmF.ofCode : Nat → Option SmF
  | 0 => some .fp32
  | 1 => some .fp64
  | 2 => some .sym64
  | _ => none
/-- The code of AOrd in its field. -/
def AOrd.code : AOrd → Nat
  | .rlx => 0
  | .acq => 1
  | .rel => 2
  | .ar => 3
/-- The AOrd a code names; the others are unassigned. -/
def AOrd.ofCode : Nat → Option AOrd
  | 0 => some .rlx
  | 1 => some .acq
  | 2 => some .rel
  | 3 => some .ar
  | _ => none
/-- The code of AScope in its field. -/
def AScope.code : AScope → Nat
  | .core => 0
  | .clu => 1
  | .dev => 2
  | .fab => 3
/-- The AScope a code names; the others are unassigned. -/
def AScope.ofCode : Nat → Option AScope
  | 0 => some .core
  | 1 => some .clu
  | 2 => some .dev
  | 3 => some .fab
  | _ => none
/-- The code of FKind in its field. -/
def FKind.code : FKind → Nat
  | .ar => 0
  | .acq => 1
  | .rel => 2
/-- The FKind a code names; the others are unassigned. -/
def FKind.ofCode : Nat → Option FKind
  | 0 => some .ar
  | 1 => some .acq
  | 2 => some .rel
  | _ => none
/-- The code of Scope in its field. -/
def Scope.code : Scope → Nat
  | .fibre => 0
  | .group => 1
  | .core => 2
  | .cluster => 3
  | .device => 4
  | .fabric => 5
  | .host => 6
/-- The Scope a code names; the others are unassigned. -/
def Scope.ofCode : Nat → Option Scope
  | 0 => some .fibre
  | 1 => some .group
  | 2 => some .core
  | 3 => some .cluster
  | 4 => some .device
  | 5 => some .fabric
  | 6 => some .host
  | _ => none
/-- The code of RedTy in its field. -/
def RedTy.code : RedTy → Nat
  | .n32 => 0
  | .s32 => 1
  | .n64 => 2
  | .s64 => 3
  | .fp32 => 4
  | .bf16 => 5
  | .fp64 => 6
/-- The RedTy a code names; the others are unassigned. -/
def RedTy.ofCode : Nat → Option RedTy
  | 0 => some .n32
  | 1 => some .s32
  | 2 => some .n64
  | 3 => some .s64
  | 4 => some .fp32
  | 5 => some .bf16
  | 6 => some .fp64
  | _ => none
/-- The code of RedOp in its field. -/
def RedOp.code : RedOp → Nat
  | .add => 0
  | .min => 1
  | .max => 2
  | .and => 3
  | .or => 4
  | .xor => 5
/-- The RedOp a code names; the others are unassigned. -/
def RedOp.ofCode : Nat → Option RedOp
  | 0 => some .add
  | 1 => some .min
  | 2 => some .max
  | 3 => some .and
  | 4 => some .or
  | 5 => some .xor
  | _ => none
/-- The code of RFmt in its field. -/
def RFmt.code : RFmt → Nat
  | .fp64 => 0
  | .fp32 => 1
/-- The RFmt a code names; the others are unassigned. -/
def RFmt.ofCode : Nat → Option RFmt
  | 0 => some .fp64
  | 1 => some .fp32
  | _ => none
/-- The code of AOp in its field. -/
def AOp.code : AOp → Nat
  | .addN32 => 0
  | .addN64 => 1
  | .addF32 => 2
  | .addBf16 => 3
  | .addF64 => 4
  | .minN32 => 5
  | .maxN32 => 6
  | .minS32 => 7
  | .maxS32 => 8
  | .minN64 => 9
  | .maxN64 => 10
  | .minS64 => 11
  | .maxS64 => 12
  | .minF32 => 13
  | .maxF32 => 14
  | .minF64 => 15
  | .maxF64 => 16
  | .and32 => 17
  | .or32 => 18
  | .xor32 => 19
  | .and64 => 20
  | .or64 => 21
  | .xor64 => 22
  | .exch32 => 23
  | .exch64 => 24
/-- The AOp a code names; the others are unassigned. -/
def AOp.ofCode : Nat → Option AOp
  | 0 => some .addN32
  | 1 => some .addN64
  | 2 => some .addF32
  | 3 => some .addBf16
  | 4 => some .addF64
  | 5 => some .minN32
  | 6 => some .maxN32
  | 7 => some .minS32
  | 8 => some .maxS32
  | 9 => some .minN64
  | 10 => some .maxN64
  | 11 => some .minS64
  | 12 => some .maxS64
  | 13 => some .minF32
  | 14 => some .maxF32
  | 15 => some .minF64
  | 16 => some .maxF64
  | 17 => some .and32
  | 18 => some .or32
  | 19 => some .xor32
  | 20 => some .and64
  | 21 => some .or64
  | 22 => some .xor64
  | 23 => some .exch32
  | 24 => some .exch64
  | _ => none
/-- The code of F8 in its field. -/
def F8.code : F8 → Nat
  | .e4m3 => 0
  | .e5m2 => 1
/-- The F8 a code names; the others are unassigned. -/
def F8.ofCode : Nat → Option F8
  | 0 => some .e4m3
  | 1 => some .e5m2
  | _ => none
/-- The code of SpFmt in its field. -/
def SpFmt.code : SpFmt → Nat
  | .fp32 => 1
  | .fp16 => 2
  | .bf16 => 3
/-- The SpFmt a code names; the others are unassigned. -/
def SpFmt.ofCode : Nat → Option SpFmt
  | 1 => some .fp32
  | 2 => some .fp16
  | 3 => some .bf16
  | _ => none
/-- The code of DFmt in its field. -/
def DFmt.code : DFmt → Nat
  | .fp16 => 2
  | .bf16 => 3
/-- The DFmt a code names; the others are unassigned. -/
def DFmt.ofCode : Nat → Option DFmt
  | 2 => some .fp16
  | 3 => some .bf16
  | _ => none
/-- The code of PkW in its field. -/
def PkW.code : PkW → Nat
  | .w32 => 1
  | .w16 => 2
  | .w8 => 3
/-- The PkW a code names; the others are unassigned. -/
def PkW.ofCode : Nat → Option PkW
  | 1 => some .w32
  | 2 => some .w16
  | 3 => some .w8
  | _ => none

/-- A 7-bit source operand (Table 2.4). -/
def Src.code : Src → Nat
  | .v r => r.val | .int n => 32 + n.val | .neg n => 48 + n.val | .fpc k => 56 + k.val | .s r => 64 + r.val
  | .y k => 96 + k.val | .lane => 99 | .octet => 100 | .slice => 101 | .ones => 102 | .pinf => 103 | .ninf => 104
  | .nan => 105 | .maxf => 106

/-- Table 2.4 read backwards; 107 to 127 are reserved. -/
def Src.ofCode (n : Nat) : Option Src :=
  if h : n < 32 then some (.v ⟨n, h⟩)
  else if h : n < 48 then some (.int ⟨n - 32, by omega⟩)
  else if h : n < 56 then some (.neg ⟨n - 48, by omega⟩)
  else if h : n < 64 then some (.fpc ⟨n - 56, by omega⟩)
  else if h : n < 96 then some (.s ⟨n - 64, by omega⟩)
  else if h : n < 99 then some (.y ⟨n - 96, by omega⟩)
  else if n = 99 then some .lane else if n = 100 then some .octet else if n = 101 then some .slice
  else if n = 102 then some .ones else if n = 103 then some .pinf else if n = 104 then some .ninf
  else if n = 105 then some .nan else if n = 106 then some .maxf else none

/-- D with its WS bit (R28). -/
def Dst.code : Dst → Nat × Nat
  | .v r => (r.val, 0) | .s r => (64 + r.val, 0) | .y k => (96 + k.val, 1)

/-- The pairing of R28; any other pairing is an illegal operand. -/
def Dst.ofCode (d ws : Nat) : Option Dst :=
  if ws = 0 then
    if h : d < 32 then some (.v ⟨d, h⟩)
    else if h : 64 ≤ d ∧ d < 96 then some (.s ⟨d - 64, by omega⟩) else none
  else if h : 96 ≤ d ∧ d < 99 then some (.y ⟨d - 96, by omega⟩) else none

/-- A window or uniform register field: 0..31 or 64..95. -/
def Reg.code : Reg → Nat
  | .v r => r.val | .s r => 64 + r.val
/-- The register a field names, if it is 0..31 or 64..95. -/
def Reg.ofCode (d : Nat) : Option Reg :=
  if h : d < 32 then some (.v ⟨d, h⟩) else if h : 64 ≤ d ∧ d < 96 then some (.s ⟨d - 64, by omega⟩) else none

/-- A uniform register field, 64..95. -/
def sOf (d : Nat) : Option (Fin 32) := if h : 64 ≤ d ∧ d < 96 then some ⟨d - 64, by omega⟩ else none
/-- A window register field, 0..31. -/
def vOf (d : Nat) : Option (Fin 32) := if h : d < 32 then some ⟨d, h⟩ else none

/-- B of a matrix word: registers 0..31 (a multiple of 4 is checked at issue, R364) or a tile in s[b] (R276). -/
def MatB.code : MatB → Nat
  | .v r => r.val | .tile s => 64 + s.val
/-- R276: B is 0..28 in registers or 64..95 for a tile. -/
def MatB.ofCode (d : Nat) : Option MatB :=
  if h : d < 32 then some (.v ⟨d, h⟩) else if h : 64 ≤ d ∧ d < 96 then some (.tile ⟨d - 64, by omega⟩) else none

/-- COUNT of LOOP: 64..95 or 32..47 (R363). -/
def LoopCount.code : LoopCount → Nat
  | .s r => 64 + r.val | .k n => 32 + n.val
/-- The COUNT a field names. -/
def LoopCount.ofCode (d : Nat) : Option LoopCount :=
  if h : 64 ≤ d ∧ d < 96 then some (.s ⟨d - 64, by omega⟩)
  else if h : 32 ≤ d ∧ d < 48 then some (.k ⟨d - 32, by omega⟩) else none

/-- INC of LOOP: 64..95, or 32 for 0 (R363). -/
def incCode : Option (Fin 32) → Nat
  | none => 32 | some r => 64 + r.val
/-- The INC a field names. -/
def incOf (d : Nat) : Option (Option (Fin 32)) :=
  if d = 32 then some none else (sOf d).map some

/-- Fields of a word (R25), as numbers. -/
def fOP (w : Nat) : Nat := bitsOf w 24 8
/-- D [23:17]. -/
def fD (w : Nat) : Nat := bitsOf w 17 7
/-- A [16:10]. -/
def fA (w : Nat) : Nat := bitsOf w 10 7
/-- B [9:3]. -/
def fB (w : Nat) : Nat := bitsOf w 3 7
/-- WS of the R format, bit 2. -/
def fWS (w : Nat) : Nat := bitsOf w 2 1
/-- SF [1:0]. -/
def fSF (w : Nat) : Nat := bitsOf w 0 2
/-- WS of the I format, bit 9. -/
def fWSI (w : Nat) : Nat := bitsOf w 9 1
/-- IMM9 [8:0]. -/
def fImm (w : Nat) : Nat := bitsOf w 0 9

/-- The decoder's result. -/
abbrev Dec := Except Illegal Instr

/-- A check of the decoder: `e` applies when `b` fails. -/
def need (b : Bool) (e : Illegal) : Except Illegal Unit := if b then .ok () else .error e
/-- A field's value, or `e`. -/
def field {α : Type} (o : Option α) (e : Illegal) : Except Illegal α :=
  match o with
  | some a => .ok a
  | none => .error e

/-- The last check of a word: its operands are legal (R27, R28, R209: Instr.wf). -/
def checked (i : Instr) : Dec := if i.wf then .ok i else .error .operand

/-- R format with a destination and two sources. -/
def decDAB (w : Nat) (mk : Dst → Src → Src → Instr) : Dec := do
  let d ← field (Dst.ofCode (fD w) (fWS w)) .operand
  let a ← field (Src.ofCode (fA w)) .operand
  let b ← field (Src.ofCode (fB w)) .operand
  checked (mk d a b)

/-- R format with a destination and one source. -/
def decDA (w : Nat) (mk : Dst → Src → Instr) : Dec := do
  let d ← field (Dst.ofCode (fD w) (fWS w)) .operand
  let a ← field (Src.ofCode (fA w)) .operand
  checked (mk d a)

/-- I format with a destination and one source. -/
def decIDA (w : Nat) (mk : Dst → Src → Instr) : Dec := do
  let d ← field (Dst.ofCode (fD w) (fWSI w)) .operand
  let a ← field (Src.ofCode (fA w)) .operand
  checked (mk d a)

/-- R format, group-level words with two uniform registers (R66, R180, R284, R346): `rws` is the sub-cause of WS = 1. -/
def decSS (w : Nat) (wsErr : Illegal) (mk : Fin 32 → Fin 32 → Instr) : Dec := do
  need (fB w = 0) .reserved
  need (fWS w = 0 || wsErr ≠ .reserved) .reserved
  need (fSF w = 0) .subfn
  need (fWS w = 0) .operand
  let d ← field (sOf (fD w)) .operand
  let a ← field (sOf (fA w)) .operand
  checked (mk d a)

/-- I format, one uniform register in A and a tag (LAYOUT, BGLOAD, BGVEC, BGRUN: WS = 1 is OPERAND by R66; OVPF: RESERVED by R180). -/
def decAN (w : Nat) (wsErr : Illegal) (mk : Fin 32 → BitVec 6 → Instr) : Dec := do
  need (fD w = 0 && bitsOf w 6 3 = 0) .reserved
  need (fWSI w = 0 || wsErr ≠ .reserved) .reserved
  need (fWSI w = 0) .operand
  let a ← field (sOf (fA w)) .operand
  checked (mk a (BitVec.ofNat 6 (bitsOf w 0 6)))

/-- XCOPY, XSTR, XLAY, XACC (R180): D [4] BE, [3:0] k, [6:5] 0. -/
def decX (w : Nat) (mk : Option (Fin 16) → Fin 32 → BitVec 6 → Instr) : Dec := do
  need (bitsOf w 22 2 = 0 && bitsOf w 6 3 = 0 && fWSI w = 0) .reserved
  need (bitsOf w 21 1 = 1 || bitsOf w 17 4 = 0) .reserved
  let a ← field (sOf (fA w)) .operand
  let bar := if bitsOf w 21 1 = 1 then some (Fin.ofNat 16 (bitsOf w 17 4)) else none
  checked (mk bar a (BitVec.ofNat 6 (bitsOf w 0 6)))

/-- B format with a direct target and a predicate. -/
def targetOf (w : Nat) : Target := ⟨BitVec.ofNat 6 (bitsOf w 14 6), BitVec.ofNat 14 (bitsOf w 0 14)⟩

/-- B format with P and N fixed at 0 (BRA, CALL, REJOIN). -/
def decB (w : Nat) (mk : Target → Instr) : Dec := do
  need (bitsOf w 20 4 = 0) .reserved
  checked (mk (targetOf w))

/-- The selection of FEND, BRK and DEMOTE (Table 14.1): with ALL = 1, P and N are 0. -/
def decSel (w : Nat) (mk : Sel → Instr) : Dec := do
  need (bitsOf w 15 5 = 0) .reserved
  need (bitsOf w 14 1 = 0 || bitsOf w 20 4 = 0) .reserved
  checked (mk (if bitsOf w 14 1 = 1 then .all else .pred (Fin.ofNat 8 (bitsOf w 21 3)) (bitsOf w 20 1 = 1)))

/-- Small-matrix words (R290). -/
def decSm (w : Nat) (shapeInB : Bool) (sym : Bool) (mk : Fin 32 → Fin 32 → Fin 32 → SmF → Instr) : Dec := do
  let f ← field (SmF.ofCode (fSF w)) .subfn
  need (sym || f ≠ .sym64) .subfn
  need (fWS w = 0) .operand
  let d ← field (vOf (fD w)) .operand
  let a ← field (vOf (fA w)) .operand
  let b ← field (if shapeInB then sOf (fB w) else vOf (fB w)) .operand
  checked (mk d a b f)

/-- M format: LD and LDU (R167, R169). -/
def decLoad (w : Nat) (mk : Reg → Reg → MType → MSize → BitVec 6 → Instr) : Dec := do
  let t ← field (MType.ofCode (bitsOf w 8 2)) .subfn
  let z ← field (MSize.ofCode (bitsOf w 6 2)) .subfn
  let d ← field (Reg.ofCode (fD w)) .operand
  let a ← field (Reg.ofCode (fA w)) .operand
  checked (mk d a t z (BitVec.ofNat 6 (bitsOf w 0 6)))

/-- RDSR, RDTIME, PERF: D 0..31 or 64..95, A 0, WS 0. -/
def decD (w : Nat) (res : Bool) (mk : Reg → Instr) : Dec := do
  need (res && fA w = 0 && fWSI w = 0) .reserved
  let d ← field (Reg.ofCode (fD w)) .operand
  checked (mk d)

/-- Control words, opcodes 0x00 to 0x1F (Table 14.1). -/
def decodeControl (w : Nat) : Dec :=
  match fOP w with
  | 0x00 => do need (bitsOf w 0 24 = 0) .reserved; checked .nop
  | 0x01 => decB w .bra
  | 0x02 => checked (.brc (Fin.ofNat 8 (bitsOf w 21 3)) (bitsOf w 20 1 = 1) (targetOf w))
  | 0x03 => do
    need (fD w = 0 && bitsOf w 2 8 = 0) .reserved; need (fSF w = 0) .subfn
    let a ← field (Reg.ofCode (fA w)) .operand; checked (.jmp a)
  | 0x04 => decB w .call
  | 0x05 => do
    need (fD w = 0 && bitsOf w 2 8 = 0) .reserved; need (fSF w = 0) .subfn
    let a ← field (Reg.ofCode (fA w)) .operand; checked (.calli a)
  | 0x06 => do need (bitsOf w 2 22 = 0) .reserved; need (fSF w = 0) .reserved; checked .ret
  | 0x07 => checked (.fork (Fin.ofNat 8 (bitsOf w 21 3)) (bitsOf w 20 1 = 1) (targetOf w))
  | 0x08 => do need (bitsOf w 0 14 = 0) .reserved; decSel w .fend
  | 0x09 => decB w .rejoin
  | 0x0A => do need (bitsOf w 4 10 = 0) .reserved; decSel w (fun s => .brk s (BitVec.ofNat 4 (bitsOf w 0 4)))
  | 0x0B => do need (bitsOf w 0 14 = 0) .reserved; decSel w .demote
  | 0x0C => do
    need (bitsOf w 21 3 = 0 && fWS w = 0) .reserved; need (fSF w = 0) .subfn
    let c ← field (LoopCount.ofCode (fA w)) .operand
    let i ← field (incOf (fB w)) .operand
    checked (.loop (BitVec.ofNat 4 (bitsOf w 17 4)) c i)
  | 0x0D => do need (bitsOf w 2 22 = 0) .reserved; need (fSF w = 0) .reserved; checked .lend
  | 0x0E => do need (bitsOf w 4 20 = 0) .reserved; checked (.bar (Fin.ofNat 16 (bitsOf w 0 4)))
  | 0x0F => decSS w .reserved .launch
  | 0x10 => do
    need (fB w = 0 && fWS w = 0) .reserved
    let op ← field (CwOp.ofCode (fSF w)) .subfn
    let d ← field (sOf (fD w)) .operand; let a ← field (sOf (fA w)) .operand
    checked (.cwset op d a)
  | 0x11 => decSS w .reserved .mwait
  | 0x12 => decSS w .reserved .marm
  | 0x13 => do need (bitsOf w 9 15 = 0) .reserved; checked (.yield (BitVec.ofNat 9 (fImm w)))
  | _ => .error .unassigned

/-- R format, class W with two sources. -/
def decW (w : Nat) (mk : Dst → Src → Src → Width → Instr) : Dec := do
  let z ← field (Width.ofCode (fSF w)) .subfn; decDAB w (fun d a b => mk d a b z)
/-- R format, class W with one source, B = 0. -/
def decW1 (w : Nat) (mk : Dst → Src → Width → Instr) : Dec := do
  need (fB w = 0) .reserved
  let z ← field (Width.ofCode (fSF w)) .subfn; decDA w (fun d a => mk d a z)
/-- R format, class S. -/
def decS (w : Nat) (mk : Dst → Src → Src → SWidth → Instr) : Dec := do
  let z ← field (SWidth.ofCode (fSF w)) .subfn; decDAB w (fun d a b => mk d a b z)
/-- R format with SF = 0. -/
def dec0 (w : Nat) (mk : Dst → Src → Src → Instr) : Dec := do need (fSF w = 0) .subfn; decDAB w mk
/-- I format with IMM9. -/
def decI (w : Nat) (mk : Dst → Src → BitVec 9 → Instr) : Dec := decIDA w (fun d a => mk d a (BitVec.ofNat 9 (fImm w)))
/-- SHLI, SHRI, SARI: IMM9 [5:0] n, [7:6] W code, [8] 0. -/
def decSh (w : Nat) (mk : Dst → Src → Width → BitVec 6 → Instr) : Dec := do
  need (bitsOf w 8 1 = 0) .reserved
  let z ← field (Width.ofCode (bitsOf w 6 2)) .subfn
  decIDA w (fun d a => mk d a z (BitVec.ofNat 6 (bitsOf w 0 6)))
/-- MOVW (W format): no WS bit, so D is a register (R28). -/
def decMovw (w : Nat) : Dec := do
  let d ← field (Reg.ofCode (fD w)) .operand
  checked (.movw (Fin.ofNat 4 (bitsOf w 24 2)) d (bitsOf w 16 1 = 1) (BitVec.ofNat 16 (bitsOf w 0 16)))

/-- Integer words, opcodes 0x20 to 0x5F (Table 10.4). -/
def decodeInteger (w : Nat) : Dec :=
  match fOP w with
  | 0x20 => decMovw w
  | 0x21 => decMovw w
  | 0x22 => decMovw w
  | 0x23 => decMovw w
  | 0x24 => do need (fB w = 0) .reserved; need (fSF w = 0) .subfn; decDA w .mov
  | 0x25 => decW w .sel
  | 0x26 => decW w .add
  | 0x27 => decW w .sub
  | 0x28 => decI w .addi
  | 0x29 => decW w .mul
  | 0x2A => decS w .mulhi
  | 0x2B => decW w .mad
  | 0x2C => decS w .div
  | 0x2D => decS w .rem
  | 0x2E => decS w .min
  | 0x2F => decS w .max
  | 0x30 => decW1 w .abs
  | 0x31 => decW1 w .neg
  | 0x32 => decS w .adds
  | 0x33 => decS w .subs
  | 0x34 => dec0 w .and
  | 0x35 => dec0 w .or
  | 0x36 => dec0 w .xor
  | 0x37 => dec0 w .andn
  | 0x38 => decI w .andi
  | 0x39 => decI w .ori
  | 0x3A => decI w .xori
  | 0x3B => decW w .shl
  | 0x3C => decW w .shr
  | 0x3D => decW w .sar
  | 0x3E => decW w .rot
  | 0x3F => decSh w .shli
  | 0x40 => decSh w .shri
  | 0x41 => decSh w .sari
  | 0x42 => decW1 w .clz
  | 0x43 => decW1 w .popc
  | 0x44 => decW1 w .brev
  | 0x45 => do need (fSF w < 2) .subfn; decDAB w (fun d a b => .bfx d a b (fSF w = 1))
  | 0x46 => dec0 w .bfi
  | 0x47 => dec0 w .bdep
  | 0x48 => dec0 w .bext
  | 0x49 => do
    need (fSF w = 0) .subfn
    let d ← field (Dst.ofCode (fD w) (fWS w)) .operand
    let a ← field (Src.ofCode (fA w)) .operand
    let b ← field (Reg.ofCode (fB w)) .operand
    checked (.perm d a b)
  | 0x4A => do need (fSF w < 2) .subfn; decDAB w (fun d a b => .gfmm d a b (fSF w = 1))
  | 0x4B => do
    need (fWS w = 0) .reserved
    let z ← field (Width.ofCode (fSF w)) .subfn
    let cc ← field (ICond.ofCode (bitsOf w 20 4)) .subfn
    let a ← field (Src.ofCode (fA w)) .operand
    let b ← field (Src.ofCode (fB w)) .operand
    checked (.icmp cc (Fin.ofNat 8 (bitsOf w 17 3)) a b z)
  | 0x4C => do
    need (fWSI w = 0) .reserved
    let cc ← field (ICond.ofCode (bitsOf w 20 4)) .subfn
    let a ← field (Src.ofCode (fA w)) .operand
    checked (.icmpi cc (Fin.ofNat 8 (bitsOf w 17 3)) a (BitVec.ofNat 9 (fImm w)))
  | 0x4D => do
    need (bitsOf w 13 4 = 0 && bitsOf w 6 4 = 0 && fWS w = 0) .reserved
    need (fSF w = 0) .subfn
    checked (.plog (BitVec.ofNat 4 (bitsOf w 20 4)) (Fin.ofNat 8 (bitsOf w 17 3)) (Fin.ofNat 8 (bitsOf w 10 3)) (Fin.ofNat 8 (bitsOf w 3 3)))
  | 0x4E =>
    match fSF w with
    | 0 => do
      need (bitsOf w 13 4 = 0 && fB w = 0) .reserved
      need (fWS w = 0) .operand
      let d ← field (vOf (fD w)) .operand
      checked (.pmovToVreg d (Fin.ofNat 8 (bitsOf w 10 3)))
    | 1 => do
      need (bitsOf w 20 4 = 0 && fB w = 0 && fWS w = 0) .reserved
      let a ← field (Src.ofCode (fA w)) .operand
      checked (.pmovToPred (Fin.ofNat 8 (bitsOf w 17 3)) a)
    | 2 => do
      need (fA w = 0 && fB w = 0) .reserved
      need (fWS w = 0) .operand
      let d ← field (vOf (fD w)) .operand
      checked (.pmovPallToVreg d)
    | _ => do
      need (fD w = 0 && fB w = 0 && fWS w = 0) .reserved
      let a ← field (Src.ofCode (fA w)) .operand
      checked (.pmovVregToPall a)
  | 0x4F => decDAB w (fun d a b => .lea d a b (Fin.ofNat 4 (fSF w)))
  | 0x50 => do
    need (fB w = 0) .reserved; need (fSF w < 3) .subfn
    decDA w (fun d a => .sext d a (Fin.ofNat 3 (fSF w)))
  | 0x51 => do
    need (fB w = 0) .reserved; need (fSF w < 3) .subfn
    decDA w (fun d a => .zext d a (Fin.ofNat 3 (fSF w)))
  | 0x52 => do
    let m ← field (ShMode.ofCode (fSF w)) .subfn
    decDAB w (fun d a b => .shfl d a b m)
  | 0x53 => do
    need (fSF w < 2) .subfn
    if fSF w = 0 then decDAB w .bcast
    else do need (fB w = 0) .reserved; decDA w .bcastFirst
  | 0x54 => do
    need (bitsOf w 13 4 = 0 && fB w = 0) .reserved
    let m ← field (VoteMode.ofCode (fSF w)) .subfn
    let d ← field (Dst.ofCode (fD w) (fWS w)) .operand
    checked (.vote d (Fin.ofNat 8 (bitsOf w 10 3)) m)
  | 0x55 => do
    need (bitsOf w 6 4 = 0) .reserved; need (fSF w = 0) .subfn
    let op ← field (LaneOp.ofCode (bitsOf w 3 3)) .subfn
    decDA w (fun d a => .ired d a op)
  | 0x56 => do
    need (bitsOf w 6 4 = 0) .reserved; need (fSF w < 2) .subfn
    let op ← field (LaneOp.ofCode (bitsOf w 3 3)) .subfn
    decDA w (fun d a => .iscan d a op (fSF w = 1))
  | _ => .error .unassigned

/-- R format, class F with two sources. -/
def decF (w : Nat) (mk : Dst → Src → Src → FFmt → Instr) : Dec := do
  let f ← field (FFmt.ofCode (fSF w)) .subfn; decDAB w (fun d a b => mk d a b f)
/-- R format, class F with one source, B = 0. -/
def decF1 (w : Nat) (mk : Dst → Src → FFmt → Instr) : Dec := do
  need (fB w = 0) .reserved
  let f ← field (FFmt.ofCode (fSF w)) .subfn; decDA w (fun d a => mk d a f)
/-- Special functions: F 1..3, B = 0. -/
def decSp (w : Nat) (mk : Dst → Src → SpFmt → Instr) : Dec := do
  need (fB w = 0) .reserved
  let f ← field (SpFmt.ofCode (fSF w)) .subfn; decDA w (fun d a => mk d a f)
/-- R format, class P. -/
def decP (w : Nat) (mk : Dst → Src → Src → PFmt → Instr) : Dec := do
  let f ← field (PFmt.ofCode (fSF w)) .subfn; decDAB w (fun d a b => mk d a b f)

/-- Floating-point, conversion and packed words, opcodes 0x60 to 0x9F (Table 10.4). -/
def decodeFloat (w : Nat) : Dec :=
  match fOP w with
  | 0x60 => decF w .fadd
  | 0x61 => decF w .fsub
  | 0x62 => decF w .fmul
  | 0x63 => decF w .ffma
  | 0x64 => decF w .fmin
  | 0x65 => decF w .fmax
  | 0x66 => decF1 w .fabs
  | 0x67 => decF1 w .fneg
  | 0x68 => decF w .fdiv
  | 0x69 => decF1 w .fsqrt
  | 0x6A => decF1 w .frcp
  | 0x6B => decF1 w .frsq
  | 0x6C => do
    need (fWS w = 0) .reserved
    let f ← field (FFmt.ofCode (fSF w)) .subfn
    let cc ← field (FCond.ofCode (bitsOf w 20 4)) .subfn
    let a ← field (Src.ofCode (fA w)) .operand
    let b ← field (Src.ofCode (fB w)) .operand
    checked (.fcmp cc (Fin.ofNat 8 (bitsOf w 17 3)) a b f)
  | 0x6D => decF1 w .fclass
  | 0x6E => decF w .fcpys
  | 0x6F => do
    let f ← field (DFmt.ofCode (fSF w)) .subfn; decDAB w (fun d a b => .fdot2 d a b f)
  | 0x70 => decSp w .fexp2
  | 0x71 => decSp w .flog2
  | 0x72 => decSp w .fsin
  | 0x73 => decSp w .fcos
  | 0x74 => decSp w .ftanh
  | 0x75 => decSp w .ferf
  | 0x76 => decF1 w .frnd
  | 0x77 => decF1 w .ffrac
  | 0x78 => do
    need (bitsOf w 5 5 = 0) .reserved
    let f ← field (RFmt.ofCode (fSF w)) .subfn
    let op ← field (FOp.ofCode (bitsOf w 3 2)) .subfn
    decDA w (fun d a => .fred d a op f)
  | 0x79 => do
    need (bitsOf w 6 4 = 0) .reserved
    let f ← field (RFmt.ofCode (fSF w)) .subfn
    let op ← field (FOp.ofCode (bitsOf w 3 2)) .subfn
    decDA w (fun d a => .fscan d a op (bitsOf w 5 1 = 1) f)
  | 0x80 => do
    need (bitsOf w 9 1 = 0) .reserved; need (fSF w < 2) .subfn
    let dst ← field (CFmt.ofCode (bitsOf w 3 3)) .subfn
    let src ← field (CFmt.ofCode (bitsOf w 6 3)) .subfn
    decDA w (fun d a => .fcvt d a dst src (fSF w = 1))
  | 0x81 => do
    need (bitsOf w 9 1 = 0) .reserved; need (fSF w = 0) .subfn
    let dst ← field (FFmt.ofCode (bitsOf w 3 3)) .subfn
    let ty ← field (IntTy.ofCode (bitsOf w 6 3)) .subfn
    decDA w (fun d a => .icvt d a dst ty)
  | 0x82 => do
    need (bitsOf w 9 1 = 0) .reserved; need (fSF w = 0) .subfn
    let src ← field (CFmt.ofCode (bitsOf w 3 3)) .subfn
    let ty ← field (IntTy.ofCode (bitsOf w 6 3)) .subfn
    decDA w (fun d a => .ficvt d a src ty)
  | 0x83 => do
    let z ← field (PkW.ofCode (fSF w)) .subfn; decDAB w (fun d a b => .pack d a b z)
  | 0x84 => do
    need (bitsOf w 4 6 = 0) .reserved
    let z ← field (PkW.ofCode (fSF w)) .subfn
    decDA w (fun d a => .unpk d a z (bitsOf w 3 1 = 1))
  | 0x85 => do
    need (fB w = 0) .reserved; need (fSF w = 0) .subfn; need (fWS w = 0) .operand
    let d ← field (vOf (fD w)) .operand
    let a ← field (Src.ofCode (fA w)) .operand
    checked (.qmx4 d a)
  | 0x86 => decDAB w (fun d a b => .dqmx4 d a b (Fin.ofNat 4 (fSF w)))
  | 0x87 => do
    let k ← field (F8.ofCode (fSF w)) .subfn; decDAB w (fun d a b => .qf8 d a b k)
  | 0x88 => do
    let k ← field (F8.ofCode (fSF w)) .subfn; decDAB w (fun d a b => .dqf8 d a b k)
  | 0x89 => dec0 w .qi8
  | 0x8A => dec0 w .qi4
  | 0x8B => do
    need (fSF w = 0) .subfn
    let d ← field (Dst.ofCode (fD w) (fWS w)) .operand
    let a ← field (Src.ofCode (fA w)) .operand
    let b ← field (sOf (fB w)) .operand
    checked (.rscl d a b)
  | 0x8C => dec0 w .srnd
  | 0x90 => decP w .padd
  | 0x91 => decP w .psub
  | 0x92 => decP w .pmul
  | 0x93 => decP w .pfma
  | 0x94 => decP w .pmin
  | 0x95 => decP w .pmax
  | 0x96 => decP w .pdot
  | _ => .error .unassigned

/-- Operands of a matrix compute word (R276). -/
def decMat (w : Nat) (mk : Fin 32 → Fin 32 → MatB → Instr) : Dec := do
  need (fWS w = 0) .operand
  let d ← field (vOf (fD w)) .operand
  let a ← field (vOf (fA w)) .operand
  let b ← field (MatB.ofCode (fB w)) .operand
  checked (mk d a b)

/-- Matrix and small-matrix words, opcodes 0xA0 to 0xBF (Tables 11.3, 11.7; R283, R284). -/
def decodeMatrix (w : Nat) : Dec :=
  match fOP w with
  | 0xA0 => do let f ← field (MqaF.ofCode (fSF w)) .subfn; decMat w (fun d a b => .mqa d a b f)
  | 0xA1 => do let f ← field (MqaxF.ofCode (fSF w)) .subfn; decMat w (fun d a b => .mqax d a b f)
  | 0xA2 => do let f ← field (MqaiF.ofCode (fSF w)) .subfn; decMat w (fun d a b => .mqai d a b f)
  | 0xA3 => decSS w .operand .mtf
  | 0xA4 => decSS w .operand .mtfr
  | 0xA5 => do need (bitsOf w 2 22 = 0) .reserved; need (fSF w = 0) .subfn; checked .msync
  | 0xB0 => decSm w false false .smm
  | 0xB1 => decSm w false true .smadd
  | 0xB2 => decSm w true false .strn
  | 0xB3 => decSm w true true .schol
  | 0xB4 => decSm w true false .sluf
  | 0xB5 => decSm w true true .ssol
  | 0xB6 => decSm w true true .strs
  | 0xB7 => decSm w true true .sdet
  | _ => .error .unassigned

/-- Memory words, opcodes 0xC0 to 0xDF (Tables 3.8, 7.4, 12.5; R146). -/
def decodeMemory (w : Nat) : Dec :=
  match fOP w with
  | 0xC0 => decLoad w .ld
  | 0xC1 => do
    let t ← field (MType.ofCode (bitsOf w 8 2)) .subfn
    let z ← field (MSize.ofCode (bitsOf w 6 2)) .subfn
    let d ← field (Src.ofCode (fD w)) .operand
    let a ← field (Reg.ofCode (fA w)) .operand
    checked (.st d a t z (BitVec.ofNat 6 (bitsOf w 0 6)))
  | 0xC2 => do
    need (bitsOf w 8 2 = 0) .reserved
    let z ← field (MSize.ofCode (bitsOf w 6 2)) .subfn
    let d ← field (Reg.ofCode (fD w)) .operand
    let a ← field (Reg.ofCode (fA w)) .operand
    checked (.lds d a z (BitVec.ofNat 6 (bitsOf w 0 6)))
  | 0xC3 => do
    need (bitsOf w 8 2 = 0) .reserved
    let z ← field (MSize.ofCode (bitsOf w 6 2)) .subfn
    let d ← field (Src.ofCode (fD w)) .operand
    let a ← field (Reg.ofCode (fA w)) .operand
    checked (.sts d a z (BitVec.ofNat 6 (bitsOf w 0 6)))
  | 0xC4 => do
    let z ← field (MSize.ofCode (fSF w)) .subfn
    need (fWS w = 0) .operand
    let d ← field (vOf (fD w)) .operand
    let a ← field (Reg.ofCode (fA w)) .operand
    let b ← field (sOf (fB w)) .operand
    checked (.gath d a b z)
  | 0xC5 => do
    need (fWS w = 0) .reserved
    let z ← field (MSize.ofCode (fSF w)) .subfn
    let d ← field (Src.ofCode (fD w)) .operand
    let a ← field (Reg.ofCode (fA w)) .operand
    let b ← field (sOf (fB w)) .operand
    checked (.scat d a b z)
  | 0xC6 => decLoad w .ldu
  | 0xC7 => do
    need (bitsOf w 18 6 = 0 && bitsOf w 6 2 = 0) .reserved
    need (bitsOf w 8 2 < 3) .subfn
    let t ← field (MType.ofCode (bitsOf w 8 2)) .subfn
    let a ← field (Reg.ofCode (fA w)) .operand
    checked (.pref (bitsOf w 17 1 = 1) a t (BitVec.ofNat 6 (bitsOf w 0 6)))
  | 0xC8 => do
    need (fWS w = 0) .reserved
    let ord ← field (AOrd.ofCode (fSF w)) .subfn
    let sc ← field (AScope.ofCode (bitsOf w 3 2)) .subfn
    let op ← field (AOp.ofCode (bitsOf w 5 5)) .subfn
    need (ord ≠ .rlx || sc = .core) .subfn
    let d ← field (vOf (fD w)) .operand
    let a ← field (Reg.ofCode (fA w)) .operand
    checked (.atom d a op sc ord)
  | 0xC9 => do
    need (fWS w = 0 && bitsOf w 7 3 = 0) .reserved
    let ord ← field (AOrd.ofCode (fSF w)) .subfn
    let sc ← field (AScope.ofCode (bitsOf w 3 2)) .subfn
    need (ord ≠ .rlx || sc = .core) .subfn
    need (bitsOf w 6 1 = 0 || ord = .acq || ord = .ar) .subfn
    let d ← field (vOf (fD w)) .operand
    let a ← field (Reg.ofCode (fA w)) .operand
    checked (.cas d a (bitsOf w 6 1 = 1) (bitsOf w 5 1 = 1) sc ord)
  | 0xCA => do
    need (fD w = 0 && fA w = 0 && bitsOf w 6 4 = 0 && fWS w = 0) .reserved
    let sc ← field (Scope.ofCode (bitsOf w 3 3)) .subfn
    let k ← field (FKind.ofCode (fSF w)) .subfn
    checked (.fence sc k)
  | 0xCB => do
    need (fB w = 0) .reserved; need (fSF w < 2) .subfn; need (fWS w = 0) .operand
    let d ← field (sOf (fD w)) .operand
    let a ← field (sOf (fA w)) .operand
    checked (if fSF w = 0 then .fenceModeGive d a else .fenceModeTake d a)
  | 0xCC => decSS w .operand .rowgive
  | 0xCD => decSS w .operand .rowtake
  | 0xCE => decAN w .operand .layout
  | 0xCF => do
    need (fSF w ≠ 1 || fB w = 0) .reserved
    need (fSF w < 2) .subfn; need (fWS w = 0) .operand
    let d ← field (sOf (fD w)) .operand
    let a ← field (sOf (fA w)) .operand
    if fSF w = 0 then do
      let b ← field (sOf (fB w)) .operand
      checked (.phaseOpen d a b)
    else checked (.phaseEnd d a)
  | 0xD0 => do
    need (fWS w = 0) .reserved
    need (fSF w = 0) .subfn
    let ty ← field (RedTy.ofCode (bitsOf w 7 3)) .subfn
    let op ← field (RedOp.ofCode (bitsOf w 3 4)) .subfn
    need (redAllowed ty op) .subfn
    let d ← field (Src.ofCode (fD w)) .operand
    let a ← field (Reg.ofCode (fA w)) .operand
    checked (.red d a ty op)
  | 0xD1 => do
    need (fA w = 0 && bitsOf w 5 4 = 0) .reserved; need (fWSI w = 0) .operand
    let d ← field (sOf (fD w)) .operand
    checked (.bufset d (bitsOf w 4 1 = 1) (Fin.ofNat 16 (bitsOf w 0 4)))
  | 0xD2 => do
    need (fA w = 0 && bitsOf w 4 5 = 0) .reserved; need (fWSI w = 0) .operand
    let d ← field (sOf (fD w)) .operand
    checked (.bufget d (Fin.ofNat 16 (bitsOf w 0 4)))
  | 0xD3 => do
    need (fD w = 0 && bitsOf w 1 9 = 0) .reserved
    let a ← field (Reg.ofCode (fA w)) .operand
    checked (.cflush a (bitsOf w 0 1 = 1))
  | 0xD4 => do
    need (fD w = 0 && bitsOf w 1 9 = 0) .reserved
    need (bitsOf w 0 1 = 0 || fA w = 0) .reserved
    let a ← field (Reg.ofCode (fA w)) .operand
    checked (.cinv (if bitsOf w 0 1 = 1 then none else some a))
  | _ => .error .unassigned

/-- Engine and bank words, opcodes 0xE0 to 0xEF (Tables 4.10, 8.1; R105, R150). -/
def decodeEngine (w : Nat) : Dec :=
  match fOP w with
  | 0xE0 => decX w .xcopy
  | 0xE1 => decX w .xstr
  | 0xE2 => decX w .xlay
  | 0xE3 => decX w .xacc
  | 0xE4 => do
    need (fA w = 0 && bitsOf w 3 7 = 0) .reserved
    let d ← field (sOf (fD w)) .operand
    checked (.xpub d (bitsOf w 2 1 = 1) (Fin.ofNat 4 (bitsOf w 0 2)))
  | 0xE5 => do
    need (bitsOf w 8 2 = 0) .reserved
    let d ← field (sOf (fD w)) .operand
    let a ← field (sOf (fA w)) .operand
    checked (.ovld d a (Fin.ofNat 4 (bitsOf w 6 2)) (BitVec.ofNat 6 (bitsOf w 0 6)))
  | 0xE6 => decAN w .reserved .ovpf
  | 0xE7 => decSS w .reserved .waitany
  | 0xE8 => do
    need (fD w = 0 && bitsOf w 2 8 = 0) .reserved; need (fSF w = 0) .subfn
    let a ← field (sOf (fA w)) .operand
    checked (.waitall a)
  | 0xE9 => decSS w .reserved .ffr
  | 0xEA => decAN w .operand .bgload
  | 0xEB => decAN w .operand .bgvec
  | 0xEC => decAN w .operand .bgrun
  | 0xED => do
    need (fA w = 0 && bitsOf w 6 3 = 0) .reserved; need (fWSI w = 0) .operand
    let d ← field (sOf (fD w)) .operand
    checked (.bgwait d (BitVec.ofNat 6 (bitsOf w 0 6)))
  | 0xEE => do
    need (fSF w < 2) .subfn; need (fWS w = 0) .operand
    let d ← field (vOf (fD w)) .operand
    let a ← field (Reg.ofCode (fA w)) .operand
    let b ← field (Src.ofCode (fB w)) .operand
    checked (.gred d a b (fSF w = 1))
  | 0xEF => do
    need (fSF w < 2) .subfn; need (fWS w = 0) .operand
    let d ← field (vOf (fD w)) .operand
    let a ← field (Reg.ofCode (fA w)) .operand
    let b ← field (sOf (fB w)) .operand
    checked (.mlr d a b (fSF w = 1))
  | _ => .error .unassigned

/-- System words and PFX, opcodes 0xF0 to 0xFF (R31, R34, Table 15.10); 0xF7 in a clause body is unassigned (R35). -/
def decodeSystem (w : Nat) : Dec :=
  match fOP w with
  | 0xF0 => do
    need (bitsOf w 0 4 = 0) .prefix_
    checked (.pfx (Fin.ofNat 8 (bitsOf w 21 3)) (bitsOf w 20 1 = 1) (BitVec.ofNat 3 (bitsOf w 17 3)) (bitsOf w 16 1 = 1)
      (BitVec.ofNat 7 (bitsOf w 9 7)) (bitsOf w 8 1 = 1) (BitVec.ofNat 4 (bitsOf w 4 4)))
  | 0xF1 => do need (bitsOf w 9 15 = 0) .reserved; checked (.trap (BitVec.ofNat 9 (fImm w)))
  | 0xF2 => do
    need (bitsOf w 2 22 = 0) .reserved; need (fSF w < 2) .subfn
    checked (if fSF w = 0 then .tret else .tretFail)
  | 0xF3 => decD w (bitsOf w 8 1 = 0) (fun d => .rdsr d (BitVec.ofNat 8 (bitsOf w 0 8)))
  | 0xF4 => do
    need (fD w = 0 && bitsOf w 8 2 = 0) .reserved
    let a ← field (Src.ofCode (fA w)) .operand
    checked (.wrsr a (BitVec.ofNat 8 (bitsOf w 0 8)))
  | 0xF5 => do need (bitsOf w 9 15 = 0) .reserved; checked (.bkpt (BitVec.ofNat 9 (fImm w)))
  | 0xF6 => decD w (fImm w = 0) .rdtime
  | 0xF8 => decD w (bitsOf w 3 6 = 0) (fun d => .perf d (Fin.ofNat 8 (bitsOf w 0 3)))
  | 0xFF => checked (.udf (BitVec.ofNat 24 (bitsOf w 0 24)))
  | _ => .error .unassigned

/-- A word of a clause body, as a number below 2^32. -/
def decodeNat (w : Nat) : Dec :=
  if fOP w < 0x20 then decodeControl w
  else if fOP w < 0x60 then decodeInteger w
  else if fOP w < 0xA0 then decodeFloat w
  else if fOP w < 0xC0 then decodeMatrix w
  else if fOP w < 0xE0 then decodeMemory w
  else if fOP w < 0xF0 then decodeEngine w
  else decodeSystem w

/-- The decoder of a word of a clause body. -/
def decode (w : W32) : Dec := decodeNat w.toNat

/-- A clause header word (Table 2.1): SIG and the reserved bits; what its other fields break is reported as HEADER
when the path reaches it (execClauseHeader). -/
def decodeHeaderNat (w : Nat) : Dec := do
  need (fOP w = 0xF7 && bitsOf w 0 2 = 0) .header
  .ok (.clauseHeader (BitVec.ofNat 4 (bitsOf w 20 4)) (BitVec.ofNat 2 (bitsOf w 18 2)) (bitsOf w 17 1 = 1) (bitsOf w 16 1 = 1)
    (BitVec.ofNat 6 (bitsOf w 10 6)) (bitsOf w 9 1 = 1) (BitVec.ofNat 4 (bitsOf w 5 4)) (bitsOf w 4 1 = 1) (bitsOf w 3 1 = 1)
    (bitsOf w 2 1 = 1))

/-- The decoder of a word where a clause must begin. -/
def decodeHeader (w : W32) : Dec := decodeHeaderNat w.toNat

/-- A bank move word (Table 4.3); every 32-bit word is one of the two forms, and R75 checks it when it runs. -/
def decodeMoveNat (w : Nat) : Instr :=
  if bitsOf w 27 1 = 0 then
    .bankMovePort (bitsOf w 31 1 = 1) (Fin.ofNat 8 (bitsOf w 28 3)) (BitVec.ofNat 7 (bitsOf w 20 7)) (BitVec.ofNat 7 (bitsOf w 13 7))
      (BitVec.ofNat 13 (bitsOf w 0 13))
  else
    .bankMoveImmediate (bitsOf w 31 1 = 1) (Fin.ofNat 8 (bitsOf w 28 3)) (BitVec.ofNat 7 (bitsOf w 20 7)) (BitVec.ofNat 16 (bitsOf w 4 16))
      (BitVec.ofNat 4 (bitsOf w 0 4))

/-- The decoder of a bank move word. -/
def decodeMove (w : W32) : Instr := decodeMoveNat w.toNat

/-- The host's question: the instruction read from a table row's word. A word of a clause body first; a header where the
word is one; a bank move where the core's decoder gives no instruction. The three kinds of word are read in different
places of the machine (R19, R35, R72), so a word that two of them could read is read as the core's. -/
def decodeTableWord (nbits w : Nat) : Option Instr :=
  if nbits = 32 then
    if fOP w = 0xF7 then
      match decodeHeaderNat w with
      | .ok i => some i
      | .error _ => some (decodeMoveNat w)
    else
      match decodeNat w with
      | .ok i => some i
      | .error _ => some (decodeMoveNat w)
  else none

/-! The encoder, from the same tables. -/

/-- A word of the R format. -/
def encR (op d a b ws sf : Nat) : Nat := op * 2 ^ 24 + d * 2 ^ 17 + a * 2 ^ 10 + b * 2 ^ 3 + ws * 2 ^ 2 + sf
/-- A word of the I format. -/
def encI (op d a ws imm : Nat) : Nat := op * 2 ^ 24 + d * 2 ^ 17 + a * 2 ^ 10 + ws * 2 ^ 9 + imm
/-- A word of the B format. -/
def encB (op p n ovr wix : Nat) : Nat := op * 2 ^ 24 + p * 2 ^ 21 + n * 2 ^ 20 + ovr * 2 ^ 14 + wix
/-- A word of the M format. -/
def encM (op d a t z off : Nat) : Nat := op * 2 ^ 24 + d * 2 ^ 17 + a * 2 ^ 10 + t * 2 ^ 8 + z * 2 ^ 6 + off
/-- R format with Dst and two sources. -/
def encDAB (op : Nat) (d : Dst) (a b : Src) (sf : Nat) : Nat := encR op d.code.1 a.code b.code d.code.2 sf
/-- R format with Dst, one source and a B code. -/
def encDA (op : Nat) (d : Dst) (a : Src) (b sf : Nat) : Nat := encR op d.code.1 a.code b d.code.2 sf
/-- I format with Dst and one source. -/
def encIDA (op : Nat) (d : Dst) (a : Src) (imm : Nat) : Nat := encI op d.code.1 a.code d.code.2 imm
/-- Two uniform registers. -/
def encSS (op : Nat) (d a : Fin 32) (sf : Nat) : Nat := encR op (64 + d.val) (64 + a.val) 0 0 sf
/-- A direct target with P and N. -/
def encT (op p n : Nat) (t : Target) : Nat := encB op p n t.ovr.toNat t.wix.toNat
/-- A lane selection with WIX. -/
def encSel (op : Nat) (s : Sel) (wix : Nat) : Nat :=
  match s with
  | .all => encB op 0 0 1 wix
  | .pred p n => encB op p.val n.toNat 0 wix
/-- A transfer word. -/
def encX (op : Nat) (bar : Option (Fin 16)) (a : Fin 32) (n : BitVec 6) : Nat :=
  encI op (match bar with | none => 0 | some k => 16 + k.val) (64 + a.val) 0 n.toNat

/-- The word of an instruction, as a number; none for an event, which has no encoding. -/
def encodeNat : Instr → Option Nat
  | .clauseHeader c e s t w b k y l p => some (0xF7 * 2 ^ 24 + c.toNat * 2 ^ 20 + e.toNat * 2 ^ 18 + s.toNat * 2 ^ 17 + t.toNat * 2 ^ 16 + w.toNat * 2 ^ 10 + b.toNat * 2 ^ 9 + k.toNat * 2 ^ 5 + y.toNat * 2 ^ 4 + l.toNat * 2 ^ 3 + p.toNat * 2 ^ 2)
  | .pathAged _ _ => none
  | .nop => some (0x00 * 2 ^ 24)
  | .pfx m e r z c ce th => some (0xF0 * 2 ^ 24 + m.val * 2 ^ 21 + e.toNat * 2 ^ 20 + r.toNat * 2 ^ 17 + z.toNat * 2 ^ 16 + c.toNat * 2 ^ 9 + ce.toNat * 2 ^ 8 + th.toNat * 2 ^ 4)
  | .udf u => some (0xFF * 2 ^ 24 + u.toNat)
  | .bra t => some (encT 0x01 0 0 t)
  | .brc p n t => some (encT 0x02 p.val n.toNat t)
  | .jmp a => some (encR 0x03 0 a.code 0 0 0)
  | .call t => some (encT 0x04 0 0 t)
  | .calli a => some (encR 0x05 0 a.code 0 0 0)
  | .ret => some (0x06 * 2 ^ 24)
  | .fork p n t => some (encT 0x07 p.val n.toNat t)
  | .fend s => some (encSel 0x08 s 0)
  | .groupEnd _ => none
  | .rejoin t => some (encT 0x09 0 0 t)
  | .brk s n => some (encSel 0x0A s n.toNat)
  | .demote s => some (encSel 0x0B s 0)
  | .loop n c i => some (encR 0x0C n.toNat c.code (incCode i) 0 0)
  | .lend => some (0x0D * 2 ^ 24)
  | .bar k => some (encI 0x0E 0 0 0 k.val)
  | .launch d a => some (encSS 0x0F d a 0)
  | .cwset op d a => some (encSS 0x10 d a op.code)
  | .mwait d a => some (encSS 0x11 d a 0)
  | .mwaitTimeout _ _ => none
  | .marm d a => some (encSS 0x12 d a 0)
  | .yield n => some (encI 0x13 0 0 0 n.toNat)
  | .yieldExpiry _ _ => none
  | .movw q d k imm => some ((0x20 + q.val) * 2 ^ 24 + d.code * 2 ^ 17 + k.toNat * 2 ^ 16 + imm.toNat)
  | .mov d a => some (encDA 0x24 d a 0 0)
  | .sel d a b w => some (encDAB 0x25 d a b w.code)
  | .add d a b w => some (encDAB 0x26 d a b w.code)
  | .sub d a b w => some (encDAB 0x27 d a b w.code)
  | .addi d a imm => some (encIDA 0x28 d a imm.toNat)
  | .mul d a b w => some (encDAB 0x29 d a b w.code)
  | .mulhi d a b t => some (encDAB 0x2A d a b t.code)
  | .mad d a b w => some (encDAB 0x2B d a b w.code)
  | .div d a b t => some (encDAB 0x2C d a b t.code)
  | .rem d a b t => some (encDAB 0x2D d a b t.code)
  | .min d a b t => some (encDAB 0x2E d a b t.code)
  | .max d a b t => some (encDAB 0x2F d a b t.code)
  | .abs d a w => some (encDA 0x30 d a 0 w.code)
  | .neg d a w => some (encDA 0x31 d a 0 w.code)
  | .adds d a b t => some (encDAB 0x32 d a b t.code)
  | .subs d a b t => some (encDAB 0x33 d a b t.code)
  | .and d a b => some (encDAB 0x34 d a b 0)
  | .or d a b => some (encDAB 0x35 d a b 0)
  | .xor d a b => some (encDAB 0x36 d a b 0)
  | .andn d a b => some (encDAB 0x37 d a b 0)
  | .andi d a imm => some (encIDA 0x38 d a imm.toNat)
  | .ori d a imm => some (encIDA 0x39 d a imm.toNat)
  | .xori d a imm => some (encIDA 0x3A d a imm.toNat)
  | .shl d a b w => some (encDAB 0x3B d a b w.code)
  | .shr d a b w => some (encDAB 0x3C d a b w.code)
  | .sar d a b w => some (encDAB 0x3D d a b w.code)
  | .rot d a b w => some (encDAB 0x3E d a b w.code)
  | .shli d a w n => some (encIDA 0x3F d a (w.code * 64 + n.toNat))
  | .shri d a w n => some (encIDA 0x40 d a (w.code * 64 + n.toNat))
  | .sari d a w n => some (encIDA 0x41 d a (w.code * 64 + n.toNat))
  | .clz d a w => some (encDA 0x42 d a 0 w.code)
  | .popc d a w => some (encDA 0x43 d a 0 w.code)
  | .brev d a w => some (encDA 0x44 d a 0 w.code)
  | .bfx d a b sg => some (encDAB 0x45 d a b sg.toNat)
  | .bfi d a b => some (encDAB 0x46 d a b 0)
  | .bdep d a b => some (encDAB 0x47 d a b 0)
  | .bext d a b => some (encDAB 0x48 d a b 0)
  | .perm d a b => some (encR 0x49 d.code.1 a.code b.code d.code.2 0)
  | .gfmm d a b tr => some (encDAB 0x4A d a b tr.toNat)
  | .icmp cc k a b w => some (encR 0x4B (cc.code * 8 + k.val) a.code b.code 0 w.code)
  | .icmpi cc k a imm => some (encI 0x4C (cc.code * 8 + k.val) a.code 0 imm.toNat)
  | .plog tt d a b => some (encR 0x4D (tt.toNat * 8 + d.val) a.val b.val 0 0)
  | .pmovToVreg d k => some (encR 0x4E d.val k.val 0 0 0)
  | .pmovToPred k a => some (encR 0x4E k.val a.code 0 0 1)
  | .pmovPallToVreg d => some (encR 0x4E d.val 0 0 0 2)
  | .pmovVregToPall a => some (encR 0x4E 0 a.code 0 0 3)
  | .lea d a b sc => some (encDAB 0x4F d a b sc.val)
  | .sext d a fr => some (encDA 0x50 d a 0 fr.val)
  | .zext d a fr => some (encDA 0x51 d a 0 fr.val)
  | .shfl d a b m => some (encDAB 0x52 d a b m.code)
  | .bcast d a b => some (encDAB 0x53 d a b 0)
  | .bcastFirst d a => some (encDA 0x53 d a 0 1)
  | .vote d k m => some (encR 0x54 d.code.1 k.val 0 d.code.2 m.code)
  | .ired d a op => some (encDA 0x55 d a op.code 0)
  | .iscan d a op e => some (encDA 0x56 d a op.code e.toNat)
  | .fadd d a b f => some (encDAB 0x60 d a b f.code)
  | .fsub d a b f => some (encDAB 0x61 d a b f.code)
  | .fmul d a b f => some (encDAB 0x62 d a b f.code)
  | .ffma d a b f => some (encDAB 0x63 d a b f.code)
  | .fmin d a b f => some (encDAB 0x64 d a b f.code)
  | .fmax d a b f => some (encDAB 0x65 d a b f.code)
  | .fabs d a f => some (encDA 0x66 d a 0 f.code)
  | .fneg d a f => some (encDA 0x67 d a 0 f.code)
  | .fdiv d a b f => some (encDAB 0x68 d a b f.code)
  | .fsqrt d a f => some (encDA 0x69 d a 0 f.code)
  | .frcp d a f => some (encDA 0x6A d a 0 f.code)
  | .frsq d a f => some (encDA 0x6B d a 0 f.code)
  | .fcmp cc k a b f => some (encR 0x6C (cc.code * 8 + k.val) a.code b.code 0 f.code)
  | .fclass d a f => some (encDA 0x6D d a 0 f.code)
  | .fcpys d a b f => some (encDAB 0x6E d a b f.code)
  | .fdot2 d a b f => some (encDAB 0x6F d a b f.code)
  | .fexp2 d a f => some (encDA 0x70 d a 0 f.code)
  | .flog2 d a f => some (encDA 0x71 d a 0 f.code)
  | .fsin d a f => some (encDA 0x72 d a 0 f.code)
  | .fcos d a f => some (encDA 0x73 d a 0 f.code)
  | .ftanh d a f => some (encDA 0x74 d a 0 f.code)
  | .ferf d a f => some (encDA 0x75 d a 0 f.code)
  | .frnd d a f => some (encDA 0x76 d a 0 f.code)
  | .ffrac d a f => some (encDA 0x77 d a 0 f.code)
  | .fred d a op f => some (encDA 0x78 d a op.code f.code)
  | .fscan d a op e f => some (encDA 0x79 d a (e.toNat * 4 + op.code) f.code)
  | .fcvt d a dst src sat => some (encDA 0x80 d a (src.code * 8 + dst.code) sat.toNat)
  | .icvt d a dst ty => some (encDA 0x81 d a (ty.code * 8 + dst.code) 0)
  | .ficvt d a src ty => some (encDA 0x82 d a (ty.code * 8 + src.code) 0)
  | .pack d a b w => some (encDAB 0x83 d a b w.code)
  | .unpk d a w hi => some (encDA 0x84 d a hi.toNat w.code)
  | .qmx4 d a => some (encR 0x85 d.val a.code 0 0 0)
  | .dqmx4 d a b q => some (encDAB 0x86 d a b q.val)
  | .qf8 d a b k => some (encDAB 0x87 d a b k.code)
  | .dqf8 d a b k => some (encDAB 0x88 d a b k.code)
  | .qi8 d a b => some (encDAB 0x89 d a b 0)
  | .qi4 d a b => some (encDAB 0x8A d a b 0)
  | .rscl d a b => some (encR 0x8B d.code.1 a.code (64 + b.val) d.code.2 0)
  | .srnd d a b => some (encDAB 0x8C d a b 0)
  | .padd d a b f => some (encDAB 0x90 d a b f.code)
  | .psub d a b f => some (encDAB 0x91 d a b f.code)
  | .pmul d a b f => some (encDAB 0x92 d a b f.code)
  | .pfma d a b f => some (encDAB 0x93 d a b f.code)
  | .pmin d a b f => some (encDAB 0x94 d a b f.code)
  | .pmax d a b f => some (encDAB 0x95 d a b f.code)
  | .pdot d a b f => some (encDAB 0x96 d a b f.code)
  | .mqa d a b f => some (encR 0xA0 d.val a.val b.code 0 f.code)
  | .mqax d a b f => some (encR 0xA1 d.val a.val b.code 0 f.code)
  | .mqai d a b f => some (encR 0xA2 d.val a.val b.code 0 f.code)
  | .matrixGrant _ => none
  | .matrixRequestAged _ _ => none
  | .matrixPassEnd _ _ _ => none
  | .mtf d a => some (encSS 0xA3 d a 0)
  | .mtfr d a => some (encSS 0xA4 d a 0)
  | .mtfLineArrival _ _ _ _ => none
  | .msync => some (0xA5 * 2 ^ 24)
  | .smm d a b f => some (encR 0xB0 d.val a.val b.val 0 f.code)
  | .smadd d a b f => some (encR 0xB1 d.val a.val b.val 0 f.code)
  | .strn d a b f => some (encR 0xB2 d.val a.val (64 + b.val) 0 f.code)
  | .schol d a b f => some (encR 0xB3 d.val a.val (64 + b.val) 0 f.code)
  | .sluf d a b f => some (encR 0xB4 d.val a.val (64 + b.val) 0 f.code)
  | .ssol d a b f => some (encR 0xB5 d.val a.val (64 + b.val) 0 f.code)
  | .strs d a b f => some (encR 0xB6 d.val a.val (64 + b.val) 0 f.code)
  | .sdet d a b f => some (encR 0xB7 d.val a.val (64 + b.val) 0 f.code)
  | .ld d a t z off => some (encM 0xC0 d.code a.code t.code z.code off.toNat)
  | .st d a t z off => some (encM 0xC1 d.code a.code t.code z.code off.toNat)
  | .lds d a z off => some (encM 0xC2 d.code a.code 0 z.code off.toNat)
  | .sts d a z off => some (encM 0xC3 d.code a.code 0 z.code off.toNat)
  | .gath d a b z => some (encR 0xC4 d.val a.code (64 + b.val) 0 z.code)
  | .scat d a b z => some (encR 0xC5 d.code a.code (64 + b.val) 0 z.code)
  | .ldu d a t z off => some (encM 0xC6 d.code a.code t.code z.code off.toNat)
  | .pref k a t off => some (encM 0xC7 k.toNat a.code t.code 0 off.toNat)
  | .memoryResponse _ _ _ => none
  | .pageWalkComplete _ _ => none
  | .homeSliceWrite _ => none
  | .homeSliceRead _ _ _ => none
  | .cflush a k => some (encI 0xD3 0 a.code 0 k.toNat)
  | .cinv a => some (match a with | none => encI 0xD4 0 0 0 1 | some r => encI 0xD4 0 r.code 0 0)
  | .bufset d f n => some (encI 0xD1 (64 + d.val) 0 0 (f.toNat * 16 + n.val))
  | .bufget d n => some (encI 0xD2 (64 + d.val) 0 0 n.val)
  | .atom d a op sc ord => some (encR 0xC8 d.val a.code (op.code * 4 + sc.code) 0 ord.code)
  | .cas d a fa is sc ord => some (encR 0xC9 d.val a.code (fa.toNat * 8 + is.toNat * 4 + sc.code) 0 ord.code)
  | .fence sc k => some (encR 0xCA 0 0 sc.code 0 k.code)
  | .fenceModeGive d a => some (encSS 0xCB d a 0)
  | .fenceModeTake d a => some (encSS 0xCB d a 1)
  | .rowgive d a => some (encSS 0xCC d a 0)
  | .rowtake d a => some (encSS 0xCD d a 0)
  | .layout a n => some (encI 0xCE 0 (64 + a.val) 0 n.toNat)
  | .phaseOpen d a b => some (encR 0xCF (64 + d.val) (64 + a.val) (64 + b.val) 0 0)
  | .phaseEnd d a => some (encSS 0xCF d a 1)
  | .phasePublication _ _ => none
  | .red d a ty op => some (encR 0xD0 d.code a.code (ty.code * 16 + op.code) 0 0)
  | .redEntryApply _ _ _ => none
  | .xcopy bar a n => some (encX 0xE0 bar a n)
  | .xstr bar a n => some (encX 0xE1 bar a n)
  | .xlay bar a n => some (encX 0xE2 bar a n)
  | .xacc bar a n => some (encX 0xE3 bar a n)
  | .transferStart _ _ => none
  | .transferEnd _ _ => none
  | .xpub d x h => some (encI 0xE4 (64 + d.val) 0 0 (x.toNat * 4 + h.val))
  | .xpubCommit _ _ => none
  | .ovld d a sl n => some (encI 0xE5 (64 + d.val) (64 + a.val) 0 (sl.val * 64 + n.toNat))
  | .ovpf a n => some (encI 0xE6 0 (64 + a.val) 0 n.toNat)
  | .overlayLoadEnd _ _ => none
  | .waitany d a => some (encSS 0xE7 d a 0)
  | .waitall a => some (encR 0xE8 0 (64 + a.val) 0 0 0)
  | .ffr d a => some (encSS 0xE9 d a 0)
  | .bgload a n => some (encI 0xEA 0 (64 + a.val) 0 n.toNat)
  | .bgvec a n => some (encI 0xEB 0 (64 + a.val) 0 n.toNat)
  | .bgrun a n => some (encI 0xEC 0 (64 + a.val) 0 n.toNat)
  | .bgwait d n => some (encI 0xED (64 + d.val) 0 0 n.toNat)
  | .bgloadExecute _ _ => none
  | .bgloadEnd _ _ => none
  | .bgvecExecute _ _ => none
  | .bgvecEnd _ _ => none
  | .bgrunStart _ _ => none
  | .bankRunEnd _ _ => none
  | .bankMovePort gn gs d sr md => some (gn.toNat * 2 ^ 31 + gs.val * 2 ^ 28 + d.toNat * 2 ^ 20 + sr.toNat * 2 ^ 13 + md.toNat)
  | .bankMoveImmediate gn gs d im md => some (gn.toNat * 2 ^ 31 + gs.val * 2 ^ 28 + 2 ^ 27 + d.toNat * 2 ^ 20 + im.toNat * 2 ^ 4 + md.toNat)
  | .bankStreamEnd _ => none
  | .bankChimeStep _ _ => none
  | .bankRefresh _ _ => none
  | .bufferTakeTimeout _ _ _ => none
  | .gred d a b f => some (encR 0xEE d.val a.code b.code 0 f.toNat)
  | .gredComplete _ _ => none
  | .mlr d a b f => some (encR 0xEF d.val a.code (64 + b.val) 0 f.toNat)
  | .mlrComplete _ _ => none
  | .trap n => some (encI 0xF1 0 0 0 n.toNat)
  | .tret => some (0xF2 * 2 ^ 24)
  | .tretFail => some (0xF2 * 2 ^ 24 + 1)
  | .rdsr d i => some (encI 0xF3 d.code 0 0 i.toNat)
  | .wrsr a i => some (encI 0xF4 0 a.code 0 i.toNat)
  | .bkpt n => some (encI 0xF5 0 0 0 n.toNat)
  | .rdtime d => some (encI 0xF6 d.code 0 0 0)
  | .perf d e => some (encI 0xF8 d.code 0 0 e.val)
  | .trapEntry _ => none
  | .leaseReservationTimeout _ _ => none
  | .sweepComplete _ _ => none
  | .leaseExpiry _ _ => none
  | .bgeLeaseExpiry _ _ => none
  | .endingTimeout _ _ => none
  | .clockReadback _ => none
  | .leaseReturn _ _ => none
  | .layoutCommandStart _ => none
  | .layoutCommandEnd _ => none
  | .xlinvWrite _ _ => none
  | .xlinvComplete _ _ => none
  | .xlstatWrite _ _ => none
  | .ptbaseWrite _ _ => none
  | .hostMemRead _ => none
  | .hostMemWrite _ _ _ _ _ => none
  | .backInvalidateResponse _ _ => none
  | .hostSnoop _ _ _ => none
  | .linkUp _ _ => none
  | .fabricRequestArrival _ _ _ _ _ => none
  | .fabricResponse _ _ _ _ => none
  | .pendingNotice _ _ _ => none
  | .rsptExpiry _ _ _ => none
  | .dlrtExpiry _ _ _ => none
  | .fholdExpiry _ => none
  | .resync _ _ _ => none
  | .calibreWrite _ _ _ _ => none
  | .fholdWrite _ _ => none
  | .timeSample _ _ => none
  | .timeSampleTimeout => none
  | .anchorWrite _ _ _ => none
  | .anchorScan _ => none
  | .instanceStart => none
  | .nodeFire _ _ => none
  | .kernelNodeRun _ _ => none
  | .transferNodeRun _ _ => none
  | .bankNodeRun _ _ => none
  | .conditionNodeRun _ _ => none
  | .whileNodeRun _ _ => none
  | .barrierNodeRun _ _ => none
  | .hostSignalNodeRun _ _ => none
  | .nodeRunEnd _ _ => none
  | .instanceEnd _ => none
  | .blockPlacement => none
  | .dispatchWaitExpiry => none
  | .blockEnd _ => none
  | .preqClose _ _ => none
  | .preqOpen _ _ => none
  | .blockPreemptSave _ => none
  | .registerWrite _ _ _ => none
  | .verselWrite _ _ => none
  | .mbVersion _ => none
  | .mbAttest _ => none
  | .mbIdcert _ => none
  | .mbPowercap _ => none
  | .mbPrepare _ => none
  | .prepareQuiet => none
  | .prepareTimeout => none
  | .mbCommit _ => none
  | .mbAbort _ => none
  | .mbWake _ => none
  | .mbRelease _ => none
  | .mbBadcmd _ => none
  | .dvreq _ _ => none
  | .dvfloorWrite _ _ => none
  | .dvfsClockSwitch _ => none
  | .dvfsRailSettled _ => none
  | .dvsampWindow => none
  | .thermalTrip => none
  | .thermalRecovery => none
  | .thermalShutdown => none
  | .currentSample _ => none
  | .idleEntry => none
  | .powerOnBoot _ _ => none
  | .bgeClockStop _ => none
  | .commitRetained => none
  | .wakeWoken => none
  | .fabricTimeReached => none

/-- The word of an instruction. -/
def encode (i : Instr) : Option W32 := (encodeNat i).map (BitVec.ofNat 32)

/-- Whether a constructor is an instruction word of a clause body. -/
def Instr.isWord : Instr → Bool
  | .clauseHeader _ _ _ _ _ _ _ _ _ _ => false
  | .bankMovePort _ _ _ _ _ => false
  | .bankMoveImmediate _ _ _ _ _ => false
  | i => (encodeNat i).isSome

/-- Whether a constructor is an event: a row without an encoding. -/
def Instr.isEvent (i : Instr) : Bool := (encodeNat i).isNone

end Sys2Proof
end

