-- ==== Sys2Proof/Config.lean ====
section
/-! DEFINITION. What one Ngagor fixes and the spec does not: the free values of the model. Each is an opaque constant, so
that no proof can see its value and a claim holds whatever it is (assumption log 2). -/

namespace Sys2Proof

/-- Free 64-bit values, by a counter that the step reads and advances (State.free). -/
opaque Config.freeWord : Nat → W64
/-- Free 128-byte values, by the same counter. -/
opaque Config.freeLine : Nat → Line
/-- Which of the results that R253 allows a special function gives: by function code and operand bits, so that the same
input gives the same bits on every call (R253). -/
opaque Config.specialPick : Nat → Nat → Nat
/-- Byte k of the device certificate (R402). -/
opaque Config.certByte : Nat → Byte
/-- Length of the device certificate in bytes (R402: DER). -/
opaque Config.certLen : Nat
/-- Fused and measured words of an attestation report: FWMEAS is words 0 to 7, ROMMEAS 8 to 15, SVN 16, SERIAL 17 (R403). -/
opaque Config.measured : Nat → W64
/-- Signature over bits [2047:0] of a report, with the salt that a counter names (R403). -/
opaque Config.sign : Nat → Nat → Nat
/-- Fastest operating point fused for a die (BINOP, R406). -/
opaque Config.binOp : Nat → Nat
/-- Fused slowest-voltage floor of a die (FFLOOR, R406). -/
opaque Config.fFloor : Nat → Nat

end Sys2Proof
end

