-- ==== Sys2Proof/Machine/Table.lean ====
section
/-! DEFINITION. Finite tables and byte memory as plain data: a table is a list of (key, value) pairs, rising by key; memory is
a list of (address, byte) cells, rising strictly, with no cell equal to what an unlisted address reads as (0, log 4). -/

namespace Sys2Proof.Machine

/-- A finite table. -/
abbrev Tbl (α : Type) := List (Nat × α)

/-- The entry at a key. -/
def tget {α : Type} : Tbl α → Nat → Option α
  | [], _ => none
  | (k, v) :: t, x => if k = x then some v else tget t x

/-- The entry at a key, or a default. -/
def tgetD {α : Type} (t : Tbl α) (x : Nat) (d : α) : α := (tget t x).getD d

/-- The table with an entry written. -/
def tset {α : Type} : Tbl α → Nat → α → Tbl α
  | [], x, a => [(x, a)]
  | (k, v) :: t, x, a => if x < k then (x, a) :: (k, v) :: t else if x = k then (x, a) :: t else (k, v) :: tset t x a

/-- The table without a key. -/
def tdel {α : Type} : Tbl α → Nat → Tbl α
  | [], _ => []
  | (k, v) :: t, x => if k = x then tdel t x else (k, v) :: tdel t x

/-- The keys of a table. -/
def tkeys {α : Type} (t : Tbl α) : List Nat := t.map Prod.fst

/-- The table with one entry changed by a function, from a default when absent. -/
def tmod {α : Type} (t : Tbl α) (x : Nat) (d : α) (f : α → α) : Tbl α := tset t x (f (tgetD t x d))

/-- The byte at an address of a cell list; an unlisted address reads 0 (log 4). -/
def cellsGet : List Host.Cell → Nat → Byte
  | [], _ => 0
  | (k, b) :: t, x => if k = x then b else if x < k then 0 else cellsGet t x

/-- The cell list with one byte written, in canonical form: writing 0 removes the cell. -/
def cellsSet : List Host.Cell → Nat → Byte → List Host.Cell
  | [], x, b => if b = 0 then [] else [(x, b)]
  | (k, c) :: t, x, b =>
    if x < k then (if b = 0 then (k, c) :: t else (x, b) :: (k, c) :: t)
    else if x = k then (if b = 0 then t else (x, b) :: t)
    else (k, c) :: cellsSet t x b

/-- The canonical form above a bound: strictly rising, no zero byte. -/
def cellsWfFrom : Nat → List Host.Cell → Bool
  | _, [] => true
  | lo, (k, b) :: t => decide (lo ≤ k) && b != 0 && cellsWfFrom (k + 1) t

/-- The canonical form of a cell list. -/
def cellsWf (l : List Host.Cell) : Bool := cellsWfFrom 0 l

/-- `n` bytes from an address as a little-endian number (R3). -/
def cellsRead (l : List Host.Cell) (a : Nat) : Nat → Nat
  | 0 => 0
  | n + 1 => (cellsGet l a).toNat + 256 * cellsRead l (a + 1) n

/-- `n` bytes of a little-endian number written from an address. -/
def cellsWrite (l : List Host.Cell) (a : Nat) : Nat → Nat → List Host.Cell
  | 0, _ => l
  | n + 1, v => cellsWrite (cellsSet l a (BitVec.ofNat 8 v)) (a + 1) n (v / 256)

/-- The bytes of a number under a byte mask, written from an address: `n` bytes still to do, byte i when bit i of `m` is 1. -/
def cellsMerge (l : List Host.Cell) (a : Nat) : Nat → Nat → Nat → List Host.Cell
  | 0, _, _ => l
  | n + 1, m, v =>
    cellsMerge (if m % 2 = 1 then cellsSet l a (BitVec.ofNat 8 v) else l) (a + 1) n (m / 2) (v / 256)

/-- A rising list of numbers with one more. -/
def natInsert : List Nat → Nat → List Nat
  | [], x => [x]
  | k :: t, x => if x < k then x :: k :: t else if x = k then k :: t else k :: natInsert t x

/-- The numbers a, a+1, … of a range. -/
def rangeFrom (a : Nat) : Nat → List Nat
  | 0 => []
  | n + 1 => a :: rangeFrom (a + 1) n

/-- The lanes of a mask, rising. -/
def lanesOf (m : LaneMask) : List Nat := (List.range 64).filter (fun l => m.getLsbD l)
/-- The mask of a list of lanes. -/
def maskOf (ls : List Nat) : LaneMask := ls.foldl (fun a l => a ||| (1 <<< l)) 0
/-- The mask of lane l alone. -/
def laneBit (l : Nat) : LaneMask := 1 <<< l
/-- The lowest lane of a mask; 64 when it is empty. -/
def lowLane (m : LaneMask) : Nat := ((List.range 64).find? (fun l => m.getLsbD l)).getD 64

end Sys2Proof.Machine
end

