-- ==== Sys2Proof/Machine/State.lean ====
section
/-! DEFINITION. The state of one Ngagor device as plain data, the reasons a step can stop, and the state after reset. Each
field names the rule of spec/ that gives it; what is the model's own is said so. -/

namespace Sys2Proof.Machine

/-! ## Actions: the model's own schedule and inputs -/

/-- One thing that happens next (log 1): an event row with its inputs, a path of a group issuing its next word, a bank-group
engine running its next move, a tick of global time, an arithmetic-clock cycle of a core, a core taking the paths that issue in a
cycle (R331); and inputs that have no row of their
own: an error that HBM cannot correct in a sector (R123) or that a scratchpad's ECC cannot (R163), a host read of BAR 0 (R125),
the answer of a fabric home slice to a back-invalidation (R136), the code, other than OK or 0 for OK, with which the host answers
accesses to a line of its window (Table 8.5), the host masking an MSI-X vector in BAR 0 or not (R396), the firmware beginning or ending
work of its own (R400) and raising the fused minimum SVN (R401); and a request that has waited at a line served again (R58, R128), the
host's held requests, or a mailbox report. -/
inductive Action where
  | event (i : Instr)
  | path (g p : Nat)
  | bge (k : Nat)
  | tick
  | cycle (core : Nat)
  | issue (core : Nat)
  | sectorError (sector : Nat)
  | spadError (core block sector : Nat)
  | hostRegRead (off : Nat)
  | fabSnoop (line : Nat)
  | hostCode (line code : Nat)
  | vectorMask (v : Nat) (masked : Bool)
  | fwWork (busy : Bool)
  | raiseSvn (n : Nat)
  | retry (i : Instr)
  | heldRetry
  | mbRetry
  /-- What the escapement has to do for a node, an instance or an anchor, the remontoire for a block, and the regulator cores for a die. -/
  | node (inst node : Nat)
  | inst (inst : Nat)
  | scan (k : Fin 16)
  | block (b : Nat)
  | power
  deriving DecidableEq, Repr

/-! ## Fibres, paths and groups -/

/-- One lane of a placed group: its fibre, if it holds one, and its register stack (R200, R202, R210, R216, R355, R368). -/
structure Fibre where
  /-- The lane holds a live fibre (R359, R361). -/
  live : Bool
  /-- Register slots (R200); an absent slot holds 0 (R206). -/
  slots : Tbl W64
  /-- WB of WINBASE (Table 9.7). -/
  wb : BitVec 16
  /-- LOW of WINBASE (Table 9.7). -/
  low : BitVec 16
  /-- SPILLA (Table 9.7). -/
  spilla : W64
  /-- The predicate word (R210). -/
  pred : W64
  /-- LSTAT (Table 9.5). -/
  lstat : W64
  /-- Rejoin stack, top first, at most 16 (R355). -/
  rejoin : List W32
  /-- Barrier slots in whose current phase the fibre has arrived (R368). -/
  arrived : BitVec 16
  deriving DecidableEq, Repr

/-- A bypass latch that is full: a value for each lane, absent lanes 0, and the uniform mark (R212). -/
structure Latch where
  vals : Tbl W64
  uni : Bool
  deriving DecidableEq, Repr

/-- A running loop (R363 to R366). -/
structure LoopSt where
  ncl : Nat
  pass : Nat
  count : Nat
  inc : W64
  body : W32
  /-- The words of the body, held in one of the core's 8 loop buffers; none when it has not been captured (R367). -/
  captured : List W32
  deriving DecidableEq, Repr

/-- What a trapping path carries until its group's frame is written (R379, Tables 15.3 to 15.5). -/
structure TrapInfo where
  cause : Nat
  sub : Nat
  info : W64
  /-- TRAPPED: the lanes that need the cause. -/
  lanes : LaneMask
  /-- Per-lane INDIRECT codes (Table 15.5). -/
  lcause : Tbl Nat
  word : Nat
  pfxw : Nat
  deriving DecidableEq, Repr

/-- Whether a path can issue, and if not, why (R330, R331). -/
inductive Wait where
  /-- Nothing but the next clause's conditions holds it. -/
  | ready
  /-- Stopped by a precise cause, waiting for TRAP_ENTRY (R379). -/
  | trap (t : TrapInfo)
  /-- Waiting after MWAIT, with the result register and the end of its timeout (R373). -/
  | mwait (d : Nat) (until_ : Option Nat)
  /-- Non-candidate cycles left after YIELD (R374). -/
  | yield (n : Nat)
  /-- Frozen on a loading overlay (R39). -/
  | frozen
  /-- Parked at its rejoin point (R356). -/
  | parked
  deriving DecidableEq, Repr

/-- A path of a group: active lanes and one program counter (R330). The paths of a group have disjoint lanes, so any lane of
a path names it. -/
structure Path where
  /-- Code address of the clause (R37). -/
  pc : W32
  /-- Next word of the clause to execute; 0 is the header, at a clause boundary (R36). -/
  widx : Nat
  /-- Header word of the clause the path is in (R19). -/
  hdr : Nat
  /-- The word being executed, as it stands in the code (Table 15.4, WORD). -/
  cur : Nat
  mask : LaneMask
  /-- The prefix word executed just before (R31), pending for the next word. -/
  pfx : Option W32
  y0 : Option Latch
  y1 : Option Latch
  y2 : Option Latch
  loop : Option LoopSt
  wait : Wait
  /-- The lanes whose LND check is still to be made at the first fetch (R351). -/
  lndCheck : LaneMask
  /-- The clause is stalled at its word and the stall has been counted (R21). -/
  stalled : Bool
  /-- The last clause had YLD (R23): set until the cycle after that clause is over. -/
  yielded : Bool
  /-- The cycle in which the last clause ended is not over (R23, R374). -/
  fresh : Bool
  /-- Cycles as a candidate without issuing (R332). -/
  age : Nat
  /-- The path is aged (R332). -/
  aged : Bool
  deriving DecidableEq, Repr

/-- A pending imprecise cause (R381). -/
structure ImpInfo where
  cause : Nat
  src : Nat
  info : W64
  count : Nat
  deriving DecidableEq, Repr

/-- What one lane of a memory word still needs (R117, R169). -/
inductive LaneSt where
  /-- Waiting for a page walk (R115); a lane of a word that does not translate waits so for its turn (R307, R309). -/
  | walk
  /-- Translated to a device address and waiting for its home; `nc` from the leaf (R162). `da2` is the second page of LDU. -/
  | req (da da2 : Nat) (nc : Bool)
  /-- On its way over the fabric: plane and sequence number of its transaction (R138). -/
  | remote (chip plane sn : Nat)
  /-- Data has come and waits to be written (MEMORY_RESPONSE). -/
  | data (v v2 : W64)
  /-- Completed. -/
  | done
  /-- Listed with a memory sub-cause and, for REMOTE, a fabric code (Table 15.6). -/
  | listed (sub fab : Nat)
  deriving DecidableEq, Repr

/-- One lane of a memory word. -/
structure LaneAcc where
  st : LaneSt
  /-- Effective virtual address or scratchpad offset. -/
  va : W64
  d0 : W64
  d1 : W64
  /-- Logical index of the lane's destination register, taken at issue; the uniform register of a uniform destination. -/
  dlog : Nat
  deriving DecidableEq, Repr

/-- What a memory word does. -/
inductive MemOp where
  | load (t : MType) (z : MSize)
  | loadu (t : MType) (z : MSize)
  | store (t : MType) (z : MSize)
  | lds (z : MSize)
  | sts (z : MSize)
  | rscl
  | atom (op : AOp) (sc : AScope) (ord : AOrd)
  | cas (is64 facq : Bool) (sc : AScope) (ord : AOrd)
  | red (ty : RedTy) (op : RedOp)
  | pref (k : Bool) (t : MType)
  | cflush (k : Bool)
  | cinv
  | gred (fp32 : Bool)
  | mlr (fp32 : Bool)
  | fence (sc : Scope) (k : FKind)
  | fmode (give : Bool)
  | phend
  /-- A matrix word whose tile could not be read, listed and performed by TRET (R281). -/
  | tile
  deriving DecidableEq, Repr

/-- A memory word of a group between issue and completion (R117, R331, Table 15.6). -/
structure MemWord where
  id : Nat
  op : MemOp
  /-- Path lanes at issue. -/
  mask : LaneMask
  /-- The destination is a uniform register (Table 15.6). -/
  uni : Bool
  caddr : W32
  widx : Nat
  word : Nat
  pfxw : Nat
  lanes : Tbl LaneAcc
  /-- MLR: the block as it stood at issue (R151). -/
  blk : Nat
  /-- MLR: answers of members, by lane × 32 + member: code and value (R152). GRED: lanes that MZ clears, with the logical register (R31,
  R106). Other words: what the device keeps for a lane at lane × 32 + a place of its own (R160, R310, R314). -/
  ans : Tbl (Nat × Nat)
  /-- TRET performs it (R384). -/
  replay : Bool
  deriving DecidableEq, Repr

/-- An outstanding register: a window register of the lanes of a mask, by logical index, or a uniform register. -/
structure PendReg where
  uni : Bool
  idx : Nat
  mask : LaneMask
  /-- The record in flight that will free it. -/
  id : Nat
  deriving DecidableEq, Repr

/-- The monitor of a group (R371, R372). -/
inductive Monitor where
  | none
  | armed (line : Nat)
  | triggered
  | lost
  deriving DecidableEq, Repr

/-- A group of fibres on a core (R9, R326, R327). The key of a group is GN of R383. -/
structure Group where
  block : Nat
  /-- Index of the group within its block (R322). -/
  index : Nat
  /-- WIDTH code 0..3 (Table 9.6). -/
  wcode : Nat
  /-- Register-stack depth n (R200). -/
  depth : Nat
  /-- Core of the device, (die × 64 + cluster) × 4 + core. -/
  core : Nat
  gid : Nat
  lane0 : Nat
  fused : Bool
  producer : Bool
  lanes : Tbl Fibre
  /-- s0 to s31 (R208); an absent one holds 0 (R327). -/
  sregs : Tbl W64
  paths : List Path
  /-- Trap depth 0 to 2 (R380). -/
  tdepth : Nat
  /-- TVEC (Table 15.11). -/
  tvec : W32
  /-- LCAUSE of TSTAT (Table 15.11). -/
  lcause : Nat
  imp : Option ImpInfo
  monitor : Monitor
  words : List MemWord
  /-- Latest phase of each barrier slot in which the group has arrived (R368). -/
  barPhase : Tbl Nat
  /-- Registers pending from matrix requests, GRED, MLR, MTF and leases (R21, R271). -/
  pend : List PendReg
  /-- CYCLES of the core at the group's most recent issue (R331). -/
  lastIssue : Nat
  /-- PREQ or suspend asks the group to stop at its next clause boundary (R387). -/
  stopReq : Bool
  /-- Records that TRET has still to perform, in order (R384). -/
  replays : List MemWord
  /-- BGWAIT words that wait: tag and uniform register (R103). -/
  bgwaits : List (Nat × Nat)
  /-- Addresses of the frames of levels 0 and 1, as they were taken (R383, R390). -/
  frame0 : W64
  frame1 : W64
  /-- The frame is written and waits for responses of another device (R383). -/
  frameOut : Bool
  /-- The handler has not fetched its first clause (R382). -/
  atEntry : Bool
  /-- Waits after MWAIT and LND checks of paths that a trap has set aside: lanes, address, wait, check (log 21). -/
  held : List (LaneMask × W32 × Wait × LaneMask)
  deriving DecidableEq, Repr

/-! ## Blocks and launches -/

/-- A launch header, decoded (Table 13.1). -/
structure LaunchHdr where
  width : Nat
  nl : Nat
  blk : Nat
  fuse : Bool
  prio : Nat
  spad : Nat
  entry : W32
  depth : Nat
  prod : Nat
  ws : List Nat
  exts : List Nat
  bufs : List Nat
  spillBase : W64
  spillStride : W64
  args : List W64
  deriving DecidableEq, Repr

/-- Scratchpad buffer states (Table 7.3). -/
inductive BufSt where
  | empty | filling | full | draining
  deriving DecidableEq, Repr

/-- A barrier slot of a block: its phase and the commands that joined the phase and have not arrived (R193, R368). -/
structure BarSlot where
  phase : Nat
  /-- Commands that joined the phase and have not arrived (R193). -/
  joined : List Nat
  /-- Commands that joined the phase at all; at most 64 (R193). -/
  joins : Nat
  deriving DecidableEq, Repr

/-- A resident block (R322, R326 to R328). -/
structure Block where
  hdr : LaunchHdr
  bn : Nat
  cores : List Nat
  /-- Keys of its groups that have not ended: their register slots and group indices are taken (R326, R361). -/
  groups : List Nat
  bars : Tbl BarSlot
  /-- Buffer states, by core × 16 + buffer; an absent one is EMPTY (R164). -/
  bufs : Tbl BufSt
  /-- Shadow sets lost to a pre-emption (R197). -/
  lostSets : List Nat
  /-- Regions lost to a pre-emption: index of the core within the block × 4 + handle (R319). -/
  lostRegions : List Nat
  /-- The graph instance and node whose run placed the block. -/
  inst : Nat
  node : Nat
  /-- FATAL ended it (R382). -/
  fatal : Bool
  /-- Being pre-empted (R387). -/
  preempt : Bool
  /-- Left running because no slot was free (R387). -/
  noSlot : Bool
  deriving DecidableEq, Repr

/-! ## Memory, caches and coherence -/

/-- The bytes by local address (HBM and host window) at device scope, and the poisoned 32-byte sectors, rising (R47, R109, R123). -/
structure Mem where
  cells : List Host.Cell
  poison : List Nat
  deriving DecidableEq, Repr

/-- The form of an L1 copy (R158). -/
inductive L1Form where | sh | ow | ut
  deriving DecidableEq, Repr

/-- A line of an L1: its number (local address / 128), form, valid, dirty and poison bits per sector, and its bytes (R121, R155). -/
structure L1Line where
  line : Nat
  form : L1Form
  valid : BitVec 4
  dirty : BitVec 4
  poison : BitVec 4
  data : Line
  deriving DecidableEq, Repr

/-- An entry of a store buffer (R160). `line` is the device address divided by 128. -/
structure SbEntry where
  line : Nat
  mask : LineMask
  data : Line
  /-- Groups whose bytes it holds, and their blocks (R143, R160). -/
  groups : List Nat
  blocks : List Nat
  /-- An event of R160 has asked the entry to drain. -/
  draining : Bool
  deriving DecidableEq, Repr

/-- An entry of a merge buffer (R147): contributions to the elements of one line. -/
structure MbEntry where
  line : Nat
  ty : RedTy
  op : RedOp
  vals : Tbl W64
  /-- Groups that contributed, and their blocks (R148, R149). -/
  groups : List Nat
  blocks : List Nat
  /-- The entry has been flushed and its elements wait for the home (R148, R149). -/
  flushed : Bool
  deriving DecidableEq, Repr

/-- An open publication region (R316, R317): private bytes by line. -/
structure Region where
  block : Nat
  base : Nat
  size : Nat
  early : Bool
  /-- Private bytes: local line, byte mask and bytes. -/
  lines : Tbl (LineMask × Line)
  /-- Lines whose private bytes are held at the home slice (R317). -/
  atHome : List Nat
  /-- PHASE.end waits to publish: the group and its memory word (R318). -/
  ending : Option (Nat × Nat)
  deriving DecidableEq, Repr

/-- A translation (Table 5.5): virtual page start, page size as a power of two, device address, W and NC. -/
structure TlbEntry where
  va : Nat
  bits : Nat
  da : Nat
  w : Bool
  nc : Bool
  deriving DecidableEq, Repr

/-- A walk-cache entry: table entry of a level for a virtual prefix (Table 5.5). -/
structure WalkEntry where
  level : Nat
  prefix_ : Nat
  next : Nat
  deriving DecidableEq, Repr

/-- The kind of a tag's last command (R190, R103). -/
inductive TagKind where | none | transfer | bank | layout | overlay
  deriving DecidableEq, Repr

/-- What a tag remembers of its last command (R190, R103). -/
structure TagInfo where
  kind : TagKind
  /-- STATUS, FIRST and NBAD as BGWAIT reads them. -/
  status : W64
  /-- Block whose group issued it. -/
  block : Nat
  deriving DecidableEq, Repr

/-- A scratchpad of a block on a core: bytes by offset and poisoned sectors (R154, R163). -/
structure Spad where
  first : Nat
  parts : Nat
  bytes : List Host.Cell
  poison : List Nat
  deriving DecidableEq, Repr

/-- A tile fetch of MTF or MTFR (R285 to R288). -/
structure Fetch where
  id : Nat
  group : Nat
  block : Nat
  /-- Uniform register of the result. -/
  d : Nat
  /-- Address of the parameter block. -/
  baddr : W64
  /-- The parameter block as it stood at issue. -/
  blk : Nat
  start : Nat
  /-- Lines that have landed. -/
  landed : List Nat
  /-- STATUS, FCODE and FADDR of a fetch that has ended and has still to write its block (R288). -/
  stop : Option (Nat × Nat × Nat)
  deriving DecidableEq, Repr

/-- A core (R154, R155, R160, R345). -/
structure Core where
  /-- L1 lines, most recently used first (R155). -/
  l1 : List L1Line
  /-- Store buffer, most recently used first (R160). -/
  sb : List SbEntry
  /-- Merge buffer, most recently used first (R147). -/
  mb : List MbEntry
  tlb : List TlbEntry
  /-- TAGS (R219). -/
  tags : W64
  tagInfo : Tbl TagInfo
  /-- Event counters (Table 13.9). -/
  perf : Tbl W64
  /-- Open publication regions by handle (R316). -/
  regions : Tbl Region
  /-- Scratchpads by block (R154). -/
  spads : Tbl Spad
  /-- This core's copy of global time (R394, R404). -/
  timeCopy : Nat
  /-- Tile fetches that have not ended, oldest first (R287). -/
  fetches : List Fetch
  deriving DecidableEq, Repr

/-- An overlay slot of a cluster (R38, R39). -/
inductive OvSlot where
  | empty
  | loading (number : Nat)
  /-- Overlay number, code words, link entries 1 to 63, age of the last fetch. -/
  | resident (number : Nat) (code : List W32) (links : List Nat) (used : Nat)
  /-- Overlay 0xFFFF with its default code (R37, R205, R380), and the age of the last fetch. -/
  | system (used : Nat)
  deriving DecidableEq, Repr

/-- A command of a transfer engine (R178, R198, R199). -/
inductive XKind where | xcopy | xstr | xlay | xacc | ovld | ovpf
  deriving DecidableEq, Repr

/-- An accepted command: what it was given at issue and how far it is. -/
structure XCmd where
  id : Nat
  kind : XKind
  core : Nat
  block : Nat
  group : Nat
  /-- Completion tag; none for a node's command (R341). -/
  tag : Option Nat
  /-- Barrier slot it joined (R193). -/
  bar : Option Nat
  /-- Address of the parameter block, or of the overlay descriptor. -/
  baddr : W64
  /-- The parameter block as it stood at issue. -/
  blk : Nat
  /-- Uniform register and slot of OVLD. -/
  d : Nat
  slot : Nat
  /-- Graph instance and node that issued it. -/
  node : Option (Nat × Nat)
  started : Bool
  /-- Buffer instances that it fills and drains: core × 16 + buffer (R187). -/
  fills : Option Nat
  drains : Option Nat
  /-- Units done (bytes for XCOPY) since PROGRESS of the block was read (R188). -/
  prog : Nat
  /-- A write to another device that came back with a code: its unit and the code (R188). -/
  rerr : Option (Nat × Nat)
  /-- A unit of which pieces have been sent to other devices and that is not complete: its index, its bytes, the poisoned sector that
  ends them, and how many pieces have been sent (R188). -/
  sent : Option (Nat × Nat × Option (Nat × Nat) × Nat) := none
  /-- The fields of the parameter block have been written or sent (R191). -/
  reported : Bool := false
  /-- STATUS, FCODE and FADDR once they are known (R182, R188). -/
  fin : Option (Nat × Nat × Nat)
  deriving DecidableEq, Repr

/-- An XPUB that waits for the set's earlier commands (R196). -/
structure XPub where
  id : Nat
  set : Nat
  discard : Bool
  group : Nat
  block : Nat
  d : Nat
  /-- Commands of the set accepted before it. -/
  waits : List Nat
  deriving DecidableEq, Repr

/-- A request of the matrix reservation table (R268 to R272). -/
structure MatReq where
  id : Nat
  core : Nat
  group : Nat
  prio : Nat
  /-- CYCLES of the core when it was posted. -/
  posted : Nat
  aged : Bool
  granted : Bool
  int : Bool
  /-- Lane, logical register and value of each result (R277). -/
  outs : List (Nat × Nat × W64)
  /-- Lane and logical register of each register that MZ clears (R277). -/
  zeros : List (Nat × Nat)
  /-- The tile copy carries a poisoned sector (R282). -/
  poison : Bool
  deriving DecidableEq, Repr

/-- A cluster (R39, R178, R194, R267). -/
structure Cluster where
  slots : List OvSlot
  /-- Closed by PREQ or a suspend (R386). -/
  closed : Bool
  /-- Commands that have not completed, in order of acceptance (R178). -/
  cmds : List XCmd
  /-- Owner of each shadow set that is not free (R197). -/
  shOwner : Tbl Nat
  /-- Shadow bytes by set and local line, with their poisoned sectors (R188, R194). -/
  shadow : Tbl (Tbl (LineMask × Line × BitVec 4))
  pubs : List XPub
  /-- Requests, in order of posting (R268). -/
  mat : List MatReq
  /-- Overlay fetches and loads so far: the order that R199 asks for. -/
  fetchSeq : Nat
  deriving DecidableEq, Repr

/-- Coherence state kept at the home slices (R126, R136, R157, R158, R195, R310, R372). -/
structure Coh where
  /-- Resident lines of a slice's set (slice × 512 + set), most recently used first, with dirty sectors (R157). -/
  sets : Tbl (List (Nat × BitVec 4))
  /-- Valid sectors of resident lines (R121). -/
  valid : Tbl (BitVec 4)
  /-- Host state of halves of HBM by half number; absent NONE, false SHARED, true OWNED (R126). -/
  host : Tbl Bool
  /-- Lines with a host half in a state other than NONE, most recently used first (R126). -/
  tracked : List Nat
  /-- CXL.cache state of host-window halves; absent invalid, false SHARED, true OWNED (R127). -/
  window : Tbl Bool
  /-- Fabric state of lines; absent NONE, false SHARED, true OWNED (R136). -/
  fabric : Tbl Bool
  /-- Back-invalidations of the fabric home slice in flight by line (R136), as `snoops`. -/
  fsnoops : Tbl (Nat × Bool)
  /-- Requests that wait at a line of memory, by the action that makes them, in order of arrival: held by a lease (R58, R60) or
  behind a back-invalidation (R128). -/
  holds : List (Nat × Action)
  /-- The line at which the request being made has to wait (the model's own, log 1). -/
  waits : Option Nat := none
  /-- Promotion records by device line: chip, core and scope of the last narrow atomic release (R310). -/
  records : Tbl (Nat × Nat × AScope)
  /-- Back-invalidations in flight by half (R126, R128): 0 sent, 1 yielded and its response still to be discarded, 2 sent again;
  and whether the host keeps SHARED. -/
  snoops : Tbl (Nat × Bool)
  /-- Host requests held for a half after a yield (R128): true for a write or ownership request. -/
  heldHost : List Instr
  /-- Monitored lines per slice, armed last first (R372). -/
  monitored : Tbl (List Nat)
  deriving DecidableEq, Repr

/-- Translation (R111, R114, R116, R120). -/
structure Xl where
  ptbase : W64
  perr : Bool
  /-- Queued invalidations per die: (base, size code), oldest first. -/
  invq0 : List (Nat × Nat)
  invq1 : List (Nat × Nat)
  /-- Host requests waiting at the register block behind an XLINV write, oldest first: offset and value of a write, 2^32 + offset of a read
  (R120, R125). -/
  waiting : List (Nat × Nat)
  dieTlb0 : List TlbEntry
  dieTlb1 : List TlbEntry
  walk0 : List WalkEntry
  walk1 : List WalkEntry
  /-- Pending pages of 64 KiB per die, oldest first (R115, R116). -/
  pend0 : List Nat
  pend1 : List Nat
  deriving DecidableEq, Repr

/-- Global time (R404, R405). -/
inductive TimeMode where
  /-- No sample has come since off was left. -/
  | waiting
  | selfTimed
  /-- Self-timed count held until fabric time reaches it: the fabric's time now (R405). -/
  | joining (fabric : Nat)
  | fabric
  deriving DecidableEq, Repr

structure TimeSt where
  now : Nat
  mode : TimeMode
  sinceOff : Nat
  /-- A link has come up while the device kept a time of its own (R405). -/
  linked : Bool := false
  /-- Ticks still to gain or lose by slewing, and ticks since the last such step (R404). -/
  adj : Int
  sinceAdj : Nat
  deriving DecidableEq, Repr

/-! ## Stacks and leases -/

/-- Lease states (Table 3.3); `giving true` after a ROWTAKE in GIVING. -/
inductive LeaseSt where
  | free | reserved | giving (taken : Bool) | held | ending
  /-- On its way to FREE by return: its programs have stopped, its record is still to be written (R55, R58). -/
  | returning
  deriving DecidableEq, Repr

/-- An entry of a lease table (R53 to R55). -/
structure Lease where
  gen : Nat
  st : LeaseSt
  /-- Row sets by number (local address / 65,536), in virtual order. -/
  rowSets : List Nat
  /-- Address bits of the page that each row set lay in at the ROWGIVE (R102, log 99). -/
  pages : List Nat := []
  /-- Virtual address of the first page. -/
  vbase : Nat
  dur : Nat
  /-- Local address of the lease record. -/
  lrec : Nat
  /-- Global time of the ROWGIVE. -/
  tres : Nat
  /-- E: the end of HELD. -/
  e : Nat
  tstart : Nat
  tend : Nat
  /-- CAUSE of the record. -/
  cause : Nat
  /-- WMASK by row set index. -/
  wmask : Tbl Nat
  deriving DecidableEq, Repr

/-- A group waiting in FENCE.MODE for a lease (R68). -/
structure ModeWait where
  give : Bool
  /-- Handle of the lease. -/
  handle : Nat
  group : Nat
  /-- The memory word that waits. -/
  id : Nat
  deriving DecidableEq, Repr

/-- A running stream of a BGE (R78, R80). -/
inductive StreamKind where
  | dot (mx4 init strm : Bool) (len : Nat)
  | bsld (n f : Nat)
  | accst (q k : Nat)
  | accld (q k : Nat)
  deriving DecidableEq, Repr

/-- How far a stream is: slices read or written, and elements of a DOT done (R92). -/
structure Stream where
  kind : StreamKind
  slices : Nat
  elems : Nat
  deriving DecidableEq, Repr

/-- A bank-group engine (Table 4.1, R61). -/
structure Bge where
  valid : Bool
  /-- The loaded moves (R72). -/
  moves : List W32
  /-- The first 32 bytes of the store (R72). -/
  header : Nat
  /-- Vector store, 64 bytes by entry; an absent one is 0. -/
  vs : Tbl Nat
  full0 : Bool
  full1 : Bool
  /-- Block scales by bank × 2,048 + index; an absent one is 0x7F. -/
  bs : Tbl Nat
  /-- Channel scales; an absent one is 0x3F8038. -/
  chs : Tbl Nat
  /-- Accumulators; an absent one is +0.0. -/
  acc : Tbl Nat
  g : Tbl Nat
  l : Tbl Nat
  c : BitVec 4
  rowptr : Nat
  colptr : Nat
  dcfg : Nat
  addo : Nat
  addq : Nat
  cmpo : Nat
  shfo : Nat
  shfq : Nat
  pc : Nat
  stream : Option Stream
  /-- The run that it executes (R77). -/
  run : Option Nat
  /-- Its copy of global time (R61), and whether its clock has stopped. -/
  clock : Nat
  stopped : Bool
  deriving DecidableEq, Repr

/-- How a BGE of a run stopped (Table 4.8). -/
structure BgStop where
  stat : Nat
  midx : Nat
  hcode : Nat
  row : Nat
  col : Nat
  ddone : Nat
  tstop : Nat
  deriving DecidableEq, Repr

/-- A command of a stack's queues (R98 to R102). -/
inductive BgKind where | load | vec | run
  deriving DecidableEq, Repr

/-- A queued or running bank command. A run's fields follow Tables 4.7 and 4.8. -/
structure BgCmd where
  id : Nat
  kind : BgKind
  core : Nat
  block : Nat
  tag : Option Nat
  node : Option (Nat × Nat)
  baddr : W64
  blk : Nat
  /-- Keys of the BGEs of the set, in ordinal order (R98). -/
  set : List Nat
  started : Bool
  /-- Status once known (R99, R100, R102). -/
  stat : Nat
  /-- BGVEC: entries written. -/
  done : Nat
  tstart : Nat
  /-- The run's E (R93). -/
  e : Nat
  /-- Stops by ordinal. -/
  stops : Tbl BgStop
  /-- Rows written: ordinal, bank and lease index × 2 + h (R95). -/
  wrow : List (Nat × Nat × Nat)
  wovf : List Nat
  /-- Chime program counter (R90). -/
  pc : Nat
  /-- Bytes of the scratchpad that the issuing launch configures (R102). -/
  spad : Nat
  /-- TEND of a refused command, which no rule states (log 8). -/
  tend : Nat := 0
  /-- Its fields or record have been written or sent (R94, R104). -/
  reported : Bool := false
  deriving DecidableEq, Repr

/-- An entry of the row-translation cache, for the part of a page that a lease covers (R63, R102): its first virtual page of 64 KiB
and row set, how many row sets it holds, and the entry of the lease. -/
structure RowEntry where
  vpage : Nat
  rowSet : Nat
  count : Nat := 1
  lease : Nat
  deriving DecidableEq, Repr

/-- A LAYOUT command (R70). -/
structure LayCmd where
  id : Nat
  core : Nat
  block : Nat
  tag : Nat
  baddr : W64
  blk : Nat
  /-- DST faulted at issue. -/
  badDst : Bool
  started : Bool
  done : Nat
  stat : Nat
  /-- STATUS is final. -/
  ended : Bool
  /-- DONE and STATUS have been written or sent. -/
  reported : Bool := false
  deriving DecidableEq, Repr

/-- A stack's base die (R53, R63, R70, R98). -/
structure Stack where
  leases : Tbl Lease
  modeWaits : List ModeWait
  cmdq : List BgCmd
  vecq : List BgCmd
  /-- Row-translation cache, most recently used first. -/
  rowCache : List RowEntry
  layq : List LayCmd
  /-- Row buffers of BGEs taken for ordinary requests: BGE, bank and row (R49). -/
  taken : List (Nat × Nat × Nat)
  /-- Global time of the last read-back of the BGEs' clock copies (R61). -/
  readback : Nat
  deriving DecidableEq, Repr

/-! ## The fabric -/

/-- Who waits for a fabric transaction. -/
inductive FabOrigin where
  /-- A lane of a memory word. -/
  | lane (g id l : Nat)
  /-- A drained store-buffer entry of a core, with the groups whose bytes it held and their blocks. -/
  | drain (core : Nat) (groups blocks : List Nat)
  /-- A flushed merge-buffer entry of a core. -/
  | merge (core line : Nat) (groups blocks : List Nat)
  /-- A write of a parameter block, a frame or an engine that no other origin names. -/
  | unit
  /-- One member read of an MLR lane (R151), or the promotion that an atomic's lane asks for (R310). -/
  | mlr (g id l member : Nat)
  /-- A line of a tile fetch (R287). -/
  | mtf (core id line : Nat)
  /-- Part of a group's frame (R383). -/
  | frame (g : Nat)
  /-- A unit of a transfer command: cluster, command and unit (R188). -/
  | xfer (cluster id unit : Nat)
  /-- The store of a host-signal node (R337). -/
  | node (inst node : Nat)
  /-- A read of a span at a virtual address by a core, for the group in focus there, or by an engine of a die (R311, R452). -/
  | acc (core gk : Option Nat) (die va n : Nat)
  deriving DecidableEq, Repr

/-- A transaction of the replay buffer (R138, R140). -/
structure FabTx where
  chip : Nat
  plane : Nat
  sn : Nat
  req : FabReq
  /-- LOW that the request carries: the source's lowest unretired SN of the pair when it was last sent (R139). -/
  low : Nat
  origin : FabOrigin
  /-- Global time at which RSPT last started. -/
  timer : Nat
  resends : Nat
  /-- The reference count of 8 resends has been reported (R140). -/
  reported : Bool
  deriving DecidableEq, Repr

/-- The receiver of a pair (R139). -/
structure RxSt where
  nexp : Nat
  window : Tbl FabReq
  kept : Tbl FabAns
  low : Nat
  deriving DecidableEq, Repr

/-- Notices the receiver sends: PENDING, or an answer (R139): source chip, plane, SN. -/
structure FabOut where
  chip : Nat
  plane : Nat
  sn : Nat
  /-- none is a PENDING notice. -/
  ans : Option FabAns
  deriving DecidableEq, Repr

/-- The fabric side of the device (Table 6.1, R130, R138 to R144). -/
structure Fab where
  /-- CALM by member, CALP by pod; an absent entry has its reset value DOWN = 1. -/
  calm : Tbl W64
  calp : Tbl W64
  chipid : Nat
  fhold : Nat
  tx : List FabTx
  /-- Next SN by pair (chip × 16 + plane). -/
  nextSn : Tbl Nat
  rx : Tbl RxSt
  /-- Answers and notices sent by the receiver side, latest first. -/
  out : List FabOut
  /-- Ports that are up, with the version in use (R130). -/
  links : Tbl Nat
  /-- Ports reported down to the regulator cores (R130). -/
  portDown : List Nat
  /-- Global time at which DOWN rose, by entry (member, or 2,048 + pod) (R142). -/
  downSince : Tbl Nat
  /-- GEN as DOWN rose, by the same keys (R144). -/
  downGen : Tbl Nat
  /-- Entries whose hold has run out (R142). -/
  holdOut : List Nat
  /-- Chips reported failing (R140). -/
  failing : List Nat
  /-- RESYNC messages sent: chip, plane, LOW (R144). -/
  resyncs : List (Nat × Nat × Nat)
  /-- Answers to reads of spans that whoever asked has still to take. -/
  reads : List (FabOrigin × FabAns)
  deriving DecidableEq, Repr

/-! ## The escapement -/

/-- A running graph instance (R336 to R339). -/
structure Inst where
  /-- Virtual address of the graph header. -/
  hdr : W64
  nnode : Nat
  nodes : W64
  iprio : Nat
  cw : W64
  donea : W64
  donev : W64
  /-- STATUS to end with: 0 DONE, 1 ARG, 2 FAILED. -/
  status : Nat
  fnode : Nat
  /-- Nothing fires further (R338). -/
  stopped : Bool
  /-- Nodes whose CNT has reached 0 and whose firing is due, in order (R338). -/
  fires : List Nat
  /-- Nodes that are ready or running, and kept firings by node: the node and CW as each firing read them, and its
  order (R338, R340, R342). -/
  running : List Nat
  kept : Tbl (List (Nat × W64 × Nat))
  /-- Its nodes are being initialised: the next of them, the nodes to fire after it, and the first that failed; none afterwards (R336). -/
  init : Option (Nat × List Nat × Option Nat) := none
  /-- STATUS and TEND are written and DONEV is still to be (R339). -/
  closing : Bool := false
  deriving DecidableEq, Repr

/-- A node in the ready queue (R342). -/
structure Ready where
  prio : Nat
  inst : Nat
  node : Nat
  /-- The node and CW as the firing read them (R340). -/
  blk : Nat
  cw : W64
  /-- Order of its firing (R342). -/
  order : Nat
  deriving DecidableEq, Repr

/-- A node run under way: the node as it fired, its end status once known (Table 13.5), and which successors it decrements. -/
structure NodeRun where
  inst : Nat
  node : Nat
  blk : Nat
  status : Option Nat
  /-- Successors to decrement: 0 all, 1 SUCC0 and SUCC1, 2 SUCC2 and SUCC3. -/
  which : Nat
  /-- A transfer or bank command that waits for room in its engine (R337). -/
  waiting : Bool
  /-- Order of its firing (R342). -/
  order : Nat
  /-- Successors still to be decremented, once STATUS and RUNS are written (R338). -/
  left : Option (List Nat) := none
  deriving DecidableEq, Repr

/-- A launch in the dispatch list (R342). -/
structure Launch where
  inst : Nat
  node : Nat
  hdr : LaunchHdr
  /-- Next block to place, and the number of blocks. -/
  next : Nat
  total : Nat
  /-- Blocks placed or saved that have not ended. -/
  live : Nat
  failed : Bool
  /-- Order of firing. -/
  order : Nat
  /-- Global time since when its next block fits nowhere. -/
  since : Option Nat
  /-- LANE0 of its next group on each core (R326). -/
  rots : Tbl Nat
  deriving DecidableEq, Repr

/-- A saved block (R388 to R390). Its image's registers and scratchpads are held as the remontoire encodes them. -/
structure Saved where
  block : Block
  /-- Name of the block. -/
  id : Nat
  /-- Groups in order, without the slots of their fibres. -/
  groups : List Group
  /-- Encoded slots by group × 64 + lane. -/
  slots : Tbl (List Byte)
  /-- Scratchpads by index of the core within the block, without their bytes, and their encoded bytes. -/
  spads : Tbl Spad
  pads : Tbl (List Byte)
  /-- Kind and status of the tags last used by the block, by index of the core × 64 + tag. -/
  tags : Tbl TagInfo
  slot : Nat
  deriving DecidableEq, Repr

/-- The escapement and dispatcher (R333 to R342, R390). -/
structure Esc where
  anch : Tbl W64
  /-- Anchors whose line is to be scanned (R335). -/
  scans : List Nat
  /-- Launches that wait, oldest first (R375). -/
  pending : List W64
  /-- Graph pointers exchanged from anchor slots whose instances are still to start (R335). -/
  starts : List W64
  insts : Tbl Inst
  ready : List Ready
  runs : List NodeRun
  launches : List Launch
  saved : List Saved
  /-- Context slots in use (R387). -/
  slots : List Nat
  lastCluster : Nat
  /-- Launch (instance and node) and cluster that R342 reserves. -/
  reserved : Option (Nat × Nat × Nat)
  /-- Firings so far. -/
  fired : Nat
  /-- Stopped by PREPARE (R412). -/
  stopped : Bool
  deriving DecidableEq, Repr

/-! ## Host, firmware and power -/

/-- Power phases (PWRSTAT.PHASE, Table 16.2). -/
inductive Phase where | run | preparing | quiet | committing | retained | waking | woken
  deriving DecidableEq, Repr

/-- A step of a die (R407): the target point, and whether its clock has switched. -/
structure DvStep where
  target : Nat
  switched : Bool
  /-- The point it leaves, and global time of the start or of the switch (R407). -/
  from_ : Nat
  since : Nat
  /-- The request that made it, the same for both dies of one DVREQ write; 0 for a step that no request made (R406, R408). -/
  req : Nat := 0
  deriving DecidableEq, Repr

/-- Registers and power state (Tables 15.8, 16.2, 16.7; R396, R401, R408 to R416). -/
structure Mgmt where
  tfbase : W64
  ctxbase : W64
  ctxn : Nat
  verFw : Nat
  versel : W64
  suspbase : W64
  hostDrop : Nat
  phase : Phase
  mbarg : W64
  mbBusy : Bool
  mbSeq : Nat
  mbStatus : Nat
  /-- SEQ of the command under way. -/
  mbCur : Nat
  /-- ATTEST (2) or IDCERT (3) under way whose report a lease or a back-invalidation holds; 0 with none (R15). -/
  mbOp : Nat
  /-- Package cap in watts (R399). -/
  cap : Nat
  /-- Global time at which PREPARE was accepted (R412). -/
  since : Nat
  op0 : Nat
  op1 : Nat
  step0 : Option DvStep
  step1 : Option DvStep
  last : Nat
  thrCnt : Nat
  throttling : Bool
  tlim : Bool
  swFloor : Nat
  samp0 : W64
  samp1 : W64
  /-- MSI-X vectors raised, latest first (Table 16.1). -/
  msix : List Nat
  /-- Masked vectors, and vectors that wait to be raised until they are not masked: bit k for vector k (R396);
all are masked at reset (log 123). -/
  vmask : Nat := 15
  vpend : Nat := 0
  /-- The firmware does work of its own (R400). -/
  fwBusy : Bool := false
  /-- Firmware accepted at power-on (R401). -/
  booted : Bool
  /-- The device is off (R408, R410). -/
  off : Bool
  /-- Compute-die clocks gated (R410), and ticks with nothing resident or running. -/
  idle : Bool
  idleFor : Nat
  /-- Core-cycles, and stalled core-cycles, of each die in the running window of DVSAMP, and when it began (Table 16.7). -/
  winTotal : Tbl Nat
  winStall : Tbl Nat
  winAt : Nat
  /-- Answers to host reads, latest first: half, bytes, poison (R126). -/
  hostOut : List (Nat × BitVec 512 × Bool)
  /-- Answers to host reads of BAR 0, latest first (R125). -/
  hostRegs : List (Nat × W64)
  /-- Codes other than OK with which the host answers accesses to lines of its window (Table 8.5, R337, R382). -/
  hostCodes : Tbl Nat
  deriving DecidableEq, Repr

/-- What is fused in the device, which every power state keeps (R401, Table 16.8); the spec gives no values, and reset has 0 for both (log 122). -/
structure Fuses where
  /-- SHA-512 digest of the root key. -/
  rootDigest : Nat
  /-- Minimum security version of firmware. -/
  minSvn : Nat
  deriving DecidableEq, Repr

/-- The whole device. -/
structure State where
  /-- What happens next (the model's own, log 1). -/
  agenda : List Action
  /-- The path that word instructions act on: a group and a lane of the path (the model's own, log 1). -/
  focus : Option (Nat × Nat)
  /-- The bank-group engine that bank moves act on (the model's own, log 1). -/
  bfocus : Option Nat
  /-- Free values drawn so far (the model's own, log 2). -/
  free : Nat
  /-- Next name of a record in flight (the model's own, log 1). -/
  nextId : Nat
  time : TimeSt
  mem : Mem
  coh : Coh
  xl : Xl
  cores : Tbl Core
  groups : Tbl Group
  blocks : Tbl Block
  clusters : Tbl Cluster
  stackTbl : Tbl Stack
  bges : Tbl Bge
  fab : Fab
  esc : Esc
  mgmt : Mgmt
  fuses : Fuses
  deriving DecidableEq, Repr

/-- Reasons the machine stops with a fault: none. Every fault of the spec is a trap, a status or a code in the state, and the
machine goes on (Tables 15.1, 15.2, 8.5). Safe. -/
inductive Fault where
  deriving DecidableEq, Repr

/-- Reasons an instruction has no meaning in a state. -/
inductive Refusal where
  /-- An arm of exec that has no meaning yet. Safe. -/
  | notModelled (mnemonic : String)
  /-- A word or a bank move was given to exec and no path, or no engine that runs a program, is in focus to execute it: not a
  state the spec describes. Safe. -/
  | noPath
  deriving DecidableEq, Repr

/-! ## After reset -/

/-- A core after reset: caches and buffers empty, every tag ready (R219). -/
def Core.reset : Core :=
  { l1 := [], sb := [], mb := [], tlb := [], tags := BitVec.allOnes 64, tagInfo := [], perf := [], regions := [],
    spads := [], timeCopy := 0, fetches := [] }

/-- A cluster after reset: three slots empty, and the system overlay with its default code in the last (log 84). -/
def Cluster.reset : Cluster :=
  { slots := [.empty, .empty, .empty, .system 0], closed := false, cmds := [], shOwner := [], shadow := [], pubs := [], mat := [], fetchSeq := 0 }

/-- A lane that holds no fibre. -/
def Fibre.none : Fibre :=
  { live := false, slots := [], wb := 0, low := 0, spilla := 0, pred := 0, lstat := 0, rejoin := [], arrived := 0 }

/-- A lease entry after reset: FREE, generation 0 (log 6). -/
def Lease.reset : Lease :=
  { gen := 0, st := .free, rowSets := [], vbase := 0, dur := 0, lrec := 0, tres := 0, e := 0, tstart := 0, tend := 0, cause := 0, wmask := [] }
/-- A stack after reset. -/
def Stack.reset : Stack := { leases := [], modeWaits := [], cmdq := [], vecq := [], rowCache := [], layq := [], taken := [], readback := 0 }
/-- A BGE after reset (Table 4.1). -/
def Bge.reset : Bge :=
  { valid := false, moves := [], header := 0, vs := [], full0 := false, full1 := false, bs := [], chs := [], acc := [], g := [], l := [],
    c := 0, rowptr := 0, colptr := 0, dcfg := 0, addo := 0, addq := 0, cmpo := 0, shfo := 0, shfq := 0, pc := 0, stream := none,
    run := none, clock := 0, stopped := false }
/-- The fabric after reset: CHIPID 0x3FFFF, FHOLD 1,000, every entry DOWN (Table 6.1). -/
def Fab.reset : Fab :=
  { calm := [], calp := [], chipid := 0x3FFFF, fhold := 1000, tx := [], nextSn := [], rx := [], out := [], links := [], portDown := [],
    downSince := [], downGen := [], holdOut := [], failing := [], resyncs := [], reads := [] }

/-- The escapement after reset: nothing enabled, nothing running; the dispatcher's search starts at cluster 0 (log 6). -/
def Esc.reset : Esc :=
  { anch := [], scans := [], pending := [], starts := [], insts := [], ready := [], runs := [], launches := [], saved := [], slots := [],
    lastCluster := 127, reserved := none, fired := 0, stopped := false }
/-- Registers after reset (Tables 15.8, 16.2, 16.7); the package cap is 1,800 W (R398, log 6). -/
def Mgmt.reset : Mgmt :=
  { tfbase := 0, ctxbase := 0, ctxn := 0, verFw := 0x100, versel := 0, suspbase := 0, hostDrop := 0, phase := .run,
    mbarg := 0, mbBusy := false, mbSeq := 0, mbStatus := 0, mbCur := 0, mbOp := 0, cap := 1800, since := 0, op0 := 0, op1 := 0, step0 := none,
    step1 := none, last := 0, thrCnt := 0, throttling := false, tlim := false, swFloor := 0, samp0 := 0,
    samp1 := 0, msix := [], booted := true, off := false, idle := false, idleFor := 0, winTotal := [], winStall := [], winAt := 0,
    hostOut := [], hostRegs := [], hostCodes := [] }

/-- The device right after reset. -/
def State.reset : State :=
  { agenda := [], focus := none, bfocus := none, free := 0, nextId := 1,
    time := { now := 0, mode := .waiting, sinceOff := 0, adj := 0, sinceAdj := 0 },
    mem := { cells := [], poison := [] },
    coh := { sets := [], valid := [], fsnoops := [], holds := [], host := [], tracked := [], window := [], fabric := [], records := [], snoops := [], heldHost := [], monitored := [] },
    xl := { ptbase := 0, perr := false, invq0 := [], invq1 := [], waiting := [], dieTlb0 := [], dieTlb1 := [], walk0 := [], walk1 := [],
            pend0 := [], pend1 := [] },
    cores := [], groups := [], blocks := [], clusters := []
    , stackTbl := [], bges := [], fab := Fab.reset, esc := Esc.reset, mgmt := Mgmt.reset
    , fuses := { rootDigest := 0, minSvn := 0 }
  }

end Sys2Proof.Machine
end

