-- ==== Sys2Proof/Machine/Ops.lean ====
section
/-! DEFINITION. The shared operations over the state: cores, groups, paths and their registers (R202, R208), the path in
focus and what a word does to it (R21, R29, R349), raising a trap (R377, R379), clause boundaries (R330, R356), and
starting and retiring fibres. Taking a trap and returning from one stand in Machine/Trap.lean beside the frame. -/

namespace Sys2Proof.Machine

/-- The outcome of an instruction or event. -/
abbrev Out := Host.Outcome State Fault Refusal

/-! ## Access to the parts of the state -/

/-- A core; one that nothing has touched is as after reset, with the device's count as its copy of global time (log 3). -/
def getCore (s : State) (c : Nat) : Core := match tget s.cores c with | some k => k | none => { Core.reset with timeCopy := s.time.now }
def modCore (s : State) (c : Nat) (f : Core → Core) : State := { s with cores := tset s.cores c (f (getCore s c)) }
def getCluster (s : State) (c : Nat) : Cluster := tgetD s.clusters c Cluster.reset
def modCluster (s : State) (c : Nat) (f : Cluster → Cluster) : State :=
  { s with clusters := tset s.clusters c (f (getCluster s c)) }
def setGroup (s : State) (g : Nat) (x : Group) : State := { s with groups := tset s.groups g x }
def modGroup (s : State) (g : Nat) (f : Group → Group) : State :=
  match tget s.groups g with
  | some x => setGroup s g (f x)
  | none => s
def modBlock (s : State) (b : Nat) (f : Block → Block) : State :=
  match tget s.blocks b with
  | some x => { s with blocks := tset s.blocks b (f x) }
  | none => s
/-- The path of a group that holds a lane. -/
def pathOf (g : Group) (l : Nat) : Option Path := g.paths.find? (fun p => p.mask.getLsbD l)
/-- The path that holds a lane changed. -/
def modPath (g : Group) (l : Nat) (f : Path → Path) : Group :=
  { g with paths := g.paths.map (fun p => if p.mask.getLsbD l then f p else p) }
/-- The cluster of a core, and the die of a core. -/
def clusterOf (core : Nat) : Nat := core / 4
def dieOfCore (core : Nat) : Nat := core / 256
/-- Lanes of a group: 8, 16, 32 or 64 (Table 9.6). -/
def groupWidth (g : Group) : Nat := 8 * 2 ^ g.wcode
/-- GN of R383, the key of a group. -/
def gnOf (core gid : Nat) : Nat := core * 192 + gid
/-- A new name of a record in flight. -/
def freshId (s : State) : Nat × State := (s.nextId, { s with nextId := s.nextId + 1 })
/-- A free value (R253 apart, every value the spec leaves open that a run must hold; log 2). -/
def drawFree (s : State) : W64 × State := (Config.freeWord s.free, { s with free := s.free + 1 })

/-- An event counter of a core raised (Table 13.9). -/
def perfAdd (s : State) (c e n : Nat) : State :=
  modCore s c (fun k => { k with perf := tset k.perf e (tgetD k.perf e 0 + BitVec.ofNat 64 n) })

/-! ## Registers -/

def getFibre (g : Group) (l : Nat) : Fibre := tgetD g.lanes l Fibre.none
def setFibre (g : Group) (l : Nat) (f : Fibre) : Group := { g with lanes := tset g.lanes l f }
def modFibre (g : Group) (l : Nat) (f : Fibre → Fibre) : Group := setFibre g l (f (getFibre g l))
/-- Slot of a logical register (R202). -/
def slotOf (g : Group) (j : Nat) : Nat := j % g.depth
/-- Logical index of window register `r` of a fibre (R202). -/
def logicalOf (f : Fibre) (r : Nat) : Nat := f.wb.toNat + r
/-- v[r] of a fibre (R202). -/
def vGet (g : Group) (l r : Nat) : W64 := let f := getFibre g l; tgetD f.slots (slotOf g (logicalOf f r)) 0
/-- v[r] of a fibre written (R202). -/
def vSet (g : Group) (l r : Nat) (v : W64) : Group :=
  modFibre g l (fun f => { f with slots := tset f.slots (slotOf g (logicalOf f r)) v })
/-- s[r] of a group (R208). -/
def sGet (g : Group) (r : Nat) : W64 := tgetD g.sregs r 0
/-- s[r] written (R208). -/
def sSet (g : Group) (r : Nat) (v : W64) : Group := { g with sregs := tset g.sregs r v }
/-- Predicate byte pk of a lane (R210). -/
def predByte (g : Group) (l : Nat) (k : Nat) : Byte := ((getFibre g l).pred >>> (8 * k)).setWidth 8
/-- Predicate byte pk of a lane written. -/
def predSet (g : Group) (l k : Nat) (b : Byte) : Group :=
  modFibre g l (fun f => { f with pred := (f.pred &&& ~~~((0xFF : W64) <<< (8 * k))) ||| (b.setWidth 64 <<< (8 * k)) })
/-- Exception flags joined into a lane's LSTAT (R216). -/
def flagsAdd (g : Group) (l : Nat) (fl : Flags) : Group :=
  if fl = noFlags then g else modFibre g l (fun f => { f with lstat := lstatSetFlags f.lstat fl })
/-- Lanes of a group that hold live fibres. -/
def liveMask (g : Group) : LaneMask := maskOf ((g.lanes.filter (fun x => x.2.live)).map Prod.fst)
/-- Whether a lane is a helper: HELPER is ignored while the trap depth is 1 or more (R362, R380). -/
def isHelper (g : Group) (l : Nat) : Bool := g.tdepth = 0 && lstatHelper (getFibre g l).lstat

/-! ## The word in focus -/

/-- The group and path that a word instruction acts on. -/
structure Ctx where
  gk : Nat
  grp : Group
  path : Path
  /-- The lane that names the path. -/
  lane : Nat
  deriving DecidableEq, Repr

/-- The path in focus, if it exists. -/
def ctxOf (s : State) : Option Ctx :=
  match s.focus with
  | none => none
  | some (gk, l) =>
    match tget s.groups gk with
    | none => none
    | some grp =>
      match pathOf grp l with
      | none => none
      | some p => some ⟨gk, grp, p, l⟩

/-- What a word does: it completes, it completes and sends each lane to an address, it completes and leaves some paths, it
traps, or it stalls. -/
inductive WRes where
  | ok (s : State)
  /-- Next address of each lane whose fibre still exists (R349). -/
  | go (s : State) (next : Tbl W32)
  /-- The paths that take the place of the path in focus. -/
  | flow (s : State) (ps : List Path)
  | trap (t : TrapInfo)
  /-- The word waits; the state holds what it has set going (a snoop, a drain). -/
  | stall (s : State)

/-- COUNT of a header word (Table 2.1). -/
def hdrCount (h : Nat) : Nat := bitsOf h 20 4
/-- Address of the clause that follows a clause (R19). DESIGN CHOICE (log 88): past the end of a full overlay of 65,536 bytes the
spec does not say whether the address wraps, faults or carries; the sum carries into offset 0 of the next overlay number. -/
def nextClause (p : Path) : W32 := p.pc + BitVec.ofNat 32 (4 * (hdrCount p.hdr + 1))

/-- A trap record for a path at its word; the index and words are those of its prefix and word (R36). -/
def mkTrap (p : Path) (cause sub : Nat) (info : W64) (lanes : LaneMask) (lc : Tbl Nat) : TrapInfo :=
  { cause := cause, sub := sub, info := info, lanes := lanes, lcause := lc, word := p.cur,
    pfxw := match p.pfx with | some w => w.toNat | none => 0 }

/-- The illegal-instruction trap with a sub-cause (Table 15.1, code 1; Table 2.8). -/
def illegalTrap (p : Path) (e : Illegal) : TrapInfo := mkTrap p 1 e.code 0 p.mask []
/-- OPERAND found when the word runs (Table 2.8). -/
def operandTrap (cx : Ctx) : WRes := .trap (illegalTrap cx.path .operand)
/-- The precise memory trap of R452 at a word. -/
def memTrap (cx : Ctx) (sub : Nat) (va : W64) : WRes := .trap (mkTrap cx.path 2 sub va cx.path.mask [])

/-- A path put into a trap at its word (R379 step 1). A prefixed word's path stands at its PFX (R36). -/
def trapPath (t : TrapInfo) (p : Path) : Path :=
  { p with wait := .trap t, widx := if p.pfx.isSome then p.widx - 1 else p.widx, pfx := none, stalled := false }

/-- A precise trap raised at the word in focus (R377, R379): the word has no effect and the path stops at it. -/
def raiseTrap (cx : Ctx) (t : TrapInfo) (s : State) : State :=
  modGroup s cx.gk (fun g => modPath g cx.lane (trapPath t))

/-- A word that stalls in place (R21): the group keeps its slot and the core counts one clause-stall event. -/
def stallAt (cx : Ctx) (s : State) : State :=
  if cx.path.stalled then s
  else perfAdd (modGroup s cx.gk (fun g => modPath g cx.lane (fun p => { p with stalled := true }))) cx.grp.core 2 1

/-! ## Clause boundaries -/

/-- Whether a group is stopped by a trap being taken: a trapping path, a listed memory word, or a deliverable imprecise
cause (R117, R379, R381). -/
def wordFaulted (w : MemWord) : Bool := w.lanes.any (fun x => match x.2.st with | .listed _ _ => true | _ => false)
def groupTrapping (g : Group) : Bool :=
  g.paths.any (fun p => match p.wait with | .trap _ => true | _ => false)
    || g.words.any wordFaulted || (g.imp.isSome && g.tdepth = 0)

/-- Whether a path may be merged or parked now (R330, R356, R366). -/
def atRest (p : Path) : Bool :=
  p.widx = 0 && p.loop.isNone && (match p.wait with | .ready => true | .parked => true | _ => false)

/-- A lane parked at `pc`: its top rejoin entry is the address (R356). -/
def parksAt (g : Group) (pc : W32) (l : Nat) : Bool :=
  match (getFibre g l).rejoin with
  | t :: _ => t = pc
  | [] => false

/-- Paths at one address and of one kind joined into the first of them; the number of merges. -/
def mergeInto (acc : List Path × Nat) (p : Path) : List Path × Nat :=
  if !(atRest p) then (acc.1 ++ [p], acc.2)
  else
    let same := fun (q : Path) => atRest q && q.pc = p.pc && q.wait = p.wait
    if acc.1.any same then
      (acc.1.map (fun q => if same q then { q with mask := q.mask ||| p.mask, lndCheck := q.lndCheck ||| p.lndCheck, yielded := q.yielded && p.yielded }
        else q), acc.2 + 1)
    else (acc.1 ++ [p], acc.2)

/-- A path split into its parked fibres and the others (R356). -/
def splitParked (g : Group) (p : Path) : List Path :=
  if !(atRest p) then [p]
  else
    let pk := maskOf ((lanesOf p.mask).filter (parksAt g p.pc))
    let un := p.mask &&& ~~~pk
    if pk = 0 then [{ p with wait := .ready }]
    else if un = 0 then [{ p with wait := .parked }]
    else [{ p with mask := un, lndCheck := p.lndCheck &&& un, wait := .ready }, { p with mask := pk, lndCheck := p.lndCheck &&& pk, wait := .parked }]

/-- Whether the top entry of a parked lane is released: every live fibre that holds the address at that depth is parked on
it (R356). `parked` are the parked lanes. -/
def entryReleased (g : Group) (parked : LaneMask) (t : W32) (d : Nat) : Bool :=
  (lanesOf (liveMask g)).all (fun l =>
    let st := (getFibre g l).rejoin
    if st.reverse[d]? = some t then parked.getLsbD l && st.length = d + 1 else true)

/-- One release of R356, if some entry is due: its fibres pop it and form one path at the address. -/
def releaseOne (g : Group) : Option Group :=
  let parked := (g.paths.filter (fun p => p.wait = .parked)).foldl (fun a p => a ||| p.mask) (0 : LaneMask)
  let due := (lanesOf parked).find? (fun l =>
    match (getFibre g l).rejoin with
    | t :: r => entryReleased g parked t r.length
    | [] => false)
  match due with
  | none => none
  | some l =>
    match (getFibre g l).rejoin with
    | [] => none
    | t :: r =>
      let ls := (lanesOf parked).filter (fun k =>
        match (getFibre g k).rejoin with
        | t' :: r' => t' = t && r'.length = r.length
        | [] => false)
      let m := maskOf ls
      let g1 := ls.foldl (fun (a : Group) k => modFibre a k (fun f => { f with rejoin := f.rejoin.tail })) g
      match g.paths.find? (fun p => p.wait = .parked && p.mask.getLsbD l) with
      | none => none
      | some q =>
        let lnd := (g.paths.filter (fun p => p.wait = .parked)).foldl (fun a p => a ||| p.lndCheck) (0 : LaneMask)
        let rest := (g1.paths.map (fun p =>
          if p.wait = .parked then { p with mask := p.mask &&& ~~~m, lndCheck := p.lndCheck &&& ~~~m } else p)).filter (fun p => p.mask ≠ 0)
        some { g1 with paths := rest ++ [{ q with mask := m, lndCheck := lnd &&& m, wait := .ready, pc := t }] }

/-- Merging, parking and releasing at a clause boundary until nothing changes; `n` bounds the releases. -/
def settlePaths : Nat → Group → Nat → Group × Nat
  | 0, g, k => (g, k)
  | n + 1, g, k =>
    let ps := (g.paths.map (splitParked g)).flatten
    let (ms, c) := ps.foldl mergeInto ([], 0)
    let g1 := { g with paths := ms }
    match releaseOne g1 with
    | none => (g1, k + c)
    | some g2 => settlePaths n g2 (k + c)

/-- The grouping stage at a clause boundary of a group (R330, R356): MERGE events are counted (Table 13.9). -/
def boundary (s : State) (gk : Nat) : State :=
  match tget s.groups gk with
  | none => s
  | some g =>
    let (g1, k) := settlePaths 1040 g 0
    let s1 := setGroup s gk g1
    if k = 0 then s1 else perfAdd s1 g.core 6 k

/-- A path that ends its clause and stands at an address (R29, R349). -/
def landAt (p : Path) (pc : W32) : Path :=
  { p with pc := pc, widx := 0, pfx := none, y0 := none, y1 := none, y2 := none, wait := .ready, stalled := false,
           lndCheck := 0, yielded := bitsOf p.hdr 4 1 = 1, fresh := true, age := 0, aged := false }

/-- The word has issued: ISSUE is counted and the group's last issue noted (R331, Table 13.9). -/
def countIssue (s : State) (gk : Nat) (g : Group) : State :=
  let s1 := perfAdd s g.core 1 1
  modGroup s1 gk (fun x => { x with lastIssue := ((tgetD (getCore s g.core).perf 0 0).toNat) })

/-- After a word that completes, the path goes to its next word, or ends its clause and goes to the next one (R19, R21). -/
def advance (cx : Ctx) (s : State) : State :=
  let s1 := countIssue s cx.gk cx.grp
  if cx.path.widx ≥ hdrCount cx.path.hdr then
    boundary (modGroup s1 cx.gk (fun g => modPath g cx.lane (fun p => landAt p (nextClause cx.path)))) cx.gk
  else
    modGroup s1 cx.gk (fun g => modPath g cx.lane (fun p => { p with widx := p.widx + 1, pfx := none, stalled := false }))

/-- The paths that the lanes of a path form at their next addresses; a running loop goes with the first (R349, R366). -/
def pathsFrom (p : Path) : List (W32 × LaneMask) → List Path
  | [] => []
  | (a, m) :: t => { landAt p a with mask := m } :: pathsFrom p t

/-- Lanes gathered by next address. -/
def byTarget (t : Tbl W32) : List (W32 × LaneMask) :=
  t.foldl (fun (acc : List (W32 × LaneMask)) x =>
    if acc.any (fun y => y.1 = x.2) then acc.map (fun y => if y.1 = x.2 then (y.1, y.2 ||| laneBit x.1) else y)
    else acc ++ [(x.2, laneBit x.1)]) []

/-- The path in focus replaced by some paths, after a word that ends its clause (R349). -/
def flowTo (cx : Ctx) (ps : List Path) (s : State) : State :=
  let s1 := countIssue s cx.gk cx.grp
  let s2 := modGroup s1 cx.gk (fun g =>
    { g with paths := (g.paths.map (fun p => if p.mask.getLsbD cx.lane then ps else [p])).flatten })
  boundary s2 cx.gk
/-- After a control word: the lanes that share a next address form one path each (R349). -/
def goTo (cx : Ctx) (next : Tbl W32) (s : State) : State := flowTo cx (pathsFrom cx.path (byTarget next)) s

/-- The word in focus carried out: refused when no path is in focus, stalled while a register it names is pending (R21),
otherwise as `f` says. -/
def runWord (s : State) (pending : Ctx → Bool) (f : Ctx → WRes) : Out :=
  match ctxOf s with
  | none => .refused .noPath
  | some cx =>
    if pending cx then .next (stallAt cx s)
    else match f cx with
      | .ok s' => .next (advance cx s')
      | .go s' next => .next (goTo cx next s')
      | .flow s' ps => .next (flowTo cx ps s')
      | .trap t => .next (raiseTrap cx t s)
      | .stall s' => .next (stallAt cx s')

end Sys2Proof.Machine
end

