-- ==== Sys2Proof/Machine/Operands.lean ====
section
/-! DEFINITION. Operands of words: the prefix and which of its fields an opcode accepts (R31, R32, R168, R230), the rotation of
register fields in a loop (R364), the registers a word names (R21), reading sources (Table 2.4, R226), masks (R210, R225) and
writing destinations (R28, R209, R211, R212, R225, R243). -/

namespace Sys2Proof.Machine

/-! ## The prefix -/

/-- The fields of a prefix (Table 2.3, X). -/
structure Pfx where
  msk : Nat
  mske : Bool
  rnd : Nat
  mz : Bool
  c : Nat
  ce : Bool
  thr : Nat
  deriving DecidableEq, Repr

/-- The fields of a PFX word. -/
def pfxOfNat (w : Nat) : Pfx :=
  { msk := bitsOf w 21 3, mske := bitsOf w 20 1 = 1, rnd := bitsOf w 17 3, mz := bitsOf w 16 1 = 1, c := bitsOf w 9 7,
    ce := bitsOf w 8 1 = 1, thr := bitsOf w 4 4 }
/-- No prefix. -/
def noPfx : Pfx := { msk := 0, mske := false, rnd := 0, mz := false, c := 0, ce := false, thr := 0 }
/-- Which prefix fields an opcode accepts: M (MSK, MSKE), Z (MZ), R (RND 1 to 5), S (RND 6 with CE and C), C, THR; `any`
false when no prefix may stand before it. -/
structure PfxAcc where
  any : Bool
  m : Bool
  z : Bool
  r : Bool
  s : Bool
  c : Bool
  thr : Bool

def accNone : PfxAcc := ⟨false, false, false, false, false, false, false⟩
def accEmpty : PfxAcc := ⟨true, false, false, false, false, false, false⟩
def accM : PfxAcc := ⟨true, true, true, false, false, false, false⟩
def accMC : PfxAcc := ⟨true, true, true, false, false, true, false⟩
def accMR : PfxAcc := ⟨true, true, true, true, false, false, false⟩
def accMRC : PfxAcc := ⟨true, true, true, true, false, true, false⟩
def accMS : PfxAcc := ⟨true, true, true, true, true, false, false⟩
def accMRT : PfxAcc := ⟨true, true, true, true, false, false, true⟩
def accMask : PfxAcc := ⟨true, true, false, false, false, false, false⟩
def accAll : PfxAcc := ⟨true, true, true, true, true, true, true⟩

/-- The acceptance of an opcode (R32, R66, R97, R105, R146, R150, R168, R180, R230, R276, R283, R284, R290, R312, R315, R346,
R391; Tables 10.4 and 11.7). `sf` is bit 0 of the word, which tells CINV.all from CINV. Unassigned opcodes and UDF accept
every field, so that their own sub-cause is reported (R34, Table 2.8). -/
def pfxAcc (op sf : Nat) : PfxAcc :=
  if op = 0x00 then accNone
  else if op < 0x14 then accNone
  else if op < 0x20 then accAll
  else if op = 0x25 || op = 0x2B || op = 0x46 then accMC
  else if op < 0x57 then accM
  else if op < 0x60 then accAll
  else if op ≤ 0x62 || op = 0x68 || (0x69 ≤ op && op ≤ 0x6B) then accMR
  else if op = 0x63 || op = 0x6F then accMRC
  else if op ≤ 0x75 then accM
  else if op = 0x76 || op = 0x78 || op = 0x79 then accMR
  else if op = 0x77 then accM
  else if op < 0x80 then accAll
  else if op = 0x80 || op = 0x87 then accMS
  else if op = 0x81 || op = 0x82 || op = 0x85 || op = 0x88 || op = 0x89 || op = 0x8A then accMR
  else if op ≤ 0x8C then accM
  else if op < 0x90 then accAll
  else if op ≤ 0x92 then accMR
  else if op = 0x93 || op = 0x96 then accMRC
  else if op ≤ 0x95 then accM
  else if op < 0xA0 then accAll
  else if op ≤ 0xA2 then accMC
  else if op ≤ 0xA5 then accNone
  else if op < 0xB0 then accAll
  else if op ≤ 0xB1 then accMRC
  else if op = 0xB2 then accM
  else if op ≤ 0xB7 then accMRT
  else if op < 0xC0 then accAll
  else if op = 0xC0 || op = 0xC2 || op = 0xC4 || op = 0xC6 then accM
  else if op ≤ 0xC9 then accMask
  else if op ≤ 0xCF then accNone
  else if op = 0xD0 then accM
  else if op ≤ 0xD2 then accNone
  else if op = 0xD3 then accMask
  else if op = 0xD4 then (if sf = 1 then accNone else accMask)
  else if op < 0xE0 then accAll
  else if op ≤ 0xED then accNone
  else if op ≤ 0xEF then accM
  else if op = 0xF0 then accNone
  else if op = 0xF1 || op = 0xF2 || op = 0xF5 then accNone
  else if op = 0xF3 || op = 0xF4 || op = 0xF6 || op = 0xF8 then accEmpty
  else accAll

/-- Whether a prefix before a word is legal (R32); the PFX word's own reserved bits are checked by the decoder. -/
def pfxLegal (x : Pfx) (next : Nat) : Bool :=
  let a := pfxAcc (fOP next) (bitsOf next 0 1)
  a.any && x.rnd ≠ 7 && (x.mske || !x.mz) && (x.ce || x.c = 0)
    && (a.m || (!x.mske && x.msk = 0)) && (a.z || !x.mz)
    && (a.r || x.rnd = 0 || (a.s && x.rnd = 6))
    && (x.rnd ≠ 6 || (a.s && x.ce) || fOP next = 0xFF)
    && (!x.ce || a.c || (a.s && x.rnd = 6))
    && (a.thr || x.thr = 0)

/-! ## Rotation in a loop (R364) -/

/-- Which of D, A and B a word decodes as window register operands, by opcode and SF. -/
def rotFields (op sf : Nat) : Bool × Bool × Bool :=
  if op < 0x20 then (false, false, false)
  else if op < 0x24 then (true, false, false)
  else if op = 0x24 || op = 0x28 || op = 0x30 || op = 0x31 || (0x38 ≤ op && op ≤ 0x3A) || (0x3F ≤ op && op ≤ 0x44)
      || op = 0x50 || op = 0x51 || op = 0x55 || op = 0x56 then (true, true, false)
  else if op = 0x4B then (false, true, true)
  else if op = 0x4C then (false, true, false)
  else if op = 0x4D then (false, false, false)
  else if op = 0x4E then (if sf % 2 = 0 then (true, false, false) else (false, true, false))
  else if op = 0x53 then (if sf = 1 then (true, true, false) else (true, true, true))
  else if op = 0x54 then (true, false, false)
  else if op < 0x57 then (true, true, true)
  else if op = 0x66 || op = 0x67 || (0x69 ≤ op && op ≤ 0x6B) || op = 0x6D || (0x70 ≤ op && op ≤ 0x7F) then (true, true, false)
  else if op = 0x6C then (false, true, true)
  else if op < 0x80 then (true, true, true)
  else if op ≤ 0x82 || op = 0x84 || op = 0x85 || op = 0x8B then (true, true, false)
  else if op < 0xA0 then (true, true, true)
  else if op ≤ 0xA2 || op = 0xB0 || op = 0xB1 then (true, true, true)
  else if 0xB2 ≤ op && op ≤ 0xB7 then (true, true, false)
  else if (0xC0 ≤ op && op ≤ 0xC6) || op = 0xC8 || op = 0xC9 || op = 0xD0 then (true, true, false)
  else if op = 0xC7 || op = 0xD3 then (false, true, false)
  else if op = 0xD4 then (false, sf % 2 = 0, false)
  else if op = 0xEE then (true, true, true)
  else if op = 0xEF then (true, true, false)
  else if op = 0xF3 || op = 0xF6 || op = 0xF8 then (true, false, false)
  else if op = 0xF4 then (false, true, false)
  else (false, false, false)

/-- A rotated field (R364, Table 14.4). -/
def rotField (lp : LoopSt) (f : Nat) : Nat :=
  let inc := lp.inc.toNat
  let rlo := bitsOf inc 0 5
  let r := min (bitsOf inc 5 6) (32 - rlo)
  let step := bitsOf inc 11 4
  if r ≠ 0 && rlo ≤ f && f < rlo + r then rlo + (f - rlo + lp.pass * step) % r else f

/-- A word of a loop body with its window register fields rotated (R364); the C field of a prefix with CE too. -/
def rotWord (lp : Option LoopSt) (w : Nat) : Nat :=
  match lp with
  | none => w
  | some l =>
    if fOP w = 0xF0 then
      if bitsOf w 8 1 = 1 then w - fC w * 2 ^ 9 + rotField l (fC w) * 2 ^ 9 else w
    else
      let (d, a, b) := rotFields (fOP w) (fSF w)
      let w1 := if d then w - fD w * 2 ^ 17 + rotField l (fD w) * 2 ^ 17 else w
      let w2 := if a then w1 - fA w * 2 ^ 10 + rotField l (fA w) * 2 ^ 10 else w1
      if b then w2 - fB w * 2 ^ 3 + rotField l (fB w) * 2 ^ 3 else w2
where
  /-- C of a prefix word. -/
  fC (w : Nat) : Nat := bitsOf w 9 7

/-- The prefix of the word in focus, its C field rotated (R364). -/
def pfxOf (cx : Ctx) : Pfx := match cx.path.pfx with | some w => pfxOfNat (rotWord cx.path.loop w.toNat) | none => noPfx

/-! ## Registers a word names (R21) -/

/-- Register codes are those of Table 2.4: 0 to 31 window, 64 to 95 uniform. -/
def srcRegs : Src → List Nat
  | .v r => [r.val]
  | .s r => [64 + r.val]
  | _ => []
def dstRegs : Dst → List Nat
  | .v r => [r.val]
  | .s r => [64 + r.val]
  | .y _ => []
def regRegs : Reg → List Nat
  | .v r => [r.val]
  | .s r => [64 + r.val]

/-- Registers pending for a group: destinations of memory words that have not returned, and those noted in the group (R21). -/
def laneOpen : LaneSt → Bool
  | .done => false
  | .listed _ _ => false
  | _ => true

/-- Whether a memory word writes a destination register. -/
def opWrites : MemOp → Bool
  | .load _ _ | .loadu _ _ | .lds _ | .rscl | .atom _ _ _ | .cas _ _ _ _ | .gred _ | .mlr _ | .fmode _ | .phend => true
  | _ => false

/-- The registers a memory word keeps pending. -/
def wordPend (w : MemWord) : List PendReg :=
  if !opWrites w.op then []
  else ((w.lanes.filter (fun x => laneOpen x.2.st)).map (fun x =>
    if w.uni then [⟨true, x.2.dlog, laneBit x.1, w.id⟩]
    else match w.op with
      | .cas _ _ _ _ => [⟨false, x.2.dlog, laneBit x.1, w.id⟩, ⟨false, x.2.dlog + 1, laneBit x.1, w.id⟩]
      | _ => [⟨false, x.2.dlog, laneBit x.1, w.id⟩])).flatten
    ++ (match w.op with
      | .gred _ => if w.lanes.any (fun x => laneOpen x.2.st) then w.ans.map (fun x => ⟨false, x.2.1, laneBit x.1, w.id⟩) else []
      | _ => [])

/-- All pending registers of a group. -/
def groupPend (g : Group) : List PendReg := g.pend ++ (g.words.map wordPend).flatten

/-- Whether one of the registers of a word is pending in a lane of a mask. -/
def regsPending (g : Group) (mask : LaneMask) (regs : List Nat) : Bool :=
  (groupPend g).any (fun p =>
    if p.uni then regs.contains (64 + p.idx)
    else (lanesOf (mask &&& p.mask)).any (fun l => regs.any (fun r => r < 32 && logicalOf (getFibre g l) r = p.idx)))

/-- The stall condition of a word that names some registers, and C of its prefix (R21). -/
def pendingOn (regs : List Nat) (cx : Ctx) : Bool :=
  let x := pfxOf cx
  regsPending cx.grp cx.path.mask (if x.ce then x.c :: regs else regs)

/-! ## Reading sources -/

/-- How constants are read (Table 2.4): by an integer instruction, placed in every element of a format, or as an E8M0
scale (R224). -/
inductive SrcKind where
  | int
  | fp (f : Fmt)
  | e8m0

/-- An element copied into every element of 64 bits (R226). -/
def replicate64 (w x : Nat) : Nat :=
  if w ≥ 64 then x else ((List.range (64 / w)).map (fun i => (x % 2 ^ w) * 2 ^ (w * i))).foldl (· + ·) 0

/-- An integer constant in a format, to nearest even and saturating (Table 2.4). -/
def fpConst (f : Fmt) (x : Int) : W64 := BitVec.ofNat 64 (replicate64 (fmtWidth f) (fOfInt f .rne true x).1)

/-- A latch of a path. -/
def latchOf (p : Path) (k : Fin 3) : Option Latch :=
  match k.val with
  | 0 => p.y0
  | 1 => p.y1
  | _ => p.y2

/-- A constant operand as an integer instruction reads it. -/
def constInt : Src → W64
  | .int n => BitVec.ofNat 64 n.val
  | .neg n => BitVec.ofInt 64 (-(n.val : Int) - 1)
  | .ones => BitVec.allOnes 64
  | _ => 0
/-- A constant operand in a floating-point format (Table 2.4, R224). -/
def constFp (f : Fmt) : Src → W64
  | .int n => fpConst f n.val
  | .neg n => fpConst f (-(n.val : Int) - 1)
  | .fpc k =>
    let m := match k.val % 4 with | 0 => ((1 : Nat), (-1 : Int)) | 1 => (1, 0) | 2 => (2, 0) | _ => (4, 0)
    BitVec.ofNat 64 (replicate64 (fmtWidth f) (fRound f .rne true (k.val ≥ 4) m.1 m.2 false).1)
  | .pinf => BitVec.ofNat 64 (replicate64 (fmtWidth f) (if f.kind = .ieee then fmtInf f else fmtMax f))
  | .ninf => BitVec.ofNat 64 (replicate64 (fmtWidth f) ((if f.kind = .ieee then fmtInf f else fmtMax f) + fmtSign f))
  | .nan => BitVec.ofNat 64 (replicate64 (fmtWidth f) (fmtNan f))
  | .maxf => BitVec.ofNat 64 (replicate64 (fmtWidth f) (fmtMax f))
  | _ => 0
/-- A constant operand as an E8M0 scale (R224): powers of two exactly. -/
def constE8 : Src → W64
  | .int n => BitVec.ofNat 64 (127 + Nat.log2 n.val)
  | .fpc k => BitVec.ofNat 64 (126 + k.val)
  | .nan => 0xFF
  | _ => 0xFE

/-- The value of a source operand in a lane (Table 2.4, R224). An empty latch is refused before (R29). -/
def readSrc (cx : Ctx) (kind : SrcKind) (a : Src) (l : Nat) : W64 :=
  match a with
  | .v r => vGet cx.grp l r.val
  | .s r => sGet cx.grp r.val
  | .y k => match latchOf cx.path k with | some x => tgetD x.vals l 0 | none => 0
  | .lane => BitVec.ofNat 64 l
  | .octet => BitVec.ofNat 64 (l / 8)
  | .slice => BitVec.ofNat 64 (l / 4)
  | a => match kind with
    | .int => constInt a
    | .fp f => constFp f a
    | .e8m0 => constE8 a

/-- Whether a source can be read now: a latch must be full (R29), and with a uniform destination carry the mark (R209). -/
def srcReady (cx : Ctx) (uni : Bool) (a : Src) : Bool :=
  match a with
  | .y k => match latchOf cx.path k with | some x => !uni || x.uni | none => false
  | a => !uni || a.isUni

/-- Whether a source is one that R209 allows, latches by their mark (R212). -/
def srcUniform (cx : Ctx) (a : Src) : Bool := srcReady cx true a

/-- Whether a source is legal for a kind of instruction (Table 2.4). -/
def srcLegal (kind : SrcKind) (a : Src) : Bool :=
  match kind with
  | .int => a.isInt
  | .fp _ => a.isFp
  | .e8m0 => a.isE8m0

/-- The register that D names in a word that reads D, as a record of the word keeps it (Table 15.6). -/
def srcDst : Src → Dst
  | .v r => .v r
  | .s r => .s r
  | _ => .y 0
/-- A destination as the third source of an instruction without CE (R31). -/
def dstSrc : Dst → Src
  | .v r => .v r
  | .s r => .s r
  | .y k => .y k

/-- The third source: C under CE, otherwise D (R31). `none` when C is no legal operand. -/
def thirdSrc (x : Pfx) (d : Dst) : Option Src := if x.ce then Src.ofCode x.c else some (dstSrc d)

/-! ## Masks -/

/-- Whether the element at byte offset `o` of a lane is unmasked (R210). -/
def elemOn (cx : Ctx) (l o : Nat) : Bool :=
  let x := pfxOf cx
  !x.mske || (predByte cx.grp l x.msk).getLsbD o

/-- Whether a lane takes part in a whole-lane instruction: active and unmasked (R225, R243). -/
def laneOn (cx : Ctx) (l : Nat) : Bool := cx.path.mask.getLsbD l && elemOn cx l 0

/-- The lanes that take part. -/
def partLanes (cx : Ctx) : List Nat := (lanesOf cx.path.mask).filter (elemOn cx · 0)

/-! ## Writing destinations -/

/-- The result of a word in one lane: the value and the flags of its elements; none when the lane keeps what it has. -/
abbrev LaneRes := Option W64 × Flags

/-- Element `e` of width `w` of a 64-bit value. -/
def elemAt (x : W64) (w e : Nat) : Nat := bitsOf x.toNat (w * e) w

/-- The elementwise rule of R225: each unmasked element takes `f` of the source elements; a masked one merges or is 0. -/
def packedLane (cx : Ctx) (l w : Nat) (old : W64) (srcs : List W64) (f : List Nat → FRes) : LaneRes :=
  let x := pfxOf cx
  let step := fun (acc : Nat × Flags) (e : Nat) =>
    if elemOn cx l (e * w / 8) then
      let r := f (srcs.map (elemAt · w e))
      (acc.1 + (r.1 % 2 ^ w) * 2 ^ (w * e), acc.2 ||| r.2)
    else (acc.1 + (if x.mz then 0 else elemAt old w e) * 2 ^ (w * e), acc.2)
  let r := (List.range (64 / w)).foldl step (0, noFlags)
  (some (BitVec.ofNat 64 r.1), r.2)

/-- A whole-lane instruction, or a scalar floating-point form: bit 0 of the mask decides, and the result fills 64 bits
(R29, R225). -/
def wholeLane (cx : Ctx) (l : Nat) (f : Unit → FRes) : LaneRes :=
  if elemOn cx l 0 then let r := f (); (some (BitVec.ofNat 64 r.1), r.2)
  else if (pfxOf cx).mz then (some 0, noFlags) else (none, noFlags)

/-- A latch of a path replaced. -/
def setLatch (p : Path) (k : Fin 3) (x : Latch) : Path :=
  match k.val with
  | 0 => { p with y0 := some x }
  | 1 => { p with y1 := some x }
  | _ => { p with y2 := some x }

/-- What a destination holds in a lane before the word: for a latch, its earlier value, or 0 when it was empty (R212). -/
def oldOf (cx : Ctx) (d : Dst) (l : Nat) : W64 :=
  match d with
  | .v r => vGet cx.grp l r.val
  | .s r => sGet cx.grp r.val
  | .y k => match latchOf cx.path k with | some x => tgetD x.vals l 0 | none => 0

/-- Per-lane results written to a window register or a latch, flags joined (R28, R212, R216, R225). -/
def writeLanes (cx : Ctx) (s : State) (d : Dst) (uniMark : Bool) (res : Nat → LaneRes) : State :=
  let ls := lanesOf cx.path.mask
  let rs := ls.map (fun l => (l, res l))
  modGroup s cx.gk (fun g =>
    let g1 := rs.foldl (fun a x => flagsAdd a x.1 x.2.2) g
    match d with
    | .v r => rs.foldl (fun a x => match x.2.1 with | some v => vSet a x.1 r.val v | none => a) g1
    | .s _ => g1
    | .y k =>
      let vals := rs.foldl (fun (t : Tbl W64) x => tset t x.1 (x.2.1.getD (oldOf cx d x.1))) []
      modPath g1 cx.lane (fun p => setLatch p k ⟨vals, uniMark⟩))

/-- One value written to a uniform register, when some lane takes part (R209); flags go to the lanes that take part. -/
def writeUni (cx : Ctx) (s : State) (r : Nat) (v : W64) (fl : Flags) : State :=
  let ls := partLanes cx
  if ls.isEmpty then s
  else modGroup s cx.gk (fun g => sSet (ls.foldl (fun a l => flagsAdd a l fl) g) r v)

/-- The common form of the words of chapter 10 without a rule of their own for uniform destinations: sources are checked
(R29, R209), then every active lane computes its result, or the group computes one. `lane` gives a lane's result from its
number, the destination's old value and the source values. -/
def vecWord (s : State) (d : Dst) (kinds : List (SrcKind × Src)) (lane : Ctx → Nat → W64 → List W64 → LaneRes)
    (uni : Ctx → List W64 → FRes) : Out :=
  runWord s (pendingOn (dstRegs d ++ (kinds.map (fun k => srcRegs k.2)).flatten)) (fun cx =>
    let isS := !d.notS
    if !(kinds.all (fun k => srcReady cx isS k.2)) then operandTrap cx
    else match d with
      | .s r =>
        let v := uni cx (kinds.map (fun k => readSrc cx k.1 k.2 (lowLane cx.path.mask)))
        .ok (writeUni cx s r.val (BitVec.ofNat 64 v.1) v.2)
      | _ => .ok (writeLanes cx s d (kinds.all (fun k => srcUniform cx k.2)) (fun l =>
          lane cx l (oldOf cx d l) (kinds.map (fun k => readSrc cx k.1 k.2 l)))))

/-- All elements of a packed operation on one 64-bit value, unmasked. -/
def packedAll (w : Nat) (srcs : List W64) (f : List Nat → FRes) : FRes :=
  (List.range (64 / w)).foldl (fun (acc : FRes) e =>
    let r := f (srcs.map (elemAt · w e)); (acc.1 + (r.1 % 2 ^ w) * 2 ^ (w * e), acc.2 ||| r.2)) (0, noFlags)

/-- A packed word: elements of width `w` (R225). -/
def packedWord (s : State) (d : Dst) (kinds : List (SrcKind × Src)) (w : Nat) (f : List Nat → FRes) : Out :=
  vecWord s d kinds (fun cx l old srcs => packedLane cx l w old srcs f) (fun _ srcs => packedAll w srcs f)

/-- A whole-lane word, or a scalar form on element 0 (R225). -/
def laneWord (s : State) (d : Dst) (kinds : List (SrcKind × Src)) (f : Ctx → List W64 → FRes) : Out :=
  vecWord s d kinds (fun cx l _ srcs => wholeLane cx l (fun _ => f cx srcs)) f

/-- A word with a third source (R31): C under CE or D. An illegal C is OPERAND. -/
def withThird (s : State) (d : Dst) (kind : SrcKind) (regs : List Nat) (k : Src → Out) : Out :=
  match ctxOf s with
  | none => .refused .noPath
  | some cx =>
    match thirdSrc (pfxOf cx) d with
    | some c => if srcLegal kind c then k c else runWord s (pendingOn regs) operandTrap
    | none => runWord s (pendingOn regs) operandTrap

/-- An integer operand. -/
def intOp (a : Src) : SrcKind × Src := (.int, a)
/-- A floating-point operand of a format. -/
def fpOp (f : Fmt) (a : Src) : SrcKind × Src := (.fp f, a)

/-- The bits of a class W width. -/
def widthBits : Width → Nat | .w64 => 64 | .w32 => 32 | .w16 => 16 | .w8 => 8
/-- Width and signedness of class S. -/
def swidthBits : SWidth → Nat | .s64 | .n64 => 64 | .s32 | .n32 => 32
def swidthSigned : SWidth → Bool | .s64 | .s32 => true | .n64 | .n32 => false

/-- The rounding mode of a prefix, with the instruction's default and, for RND 6, a lane's draw (R31, R227). -/
def rmOf (x : Pfx) (dflt : Rm) (draw : Nat) : Rm :=
  match x.rnd with
  | 1 => .rne
  | 2 => .rtz
  | 3 => .rup
  | 4 => .rdn
  | 5 => .rna
  | 6 => .sr draw
  | _ => dflt

/-- The result of an integer element: it sets no flag (R228). -/
def intRes (x : Nat) : FRes := (x, noFlags)

end Sys2Proof.Machine
end

