-- ==== Sys2Proof/Machine/Memory.lean ====
section
/-! DEFINITION. The memory operations: address kinds (R108, R109), home slices (R122, R157, R161), host and lease states that
hold a request (R15, R59, R126, R128), L1 copies and their forms (R155 to R161), store and merge buffers (R147, R148, R160),
monitors and promotion records at a write (R310, R372), private regions (R317), and scratchpads (R154, R163 to R166). -/

namespace Sys2Proof.Machine

/-! ## Addresses -/

/-- What a device address names (Table 5.1, R108). -/
inductive Tgt where | hbm | host | reg | hole | remote
  deriving DecidableEq, Repr

/-- Chip number and local address of a device address (R108). -/
def chipOf (da : Nat) : Nat := da / 2 ^ 46
def localOf (da : Nat) : Nat := da % 2 ^ 46
/-- Kind of a local address (Table 5.1). -/
def tgtLocal (la : Nat) : Tgt :=
  if la < 0x8000000000 then .hbm
  else if 0x100000000000 ≤ la && la < 0x200000000000 then .host
  else if 0x200000000000 ≤ la && la < 0x200100000000 then .reg
  else .hole
/-- Kind of a device address: chip 0x3FFFF and the device's own number are local (R108). -/
def tgtOf (s : State) (da : Nat) : Tgt :=
  if chipOf da = 0x3FFFF || chipOf da = s.fab.chipid then tgtLocal (localOf da) else .remote
/-- Line of a local address, and its byte in the line (R121). -/
def lineOf (la : Nat) : Nat := la / 128
/-- Home slice of a local line: die × 64 + slice (R122). -/
def homeSlice (line : Nat) : Nat :=
  let la := line * 128
  let die := if la < 0x8000000000 then bitsOf la 38 1 else bitsOf la 16 1
  die * 64 + Nat.xor (Nat.xor (bitsOf la 7 6) (bitsOf la 13 6)) (Nat.xor (bitsOf la 19 6) (bitsOf la 25 6))
/-- Key of the set of a line in its slice (R157). -/
def llcSet (line : Nat) : Nat := homeSlice line * 512 + line % 512

/-- Bits of a span of bytes `off` to `off + n − 1` of a line. -/
def spanMask (off n : Nat) : LineMask := BitVec.ofNat 128 ((2 ^ n - 1) * 2 ^ off)
/-- Sectors that a span of bytes touches (R121). -/
def spanSectors (off n : Nat) : BitVec 4 :=
  BitVec.ofNat 4 (((List.range 4).filter (fun k => off < 32 * k + 32 && 32 * k < off + n)).foldl (fun a k => a + 2 ^ k) 0)
/-- Sectors that a byte mask touches, and sectors that it covers whole. -/
def maskSectors (m : LineMask) : BitVec 4 :=
  BitVec.ofNat 4 (((List.range 4).filter (fun k => bitsOf m.toNat (32 * k) 32 ≠ 0)).foldl (fun a k => a + 2 ^ k) 0)
def maskWhole (m : LineMask) : BitVec 4 :=
  BitVec.ofNat 4 (((List.range 4).filter (fun k => bitsOf m.toNat (32 * k) 32 = 2 ^ 32 - 1)).foldl (fun a k => a + 2 ^ k) 0)
/-- Byte mask of a set of sectors. -/
def sectorMask (d : BitVec 4) : LineMask :=
  BitVec.ofNat 128 (((List.range 4).filter (fun k => d.getLsbD k)).foldl (fun a k => a + (2 ^ 32 - 1) * 2 ^ (32 * k)) 0)
/-- Each bit of a byte mask as a byte. -/
def maskBits (m : LineMask) : Nat := (List.range 128).foldl (fun a i => if m.getLsbD i then a + 255 * 2 ^ (8 * i) else a) 0
/-- The bytes of a line with others written over them under a byte mask. -/
def overLine (old : Line) (m : LineMask) (new : Line) : Line :=
  let k := BitVec.ofNat 1024 (maskBits m); (old &&& ~~~k) ||| (new &&& k)
/-- `n` bytes from byte `off` of a line. -/
def lineRead (d : Line) (off n : Nat) : Nat := bitsOf d.toNat (8 * off) (8 * n)
/-- A line with a number of `n` bytes at byte `off`, zero elsewhere. -/
def lineAt (off n v : Nat) : Line := BitVec.ofNat 1024 ((v % 2 ^ (8 * n)) * 2 ^ (8 * off))
/-- Halves of 64 bytes that a byte mask touches, as half numbers (R121). -/
def halvesOf (line : Nat) (m : LineMask) : List Nat :=
  (if bitsOf m.toNat 0 64 ≠ 0 then [2 * line] else []) ++ (if bitsOf m.toNat 64 64 ≠ 0 then [2 * line + 1] else [])

/-! ## The device-scope bytes -/

/-- The bytes of a line at its home. -/
def memLine (s : State) (line : Nat) : Line := BitVec.ofNat 1024 (cellsRead s.mem.cells (line * 128) 128)
/-- Poison of the sectors of a line at its home (R123). -/
def memPoison (s : State) (line : Nat) : BitVec 4 :=
  BitVec.ofNat 4 (((List.range 4).filter (fun k => s.mem.poison.contains (4 * line + k))).foldl (fun a k => a + 2 ^ k) 0)
/-- Poison of the sectors `d` of a line set to the bits of `p`. -/
def poisonSet (l : List Nat) (line : Nat) (d p : BitVec 4) : List Nat :=
  (List.range 4).foldl (fun a k =>
    if d.getLsbD k then (if p.getLsbD k then natInsert a (4 * line + k) else a.filter (· ≠ 4 * line + k)) else a) l
/-- Bytes written at the home under a mask; a sector written whole loses its poison, and incoming poison stays (R65, R123). -/
def memMerge (s : State) (line : Nat) (m : LineMask) (d : Line) (p : BitVec 4) : State :=
  { s with mem :=
    { cells := cellsMerge s.mem.cells (line * 128) 128 m.toNat d.toNat,
      poison := poisonSet s.mem.poison line (maskWhole m ||| (maskSectors m &&& p)) p } }

/-! ## Leases over rows -/

/-- Row set of a local HBM address (R47). -/
def rowSetOf (la : Nat) : Nat := la / 65536
def getStack (s : State) (k : Nat) : Stack := tgetD s.stackTbl k Stack.reset
def modStack (s : State) (k : Nat) (f : Stack → Stack) : State := { s with stackTbl := tset s.stackTbl k (f (getStack s k)) }
/-- Whether a lease state takes its row sets from the compute path (Table 3.3). -/
def leaseHolds : LeaseSt → Bool
  | .giving _ | .held | .ending | .returning => true
  | .free | .reserved => false
/-- Whether requests for a local address are held (R15, R59). -/
def heldLa (s : State) (la : Nat) : Bool :=
  la < 0x8000000000 &&
    (getStack s (la / 2 ^ 36)).leases.any (fun x => leaseHolds x.2.st && x.2.rowSets.contains (rowSetOf la))

/-! ## Host state of halves (R126, R128) -/

/-- A back-invalidation sent for a half, unless one is in flight; `keep` when the host keeps SHARED. -/
def snoopSend (s : State) (half : Nat) (keep : Bool) : State :=
  match tget s.coh.snoops half with
  | some _ => s
  | none => { s with coh := { s.coh with snoops := tset s.coh.snoops half (0, keep) } }
/-- Whether a half needs no snoop before a device request (Table 5.8). -/
def halfClear (s : State) (write : Bool) (half : Nat) : Bool :=
  (tget s.coh.snoops half).isNone &&
    (match tget s.coh.host half with | none => true | some own => !own && !write)
/-- Halves of a list that need a snoop are snooped. -/
def snoopAll (s : State) (write : Bool) (halves : List Nat) : State :=
  halves.foldl (fun a h => if halfClear a write h then a else snoopSend a h (!write)) s

/-- Whether a line's fabric home slice has to be back-invalidated before a device or host request, or is being (R136). -/
def fabBusy (s : State) (line : Nat) (write : Bool) : Bool :=
  (tget s.coh.fsnoops line).isSome || (match tget s.coh.fabric line with | none => false | some own => own || write)
/-- A back-invalidation sent to a line's fabric home slice, unless one is in flight; `keep` when it keeps SHARED (R136). -/
def fabSnoop (s : State) (line : Nat) (keep : Bool) : State :=
  match tget s.coh.fsnoops line with
  | some _ => s
  | none => { s with coh := { s.coh with fsnoops := tset s.coh.fsnoops line (0, keep) } }

/-! ## Requests that wait at a line (R58, R60, R128) -/

/-- Whether a request at a line may have to wait there: a lease holds it, or a back-invalidation of it is in flight. -/
def lineHeld (s : State) (line : Nat) : Bool :=
  heldLa s (line * 128) || (tget s.coh.snoops (2 * line)).isSome || (tget s.coh.snoops (2 * line + 1)).isSome || (tget s.coh.fsnoops line).isSome
/-- A request that waits at a line, noted by the action that makes it, in order of arrival. -/
def noteAct (s : State) (line : Nat) (a : Action) : State :=
  if lineHeld s line && !(s.coh.holds.contains (line, a)) then { s with coh := { s.coh with holds := s.coh.holds ++ [(line, a)] } } else s
/-- The same for a request that an event makes. -/
def noteHold (s : State) (line : Nat) (ev : Instr) : State :=
  noteAct { s with coh := { s.coh with waits := if s.coh.waits = some line then none else s.coh.waits } } line (.event ev)
/-- The request being made has to wait at a line. -/
def waitAt (s : State) (line : Nat) : State := { s with coh := { s.coh with waits := some line } }
/-- After an action: a request that it has made and that has to wait is noted at its line. -/
def noteWait (a : Action) (s : State) : State :=
  match s.coh.waits with
  | none => s
  | some line => noteAct { s with coh := { s.coh with waits := none } } line a
/-- Channel of a line, over all stacks (R47). -/
def channelOf (line : Nat) : Nat := rowSetOf (line * 128) / 2 ^ 20 * 32 + rowSetOf (line * 128) % 32
/-- The hold queue of a channel: the first 256 requests held there; the slices keep the others and retry them (R60). -/
def channelQueue (s : State) (ch : Nat) : List (Nat × Action) := (s.coh.holds.filter (fun x => channelOf x.1 = ch)).take 256
/-- The requests of some lines in the order in which they are served: those of the channels' hold queues first (R58, R60). -/
def holdsOf (s : State) (which : Nat → Bool) : List (Nat × Action) :=
  let hs := s.coh.holds.filter (fun x => which x.1)
  hs.filter (fun x => (channelQueue s (channelOf x.1)).contains x) ++ hs.filter (fun x => !((channelQueue s (channelOf x.1)).contains x))
def dropHolds (s : State) (which : Nat → Bool) : State := { s with coh := { s.coh with holds := s.coh.holds.filter (fun x => !(which x.1)) } }

/-! ## L1 copies -/

/-- Whether a core's L1 is part of a fused L1 (R156). -/
def coreFused (s : State) (c : Nat) : Bool := s.blocks.any (fun b => b.2.hdr.fuse && b.2.cores.contains c)
/-- The core whose L1 holds a line for a core (R156). -/
def l1Core (s : State) (c line : Nat) : Nat := if coreFused s c then c / 4 * 4 + line % 4 else c
/-- Parts of a core's local store that no scratchpad holds (R154). -/
def l1Parts (k : Core) : Nat := 8 - (k.spads.map (fun x => x.2.parts)).foldl (· + ·) 0
/-- Sets of the L1 that holds a line, and the set of the line (R155, R156). -/
def l1Sets (s : State) (c : Nat) : Nat :=
  let n := 32 * l1Parts (getCore s c); if coreFused s c then 4 * n else n
def devLine (s : State) (line : Nat) : Nat := s.fab.chipid * 2 ^ 39 + line
/-- Device line of a device address, the device's own chip number standing for a local one. -/
def dlOf (s : State) (da : Nat) : Nat := if tgtOf s da = .remote then da / 128 else devLine s (lineOf (localOf da))
def l1SetOf (s : State) (c line : Nat) : Nat := devLine s line % l1Sets s c
/-- The copy of a line in an L1. -/
def l1Get (k : Core) (line : Nat) : Option L1Line := k.l1.find? (·.line = line)
/-- The copy of a line put first in an L1, replacing any. -/
def l1Put (k : Core) (x : L1Line) : Core := { k with l1 := x :: k.l1.filter (·.line ≠ x.line) }
def l1Del (k : Core) (line : Nat) : Core := { k with l1 := k.l1.filter (·.line ≠ line) }
/-- Dirty sectors of a copy written at the home. -/
def writeBack (s : State) (x : L1Line) : State :=
  if x.dirty = 0 then s
  else { s with mem :=
    { cells := cellsMerge s.mem.cells (x.line * 128) 128 (sectorMask x.dirty).toNat x.data.toNat,
      poison := poisonSet s.mem.poison x.line x.dirty x.poison } }
/-- A line evicted or dropped from an L1, its dirty sectors written back (R154, R158). -/
def l1Drop (s : State) (c line : Nat) : State :=
  match l1Get (getCore s c) line with
  | none => s
  | some x => modCore (writeBack s x) c (fun k => l1Del k line)
/-- An owned copy in an L1 other than `except` recalled: its dirty sectors are merged at the home and it stays SH (R161). -/
def recallFrom (s : State) (line c : Nat) : State :=
  match l1Get (getCore s c) line with
  | none => s
  | some x => if x.form = .ow then
      modCore (writeBack s x) c (fun k => { k with l1 := k.l1.map (fun y => if y.line = line then { y with form := .sh, dirty := 0 } else y) })
    else s
def recallOw (s : State) (line : Nat) (except : Option Nat) : State :=
  (tkeys s.cores).foldl (fun a c => if except = some c then a else recallFrom a line c) s
/-- SH and OW copies dropped everywhere but at `except` (R161). -/
def dropTracked (s : State) (line : Nat) (except : Option Nat) : State :=
  { s with cores := s.cores.map (fun x =>
      if except = some x.1 then x else (x.1, { x.2 with l1 := x.2.l1.filter (fun y => y.line ≠ line || y.form = .ut) })) }
/-- Copies of every form dropped everywhere; an owner's dirty sectors are merged first (R158). -/
def dropAll (s : State) (line : Nat) : State :=
  let s1 := recallOw s line none
  { s1 with cores := s1.cores.map (fun x => (x.1, { x.2 with l1 := x.2.l1.filter (·.line ≠ line) })) }
/-- UT copies of an L1 dropped (R175, R309). -/
def dropUt (k : Core) (which : Nat → Bool) : Core := { k with l1 := k.l1.filter (fun y => !(y.form = .ut && which y.line)) }
/-- UT copies dropped in the L1 of a core, or in the fused L1 (R156, R309). -/
def dropUtOf (s : State) (c : Nat) (which : Nat → Bool) : State :=
  if coreFused s c then (List.range 4).foldl (fun a i => modCore a (c / 4 * 4 + i) (dropUt · which)) s
  else modCore s c (dropUt · which)

/-! ## The home slices (R157, R158, R161) -/

/-- Lines resident in a set. -/
def llcLines (s : State) (line : Nat) : List (Nat × BitVec 4) := tgetD s.coh.sets (llcSet line) []
/-- A line forgotten by its slice. -/
def llcForget (s : State) (line : Nat) : State :=
  { s with coh := { s.coh with
      sets := tset s.coh.sets (llcSet line) ((llcLines s line).filter (·.1 ≠ line)),
      valid := tdel s.coh.valid line,
      window := tdel (tdel s.coh.window (2 * line)) (2 * line + 1),
      fabric := tdel s.coh.fabric line } }
/-- Sectors of the halves in which a sector is poisoned. -/
def halfPoison (p : BitVec 4) : BitVec 4 := (if p &&& 0x3 ≠ 0 then 0x3 else 0) ||| (if p &&& 0xC ≠ 0 then 0xC else 0)
/-- Poison of a line of the host window as the host keeps it: CXL carries it per half, so that a half with a poisoned sector has both (R125). -/
def hostPoison (s : State) (line : Nat) : State :=
  if line * 128 < 0x8000000000 || memPoison s line = 0 then s
  else { s with mem := { s.mem with poison := poisonSet s.mem.poison line (halfPoison (memPoison s line)) (halfPoison (memPoison s line)) } }
/-- A line evicted from its slice, a line of the host window back to the host (R125, R158). -/
def llcEvict (s : State) (line : Nat) : State := llcForget (hostPoison s line) line
/-- A line made the most recently used of its set, with some sectors dirty. -/
def llcTouch (s : State) (line : Nat) (d : BitVec 4) : State :=
  let l := llcLines s line
  let old := match l.find? (·.1 = line) with | some x => x.2 | none => 0
  { s with coh := { s.coh with sets := tset s.coh.sets (llcSet line) ((line, old ||| d) :: l.filter (·.1 ≠ line)) } }
/-- Sectors of a resident line valid or not (R121). -/
def llcValid (s : State) (line : Nat) (set clear : BitVec 4) : State :=
  { s with coh := { s.coh with valid := tset s.coh.valid line ((tgetD s.coh.valid line 0 ||| set) &&& ~~~clear) } }
/-- Whether a half has host state or a snoop in flight. -/
def halfBusy (s : State) (half : Nat) : Bool := (tget s.coh.host half).isSome || (tget s.coh.snoops half).isSome
/-- Whether the host or the fabric home slice may have a copy of a line, or a back-invalidation of it is in flight. -/
def lineBusy (s : State) (line : Nat) : Bool := halfBusy s (2 * line) || halfBusy s (2 * line + 1) || fabBusy s line true
/-- A line's copies at the host and in the fabric home slice back-invalidated (Table 5.8, R136). -/
def snoopLine (s : State) (line : Nat) : State :=
  let s1 := snoopAll s true ([2 * line, 2 * line + 1].filter (halfBusy s))
  if fabBusy s line true then fabSnoop s1 line false else s1
/-- Whether a request waits at a way's line (R158). -/
def wayPending (s : State) (line : Nat) : Bool := s.coh.holds.any (fun x => x.1 = line)
/-- Room for a line in its slice's set: a way may first have to be evicted, the least recently used of those with no request
pending, after its copies outside have been back-invalidated (R158). The flag says whether there is room now. -/
def llcRoom (s : State) (line : Nat) : State × Bool :=
  let l := llcLines s line
  if l.any (·.1 = line) || l.length < 16 then (s, true)
  else match (l.filter (fun x => !(wayPending s x.1))).getLast? with
    | none => (s, false)
    | some (v, _) => if lineBusy s v then (snoopLine s v, false) else (llcEvict (dropAll s v) v, true)

/-- Sectors that a fetch brings: of a line of HBM the touched halves and the other half unless the host owns it (R126), of a
host-window line the touched halves (R127). -/
def fillValid (s : State) (line : Nat) (m : LineMask) : BitVec 4 :=
  let hbm := decide (line * 128 < 0x8000000000)
  let half := fun (k : Nat) => bitsOf m.toNat (64 * k) 64 ≠ 0 || (hbm && halfClear s false (2 * line + k))
  (if half 0 then 0x3 else 0) ||| (if half 1 then 0xC else 0)
/-- Whether a request of an agent other than the line's own outside holder can be served now, with what it first sets going: row
sets that a lease holds, host halves to snoop, the fabric home slice, room in the slice (R15, R59, Table 5.8, R136, R158). A
request of the fabric home slice itself meets its own back-invalidation as a host request does (R128). -/
def homeAdmitBy (fab : Bool) (s : State) (line : Nat) (m : LineMask) (write : Bool) : State × Bool :=
  if heldLa s (line * 128) then (waitAt s line, false)
  else
    let hs := if line * 128 < 0x8000000000 then halvesOf line m else []
    if !(hs.all (halfClear s write)) then (waitAt (snoopAll s write hs) line, false)
    else if !fab && fabBusy s line write then (waitAt (fabSnoop s line (!write)) line, false)
    else
      let y := if fab then (match tget s.coh.fsnoops line with
          | some (0, k) => ({ s with coh := { s.coh with fsnoops := tset s.coh.fsnoops line (1, k) } }, true)
          | some _ => (waitAt s line, false)
          | none => (s, true))
        else (s, true)
      if !y.2 then y
      else
        let r := llcRoom y.1 line
        if r.2 then (llcValid (llcTouch r.1 line 0) line (fillValid r.1 line m) 0, true) else r
/-- A request of the device's own agents admitted at the home of a line. -/
def homeAdmit (s : State) (line : Nat) (m : LineMask) (write : Bool) : State × Bool := homeAdmitBy false s line m write
/-- The same for a load or store of a type: a .u request to the host window is an uncached read or write-through of CXL.cache and
allocates nothing (R127). -/
def admitType (t : MType) (s : State) (line : Nat) (m : LineMask) (write : Bool) : State × Bool :=
  if t = .u && line * 128 ≥ 0x8000000000 then (s, true) else homeAdmit s line m write

/-- The code with which an MWAIT of a group ends now, if it does (R373). -/
def monCode : Monitor → Option Nat
  | .armed _ => none
  | .triggered => some 0
  | .none => some 2
  | .lost => some 3
/-- The paths of a group that wait in MWAIT end their wait: the first with a code, the others NONE; the monitor is disarmed
(R373). -/
def wakePaths (g : Group) (c : Nat) : Group :=
  match g.paths.filterMap (fun p => match p.wait with | .mwait d _ => some d | _ => none) with
  | [] => g
  | d :: ds =>
    let g1 := ds.foldl (fun a x => sSet a x 2) (sSet g d (BitVec.ofNat 64 c))
    { g1 with monitor := .none, paths := g1.paths.map (fun p => match p.wait with | .mwait _ _ => { p with wait := .ready } | _ => p) }
/-- A group's MWAITs ended if its monitor says so; a TRIGGERED wake is an acquire at device scope (R373). -/
def settleMonitor (s : State) (gk : Nat) : State :=
  match tget s.groups gk with
  | none => s
  | some g =>
    if !(g.paths.any (fun p => match p.wait with | .mwait _ _ => true | _ => false)) then s
    else match monCode g.monitor with
      | none => s
      | some c =>
        let s1 := setGroup s gk (wakePaths g c)
        boundary (if c = 0 then dropUtOf s1 g.core (fun _ => true) else s1) gk
/-- Groups whose monitor waits on a line are triggered, and anchors on the line are due a scan (R335, R372). -/
def noteWrite (s : State) (line : Nat) : State :=
  let hit := (s.groups.filter (fun g => g.2.monitor = .armed line)).map Prod.fst
  let s1 := if hit.isEmpty then s
    else
      hit.foldl settleMonitor
        { s with
          coh := { s.coh with monitored := s.coh.monitored.map (fun x => (x.1, x.2.filter (· ≠ line))) },
          groups := s.groups.map (fun g => (g.1, { g.2 with monitor := if g.2.monitor = .armed line then .triggered else g.2.monitor })) }
  s1.esc.anch.foldl (fun a x =>
    if bitsOf x.2.toNat 0 1 = 1 && bitsOf x.2.toNat 7 39 = line then { a with esc := { a.esc with scans := natInsert a.esc.scans x.1 } } else a) s1

/-- The promotion record of a line cleared or set (R310). -/
def setRecord (s : State) (line : Nat) (r : Option (Nat × Nat × AScope)) : State :=
  { s with coh := { s.coh with records := match r with | none => tdel s.coh.records line | some x => tset s.coh.records line x } }

/-- The CXL.cache state of the halves that a request to the host window touches (R127). -/
def windowTake (s : State) (line : Nat) (m : LineMask) (own : Bool) : State :=
  if line * 128 < 0x8000000000 then s
  else (halvesOf line m).foldl (fun a h =>
    { a with coh := { a.coh with window := tset a.coh.window h (own || (tgetD a.coh.window h false)) } }) s

/-- A write served by the home slice (R161): the owner is recalled, other tracked copies drop, the bytes merge. `writer` is
the L1 of the writer, if a core's L1 wrote. -/
def homeWrite (s : State) (writer : Option Nat) (line : Nat) (m : LineMask) (d : Line) (p : BitVec 4) : State :=
  let s1 := dropTracked (recallOw s line writer) line writer
  let s2 := llcTouch (memMerge s1 line m d p) line (maskSectors m)
  noteWrite (setRecord s2 line none) line

/-- A read served by the home slice: an owner's dirty bytes are merged first (R161). -/
def homeRead (s : State) (line : Nat) : State := recallOw s line none

/-! ## Filling an L1 -/

/-- Room for a line in an L1's set: the least recently used copy is evicted (R155). -/
def l1Room (s : State) (c line : Nat) : State :=
  let k := getCore s c
  let same := k.l1.filter (fun x => l1SetOf s c x.line = l1SetOf s c line)
  if same.any (·.line = line) || same.length < 8 then s
  else match same.getLast? with
    | none => s
    | some x => l1Drop s c x.line

/-- A copy of a line fetched from the home into an L1 in a form, keeping what an owned copy of it has dirty (R159). -/
def l1Fill (s : State) (c line : Nat) (form : L1Form) (valid : BitVec 4) : State :=
  if l1Sets s c = 0 then s
  else
    let s1 := l1Room s c line
    let old := l1Get (getCore s1 c) line
    let dirty := match old with | some x => x.dirty | none => 0
    let kept := match old with | some x => if x.form = .ut then 0 else x.valid | none => 0
    let odata := match old with | some x => x.data | none => 0
    let opois := match old with | some x => x.poison | none => 0
    let data := overLine (memLine s1 line) (sectorMask dirty) odata
    let pois := (memPoison s1 line &&& ~~~dirty) ||| (opois &&& dirty)
    modCore s1 c (fun k => l1Put k { line := line, form := form, valid := valid ||| kept, dirty := dirty, poison := pois, data := data })

/-- Whether some other L1 holds a line as SH or OW (R159). -/
def otherHolds (s : State) (c line : Nat) : Bool :=
  s.cores.any (fun x => x.1 ≠ c && x.2.l1.any (fun y => y.line = line && y.form ≠ .ut))

/-- Whether a copy serves a load of a type (Table 7.1). -/
def formServes (t : MType) (f : L1Form) : Bool :=
  match t, f with
  | .s, _ => true
  | .o, .sh | .o, .ow | .w, .sh | .w, .ow => true
  | _, _ => false

/-- The copy that a load of a type hits, if any. -/
def l1Hit (s : State) (c : Nat) (t : MType) (line : Nat) (m : LineMask) : Option L1Line :=
  match l1Get (getCore s (l1Core s c line)) line with
  | some x => if formServes t x.form && (maskSectors m &&& ~~~x.valid) = 0 then some x else none
  | none => none

/-- A loaded line: its bytes and its poisoned sectors. -/
abbrev Got := Line × BitVec 4

/-- A load of a type by a core from a local line of memory, once it may be served: hit, or fetch and serve (Table 7.1, R161). -/
def lineLoad (s : State) (c : Nat) (t : MType) (line : Nat) (m : LineMask) : State × Got :=
  let k := l1Core s c line
  match l1Hit s c t line m with
  | some x => (modCore s k (fun y => l1Put y x), (x.data, x.poison))
  | none =>
    match t with
    | .u =>
      let s1 := homeRead s line; (s1, (memLine s1 line, memPoison s1 line))
    | .s =>
      let s1 := windowTake (recallOw s line (some k)) line m false
      let form := match l1Get (getCore s1 k) line with | some x => x.form | none => L1Form.ut
      let s2 := l1Fill s1 k line form (fillValid s1 line m)
      (s2, match l1Get (getCore s2 k) line with | some x => (x.data, x.poison) | none => (memLine s1 line, memPoison s1 line))
    | _ =>
      let alone := t = .o && !otherHolds s k line
      let own := match l1Get (getCore s k) line with | some x => x.form = .ow | none => false
      let s1 := windowTake (recallOw s line (some k)) line m false
      let s2 := l1Fill s1 k line (if alone || own then .ow else .sh) (fillValid s1 line m)
      let got := match l1Get (getCore s2 k) line with
        | some x => (x.data, x.poison)
        | none => (memLine s1 line, memPoison s1 line)
      (s2, got)

/-- Bytes written into the copies of a line in the writer's own L1, without making them dirty (Table 7.1). -/
def l1Update (s : State) (k line : Nat) (m : LineMask) (d : Line) : State :=
  modCore s k (fun c => { c with l1 := c.l1.map (fun x =>
    if x.line = line then { x with data := overLine x.data m d, poison := x.poison &&& ~~~(maskWhole m) } else x) })

/-- A store of type .o: the line is taken OW and the bytes written into the L1; with an L1 of 0 bytes it goes to the home
(R154, R159). -/
def lineStoreO (s : State) (c line : Nat) (m : LineMask) (d : Line) : State :=
  let k := l1Core s c line
  if l1Sets s k = 0 then homeWrite s none line m d 0
  else
    let s1 := windowTake (dropTracked (recallOw s line (some k)) line (some k)) line m true
    let s2 := llcTouch (l1Fill s1 k line .ow (fillValid s1 line m)) line (maskSectors m)
    let s3 := modCore s2 k (fun c => { c with l1 := c.l1.map (fun x =>
      if x.line = line then { x with data := overLine x.data m d, dirty := x.dirty ||| maskSectors m,
                                     poison := x.poison &&& ~~~(maskWhole m) } else x) })
    noteWrite (setRecord s3 line none) line

/-- A write through to the host's memory, which allocates nothing in the slice (R127). -/
def hostThrough (s : State) (writer : Option Nat) (line : Nat) (m : LineMask) (d : Line) : State :=
  noteWrite (setRecord (memMerge (dropTracked (recallOw s line writer) line writer) line m d 0) line none) line
/-- A write of an agent that is no L1, as the page's NC and the place say: a .u request to the host window is written through, any other is
merged at the home, which keeps the poison that it brings (R65, R123, R127, R162). -/
def homeStore (nc : Bool) (s : State) (line : Nat) (m : LineMask) (d : Line) (p : BitVec 4) : State :=
  if nc && line * 128 ≥ 0x8000000000 then
    let s1 := hostThrough s none line m d
    if p = 0 then s1
    else { s1 with mem := { s1.mem with poison := poisonSet s1.mem.poison line (halfPoison (maskSectors m &&& p)) (halfPoison (maskSectors m &&& p)) } }
  else homeWrite (windowTake s line m true) none line m d p
/-- A store that goes to the home slice at once, .w or .u (Table 7.1); the writer's own copy is updated. In the host window it
is a .u store, written through (R127). -/
def lineStoreHome (s : State) (c line : Nat) (m : LineMask) (d : Line) : State :=
  let k := l1Core s c line
  l1Update (if line * 128 < 0x8000000000 then homeWrite s (some k) line m d 0 else hostThrough s (some k) line m d) k line m d

/-! ## Store buffers (R160) -/

/-- The entry of a core's store buffer for a device line. -/
def sbGet (k : Core) (dl : Nat) : Option SbEntry := k.sb.find? (·.line = dl)
/-- Whether a device line is local. -/
def dlLocal (s : State) (dl : Nat) : Bool := dl / 2 ^ 39 = 0x3FFFF || dl / 2 ^ 39 = s.fab.chipid
/-- Bytes merged into a store buffer: later bytes replace earlier ones. -/
def sbMerge (s : State) (c dl : Nat) (m : LineMask) (d : Line) (g b : Nat) : State :=
  modCore s c (fun k =>
    let x := match sbGet k dl with
      | some x => { x with mask := x.mask ||| m, data := overLine x.data m d, groups := natInsert x.groups g, blocks := natInsert x.blocks b }
      | none => { line := dl, mask := m, data := overLine 0 m d, groups := [g], blocks := natInsert [] b, draining := false }
    { k with sb := x :: k.sb.filter (·.line ≠ dl) })
/-- An entry asked to drain. -/
def sbAsk (s : State) (c : Nat) (which : SbEntry → Bool) : State :=
  modCore s c (fun k => { k with sb := k.sb.map (fun x => if which x then { x with draining := true } else x) })

/-- Next sequence number of a pair (R138). -/
def fabKey (chip plane : Nat) : Nat := chip * 16 + plane
/-- Plane of a local address (R131). -/
def planeOf (la : Nat) : Nat := bitsOf la 7 4
/-- Whether a sequence number stands before another, modulo 2^32 (R138). -/
def snBefore (a b : Nat) : Bool := decide (a ≠ b ∧ (b + 2 ^ 32 - a) % 2 ^ 32 < 2 ^ 31)
/-- LOW of a pair: its lowest unretired SN; with none, the next one to be used (R139). -/
def pairLow (s : State) (chip plane : Nat) : Nat :=
  match s.fab.tx.filter (fun t => t.chip = chip && t.plane = plane) with
  | [] => tgetD s.fab.nextSn (fabKey chip plane) 0
  | t :: ts => ts.foldl (fun a x => if snBefore x.sn a then x.sn else a) t.sn
/-- A transaction entered in the replay buffer and sent with LOW (R138, R139). -/
def fabSend (s : State) (chip : Nat) (la : Nat) (req : FabReq) (o : FabOrigin) : State :=
  let p := planeOf la
  let sn := tgetD s.fab.nextSn (fabKey chip p) 0
  { s with fab := { s.fab with
      nextSn := tset s.fab.nextSn (fabKey chip p) ((sn + 1) % 2 ^ 32),
      tx := s.fab.tx ++ [{ chip := chip, plane := p, sn := sn, req := req, low := pairLow s chip p, origin := o, timer := s.time.now, resends := 0, reported := false }] } }
/-- The sequence number that the next transaction of a pair gets. -/
def fabNext (s : State) (chip la : Nat) : Nat := tgetD s.fab.nextSn (fabKey chip (planeOf la)) 0
/-- Whether the replay buffer takes one more transaction of a pair (R138). -/
def fabRoom (s : State) (chip la : Nat) : Bool :=
  (s.fab.tx.filter (fun x => x.plane = planeOf la)).length < 4096
    && (s.fab.tx.filter (fun x => x.plane = planeOf la && x.chip = chip)).length < 1024
/-- Whether it takes some more of a pair. -/
def fabRoomFor (s : State) (chip la n : Nat) : Bool :=
  (s.fab.tx.filter (fun x => x.plane = planeOf la)).length + n ≤ 4096
    && (s.fab.tx.filter (fun x => x.plane = planeOf la && x.chip = chip)).length + n ≤ 1024

/-- Calibre entry that routes a chip (R133). -/
def calOf (s : State) (chip : Nat) : W64 :=
  if bitsOf chip 10 8 = bitsOf s.fab.chipid 10 8 then tgetD s.fab.calm (bitsOf chip 0 10) 2 else tgetD s.fab.calp (bitsOf chip 10 8) 2
/-- Key of the entry that routes a chip: member, or 2,048 + pod. -/
def calKey (s : State) (chip : Nat) : Nat :=
  if bitsOf chip 10 8 = bitsOf s.fab.chipid 10 8 then bitsOf chip 0 10 else 2048 + bitsOf chip 10 8
/-- The code with which a request to a chip completes at its source, if it is never sent: ABSENT or NOEXT (R130, R133, R134,
R142). DESIGN CHOICE (log 120): while CHIPID is 0x3FFFF, when no fabric traffic is sent, a request completes at once with ABSENT. -/
def fabRefuse (s : State) (chip la : Nat) : Option Nat :=
  if s.fab.chipid = 0x3FFFF then some 1
  else if bitsOf (calOf s chip).toNat 0 1 = 0 then some 1
  else if bitsOf (calOf s chip).toNat 1 1 = 1 && s.fab.holdOut.contains (calKey s chip) then some 1
  else if (tget s.fab.links (planeOf la)).isNone then some 4
  else none

/-- An imprecise cause of a block's groups: the first event is kept, later ones counted (R381). -/
def impRaise (s : State) (block cause src : Nat) (info : W64) : State :=
  { s with groups := s.groups.map (fun g =>
      if g.2.block = block then
        (g.1, { g.2 with imp := some (match g.2.imp with
          | none => { cause := cause, src := src, info := info, count := 1 }
          | some i => { i with count := min (i.count + 1) 255 }) })
      else g) }
/-- The imprecise FABRIC cause of some blocks (R143). -/
def fabricTrap (s : State) (blocks : List Nat) (src chip code : Nat) : State :=
  blocks.eraseDups.foldl (fun a b => impRaise a b 13 src (BitVec.ofNat 64 (chip + code * 2 ^ 32))) s

/-- Whether two cores have one L1 (R156). -/
def l1Shared (s : State) (a b : Nat) : Bool := a = b || (coreFused s a && a / 4 = b / 4)
/-- A lane of a store that its L1 has taken for a release at core scope and not yet performed (R309). -/
def takenLane (w : MemWord) (a : LaneAcc) : Bool :=
  a.d1 = 1 && (match w.op, a.st with | .store _ _, .req _ _ _ => true | _, _ => false)
/-- Whether an L1 has taken a store, of another word than the one named, that is not yet performed: at a line, or at any. -/
def takenAt (s : State) (c : Nat) (but : Option Nat) (dl : Option Nat) : Bool :=
  s.groups.any (fun g => l1Shared s c g.2.core && g.2.words.any (fun w => some w.id ≠ but && w.lanes.any (fun x =>
    takenLane w x.2 && (match dl, x.2.st with | some k, .req da _ _ => dlOf s da = k | _, _ => true))))
/-- An entry of a store buffer drained now, if its home takes it: one write with its byte mask (R160). -/
def sbDrain (s : State) (c dl : Nat) : State × Bool :=
  match sbGet (getCore s c) dl with
  | none => (s, true)
  | some x =>
    let gone := fun (a : State) => modCore a c (fun k => { k with sb := k.sb.filter (·.line ≠ dl) })
    if dlLocal s dl then
      let line := dl % 2 ^ 39
      let r := homeAdmit s line x.mask true
      if r.2 then
        let k := l1Core r.1 c line
        (l1Update (gone (homeWrite (windowTake r.1 line x.mask true) (some k) line x.mask x.data 0)) k line x.mask x.data, true)
      else (sbAsk r.1 c (·.line = dl), false)
    else
      let chip := dl / 2 ^ 39
      let la := dl % 2 ^ 39 * 128
      match fabRefuse s chip la with
      | some code => (fabricTrap (gone s) x.blocks 4 chip code, true)
      | none =>
        if fabRoom s chip la then (gone (fabSend s chip la (.write la x.mask x.data 0 false) (.drain c x.groups x.blocks)), true)
        else (sbAsk s c (·.line = dl), false)
/-- Entries of a core drained, as many as can be now; whether none of them is left. -/
def sbDrainAll (s : State) (c : Nat) (which : SbEntry → Bool) : State × Bool :=
  let ls := ((getCore s c).sb.filter which).reverse
  ls.foldl (fun (a : State × Bool) x => let r := sbDrain a.1 c x.line; (r.1, a.2 && r.2)) (s, true)
/-- Room in a store buffer for a line: the least recently used entry drains first (R160). -/
def sbRoom (s : State) (c dl : Nat) : State × Bool :=
  let k := getCore s c
  if (sbGet k dl).isSome || k.sb.length < 64 then (s, true)
  else match k.sb.getLast? with
    | none => (s, true)
    | some x => sbDrain s c x.line

/-! ## Merge buffers (R147 to R149) -/

/-- The two's complement or floating combination of R147. `w` is the element width in bits of the value kept. -/
def redWidth : RedTy → Nat
  | .n32 | .s32 | .fp32 => 32
  | .n64 | .s64 | .fp64 => 64
  | .bf16 => 16
/-- comb of R147; a .bf16 value is combined as FP32. -/
def redComb (ty : RedTy) (op : RedOp) (x y : Nat) : Nat :=
  let w := redWidth ty
  let fp := fun (f : Fmt) =>
    match op with
    | .add => (fAdd f .rne x y).1
    | .min => (fMinMax f false x y).1
    | _ => (fMinMax f true x y).1
  match ty with
  | .fp32 | .bf16 => fp fmt32
  | .fp64 => fp fmt64
  | _ =>
    let sgn := ty = .s32 || ty = .s64
    let lt := if sgn then decide (toSigned w x < toSigned w y) else decide (x < y)
    match op with
    | .add => (x + y) % 2 ^ w
    | .min => if lt then x else y
    | .max => if lt then y else x
    | .and => Nat.land x y
    | .or => Nat.lor x y
    | .xor => Nat.xor x y
/-- How a value is applied to an element at its home (R149). -/
def redApply (ty : RedTy) (op : RedOp) (dest v : Nat) : Nat :=
  match ty with
  | .bf16 => (fConvert fmtB16 fmt32 .rne false (add32 (fConvert fmt32 fmtB16 .rne false dest).1 v)).1
  | _ => redComb ty op dest v

/-- An entry of a merge buffer asked to flush. -/
def mbAsk (s : State) (c : Nat) (which : MbEntry → Bool) : State :=
  modCore s c (fun k => { k with mb := k.mb.map (fun x => if which x then { x with flushed := true } else x) })
/-- Whether a core's merge buffer holds an entry. -/
def mbAny (s : State) (c : Nat) (which : MbEntry → Bool) : Bool := (getCore s c).mb.any which

/-! ## Scratchpads (R154, R163 to R166) -/

/-- The scratchpad of a block on a core. -/
def spadOf (s : State) (c b : Nat) : Option Spad := tget (getCore s c).spads b
def spadSize (s : State) (c b : Nat) : Nat := match spadOf s c b with | some x => x.parts * 32768 | none => 0
def spadRead (s : State) (c b off n : Nat) : Nat := match spadOf s c b with | some x => cellsRead x.bytes off n | none => 0
/-- Whether a span touches a poisoned sector of a scratchpad. -/
def spadPoison (s : State) (c b off n : Nat) : Bool :=
  match spadOf s c b with | some x => x.poison.any (fun k => off < 32 * k + 32 && 32 * k < off + n) | none => false
/-- A scratchpad changed. -/
def modSpad (s : State) (c b : Nat) (f : Spad → Spad) : State :=
  match spadOf s c b with
  | none => s
  | some x => modCore s c (fun k => { k with spads := tset k.spads b (f x) })
/-- Poisoned sectors left after a write of whole sectors (R163). -/
def spadClear (l : List Nat) (off n : Nat) : List Nat := l.filter (fun q => !(off ≤ 32 * q && 32 * q + 32 ≤ off + n))
/-- Bytes written in a scratchpad; `clear` when a sector written whole loses its poison (an engine's write, R163). -/
def spadWrite (s : State) (c b off n v : Nat) (clear : Bool) : State :=
  modSpad s c b (fun x => { x with
    bytes := cellsWrite x.bytes off n v
    poison := if clear then spadClear x.poison off n else x.poison })
/-- A sector of a scratchpad poisoned. -/
def spadSetPoison (s : State) (c b sec : Nat) : State := modSpad s c b (fun x => { x with poison := natInsert x.poison sec })
/-- Offset and size of each declared buffer of a launch, in order (R164). -/
def bufSpans : List Nat → Nat → List (Nat × Nat)
  | [], _ => []
  | u :: t, o => (o, u * 128) :: bufSpans t (o + u * 128)
def bufsOf (h : LaunchHdr) : List (Nat × Nat) := bufSpans h.bufs 0
/-- The buffers of a block that a span of its scratchpad touches. -/
def bufsTouched (h : LaunchHdr) (off n : Nat) : List Nat :=
  ((bufsOf h).zipIdx.filter (fun x => off < x.1.1 + x.1.2 && x.1.1 < off + n)).map (·.2)
/-- State of a buffer instance (R164, R165). -/
def bufState (b : Block) (c n : Nat) : BufSt := tgetD b.bufs (c * 16 + n) .empty
def bufCode : BufSt → Nat | .empty => 0 | .filling => 1 | .full => 2 | .draining => 3
def bufLoadOk : BufSt → Bool | .full | .draining => true | _ => false
def bufStoreOk : BufSt → Bool | .empty | .full => true | _ => false
def setBuf (s : State) (b c n : Nat) (x : BufSt) : State := modBlock s b (fun k => { k with bufs := tset k.bufs (c * 16 + n) x })

/-! ## Private regions (R316, R317) -/

/-- The open region of a block on a core that a virtual address lies in. -/
def regionAt (s : State) (c b : Nat) (va : Nat) : Option Nat :=
  ((List.range 4).find? (fun h => match tget (getCore s c).regions h with
    | some r => r.block = b && r.base ≤ va && va < r.base + r.size
    | none => false))
/-- The core that keeps the regions of a block: the first core of a fused cluster, else the core itself (R316). -/
def regionCore (s : State) (c : Nat) : Nat := if coreFused s c then c / 4 * 4 else c
/-- Private bytes of a block for a line, merged over what a load would return (R317). -/
def privOver (s : State) (c b line : Nat) (d : Line) : Line :=
  ((getCore s (regionCore s c)).regions.filter (fun r => r.2.block = b)).foldl (fun a r =>
    match tget r.2.lines line with | some (m, x) => overLine a m x | none => a) d
/-- Invisible lines a home slice holds: shadow lines and private bytes evicted to it (R195, R317). -/
def hiddenCount (s : State) (slice : Nat) : Nat :=
  let sh := (s.clusters.map (fun c => (c.2.shadow.map (fun x => (x.2.filter (fun l => homeSlice l.1 = slice)).length)).foldl (· + ·) 0)).foldl (· + ·) 0
  let pr := (s.cores.map (fun c => (c.2.regions.map (fun r => (r.2.atHome.filter (fun l => homeSlice l = slice)).length)).foldl (· + ·) 0)).foldl (· + ·) 0
  sh + pr
/-- Private lines that stand in an L1's set. -/
def privInSet (s : State) (c rc line : Nat) : List (Nat × Nat) :=
  ((getCore s rc).regions.map (fun r => ((r.2.lines.filter (fun l =>
    !(r.2.atHome.contains l.1) && l1Core s c l.1 = l1Core s c line && l1SetOf s c l.1 = l1SetOf s c line && l.1 ≠ line)).map
      (fun l => (r.1, l.1))))).flatten
/-- A region of a core changed. -/
def modRegion (s : State) (c h : Nat) (f : Region → Region) : State :=
  match tget (getCore s c).regions h with
  | none => s
  | some r => modCore s c (fun k => { k with regions := tset k.regions h (f r) })
/-- Private bytes of a line merged into a region. -/
def regionPut (r : Region) (line : Nat) (m : LineMask) (d : Line) : Region :=
  let o := tgetD r.lines line (0, 0)
  { r with
    lines := tset r.lines line (o.1 ||| m, overLine o.2 m d)
    atHome := r.atHome.filter (· ≠ line) }
/-- Private bytes of a line written visibly, because the home slice can hold no more invisible lines; EARLY is set (R317). The
write waits as any write does: false while its home does not take it (R15, R59). -/
def privSpill (s : State) (rc h line : Nat) : State × Bool :=
  match tget (getCore s rc).regions h with
  | none => (s, true)
  | some r =>
    let x := tgetD r.lines line (0, 0)
    let a := homeAdmit s line x.1 true
    if a.2 then (modRegion (homeWrite a.1 none line x.1 x.2 0) rc h (fun r => { r with lines := tdel r.lines line, early := true }), true) else a
/-- Private bytes of a line that the L1 evicts: held at the home slice as invisible bytes, or written visibly when the slice is
full (R317). -/
def privEvict (s : State) (rc h line : Nat) : State × Bool :=
  if hiddenCount s (homeSlice line) < 512 then (modRegion s rc h (fun r => { r with atHome := natInsert r.atHome line }), true)
  else privSpill s rc h line
/-- The private line that the L1 evicts for one more line in its set, if private lines fill the set (R317). -/
def privVictim (s : State) (c rc line : Nat) : Option (Nat × Nat) :=
  if (privInSet s c rc line).length < 8 then none else (privInSet s c rc line).head?
/-- A private store: bytes kept in the region; when private lines fill a whole set, one is evicted first; an L1 of 0 bytes keeps
none (R154, R317). The flag says whether the store has been taken. -/
def privStore (s : State) (c h line : Nat) (m : LineMask) (d : Line) : State × Bool :=
  let rc := regionCore s c
  let put := fun (a : State) => modRegion a rc h (fun r => regionPut r line m d)
  if l1Sets s (l1Core s c line) = 0 then
    let r := privEvict (put s) rc h line
    if r.2 then r else ((homeAdmit s line m true).1, false)
  else match privVictim s c rc line with
    | none => (put s, true)
    | some v =>
      let r := privEvict s rc v.1 v.2
      (if r.2 then put r.1 else r.1, r.2)

end Sys2Proof.Machine
end

