-- ==== Sys2Proof/Machine/Translate.lean ====
section
/-! DEFINITION. Translation: page-table walks and their outcomes (R110 to R113, Table 5.4), the translation caches (R114 to
R116), the checks of a translated address (R109, R162), and whole accesses by translated address, as parameter blocks,
frames and engines make them (R311, R383, R452). -/

namespace Sys2Proof.Machine

/-- Memory sub-causes (Table 15.2). -/
def scNotMapped : Nat := 1
def scBadPte : Nat := 2
def scPtePoison : Nat := 3
def scWrite : Nat := 4
def scNoAddr : Nat := 5
def scType : Nat := 6
def scDeferred : Nat := 7
def scNonCanon : Nat := 8
def scPoison : Nat := 9
def scMisalign : Nat := 10
def scSpRange : Nat := 11
def scBufState : Nat := 12
def scRemote : Nat := 13

/-- First address bit of a level's index (Table 5.2), which is also the page size of a leaf there. -/
def levelShift : Nat → Nat
  | 0 => 16
  | 1 => 21
  | 2 => 30
  | 3 => 39
  | _ => 48
/-- Index bits of a level (Table 5.2). -/
def levelBits : Nat → Nat
  | 0 => 5
  | _ => 9

/-- What a walk ends with. -/
inductive WalkRes where
  | fault (sub : Nat)
  | leaf (e : TlbEntry)
  /-- A table line is held by a lease or a snoop (R113). -/
  | held (line : Nat)

/-- A table entry read as a relaxed load at its home, without L1 allocation (R113): none while it is held. -/
def pteRead (s : State) (la : Nat) : State × Option (Nat × Bool) :=
  let line := lineOf la
  let r := homeAdmit s line (spanMask (la % 128) 8) false
  if r.2 then
    let s1 := homeRead r.1 line
    (s1, some (lineRead (memLine s1 line) (la % 128) 8, (memPoison s1 line &&& spanSectors (la % 128) 8) ≠ 0))
  else (r.1, none)

/-- Whether a valid entry at a level breaks Tables 5.3a and 5.3b (BADPTE of Table 5.4). -/
def pteBad (level p : Nat) : Bool :=
  if bitsOf p 1 1 = 0 then
    level = 0 || bitsOf p 46 18 ≠ 0 || bitsOf p 2 6 ≠ 0 || (level ≥ 2 && bitsOf p 8 4 ≠ 0) || bitsOf p 8 38 * 256 ≥ 0x8000000000
  else
    level ≥ 3 || bitsOf p 4 12 ≠ 0 || (level = 1 && bitsOf p 16 5 ≠ 0) || (level = 2 && bitsOf p 16 14 ≠ 0)

/-- Room in a bounded list, most recent first. -/
def putFront {α : Type} (n : Nat) (x : α) (l : List α) : List α := (x :: l).take n

def walkList (s : State) (die : Nat) : List WalkEntry := if die = 0 then s.xl.walk0 else s.xl.walk1
def dieTlb (s : State) (die : Nat) : List TlbEntry := if die = 0 then s.xl.dieTlb0 else s.xl.dieTlb1
def pendList (s : State) (die : Nat) : List Nat := if die = 0 then s.xl.pend0 else s.xl.pend1
def setWalk (s : State) (die : Nat) (l : List WalkEntry) : State :=
  { s with xl := if die = 0 then { s.xl with walk0 := l } else { s.xl with walk1 := l } }
def setDieTlb (s : State) (die : Nat) (l : List TlbEntry) : State :=
  { s with xl := if die = 0 then { s.xl with dieTlb0 := l } else { s.xl with dieTlb1 := l } }
def setPend (s : State) (die : Nat) (l : List Nat) : State :=
  { s with xl := if die = 0 then { s.xl with pend0 := l } else { s.xl with pend1 := l } }

/-- A walk from a level's table down (R110 to R112); table entries go into the walk cache. -/
def walkAt (die va : Nat) : Nat → State → Nat → State × WalkRes
  | level, s, table =>
    match level with
    | 0 => step0 s table 0
    | n + 1 =>
      let r := entry s table (n + 1)
      match r.2 with
      | none => (r.1, .held (heldAt table (n + 1)))
      | some (p, pois) =>
        if pois then (r.1, .fault scPtePoison)
        else if bitsOf p 0 1 = 0 then (r.1, .fault scNotMapped)
        else if pteBad (n + 1) p then (r.1, .fault scBadPte)
        else if bitsOf p 1 1 = 1 then (r.1, .leaf (leafOf p (n + 1)))
        else
          let next := bitsOf p 8 38 * 256
          let s1 := setWalk r.1 die (putFront 1024 ⟨n + 1, va / 2 ^ levelShift (n + 1), next⟩ (walkList r.1 die))
          walkAt die va n s1 next
where
  /-- The entry of a table for the address. -/
  entry (s : State) (table level : Nat) : State × Option (Nat × Bool) :=
    pteRead s (table + 8 * bitsOf va (levelShift level) (levelBits level))
  /-- Line of that entry. -/
  heldAt (table level : Nat) : Nat := lineOf (table + 8 * bitsOf va (levelShift level) (levelBits level))
  /-- The translation that a leaf gives. -/
  leafOf (p level : Nat) : TlbEntry :=
    { va := va / 2 ^ levelShift level * 2 ^ levelShift level, bits := levelShift level, da := bitsOf p 16 48 * 65536,
      w := bitsOf p 2 1 = 1, nc := bitsOf p 3 1 = 1 }
  /-- The last level, which holds leaves only. -/
  step0 (s : State) (table level : Nat) : State × WalkRes :=
    let r := entry s table level
    match r.2 with
    | none => (r.1, .held (heldAt table level))
    | some (p, pois) =>
      if pois then (r.1, .fault scPtePoison)
      else if bitsOf p 0 1 = 0 then (r.1, .fault scNotMapped)
      else if pteBad level p then (r.1, .fault scBadPte)
      else (r.1, .leaf (leafOf p level))

/-- EN of PTBASE (Table 5.3). -/
def xlOn (s : State) : Bool := s.xl.ptbase.getLsbD 0
/-- A walk from the deepest hit of the walk cache or from the root (R111, R116). -/
def walkFrom (s : State) (die va : Nat) : State × WalkRes :=
    let hit := fun (k : Nat) => (walkList s die).find? (fun e => e.level = k && e.prefix_ = va / 2 ^ levelShift k)
    match hit 1, hit 2, hit 3, hit 4 with
    | some e, _, _, _ => walkAt die va 0 s e.next
    | none, some e, _, _ => walkAt die va 1 s e.next
    | none, none, some e, _ => walkAt die va 2 s e.next
    | none, none, none, some e => walkAt die va 3 s e.next
    | none, none, none, none => walkAt die va 4 s (bitsOf s.xl.ptbase.toNat 12 34 * 4096)
/-- A whole walk. While EN is 0 it faults (Table 5.3); table entries of a walk that faulted stay in no cache (R114). -/
def walk (s : State) (die va : Nat) : State × WalkRes :=
  if !(xlOn s) then (s, .fault scNotMapped)
  else
    let r := walkFrom s die va
    match r.2 with
    | .leaf _ => r
    | o => ({ r.1 with xl := s.xl }, o)

/-- The entry of a cache that covers an address. -/
def tlbFind (l : List TlbEntry) (va : Nat) : Option TlbEntry := l.find? (fun e => va / 2 ^ e.bits * 2 ^ e.bits = e.va)
/-- Set of the die TLB's array of a page size that an entry belongs to: 1,024, 512 and 512 sets, by page number (Table 5.5; the
number that selects the set is the model's choice, log 5). -/
def dieTlbSet (e : TlbEntry) : Nat := e.va / 2 ^ e.bits % (if e.bits = 16 then 1024 else 512)
/-- An entry put in the die TLB, which is 8-way: 8,192, 4,096 and 4,096 entries by page size (Table 5.5). -/
def dieTlbPut (l : List TlbEntry) (e : TlbEntry) : List TlbEntry :=
  let rest := l.filter (fun x => !(x.bits = e.bits && x.va = e.va))
  let same := rest.filter (fun x => x.bits = e.bits && dieTlbSet x = dieTlbSet e)
  e :: (match (if same.length < 8 then none else same.getLast?) with
    | some v => rest.filter (fun x => !(x.bits = v.bits && x.va = v.va))
    | none => rest)
/-- A translation entered in a die's cache. -/
def fillDie (s : State) (die : Nat) (e : TlbEntry) : State := setDieTlb s die (dieTlbPut (dieTlb s die) e)
/-- A translation entered in a core's TLB of 128 entries. -/
def fillCore (s : State) (c : Nat) (e : TlbEntry) : State :=
  modCore s c (fun k => { k with tlb := putFront 128 e (k.tlb.filter (fun x => !(x.va = e.va && x.bits = e.bits))) })

/-- A cached translation of a die; none is used while EN is 0 (Table 5.3). -/
def dieLook (s : State) (die va : Nat) : Option TlbEntry := if xlOn s then tlbFind (dieTlb s die) va else none
/-- A cached translation for a core: its TLB, then its die's. -/
def tlbLook (s : State) (c va : Nat) : Option TlbEntry :=
  match (if xlOn s then tlbFind (getCore s c).tlb va else none) with
  | some e => some e
  | none => dieLook s (dieOfCore c) va

/-- Virtual page of 64 KiB (R115). -/
def vpageOf (va : Nat) : Nat := va / 65536
/-- A request for a page entered among the pending pages of a die (R115, R116). -/
def askPage (s : State) (die vp : Nat) : State :=
  if (pendList s die).contains vp then s else setPend s die (pendList s die ++ [vp])
/-- Whether a die takes one more request for a page: it is pending already, or fewer than 1,024 are (R116). -/
def pageRoom (s : State) (die vp : Nat) : Bool := (pendList s die).contains vp || (pendList s die).length < 1024

/-- Whether an address is canonical (R107). -/
def canonical (va : Nat) : Bool := va < 2 ^ 57
/-- Device address of an address under a translation; chip 0x3FFFF stays as it is (R108). -/
def daOf (e : TlbEntry) (va : Nat) : Nat := e.da + va % 2 ^ e.bits

/-- A translation made now, through an agent's caches or by a walk. -/
inductive Xlat where
  | ok (e : TlbEntry)
  | fault (sub : Nat)
  | wait

/-- Translation for a core (`some`), or for an agent of a die that is no core. A miss joins the walk of its page when one is
pending, walks at once when a walker is free, and waits among the pending pages otherwise (R115, R116). -/
def xlateNow (s : State) (core : Option Nat) (die va : Nat) : State × Xlat :=
  if !(canonical va) then (s, .fault scNonCanon)
  else if !(xlOn s) then (s, .fault scNotMapped)
  else
    let found := match core with
      | some c => tlbLook s c va
      | none => dieLook s die va
    match found with
    | some e => (s, .ok e)
    | none =>
      if (pendList s die).contains (vpageOf va) then (s, .wait)
      else if (pendList s die).length ≥ 128 then (if pageRoom s die (vpageOf va) then askPage s die (vpageOf va) else s, .wait)
      else
        let r := walk s die va
        match r.2 with
        | .fault sub => (r.1, .fault sub)
        | .held _ => (r.1, .wait)
        | .leaf e =>
          let s1 := fillDie r.1 die e
          (match core with | some c => fillCore s1 c e | none => s1, .ok e)

/-- The checks of a translated address that follow the leaf: WRITE, NOADDR, TYPE (Table 5.4, R109, R162). `regOk` when the
access is a .u request of 8 bytes aligned to 8. -/
def daCheck (s : State) (e : TlbEntry) (va : Nat) (write regOk : Bool) : Option Nat :=
  if write && !e.w then some scWrite
  else match tgtOf s (daOf e va) with
    | .hole => some scNoAddr
    | .reg => if regOk then none else some scType
    | _ => none

/-! ## Whole accesses -/

/-- What an access by an engine, a frame or a parameter block comes to. -/
inductive Acc where
  | ok (v : Nat)
  /-- Bytes came, but touch poisoned sectors (a mask of the line's sectors). -/
  | poison (v : Nat) (p : BitVec 4)
  | fault (sub : Nat)
  /-- A fabric code other than OK (Table 6.3). -/
  | remote (code : Nat)
  | wait

/-- A core's own buffered bytes for a line drained and flushed, and the stores that its L1 has taken performed, before another access to it
(R148, R160, R309): false while one has to wait. -/
def ownBuffers (s : State) (c dl : Nat) (but : Option Nat := none) : State × Bool :=
  let r := if takenAt s c but (some dl) then (s, false) else sbDrain s c dl
  if !r.2 then r else
  if mbAny r.1 c (·.line = dl) then (mbAsk r.1 c (·.line = dl), false) else r

/-- The block of the group in focus on a core, whose private bytes a parameter block's load sees (R317, R452). -/
def focusBlock (s : State) (c : Nat) : Option Nat :=
  match s.focus with
  | none => none
  | some f => match tget s.groups f.1 with | some g => if g.core = c then some g.block else none | none => none
/-- Base of the names under which commands of engines read spans. -/
def engineKey : Nat := 2 ^ 41
/-- Who reads a span: a core, for the group in focus there, or an agent of a die, for the command in focus. -/
def accOrigin (s : State) (core : Option Nat) (die va n : Nat) : FabOrigin :=
  .acc core (match core with
    | some c => (match focusBlock s c with | some _ => s.focus.map Prod.fst | none => none)
    | none => (match s.focus with | some f => if f.1 ≥ engineKey then some f.1 else none | none => none)) die va n
/-- Something done while a command of an engine is in focus, so that what it reads is kept for that command alone. -/
def forEngine {α : Type} (s : State) (id : Nat) (f : State → State × α) : State × α :=
  let r := f { s with focus := some (engineKey + id, 0) }
  ({ r.1 with focus := s.focus }, r.2)
/-- Poisoned sectors that an answer with code POISON names among those touched (R123). -/
def ansPoison (a : FabAns) (touched : BitVec 4) : BitVec 4 := if a.poison &&& touched = 0 then touched else a.poison &&& touched
/-- Transactions sent since there were `n` given an origin. -/
def txMark (s : State) (n : Nat) (o : FabOrigin) : State :=
  { s with fab := { s.fab with tx := s.fab.tx.take n ++ (s.fab.tx.drop n).map (fun t => if t.origin = .unit then { t with origin := o } else t) } }
/-- A read of a span of another device's line: the answer that has come, or a transaction asked for it (R138, R142). -/
def accRemote (s : State) (o : FabOrigin) (da n : Nat) (nc : Bool) : State × Acc :=
  let la := localOf da
  match s.fab.reads.find? (fun x => x.1 = o) with
  | some x =>
    (s, if x.2.code = 0 then .ok (bitsOf x.2.data.toNat 0 (8 * n))
      else if x.2.code = 3 then .poison (bitsOf x.2.data.toNat 0 (8 * n)) (ansPoison x.2 (spanSectors (la % 128) n))
      else .remote x.2.code)
  | none =>
    if s.fab.tx.any (fun t => t.origin = o) then (s, .wait)
    else match fabRefuse s (chipOf da) la with
      | some code => (s, .remote code)
      | none => if fabRoom s (chipOf da) la then (fabSend s (chipOf da) la (.read la n nc) o, .wait) else (s, .wait)
/-- The answers that whoever reads a span has taken are kept no longer. -/
def readsTaken (s : State) (core : Option Nat) (die : Nat) (ps : List (Nat × Nat)) : State :=
  if s.fab.reads.isEmpty then s
  else { s with fab := { s.fab with reads := s.fab.reads.filter (fun x => !(ps.any (fun p => x.1 = accOrigin s core die p.1 p.2))) } }

/-- The code other than OK with which the host answers an access to a line of its window (Table 8.5, R337, R382). -/
def hostFails (s : State) (la : Nat) : Option Nat := if la < 0x8000000000 then none else tget s.mgmt.hostCodes (lineOf la)
/-- A read of `n` bytes within one line at an address under a translation. -/
def accReadAt (s : State) (core : Option Nat) (die : Nat) (e : TlbEntry) (va n : Nat) : State × Acc :=
  match daCheck s e va false false with
  | some sub => (s, .fault sub)
  | none =>
    let da := daOf e va
    let la := localOf da
    let m := spanMask (la % 128) n
    match tgtOf s da with
    | .remote =>
      let b := match core with | some c => ownBuffers s c (da / 128) | none => (s, true)
      if b.2 then accRemote b.1 (accOrigin s core die va n) da n e.nc else (b.1, .wait)
    | _ =>
      let line := lineOf la
      let b := match core with | some c => ownBuffers s c (devLine s line) | none => (s, true)
      if !b.2 then (b.1, .wait)
      else match hostFails b.1 la with
      | some code => (b.1, .remote code)
      | none =>
        let t := if e.nc then MType.u else .o
        let h := match core with
          | some c => if (l1Hit b.1 c t line m).isSome then b else admitType t b.1 line m false
          | none => admitType t b.1 line m false
        if !h.2 then (h.1, .wait)
        else
          let got := match core with
            | some c => lineLoad h.1 c t line m
            | none => let s1 := homeRead h.1 line; let s2 := if e.nc then s1 else windowTake s1 line m false; (s2, (memLine s2 line, memPoison s2 line))
          let d := match core with
            | some c => (match focusBlock s c with
              | some b => if tgtOf s da = .hbm && !e.nc then privOver got.1 c b line got.2.1 else got.2.1
              | none => got.2.1)
            | none => got.2.1
          let v := lineRead d (la % 128) n
          let p := got.2.2 &&& spanSectors (la % 128) n
          (got.1, if p = 0 then .ok v else .poison v p)

/-- A read of `n` bytes within one line, as a relaxed load of type .o: by a core through its L1, or by another agent at the
home slice (R311). -/
def accRead (s : State) (core : Option Nat) (die va n : Nat) : State × Acc :=
  let r := xlateNow s core die va
  match r.2 with
  | .fault sub => (r.1, .fault sub)
  | .wait => (r.1, .wait)
  | .ok e => accReadAt r.1 core die e va n

/-- A write of `n` bytes within one line: by a core as a store of type .o, by another agent at the home slice. `p` are the
sectors that carry poison (R65). -/
def accWrite (s : State) (core : Option Nat) (die va n v : Nat) (p : BitVec 4) (regOk : Bool) : State × Acc :=
  let r := xlateNow s core die va
  match r.2 with
  | .fault sub => (r.1, .fault sub)
  | .wait => (r.1, .wait)
  | .ok e =>
    match daCheck r.1 e va true regOk with
    | some sub => (r.1, .fault sub)
    | none =>
      let da := daOf e va
      let la := localOf da
      let m := spanMask (la % 128) n
      let d := lineAt (la % 128) n v
      match tgtOf r.1 da with
      | .remote =>
        let b := match core with | some c => ownBuffers r.1 c (da / 128) | none => (r.1, true)
        if !b.2 then (b.1, .wait)
        else match fabRefuse b.1 (chipOf da) la with
        | some code => (b.1, .remote code)
        | none =>
          if fabRoom b.1 (chipOf da) la then (fabSend b.1 (chipOf da) la (.write la m d p e.nc) .unit, .ok 0) else (b.1, .wait)
      | _ =>
        let line := lineOf la
        let b := match core with | some c => ownBuffers r.1 c (devLine r.1 line) | none => (r.1, true)
        if !b.2 then (b.1, .wait)
        else match hostFails b.1 la with
        | some code => (b.1, .remote code)
        | none =>
          let h := admitType (if e.nc then .u else .o) b.1 line m true
          if !h.2 then (h.1, .wait)
          else match core with
            | some c => (if e.nc then lineStoreHome h.1 c line m d else lineStoreO h.1 c line m d, .ok 0)
            | none => (homeStore e.nc h.1 line m d p, .ok 0)

/-- Pieces of a span cut at every 128-byte boundary: address and length, and the bytes before it. `k` bounds the pieces. -/
def pieces : Nat → Nat → Nat → Nat → List (Nat × Nat × Nat)
  | 0, _, _, _ => []
  | k + 1, va, n, o =>
    if n = 0 then []
    else
      let m := min n (128 - va % 128)
      (va, m, o) :: pieces k (va + m) (n - m) (o + m)

/-- A read of a span of any length, piece by piece in ascending order; the first piece that fails is the outcome. A poisoned
sector is reported as sub-cause POISON. -/
def spanRead (s : State) (core : Option Nat) (die va n : Nat) : State × Acc :=
  let ps := pieces (n / 128 + 2) va n 0
  let r := ps.foldl (fun (a : State × Acc) x =>
    match a.2 with
    | .ok v =>
      let r := accRead a.1 core die x.1 x.2.1
      match r.2 with
      | .ok w => (r.1, .ok (v + w * 2 ^ (8 * x.2.2)))
      | .poison _ _ => (r.1, .fault scPoison)
      | o => (r.1, o)
    | _ => a) (s, .ok 0)
  match r.2 with
  | .wait => r
  | o => (readsTaken r.1 core die (ps.map (fun x => (x.1, x.2.1))), o)

/-- A write of a span of any length, piece by piece. -/
def spanWrite (s : State) (core : Option Nat) (die va n v : Nat) : State × Acc :=
  (pieces (n / 128 + 2) va n 0).foldl (fun (a : State × Acc) x =>
    match a.2 with
    | .ok _ => accWrite a.1 core die x.1 x.2.1 (bitsOf v (8 * x.2.2) (8 * x.2.1)) 0 false
    | _ => a) (s, .ok 0)

/-- A read of a parameter block at a word (R452): its alignment, its translation, its poison; `f` goes on with the block. A
code of another device that is not OK is reported as a fault REMOTE (log 17). -/
def withBlock (cx : Ctx) (s : State) (va : W64) (align n : Nat) (f : State → Nat → WRes) : WRes :=
  if va.toNat % align ≠ 0 then memTrap cx scMisalign va
  else
    let r := spanRead s (some cx.grp.core) (dieOfCore cx.grp.core) va.toNat n
    match r.2 with
    | .ok v => f r.1 v
    | .poison _ _ => memTrap cx scPoison va
    | .fault sub => memTrap cx sub va
    | .remote _ => memTrap cx scRemote va
    | .wait => .stall r.1

end Sys2Proof.Machine
end

