-- ==== Sys2Proof/Machine/Regs.lean ====
section
/-! DEFINITION. The register window (R109): what each register reads as, and what writing it does: translation (R111, R120),
the calibre table and identity (R133), anchors (R334, R335), traps and contexts (R386), management (R397), DVFS (R406). An
offset that no table names reads 0 and ignores writes (log 18). -/

namespace Sys2Proof.Machine

/-- A new 64-bit value of a register whose RW bits are `rw`. -/
def rwPart (rw old v : W64) : W64 := (old &&& ~~~rw) ||| (v &&& rw)

/-! ## Translation registers -/

/-- PERR set (R111, R120). -/
def setPerr (s : State) : State := { s with xl := { s.xl with perr := true } }
/-- BUSY of XLSTAT (R120). -/
def xlBusy (s : State) : Bool := !(s.xl.invq0.isEmpty && s.xl.invq1.isEmpty && s.xl.waiting.isEmpty)
/-- Whether an XLINV value is dropped (Table 5.6). -/
def xlinvBad (v : W64) : Bool :=
  let n := v.toNat
  bitsOf n 57 7 ≠ 0 || bitsOf n 2 14 ≠ 0 || (bitsOf n 0 2 = 1 && bitsOf n 16 5 ≠ 0) || (bitsOf n 0 2 = 2 && bitsOf n 16 14 ≠ 0)
/-- A write to XLINV: dropped with PERR, or queued on every die; false while a queue is full (R120). -/
def xlinvTake (s : State) (v : W64) : State × Bool :=
  if xlinvBad v then (setPerr s, true)
  else if s.xl.invq0.length ≥ 16 || s.xl.invq1.length ≥ 16 then (s, false)
  else
    let q := (bitsOf v.toNat 16 41 * 65536, bitsOf v.toNat 0 2)
    ({ s with xl := { s.xl with invq0 := s.xl.invq0 ++ [q], invq1 := s.xl.invq1 ++ [q] } }, true)
/-- A write to XLSTAT: PERR is W1C. -/
def xlstatTake (s : State) (v : W64) : State :=
  if v.getLsbD 1 then { s with xl := { s.xl with perr := false } } else s
/-- A write to PTBASE: dropped with PERR while a group is resident, or for a root outside HBM (R111). -/
def ptbaseTake (s : State) (v : W64) : State :=
  if !s.groups.isEmpty || bitsOf v.toNat 12 34 * 4096 ≥ 0x8000000000 then setPerr s
  else { s with xl := { s.xl with ptbase := v &&& 0x00003FFFFFFFF001 } }

/-! ## Anchors -/

/-- Interface versions selected (Table 16.2): launch-header, bank-program and firmware fields of VERSEL. -/
def selLh (s : State) : Nat := bitsOf s.mgmt.versel.toNat 32 16
def selBp (s : State) : Nat := bitsOf s.mgmt.versel.toNat 48 16
def selFw (s : State) : Nat := bitsOf s.mgmt.versel.toNat 0 16
/-- A write to ANCH[k] (Table 13.3): EN keeps its value while no launch-header version is selected (R397); a rise of EN asks
for one scan (R335). -/
def anchorTake (s : State) (k : Nat) (v : W64) : State :=
  let old := tgetD s.esc.anch k 0
  let nv := rwPart (if selLh s = 0 then 0x00003FFFFFFFFF80 else 0x00003FFFFFFFFF81) old v
  { s with esc := { s.esc with
      anch := tset s.esc.anch k nv
      scans := if nv.getLsbD 0 && !old.getLsbD 0 then natInsert s.esc.scans k else s.esc.scans } }

/-! ## Fabric registers -/

/-- A write to CALM[i] or CALP[j] (Table 6.1). A fall of DOWN with a new GEN is answered in Machine/Fabric.lean. -/
def calStore (s : State) (pod : Bool) (i : Nat) (v : W64) : State :=
  if pod then { s with fab := { s.fab with calp := tset s.fab.calp i (v &&& 0xFFF) } }
  else { s with fab := { s.fab with calm := tset s.fab.calm i (v &&& 0x000000FFFF000FFF) } }
/-- A write to FHOLD: 0 and values above 4,000 are taken as 4,000. -/
def fholdStore (s : State) (v : W64) : State :=
  let n := bitsOf v.toNat 0 12
  { s with fab := { s.fab with fhold := if n = 0 || n > 4000 then 4000 else n } }

/-! ## Pre-emption requests -/

/-- The clusters a PREQ value names (Table 15.8). -/
def preqClusters (v : W64) : List Nat := if v.getLsbD 7 then List.range 128 else [bitsOf v.toNat 0 7]
/-- Groups of a block asked to stop at their next clause boundary (R387). -/
def askStop (s : State) (b : Nat) (stop : Bool) : State :=
  { s with groups := s.groups.map (fun g => if g.2.block = b then (g.1, { g.2 with stopReq := stop }) else g) }
/-- A block marked for pre-emption. -/
def preemptBlock (s : State) (b : Nat) : State := askStop (modBlock s b (fun x => { x with preempt := true, noSlot := false })) b true
/-- Clusters closed, and every block on them pre-empted (R386). -/
def closeClusters (s : State) (cs : List Nat) : State :=
  let s1 := cs.foldl (fun a c => modCluster a c (fun x => { x with closed := true })) s
  (s.blocks.filter (fun b => b.2.cores.any (fun c => cs.contains (clusterOf c)))).foldl (fun a b => preemptBlock a b.1) s1
/-- Clusters opened again. -/
def openClusters (s : State) (cs : List Nat) : State := cs.foldl (fun a c => modCluster a c (fun x => { x with closed := false })) s
/-- A write to PREQ (Table 15.8): OP 0 and 3 are ignored. -/
def preqTake (s : State) (v : W64) : State :=
  if bitsOf v.toNat 8 2 = 1 then closeClusters s (preqClusters v)
  else if bitsOf v.toNat 8 2 = 2 then openClusters s (preqClusters v)
  else s

/-! ## Management and DVFS registers -/

/-- Code of a power phase (PWRSTAT). -/
def phaseCode : Phase → Nat
  | .run => 0 | .preparing => 1 | .quiet => 2 | .committing => 3 | .retained => 4 | .waking => 5 | .woken => 6
/-- A field of VERSEL as it reads back: kept when the major is the device's and the minor at most the device's (R397). -/
def versionKept (cap v : Nat) : Nat := if v / 256 = cap / 256 && v % 256 ≤ cap % 256 then v else 0
/-- A write to VERSEL (R397). -/
def verselTake (s : State) (v : W64) : State :=
  let n := v.toNat
  { s with mgmt := { s.mgmt with versel := BitVec.ofNat 64 (versionKept s.mgmt.verFw (bitsOf n 0 16)
      + versionKept 0x100 (bitsOf n 16 16) * 2 ^ 16 + versionKept 0x100 (bitsOf n 32 16) * 2 ^ 32
      + versionKept 0x100 (bitsOf n 48 16) * 2 ^ 48) } }
/-- Operating point of a die, and its step. -/
def opOf (s : State) (d : Nat) : Nat := if d = 0 then s.mgmt.op0 else s.mgmt.op1
def stepOf (s : State) (d : Nat) : Option DvStep := if d = 0 then s.mgmt.step0 else s.mgmt.step1
/-- ST field of a die (Table 16.7): 1 rail rising in an up-step, 2 the clock phase: of an up-step the cycle of the switch, of a down-step until
the switch; 3 rail falling. -/
def stCode (s : State) (d : Nat) : Nat :=
  match stepOf s d with
  | none => 0
  | some t => if t.switched then (if t.target > t.from_ then 2 else 3) else if t.target > opOf s d then 1 else 2
/-- DVSTAT (Table 16.7). -/
def dvstat (s : State) : Nat :=
  opOf s 0 + opOf s 1 * 2 ^ 3 + stCode s 0 * 2 ^ 10 + stCode s 1 * 2 ^ 12 + (if s.mgmt.tlim then 1 else 0) * 2 ^ 14
    + s.mgmt.last * 2 ^ 16 + s.mgmt.thrCnt * 2 ^ 32
/-- Fastest point of the part and its fused floor, a point that the part has (Table 16.7): free values of Config (log 2). -/
def binOp : Nat := if Config.binOp 0 % 2 = 0 then 7 else 4
def fFloor : Nat := Config.fFloor 0 % (binOp + 1)

/-- What an offset of the register window reads as. -/
def regRead (s : State) (off : Nat) : W64 :=
  let m := s.mgmt
  if off = 0x100 then s.xl.ptbase
  else if off = 0x110 then BitVec.ofNat 64 ((if xlBusy s then 1 else 0) + (if s.xl.perr then 2 else 0))
  else if 0x200 ≤ off && off < 0x280 then tgetD s.esc.anch ((off - 0x200) / 8) 0
  else if off = 0x300 then m.tfbase
  else if off = 0x308 then m.ctxbase
  else if off = 0x310 then BitVec.ofNat 64 m.ctxn
  else if off = 0x320 then
    BitVec.ofNat 64 ((if s.blocks.any (fun b => b.2.preempt && !b.2.noSlot) || (!s.esc.saved.isEmpty && !s.esc.stopped &&
        (List.range 128).any (fun c => !(getCluster s c).closed)) then 1 else 0)
      + (s.esc.saved.length % 65536) * 2 ^ 16 + ((s.blocks.filter (fun b => b.2.noSlot)).length % 65536) * 2 ^ 32)
  else if off = 0x400 then BitVec.ofNat 64 (m.verFw + 0x100 * 2 ^ 16 + 0x100 * 2 ^ 32 + 0x100 * 2 ^ 48)
  else if off = 0x408 then m.versel
  else if off = 0x500 then m.suspbase
  else if off = 0x508 then BitVec.ofNat 64 (phaseCode m.phase + m.hostDrop * 2 ^ 32)
  else if off = 0x608 then BitVec.ofNat 64 (dvstat s)
  else if off = 0x610 then m.samp0
  else if off = 0x618 then m.samp1
  else if off = 0x620 then BitVec.ofNat 64 (m.swFloor + fFloor * 2 ^ 3 + binOp * 2 ^ 6)
  else if off = 0x708 then m.mbarg
  else if off = 0x710 then BitVec.ofNat 64 (m.mbStatus + m.mbSeq * 2 ^ 8 + (if m.mbBusy then 1 else 0) * 2 ^ 16)
  else if 0x10000 ≤ off && off < 0x12000 then tgetD s.fab.calm ((off - 0x10000) / 8) 2
  else if 0x12000 ≤ off && off < 0x12800 then tgetD s.fab.calp ((off - 0x12000) / 8) 2
  else if off = 0x13000 then BitVec.ofNat 64 s.fab.chipid
  else if off = 0x13008 then BitVec.ofNat 64 s.fab.fhold
  else 0

/-- Who may write a register (R133, R386, R397, R406; Tables 15.8 and 16.2). -/
def mayWrite (ag : Agent) (off : Nat) : Bool :=
  if 0x300 ≤ off && off ≤ 0x320 then ag ≠ .core
  else if 0x400 ≤ off && off < 0x600 || 0x700 ≤ off && off < 0x800 then ag = .host
  else if 0x600 ≤ off && off < 0x700 then ag = .fw
  else if 0x10000 ≤ off && off < 0x14000 then ag = .fw
  else true

/-- A register without behaviour of its own stores its RW fields. -/
def plainStore (s : State) (off : Nat) (v : W64) : State :=
  if off = 0x300 then { s with mgmt := { s.mgmt with tfbase := v &&& 0x01FFFFFFC0000001 } }
  else if off = 0x308 then { s with mgmt := { s.mgmt with ctxbase := v &&& 0x01FFFFFFFFC00000 } }
  else if off = 0x310 then { s with mgmt := { s.mgmt with ctxn := bitsOf v.toNat 0 16 } }
  else if off = 0x500 then { s with mgmt := { s.mgmt with suspbase := v &&& 0x00003FFFFC000001 } }
  else if off = 0x708 then { s with mgmt := { s.mgmt with mbarg := v } }
  else if off = 0x13000 then { s with fab := { s.fab with chipid := bitsOf v.toNat 0 18 } }
  else s

/-- A core's .u store of 8 bytes to the register window: what it does, and whether it has been performed (R109, R120). -/
def regStoreCore (s : State) (off : Nat) (v : W64) : State × Bool :=
  if off = 0x100 then (ptbaseTake s v, true)
  else if off = 0x108 then xlinvTake s v
  else if off = 0x110 then (xlstatTake s v, true)
  else if 0x200 ≤ off && off < 0x280 then (anchorTake s ((off - 0x200) / 8) v, true)
  else (s, true)

/-- Whether host requests to the register window are held behind an XLINV write (R120). -/
def hostHeld (s : State) (ag : Agent) : Bool := ag = .host && !s.xl.waiting.isEmpty

end Sys2Proof.Machine
end

