-- ==== Sys2Proof/Machine/MemCore.lean ====
section
/-! DEFINITION. The life of a memory word between issue and completion (R117, R169, R331): the checks at issue, translation
and deferral, the order in which a fibre's accesses may be performed (R171, R305, R307), loads and stores at the L1 and the
home slice, fences and releases (R309, R315), and what a group waits for. -/

namespace Sys2Proof.Machine

/-! ## What a memory word is -/

/-- Bytes of an access size (R25). -/
def sizeBytes : MSize → Nat | .b1 => 1 | .b2 => 2 | .b4 => 4 | .b8 => 8
/-- Element bytes of an atomic (R313). -/
def aopBytes : AOp → Nat
  | .addBf16 => 2
  | .addN32 | .addF32 | .minN32 | .maxN32 | .minS32 | .maxS32 | .minF32 | .maxF32 | .and32 | .or32 | .xor32 | .exch32 => 4
  | _ => 8
/-- Bytes a lane of a word touches. -/
def opBytes : MemOp → Nat
  | .load _ z | .loadu _ z | .store _ z | .lds z | .sts z => sizeBytes z
  | .atom op _ _ => aopBytes op
  | .cas is64 _ _ _ => if is64 then 8 else 4
  | .red ty _ => (if ty = .bf16 then 16 else redWidth ty) / 8
  | .gred fp32 | .mlr fp32 => if fp32 then 4 else 2
  | _ => 1
/-- Alignment that check 1 of R169 asks for. -/
def opAlign : MemOp → Nat
  | .loadu _ _ => 1
  | op => opBytes op
/-- Request type (R159); words without one are .o. -/
def opType : MemOp → MType
  | .load t _ | .loadu t _ | .store t _ | .pref _ t => t
  | _ => .o
/-- The request type that an access is served as at its target (Table 7.2, R162): .u in a page with NC = 1; in the host
window every other type is served as .o. -/
def servedType (t : MType) (nc : Bool) (tg : Tgt) : MType :=
  if nc then .u else if tg = .host && t ≠ .u then .o else t
/-- Whether a word is translated as a write (Table 5.4). -/
def opAsWrite : MemOp → Bool
  | .store _ _ | .atom _ _ _ | .cas _ _ _ _ | .red _ _ => true
  | _ => false
/-- Whether a word reads memory into a register. -/
def opLoads : MemOp → Bool
  | .load _ _ | .loadu _ _ | .atom _ _ _ | .cas _ _ _ _ | .gred _ | .mlr _ => true
  | _ => false
/-- Whether a word acts on the scratchpad. -/
def opSpad : MemOp → Bool
  | .lds _ | .sts _ | .rscl => true
  | _ => false
/-- Whether a word reads bytes of memory or of the scratchpad, and whether it writes some (R307). -/
def opReads (op : MemOp) : Bool := opLoads op || (match op with | .lds _ | .rscl => true | _ => false)
def opStores (op : MemOp) : Bool := opAsWrite op || (match op with | .sts _ => true | _ => false)
/-- Order of an atomic. -/
def opOrd : MemOp → AOrd
  | .atom _ _ o | .cas _ _ _ o => o
  | _ => .rlx
/-- Scope of an atomic. -/
def opScope : MemOp → AScope
  | .atom _ sc _ | .cas _ _ sc _ => sc
  | _ => .core
def ordRel (o : AOrd) : Bool := o = .rel || o = .ar
def ordAcq (o : AOrd) : Bool := o = .acq || o = .ar
/-- Words that R117 item 2 defers in all their lanes behind a faulted word. -/
def opOrders : MemOp → Bool
  | .fence _ _ | .fmode _ | .phend => true
  | op => opOrd op ≠ .rlx
/-- Whether a word has lanes that translate. -/
def opTranslates : MemOp → Bool
  | .lds _ | .sts _ | .rscl | .fence _ _ | .fmode _ | .phend | .tile => false
  | _ => true
/-- A word whose lanes stay without effect instead of faulting (R173). -/
def opDrops : MemOp → Bool | .pref _ _ => true | _ => false

/-! ## The words of a group -/

def wordAt (s : State) (gk id : Nat) : Option (Group × MemWord) :=
  match tget s.groups gk with
  | none => none
  | some g => match g.words.find? (·.id = id) with | some w => some (g, w) | none => none
def modWord (s : State) (gk id : Nat) (f : MemWord → MemWord) : State :=
  modGroup s gk (fun g => { g with words := g.words.map (fun w => if w.id = id then f w else w) })
def setLane (s : State) (gk id l : Nat) (f : LaneAcc → LaneAcc) : State :=
  modWord s gk id (fun w => match tget w.lanes l with | some a => { w with lanes := tset w.lanes l (f a) } | none => w)
def setSt (s : State) (gk id l : Nat) (st : LaneSt) : State := setLane s gk id l (fun a => { a with st := st })
/-- Words of which nothing is open or listed leave the group (R169, R331). -/
def tidy (s : State) (gk : Nat) : State :=
  modGroup s gk (fun g => { g with words := g.words.filter (fun w => w.lanes.any (fun x => match x.2.st with | .done => false | _ => true)) })
/-- Whether a word has a lane that waits for a walk. -/
def wordWalks (w : MemWord) : Bool := opTranslates w.op && w.lanes.any (fun x => x.2.st = .walk)
/-- Whether a word has an open lane. -/
def wordOpen (w : MemWord) : Bool := w.lanes.any (fun x => laneOpen x.2.st)

/-- A value written to the logical register `j` of a lane (R202). -/
def vSetLog (g : Group) (l j : Nat) (v : W64) : Group := modFibre g l (fun f => { f with slots := tset f.slots (slotOf g j) v })
/-- What writing a result comes to: written, it has to wait, or its place in the spill area cannot be written. -/
inductive Landed where
  | yes
  | wait
  | fail (sub fab : Nat)
  deriving DecidableEq, Repr
/-- The first of two that is not a success. -/
def Landed.and : Landed → Landed → Landed
  | .yes, b => b
  | a, _ => a
/-- A loaded value put where a word's result goes: the slot if resident, otherwise the spill area (R384), whose write may have to wait
(R15, R59) or may fail, which lists the lane (log 108). -/
def landTry (s : State) (gk : Nat) (w : MemWord) (l j : Nat) (v : W64) : State × Landed :=
  match tget s.groups gk with
  | none => (s, .yes)
  | some g =>
    if j ≥ 65536 then (s, .yes)
    else if w.uni then (setGroup s gk (sSet g (j % 32) v), .yes)
    else
      let f := getFibre g l
      if f.low.toNat ≤ j && j < f.low.toNat + g.depth then (setGroup s gk (vSetLog g l j v), .yes)
      else
        let r := spanWrite s (some g.core) (dieOfCore g.core) (f.spilla.toNat / 8 * 8 + 8 * j) 8 v.toNat
        (txMark r.1 s.fab.tx.length (.drain g.core [gk] [g.block]), match r.2 with
          | .ok _ => .yes
          | .wait => .wait
          | .fault sub => .fail sub 0
          | .poison _ _ => .fail scPoison 0
          | .remote code => .fail scRemote code)
def landValue (s : State) (gk : Nat) (w : MemWord) (l j : Nat) (v : W64) : State := (landTry s gk w l j v).1
/-- The results of a lane written to its destination registers, and whether all could be: CAS has two (R169, R313, R314). -/
def landLaneTry (s : State) (gk : Nat) (w : MemWord) (l : Nat) (v v2 : W64) : State × Landed :=
  let j := match tget w.lanes l with | some a => a.dlog | none => 0
  let r := landTry s gk w l j v
  match w.op with
  | .cas _ _ _ _ =>
    let q := landTry r.1 gk w l (j + 1) v2
    (q.1, r.2.and q.2)
  | _ => r
def landLane (s : State) (gk : Nat) (w : MemWord) (l : Nat) (v v2 : W64) : State := (landLaneTry s gk w l v v2).1
/-- A lane that ends with its results written; it keeps them while they cannot be written, and is listed when their place in the spill
area fails (R384). -/
def landDone (s : State) (gk : Nat) (w : MemWord) (l : Nat) (v v2 : W64) : State :=
  let r := landLaneTry (setSt s gk w.id l .done) gk w l v v2
  match r.2 with
  | .yes => r.1
  | .wait => setSt r.1 gk w.id l (.data v v2)
  | .fail sub fab => setSt r.1 gk w.id l (.listed sub fab)

/-! ## Faults of lanes (R117) -/

/-- A lane that faults: dropped for PREF and for a fibre that has ended, 0 for a helper's load (R362), otherwise listed. -/
def failLane (s : State) (gk : Nat) (w : MemWord) (l sub fab : Nat) : State :=
  match tget s.groups gk with
  | none => s
  | some g =>
    if opDrops w.op || !(getFibre g l).live then setSt s gk w.id l .done
    else if isHelper g l then landDone s gk w l 0 0
    else setSt s gk w.id l (.listed sub fab)

/-- The pages a lane names. -/
def lanePages (op : MemOp) (a : LaneAcc) : List Nat :=
  let p := vpageOf a.va.toNat
  match op with
  | .loadu _ z => if vpageOf (a.va.toNat + sizeBytes z - 1) = p then [p] else [p, p + 1]
  | _ => [p]
/-- Whether a lane is at its second page: the first of an LDU lane has been translated, or read (R169). -/
def atSecond (op : MemOp) (a : LaneAcc) : Bool := (lanePages op a).length = 2 && (a.d1 = 1 || a.d1 = 2 || a.d1 = 3)
/-- The page of the access that a lane makes next. -/
def lanePage (op : MemOp) (a : LaneAcc) : Nat := if atSecond op a then vpageOf a.va.toNat + 1 else vpageOf a.va.toNat
/-- Pages on which a word has faulted: those of the accesses that failed; a deferred lane touched none (R117, R118). -/
def faultPages (w : MemWord) : List Nat :=
  (w.lanes.map (fun x => match x.2.st with
    | .listed sub _ =>
      if sub = 0 || sub = scMisalign || sub = scSpRange || sub = scBufState || sub = scDeferred then [] else [lanePage w.op x.2]
    | _ => [])).flatten
/-- Lanes of later words deferred behind earlier faulted ones: those still to be translated or performed that name a faulted
page, and those of ordering words (R117 item 2). A lane of PREF, of a helper or of a fibre that has ended is listed by no fault
(R173, R362): `free` says which those are. -/
def deferWord (pages : List Nat) (faulted : Bool) (free : Nat → Bool) (w : MemWord) : MemWord :=
  { w with lanes := w.lanes.map (fun x =>
      let hit := !(free x.1) && !(opDrops w.op) &&
        ((opTranslates w.op && (lanePages w.op x.2).any pages.contains) || (faulted && opOrders w.op))
      match x.2.st with
      | .walk | .req _ _ _ => if hit then (x.1, { x.2 with st := .listed scDeferred 0 }) else x
      | .listed sub _ =>
        if hit && opTranslates w.op && sub ≠ scMisalign && sub ≠ scSpRange && sub ≠ scBufState then
          (x.1, { x.2 with st := .listed scDeferred 0 })
        else x
      | _ => x) }
def deferWords (free : Nat → Bool) : List MemWord → List Nat → Bool → List MemWord
  | [], _, _ => []
  | w :: t, pages, faulted =>
    let w1 := if faulted then deferWord pages faulted free w else w
    w1 :: deferWords free t (pages ++ faultPages w1) (faulted || wordFaulted w1)
/-- Lanes whose faults are not listed: helpers and lanes whose fibre has ended (R361, R362). -/
def unlisted (g : Group) (l : Nat) : Bool := isHelper g l || !(getFibre g l).live
def deferGroup (s : State) (gk : Nat) : State := modGroup s gk (fun g => { g with words := deferWords (unlisted g) g.words [] false })

/-! ## Translation of lanes -/

/-- What a translated lane becomes (R109, R162; R106 for GRED, R151 for MLR). -/
def laneTarget (s : State) (op : MemOp) (e : TlbEntry) (va : Nat) : LaneSt :=
  let da := daOf e va
  let t := if e.nc then MType.u else opType op
  match op with
  | .mlr _ => .req (localOf da) 0 e.nc
  | .gred _ =>
    match daCheck s e va false false with
    | some sub => .listed sub 0
    | none => if tgtOf s da = .hbm then .req da 0 e.nc else .listed scType 0
  | .cflush _ | .cinv =>
    match daCheck s e va false true with
    | some sub => .listed sub 0
    | none => .req da 0 e.nc
  | _ =>
    let plain := match op with | .load _ _ | .loadu _ _ | .store _ _ => true | _ => false
    match daCheck s e va (opAsWrite op) (plain && t = .u && opBytes op = 8 && va % 8 = 0) with
    | some sub => .listed sub 0
    | none => .req da 0 e.nc

/-- The address that a lane has translated next: at its second page when the first of an LDU lane has been (R169). -/
def needVa (op : MemOp) (a : LaneAcc) : Nat :=
  if atSecond op a then vpageOf (a.va.toNat + opBytes op - 1) * 65536 else a.va.toNat
/-- What the second page of an LDU lane gives: no access to it is aligned to 8 bytes (R109, R169). -/
def secondTarget (s : State) (e : TlbEntry) (va : Nat) : LaneSt :=
  match daCheck s e va false false with
  | some sub => .listed sub 0
  | none => .req (daOf e va) 0 e.nc

/-- A translation given to a lane that waits for it. The first page of an LDU lane is kept in its data fields until the
second is translated: `d1` is then 1, or 3 when the first page has NC = 1; afterwards 8 says that the second has (R162). -/
def giveLane (s : State) (gk : Nat) (w : MemWord) (l : Nat) (a : LaneAcc) (e : TlbEntry) : State :=
  let two := decide ((lanePages w.op a).length = 2)
  match (if two && atSecond w.op a then secondTarget s e (needVa w.op a) else laneTarget s w.op e (needVa w.op a)) with
  | .listed sub fab => failLane s gk w l sub fab
  | .req da x nc =>
    if two then
      if atSecond w.op a then
        setLane s gk w.id l (fun b => { b with st := .req b.d0.toNat da (decide (a.d1 = 3)), d0 := 0, d1 := if nc then 8 else 0 })
      else setLane s gk w.id l (fun b => { b with d0 := BitVec.ofNat 64 da, d1 := if nc then 3 else 1 })
    else setSt s gk w.id l (.req da x nc)
  | st => setSt s gk w.id l st

/-- Whether an earlier word of a group has a lane that still waits for the translation of a page: a later lane that names the page is not
translated before it, so that what R117 item 2 defers does not hang on the timing of walks. -/
def pageAhead (g : Group) (id vp : Nat) : Bool :=
  g.words.any (fun e => e.id < id && opTranslates e.op && e.lanes.any (fun x => x.2.st = .walk && (lanePages e.op x.2).contains vp))
/-- A lane that waits for a translation looks in the caches, and asks for a walk on a miss (R115). The first page of an LDU
lane may hit before the second. -/
def lookLane (s : State) (gk : Nat) (id l : Nat) : State :=
  match wordAt s gk id with
  | none => s
  | some (g, w) =>
    match tget w.lanes l with
    | some a =>
      if a.st ≠ .walk then s
      else
        let va := needVa w.op a
        if pageAhead g id (vpageOf va) then s
        else match tlbLook s g.core va with
        | some e => giveLane (fillCore s g.core e) gk w l a e
        | none => if pageRoom s (dieOfCore g.core) (vpageOf va) then askPage s (dieOfCore g.core) (vpageOf va) else s
    | none => s

/-- The checks of R169 and R107 before translation, deferral behind faulted words, then the look-up. -/
def startLane (s : State) (gk id l : Nat) : State :=
  match wordAt s gk id with
  | none => s
  | some (g, w) =>
    match tget w.lanes l with
    | none => s
    | some a =>
      let va := a.va.toNat
      if !(opTranslates w.op) then s
      else if va % opAlign w.op ≠ 0 then failLane s gk w l scMisalign 0
      else
        let older := g.words.filter (fun x => x.id < id)
        if !(opDrops w.op) && !(unlisted g l) && older.any wordFaulted &&
            (opOrders w.op || (lanePages w.op a).any ((older.map faultPages).flatten).contains) then
          setSt s gk id l (.listed scDeferred 0)
        else if !(canonical va) then failLane s gk w l scNonCanon 0
        else if !(canonical (va + opBytes w.op - 1)) then failLane (setLane s gk id l (fun b => { b with d1 := 1 })) gk w l scNonCanon 0
        else
          let s1 := lookLane s gk id l
          lookLane s1 gk id l

/-! ## Scratchpad lanes (R163, R165, R166, R169, R263) -/

/-- Why a read of a span of a scratchpad fails: outside, a buffer's state, poison (R165, R169). -/
def spadReadBad (s : State) (c b off n : Nat) : Option Nat :=
  if off + n > spadSize s c b then some scSpRange
  else match tget s.blocks b with
    | none => some scSpRange
    | some k =>
      if !((bufsTouched k.hdr off n).all (fun i => bufLoadOk (bufState k c i))) then some scBufState
      else if spadPoison s c b off n then some scPoison else none
/-- Why a store to a span of a scratchpad fails. -/
def spadWriteBad (s : State) (c b off n : Nat) : Option Nat :=
  if off + n > spadSize s c b then some scSpRange
  else match tget s.blocks b with
    | none => some scSpRange
    | some k => if !((bufsTouched k.hdr off n).all (fun i => bufStoreOk (bufState k c i))) then some scBufState else none

/-- The RSCL of a lane (R263): the channel and value in `x`, the table's place and channel count in `tab`. DESIGN CHOICE (log 119): when both
table reads fail, the lane is listed with the sub-cause of the E4M3 byte, which is read first. -/
def rsclLane (s : State) (c b : Nat) (x tab : W64) : Nat ⊕ FRes :=
  let t := bitsOf tab.toNat 0 18
  let nch := bitsOf tab.toNat 32 16
  let ch := bitsOf x.toNat 32 32
  let g := t + 2 * ((nch + 1) / 2) + 2 * (ch / 256)
  if t % 2 ≠ 0 || nch = 0 || bitsOf tab.toNat 18 14 ≠ 0 || bitsOf tab.toNat 48 16 ≠ 0 || ch ≥ nch then .inl scSpRange
  else match spadReadBad s c b (t + ch) 1, spadReadBad s c b g 2 with
    | some e, _ => .inl e
    | none, some e => .inl e
    | none, none =>
      let s1 := fConvert fmt32 fmtE4m3 .rne false (spadRead s c b (t + ch) 1)
      let s2 := fConvert fmt32 fmtB16 .rne false (spadRead s c b g 2)
      let m1 := fMul fmt32 .rne (bitsOf x.toNat 0 32) s1.1
      let m2 := fMul fmt32 .rne m1.1 s2.1
      .inr (m2.1, s1.2 ||| s2.2 ||| m1.2 ||| m2.2)

/-- One lane of LDS, STS or RSCL performed, in arrival order (R166); a lane that fails is listed. -/
def spadLane (s : State) (gk id l : Nat) : State :=
  match wordAt s gk id with
  | none => s
  | some (g, w) =>
    match tget w.lanes l with
    | none => s
    | some a =>
      let off := a.va.toNat
      match w.op with
      | .lds z =>
        let n := sizeBytes z
        if off % n ≠ 0 then failLane s gk w l scMisalign 0
        else match spadReadBad s g.core g.block off n with
          | some e => failLane s gk w l e 0
          | none => landDone s gk w l (BitVec.ofNat 64 (spadRead s g.core g.block off n)) 0
      | .sts z =>
        let n := sizeBytes z
        if off % n ≠ 0 then failLane s gk w l scMisalign 0
        else match spadWriteBad s g.core g.block off n with
          | some e => failLane s gk w l e 0
          | none => spadWrite (setSt s gk id l .done) g.core g.block off n a.d0.toNat false
      | .rscl =>
        match rsclLane s g.core g.block a.d0 a.d1 with
        | .inl e => failLane s gk w l e 0
        | .inr r => modGroup (landDone s gk w l (BitVec.ofNat 64 r.1) 0) gk (fun h => flagsAdd h l r.2)
      | _ => s

/-- Pages that a word would newly ask its die for (R116). -/
def newPages (s : State) (core : Nat) (op : MemOp) (vas : List Nat) : Nat :=
  if !(opTranslates op) then 0
  else
    let all := (vas.map (fun va => match op with | .loadu _ z => [va, va + sizeBytes z - 1] | _ => [va])).flatten
    ((all.filter (fun va => (tlbLook s core va).isNone)).map vpageOf).eraseDups.filter
      (fun p => !((pendList s (dieOfCore core)).contains p)) |>.length

/-! ## Order within a fibre -/

/-- The lines that a lane's access of `n` bytes touches: by device address once it is translated, by virtual line before. -/
def laneLines (n : Nat) (a : LaneAcc) : Bool × List Nat :=
  match a.st with
  | .req da da2 _ => (true, if da2 = 0 then [da / 128, (da + n - 1) / 128] else [da / 128, da2 / 128])
  | _ => (false, [a.va.toNat / 128, (a.va.toNat + n - 1) / 128])
/-- Whether an earlier access of a fibre touches a line that a later one names, so that the later one waits for it: by
device address when both are translated, by virtual line otherwise (R118, R171, R305). -/
def sameLine (ne : Nat) (e : LaneAcc) (n : Nat) (a : LaneAcc) : Bool :=
  let x := laneLines ne e
  let y := laneLines n a
  if x.1 && y.1 then x.2.any y.2.contains
  else (laneLines ne { e with st := .walk }).2.any (laneLines n { a with st := .walk }).2.contains
/-- Whether an access has read its value. -/
def hasRead : LaneSt → Bool | .data _ _ | .done | .listed _ _ => true | _ => false
/-- Whether two accesses of a fibre may touch one byte: two of memory on one line, two of the scratchpad that overlap; RSCL reads
at two places and is taken to overlap every access of the scratchpad. -/
def sameBytes (eop : MemOp) (e : LaneAcc) (op : MemOp) (a : LaneAcc) : Bool :=
  if opSpad eop != opSpad op then false
  else if opSpad op then
    (match eop, op with
      | .rscl, _ | _, .rscl => true
      | _, _ => e.va.toNat < a.va.toNat + opBytes op && a.va.toNat < e.va.toNat + opBytes eop)
  else sameLine (opBytes eop) e (opBytes op) a
/-- Whether an earlier atomic has an acquire part that is not complete: a CAS that has failed without .facq is a relaxed read
(R313, R314). -/
def acquiring (eop : MemOp) (e : LaneAcc) : Bool :=
  ordAcq (opOrd eop) && (match e.st with
    | .done | .listed _ _ => false
    | .data _ v2 => !(match eop with | .cas _ false _ _ => v2 = 0 | _ => false)
    | _ => true)
/-- Whether an earlier lane is a CAS whose acquire part acts only if it succeeds, and which has not read (R314). -/
def mayFail (eop : MemOp) (e : LaneAcc) : Bool :=
  (match eop with | .cas _ facq _ _ => !facq | _ => false) && !(hasRead e.st)
/-- Whether a later access of a lane must wait for an earlier one: an acquire (R313), a read before a write (R307), and any
pair that may touch one byte (R171, R305). With `guess`, a CAS that may still fail as a relaxed read is not waited for (R314). -/
def mustWait (eop : MemOp) (e : LaneAcc) (op : MemOp) (a : LaneAcc) (guess : Bool := false) : Bool :=
  laneOpen e.st && ((acquiring eop e && !(guess && mayFail eop e)) || (!(hasRead e.st) &&
    ((opStores op && opReads eop) || ((opStores eop || opReads eop) && sameBytes eop e op a))))
/-- Whether the earlier words of a lane's fibre let an access of a word be performed. -/
def afterOlder (g : Group) (id : Nat) (op : MemOp) (l : Nat) (a : LaneAcc) (guess : Bool := false) : Bool :=
  (g.words.filter (fun e => e.id < id)).all (fun e => match tget e.lanes l with | some x => !(mustWait e.op x op a guess) | none => true)
/-- Whether an earlier scratchpad word of the group has not yet arrived at the scratchpad in some lane: the accesses of a group arrive in
program order (R166). -/
def spadAhead (g : Group) (id : Nat) : Bool := g.words.any (fun e => e.id < id && opSpad e.op && e.lanes.any (fun x => x.2.st = .walk))
/-- Whether a lane's access may be performed now, as far as its fibre's earlier words go. A word that R117 item 2 defers in all its
lanes waits until the group's earlier words have been translated. -/
def inOrder (g : Group) (w : MemWord) (l : Nat) (a : LaneAcc) : Bool :=
  afterOlder g w.id w.op l a && !(opAsWrite w.op && wordWalks w)
  && !(opOrders w.op && g.words.any (fun e => e.id < w.id && wordWalks e))

/-! ## Starting a word -/

/-- The lanes of a scratchpad word that still wait, performed when the group's earlier scratchpad words have arrived and their fibres' order
lets them; a store's lanes together (R166, R171, R307). -/
def spadTry (s : State) (gk id : Nat) : State :=
  match wordAt s gk id with
  | none => s
  | some (g, w) =>
    let ls := w.lanes.filter (fun x => x.2.st = .walk)
    let now := ls.filter (fun x => inOrder g w x.1 x.2)
    if !(opSpad w.op) || spadAhead g id || (opStores w.op && now.length < ls.length) then s
    else now.foldl (fun a x => spadLane a gk id x.1) s
/-- The scratchpad words of a group tried in order. -/
def settleSpad (s : State) (gk : Nat) : State :=
  match tget s.groups gk with
  | none => s
  | some g => (g.words.filter (fun w => opSpad w.op)).foldl (fun a w => spadTry a gk w.id) s
/-- A word entered in its group and each of its lanes started. -/
def startWord (s : State) (gk : Nat) (w : MemWord) : State :=
  let s1 := modGroup s gk (fun g => { g with words := g.words ++ [w] })
  let older := match tget s.groups gk with | some g => g.words.any wordFaulted | none => false
  let s2 := if older && opOrders w.op && !(opTranslates w.op) then
      modWord s1 gk w.id (fun x => { x with lanes := x.lanes.map (fun y => (y.1, { y.2 with st := .listed scDeferred 0 })) })
    else s1
  spadTry ((tkeys w.lanes).foldl (fun a l => startLane a gk w.id l) s2) gk w.id

/-! ## Releases, acquires and fences (R303, R309) -/

/-- A scope's rank: core 2, cluster 3, device 4, fabric 5, host 6 (Table 12.1). -/
def scopeRank : Scope → Nat
  | .fibre | .group | .core => 2
  | .cluster => 3
  | .device => 4
  | .fabric => 5
  | .host => 6
def ascopeRank : AScope → Nat | .core => 2 | .clu => 3 | .dev => 4 | .fab => 5

/-- Whether an earlier word's store part is still open in a lane of a mask. -/
def storesOpen (g : Group) (before : Nat) (mask : LaneMask) : Bool :=
  g.words.any (fun e => e.id < before && opStores e.op && e.lanes.any (fun x =>
    mask.getLsbD x.1 && (match x.2.st with | .walk | .req _ _ _ | .remote _ _ _ => true | _ => false)))
/-- Whether the L1 takes a lane's store, which waits only for its home: a store of type .o to memory of the device, which nothing earlier in
its fibres holds back and whose line no other taken store precedes (R309, Table 12.2). -/
def l1Takes (s : State) (g : Group) (e : MemWord) (x : Nat × LaneAcc) : Bool :=
  match e.op, x.2.st with
  | .store t _, .req da _ nc =>
    let line := lineOf (localOf da)
    servedType t nc (tgtOf s da) = .o && (tgtOf s da = .hbm || tgtOf s da = .host) && l1Sets s (l1Core s g.core line) ≠ 0
      && !(takenAt s g.core (some e.id) (some (dlOf s da)))
      && (e.lanes.filter (fun y => match y.2.st with | .req db _ _ => dlOf s db = dlOf s da | _ => false)).all (fun y => inOrder g e y.1 y.2)
      && g.words.all (fun q => e.id ≤ q.id || !(opReads q.op) || !(q.lanes.any (fun y => laneOpen y.2.st)))
  | _, _ => false
/-- Whether an earlier word's store part is still open, and not taken by the L1, in a lane of a mask. -/
def storesLeft (s : State) (g : Group) (before : Nat) (mask : LaneMask) : Bool :=
  g.words.any (fun e => e.id < before && opStores e.op && e.lanes.any (fun x =>
    mask.getLsbD x.1 && (match x.2.st with | .walk | .req _ _ _ | .remote _ _ _ => !(takenLane e x.2 || l1Takes s g e x) | _ => false)))
/-- The open stores of some lanes taken by the L1. -/
def takeStores (s : State) (gk before : Nat) (mask : LaneMask) : State :=
  modGroup s gk (fun g => { g with words := g.words.map (fun e => if e.id < before && opStores e.op then
    { e with lanes := e.lanes.map (fun x => if mask.getLsbD x.1 && l1Takes s g e x then (x.1, { x.2 with d1 := 1 }) else x) } else e) })
/-- Whether an earlier read is still out in a lane of a mask. -/
def readsOpen (g : Group) (before : Nat) (mask : LaneMask) : Bool :=
  g.words.any (fun e => e.id < before && opReads e.op && e.lanes.any (fun x => mask.getLsbD x.1 && laneOpen x.2.st))
/-- Whether an earlier read has not been performed in a lane of a mask. -/
def readsAhead (g : Group) (before : Nat) (mask : LaneMask) : Bool :=
  g.words.any (fun e => e.id < before && opReads e.op && e.lanes.any (fun x => mask.getLsbD x.1 && !(hasRead x.2.st)))
/-- Whether the group has a fabric transaction out (Table 12.2, fabric). -/
def fabOpen (s : State) (gk : Nat) (mask : LaneMask) : Bool :=
  s.fab.tx.any (fun t => match t.origin with
    | .lane g _ l => g = gk && mask.getLsbD l
    | .mlr g _ l _ => g = gk && mask.getLsbD l
    | .drain _ gs _ => gs.contains gk
    | .merge _ _ gs _ => gs.contains gk
    | .unit | .mtf _ _ _ | .frame _ | .xfer _ _ _ | .node _ _ | .acc _ _ _ _ _ => false)
/-- Whether a drained or flushed entry with the group's bytes is on its way to another device's home slice (Table 12.2, device). -/
def drainsOpen (s : State) (gk : Nat) : Bool :=
  s.fab.tx.any (fun t => match t.origin with | .drain _ gs _ | .merge _ _ gs _ => gs.contains gk | _ => false)

/-- The group's buffered bytes drained and contributions flushed, as far as a rank of scope asks; whether that is done (R148,
R160, Table 12.2). Stores that the L1 has taken for a release at core scope are performed before a wider one is over, whichever group
of the L1 made them, so that what that release ordered stays ordered (R304). -/
def buffersTry (s : State) (gk core rank : Nat) : State × Bool :=
  let r1 := if rank ≥ 3 then sbDrainAll s core (fun x => x.groups.contains gk) else (s, true)
  let s2 := if rank ≥ 4 then mbAsk r1.1 core (fun x => x.groups.contains gk) else r1.1
  (s2, r1.2 && !(rank ≥ 3 && takenAt s2 core none none) && !(rank ≥ 4 && (mbAny s2 core (fun x => x.groups.contains gk) || drainsOpen s2 gk)))
/-- A release at a rank of scope: what it sets draining and flushing, and whether its waits are done (Table 12.2). -/
def releaseTry (s : State) (gk before rank : Nat) (mask : LaneMask) : State × Bool :=
  match tget s.groups gk with
  | none => (s, true)
  | some g =>
    if rank ≤ 2 && storesOpen g before mask && !(storesLeft s g before mask) then (takeStores s gk before mask, true)
    else if storesOpen g before mask then (s, false)
    else
      let r := buffersTry s gk g.core rank
      (r.1, r.2 && !(rank ≥ 5 && fabOpen r.1 gk mask))

/-- A release that covers every access of the group before it, its reads too: the arrival at a barrier (R304) and the issue of a
command (R311). -/
def releaseAll (s : State) (gk before rank : Nat) (mask : LaneMask) : State × Bool :=
  match tget s.groups gk with
  | none => (s, true)
  | some g => if readsAhead g before mask then (s, false) else releaseTry s gk before rank mask

/-- What an acquire at a rank of scope does once its reads have returned (Table 12.2). -/
def acquireDo (s : State) (core rank : Nat) : State := if rank ≥ 3 then dropUtOf s core (fun _ => true) else s

/-- A fence of a group tried: it completes when the waits of its release and acquire parts are done (R309, R315). -/
def fenceTry (s : State) (gk : Nat) (w : MemWord) : State :=
  match w.op with
  | .fence sc k =>
    let walks := match tget s.groups gk with | some g => g.words.any (fun e => e.id < w.id && wordWalks e) | none => false
    if !(wordOpen w) || walks then s
    else
      let rank := scopeRank sc
      let r := match tget s.groups gk with
        | none => (s, true)
        | some g => if k = FKind.acq then buffersTry s gk g.core rank else releaseTry s gk w.id rank w.mask
      match tget r.1.groups gk with
      | none => s
      | some g =>
        if !r.2 || (k ≠ .rel && readsOpen g w.id w.mask) then r.1
        else
          let s1 := if k = .rel then r.1 else acquireDo r.1 g.core rank
          tidy (modWord s1 gk w.id (fun x => { x with lanes := x.lanes.map (fun y => (y.1, { y.2 with st := .done })) })) gk
  | _ => s
/-- The fences of a group tried in order. -/
def settleFences (s : State) (gk : Nat) : State :=
  match tget s.groups gk with
  | none => s
  | some g => g.words.foldl (fun a w => fenceTry a gk w) s
/-- The fences of every group tried. -/
def settleAll (s : State) : State :=
  (s.groups.filter (fun g => g.2.words.any (fun w => match w.op with | .fence _ _ => true | _ => false))).foldl (fun a g => settleFences a g.1) s

/-- Whether the group may issue a memory instruction: no fence, CFLUSH, FENCE.MODE or BGWAIT is open (R68, R103, R174, R315). -/
def memGate (s : State) (gk : Nat) : Bool :=
  match tget s.groups gk with
  | none => true
  | some g =>
    g.bgwaits.isEmpty && !(s.stackTbl.any (fun k => k.2.modeWaits.any (·.group = gk)))
      && g.words.all (fun w => match w.op with | .fence _ _ | .cflush _ | .fmode _ => !(wordOpen w) | _ => true)

/-- A parameter block read at a word (R311, R452), after the group's earlier stores have been performed (R171) and
while the group may issue memory instructions (R103, R315). -/
def withParam (cx : Ctx) (s : State) (va : W64) (align n : Nat) (f : State → Nat → WRes) : WRes :=
  if storesOpen cx.grp s.nextId (BitVec.allOnes 64) || !(memGate s cx.gk) then .stall s else withBlock cx s va align n f
/-- A uniform register of a group written by a record in flight, which is then no longer pending. -/
def uniResult (s : State) (gk d id : Nat) (v : W64) : State :=
  modGroup s gk (fun g => { sSet g d v with pend := g.pend.filter (fun p => p.id ≠ id) })
/-- A uniform register made pending on a record in flight (R21). -/
def uniPend (s : State) (gk d id : Nat) : State :=
  modGroup s gk (fun g => { g with pend := g.pend ++ [⟨true, d, BitVec.allOnes 64, id⟩] })

/-- Members of an MLR block (Table 6.7). -/
def mlrMember (blk i : Nat) : Nat := bitsOf blk (256 + 32 * i) 18
/-- Whether a word's lanes whose translations are cached would bring a plane's replay buffer or a pair over its limit (R138): one transaction
a lane, for RED only on pages with NC = 1, and for MLR one for each line and member. DESIGN CHOICE (log 115): a lane that still has to walk
names no device yet, and waits for room with its request. -/
def fabWould (s : State) (core : Nat) (op : MemOp) (vas : List Nat) (blk : Nat := 0) : Bool :=
  let remote := fun (e : TlbEntry) (va : Nat) => if tgtOf s (daOf e va) = Tgt.remote then some (daOf e va) else none
  let das : List Nat := match op with
    | .mlr _ =>
      let lines := (vas.filterMap (fun va => (tlbLook s core va).map (fun e => localOf (daOf e va) / 128))).eraseDups
      (((List.range (bitsOf blk 0 6)).map (mlrMember blk)).filter (· ≠ s.fab.chipid)).flatMap (fun m => lines.map (fun n => m * 2 ^ 46 + n * 128))
    | _ => vas.filterMap (fun va => match tlbLook s core va with
      | some e => (match op with
        | .store t _ => if t ≠ MType.s || e.nc then remote e va else none
        | .load _ _ | .loadu _ _ | .atom _ _ _ | .cas _ _ _ _ | .pref _ _ => remote e va
        | .red _ _ => if e.nc then remote e va else none
        | _ => none)
      | none => none)
  das.any (fun da =>
    let p := planeOf (localOf da)
    let mine := das.filter (fun d => planeOf (localOf d) = p)
    let out := s.fab.tx.filter (fun (t : FabTx) => t.plane = p)
    decide (mine.length + out.length > 4096)
      || decide ((mine.filter (fun d => chipOf d = chipOf da)).length
          + (out.filter (fun (t : FabTx) => t.chip = chipOf da)).length > 1024))

/-- Whether a word for some addresses has to stall: 32 words wait for translation, or its die has no room for its pages or the fabric none
for its transactions (R116, R117, R138). -/
def memFull (s : State) (g : Group) (op : MemOp) (vas : List Nat) (blk : Nat := 0) : Bool :=
  opTranslates op && ((g.words.filter wordWalks).length ≥ 32
    || (pendList s (dieOfCore g.core)).length + newPages s g.core op vas > 1024 || fabWould s g.core op vas blk)
/-- Whether a record has to wait before TRET begins it, as a word would stall (R116, R117, R138). -/
def replayFull (s : State) (g : Group) (w : MemWord) : Bool :=
  memFull s g w.op ((w.lanes.filter (fun x => match x.2.st with | .listed _ _ => true | _ => false)).map (fun x => x.2.va.toNat)) w.blk

/-! ## Records that TRET performs (R384) -/

/-- A GRED word of which a lane is listed, once no other lane waits: every lane that takes part is listed, the others with
sub-cause 0 (R106). -/
def gredList (s : State) (gk : Nat) : State :=
  modGroup s gk (fun g => { g with words := g.words.map (fun w =>
    match w.op with
    | .gred _ =>
      if wordFaulted w && w.lanes.all (fun x => match x.2.st with | .data _ _ | .done | .listed _ _ => true | _ => false) then
        { w with lanes := w.lanes.map (fun x => match x.2.st with | .data _ _ => (x.1, { x.2 with st := .listed 0 0 }) | _ => x) }
      else w
    | _ => w) })

/-- s[b] of an RSCL, from its word. -/
def rsclTable (g : Group) (word : Nat) : W64 := match decodeNat word with | .ok (.rscl _ _ b) => sGet g b.val | _ => 0
/-- A record as TRET begins it: its lanes start afresh; an RSCL takes its table from s[b] again, an MLR reads its block again at DATA1, and
a block that cannot be read lists the lanes again (R151, R384, R452). None while that read waits. -/
def replayWord (s : State) (gk : Nat) (g : Group) (w : MemWord) : State × Option MemWord :=
  let d1 := fun (a : LaneAcc) => match w.op with | .rscl => rsclTable g w.word | _ => a.d1
  let fresh := { w with lanes := w.lanes.map (fun x => (x.1, match x.2.st with | .listed _ _ => { x.2 with st := .walk, d1 := d1 x.2 } | _ => x.2)) }
  match w.op, w.lanes.find? (fun x => match x.2.st with | .listed _ _ => true | _ => false) with
  | .mlr _, some x =>
    let fails := fun (sub fab : Nat) => some { w with lanes := w.lanes.map (fun y => (y.1, match y.2.st with
      | .listed _ _ => { y.2 with st := .listed sub fab }
      | _ => y.2)) }
    if x.2.d1.toNat % 256 ≠ 0 then (s, fails scMisalign 0)
    else
      let r := spanRead { s with focus := some (gk, x.1) } (some g.core) (dieOfCore g.core) x.2.d1.toNat 256
      ({ r.1 with focus := s.focus }, match r.2 with
        | .ok v => some { fresh with blk := v }
        | .wait => none
        | .fault sub => fails sub 0
        | .poison _ _ => fails scPoison 0
        | .remote code => fails scRemote code)
  | _, _ => (s, some fresh)
/-- Records performed one after another: the next starts once the one before has completed in every lane, and a listed lane
stops the rest; `n` bounds them. -/
def replayGo : Nat → State → Nat → State
  | 0, s, _ => s
  | n + 1, s, gk =>
    match tget s.groups gk with
    | none => s
    | some g =>
      match g.replays with
      | [] => s
      | w :: t =>
        if g.words.any (fun x => x.replay && (wordOpen x || wordFaulted x)) || replayFull s g w then s
        else
          match replayWord s gk g w with
          | (s0, none) => s0
          | (s0, some x) =>
            let s1 := modGroup s0 gk (fun q => { q with replays := t })
            let s2 := if wordFaulted x then modGroup s1 gk (fun q => { q with words := q.words ++ [x] }) else startWord s1 gk x
            replayGo n (settleAll (tidy (gredList s2 gk) gk)) gk
/-- The records that TRET has still to perform, as far as they go now (R384). -/
def replayNext (s : State) (gk : Nat) : State :=
  match tget s.groups gk with
  | none => s
  | some g => replayGo g.replays.length s gk

/-- The lanes of a group that wait for a translation and are not entered for a walk look again: what kept them was an earlier lane's walk, or
want of room in their die (R116, R117). -/
def lookAgain (s : State) (gk : Nat) : State :=
  match tget s.groups gk with
  | none => s
  | some g =>
    let pend := pendList s (dieOfCore g.core)
    (g.words.filter wordWalks).foldl (fun a w =>
      (w.lanes.filter (fun x => x.2.st = .walk && !(pend.contains (vpageOf (needVa w.op x.2))))).foldl (fun q x =>
        lookLane (lookLane q gk w.id x.1) gk w.id x.1) a) s
/-- What follows any progress of a group's memory words: lanes that could not ask for a walk look again, faults defer later words,
completed words leave, fences and records go on. -/
def settleGroup (s : State) (gk : Nat) : State :=
  replayNext (settleAll (tidy (gredList (deferGroup (settleSpad (deferGroup (lookAgain s gk) gk) gk) gk) gk) gk)) gk

end Sys2Proof.Machine
end

