-- ==== Sys2Proof/Machine/MemServe.lean ====
section
/-! DEFINITION. Performing the lanes of memory words: loads (R159, R161, R169), stores (R159, R160, R171, R317), atomics with
release, acquire and promotion (R310, R313, R314), RED (R147 to R149), PREF, CFLUSH and CINV (R173 to R175), GRED (R105, R106)
and MLR (R151, R152); and the issue of a memory word. -/

namespace Sys2Proof.Machine

/-- Offset in the register window. -/
def regOff (da : Nat) : Nat := localOf da - 0x200000000000

/-! ## Loads -/

/-- The bytes that a load lane reads next: address, length, the bytes before it, and whether it is the last piece. An LDU
lane that crosses an aligned 8-byte word is two reads (R170). -/
def loadPiece (op : MemOp) (a : LaneAcc) (da da2 : Nat) : Nat × Nat × Nat × Bool :=
  let n := opBytes op
  let o := a.va.toNat % 8
  match op with
  | .loadu _ _ =>
    if o + n ≤ 8 then (da, n, 0, true)
    else if a.d1 = 2 then ((if (lanePages op a).length = 2 then da2 else da + (8 - o)), n - (8 - o), 8 - o, true)
    else (da, 8 - o, 0, false)
  | _ => (da, n, 0, true)

/-- Physical bank of a local HBM address (Table 3.1): stack, channel, bank group and bank. -/
def bankOf (la : Nat) : Nat := bitsOf la 36 3 * 2048 + bitsOf la 16 5 * 64 + bitsOf la 12 4 * 4 + bitsOf la 10 2
/-- NC of the page of an LDU lane's second piece (R162). -/
def secondNc (op : MemOp) (a : LaneAcc) (nc : Bool) : Bool := if (lanePages op a).length = 2 then decide (a.d1 = 8) else nc
/-- A piece that has come: kept, or joined to the value that waits to be written. -/
def gotPiece (s : State) (gk : Nat) (w : MemWord) (l : Nat) (a : LaneAcc) (p : Nat × Nat × Nat × Bool) (da da2 : Nat) (nc : Bool) (v : Nat) : State :=
  if p.2.2.2 then
    let whole := if p.2.2.1 = 0 then v else a.d0.toNat + v * 2 ^ (8 * p.2.2.1)
    let bank := match w.op with | .gred _ => bankOf (localOf da) | _ => 0
    setSt s gk w.id l (.data (BitVec.ofNat 64 whole) (BitVec.ofNat 64 bank))
  else setLane s gk w.id l (fun b => { b with st := .req da da2 (secondNc w.op a nc), d0 := BitVec.ofNat 64 v, d1 := 2 })

/-- What stands before a .s access to a line: contributions of the core to it are flushed, and a store that its L1 has taken is performed; its
store buffer serves it (R148, R160, R309). -/
def sbRead (s : State) (c dl : Nat) (but : Option Nat := none) : State × Bool :=
  if takenAt s c but (some dl) then (s, false)
  else if mbAny s c (·.line = dl) then (mbAsk s c (·.line = dl), false) else (s, true)
/-- A read of a local line of memory by a lane's fibre: buffers first, then a hit, or the home when it admits the request. -/
def laneLine (s : State) (c b : Nat) (t : MType) (priv : Bool) (line : Nat) (m : LineMask) (onlyHit : Bool) : State × Option Got :=
  let dl := devLine s line
  let r := if t = .s then sbRead s c dl else ownBuffers s c dl
  if !r.2 then (r.1, none)
  else
    let hit := (l1Hit r.1 c t line m).isSome
    if onlyHit && !hit then (s, none)
    else
      let h := if hit then r else admitType t r.1 line m false
      if !h.2 then (h.1, none)
      else
        let x := lineLoad h.1 c t line m
        let d1 := match t, sbGet (getCore x.1 c) dl with
          | .s, some e => overLine x.2.1 e.mask e.data
          | _, _ => x.2.1
        (x.1, some (if priv then privOver x.1 c b line d1 else d1, x.2.2))

/-- The core's buffered bytes of a remote line, kept with a .s load that goes there and merged over its answer (R160). -/
def keepBuffered (s : State) (gk id l c dl : Nat) (t : MType) : State :=
  match t, sbGet (getCore s c) dl with
  | .s, some e => modWord s gk id (fun w => { w with ans := tset w.ans (l * 32 + 31) (e.mask.toNat, e.data.toNat) })
  | _, _ => modWord s gk id (fun w => { w with ans := tdel w.ans (l * 32 + 31) })
/-- The value of `n` bytes from byte `off` of a line, with the bytes kept for a lane merged over it. -/
def overBuffered (w : MemWord) (l off n v : Nat) : Nat :=
  match tget w.ans (l * 32 + 31) with
  | some x => lineRead (overLine (lineAt off n v) (BitVec.ofNat 128 x.1) (BitVec.ofNat 1024 x.2)) off n
  | none => v
/-- Whether a load may be performed before an earlier CAS that may still fail, and then is a relaxed read that orders nothing (R314): a load of a
line of the device. Should the CAS succeed, the load is performed again (log 103). -/
def mayGuess (s : State) (g : Group) (w : MemWord) (l : Nat) (a : LaneAcc) : Bool :=
  match w.op, a.st with
  | .load _ _, .req da _ _ => (tgtOf s da = .hbm || tgtOf s da = .host) && afterOlder g w.id w.op l a true
  | _, _ => false
/-- What a guessed load keeps in `d0` and `d1`: its address and, above 16, the NC of its page. -/
def guessed (w : MemWord) (a : LaneAcc) : Bool := (match w.op with | .load _ _ => true | _ => false) && a.d1.toNat ≥ 16
/-- The guessed loads of a fibre that follow a CAS which has succeeded, to be performed again (R314). -/
def unguess (s : State) (gk id l : Nat) : State :=
  modGroup s gk (fun g => { g with words := g.words.map (fun w =>
    match tget w.lanes l with
    | some a => if w.id > id && guessed w a && (match a.st with | .data _ _ => true | _ => false) then
        { w with lanes := tset w.lanes l { a with st := .req a.d0.toNat 0 (decide (a.d1.toNat % 16 = 1)), d0 := 0, d1 := 0 } } else w
    | none => w) })
/-- A load lane served (R159, R161, R169). With `onlyHit`, only from the L1. -/
def serveLoad (s : State) (gk id l : Nat) (onlyHit : Bool) : State :=
  match wordAt s gk id with
  | none => s
  | some (g, w) =>
    match tget w.lanes l with
    | none => s
    | some a =>
      match a.st with
      | .req da da2 nc =>
        let ord := inOrder g w l a
        if !ord && !(mayGuess s g w l a) then s
        else
          let p := loadPiece w.op a da da2
          let t := servedType (opType w.op) nc (tgtOf s p.1)
          let la := localOf p.1
          match tgtOf s p.1 with
          | .reg => gotPiece s gk w l a p da da2 nc (regRead s (regOff p.1)).toNat
          | .remote =>
            if onlyHit then s
            else
              let dl := p.1 / 128
              let b := if t = .s then sbRead s g.core dl else ownBuffers s g.core dl
              if !b.2 then b.1
              else match fabRefuse b.1 (chipOf p.1) la with
              | some code => failLane b.1 gk w l scRemote code
              | none =>
                if !(fabRoom b.1 (chipOf p.1) la) then b.1
                else
                  let sn := fabNext b.1 (chipOf p.1) la
                  let s1 := setSt (fabSend (keepBuffered b.1 gk id l g.core dl t) (chipOf p.1) la (.read la p.2.1 (t = .u)) (.lane gk id l)) gk id l
                    (.remote (chipOf p.1) (planeOf la) sn)
                  if p.2.2.2 then s1
                  else setLane s1 gk id l (fun b => { b with d0 := BitVec.ofNat 64 da2, d1 := if secondNc w.op a nc then 5 else 4 })
          | _ =>
            let m := spanMask (la % 128) p.2.1
            let r := laneLine s g.core g.block t (tgtOf s p.1 = .hbm && !nc) (lineOf la) m onlyHit
            match r.2 with
            | none => r.1
            | some (d, pois) =>
              if (pois &&& spanSectors (la % 128) p.2.1) ≠ 0 then (if ord then failLane r.1 gk w l scPoison 0 else r.1)
              else
                let q := gotPiece r.1 gk w l a p da da2 nc (lineRead d (la % 128) p.2.1)
                if ord then q else setLane q gk id l (fun b => { b with d0 := BitVec.ofNat 64 da, d1 := if nc then 17 else 16 })
      | _ => s

/-! ## Stores -/

/-- The lane of a store word that has the last say at the bytes of a lane that waits: the highest that waits at them (R171). The lanes
of a word have one size and are aligned to it, so lanes that overlap have the same bytes. -/
def topLane (s : State) (w : MemWord) (x : Nat × LaneAcc) : Nat × LaneAcc :=
  match x.2.st with
  | .req da _ _ =>
    (w.lanes.filter (fun y => x.1 ≤ y.1 && (match y.2.st with
      | .req db _ _ => dlOf s db = dlOf s da && db % 128 = da % 128
      | _ => false))).getLastD x
  | _ => x
/-- NC of the page through which a waiting lane's bytes are written (R162, R171). -/
def laneNc (s : State) (w : MemWord) (x : Nat × LaneAcc) : Bool := match (topLane s w x).2.st with | .req _ _ nc => nc | _ => false
/-- Lanes of a word that wait at one device line and are written there as a page's NC says. -/
def lanesAtLine (s : State) (w : MemWord) (dl : Nat) (nc : Bool) : List (Nat × LaneAcc) :=
  w.lanes.filter (fun x => match x.2.st with | .req da _ _ => dlOf s da = dl && laneNc s w x = nc | _ => false)
/-- The bytes of some lanes of a store merged in ascending lane order: the highest lane wins (R171). -/
def mergeLanes (n : Nat) (ls : List (Nat × LaneAcc)) : LineMask × Line :=
  ls.foldl (fun (acc : LineMask × Line) x =>
    match x.2.st with
    | .req da _ _ =>
      let off := da % 128
      let m := spanMask off n
      (acc.1 ||| m, overLine acc.2 m (lineAt off n x.2.d0.toNat))
    | _ => acc) (0, 0)
/-- Some lanes of a word completed. -/
def doneLanes (s : State) (gk id : Nat) (ls : List (Nat × LaneAcc)) : State := ls.foldl (fun a x => setSt a gk id x.1 .done) s

/-- The lanes of a store word that wait at the line of a lane, performed together (R159, R160, R169, R171). -/
def serveStore (s : State) (gk id l : Nat) (onlyLocal : Bool) : State :=
  match wordAt s gk id with
  | none => s
  | some (g, w) =>
    match tget w.lanes l with
    | none => s
    | some a =>
      match a.st with
      | .req da _ _ =>
        let nc := laneNc s w (l, a)
        let t := servedType (opType w.op) nc (tgtOf s da)
        let n := opBytes w.op
        let c := g.core
        let dl := dlOf s da
        let ls := lanesAtLine s w dl nc
        if !(ls.all (fun x => inOrder g w x.1 x.2)) then s
        else match tgtOf s da with
          | .reg =>
            if onlyLocal || ls.any (fun x => x.1 < l) then s
            else
              let r := regStoreCore s (regOff da) a.d0
              if r.2 then setSt r.1 gk id l .done else r.1
          | .hole => s
          | tg =>
            let line := lineOf (localOf da)
            let region := fun (q : State) (x : Nat × LaneAcc) =>
              if tg = .hbm && !nc then regionAt q (regionCore q c) g.block (topLane s w x).2.va.toNat else none
            let pv := ls.filter (fun x => (region s x).isSome)
            let ot := ls.filter (fun x => (region s x).isNone)
            let s0 := pv.foldl (fun q x => match x.2.st, region q x with
              | .req da' _ _, some h =>
                let r := privStore q c h line (spanMask (da' % 128) n) (lineAt (da' % 128) n x.2.d0.toNat)
                if r.2 then setSt r.1 gk id x.1 .done else r.1
              | _, _ => q) s
            if ot.isEmpty then s0
            else
              let md := mergeLanes n ot
              if t = .s then
                let q := sbRead s0 c dl (some id)
                let r := if q.2 then sbRoom q.1 c dl else q
                if !r.2 then r.1
                else
                  let s2 := sbMerge r.1 c dl md.1 md.2 gk g.block
                  doneLanes (if tg = .remote then s2 else l1Update s2 (l1Core s2 c line) line md.1 md.2) gk id ot
              else if tg = .remote then
                if onlyLocal then s0
                else
                  let chip := chipOf da
                  let la := localOf da / 128 * 128
                  let b := ownBuffers s0 c dl (some id)
                  if !b.2 then b.1
                  else match fabRefuse b.1 chip la with
                  | some code => fabricTrap (doneLanes b.1 gk id ot) [g.block] 4 chip code
                  | none =>
                    if !(fabRoom b.1 chip la) then b.1
                    else
                      let sn := fabNext b.1 chip la
                      let s1 := fabSend b.1 chip la (.write la md.1 md.2 0 (t = .u)) (.lane gk id l)
                      ot.foldl (fun q x => setSt q gk id x.1 (.remote chip (planeOf la) sn)) s1
              else
                let own := match l1Get (getCore s0 (l1Core s0 c line)) line with | some x => x.form = .ow | none => false
                if onlyLocal && !(own && t = .o) then s0
                else
                  let b := ownBuffers s0 c dl (some id)
                  if !b.2 then b.1
                  else
                    let h := admitType t b.1 line md.1 true
                    if !h.2 then h.1
                    else doneLanes (if t = .o then lineStoreO h.1 c line md.1 md.2
                                    else lineStoreHome h.1 c line md.1 md.2) gk id ot
      | _ => s

/-! ## Atomics -/

/-- The operation of an atomic on an element and an operand (R313). -/
def aopApply (op : AOp) (old x : Nat) : Nat :=
  match op with
  | .addN32 => redComb .n32 .add old x | .addN64 => redComb .n64 .add old x
  | .addF32 => redComb .fp32 .add old x | .addF64 => redComb .fp64 .add old x
  | .addBf16 => redApply .bf16 .add old (fConvert fmt32 fmtB16 .rne false x).1
  | .minN32 => redComb .n32 .min old x | .maxN32 => redComb .n32 .max old x
  | .minS32 => redComb .s32 .min old x | .maxS32 => redComb .s32 .max old x
  | .minN64 => redComb .n64 .min old x | .maxN64 => redComb .n64 .max old x
  | .minS64 => redComb .s64 .min old x | .maxS64 => redComb .s64 .max old x
  | .minF32 => redComb .fp32 .min old x | .maxF32 => redComb .fp32 .max old x
  | .minF64 => redComb .fp64 .min old x | .maxF64 => redComb .fp64 .max old x
  | .and32 | .and64 => Nat.land old x
  | .or32 | .or64 => Nat.lor old x
  | .xor32 | .xor64 => Nat.xor old x
  | .exch32 | .exch64 => x

/-- The new element of an atomic word's lane, the second result, and whether the element is written. -/
def atomStep (op : MemOp) (old : Nat) (a : LaneAcc) : Nat × Nat × Bool :=
  let w := 8 * opBytes op
  match op with
  | .atom o _ _ => (aopApply o old (bitsOf a.d0.toNat 0 w) % 2 ^ w, 0, true)
  | .cas _ _ _ _ => if old = bitsOf a.d0.toNat 0 w then (bitsOf a.d1.toNat 0 w, 1, true) else (old, 0, false)
  | _ => (old, 0, false)

/-- Whether an atomic's lane acquires: with .facq also when the CAS fails (R314). -/
def lanesAcquire (op : MemOp) (ok : Bool) : Bool :=
  ordAcq (opOrd op) && (ok || match op with | .cas _ facq _ _ => facq | _ => false)

/-- What the request of an atomic to another device says of its order (R310). -/
def fabAcq (op : MemOp) (core : Nat) : Option (AScope × Nat) :=
  if ordAcq (opOrd op) && ascopeRank (opScope op) ≥ 4 then some (opScope op, core) else none
def fabRel (op : MemOp) (core : Nat) : Option (AScope × Nat) :=
  if ordRel (opOrd op) && ascopeRank (opScope op) < 4 then some (opScope op, core) else none
/-- Whether an acquire at a scope by a core of a device has a recorded release promoted: one whose own scope does not include the acquirer, on
a core that the acquire's scope includes (R310). -/
def promotes (scope : AScope) (acquirer : Nat × Nat) (r : Nat × Nat × AScope) : Bool :=
  let here := decide (r.1 = acquirer.1)
  !(here && (r.2.1 = acquirer.2 || (r.2.2 = .clu && clusterOf r.2.1 = clusterOf acquirer.2))) && (scope = .fab || here)
/-- Where a word keeps the promotion that the acquire part of a lane waits for: chip and core as one number, and the name that the next
word had when the promotion began, or for another device the line. -/
def promKey (l : Nat) : Nat := l * 32 + 28
/-- Whether a lane's access is held behind an acquire of its fibre that waits for a promotion: no write that a recorded release covers
is among them (log 25). -/
def behindPromotion (g : Group) (id l : Nat) : Bool := g.words.any (fun e => e.id < id && (tget e.ans (promKey l)).isSome)
/-- A core's buffers drained and flushed and every write that it issued before the promotion reached it performed; whether that is done
(R310). -/
def promoteCore (s : State) (rc before : Nat) : State × Bool :=
  let r := sbDrainAll s rc (fun _ => true)
  let s1 := mbAsk r.1 rc (fun _ => true)
  let st := s1.groups.any (fun g => g.2.core = rc && g.2.words.any (fun w => w.id < before && opAsWrite w.op &&
    w.lanes.any (fun x => (match x.2.st with | .walk | .req _ _ _ | .remote _ _ _ => true | _ => false) && !(behindPromotion g.2 w.id x.1))))
  let out := s1.fab.tx.any (fun t => match t.origin with | .drain c _ _ | .merge c _ _ _ => c = rc | _ => false)
  (s1, r.2 && !(mbAny s1 rc (fun _ => true)) && !st && !out)
/-- A promotion that asks another device, over the fabric; its answer is kept with the word (R310). A device that cannot be
asked has nothing left to drain. -/
def promoteAsk (s : State) (gk id l line chip rc : Nat) : State × Bool :=
  match wordAt s gk id with
  | none => (s, true)
  | some (_, w) =>
    if (tget w.ans (l * 32)).isSome || (fabRefuse s chip (line * 128)).isSome then (s, true)
    else if s.fab.tx.any (fun t => t.origin = .mlr gk id l 0) || !(fabRoom s chip (line * 128)) then (s, false)
    else (fabSend s chip (line * 128) (.promote rc) (.mlr gk id l 0), false)
/-- The acquire part of an atomic's lane that has read: it begins the promotion of a recorded release that it has read, by the record's chip,
core and scope, and is over at once without one (R310, R313). -/
def acquireBegin (s : State) (gk id l core line : Nat) (op : MemOp) (rel : Option (Nat × Nat × AScope)) : State :=
  let rank := ascopeRank (opScope op)
  match rel with
  | some r =>
    if rank ≥ 4 && promotes (opScope op) (s.fab.chipid, core) r then
      modWord s gk id (fun w => { w with ans := tset w.ans (promKey l) (r.1 * 65536 + r.2.1, if r.1 = s.fab.chipid then s.nextId else line) })
    else acquireDo s core rank
  | none => acquireDo s core rank
/-- The promotion that a lane waits for, tried: the recorded core drains and flushes, and its earlier stores are performed; then the acquire
part is over (R310). The flag says so. -/
def acquireTry (s : State) (core gk id l : Nat) (w : MemWord) : State × Bool :=
  match tget w.ans (promKey l) with
  | none => (s, true)
  | some (x, b) =>
    let p := if x / 65536 = s.fab.chipid then promoteCore s (x % 65536) b else promoteAsk s gk id l b (x / 65536) (x % 65536)
    if p.2 then (acquireDo (modWord p.1 gk id (fun q => { q with ans := tdel q.ans (promKey l) })) core (ascopeRank (opScope w.op)), true) else p

/-- Where a CAS to another device keeps that its lane has first read the element: 0 while the read is out, 1 when it has found the expected
value (R314). -/
def probeKey (l : Nat) : Nat := l * 32 + 29
/-- Whether the lane of a CAS to another device first reads the element: its release has something to wait for, which acts only for a lane
that succeeds (R314). DESIGN CHOICE (log 116): a lane that acquires whether it fails or not sends the CAS after its release. -/
def probes (s : State) (gk id : Nat) (w : MemWord) (l : Nat) : Bool :=
  match w.op with
  | .cas _ facq _ _ => ordRel (opOrd w.op) && !(facq && ordAcq (opOrd w.op)) && (tget w.ans (probeKey l)).isNone
      && !(releaseTry s gk id (ascopeRank (opScope w.op)) (laneBit l)).2
  | _ => false
/-- Whether the lane of an atomic writes, as the element stands at its home: the release part of a CAS acts only for lanes that
succeed (R314). Of a line of another device it is known by the read that `probes` asks for. -/
def atomWrites (s : State) (op : MemOp) (a : LaneAcc) (da : Nat) : Bool :=
  match tgtOf s da with
  | .remote => true
  | _ =>
    let line := lineOf (localOf da)
    (atomStep op (lineRead (memLine (recallOw s line none) line) (localOf da % 128) (opBytes op)) a).2.2
/-- An atomic's lane that has read: its results wait to be written, and its acquire part begins; after a CAS that has succeeded, loads that
went before it are performed again (R313, R314). -/
def atomRead (s : State) (gk : Nat) (g : Group) (w : MemWord) (l line old v2 : Nat) (ok : Bool) (rel : Option (Nat × Nat × AScope)) : State :=
  let s1 := setSt s gk w.id l (.data (BitVec.ofNat 64 old) (BitVec.ofNat 64 v2))
  if lanesAcquire w.op ok then acquireBegin (unguess s1 gk w.id l) gk w.id l g.core line w.op rel else s1
/-- An atomic's lane: lower lanes of the word at its line first, release, then one indivisible step at the home, then the
acquire part with its promotion (R310, R312 to R314). -/
def serveAtom (s : State) (gk id l : Nat) : State :=
  match wordAt s gk id with
  | none => s
  | some (g, w) =>
    match tget w.lanes l with
    | none => s
    | some a =>
      match a.st with
      | .req da _ nc =>
        let c := g.core
        let n := opBytes w.op
        let dl := dlOf s da
        let la := localOf da
        let first := !(w.lanes.any (fun x => x.1 < l && (match x.2.st with | .req d _ _ => dlOf s d = dl | .remote _ _ _ => sameLine n x.2 n a | _ => false)))
        if !(inOrder g w l a) || !first then s
        else
          let b := ownBuffers s c dl
          if !b.2 then b.1
          else
            let ok := atomWrites b.1 w.op a da
            let pr := tgtOf s da = .remote && probes b.1 gk id w l
            let r := if ordRel (opOrd w.op) && ok && !pr then releaseTry b.1 gk id (ascopeRank (opScope w.op)) (laneBit l) else b
            if !r.2 then r.1
            else if tgtOf s da = .remote then
              match fabRefuse r.1 (chipOf da) la with
              | some code => failLane r.1 gk w l scRemote code
              | none =>
                if !(fabRoom r.1 (chipOf da) la) then r.1
                else
                  let sn := fabNext r.1 (chipOf da) la
                  let req := if pr then FabReq.read la n nc else match w.op with
                    | .cas is64 facq _ _ => FabReq.cas la is64 facq a.d0 a.d1 nc (fabAcq w.op c) (fabRel w.op c)
                    | .atom o _ _ => FabReq.atom la o a.d0 nc (fabAcq w.op c) (fabRel w.op c)
                    | _ => FabReq.read la n nc
                  let s1 := if pr then modWord r.1 gk id (fun q => { q with ans := tset q.ans (probeKey l) (0, 0) }) else r.1
                  setSt (fabSend s1 (chipOf da) la req (.lane gk id l)) gk id l (.remote (chipOf da) (planeOf la) sn)
            else
              let line := lineOf la
              let m := spanMask (la % 128) n
              let thru := nc && tgtOf s da = .host
              let h := admitType (if nc then .u else .o) r.1 line m true
              if !h.2 then h.1
              else
                let rec_ := tget h.1.coh.records line
                let s1 := if thru then recallOw h.1 line none else windowTake (recallOw h.1 line none) line m true
                if (memPoison s1 line &&& spanSectors (la % 128) n) ≠ 0 then failLane s1 gk w l scPoison 0
                else
                  let old := lineRead (memLine s1 line) (la % 128) n
                  let r := atomStep w.op old a
                  let s2 := if r.2.2 then
                      let k := l1Core s1 c line
                      let d := lineAt (la % 128) n r.1
                      let s3 := l1Update (if thru then hostThrough s1 (some k) line m d else homeWrite s1 (some k) line m d 0) k line m d
                      if ordRel (opOrd w.op) && ascopeRank (opScope w.op) < 4 then setRecord s3 line (some (s.fab.chipid, c, opScope w.op)) else s3
                    else s1
                  atomRead s2 gk g w l line old r.2.1 r.2.2 rec_
      | _ => s

/-! ## RED -/

/-- An element of a line in memory combined with a contribution at the home, as one indivisible step; poison leaves it and
raises STORAGE in the issuing blocks (R149). DESIGN CHOICE (log 118): the value of a merge-buffer entry does not say who contributed to which
element, so that every block that contributed to the entry is an issuing block. `thru`: a .u request to the host window, written through (R127). -/
def redAtHome (s : State) (blocks : List Nat) (line off : Nat) (ty : RedTy) (op : RedOp) (v : Nat) (thru : Bool) : State :=
  let n := (if ty = .bf16 then 16 else redWidth ty) / 8
  let s1 := recallOw s line none
  if (memPoison s1 line &&& spanSectors off n) ≠ 0 then
    blocks.foldl (fun a b => impRaise a b 12 4 (BitVec.ofNat 64 (devLine s line * 128 + off))) s1
  else
    let new := redApply ty op (lineRead (memLine s1 line) off n) v
    let m := spanMask off n
    if thru then hostThrough s1 none line m (lineAt off n new)
    else homeWrite (windowTake s1 line m true) none line m (lineAt off n new) 0

/-- The value that a contribution keeps: .bf16 as FP32 (R147). -/
def redVal (ty : RedTy) (x : Nat) : Nat :=
  match ty with
  | .bf16 => (fConvert fmt32 fmtB16 .rne false (x % 65536)).1
  | ty => x % 2 ^ redWidth ty

/-- A RED lane: into the merge buffer, or at once to its home on a page with NC = 1 (R147). It waits for an entry of another
type or one being flushed. -/
def serveRed (s : State) (gk id l : Nat) : State :=
  match wordAt s gk id with
  | none => s
  | some (g, w) =>
    match tget w.lanes l, w.op with
    | some a, .red ty op =>
      match a.st with
      | .req da _ nc =>
        let c := g.core
        let dl := dlOf s da
        let off := da % 128
        let la := localOf da
        let v := redVal ty a.d0.toNat
        let first := !(w.lanes.any (fun x => x.1 < l && (match x.2.st with | .req d _ _ => dlOf s d = dl | _ => false)))
        if !(inOrder g w l a) || !first || takenAt s c none (some dl) then s
        else if nc then
          if tgtOf s da = .remote then
            match fabRefuse s (chipOf da) la with
            | some code => fabricTrap (setSt s gk id l .done) [g.block] 4 (chipOf da) code
            | none =>
              if !(fabRoom s (chipOf da) la) then s
              else setSt (fabSend s (chipOf da) la (.red (lineOf la) ty op (spanMask off (opBytes w.op)) [(off, BitVec.ofNat 64 v)] true) (.drain c [gk] [g.block])) gk id l .done
          else
            let h := admitType .u s (lineOf la) (spanMask off (opBytes w.op)) true
            if h.2 then setSt (redAtHome h.1 [g.block] (lineOf la) off ty op v (tgtOf s da = .host)) gk id l .done else h.1
        else
          let k := getCore s c
          match k.mb.find? (·.line = dl) with
          | some e =>
            if e.flushed then s
            else if e.ty ≠ ty || e.op ≠ op then mbAsk s c (·.line = dl)
            else
              let x := match tget e.vals off with
                | none => v
                | some o => redComb ty op o.toNat v
              let e1 := { e with vals := tset e.vals off (BitVec.ofNat 64 x), groups := natInsert e.groups gk, blocks := natInsert e.blocks g.block }
              setSt (modCore s c (fun q => { q with mb := e1 :: q.mb.filter (·.line ≠ dl) })) gk id l .done
          | none =>
            if k.mb.length ≥ 32 then
              match k.mb.getLast? with
              | some e => mbAsk s c (·.line = e.line)
              | none => s
            else
              let e : MbEntry := { line := dl, ty := ty, op := op, vals := [(off, BitVec.ofNat 64 v)], groups := [gk], blocks := [g.block], flushed := false }
              setSt (modCore s c (fun q => { q with mb := e :: q.mb })) gk id l .done
      | _ => s
    | _, _ => s

/-! ## PREF, CFLUSH and CINV -/

/-- A PREF lane: the line is brought in, a remote one into its fabric home slice, or the lane is dropped (R173). -/
def servePref (s : State) (gk id l : Nat) : State :=
  match wordAt s gk id with
  | none => s
  | some (g, w) =>
    match tget w.lanes l, w.op with
    | some a, .pref k t =>
      match a.st with
      | .req da _ nc =>
        let la := localOf da
        let line := lineOf la
        let m := spanMask (da % 128) 1
        match tgtOf s da with
        | .hbm | .host =>
          if heldLa s la || (memPoison s line &&& spanSectors (da % 128) 1) ≠ 0 then setSt s gk id l .done
          else
            let t1 := servedType t nc (tgtOf s da)
            let h := admitType t1 s line m false
            if !h.2 then h.1
            else setSt (if k || t1 = .u then h.1 else (lineLoad h.1 g.core t1 line m).1) gk id l .done
        | .remote =>
          if nc || t = .u || (fabRefuse s (chipOf da) la).isSome then setSt s gk id l .done
          else if !(fabRoom s (chipOf da) la) then s
          else
            let sn := fabNext s (chipOf da) la
            setSt (fabSend s (chipOf da) la (.read la 1 false) (.lane gk id l)) gk id l (.remote (chipOf da) (planeOf la) sn)
        | _ => setSt s gk id l .done
      | _ => s
    | _, _ => s

/-- Whether a row set of an address is in hand-over to the bank path (R57). -/
def givingLa (s : State) (la : Nat) : Bool :=
  la < 0x8000000000 && (getStack s (la / 2 ^ 36)).leases.any (fun x =>
    (match x.2.st with | .giving _ => true | _ => false) && x.2.rowSets.contains (rowSetOf la))
/-- A CFLUSH lane (R174): the store-buffer entry drains, the L1 copy is written back and dropped; at level 1 every copy is,
the host's and the fabric slice's copies are back-invalidated and the slice forgets the line. A line of a held row set is in no
cache; one in hand-over waits for the sweep. -/
def serveFlush (s : State) (gk id l : Nat) : State :=
  match wordAt s gk id with
  | none => s
  | some (g, w) =>
    match tget w.lanes l, w.op with
    | some a, .cflush k =>
      match a.st with
      | .req da _ nc =>
        let line := lineOf (localOf da)
        let tg := tgtOf s da
        if nc || (tg ≠ .hbm && tg ≠ .host) then setSt s gk id l .done
        else if givingLa s (localOf da) then waitAt s line
        else if heldLa s (localOf da) then setSt s gk id l .done
        else if !(inOrder g w l a) || takenAt s g.core none (some (dlOf s da)) then s
        else
          let r := sbDrain s g.core (dlOf s da)
          if !r.2 then r.1
          else
            let s1 := l1Drop r.1 (l1Core r.1 g.core line) line
            if !k then setSt s1 gk id l .done
            else
              if lineBusy s1 line then snoopLine s1 line
              else setSt (llcEvict (dropAll s1 line) line) gk id l .done
      | _ => s
    | _, _ => s

/-- A CINV lane: the UT copy of its line in the issuing L1 is dropped (R175). -/
def serveInv (s : State) (gk id l : Nat) : State :=
  match wordAt s gk id with
  | none => s
  | some (g, w) =>
    match tget w.lanes l with
    | some a =>
      match a.st with
      | .req da _ _ => setSt (dropUtOf s g.core (fun x => x = lineOf (localOf da) && tgtOf s da ≠ .remote)) gk id l .done
      | _ => s
    | none => s

/-! ## MLR -/

/-- Whether an MLR block is malformed (R151). -/
def mlrBad (blk : Nat) : Bool :=
  let n := bitsOf blk 0 6
  let ms := (List.range n).map (mlrMember blk)
  n = 0 || n > 32 || bitsOf blk 6 58 ≠ 0 || bitsOf blk 136 120 ≠ 0 || bitsOf blk 1280 768 ≠ 0
    || (List.range 32).any (fun i => bitsOf blk (256 + 32 * i + 18) 14 ≠ 0)
    || ms.contains 0x3FFFF || ms.eraseDups.length ≠ n
/-- An answer of a member kept. -/
def mlrKeep (s : State) (gk id l i code v : Nat) : State := modWord s gk id (fun w => { w with ans := tset w.ans (l * 32 + i) (code, v) })
/-- Lanes of an MLR word that still name the line of an offset: they share one multicast (R152). -/
def mlrLanes (w : MemWord) (off : Nat) : List (Nat × LaneAcc) :=
  w.lanes.filter (fun x => match x.2.st with | .req o _ _ => o / 128 = off / 128 | _ => false)
/-- A member's answer to the multicast of a line given to the lanes that name it: each takes its element, or POISON when its own
sectors carry it (R151, R152). -/
def mlrShare (s : State) (gk id i off n : Nat) (ans : FabAns) : State :=
  match wordAt s gk id with
  | none => s
  | some (_, w) =>
    (mlrLanes w off).foldl (fun q x => match x.2.st with
      | .req o _ _ =>
        let code := if ans.code = 3 && ans.poison ≠ 0 && ans.poison &&& spanSectors (o % 128) n = 0 then 0 else ans.code
        if (tget w.ans (x.1 * 32 + i)).isSome then q
        else mlrKeep q gk id x.1 i code (if code = 0 then lineRead ans.data (o % 128) n else 0)
      | _ => q) s
/-- One member read of an MLR lane, if it has not been made: the device itself reads locally, another member is asked over the
fabric for the line, once for all lanes that name it; NOADDR for an offset that is no memory (R151, R152). The core's own buffered
bytes of the line go first (R148, R160). -/
def mlrAsk (s : State) (gk id l i off n : Nat) (nc : Bool) : State :=
  match wordAt s gk id with
  | none => s
  | some (g, w) =>
    let chip := mlrMember w.blk i
    let asked := s.fab.tx.any (fun t => (mlrLanes w off).any (fun x => t.origin = .mlr gk id x.1 i))
    if (tget w.ans (l * 32 + i)).isSome || asked then s
    else
      let here := decide (chip = s.fab.chipid)
      let b := ownBuffers s g.core (if here then devLine s (lineOf off) else chip * 2 ^ 39 + lineOf off)
      if !b.2 then b.1
      else if here then
        match tgtLocal off with
        | .hbm | .host =>
          let line := lineOf off
          let m := spanMask (off % 128) n
          let h := admitType (if nc then .u else .o) b.1 line m false
          if !h.2 then h.1
          else
            let s1 := if nc then homeRead h.1 line else windowTake (homeRead h.1 line) line m false
            if (memPoison s1 line &&& spanSectors (off % 128) n) ≠ 0 then mlrKeep s1 gk id l i 3 0
            else mlrKeep s1 gk id l i 0 (lineRead (memLine s1 line) (off % 128) n)
        | _ => mlrKeep b.1 gk id l i 2 0
      else match fabRefuse b.1 chip off with
        | some code => mlrKeep b.1 gk id l i code 0
        | none => if fabRoom b.1 chip off then fabSend b.1 chip off (.read (off / 128 * 128) 128 nc) (.mlr gk id l i) else b.1
/-- The member reads of an MLR lane, in any order, once its fibre's earlier accesses let it (R152). -/
def serveMlr (s : State) (gk id l : Nat) : State :=
  match wordAt s gk id with
  | none => s
  | some (g, w) =>
    match tget w.lanes l with
    | some a =>
      match a.st with
      | .req off _ nc =>
        if mlrBad w.blk || !(inOrder g w l a) then s
        else (List.range (bitsOf w.blk 0 6)).foldl (fun q i => mlrAsk q gk id l i off (opBytes w.op) nc) s
      | _ => s
    | none => s
/-- Whether every member of an MLR lane has answered. -/
def mlrReady (w : MemWord) (l : Nat) : Bool :=
  mlrBad w.blk || (List.range (bitsOf w.blk 0 6)).all (fun i => (tget w.ans (l * 32 + i)).isSome)
/-- The result of an MLR lane: count, code and sum in ascending member order (R151). -/
def mlrLane (w : MemWord) (l : Nat) : W64 :=
  if mlrBad w.blk then BitVec.ofNat 64 (5 * 2 ^ 32 + 0x80000000)
  else
    let f := match w.op with | .mlr true => fmt32 | _ => fmtB16
    let r := (List.range (bitsOf w.blk 0 6)).foldl (fun (acc : Nat × Nat × Nat) i =>
      let x := tgetD w.ans (l * 32 + i) (1, 0)
      if x.1 = 0 then (add32 acc.1 (fConvert fmt32 f .rne false x.2).1, acc.2.1 + 1, acc.2.2)
      else (acc.1, acc.2.1, if acc.2.2 = 0 then x.1 else acc.2.2)) (0x80000000, 0, 0)
    BitVec.ofNat 64 (r.1 + r.2.2 * 2 ^ 32 + r.2.1 * 2 ^ 40)

/-! ## After translation, and issue -/

/-- What a translated word does at once: CINV drops, RED merges, stores that the store buffer or an owned L1 copy takes. -/
def afterStart (s : State) (gk id : Nat) : State :=
  match wordAt s gk id with
  | none => s
  | some (_, w) =>
    (tkeys w.lanes).foldl (fun q l => match w.op with
      | .cinv => serveInv q gk id l
      | .red _ _ => serveRed q gk id l
      | .store _ _ => serveStore q gk id l true
      | _ => q) s

/-- Logical index of a lane's destination, or the uniform register (Table 15.6); 65,536 for a latch or no destination. A uniform
register takes the value of the lowest lane that takes part (R209). -/
def destOf (cx : Ctx) (d : Dst) (l : Nat) : Nat :=
  match d with | .v r => logicalOf (getFibre cx.grp l) r.val | .s r => r.val | .y _ => 65536
/-- A register as a destination. -/
def regDst : Reg → Dst | .v r => .v r | .s r => .s r

/-- A memory word issued for some lanes, each with its address and data (R117, R169). It stalls while the group's gate is
shut, while 32 words wait for translation, or while its die has no room for its pages or the fabric none for its transactions (R116,
R138). -/
def issueMem (cx : Ctx) (s : State) (op : MemOp) (d : Dst) (blk : Nat) (ents : List (Nat × W64 × W64 × W64)) (ans : Tbl (Nat × Nat) := []) : WRes :=
  let s1 := settleGroup s cx.gk
  if !(memGate s1 cx.gk) then .stall s1
  else if ents.isEmpty then .ok s1
  else match tget s1.groups cx.gk with
    | none => .ok s1
    | some g =>
      if memFull s1 g op (ents.map (fun e => e.2.1.toNat)) blk then .stall s1
      else
        let f := freshId s1
        let w : MemWord :=
          { id := f.1, op := op, mask := cx.path.mask, uni := !d.notS, caddr := cx.path.pc,
            widx := if cx.path.pfx.isSome then cx.path.widx - 1 else cx.path.widx,
            word := rotWord cx.path.loop cx.path.cur,
            pfxw := match cx.path.pfx with | some p => rotWord cx.path.loop p.toNat | none => 0,
            lanes := ents.zipIdx.map (fun e =>
              (e.1.1, { st := LaneSt.walk, va := e.1.2.1, d0 := e.1.2.2.1, d1 := e.1.2.2.2,
                        dlog := if !d.notS && e.2 ≠ 0 then 65536 else destOf cx d e.1.1 })),
            blk := blk, ans := ans, replay := false }
        .ok (settleGroup (afterStart (startWord f.2 cx.gk w) cx.gk f.1) cx.gk)

/-- Lanes that take part in a memory word: active and unmasked; a word with side effects leaves helper lanes out (R168, R362). -/
def memLanes (cx : Ctx) (effects : Bool) : List Nat := (partLanes cx).filter (fun l => !(effects && isHelper cx.grp l))
/-- Active lanes that the prefix masks off get 0 in a window register under MZ (R31). -/
def zeroMasked (cx : Ctx) (s : State) (r : Nat) : State :=
  if (pfxOf cx).mz then
    modGroup s cx.gk (fun g => ((lanesOf cx.path.mask).filter (fun l => !(elemOn cx l 0))).foldl (fun a l => vSet a l r 0) g)
  else s
/-- A register operand in a lane. -/
def regVal (cx : Ctx) (a : Reg) (l : Nat) : W64 := match a with | .v r => vGet cx.grp l r.val | .s r => sGet cx.grp r.val
/-- Address of a lane: base plus the signed offset times the size (R169). -/
def laneAddr (cx : Ctx) (a : Reg) (off : BitVec 6) (n l : Nat) : W64 :=
  regVal cx a l + BitVec.ofInt 64 (off.toInt * n)

/-- A load word (LD, LDS, LDU): per lane, or one access for a uniform destination (R169). -/
def loadWord (s : State) (d a : Reg) (op : MemOp) (n : Nat) (off : BitVec 6) : Out :=
  runWord s (pendingOn (regRegs d ++ regRegs a)) (fun cx =>
    let ls := memLanes cx false
    let ents := ls.map (fun l => (l, laneAddr cx a off n l, (0 : W64), (0 : W64)))
    match d with
    | .s _ => issueMem cx s op (regDst d) 0 (ents.take 1)
    | .v r => issueMem cx (zeroMasked cx s r.val) op (regDst d) 0 ents)

end Sys2Proof.Machine
end

