-- ==== Sys2Proof/Machine/MemWords.lean ====
section
/-! DEFINITION. The memory words (chapter 07), atomics and fences (chapter 12), RED and MLR (chapter 06), GRED (chapter 04) and
RSCL (chapter 10), and the events that carry them on: page walks, home-slice reads and writes, responses, element
applications. -/

namespace Sys2Proof.Machine

/-! ## Loads and stores -/

/-- LD (R169). -/
def execLd (d a : Reg) (t : MType) (z : MSize) (off : BitVec 6) (s : State) : Out := loadWord s d a (.load t z) (sizeBytes z) off
/-- LDU (R169, R170). -/
def execLdu (d a : Reg) (t : MType) (z : MSize) (off : BitVec 6) (s : State) : Out := loadWord s d a (.loadu t z) (sizeBytes z) off
/-- LDS (R169). -/
def execLds (d a : Reg) (z : MSize) (off : BitVec 6) (s : State) : Out := loadWord s d a (.lds z) (sizeBytes z) off

/-- A store word: data from an integer source (R167, R169). -/
def storeWord (s : State) (d : Src) (a : Reg) (op : MemOp) (n : Nat) (off : BitVec 6) : Out :=
  runWord s (pendingOn (srcRegs d ++ regRegs a)) (fun cx =>
    if !(srcReady cx false d) then operandTrap cx
    else issueMem cx s op (srcDst d) 0 ((memLanes cx true).map (fun l => (l, laneAddr cx a off n l, readSrc cx .int d l, (0 : W64)))))
/-- ST (R169). -/
def execSt (d : Src) (a : Reg) (t : MType) (z : MSize) (off : BitVec 6) (s : State) : Out :=
  storeWord s d a (.store t z) (sizeBytes z) off
/-- STS (R169). -/
def execSts (d : Src) (a : Reg) (z : MSize) (off : BitVec 6) (s : State) : Out := storeWord s d a (.sts z) (sizeBytes z) off

/-- Base plus scaled signed 32-bit index (R172). -/
def gathAddr (cx : Ctx) (a : Reg) (b : Fin 32) (n l : Nat) : W64 :=
  sGet cx.grp b.val + BitVec.ofInt 64 (toSigned 32 (regVal cx a l).toNat * n)
/-- GATH (R172). -/
def execGath (d : Fin 32) (a : Reg) (b : Fin 32) (z : MSize) (s : State) : Out :=
  runWord s (pendingOn (d.val :: (64 + b.val) :: regRegs a)) (fun cx =>
    issueMem cx (zeroMasked cx s d.val) (.load .o z) (.v d) 0
      ((memLanes cx false).map (fun l => (l, gathAddr cx a b (sizeBytes z) l, (0 : W64), (0 : W64)))))
/-- SCAT (R172). -/
def execScat (d : Src) (a : Reg) (b : Fin 32) (z : MSize) (s : State) : Out :=
  runWord s (pendingOn ((64 + b.val) :: (srcRegs d ++ regRegs a))) (fun cx =>
    if !(srcReady cx false d) then operandTrap cx
    else issueMem cx s (.store .o z) (srcDst d) 0
      ((memLanes cx true).map (fun l => (l, gathAddr cx a b (sizeBytes z) l, readSrc cx .int d l, (0 : W64)))))

/-- PREF (R173). -/
def execPref (k : Bool) (a : Reg) (t : MType) (off : BitVec 6) (s : State) : Out :=
  runWord s (pendingOn (regRegs a)) (fun cx =>
    issueMem cx s (.pref k t) (.y 0) 0 ((memLanes cx true).map (fun l => (l, laneAddr cx a off 1 l, (0 : W64), (0 : W64)))))
/-- CFLUSH (R174). -/
def execCflush (a : Reg) (k : Bool) (s : State) : Out :=
  runWord s (pendingOn (regRegs a)) (fun cx =>
    issueMem cx s (.cflush k) (.y 0) 0 ((memLanes cx true).map (fun l => (l, regVal cx a l, (0 : W64), (0 : W64)))))
/-- CINV and CINV.all (R175); .all acts once per issue, whatever the lanes, behind the group's gate. -/
def execCinv (a : Option Reg) (s : State) : Out :=
  runWord s (pendingOn (match a with | some r => regRegs r | none => [])) (fun cx =>
    match a with
    | some r => issueMem cx s .cinv (.y 0) 0 ((memLanes cx true).map (fun l => (l, regVal cx r l, (0 : W64), (0 : W64))))
    | none =>
      let s1 := settleGroup s cx.gk
      if memGate s1 cx.gk then .ok (dropUtOf s1 cx.grp.core (fun _ => true)) else .stall s1)

/-- Whether a state event of a group may arrive at its scratchpad: its gate is open and its earlier accesses have arrived (R166, R315). -/
def spadReady (s : State) (gk : Nat) : Bool :=
  memGate s gk && (match tget s.groups gk with | some g => !(spadAhead g s.nextId) | none => true)
/-- BUFSET (R176): one state event on the block's buffer on this core, after the group's earlier accesses. -/
def execBufset (d : Fin 32) (f : Bool) (n : Fin 16) (s : State) : Out :=
  runWord s (pendingOn [64 + d.val]) (fun cx =>
    let s1 := settleGroup s cx.gk
    if !(spadReady s1 cx.gk) then .stall s1
    else
      let put := fun (q : State) (v : Nat) => modGroup q cx.gk (fun g => sSet g d.val (BitVec.ofNat 64 v))
      match tget s1.blocks cx.grp.block with
      | none => .ok (put s1 2)
      | some b =>
        if n.val ≥ b.hdr.bufs.length then .ok (put s1 2)
        else
          let st := bufState b cx.grp.core n.val
          let old := bufCode st * 256
          match st with
          | .filling | .draining => .ok (put s1 (old + 1))
          | .empty => .ok (put (if f then setBuf s1 cx.grp.block cx.grp.core n.val .full else s1) old)
          | .full => .ok (put (if f then s1 else setBuf s1 cx.grp.block cx.grp.core n.val .empty) old))
/-- BUFGET (R176). -/
def execBufget (d : Fin 32) (n : Fin 16) (s : State) : Out :=
  runWord s (pendingOn [64 + d.val]) (fun cx =>
    let s1 := settleGroup s cx.gk
    if !(spadReady s1 cx.gk) then .stall s1
    else
      let v := match tget s1.blocks cx.grp.block with
        | none => 0xFF
        | some b => if n.val ≥ b.hdr.bufs.length then 0xFF else bufCode (bufState b cx.grp.core n.val)
      .ok (modGroup s1 cx.gk (fun g => sSet g d.val (BitVec.ofNat 64 v))))

/-- RSCL (R263): a scratchpad word; the table place in s[b], channel and value in A. -/
def execRscl (d : Dst) (a : Src) (b : Fin 32) (s : State) : Out :=
  runWord s (pendingOn ((64 + b.val) :: (dstRegs d ++ srcRegs a))) (fun cx =>
    if !(srcReady cx (!d.notS) a) then operandTrap cx
    else
      let tab := sGet cx.grp b.val
      let ent := fun (l : Nat) =>
        let x := readSrc cx .int a l
        (l, BitVec.ofNat 64 (bitsOf tab.toNat 0 18 + bitsOf x.toNat 32 32), x, tab)
      match d with
      | .v r => issueMem cx (zeroMasked cx s r.val) .rscl d 0 ((memLanes cx false).map ent)
      | .s _ => issueMem cx s .rscl d 0 ((memLanes cx false).map ent)
      | .y k =>
        let s1 := settleGroup s cx.gk
        let acc := fun (l : Nat) => let e := ent l; ({ st := .walk, va := e.2.1, d0 := e.2.2.1, d1 := e.2.2.2, dlog := 65536 } : LaneAcc)
        let wait := match tget s1.groups cx.gk with
          | some g => spadAhead g s1.nextId || (partLanes cx).any (fun l => !(afterOlder g s1.nextId .rscl l (acc l)))
          | none => false
        if wait || !(memGate s1 cx.gk) then .stall s1
        else
          let res := fun (l : Nat) => if elemOn cx l 0 then rsclLane s1 cx.grp.core cx.grp.block (ent l).2.2.1 tab else .inr (0, noFlags)
          let bad := (partLanes cx).filter (fun l => match res l with | .inl _ => !(isHelper cx.grp l) | .inr _ => false)
          let s2 := writeLanes cx s1 (.y k) (srcUniform cx a) (fun l =>
            if bad.contains l then (none, noFlags)
            else wholeLane cx l (fun _ => match res l with | .inr x => x | .inl _ => (0, noFlags)))
          if bad.isEmpty then .ok s2 else issueMem cx s2 .rscl (.y k) 0 (bad.map ent))

/-! ## Atomics, fences, reductions -/

/-- ATOM (R313). -/
def execAtom (d : Fin 32) (a : Reg) (op : AOp) (sc : AScope) (ord : AOrd) (s : State) : Out :=
  runWord s (pendingOn (d.val :: regRegs a)) (fun cx =>
    issueMem cx s (.atom op sc ord) (.v d) 0
      ((memLanes cx true).map (fun l => (l, regVal cx a l, vGet cx.grp l d.val, (0 : W64)))))
/-- CAS (R314). -/
def execCas (d : Fin 32) (a : Reg) (facq is64 : Bool) (sc : AScope) (ord : AOrd) (s : State) : Out :=
  runWord s (pendingOn (d.val :: (d.val + 1) :: regRegs a)) (fun cx =>
    issueMem cx s (.cas is64 facq sc ord) (.v d) 0
      ((memLanes cx true).map (fun l => (l, regVal cx a l, vGet cx.grp l d.val, vGet cx.grp l (d.val + 1)))))
/-- FENCE (R315): each active fibre of the path. -/
def execFence (sc : Scope) (k : FKind) (s : State) : Out :=
  runWord s (pendingOn []) (fun cx =>
    issueMem cx s (.fence sc k) (.y 0) 0 ((lanesOf cx.path.mask).map (fun l => (l, (0 : W64), (0 : W64), (0 : W64)))))
/-- RED (R147). -/
def execRed (d : Src) (a : Reg) (ty : RedTy) (op : RedOp) (s : State) : Out :=
  let kind := match ty with | .fp32 => SrcKind.fp fmt32 | .fp64 => .fp fmt64 | .bf16 => .fp fmtB16 | _ => .int
  runWord s (pendingOn (srcRegs d ++ regRegs a)) (fun cx =>
    if !(srcReady cx false d) then operandTrap cx
    else issueMem cx s (.red ty op) (srcDst d) 0 ((memLanes cx true).map (fun l => (l, regVal cx a l, readSrc cx kind d l, (0 : W64)))))
/-- Active lanes that the prefix masks off, with the logical register that MZ clears (R31). -/
def maskedOut (cx : Ctx) (r : Nat) : Tbl (Nat × Nat) :=
  if (pfxOf cx).mz then
    ((lanesOf cx.path.mask).filter (fun l => !(elemOn cx l 0))).map (fun l => (l, logicalOf (getFibre cx.grp l) r, 0))
  else []
/-- GRED (R105): each lane's weight is operand b as FP32. The lanes that MZ clears are cleared with the results, so that a GRED that traps
writes no lane (R106); at once when no lane takes part. -/
def execGred (d : Fin 32) (a : Reg) (b : Src) (fp32 : Bool) (s : State) : Out :=
  runWord s (pendingOn (d.val :: (regRegs a ++ srcRegs b))) (fun cx =>
    if !(srcReady cx false b) then operandTrap cx
    else
      let ls := memLanes cx false
      issueMem cx (if ls.isEmpty then zeroMasked cx s d.val else s) (.gred fp32) (.v d) 0
        (ls.map (fun l => (l, regVal cx a l, readSrc cx (.fp fmt32) b l, (0 : W64)))) (maskedOut cx d.val))
/-- MLR (R151): the block is read at issue when a lane takes part. -/
def execMlr (d : Fin 32) (a : Reg) (b : Fin 32) (fp32 : Bool) (s : State) : Out :=
  runWord s (pendingOn (d.val :: (64 + b.val) :: regRegs a)) (fun cx =>
    let ls := memLanes cx false
    if ls.isEmpty then .ok (zeroMasked cx s d.val)
    else
      let s1 := settleGroup s cx.gk
      if !(memGate s1 cx.gk) then .stall s1
      else withParam cx s1 (sGet cx.grp b.val) 256 256 (fun s2 blk =>
        issueMem cx (zeroMasked cx s2 d.val) (.mlr fp32) (.v d) blk (ls.map (fun l => (l, regVal cx a l, (0 : W64), sGet cx.grp b.val)))))

/-! ## Events -/

/-- A page walk ends: its translation is cached and given to every request it covers, or its fault lists every lane that
waited for the page (R112, R115). -/
def walkGive (s : State) (die vp : Nat) (r : WalkRes) : State :=
  let gs := (s.groups.filter (fun g => dieOfCore g.2.core = die && g.2.words.any wordWalks)).map Prod.fst
  let s1 := gs.foldl (fun q gk =>
    match tget q.groups gk with
    | none => q
    | some g =>
      (g.words.filter (fun w => opTranslates w.op)).foldl (fun q1 w => (tkeys w.lanes).foldl (fun q2 l =>
        match wordAt q2 gk w.id with
        | none => q2
        | some (g2, w2) =>
          match tget w2.lanes l with
          | none => q2
          | some a =>
            if a.st ≠ .walk then q2
            else
              let va := needVa w2.op a
              match r with
              | .fault sub => if vpageOf va = vp then failLane q2 gk w2 l sub 0 else q2
              | .leaf e => if va / 2 ^ e.bits * 2 ^ e.bits = e.va then lookLane (giveLane (fillCore q2 g2.core e) gk w2 l a e) gk w.id l else q2
              | .held _ => q2) q1) q) s
  let met := fun (p : Nat) => p = vp || (match r with | .leaf e => p * 65536 / 2 ^ e.bits * 2 ^ e.bits = e.va | _ => false)
  let s2 := setPend s1 die ((pendList s1 die).filter (fun p => !(met p)))
  gs.foldl (fun q gk =>
    let q1 := deferGroup q gk
    match tget q1.groups gk with
    | none => q1
    | some g => settleGroup (g.words.foldl (fun a w => afterStart a gk w.id) q1) gk) s2

/-- A lane whose request stays at a line of memory that it may have to wait at, noted there (R58, R60, R128). -/
def holdLane (s : State) (g id l : Nat) (ev : Instr) : State :=
  match wordAt s g id with
  | none => s
  | some (x, w) =>
    match tget w.lanes l with
    | none => s
    | some a =>
      match a.st with
      | .req da da2 _ =>
        let da := match w.op with | .loadu _ _ => (loadPiece w.op a da da2).1 | _ => da
        let here := match w.op with | .mlr _ => true | _ => tgtOf s da = .hbm
        if here && inOrder x w l a then noteHold s (lineOf (localOf da)) ev else s
      | _ => s
/-- PAGE_WALK_COMPLETE (R112, R115, R116): one of the 128 oldest pending pages of a die. -/
def execPageWalkComplete (die vpage : Nat) (s : State) : Out :=
  if !(((pendList s die).take 128).contains vpage) then .next s
  else
    let r := walk s die (vpage * 65536)
    match r.2 with
    | .held line => .next (noteHold r.1 line (.pageWalkComplete die vpage))
    | .leaf e => .next (walkGive (fillDie r.1 die e) die vpage r.2)
    | .fault _ => .next (walkGive r.1 die vpage r.2)

/-- HOME_SLICE_READ (R161): a load, GRED or PREF lane, or the member reads of an MLR lane. -/
def execHomeSliceRead (g id l : Nat) (s : State) : Out :=
  match wordAt s g id with
  | none => .next s
  | some (_, w) => .next (settleGroup (holdLane (match w.op with
    | .load _ _ | .loadu _ _ | .gred _ => serveLoad s g id l false
    | .pref _ _ => servePref s g id l
    | .mlr _ => serveMlr s g id l
    | _ => s) g id l (.homeSliceRead g id l)) g)

/-- HOME_SLICE_WRITE (R161): the lanes of a store at a line, an atomic, a RED lane that waited, a CFLUSH lane, a CINV lane that TRET performs; a store-buffer
entry that an event of R160 has asked to drain; the least recently used line of a full L1 set. -/
def execHomeSliceWrite (src : WSource) (s : State) : Out :=
  match src with
  | .lane g id l =>
    match wordAt s g id with
    | none => .next s
    | some (_, w) => .next (settleGroup (holdLane (match w.op with
      | .store _ _ => serveStore s g id l false
      | .atom _ _ _ | .cas _ _ _ _ => serveAtom s g id l
      | .red _ _ => serveRed s g id l
      | .cflush _ => serveFlush s g id l
      | .cinv => serveInv s g id l
      | _ => s) g id l (.homeSliceWrite src)) g)
  | .storeBuf c dl =>
    match sbGet (getCore s c) dl with
    | none => .next s
    | some e =>
      if !e.draining then .next s
      else
        let r := sbDrain s c dl
        .next (settleAll (if r.2 || !(dlLocal s dl) then r.1 else noteHold r.1 (dl % 2 ^ 39) (.homeSliceWrite src)))
  | .l1Evict c line =>
    let same := (getCore s c).l1.filter (fun x => l1SetOf s c x.line = l1SetOf s c line)
    match same.getLast? with
    | some x => if same.length ≥ 8 && x.line = line then .next (l1Drop s c line) else .next s
    | none => .next s

/-- A lane's value written to its destination, once a promotion that its acquire part waits for is done (R310); a load that hits its L1 is
read and written (R169). A load that went before a CAS waits until the CAS has failed (R314). -/
def laneResponse (g id l : Nat) (s : State) : Out :=
  let s1 := match wordAt s g id with
    | some (_, w) => (match w.op with | .load _ _ | .loadu _ _ => serveLoad s g id l true | _ => s)
    | none => s
  match wordAt s1 g id with
  | none => .next s1
  | some (grp, w) =>
    match tget w.lanes l with
    | none => .next s1
    | some a =>
      match a.st, w.op with
      | .data _ _, .gred _ => .next (settleGroup s1 g)
      | .data v v2, _ =>
        if guessed w a && !(afterOlder grp w.id w.op l a) then .next (settleGroup s1 g)
        else
          let p := acquireTry s1 grp.core g id l w
          .next (settleGroup (if p.2 then landDone p.1 g w l v v2 else p.1) g)
      | _, _ => .next (settleGroup s1 g)

/-- RED_ENTRY_APPLY (R149): one element of a flushed entry at its home; for a remote line the whole entry is sent as one
transaction (R148). -/
def execRedEntryApply (core line el : Nat) (s : State) : Out :=
  match (getCore s core).mb.find? (·.line = line) with
  | none => .next s
  | some e =>
    if !e.flushed then .next s
    else if dlLocal s line then
      match tget e.vals el with
      | none => .next s
      | some v =>
        let n := (if e.ty = .bf16 then 16 else redWidth e.ty) / 8
        let h := homeAdmit s (line % 2 ^ 39) (spanMask el n) true
        if !h.2 then .next (noteHold h.1 (line % 2 ^ 39) (.redEntryApply core line el))
        else
          let s1 := redAtHome h.1 e.blocks (line % 2 ^ 39) el e.ty e.op v.toNat false
          let left := tdel e.vals el
          .next (settleAll (modCore s1 core (fun k => { k with
            mb := if left.isEmpty then k.mb.filter (·.line ≠ line)
                  else k.mb.map (fun x => if x.line = line then { x with vals := left } else x) })))
    else if s.fab.tx.any (fun t => match t.origin with | .merge c l _ _ => c = core && l = line | _ => false) then .next s
    else
      let chip := line / 2 ^ 39
      let la := line % 2 ^ 39 * 128
      let n := (if e.ty = .bf16 then 16 else redWidth e.ty) / 8
      match fabRefuse s chip la with
      | some code => .next (settleAll (fabricTrap (modCore s core (fun k => { k with mb := k.mb.filter (·.line ≠ line) })) e.blocks 4 chip code))
      | none =>
        if !(fabRoom s chip la) then .next s
        else
          let valid := e.vals.foldl (fun (m : LineMask) x => m ||| spanMask x.1 n) 0
          .next (fabSend s chip la (.red (line % 2 ^ 39) e.ty e.op valid e.vals false) (.merge core line e.groups e.blocks))

/-- The products of a bank's lanes summed in ascending lane order; every lane's result (R105). -/
def gredSums (fp32 : Bool) (ls : List (Nat × Nat × W64 × W64)) : List (Nat × W64) :=
  let prod := fun (x : Nat × Nat × W64 × W64) =>
    mul32 (if fp32 then bitsOf x.2.2.1.toNat 0 32 else (fConvert fmt32 fmtB16 .rne false (bitsOf x.2.2.1.toNat 0 16)).1) (bitsOf x.2.2.2.toNat 0 32)
  ls.map (fun x =>
    let same := ls.filter (fun y => y.2.1 = x.2.1)
    match same with
    | [] => (x.1, 0)
    | y :: t => if y.1 = x.1 then (x.1, BitVec.ofNat 64 (t.foldl (fun a z => add32 a (prod z)) (prod y))) else (x.1, 0x80000000))

/-- Results of some lanes of a word, by logical register, written: all of them or none. One that belongs in the spill area may have to wait, or
may fail; the flag names the lane. -/
def landAll (s : State) (g : Nat) (w : MemWord) (rs : List (Nat × Nat × W64)) : State × Landed × Nat :=
  let r := rs.foldl (fun (a : State × Landed × Nat) x =>
    let q := landTry a.1 g w x.1 x.2.1 x.2.2
    (q.1, a.2.1.and q.2, if a.2.1 = .yes then x.1 else a.2.2)) (s, .yes, 0)
  match r.2.1 with
  | .fail _ _ => (s, r.2)
  | _ => r
/-- A word whose results have been put by `landAll`: its lanes are done, wait on, or are all listed, the one that failed with its sub-cause, the
others with 0 (R106, R384). -/
def landEnd (g id : Nat) (ls : List Nat) (r : State × Landed × Nat) : State :=
  match r.2.1 with
  | .yes => ls.foldl (fun a l => setSt a g id l .done) r.1
  | .wait => r.1
  | .fail sub fab => ls.foldl (fun a l => setSt a g id l (if l = r.2.2 then .listed sub fab else .listed 0 0)) r.1
/-- Logical register of a lane's destination. -/
def destLog (w : MemWord) (l : Nat) : Nat := match tget w.lanes l with | some a => a.dlog | none => 0
/-- GRED_COMPLETE (R106): every lane that takes part has its element, none is listed; the lanes that MZ clears are cleared with them
(log 113). -/
def execGredComplete (g id : Nat) (s : State) : Out :=
  match wordAt s g id with
  | none => .next s
  | some (_, w) =>
    match w.op with
    | .gred fp32 =>
      let live := w.lanes.filter (fun x => x.2.st ≠ .done)
      if live.isEmpty || !(live.all (fun x => match x.2.st with | .data _ _ => true | _ => false)) then .next s
      else
        let ls := live.filterMap (fun x => match x.2.st with
          | .data v b => some (x.1, b.toNat, v, x.2.d0)
          | _ => none)
        let rs := (gredSums fp32 ls).map (fun x => (x.1, destLog w x.1, x.2)) ++ w.ans.map (fun x => (x.1, x.2.1, 0))
        .next (settleGroup (landEnd g id (ls.map Prod.fst) (landAll s g w rs)) g)
    | _ => .next s

/-- Chip number that a virtual address of a core names. -/
def blockChip (s : State) (core va : Nat) : Nat := match tlbLook s core va with | some e => chipOf (daOf e va) | none => s.fab.chipid
/-- MLR_COMPLETE (R152). DESIGN CHOICE (log 117): when the lowest absent member has answered lanes with different codes, CODE is that of the
lowest such lane. Every member has answered for every lane that is not listed; the lanes' results, then PMASK and CODE of the block. -/
def execMlrComplete (g id : Nat) (s : State) : Out :=
  match wordAt s g id with
  | none => .next s
  | some (grp, w) =>
    match w.op with
    | .mlr _ =>
      let live := w.lanes.filter (fun x => laneOpen x.2.st)
      if live.isEmpty || !(live.all (fun x => match x.2.st with | .req _ _ _ => mlrReady w x.1 | _ => false)) then .next s
      else
        let n := bitsOf w.blk 0 6
        let ok := fun (i : Nat) => live.all (fun x => (tgetD w.ans (x.1 * 32 + i) (1, 0)).1 = 0)
        let bad := mlrBad w.blk
        let pm := if bad then 0 else ((List.range n).filter ok).foldl (fun a i => a + 2 ^ i) 0
        let code := if bad then 5
          else match (List.range n).find? (fun i => !(ok i)) with
            | none => 0
            | some i => match live.find? (fun x => (tgetD w.ans (x.1 * 32 + i) (1, 0)).1 ≠ 0) with
              | some x => (tgetD w.ans (x.1 * 32 + i) (1, 0)).1
              | none => 0
        let blkVa := match live with | x :: _ => x.2.d1.toNat | [] => 0
        let r := spanWrite s (some grp.core) (dieOfCore grp.core) (blkVa + 8) 9 (pm + code * 2 ^ 64)
        let s1 := txMark r.1 s.fab.tx.length (.drain grp.core [g] [grp.block])
        match r.2 with
        | .wait => .next s1
        | .fault sub => .next (settleGroup (live.foldl (fun a x => failLane a g w x.1 sub 0) s1) g)
        | o =>
          let s2 := match o with | .remote c => fabricTrap s1 [grp.block] 4 (blockChip s grp.core (blkVa + 8)) c | _ => s1
          .next (settleGroup (landEnd g id (live.map Prod.fst) (landAll s2 g w (live.map (fun x => (x.1, destLog w x.1, mlrLane w x.1))))) g)
    | _ => .next s

end Sys2Proof.Machine
end

