-- ==== Sys2Proof/Machine/Fetch.lean ====
section
/-! DEFINITION. Fetching: the overlay slots and what a fetch finds (Table 2.10), the checks of a word in its clause (R20, R35,
R366), the wait conditions of a clause (R22, R331, R369), and the words NOP, PFX and UDF. -/

namespace Sys2Proof.Machine

/-! ## The instruction store -/

/-- Overlay number and word index of a code address (R37). -/
def ovOf (pc : W32) : Nat := bitsOf pc.toNat 16 16
def wixOf (pc : W32) : Nat := bitsOf pc.toNat 2 14
/-- The slot of a cluster that holds or loads an overlay. -/
def slotOfOverlay (cl : Cluster) (n : Nat) : Option OvSlot :=
  cl.slots.find? (fun x => match x with
    | .empty => false
    | .loading k => k = n
    | .resident k _ _ _ => k = n
    | .system _ => n = 0xFFFF)
/-- What a fetch at a code address finds (Table 2.10). -/
inductive Fetched where
  /-- The overlay's code and links. -/
  | code (ws : List W32) (links : List Nat)
  /-- One of the two clauses of the default code of overlay 0xFFFF (R205, R380; log 84). -/
  | system
  | loading
  | fault (sub : Nat)
/-- A fetch at a code address by a core (R39). -/
def fetchAt (s : State) (core : Nat) (pc : W32) : Fetched :=
  match slotOfOverlay (getCluster s (clusterOf core)) (ovOf pc) with
  | some (.resident _ ws ls _) => if wixOf pc < ws.length then .code ws ls else .fault 1
  | some (.loading _) => .loading
  | some (.system _) => if wixOf pc < 2 then .system else .fault 1
  | _ => .fault 2
/-- What a path's fetch finds: its clauses come from its loop buffer in the passes after the capture (R367). -/
def fetchPath (s : State) (core : Nat) (p : Path) : Fetched :=
  match p.loop with
  | some lp =>
    if lp.pass ≠ 0 && !lp.captured.isEmpty && ovOf p.pc = ovOf lp.body && wixOf lp.body ≤ wixOf p.pc
        && wixOf p.pc < wixOf lp.body + lp.captured.length then
      .code (List.replicate (wixOf lp.body) 0 ++ lp.captured) []
    else fetchAt s core p.pc
  | none => fetchAt s core p.pc
/-- The slot fetched from last is noted, by the cluster's count of fetches (OVPF chooses by it, R199). -/
def touchSlot (s : State) (core : Nat) (n : Nat) : State :=
  modCluster s (clusterOf core) (fun c => { c with
    fetchSeq := c.fetchSeq + 1
    slots := c.slots.map (fun x => match x with
      | .resident k w l u => if k = n then .resident k w l (c.fetchSeq + 1) else .resident k w l u
      | .system u => if n = 0xFFFF then .system (c.fetchSeq + 1) else .system u
      | y => y) })
/-- The slot of a path's overlay noted, unless the clause comes from a loop buffer. -/
def touchPath (s : State) (core : Nat) (p : Path) : State :=
  match p.loop with
  | some lp => if lp.pass ≠ 0 && !lp.captured.isEmpty then s else touchSlot s core (ovOf p.pc)
  | none => touchSlot s core (ovOf p.pc)
/-- A word of an overlay's code; 0 beyond its end. -/
def codeAt (ws : List W32) (i : Nat) : Nat := match ws[i]? with | some w => w.toNat | none => 0
/-- Whether a header word is one, its fields as Table 2.1 asks, and its clause within the code (HEADER of Table 2.8). -/
def headerOk (ws : List W32) (i : Nat) : Bool :=
  let h := codeAt ws i
  fOP h = 0xF7 && hdrCount h ≠ 0 && bitsOf h 0 2 = 0 && (bitsOf h 16 1 = 1 || bitsOf h 10 6 = 0)
    && (bitsOf h 9 1 = 1 || bitsOf h 5 4 = 0) && i + hdrCount h < ws.length
/-- Word index of the clause that stands some clauses further on, by their headers (R363). -/
def skipClauses (ws : List W32) : Nat → Nat → Nat
  | 0, i => i
  | n + 1, i => skipClauses ws n (i + hdrCount (codeAt ws i) + 1)
/-- A code address in the overlay of another. -/
def inOverlay (pc : W32) (wix : Nat) : W32 := BitVec.ofNat 32 (ovOf pc * 65536 + wix * 4)

/-! ## Checks of a word in its clause -/

/-- Whether an engine class admits an opcode that is not NOP, PFX or UDF (Table 2.2). -/
def engAdmits (eng op : Nat) : Bool :=
  if op < 0x20 then true
  else match eng with
    | 0 => op < 0xA0 || (0xB0 ≤ op && op < 0xC0)
    | 1 => op < 0x60 || (0xA0 ≤ op && op < 0xB0)
    | 2 => op < 0x60 || (0xC0 ≤ op && op < 0xF0)
    | _ => op < 0x60 || (0xF1 ≤ op && op < 0xFF && op ≠ 0xF7)
/-- Words that must be last of their clause (R20). -/
def mustBeLast (op : Nat) : Bool := (1 ≤ op && op < 0x20) || op = 0xF1 || op = 0xF2 || op = 0xF5
/-- Whether the clause at a code address is the last of a loop's body (R363). -/
def lastBody (ws : List W32) (lp : LoopSt) (pc : W32) : Bool :=
  ovOf pc = ovOf lp.body && wixOf pc = skipClauses ws (lp.ncl - 1) (wixOf lp.body)
/-- CLASS (R20, R366): word `k` of a clause with header `h`. -/
def classBad (ws : List W32) (p : Path) (h k w : Nat) : Bool :=
  let op := fOP w
  if op = 0 || op = 0xF0 || op = 0xFF then false
  else !(engAdmits (bitsOf h 18 2) op) || (mustBeLast op && k ≠ hdrCount h)
    || (match p.loop with
        | some lp => 1 ≤ op && op < 0x20 && !(op = 0x0D && k = hdrCount h && lastBody ws lp p.pc)
        | none => op = 0x0D)

/-! ## Registers of a clause (WSB) -/

/-- Whether D, A and B of a word are operand codes. -/
def operandFields (op sf : Nat) : Bool × Bool × Bool :=
  if op = 0x03 || op = 0x05 then (false, true, false)
  else if op = 0x0C then (false, true, true)
  else if 0x0F ≤ op && op ≤ 0x12 then (true, true, false)
  else if op = 0x8B || (0xB2 ≤ op && op ≤ 0xB7) || op = 0xC4 || op = 0xC5 then (true, true, true)
  else if op = 0xA3 || op = 0xA4 || (0xCB ≤ op && op ≤ 0xCD) || op = 0xE5 || op = 0xE7 || op = 0xE9 then (true, true, false)
  else if op = 0xCE || (0xE0 ≤ op && op ≤ 0xE3) || op = 0xE6 || op = 0xE8 || (0xEA ≤ op && op ≤ 0xEC) then (false, true, false)
  else if op = 0xCF then (true, true, sf = 0)
  else if op = 0xD1 || op = 0xD2 || op = 0xE4 || op = 0xED then (true, false, false)
  else if op = 0xEF then (true, true, true)
  else rotFields op sf
/-- Window registers that an operand stands for: six for PERM's B, two for CAS, fragments of four, views up to the end of the
window (a view's size lies in a register; waiting longer changes only time, R22). -/
def spanOf (op pos r : Nat) : List Nat :=
  if op = 0x49 && pos = 2 then rangeFrom r 6
  else if op = 0xC9 && pos = 0 then rangeFrom r 2
  else if 0xA0 ≤ op && op ≤ 0xA2 && r < 32 then rangeFrom r 4
  else if 0xB0 ≤ op && op ≤ 0xB7 && r < 32 then rangeFrom r (32 - r)
  else [r]
/-- The uniform registers that LEND steps (R365). -/
def lendRegs : Option LoopSt → List Nat
  | some lp => (if lp.inc.getLsbD 15 then [64 + bitsOf lp.inc.toNat 16 5] else [])
      ++ (if lp.inc.getLsbD 21 then [64 + bitsOf lp.inc.toNat 22 5] else [])
  | none => []
/-- The registers that TRET writes (R384). -/
def tretRegs : List Nat := rangeFrom 24 8 ++ rangeFrom 88 8
/-- The registers a word names or stands for, `nw` the word after it: C of a PFX before MQA, MQAI or an FP8 MQAX is a fragment of four
(R22, R271, R276); RET reads v24, a call writes the v24 of the callee's window, which is register 32 of the caller's (R353); FORK reads v0
to v31 (R360); LEND steps registers of its loop (R365); TRET writes v24 to v31 and s24 to s31 (R384). -/
def wordRegs (lp : Option LoopSt) (nw w : Nat) : List Nat :=
  let op := fOP w
  let f := operandFields op (fSF w)
  let one := fun (on : Bool) (pos r : Nat) => if on && (r < 32 || (64 ≤ r && r < 96)) then spanOf op pos r else []
  let more := if op = 0x04 || op = 0x05 then [32] else if op = 0x06 then [24] else if op = 0x07 then List.range 32
    else if op = 0x0D then lendRegs lp else if op = 0xF2 && bitsOf w 0 1 = 0 then tretRegs else []
  if op = 0xF0 then
    (if bitsOf w 8 1 = 1 then
      (if (fOP nw = 0xA0 || fOP nw = 0xA2 || (fOP nw = 0xA1 && fSF nw ≠ 0)) && bitsOf w 9 7 < 32 then rangeFrom (bitsOf w 9 7) 4
        else one true 3 (bitsOf w 9 7))
    else [])
  else one f.1 0 (fD w) ++ one f.2.1 1 (fA w) ++ one f.2.2 2 (fB w) ++ more
/-- The registers that the words of a clause name, rotated (R22, R364). -/
def clauseRegs (ws : List W32) (lp : Option LoopSt) (i : Nat) : List Nat :=
  ((List.range (hdrCount (codeAt ws i))).map (fun k =>
    wordRegs lp (codeAt ws (i + k + 2)) (rotWord lp (codeAt ws (i + k + 1))))).flatten

/-! ## Waiting at a clause boundary -/

/-- Octets of the core that a path's lanes lie in (R329). -/
def octetsOf (g : Group) (p : Path) : List Nat := ((lanesOf p.mask).map (fun l => (g.lane0 + l) / 8)).eraseDups
/-- Paths of the groups of a core, each with its group and the group's key. -/
def corePaths (s : State) (core : Nat) : List (Nat × Group × Path) :=
  ((s.groups.filter (fun g => g.2.core = core)).map (fun g => g.2.paths.map (fun p => (g.1, g.2, p)))).flatten
/-- Whether two lists share a member. -/
def meets (a b : List Nat) : Bool := a.any b.contains
/-- Whether a path holds its octets: its clause has issued and not ended; one that TRET has put inside a clause holds them once its
word issues (R329, R384). -/
def holdsOctets (p : Path) : Bool := p.widx ≠ 0 && p.hdr ≠ 0 && (match p.wait with | .trap _ => false | _ => true)
/-- Whether the octets of a path are free: no other path holds one of them, and no aged path that has waited longer needs one
(R329, R332). -/
def octetsFree (s : State) (gk : Nat) (g : Group) (p : Path) : Bool :=
  (corePaths s g.core).all (fun x =>
    (x.1 = gk && x.2.2.mask = p.mask) || !(meets (octetsOf g p) (octetsOf x.2.1 x.2.2))
      || !(holdsOctets x.2.2 || (x.2.2.aged && (!p.aged || p.age < x.2.2.age))))
/-- Whether the slot of a barrier has completed the phase in which a group arrived last (R22, R368). -/
def barPassed (s : State) (g : Group) (k : Nat) : Bool :=
  match tget g.barPhase k, tget s.blocks g.block with
  | some p, some b => p < (tgetD b.bars k ⟨0, [], 0⟩).phase
  | _, _ => true
/-- Whether the v24 of the window that a call would make is pending in a lane of a mask (R353). -/
def calleePending (g : Group) (mask : LaneMask) : Bool :=
  (groupPend g).any (fun p => !p.uni && (lanesOf (mask &&& p.mask)).any (fun l => (getFibre g l).wb.toNat + 32 = p.idx))
/-- Whether a trap of a group keeps its paths from starting clauses (R379 step 1): any but an indirect-target trap, for which the lanes
that passed do not wait (R352); such a trap's own entry takes the other paths where they then stand. -/
def trapStops (g : Group) : Bool :=
  g.paths.any (fun p => match p.wait with | .trap t => t.cause ≠ 4 | _ => false)
    || g.words.any wordFaulted || (g.imp.isSome && g.tdepth = 0)
/-- Nothing but the next clause's conditions holds a path at a boundary: no trap stops its group, no stop is asked
for, no record is still to be performed, and the path is in none of the waits of R330. -/
def pathFree (g : Group) (p : Path) : Bool :=
  p.wait = .ready && !(trapStops g) && !g.stopReq && g.replays.isEmpty && !(g.words.any (fun w => w.replay && wordOpen w))
/-- Whether the next clause of a path at a boundary waits: a condition of its header (R22), the acquire that a tag or barrier wait
makes, which waits for the fibres' earlier reads (R309), or a barrier in which a lane has already arrived (R369). -/
def clauseWaits (s : State) (g : Group) (p : Path) (ws : List W32) : Bool :=
  let i := wixOf p.pc
  let h := codeAt ws i
  let lw := codeAt ws (i + hdrCount h)
  !(pathFree g p)
    || (bitsOf h 17 1 = 1 && (let rs := clauseRegs ws p.loop i; regsPending g p.mask rs || (rs.contains 32 && calleePending g p.mask)))
    || ((bitsOf h 16 1 = 1 || bitsOf h 9 1 = 1) && readsOpen g s.nextId p.mask)
    || (bitsOf h 16 1 = 1 && !((getCore s g.core).tags.getLsbD (bitsOf h 10 6)))
    || (bitsOf h 9 1 = 1 && !(barPassed s g (bitsOf h 5 4)))
    || (fOP lw = 0x0E && (lanesOf p.mask).any (fun l => (getFibre g l).arrived.getLsbD (bitsOf lw 0 4)))
/-- Whether a path is a candidate, its octets apart: its code is fetchable and nothing holds its next clause (R331, R332). -/
def candidate (s : State) (g : Group) (p : Path) : Bool :=
  p.widx = 0 && (match fetchPath s g.core p with
    | .code ws _ => !(headerOk ws (wixOf p.pc)) && pathFree g p || !(clauseWaits s g p ws)
    | .system => pathFree g p
    | .loading | .fault _ => false)

/-! ## Selection (R331) -/

/-- The memory words of a group that a fibre took part in and that have not completed (R331). -/
def outsOf (g : Group) (l : Nat) : Nat := (g.words.filter (fun w => wordOpen w && (tget w.lanes l).isSome)).length
/-- Rank of a candidate (R23, R331): aged first, a path whose clause had YLD last, PRIO, the group's oldest issue; groups that issued in the
same cycle by their lowest lane on the core (log 121); within a group the fewest outstanding words, then the lowest lane. A smaller list
comes first. -/
def pathRank (s : State) (gk : Nat) (g : Group) (p : Path) : List Nat :=
  let prio := match tget s.blocks g.block with | some b => b.hdr.prio | none => 0
  let outs := (lanesOf p.mask).foldl (fun m l => max m (outsOf g l)) 0
  [if p.aged then 0 else 1, if p.aged then 2 ^ 64 - p.age else 0, if p.yielded then 1 else 0, 7 - prio, g.lastIssue,
    g.lane0 + lowLane (liveMask g), gk, outs, lowLane p.mask]
/-- Lexicographic order. -/
def rankLess : List Nat → List Nat → Bool
  | x :: a, y :: b => x < y || (x = y && rankLess a b)
  | _, _ => false
/-- An element put into a list in the order of ranks, after its equals. -/
def rankInsert {α : Type} (x : List Nat × α) : List (List Nat × α) → List (List Nat × α)
  | [] => [x]
  | y :: t => if rankLess x.1 y.1 then x :: y :: t else y :: rankInsert x t
/-- The candidates of a core in the order in which it takes them, each with its group's key and its octets. -/
def rankedPaths (s : State) (core : Nat) : List (List Nat × Nat × LaneMask × Bool × List Nat) :=
  ((corePaths s core).filter (fun x => candidate s x.2.1 x.2.2)).foldl
    (fun a x => rankInsert (pathRank s x.1 x.2.1 x.2.2, x.1, x.2.2.mask, x.2.2.aged, octetsOf x.2.1 x.2.2) a) []
/-- The candidates that issue in a cycle: each whose octets are still free when its turn comes; an aged one that cannot issue keeps
its octets from the others (R331, R332). -/
def issueSet (s : State) (core : Nat) : List (Nat × LaneMask) :=
  let busy := (((corePaths s core).filter (fun x => holdsOctets x.2.2)).map (fun x => octetsOf x.2.1 x.2.2)).flatten
  ((rankedPaths s core).foldl (fun (a : List Nat × List (Nat × LaneMask)) x =>
    let o := x.2.2.2.2
    if meets o a.1 then (if x.2.2.2.1 then (o ++ a.1, a.2) else a) else (o ++ a.1, a.2 ++ [(x.2.1, x.2.2.1)])) (busy, [])).2
/-- Whether a path at a clause boundary issues now. -/
def takesTurn (s : State) (gk : Nat) (g : Group) (p : Path) : Bool := (issueSet s g.core).contains (gk, p.mask)

/-! ## Reaching a clause header -/

/-- A trap of a path at its clause header: nothing of the clause has executed. -/
def headTrap (_p : Path) (cause sub : Nat) (lanes : LaneMask) (lc : Tbl Nat) (word : Nat) : TrapInfo :=
  { cause := cause, sub := sub, info := 0, lanes := lanes, lcause := lc, word := word, pfxw := 0 }
/-- A path stopped by a trap at the place where it stands. -/
def stopPath (s : State) (gk l : Nat) (t : TrapInfo) : State :=
  modGroup s gk (fun g => modPath g l (fun q => { q with wait := .trap t, stalled := false }))
/-- A path that freezes on a loading overlay: one schedule-slip event (R39). -/
def freezePath (s : State) (gk l core : Nat) : State :=
  perfAdd (modGroup s gk (fun g => modPath g l (fun p => { p with wait := .frozen }))) core 3 1
/-- A block ends FATAL: its groups stop at clause boundaries (R382). -/
def fatalBlock (s : State) (b : Nat) : State := askStop (modBlock s b (fun x => { x with fatal := true })) b true
/-- What a failed fetch does to a path in focus (R39, R40): it freezes, or takes the overlay fault; at a clause boundary only while nothing
holds it there, and inside a clause, after a return to it (R384), also while its group stops, since a clause begun goes on (R379, R387).
On the first fetch of a handler an overlay fault is FATAL (R382). -/
def fetchFail (cx : Ctx) (s : State) : State :=
  match fetchPath s cx.grp.core cx.path with
  | .code _ _ | .system => s
  | .loading => if cx.path.wait = .ready then freezePath s cx.gk cx.lane cx.grp.core else s
  | .fault sub =>
    if cx.path.widx = 0 && !(pathFree cx.grp cx.path) then s
    else if cx.grp.atEntry then fatalBlock s cx.grp.block
    else stopPath s cx.gk cx.lane (headTrap cx.path 3 sub cx.path.mask [] 0)

/-- The lanes of a path whose late LND check fails stopped with NOLAND at the path's address; the others go on (R351, R352). -/
def landFail (s : State) (cx : Ctx) (h : Nat) : State :=
  let bad := cx.path.lndCheck &&& cx.path.mask
  let q := { cx.path with lndCheck := 0, stalled := false }
  let t := headTrap cx.path 4 0 bad ((lanesOf bad).map (fun l => (l, 3))) h
  modGroup s cx.gk (fun g => { g with paths := (g.paths.map (fun p =>
    if p.mask.getLsbD cx.lane then
      { q with mask := bad, wait := .trap t } :: (if p.mask &&& ~~~bad = 0 then [] else [{ q with mask := p.mask &&& ~~~bad }])
    else [p])).flatten })
/-- The words of a loop's body that a loop buffer takes at the body's first header, if it takes them: LCP, at most 64 words with their
headers, and one of the core's 8 buffers free (R367). -/
def captureBody (s : State) (core : Nat) (p : Path) (lcp : Bool) (ws : List W32) : Option LoopSt :=
  p.loop.map (fun lp =>
    let i := wixOf lp.body
    let n := skipClauses ws lp.ncl i - i
    if lp.pass = 0 && p.pc = lp.body && lcp && lp.captured.isEmpty && n ≤ 64
        && ((corePaths s core).filter (fun x => match x.2.2.loop with | some q => !q.captured.isEmpty | none => false)).length < 8 then
      { lp with captured := (ws.drop i).take n }
    else lp)

/-- CLAUSE_HEADER (R19, R22, R35, R39, R351): a path stands at a clause header whose fields are given. The overlay's slot is
looked up, HEADER and a due NOLAND check are made, the conditions and the path's turn are checked, and the clause begins; a path that
waits stays. -/
def execClauseHeader (count : BitVec 4) (eng : BitVec 2) (wsb wte : Bool) (wt : BitVec 6) (wbe : Bool) (wb : BitVec 4)
    (yld lnd lcp : Bool) (s : State) : Out :=
  match ctxOf s with
  | none => .refused .noPath
  | some cx =>
    let p := cx.path
    let h := 0xF7 * 2 ^ 24 + count.toNat * 2 ^ 20 + eng.toNat * 2 ^ 18 + wsb.toNat * 2 ^ 17 + wte.toNat * 2 ^ 16 + wt.toNat * 2 ^ 10
      + wbe.toNat * 2 ^ 9 + wb.toNat * 2 ^ 5 + yld.toNat * 2 ^ 4 + lnd.toNat * 2 ^ 3 + lcp.toNat * 2 ^ 2
    if p.widx ≠ 0 then .next s
    else match fetchPath s cx.grp.core p with
      | .code ws0 _ =>
        let i := wixOf p.pc
        let ws := ws0.set i (BitVec.ofNat 32 h)
        if !(pathFree cx.grp p) then .next s
        else if p.lndCheck &&& p.mask ≠ 0 && !lnd then .next (landFail s cx h)
        else if !(headerOk ws i) then .next (stopPath s cx.gk cx.lane (headTrap p 1 Illegal.header.code p.mask [] h))
        else if clauseWaits s cx.grp p ws || !(octetsFree s cx.gk cx.grp p) || !(takesTurn s cx.gk cx.grp p) then .next s
        else
          let s1 := if wbe || wte then acquireDo s cx.grp.core 3 else s
          let now := (tgetD (getCore s cx.grp.core).perf 0 0).toNat
          .next (touchPath (modGroup s1 cx.gk (fun g => modPath { g with atEntry := false, lastIssue := now } cx.lane (fun q =>
            { q with hdr := h, widx := 1, pfx := none, y0 := none, y1 := none, y2 := none, lndCheck := 0, age := 0, aged := false,
                     yielded := false, loop := captureBody s cx.grp.core p lcp ws }))) cx.grp.core p)
      | _ => .next (fetchFail cx s)

/-- PATH_AGED (R332): counted when a path has been a candidate for 1,024 cycles without issuing. -/
def execPathAged (g p : Nat) (s : State) : Out :=
  match tget s.groups g with
  | none => .next s
  | some grp =>
    match pathOf grp p with
    | none => .next s
    | some q =>
      if q.aged || q.age < 1024 then .next s
      else .next (perfAdd (modGroup s g (fun x => modPath x p (fun y => { y with aged := true }))) grp.core 5 1)

/-! ## NOP, PFX, UDF -/

/-- NOP (R34). -/
def execNop (s : State) : Out := runWord s (fun _ => false) (fun _ => .ok s)

/-- The word after the word of a path, in the code of its overlay; none at the end of the clause. -/
def nextWord (s : State) (cx : Ctx) : Option Nat :=
  if cx.path.widx ≥ hdrCount cx.path.hdr then none
  else match fetchPath s cx.grp.core cx.path with
    | .code ws _ => some (codeAt ws (wixOf cx.path.pc + cx.path.widx + 1))
    | _ => none

/-- Whether the word after a PFX is illegal by a sub-cause that ranks above PREFIX (Table 2.8), which that word then reports;
a fault of the PFX word's own fields comes first (R34). -/
def nextRanks (s : State) (cx : Ctx) (x : Pfx) (nw : Nat) : Bool :=
  x.rnd ≠ 7 && (x.mske || !x.mz) && (x.ce || x.c = 0)
    && ((match fetchPath s cx.grp.core cx.path with
        | .code ws _ => classBad ws cx.path cx.path.hdr (cx.path.widx + 1) nw
        | _ => false)
      || (match decodeNat nw with
        | .error e => e = .unassigned || e = .reserved || e = .subfn
        | .ok _ => false))

/-- PFX (R31, R32): it stands for the next word, or is illegal. It is counted with the word it modifies. -/
def execPfx (msk : Fin 8) (mske : Bool) (rnd : BitVec 3) (mz : Bool) (c : BitVec 7) (ce : Bool) (thr : BitVec 4) (s : State) : Out :=
  let w := 0xF0 * 2 ^ 24 + msk.val * 2 ^ 21 + mske.toNat * 2 ^ 20 + rnd.toNat * 2 ^ 17 + mz.toNat * 2 ^ 16 + c.toNat * 2 ^ 9
    + ce.toNat * 2 ^ 8 + thr.toNat * 2 ^ 4
  match ctxOf s with
  | none => .refused .noPath
  | some cx =>
    match nextWord s cx with
    | none => .next (raiseTrap cx (illegalTrap cx.path .prefix_) s)
    | some nw =>
      if !(pfxLegal (pfxOfNat w) nw) && !(nextRanks s cx (pfxOfNat w) nw) then .next (raiseTrap cx (illegalTrap cx.path .prefix_) s)
      else .next (modGroup (countIssue s cx.gk cx.grp) cx.gk (fun g => modPath g cx.lane (fun p =>
        { p with pfx := some (BitVec.ofNat 32 w), widx := p.widx + 1, stalled := false })))

/-- UDF (R34): the illegal-instruction trap, whatever its payload. -/
def execUdf (_u : BitVec 24) (s : State) : Out :=
  runWord s (fun _ => false) (fun cx => .trap (illegalTrap cx.path .udf))

/-! ## The word a path stands at -/

/-- What a path in focus does next: an instruction to carry out with the path's word and header noted, or a state in which it
has been stopped or waits. -/
inductive NextWord where
  | run (i : Instr) (s : State)
  | stop (s : State)

/-- The word that a path stands at, checked and decoded (R21, R35, R364). Inside a clause the header is read again, since a
return may have entered the clause there (R36); HEADER is reported at word index 0 (Table 2.8). -/
def fetchWord (s : State) (cx : Ctx) : NextWord :=
  let p := cx.path
  if p.wait ≠ .ready || !cx.grp.replays.isEmpty || cx.grp.words.any (fun w => w.replay && (wordOpen w || wordFaulted w)) then .stop s
  else match fetchPath s cx.grp.core p with
    | .code ws _ =>
      let i := wixOf p.pc
      let h := codeAt ws i
      if p.widx = 0 then
        match decodeHeaderNat h with
        | .ok x => .run x s
        | .error _ =>
          if pathFree cx.grp p then
            .stop (if p.lndCheck &&& p.mask ≠ 0 then landFail s cx h
              else stopPath s cx.gk cx.lane (headTrap p 1 Illegal.header.code p.mask [] h))
          else .stop s
      else if !(holdsOctets p) && !(octetsFree s cx.gk cx.grp p) then .stop s
      else if !(headerOk ws i) || p.widx > hdrCount h then
        .stop (modGroup (stopPath s cx.gk cx.lane (headTrap p 1 Illegal.header.code p.mask [] h)) cx.gk
          (fun g => modPath g cx.lane (fun q => { q with widx := 0 })))
      else
        let w := codeAt ws (i + p.widx)
        let q := { p with hdr := h, cur := w }
        let s1 := modGroup s cx.gk (fun g => modPath g cx.lane (fun _ => q))
        if classBad ws p h p.widx w then .stop (raiseTrap cx (illegalTrap q .class_) s1)
        else match decodeNat (if fOP w = 0xF0 then w else rotWord p.loop w) with
          | .ok x => .run x s1
          | .error e => .stop (raiseTrap cx (illegalTrap q e) s1)
    | _ => .stop (fetchFail cx s)

end Sys2Proof.Machine
end

