-- ==== Sys2Proof/Machine/Control.lean ====
section
/-! DEFINITION. The control words (chapter 14): branches, indirect transfers, calls, the rejoin stack, fibres, loops, barriers,
waits and graphs, and the events GROUP_END, MWAIT_TIMEOUT and YIELD_EXPIRY. -/

namespace Sys2Proof.Machine

/-! ## Targets -/

/-- The code address of a direct target (R348); none when OVR exceeds the link count. -/
def directTarget (s : State) (cx : Ctx) (t : Target) : Option W32 :=
  let ov := if t.ovr = 0 then some (ovOf cx.path.pc)
    else match fetchAt s cx.grp.core cx.path.pc with
      | .code _ ls => ls[t.ovr.toNat - 1]?
      | _ => none
  ov.map (fun n => BitVec.ofNat 32 (n * 65536 + t.wix.toNat * 4))
/-- A lane selected by a predicate (R347). -/
def selected (cx : Ctx) (p : Fin 8) (n : Bool) (l : Nat) : Bool := (predByte cx.grp l p.val).getLsbD 0 != n
/-- The active lanes that FEND, BRK or DEMOTE selects (R347). -/
def selLanes (cx : Ctx) (x : Sel) : List Nat :=
  match x with
  | .all => lanesOf cx.path.mask
  | .pred p n => (lanesOf cx.path.mask).filter (selected cx p n)
/-- A next address for some lanes. -/
def lanesTo (ls : List Nat) (a : W32) : Tbl W32 := ls.map (fun l => (l, a))
/-- The path of some lanes that stands at an address, after a word that ends its clause. -/
def pathTo (p : Path) (ls : List Nat) (a : W32) : Path := { landAt p a with mask := maskOf ls }
/-- A word with a direct target: its address, or OPERAND (R346). -/
def withTarget (s : State) (t : Target) (pend : Ctx → Bool) (f : Ctx → W32 → WRes) : Out :=
  runWord s pend (fun cx => match directTarget s cx t with | some a => f cx a | none => operandTrap cx)

/-- BRA (R350). -/
def execBra (t : Target) (s : State) : Out := withTarget s t (fun _ => false) (fun cx a => .go s (lanesTo (lanesOf cx.path.mask) a))
/-- BRC (R350). -/
def execBrc (p : Fin 8) (n : Bool) (t : Target) (s : State) : Out :=
  withTarget s t (fun _ => false) (fun cx a =>
    .go s ((lanesOf cx.path.mask).map (fun l => (l, if selected cx p n l then a else nextClause cx.path))))

/-! ## Indirect transfers (R351, R352) -/

/-- The check that an indirect target fails: 1 UNMAPPED, 2 MISALIGN, 3 NOLAND, 0 none. DESIGN CHOICE (log 84): the clauses of the default code
of overlay 0xFFFF, whose words the spec does not give, have LND = 0, so that every indirect jump or call there fails NOLAND. -/
def indirectCode (s : State) (core : Nat) (lnd : Bool) (t : W64) : Nat :=
  if bitsOf t.toNat 32 32 ≠ 0 then 1
  else if bitsOf t.toNat 0 2 ≠ 0 then 2
  else
    let pc := BitVec.ofNat 32 t.toNat
    match lnd, fetchAt s core pc with
    | true, .code ws _ =>
      let h := codeAt ws (wixOf pc)
      if fOP h = 0xF7 && bitsOf h 3 1 = 1 then 0 else 3
    | true, .system => 3
    | _, _ => 0
/-- Whether the LND check of a target is still to be made at the first fetch. -/
def lndLater (s : State) (core : Nat) (pc : W32) : Bool :=
  match fetchAt s core pc with
  | .code _ _ | .system => false
  | .loading => true
  | .fault sub => sub = 2
/-- Lanes that go to indirect targets, and lanes that trap at the word (R352): `ts` gives each lane's target, `upd` what a
transfer does to the group for the lanes that pass. -/
def indirectFlow (s : State) (cx : Ctx) (lnd : Bool) (ts : List (Nat × W64)) (upd : Group → List Nat → Group) : WRes :=
  let codes := ts.map (fun x => (x.1, indirectCode s cx.grp.core lnd x.2))
  let bad := codes.filter (fun x => x.2 ≠ 0)
  let t := mkTrap cx.path 4 0 0 (maskOf (bad.map Prod.fst)) bad
  let good := ts.filter (fun x => !(bad.any (fun y => y.1 = x.1)))
  if good.isEmpty && !bad.isEmpty && bad.length = (lanesOf cx.path.mask).length then .trap t
  else
    let s1 := modGroup s cx.gk (fun g => upd g (good.map Prod.fst))
    let ps := (byTarget (good.map (fun x => (x.1, x.2.setWidth 32)))).map (fun y =>
      { pathTo cx.path [] y.1 with mask := y.2, lndCheck := if lnd && lndLater s cx.grp.core y.1 then y.2 else 0 })
    .flow s1 (ps ++ (if bad.isEmpty then [] else [{ trapPath t cx.path with mask := maskOf (bad.map Prod.fst) }]))

/-- JMP (R351, R352). -/
def execJmp (a : Reg) (s : State) : Out :=
  runWord s (pendingOn (regRegs a)) (fun cx =>
    indirectFlow s cx true ((lanesOf cx.path.mask).map (fun l => (l, regVal cx a l))) (fun g _ => g))

/-! ## Calls (R203, R204, R353, R354) -/

/-- The trap that CALL's window check raises, if any: WINLIMIT, which no spill can serve, or SPILL with the fibres that need it. -/
def callCheck (cx : Ctx) : Option TrapInfo :=
  let ls := lanesOf cx.path.mask
  if ls.any (fun l => (getFibre cx.grp l).wb.toNat + 40 > 65536) then some (mkTrap cx.path 7 0 0 cx.path.mask [])
  else
    let need := ls.filter (fun l => let f := getFibre cx.grp l; f.wb.toNat + 40 > f.low.toNat + cx.grp.depth)
    if need.isEmpty then none else some (mkTrap cx.path 5 0 0 (maskOf need) [])
/-- What a call does to a lane: the window rises by 8 and the callee's v24 holds the return address. -/
def callLane (ra : W32) (g : Group) (l : Nat) : Group :=
  vSet (modFibre g l (fun f => { f with wb := f.wb + 8 })) l 24 (ra.setWidth 64)
/-- Whether the callee's v24 is pending. -/
def callPending (cx : Ctx) : Bool := calleePending cx.grp cx.path.mask
/-- CALL (R353). -/
def execCall (t : Target) (s : State) : Out :=
  withTarget s t callPending (fun cx a =>
    match callCheck cx with
    | some tr => .trap tr
    | none =>
      let ls := lanesOf cx.path.mask
      .go (modGroup s cx.gk (fun g => ls.foldl (callLane (nextClause cx.path)) g)) (lanesTo ls a))
/-- CALLI (R353). -/
def execCalli (a : Reg) (s : State) : Out :=
  runWord s (fun cx => pendingOn (regRegs a) cx || callPending cx) (fun cx =>
    match callCheck cx with
    | some tr => .trap tr
    | none =>
      indirectFlow s cx true ((lanesOf cx.path.mask).map (fun l => (l, regVal cx a l)))
        (fun g ls => ls.foldl (callLane (nextClause cx.path)) g))

/-! ## Barriers (R368 to R370) -/

/-- The groups of a block that are on the device. -/
def blockGroups (s : State) (b : Nat) : List (Nat × Group) := s.groups.filter (fun g => g.2.block = b)
/-- A barrier slot of a block. -/
def barOf (s : State) (b k : Nat) : BarSlot :=
  match tget s.blocks b with
  | some x => tgetD x.bars k ⟨0, [], 0⟩
  | none => ⟨0, [], 0⟩
def setBar (s : State) (b k : Nat) (x : BarSlot) : State := modBlock s b (fun y => { y with bars := tset y.bars k x })
/-- The current phase of a slot completes when every live fibre of every member group and every joined command has arrived. -/
def barEval (s : State) (b k : Nat) : State :=
  let gs := (blockGroups s b).filter (fun g => liveMask g.2 ≠ 0)
  let x := barOf s b k
  if gs.isEmpty || !x.joined.isEmpty || !(gs.all (fun g => (lanesOf (liveMask g.2)).all (fun l => (getFibre g.2 l).arrived.getLsbD k))) then s
  else
    let s1 := setBar s b k ⟨x.phase + 1, [], 0⟩
    { s1 with groups := s1.groups.map (fun g =>
        if g.2.block = b then (g.1, { g.2 with lanes := g.2.lanes.map (fun f => (f.1, { f.2 with arrived := f.2.arrived &&& ~~~((1 : BitVec 16) <<< k) })) })
        else g) }
/-- Every slot of a block evaluated, after fibres have ended (R370). -/
def barEvalAll (s : State) (b : Nat) : State := (List.range 16).foldl (fun a k => barEval a b k) s
/-- Some lanes of a group arrive at a slot. -/
def barArrive (s : State) (gk : Nat) (g : Group) (ls : List Nat) (k : Nat) : State :=
  let s1 := modGroup s gk (fun x => ls.foldl (fun a l => modFibre a l (fun f => { f with arrived := f.arrived ||| ((1 : BitVec 16) <<< k) }))
    { x with barPhase := tset x.barPhase k (barOf s g.block k).phase })
  barEval s1 g.block k
/-- A command that joined a phase arrives (R193). -/
def barCommand (s : State) (b k id : Nat) : State :=
  let x := barOf s b k
  barEval (setBar s b k { x with joined := x.joined.filter (· ≠ id) }) b k

/-- BAR (R304, R369): a release at cluster scope, which covers every earlier access, and each active lane arrives. -/
def execBar (k : Fin 16) (s : State) : Out :=
  runWord s (fun _ => false) (fun cx =>
    let r := releaseAll s cx.gk s.nextId 3 cx.path.mask
    if !r.2 then .stall r.1
    else
      let ls := lanesOf cx.path.mask
      .go (barArrive r.1 cx.gk cx.grp ls k.val) (lanesTo ls (nextClause cx.path)))

/-! ## Fibres (R359 to R362) -/

/-- The fibres of some lanes end: they stop counting in their barriers (R361, R370). What is still out for them goes on. -/
def endFibres (s : State) (gk : Nat) (g : Group) (ls : List Nat) : State :=
  if ls.isEmpty then s
  else barEvalAll (modGroup s gk (fun x =>
    ls.foldl (fun a l => modFibre a l (fun f => { f with live := false, pred := 0, rejoin := [], arrived := 0 })) x)) g.block
/-- RET (R354). -/
def execRet (s : State) : Out :=
  runWord s (pendingOn [24]) (fun cx =>
    let ls := lanesOf cx.path.mask
    let back := ls.filter (fun l => (getFibre cx.grp l).wb ≠ 0)
    let done := ls.filter (fun l => (getFibre cx.grp l).wb = 0)
    let need := back.filter (fun l => let f := getFibre cx.grp l; f.wb.toNat < f.low.toNat + 8)
    if !need.isEmpty then .trap (mkTrap cx.path 6 0 0 (maskOf need) [])
    else indirectFlow (endFibres s cx.gk cx.grp done) cx false (back.map (fun l => (l, vGet cx.grp l 24)))
      (fun g us => us.foldl (fun a l => modFibre a l (fun f => { f with wb := f.wb - 8 })) g))

/-- Lanes of a group that hold no fibre, on no path and with nothing outstanding (R359). -/
def freeLanes (g : Group) : List Nat :=
  (List.range (groupWidth g)).filter (fun l => !(getFibre g l).live && !(g.paths.any (fun p => p.mask.getLsbD l)) && !(g.words.any (fun w => match tget w.lanes l with
    | some a => a.st ≠ .done
    | none => false)))
/-- SPILLA as the register holds it: bits [2:0] read 0 (Table 9.7). -/
def spillAddr (v : W64) : W64 := v &&& 0xFFFFFFFFFFFFFFF8
/-- The child that FORK makes of a parent (R360). -/
def forkChild (g : Group) (p l : Nat) : Fibre :=
  let f := getFibre g l
  { live := true, slots := (List.range 32).map (fun r => (r, vGet g l r)), wb := 0, low := 0, spilla := spillAddr f.spilla,
    pred := f.pred &&& ~~~((0xFF : W64) <<< (8 * p)), lstat := f.lstat &&& 0x10000, rejoin := [], arrived := f.arrived }
/-- FORK (R360): the selected lanes in ascending order take the free lanes in ascending order. A register of the parent that is
still pending holds the word up, since the child takes v0 to v31 as they are at the word. -/
def execFork (p : Fin 8) (n : Bool) (t : Target) (s : State) : Out :=
  withTarget s t (fun cx => regsPending cx.grp (maskOf ((lanesOf cx.path.mask).filter (selected cx p n))) (List.range 32)) (fun cx a =>
    let fs := (lanesOf cx.path.mask).filter (selected cx p n)
    let pairs := fs.zip (freeLanes cx.grp)
    let s1 := modGroup s cx.gk (fun g =>
      let g1 := pairs.foldl (fun x q => setFibre x q.2 (forkChild cx.grp p.val q.1)) g
      fs.foldl (fun x l => predSet x l p.val (if pairs.any (fun q => q.1 = l) then 0xFF else 0)) g1)
    .flow s1 (pathTo cx.path (lanesOf cx.path.mask) (nextClause cx.path)
      :: (if pairs.isEmpty then [] else [{ pathTo cx.path (pairs.map Prod.snd) a with loop := none }])))
/-- FEND (R361). -/
def execFend (sel : Sel) (s : State) : Out :=
  runWord s (fun _ => false) (fun cx =>
    let es := selLanes cx sel
    .go (endFibres s cx.gk cx.grp es) (lanesTo ((lanesOf cx.path.mask).filter (fun l => !(es.contains l))) (nextClause cx.path)))
/-- DEMOTE (R362). -/
def execDemote (sel : Sel) (s : State) : Out :=
  runWord s (fun _ => false) (fun cx =>
    .go (modGroup s cx.gk (fun g => (selLanes cx sel).foldl (fun a l => modFibre a l (fun f => { f with lstat := f.lstat ||| 0x10000 })) g))
      (lanesTo (lanesOf cx.path.mask) (nextClause cx.path)))

/-- No group: what a record names whose group has ended. -/
def noGroup : Nat := 2 ^ 40
/-- The records that would write a register of a group that has ended write none. -/
def forgetGroup (s : State) (gk : Nat) : State :=
  { s with
    cores := s.cores.map (fun c => (c.1, { c.2 with
      fetches := c.2.fetches.map (fun f => if f.group = gk then { f with group := noGroup } else f),
      regions := c.2.regions.map (fun r => (r.1, match r.2.ending with
        | some (x, d) => if x = gk then { r.2 with ending := some (noGroup, d) } else r.2
        | none => r.2)) })),
    clusters := s.clusters.map (fun c => (c.1, { c.2 with
      cmds := c.2.cmds.map (fun x => if x.group = gk then { x with group := noGroup } else x),
      pubs := c.2.pubs.map (fun x => if x.group = gk then { x with group := noGroup } else x) })),
    stackTbl := s.stackTbl.map (fun k => (k.1, { k.2 with modeWaits := k.2.modeWaits.filter (·.group ≠ gk) })) }
/-- What a group that ends leaves in its core's buffers: its entries are asked to drain and to be flushed (R148, R160), and they and their
writes under way keep the name of its block alone. -/
def leaveBuffers (s : State) (gk core : Nat) : State :=
  let s1 := mbAsk (sbAsk s core (fun x => x.groups.contains gk)) core (fun x => x.groups.contains gk)
  let s2 := modCore s1 core (fun k => { k with
    sb := k.sb.map (fun x => { x with groups := x.groups.filter (· ≠ gk) })
    mb := k.mb.map (fun x => { x with groups := x.groups.filter (· ≠ gk) }) })
  { s2 with fab := { s2.fab with tx := s2.fab.tx.map (fun t => { t with origin := match t.origin with
      | .drain c gs bs => .drain c (gs.filter (· ≠ gk)) bs
      | .merge c ln gs bs => .merge c ln (gs.filter (· ≠ gk)) bs
      | o => o }) } }
/-- GROUP_END (R361): no live fibre, nothing outstanding and no matrix request left. The group gives up its index and slots. -/
def execGroupEnd (g : Nat) (s : State) : Out :=
  match tget s.groups g with
  | none => .next s
  | some x =>
    if liveMask x ≠ 0 || x.words.any wordOpen || (getCluster s (clusterOf x.core)).mat.any (·.group = g) then .next s
    else
      let s1 := leaveBuffers (modBlock s x.block (fun b => { b with groups := b.groups.filter (· ≠ g) })) g x.core
      .next (forgetGroup { s1 with groups := tdel s1.groups g } g)

/-! ## The rejoin stack (R355, R358) -/

/-- REJOIN (R355). -/
def execRejoin (t : Target) (s : State) : Out :=
  withTarget s t (fun _ => false) (fun cx a =>
    let ls := lanesOf cx.path.mask
    if ls.any (fun l => (getFibre cx.grp l).rejoin.length ≥ 16) then .trap (mkTrap cx.path 8 1 0 cx.path.mask [])
    else .go (modGroup s cx.gk (fun g => ls.foldl (fun x l => modFibre x l (fun f => { f with rejoin := a :: f.rejoin })) g))
      (lanesTo ls (nextClause cx.path)))
/-- BRK (R358). -/
def execBrk (sel : Sel) (n : BitVec 4) (s : State) : Out :=
  runWord s (fun _ => false) (fun cx =>
    let bs := selLanes cx sel
    if bs.any (fun l => (getFibre cx.grp l).rejoin.length < n.toNat + 1) then .trap (mkTrap cx.path 8 2 0 cx.path.mask [])
    else
      .go (modGroup s cx.gk (fun g => bs.foldl (fun x l => modFibre x l (fun f => { f with rejoin := f.rejoin.drop n.toNat })) g))
        ((lanesOf cx.path.mask).map (fun l =>
          (l, if bs.contains l then ((getFibre cx.grp l).rejoin.drop n.toNat).headD 0 else nextClause cx.path))))

/-! ## Loops (R363 to R366) -/

/-- LOOP (R363). -/
def execLoop (ncl : BitVec 4) (count : LoopCount) (inc : Option (Fin 32)) (s : State) : Out :=
  let regs := (match count with | .s r => [64 + r.val] | .k _ => []) ++ (match inc with | some r => [64 + r.val] | none => [])
  runWord s (pendingOn regs) (fun cx =>
    let c := match count with | .s r => bitsOf (sGet cx.grp r.val).toNat 0 32 | .k n => n.val
    let i := match inc with | some r => sGet cx.grp r.val | none => 0
    let body := nextClause cx.path
    let ls := lanesOf cx.path.mask
    if c = 0 then
      let w := match fetchAt s cx.grp.core cx.path.pc with
        | .code ws _ => skipClauses ws ncl.toNat (wixOf body)
        | _ => wixOf body
      .flow s [pathTo cx.path ls (inOverlay cx.path.pc w)]
    else .flow s [{ pathTo cx.path ls body with
      loop := some { ncl := ncl.toNat, pass := 0, count := c, inc := i, body := body, captured := [] } }])
/-- A uniform register stepped by the increment word at the end of a pass (R365). -/
def loopStep (g : Group) (inc : W64) (en reg step : Nat) : Group :=
  if bitsOf inc.toNat en 1 = 1 then
    let r := bitsOf inc.toNat reg 5
    sSet g r (sGet g r + sext64 16 (bitsOf inc.toNat step 16))
  else g
/-- LEND (R365). It is CLASS where no loop runs (R366). -/
def execLend (s : State) : Out :=
  runWord s (fun cx => pendingOn (lendRegs cx.path.loop) cx)
    (fun cx => match cx.path.loop with
      | none => .trap (illegalTrap cx.path .class_)
      | some lp =>
        let s1 := modGroup s cx.gk (fun g => loopStep (loopStep g lp.inc 15 16 32) lp.inc 21 22 48)
        let ls := lanesOf cx.path.mask
        if lp.pass + 1 < lp.count then .flow s1 [{ pathTo cx.path ls lp.body with loop := some { lp with pass := lp.pass + 1 } }]
        else .flow s1 [{ pathTo cx.path ls (nextClause cx.path) with loop := none }])

/-! ## Waiting (R371 to R374) -/

/-- Lines that a slice monitors and no group is armed on any more are forgotten. -/
def tidyMonitors (s : State) : State :=
  { s with coh := { s.coh with monitored := s.coh.monitored.map (fun x =>
      (x.1, x.2.filter (fun ln => s.groups.any (fun g => g.2.monitor = .armed ln)))) } }
/-- The groups armed on a line lose their monitor (R372). -/
def loseLine (s : State) (line : Nat) : State :=
  let gs := (s.groups.filter (fun g => g.2.monitor = .armed line)).map Prod.fst
  gs.foldl (fun a g => settleMonitor (modGroup a g (fun x => { x with monitor := .lost })) g) s
/-- A group's monitor armed on a line; the line armed least recently of a full slice is dropped. -/
def armLine (s : State) (gk line : Nat) : State :=
  let s1 := tidyMonitors (modGroup s gk (fun g => { g with monitor := .armed line }))
  let k := homeSlice line
  let l := line :: (tgetD s1.coh.monitored k []).filter (· ≠ line)
  let s2 := { s1 with coh := { s1.coh with monitored := tset s1.coh.monitored k (l.take 64) } }
  (l.drop 64).foldl loseLine s2
/-- MARM (R371). -/
def execMarm (d a : Fin 32) (s : State) : Out :=
  runWord s (pendingOn [64 + d.val, 64 + a.val]) (fun cx =>
    let va := sGet cx.grp a.val
    let put := fun (q : State) (v : W64) => modGroup q cx.gk (fun g => sSet g d.val v)
    let r := xlateNow s (some cx.grp.core) (dieOfCore cx.grp.core) va.toNat
    match r.2 with
    | .wait => .stall r.1
    | .fault sub => memTrap cx sub va
    | .ok e =>
      match daCheck r.1 e va.toNat false false with
      | some sub => memTrap cx sub va
      | none =>
        let da := daOf e va.toNat
        let nx := lanesTo (lanesOf cx.path.mask) (nextClause cx.path)
        if tgtOf r.1 da = .hbm then .go (put (armLine r.1 cx.gk (lineOf (localOf da))) 0) nx
        else .go (settleMonitor (put (tidyMonitors (modGroup r.1 cx.gk (fun g => { g with monitor := .none }))) (2 ^ 63 + 1 : Nat)) cx.gk) nx)
/-- MWAIT (R373). Its wake is an acquire of every fibre of the path, so the word waits for their earlier reads (R309). -/
def execMwait (d a : Fin 32) (s : State) : Out :=
  runWord s (fun cx => pendingOn [64 + d.val, 64 + a.val] cx || readsOpen cx.grp s.nextId cx.path.mask) (fun cx =>
    let t := (sGet cx.grp a.val).toNat
    let p := pathTo cx.path (lanesOf cx.path.mask) (nextClause cx.path)
    match monCode cx.grp.monitor with
    | some c =>
      let s1 := modGroup s cx.gk (fun g => { sSet g d.val (BitVec.ofNat 64 c) with monitor := .none })
      .flow (if c = 0 then acquireDo s1 cx.grp.core 4 else s1) [p]
    | none => .flow s [{ p with wait := .mwait d.val (if t = 0 then none else some (s.time.now + t)) }])
/-- MWAIT_TIMEOUT (R373): the path's wait ends with TIMEOUT; other waits of the group end NONE. -/
def execMwaitTimeout (g p : Nat) (s : State) : Out :=
  match tget s.groups g with
  | none => .next s
  | some grp =>
    match pathOf grp p with
    | none => .next s
    | some q =>
      match q.wait with
      | .mwait d (some t) =>
        if s.time.now < t then .next s
        else
          let s1 := modGroup s g (fun x => modPath { sSet x d 1 with monitor := .none } p (fun y => { y with wait := .ready }))
          .next (boundary (settleMonitor (tidyMonitors s1) g) g)
      | _ => .next s
/-- YIELD (R374): 0 acts as YLD. -/
def execYield (n : BitVec 9) (s : State) : Out :=
  runWord s (fun _ => false) (fun cx =>
    let p := pathTo cx.path (lanesOf cx.path.mask) (nextClause cx.path)
    .flow s [if n = 0 then { p with yielded := true } else { p with wait := .yield n.toNat }])
/-- YIELD_EXPIRY (R374). -/
def execYieldExpiry (g p : Nat) (s : State) : Out :=
  match tget s.groups g with
  | none => .next s
  | some grp =>
    match pathOf grp p with
    | none => .next s
    | some q =>
      if q.wait = .yield 0 then .next (boundary (modGroup s g (fun x => modPath x p (fun y => { y with wait := .ready }))) g)
      else .next s

/-! ## Graphs (R375, R376) -/

/-- The condition word of the graph instance that placed a group (R219). -/
def cwOf (s : State) (g : Group) : W64 :=
  match tget s.blocks g.block with
  | some b => (match tget s.esc.insts b.inst with | some x => x.cw | none => 0)
  | none => 0
/-- The condition word of an instance written, at device scope. -/
def cwPut (s : State) (inst : Nat) (v : W64) : State :=
  match tget s.esc.insts inst with
  | some x => { s with esc := { s.esc with insts := tset s.esc.insts inst { x with cw := v } } }
  | none => s
/-- The instance of a group. -/
def instOf (s : State) (g : Group) : Nat := match tget s.blocks g.block with | some b => b.inst | none => 0
/-- LAUNCH (R375, R397): a release at device scope, then the header joins the pending queue. -/
def execLaunch (d a : Fin 32) (s : State) : Out :=
  runWord s (pendingOn [64 + d.val, 64 + a.val]) (fun cx =>
    let va := sGet cx.grp a.val
    let put := fun (q : State) (v : Nat) => modGroup q cx.gk (fun g => sSet g d.val (BitVec.ofNat 64 v))
    let nx := lanesTo (lanesOf cx.path.mask) (nextClause cx.path)
    if bitsOf va.toNat 0 7 ≠ 0 || bitsOf va.toNat 57 7 ≠ 0 || selLh s = 0 then .go (put s (2 ^ 63 + 1)) nx
    else if s.esc.pending.length ≥ 16 then .go (put s (2 ^ 63 + 2)) nx
    else
      let r := releaseAll s cx.gk s.nextId 4 cx.path.mask
      if !r.2 then .stall r.1
      else .go (put { r.1 with esc := { r.1.esc with pending := r.1.esc.pending ++ [va] } } 0) nx)
/-- The value that CWSET writes (R376). -/
def cwNew (op : CwOp) (old x : W64) : W64 :=
  match op with
  | .set => x
  | .add => old + x
  | .or => old ||| x
  | .and => old &&& x
/-- CWSET (R376). -/
def execCwset (op : CwOp) (d a : Fin 32) (s : State) : Out :=
  runWord s (pendingOn [64 + d.val, 64 + a.val]) (fun cx =>
    let old := cwOf s cx.grp
    let s1 := cwPut s (instOf s cx.grp) (cwNew op old (sGet cx.grp a.val))
    .go (modGroup s1 cx.gk (fun g => sSet g d.val old)) (lanesTo (lanesOf cx.path.mask) (nextClause cx.path)))

end Sys2Proof.Machine
end

