-- ==== Sys2Proof/Machine/Trap.lean ====
section
/-! DEFINITION. Taking a trap and returning from it (chapter 15): the frame's layout (Tables 15.3 to 15.6), TRAP_ENTRY, TRET with the
records it performs, FATAL, the system words TRAP, BKPT, RDSR, WRSR, RDTIME, PERF, and the status registers (Tables 9.4 to 9.7,
15.11). -/

namespace Sys2Proof.Machine

/-! ## What a group's trap is -/

/-- The trap a path raises itself. -/
def pathTrap (p : Path) : Option TrapInfo := match p.wait with | .trap t => some t | _ => none
/-- Lanes of a word that are listed, with their sub-cause and fabric code. -/
def listedOf (w : MemWord) : List (Nat × Nat × Nat) :=
  w.lanes.filterMap (fun x => match x.2.st with | .listed sub fab => some (x.1, sub, fab) | _ => none)
/-- All listed lanes of a group, by word. -/
def groupListed (g : Group) : List (Nat × Nat × Nat) := (g.words.map listedOf).flatten
/-- Cause and sub-cause that a path's entry shows: its own trap, or MEMORY when one of its lanes is listed (Table 15.4). -/
def pathCause (g : Group) (p : Path) : Nat × Nat :=
  match pathTrap p with
  | some t => (t.cause, t.sub)
  | none => match (groupListed g).find? (fun x => p.mask.getLsbD x.1 && x.2.1 ≠ 0) with
    | some x => (2, x.2.1)
    | none => (0, 0)
/-- Paths in ascending order of their lowest lane. -/
def sortedPaths (g : Group) : List Path :=
  (List.range 64).filterMap (fun l => g.paths.find? (fun p => lowLane p.mask = l))
/-- Whether a precise cause is being taken. -/
def preciseTrap (g : Group) : Bool := g.paths.any (fun p => (pathTrap p).isSome) || g.words.any wordFaulted
/-- CAUSE, SUB and INFO of a frame (Table 15.3): of the trapping path with the lowest lane, or of the imprecise cause. -/
def frameCause (g : Group) : Nat × Nat × W64 :=
  match (sortedPaths g).find? (fun p => (pathCause g p).1 ≠ 0) with
  | some p => ((pathCause g p).1, (pathCause g p).2, match pathTrap p with | some t => t.info | none => 0)
  | none =>
    if preciseTrap g then (2, (match groupListed g with | x :: _ => x.2.1 | [] => 0), 0)
    else match g.imp with | some i => (i.cause, 0, i.info) | none => (0, 0, 0)
/-- TRAPPED (Table 15.3): the lanes of the precise causes; an imprecise cause concerns the whole group (Table 15.1). -/
def trappedLanes (g : Group) : LaneMask :=
  if !(preciseTrap g) then liveMask g
  else g.paths.foldl (fun a p => match pathTrap p with | some t => a ||| t.lanes | none => a) (maskOf ((groupListed g).map (·.1)))

/-! ## The frame (R383) -/

/-- A field of `n` bits at bit `lo`. -/
def at_ (lo n v : Nat) : Nat := (v % 2 ^ n) * 2 ^ lo
/-- The frame header (Table 15.3). -/
def frameHeader (s : State) (g : Group) (nword : Nat) : Nat :=
  let c := frameCause g
  let im := if preciseTrap g then none else g.imp
  at_ 0 8 c.1 + at_ 8 8 c.2.1 + at_ 16 2 g.tdepth + at_ 24 7 g.paths.length + at_ 32 6 nword
    + at_ 40 8 (match im with | some i => i.src | none => 0) + at_ 48 8 (match im with | some i => i.count | none => 0)
    + at_ 64 64 (liveMask g).toNat + at_ 128 64 (trappedLanes g).toNat + at_ 192 64 c.2.2.toNat + at_ 256 64 s.time.now
    + ((List.range 8).map (fun m => at_ (1024 + 64 * m) 64 (sGet g (24 + m)).toNat)).foldl (· + ·) 0
/-- A path entry (Table 15.4). -/
def pathEntry (g : Group) (p : Path) : Nat :=
  let c := pathCause g p
  let t := pathTrap p
  at_ 0 32 p.pc.toNat + at_ 32 4 p.widx + at_ 36 4 (match p.loop with | some l => l.ncl | none => 0) + at_ 40 8 c.1 + at_ 48 8 c.2
    + at_ 64 64 p.mask.toNat + at_ 128 32 (match t with | some t => t.word | none => 0)
    + at_ 160 32 (match t with | some t => t.pfxw | none => 0)
    + (match p.loop with
      | some l => at_ 192 32 l.pass + at_ 224 32 l.count + at_ 256 32 l.body.toNat + at_ 288 64 l.inc.toNat
      | none => 0)
/-- A lane record (Table 15.5). -/
def laneRecord (g : Group) (l : Nat) : Nat :=
  let f := getFibre g l
  let p := pathOf g l
  let y := fun (k : Fin 3) => match p with | some q => latchOf q k | none => none
  let yv := fun (k : Fin 3) => match y k with | some x => (tgetD x.vals l 0).toNat | none => 0
  at_ 0 64 (yv 0) + at_ 64 64 (yv 1) + at_ 128 64 (yv 2)
    + at_ 192 3 ((if (y 0).isSome then 1 else 0) + (if (y 1).isSome then 2 else 0) + (if (y 2).isSome then 4 else 0))
    + at_ 200 8 (match p with | some q => (match pathTrap q with | some t => tgetD t.lcause l 0 | none => 0) | none => 0)
    + ((List.range 8).map (fun m => at_ (256 + 64 * m) 64 (vGet g l (24 + m)).toNat)).foldl (· + ·) 0
    + at_ 768 64 f.pred.toNat + at_ 832 64 f.lstat.toNat
/-- DATA0 and DATA1 of a lane (Table 15.6); an RSCL has no DATA1, its table is s[b] again when it is performed (log 9). -/
def laneData (op : MemOp) (a : LaneAcc) : W64 × W64 :=
  match op with
  | .store _ _ | .sts _ | .atom _ _ _ | .red _ _ | .gred _ | .rscl => (a.d0, 0)
  | .cas _ _ _ _ => (a.d0, a.d1)
  | .mlr _ => (0, a.d1)
  | _ => (0, 0)
/-- A word record: the words with listed lanes, then the records that TRET had still to perform (R384); LISTED equals REPLAY at entry, and
the DLOG of a latch, which has no logical index, is 0 (log 114). -/
def wordRecord (w : MemWord) : Nat :=
  let ls := listedOf w
  let m := maskOf (ls.map (·.1))
  at_ 0 32 w.caddr.toNat + at_ 32 4 w.widx + at_ 64 32 w.word + at_ 96 32 w.pfxw
    + at_ 128 16 (match ls with | x :: _ => (match tget w.lanes x.1 with | some a => a.dlog | none => 0) | [] => 0)
    + at_ 144 1 w.uni.toNat + at_ 192 64 m.toNat + at_ 256 64 m.toNat
    + (ls.map (fun x => at_ (320 + 8 * x.1) 4 x.2.1 + at_ (324 + 8 * x.1) 4 x.2.2)).foldl (· + ·) 0
    + (ls.map (fun x => match tget w.lanes x.1 with
        | some a =>
          let d := laneData w.op a
          at_ (1024 + 192 * x.1) 64 a.va.toNat + at_ (1088 + 192 * x.1) 64 d.1.toNat + at_ (1152 + 192 * x.1) 64 d.2.toNat
        | none => 0)).foldl (· + ·) 0
/-- The records of a frame, in program order. -/
def frameWords (g : Group) : List MemWord := (g.words.filter wordFaulted ++ g.replays).take 32
/-- The parts of a frame: offset, bytes, contents. -/
def frameParts (s : State) (g : Group) : List (Nat × Nat × Nat) :=
  let ws := frameWords g
  (0, 256, frameHeader s g ws.length)
    :: (((sortedPaths g).zipIdx.map (fun x => (0x100 + 48 * x.2, 48, pathEntry g x.1)))
    ++ ((List.range (groupWidth g)).map (fun l => (0xD00 + 128 * l, 128, laneRecord g l)))
    ++ (ws.zipIdx.map (fun x => (0x2D00 + 0x680 * x.2, 1664, wordRecord x.1))))
/-- Address of the frame of a level, by the group's GN now (R383). -/
def frameAddr (s : State) (gn level : Nat) : W64 :=
  BitVec.ofNat 64 (bitsOf s.mgmt.tfbase.toNat 30 27 * 2 ^ 30 + 0x20000 * gn + 0x10000 * level)
/-- Parts written one after another; the first that is not written is the outcome. -/
def writeParts (s : State) (core : Nat) (base : Nat) (ps : List (Nat × Nat × Nat)) : State × Acc :=
  ps.foldl (fun (a : State × Acc) x => match a.2 with
    | .ok _ => spanWrite a.1 (some core) (dieOfCore core) (base + x.1) x.2.1 x.2.2
    | _ => a) (s, .ok 0)

/-! ## Entry (R379, R380) -/

/-- Whether steps 1 to 3 of R379 are done for a group: every path at a clause boundary or stopped by a trap (a path resumed
inside a clause waits there while records are performed), nothing of its words open, no matrix request left. -/
def groupSettled (s : State) (gk : Nat) (g : Group) : Bool :=
  (g.paths.all (fun p => p.widx = 0 || (pathTrap p).isSome) || g.words.any (fun w => w.replay && wordFaulted w))
    && !(g.words.any wordOpen) && !((getCluster s (clusterOf g.core)).mat.any (·.group = gk))
/-- What a trap sets aside of a path that the frame does not hold. -/
def heldOf (g : Group) : List (LaneMask × W32 × Wait × LaneMask) :=
  g.paths.filterMap (fun p =>
    let w := match p.wait with | .mwait d t => Wait.mwait d t | _ => .ready
    if w = .ready && p.lndCheck = 0 then none else some (p.mask, p.pc, w, p.lndCheck))
/-- The group once its frame is written: one path of every live fibre at TVEC, one level deeper (R380). -/
def enterHandler (g : Group) (fr : W64) : Group :=
  let c := (frameCause g).1
  let p0 : Path :=
    { pc := g.tvec, widx := 0, hdr := 0, cur := 0, mask := liveMask g, pfx := none, y0 := none, y1 := none, y2 := none,
      loop := none, wait := .ready, lndCheck := 0, stalled := false, yielded := false, fresh := false, age := 0, aged := false }
  { g with
    paths := [p0], words := g.words.filter (fun w => !(wordFaulted w)), replays := [], held := g.held ++ heldOf g,
    imp := if preciseTrap g then g.imp else none, lcause := c,
    frame0 := if g.tdepth = 0 then fr else g.frame0, frame1 := if g.tdepth = 0 then g.frame1 else fr,
    tdepth := g.tdepth + 1, atEntry := true }
/-- Answers to reads of a group's words that a trap leaves without a taker are dropped; the word asks again when it runs again. -/
def dropReads (s : State) (gk : Nat) : State :=
  { s with fab := { s.fab with reads := s.fab.reads.filter (fun x => match x.1 with | .acc _ k _ _ _ => k ≠ some gk | _ => true) } }
/-- A trap taken by a group whose steps 1 to 3 are done: its buffered stores are drained and its contributions flushed (R148, R160), the
frame is written, the handler starts; FATAL at depth 2, with EN = 0, or when the frame cannot be written (R379, R380, R382). -/
def takeTrap (s : State) (gk : Nat) (g : Group) : State :=
  let mine := fun (x : MbEntry) => x.groups.contains gk
  let fr := frameAddr s gk g.tdepth
  let out := fun (q : State) => q.fab.tx.any (fun t => t.origin = .frame gk)
  let d := sbDrainAll s g.core (fun x => x.groups.contains gk)
  if mbAny s g.core mine || !d.2 then mbAsk d.1 g.core mine
  else if g.tdepth ≥ 2 || s.mgmt.tfbase.getLsbD 0 = false then fatalBlock d.1 g.block
  else if g.frameOut then
    if out d.1 then d.1 else setGroup (dropReads d.1 gk) gk { enterHandler g fr with frameOut := false }
  else
    let r := writeParts d.1 g.core fr.toNat (frameParts s g)
    let s1 := txMark r.1 d.1.fab.tx.length (.frame gk)
    match r.2 with
    | .ok _ =>
      match tget s1.groups gk with
      | some g1 => if out s1 then setGroup s1 gk { g1 with frameOut := true } else setGroup (dropReads s1 gk) gk (enterHandler g1 fr)
      | none => s1
    | .wait => s1
    | _ => fatalBlock s1 g.block
/-- TRAP_ENTRY (R379). -/
def execTrapEntry (g : Nat) (s : State) : Out :=
  match tget s.groups g with
  | none => .next s
  | some x =>
    if groupTrapping x && groupSettled s g x && !((match tget s.blocks x.block with | some b => b.fatal | none => false)) then
      .next (takeTrap s g x)
    else .next s

/-! ## Return (R384) -/

/-- The memory operation of a word that a record can hold. -/
def memOpOf : Instr → Option MemOp
  | .ld _ _ t z _ => some (.load t z)
  | .ldu _ _ t z _ => some (.loadu t z)
  | .st _ _ t z _ => some (.store t z)
  | .lds _ _ z _ => some (.lds z)
  | .sts _ _ z _ => some (.sts z)
  | .gath _ _ _ z => some (.load .o z)
  | .scat _ _ _ z => some (.store .o z)
  | .rscl _ _ _ => some .rscl
  | .atom _ _ op sc ord => some (.atom op sc ord)
  | .cas _ _ facq is64 sc ord => some (.cas is64 facq sc ord)
  | .red _ _ ty op => some (.red ty op)
  | .pref k _ t _ => some (.pref k t)
  | .cflush _ k => some (.cflush k)
  | .cinv (some _) => some .cinv
  | .gred _ _ _ f => some (.gred f)
  | .mlr _ _ _ f => some (.mlr f)
  | .fence sc k => some (.fence sc k)
  | .fenceModeGive _ _ => some (.fmode true)
  | .fenceModeTake _ _ => some (.fmode false)
  | .phaseEnd _ _ => some .phend
  | .mqa _ _ (.tile _) _ | .mqax _ _ (.tile _) _ | .mqai _ _ (.tile _) _ => some .tile
  | _ => none
/-- Logical index of a record's destination: DLOG, but a latch takes no value after the clause of its word has ended (log 114). -/
def recordDest (i : Instr) (dlog : Nat) : Nat := match i with | .rscl (.y _) _ _ => 65536 | _ => dlog
/-- A record of a frame as a word to perform in its REPLAY lanes, with the sub-causes it holds. -/
def recordWord (id : Nat) (live : LaneMask) (r : Nat) : Option MemWord :=
  match decodeNat (bitsOf r 64 32) with
  | .error _ => none
  | .ok i => match memOpOf i with
    | none => none
    | some op =>
      let m := live &&& BitVec.ofNat 64 (bitsOf r 256 64)
      some { id := id, op := op, mask := BitVec.ofNat 64 (bitsOf r 192 64), uni := bitsOf r 144 1 = 1, caddr := BitVec.ofNat 32 (bitsOf r 0 32),
             widx := bitsOf r 32 4, word := bitsOf r 64 32, pfxw := bitsOf r 96 32, blk := 0, ans := [], replay := true,
             lanes := (lanesOf m).map (fun l => (l,
               { st := .listed (bitsOf r (320 + 8 * l) 4) (bitsOf r (324 + 8 * l) 4),
                 va := BitVec.ofNat 64 (bitsOf r (1024 + 192 * l) 64), d0 := BitVec.ofNat 64 (bitsOf r (1088 + 192 * l) 64),
                 d1 := BitVec.ofNat 64 (bitsOf r (1152 + 192 * l) 64), dlog := recordDest i (bitsOf r 128 16) })) }
/-- What reading a frame comes to. -/
inductive FrameRead where
  | ok (hdr : Nat) (paths lanes recs : List Nat)
  | wait
  | bad
/-- Spans read one after another. -/
def readSpans (s : State) (core base : Nat) : List (Nat × Nat) → State × Option (List Nat) × Bool
  | [] => (s, some [], false)
  | (o, n) :: t =>
    let r := spanRead s (some core) (dieOfCore core) (base + o) n
    match r.2 with
    | .ok v => match readSpans r.1 core base t with
      | (s2, some vs, b) => (s2, some (v :: vs), b)
      | x => x
    | .wait => (r.1, none, true)
    | _ => (r.1, none, false)
/-- A frame read whole (R384). -/
def readFrame (s : State) (g : Group) (fr : W64) : State × FrameRead :=
  let b := fr.toNat
  match readSpans s g.core b [(0, 256)] with
  | (s1, some (h :: _), _) =>
    let np := min (bitsOf h 24 7) 64
    let nw := min (bitsOf h 32 6) 32
    match readSpans s1 g.core b ((List.range np).map (fun j => (0x100 + 48 * j, 48))) with
    | (s2, some ps, _) =>
      match readSpans s2 g.core b ((List.range (groupWidth g)).map (fun l => (0xD00 + 128 * l, 128))) with
      | (s3, some ls, _) =>
        match readSpans s3 g.core b ((List.range nw).map (fun i => (0x2D00 + 0x680 * i, 1664))) with
        | (s4, some ws, _) => (s4, .ok h ps ls ws)
        | (s4, none, w) => (s4, if w then .wait else .bad)
      | (s3, none, w) => (s3, if w then .wait else .bad)
    | (s2, none, w) => (s2, if w then .wait else .bad)
  | (s1, some [], _) => (s1, .bad)
  | (s1, none, w) => (s1, if w then .wait else .bad)
/-- Whether the masks of the path entries, restricted to live fibres, are disjoint and make up LIVE, and every PC is aligned. -/
def framePathsOk (live : LaneMask) (hdr : Nat) (ps : List Nat) : Bool :=
  let ms := ps.map (fun p => live &&& BitVec.ofNat 64 (bitsOf p 64 64))
  let r := ms.foldl (fun (a : LaneMask × Bool) m => (a.1 ||| m, a.2 && (a.1 &&& m) = 0)) ((0 : LaneMask), true)
  r.2 && r.1 = live &&& BitVec.ofNat 64 (bitsOf hdr 64 64) && ps.all (fun p => bitsOf p 0 2 = 0)
/-- A latch of a resumed path (R384): full when every live lane says so; the uniform mark is set when all lanes agree (log 22). -/
def frameLatch (ls : List Nat) (mask : LaneMask) (k : Nat) : Option Latch :=
  let rec_ := fun (l : Nat) => ls.getD l 0
  let lanes := lanesOf mask
  if lanes.all (fun l => bitsOf (rec_ l) (192 + k) 1 = 1) then
    let vs := lanes.map (fun l => (l, BitVec.ofNat 64 (bitsOf (rec_ l) (64 * k) 64)))
    some ⟨vs, match vs with | [] => false | v :: t => t.all (fun x => x.2 = v.2)⟩
  else none
/-- The running loop of a path entry. -/
def frameLoop (p : Nat) : Option LoopSt :=
  if bitsOf p 36 4 = 0 then none
  else some { ncl := bitsOf p 36 4, pass := bitsOf p 192 32, count := bitsOf p 224 32, inc := BitVec.ofNat 64 (bitsOf p 288 64),
              body := BitVec.ofNat 32 (bitsOf p 256 32), captured := [] }
/-- A path as its entry says (Table 15.4), with what the trap set aside of it. -/
def framePath (g : Group) (ls : List Nat) (p : Nat) : Option Path :=
  let m := liveMask g &&& BitVec.ofNat 64 (bitsOf p 64 64)
  let pc := BitVec.ofNat 32 (bitsOf p 0 32)
  let w := bitsOf p 32 4
  let h := if w = 0 then g.held.find? (fun x => x.1 &&& liveMask g = m && x.2.1 = pc) else none
  if m = 0 then none
  else some { pc := pc, widx := w, hdr := 0, cur := 0, mask := m, pfx := none,
              y0 := if w = 0 then none else frameLatch ls m 0, y1 := if w = 0 then none else frameLatch ls m 1,
              y2 := if w = 0 then none else frameLatch ls m 2,
              loop := frameLoop p,
              wait := match h with | some x => x.2.2.1 | none => .ready, lndCheck := match h with | some x => x.2.2.2 &&& m | none => 0,
              stalled := false, yielded := false, fresh := false, age := 0, aged := false }
/-- A live lane's registers restored from its record (R384); a window register that is no longer resident holds no value (R202). -/
def frameLane (g : Group) (r l : Nat) : Group :=
  let f := getFibre g l
  let here := fun (m : Nat) => f.wb.toNat + 24 + m < f.low.toNat + g.depth
  let g1 := (List.range 8).foldl (fun a m => if here m then vSet a l (24 + m) (BitVec.ofNat 64 (bitsOf r (256 + 64 * m) 64)) else a) g
  modFibre g1 l (fun f => { f with pred := BitVec.ofNat 64 (bitsOf r 768 64), lstat := BitVec.ofNat 64 (bitsOf r 832 64) &&& 0x1031F })
/-- The group returned through a frame: registers and paths restored, the records left to be performed (R384). Lanes that no
entry names keep their paths, but the returning path ends. -/
def returnGroup (cx : Ctx) (g : Group) (hdr : Nat) (ps ls : List Nat) (ws : List MemWord) : Group :=
  let live := liveMask g
  let g1 := (lanesOf live).foldl (fun a l => frameLane a (ls.getD l 0) l) g
  let g2 := (List.range 8).foldl (fun a m => sSet a (24 + m) (BitVec.ofNat 64 (bitsOf hdr (1024 + 64 * m) 64))) g1
  let news := ps.filterMap (framePath g ls)
  let used := news.foldl (fun a p => a ||| p.mask) (0 : LaneMask)
  let rest := ((g.paths.filter (fun p => !(p.mask.getLsbD cx.lane))).map (fun p => { p with mask := p.mask &&& ~~~used })).filter (fun p => p.mask ≠ 0)
  { g2 with paths := news ++ rest, tdepth := g.tdepth - 1, replays := ws, atEntry := false,
            held := g.held.filter (fun x => !(news.any (fun p => x.1 &&& live = p.mask && x.2.1 = p.pc))) }
/-- A block ends FATAL at a word whose path goes no further: it stands at its clause boundary (R382). -/
def fatalAt (cx : Ctx) (s : State) : State :=
  fatalBlock (modGroup s cx.gk (fun g => modPath g cx.lane (fun p => landAt p p.pc))) cx.grp.block
/-- TRET (R384, R392); it stalls while a register that it writes is pending (R21). -/
def execTret (s : State) : Out :=
  match ctxOf s with
  | none => .refused .noPath
  | some cx =>
    if cx.grp.tdepth = 0 then .next (raiseTrap cx (illegalTrap cx.path .class_) s)
    else if cx.grp.words.any wordOpen || regsPending cx.grp (liveMask cx.grp) tretRegs then .next (stallAt cx s)
    else
      let r := readFrame s cx.grp (if cx.grp.tdepth = 1 then cx.grp.frame0 else cx.grp.frame1)
      match r.2 with
      | .wait => .next (stallAt cx r.1)
      | .bad => .next (fatalAt cx r.1)
      | .ok hdr ps ls recs =>
        match tget r.1.groups cx.gk with
        | none => .next r.1
        | some g =>
          if !(framePathsOk (liveMask g) hdr ps) then .next (raiseTrap cx (illegalTrap cx.path .operand) r.1)
          else
            let ws := (recs.zipIdx.filterMap (fun x => recordWord (s.nextId + x.2) (liveMask g) x.1)).filter (fun w => !w.lanes.isEmpty)
            let s1 := { r.1 with nextId := s.nextId + recs.length }
            let g1 := returnGroup cx g hdr ps ls ws
            let done := (lanesOf cx.path.mask).filter (fun l => (pathOf g1 l).isNone)
            let s2 := endFibres (countIssue (setGroup s1 cx.gk g1) cx.gk g1) cx.gk g1 done
            .next (boundary (settleMonitor (settleGroup s2 cx.gk) cx.gk) cx.gk)
/-- TRET.fail (R382, R392). -/
def execTretFail (s : State) : Out :=
  runWord s (fun _ => false) (fun cx => .ok (fatalBlock s cx.grp.block))

/-! ## The default code of overlay 0xFFFF (R205, R380; log 84) -/

/-- What the default code finds in the frame of its level: CAUSE, and the fibres that it serves, those of TRAPPED whose path entry shows that
cause; none while the frame is being read, and none with the flag off when it cannot be read. -/
def servedLanes (s : State) (g : Group) : State × Option (Nat × LaneMask) × Bool :=
  let fr := (if g.tdepth = 1 then g.frame0 else g.frame1).toNat
  match readSpans s g.core fr [(0, 256)] with
  | (s1, some (h :: _), _) =>
    (match readSpans s1 g.core fr ((List.range (min (bitsOf h 24 7) 64)).map (fun j => (0x100 + 48 * j, 48))) with
    | (s2, some ps, _) =>
      let c := bitsOf h 0 8
      let m := ps.foldl (fun (a : LaneMask) p => if bitsOf p 40 8 = c then a ||| BitVec.ofNat 64 (bitsOf p 64 64) else a) 0
      (s2, some (c, m &&& BitVec.ofNat 64 (bitsOf h 128 64) &&& liveMask g), false)
    | (s2, none, w) => (s2, none, w))
  | (s1, some [], _) => (s1, none, false)
  | (s1, none, w) => (s1, none, w)
/-- One of the eight stores of Spill or loads of Fill: logical register LOW + j of some fibres at SPILLA + 8 (LOW + j), or LOW − 8 + j at
SPILLA + 8 (LOW − 8 + j), whose slot is that of the resident logical register LOW − 8 + j + DEPTH (R202, R205). -/
def spillWord (cx : Ctx) (id : Nat) (spill : Bool) (ls : List Nat) (j : Nat) (g : Group) : MemWord :=
  let w := encodeNat (if spill then .st (.v 0) (.v 0) .o .b8 0 else .ld (.v 0) (.v 0) .o .b8 0)
  { id := id, op := if spill then .store .o .b8 else .load .o .b8, mask := maskOf ls, uni := false, caddr := cx.path.pc, widx := 1,
    word := w.getD 0, pfxw := 0, blk := 0, ans := [], replay := false,
    lanes := ls.map (fun l =>
      let f := getFibre g l
      let k := if spill then f.low.toNat + j else f.low.toNat - 8 + j
      (l, { st := .walk, va := spillAddr f.spilla + BitVec.ofNat 64 (8 * k), d0 := if spill then tgetD f.slots (slotOf g k) 0 else 0,
            d1 := 0, dlog := if spill then k else k + g.depth })) }
/-- The eight words of the default code for some fibres, issued together; none while they have to stall. -/
def spillIssue (s : State) (cx : Ctx) (spill : Bool) (ls : List Nat) : Option State :=
  match tget s.groups cx.gk with
  | none => some s
  | some g =>
    let ws := (List.range 8).map (fun j => spillWord cx (s.nextId + j) spill ls j g)
    let vas := (ws.map (fun w => w.lanes.map (fun x => x.2.va.toNat))).flatten
    if memFull s g (if spill then .store .o .b8 else .load .o .b8) vas 0 || !(memGate s cx.gk) then none
    else some (ws.foldl (fun a w => settleGroup (afterStart (startWord a cx.gk w) cx.gk w.id) cx.gk) { s with nextId := s.nextId + 8 })
/-- LOW of some fibres moved by eight as Spill or Fill has it. -/
def moveLow (s : State) (gk : Nat) (spill : Bool) (ls : List Nat) : State :=
  modGroup s gk (fun x => ls.foldl (fun a l => modFibre a l (fun f => { f with low := if spill then f.low + 8 else f.low - 8 })) x)
/-- A path that stands in the default code: in its first clause it performs the loads or stores of Spill or Fill and, once they have
completed, moves LOW of the fibres served; in its second it returns with TRET. A clause that a nested trap has interrupted runs again. Every
other cause ends as TRET.fail (R205, R380). -/
def systemAct (cx : Ctx) (s : State) : Out :=
  let g := cx.grp
  let p := cx.path
  let turn := fun (q : State) (f : Path → Path) => modGroup q cx.gk (fun x => modPath { x with atEntry := false } cx.lane f)
  if p.wait ≠ .ready || !g.replays.isEmpty || g.words.any (fun w => w.replay && (wordOpen w || wordFaulted w)) then .next s
  else if p.widx = 0 then
    if !(pathFree g p) || !(octetsFree s cx.gk g p) || !(takesTurn s cx.gk g p) then .next s
    else if p.lndCheck &&& p.mask ≠ 0 then .next (landFail s cx 0)
    else if g.tdepth = 0 then .next (fatalBlock s g.block)
    else if wixOf p.pc ≠ 0 then execTret s
    else match servedLanes s g with
      | (s1, some (c, m), _) =>
        if c ≠ 5 && c ≠ 6 then .next (fatalBlock s1 g.block)
        else (match spillIssue s1 cx (c = 5) (lanesOf m) with
        | some s2 => .next (touchSlot (turn s2 (fun q => { q with widx := 1, hdr := 1, age := 0, aged := false })) g.core (ovOf p.pc))
        | none => .next s1)
      | (s1, none, true) => .next s1
      | (s1, none, false) => .next (fatalBlock s1 g.block)
  else if g.words.any wordOpen then .next (stallAt cx s)
  else if g.words.any wordFaulted then .next (turn s (fun q => { q with widx := 0, stalled := false }))
  else match servedLanes s g with
    | (s1, some (c, m), _) =>
      .next (boundary (turn (moveLow s1 cx.gk (c = 5) (lanesOf m)) (fun q => { landAt q (p.pc + 4) with fresh := true })) cx.gk)
    | (s1, none, true) => .next s1
    | (s1, none, false) => .next (fatalAt cx s1)

/-! ## TRAP and BKPT (R392) -/

/-- A trap of a path that resumes at the next clause. -/
def trapAfter (s : State) (cause n : Nat) : Out :=
  runWord s (fun _ => false) (fun cx =>
    .flow s [{ landAt cx.path (nextClause cx.path) with wait := .trap (mkTrap cx.path cause 0 (BitVec.ofNat 64 n) cx.path.mask []) }])
/-- TRAP: SOFTWARE with INFO n. -/
def execTrap (n : BitVec 9) (s : State) : Out := trapAfter s 10 n.toNat
/-- BKPT: BREAK with INFO n. -/
def execBkpt (n : BitVec 9) (s : State) : Out := trapAfter s 11 n.toNat

/-! ## Status registers -/

/-- GSTAT (Table 9.6). -/
def gstatOf (g : Group) : W64 :=
  BitVec.ofNat 64 (g.wcode + g.lane0 * 2 ^ 2 + g.gid * 2 ^ 8 + (g.core % 4) * 2 ^ 16 + (g.core / 4 % 64) * 2 ^ 18 + (g.core / 256) * 2 ^ 24
    + g.producer.toNat * 2 ^ 25 + g.fused.toNat * 2 ^ 26)
/-- WINBASE of a fibre (Table 9.7). -/
def winbaseOf (g : Group) (f : Fibre) : W64 := BitVec.ofNat 64 (f.wb.toNat + f.low.toNat * 2 ^ 16 + g.depth * 2 ^ 32)
/-- TSTAT (Table 15.11). -/
def tstatOf (g : Group) : W64 := BitVec.ofNat 64 (g.tdepth + g.lcause * 2 ^ 8 + g.imp.isSome.toNat * 2 ^ 16)
/-- TFRAME (Table 15.11). -/
def tframeOf (s : State) (gk : Nat) (g : Group) : W64 :=
  match g.tdepth with
  | 0 => frameAddr s gk 0
  | 1 => g.frame0
  | _ => g.frame1
/-- A status register of a fibre. -/
def fibreReg (g : Group) (idx l : Nat) : W64 :=
  let f := getFibre g l
  if idx = 0 then f.lstat else if idx = 2 then winbaseOf g f else spillAddr f.spilla
/-- A status register of a group, a core or a graph instance; other indices read 0 (R393). -/
def groupReg (s : State) (cx : Ctx) (idx : Nat) : W64 :=
  match idx with
  | 1 => gstatOf cx.grp
  | 4 => (getCore s cx.grp.core).tags
  | 5 => cwOf s cx.grp
  | 8 => tstatOf cx.grp
  | 9 => cx.grp.tvec.setWidth 64
  | 10 => tframeOf s cx.gk cx.grp
  | _ => 0
/-- Whether an index names a register of a fibre. -/
def isFibreReg (idx : Nat) : Bool := idx = 0 || idx = 2 || idx = 3
/-- A value for each active lane written to a window register, or the group's value to a uniform register. -/
def putReg (cx : Ctx) (s : State) (d : Reg) (v : Nat → W64) : State :=
  match d with
  | .v r => modGroup s cx.gk (fun g => (lanesOf cx.path.mask).foldl (fun a l => vSet a l r.val (v l)) g)
  | .s r => modGroup s cx.gk (fun g => sSet g r.val (v (lowLane cx.path.mask)))
/-- RDSR (R393). -/
def execRdsr (d : Reg) (idx : BitVec 8) (s : State) : Out :=
  runWord s (pendingOn (regRegs d)) (fun cx =>
    let i := idx.toNat
    if isFibreReg i then
      match d with
      | .s _ => operandTrap cx
      | .v _ => .ok (putReg cx s d (fibreReg cx.grp i))
    else .ok (putReg cx s d (fun _ => groupReg s cx i)))
/-- Whether a value is a legal WINBASE of a fibre (R207). -/
def winbaseOk (g : Group) (v : W64) : Bool :=
  let wb := bitsOf v.toNat 0 16
  let low := bitsOf v.toNat 16 16
  wb % 8 = 0 && low % 8 = 0 && low ≤ wb && wb + 32 ≤ low + g.depth
/-- A fibre's status register written (R207, R215, Tables 9.5 and 9.7). -/
def putFibreReg (idx : Nat) (v : W64) (f : Fibre) : Fibre :=
  if idx = 0 then { f with lstat := rwPart 0x31F f.lstat v }
  else if idx = 2 then { f with wb := v.setWidth 16, low := (v >>> 16).setWidth 16 }
  else { f with spilla := spillAddr v }
/-- WRSR (R393): TAGS, the RO registers and other indices ignore the write (R215, R219). -/
def execWrsr (a : Src) (idx : BitVec 8) (s : State) : Out :=
  runWord s (pendingOn (srcRegs a)) (fun cx =>
    let i := idx.toNat
    let ls := lanesOf cx.path.mask
    let v := readSrc cx .int a
    if isFibreReg i then
      let bad := if i = 2 then ls.filter (fun l => !(winbaseOk cx.grp (v l))) else []
      if !bad.isEmpty then .trap (mkTrap cx.path 7 0 0 (maskOf bad) [])
      else .ok (modGroup s cx.gk (fun g => ls.foldl (fun x l => modFibre x l (putFibreReg i (v l))) g))
    else
      let u := v (lowLane cx.path.mask)
      let isWin := match a with | .v _ => true | _ => false
      if isWin && (i = 1 || i = 4 || i = 5 || i = 8 || i = 9 || i = 10) then operandTrap cx
      else if i = 5 then .ok (cwPut s (instOf s cx.grp) u)
      else if i = 9 then .ok (modGroup s cx.gk (fun g => { g with tvec := (u &&& 0xFFFFFFFC).setWidth 32 }))
      else .ok s)
/-- RDTIME (R394). -/
def execRdtime (d : Reg) (s : State) : Out :=
  runWord s (pendingOn (regRegs d)) (fun cx => .ok (putReg cx s d (fun _ => BitVec.ofNat 64 (getCore s cx.grp.core).timeCopy)))
/-- PERF (R345, R394). -/
def execPerf (d : Reg) (e : Fin 8) (s : State) : Out :=
  runWord s (pendingOn (regRegs d)) (fun cx => .ok (putReg cx s d (fun _ => tgetD (getCore s cx.grp.core).perf e.val 0)))

end Sys2Proof.Machine
end

