-- ==== Sys2Proof/Machine/Engine.lean ====
section
/-! DEFINITION. What the engines share: completion tags (R190, R191), what BGWAIT reads (R103), the CRC of an overlay (R38),
spans of memory and of scratchpads read and written by an engine with the poison they carry (R163, R188), and shadow bytes
(R194, R195). -/

namespace Sys2Proof.Machine

/-! ## Completion tags -/

/-- Whether a tag of a core is ready (R190). -/
def tagFree (s : State) (core n : Nat) : Bool := (getCore s core).tags.getLsbD n
/-- A tag taken by a command at its acceptance (R190). -/
def tagTake (s : State) (core n : Nat) : State :=
  modCore s core (fun k => { k with tags := k.tags &&& ~~~((1 : W64) <<< n) })
/-- A tag given back by a word that stalls after all. -/
def tagBack (s : State) (core n : Nat) : State := modCore s core (fun k => { k with tags := k.tags ||| ((1 : W64) <<< n) })
/-- What BGWAIT writes for a tag (R103). -/
def tagValue (s : State) (core n : Nat) : W64 :=
  match tget (getCore s core).tagInfo n with
  | some i => if i.kind = .bank then i.status else 0xFFFF
  | none => 0xFFFF
/-- Name of the record on which the register of a BGWAIT is pending. -/
def bgwaitId (n : Nat) : Nat := 2 ^ 50 + n
/-- The BGWAITs of a group that wait for a tag end (R103). -/
def bgwaitWake (g : Group) (n : Nat) (v : W64) : Group :=
  let g1 := (g.bgwaits.filter (·.1 = n)).foldl (fun a x => sSet a x.2 v) g
  { g1 with bgwaits := g1.bgwaits.filter (·.1 ≠ n), pend := g1.pend.filter (·.id ≠ bgwaitId n) }
/-- A command's tag made ready, with what the core keeps of the command (R190); BGWAITs on it end, and later loads of their groups see
what the command wrote (R104). -/
def tagReady (s : State) (core n : Nat) (kind : TagKind) (status : W64) (block : Nat) : State :=
  let s1 := modCore s core (fun k =>
    { k with tags := k.tags ||| ((1 : W64) <<< n), tagInfo := tset k.tagInfo n ⟨kind, status, block⟩ })
  let v := tagValue s1 core n
  let waits := fun (g : Group) => decide (g.core = core) && g.bgwaits.any (·.1 = n)
  let s2 := if s1.groups.any (fun g => waits g.2) then acquireDo s1 core 3 else s1
  { s2 with groups := s2.groups.map (fun g => if waits g.2 then (g.1, bgwaitWake g.2 n v) else g) }

/-- A command of a group accepted by an engine: the group's memory gate and its release first, which covers its earlier reads too
(R311), its tag ready, room in the engine; the parameter block is read as it stands at issue (R181, R452). -/
def issueCmd (cx : Ctx) (s : State) (n a align bytes : Nat) (room : State → Nat → Bool) (f : State → Nat → WRes) : WRes :=
  if !(tagFree s cx.grp.core n) || !(memGate s cx.gk) then .stall s
  else
    let r := releaseAll s cx.gk s.nextId 5 (BitVec.allOnes 64)
    if !r.2 then .stall r.1
    else withParam cx r.1 (sGet cx.grp a) align bytes (fun s1 blk =>
      if room s1 blk then f (tagTake s1 cx.grp.core n) blk else .stall s1)

/-- An MSI-X vector raised, or left pending while the table in BAR 0 masks it (R396; log 123). -/
def raiseMsix (s : State) (v : Nat) : State :=
  { s with mgmt := if s.mgmt.vmask.testBit v then { s.mgmt with vpend := s.mgmt.vpend ||| 2 ^ v } else { s.mgmt with msix := v :: s.mgmt.msix } }
/-- A vector masked, or opened, which raises it if it is pending (R396; log 123). -/
def maskVector (s : State) (v : Nat) (masked : Bool) : State :=
  if v ≥ 4 then s
  else
    let bits := fun (n : Nat) => (List.range 4).foldl (fun a k => a + (if k ≠ v && n.testBit k then 2 ^ k else 0)) 0
    if masked then { s with mgmt := { s.mgmt with vmask := s.mgmt.vmask ||| 2 ^ v } }
    else
      let m := { s.mgmt with vmask := bits s.mgmt.vmask, vpend := bits s.mgmt.vpend }
      { s with mgmt := if s.mgmt.vpend.testBit v then { m with msix := v :: m.msix } else m }
/-- The end of a node's command noted in its run (R337): 0 DONE, 4 CMDERR. -/
def nodeNote (s : State) (node : Option (Nat × Nat)) (status : Nat) : State :=
  match node with
  | none => s
  | some (i, n) => { s with esc := { s.esc with
      runs := s.esc.runs.map (fun r => if r.inst = i && r.node = n then { r with status := some (if status = 0 then 0 else 4) } else r) } }
/-- What follows a command's completion point: its tag, its barrier slot, its node (R190, R193, R341). -/
def cmdDone (s : State) (core id : Nat) (tag : Option Nat) (kind : TagKind) (status : W64) (block : Nat) (bar : Option Nat)
    (node : Option (Nat × Nat)) : State :=
  let s1 := match tag with | some n => tagReady s core n kind status block | none => s
  let s2 := match bar with | some k => barCommand s1 block k id | none => s1
  nodeNote s2 node status.toNat

/-! ## CRC-32 -/

/-- One bit of the CRC-32 of IEEE 802.3, least significant bit first. -/
def crcBit (r : Nat) : Nat := if r % 2 = 1 then Nat.xor (r / 2) 0xEDB88320 else r / 2
/-- One byte. -/
def crcByte (r b : Nat) : Nat := crcBit (crcBit (crcBit (crcBit (crcBit (crcBit (crcBit (crcBit (Nat.xor r b))))))))
/-- CRC-32 of `n` bytes of a little-endian number, from a register value. -/
def crcGo : Nat → Nat → Nat → Nat
  | 0, _, r => r
  | n + 1, v, r => crcGo n (v / 256) (crcByte r (v % 256))
/-- CRC-32 of `n` bytes (R38; initial value and final inversion as IEEE 802.3 has them). -/
def crc32 (n v : Nat) : Nat := Nat.xor (crcGo n v 0xFFFFFFFF) 0xFFFFFFFF

/-! ## Spans -/

/-- A span of bytes an engine reads or writes: in the scratchpad of a core, or in memory. -/
structure EngSpan where
  sp : Option Nat
  addr : Nat
  len : Nat
  deriving DecidableEq, Repr

/-- What an engine's read or write comes to. -/
inductive Take where
  /-- The bytes, and the first poisoned sector among them: its first byte and its length within the bytes. -/
  | ok (v : Nat) (poi : Option (Nat × Nat))
  | fault (sub : Nat)
  | remote (code : Nat)
  | full
  /-- So many pieces of a unit have been sent to other devices; the rest follows. -/
  | sent (k : Nat)
  | wait

/-- Sectors of a span of a scratchpad that are poisoned, as the sectors of a 128-byte line. -/
def spadSectors (s : State) (c b off : Nat) : BitVec 4 :=
  let base := off / 128 * 4
  BitVec.ofNat 4 (((List.range 4).filter (fun k => spadPoison s c b ((base + k) * 32) 32)).foldl (fun a k => a + 2 ^ k) 0)
/-- The first poisoned sector that `n` bytes from byte `off` of a line touch: where it starts within them, and how many of
them it holds. -/
def firstPoison (off n : Nat) (p : BitVec 4) : Option (Nat × Nat) :=
  ((List.range 4).find? (fun k => p.getLsbD k && off < 32 * k + 32 && 32 * k < off + n)).map (fun k =>
    (max off (32 * k) - off, min (off + n) (32 * k + 32) - max off (32 * k)))

/-- One piece of a span read. -/
def takePiece (s : State) (die b : Nat) (sp : Option Nat) (va n : Nat) : State × Take :=
  match sp with
  | some c => (s, .ok (spadRead s c b va n) (firstPoison (va % 128) n (spadSectors s c b va)))
  | none =>
    let r := accRead s none die va n
    match r.2 with
    | .ok v => (r.1, .ok v none)
    | .poison v p => (r.1, .ok v (firstPoison (va % 128) n p))
    | .fault sub => (r.1, .fault sub)
    | .remote code => (r.1, .remote code)
    | .wait => (r.1, .wait)
/-- Spans read one after another, up to the first poisoned sector. -/
def takeSpans (s : State) (die b : Nat) (xs : List EngSpan) : State × Take :=
  let ps := (xs.foldl (fun (a : List (Option Nat × Nat × Nat × Nat) × Nat) x =>
    (a.1 ++ (pieces (x.len / 128 + 2) (x.addr % 2 ^ 64) x.len 0).map (fun p => (x.sp, p.1, p.2.1, a.2 + p.2.2)), a.2 + x.len)) ([], 0)).1
  ps.foldl (fun (a : State × Take) p =>
    match a.2 with
    | .ok v none =>
      let r := takePiece a.1 die b p.1 p.2.1 p.2.2.1
      match r.2 with
      | .ok w poi => (r.1, .ok (v + w * 2 ^ (8 * p.2.2.2)) (poi.map (fun q => (p.2.2.2 + q.1, q.2))))
      | o => (r.1, o)
    | _ => a) (s, .ok 0 none)
/-- The answers of other devices to a span's reads, which are kept until the reader is done with them, forgotten. -/
def spansTaken (s : State) (die : Nat) (xs : List EngSpan) : State :=
  readsTaken s none die ((xs.map (fun x => match x.sp with
    | some _ => []
    | none => (pieces (x.len / 128 + 2) (x.addr % 2 ^ 64) x.len 0).map (fun p => (p.1, p.2.1)))).flatten)

/-- The event by which an agent goes on, noted at the lines of its spans that it may have to wait at (R58, R60). -/
def spanHolds (s : State) (die : Nat) (xs : List EngSpan) (ev : Instr) : State :=
  xs.foldl (fun a x => match x.sp with
    | some _ => a
    | none => (pieces (x.len / 128 + 2) (x.addr % 2 ^ 64) x.len 0).foldl (fun q p => match (xlateNow q none die p.1).2 with
      | .ok e => if tgtOf q (daOf e p.1) = .hbm then noteHold q (lineOf (localOf (daOf e p.1))) ev else q
      | _ => q) a) s

/-! ## Shadow bytes -/

/-- Shadow bytes of a line in a set: mask, bytes and poisoned sectors (R194). -/
def shadowGet (s : State) (cl h line : Nat) : LineMask × Line × BitVec 4 :=
  tgetD (tgetD (getCluster s cl).shadow h []) line (0, 0, 0)
/-- Shadow bytes written (R194). -/
def shadowPut (s : State) (cl h line : Nat) (m : LineMask) (d : Line) (p : BitVec 4) : State :=
  let o := shadowGet s cl h line
  modCluster s cl (fun c => { c with
    shadow := tset c.shadow h (tset (tgetD c.shadow h []) line
      (o.1 ||| m, overLine o.2.1 m d, (o.2.2 &&& ~~~(maskWhole m)) ||| p)) })
/-- Whether a line of a set can take shadow bytes: it has some already, or its home slice holds fewer than 512 (R195). -/
def shadowRoom (s : State) (cl h line : Nat) : Bool :=
  (tget (tgetD (getCluster s cl).shadow h []) line).isSome || hiddenCount s (homeSlice line) < 512
/-- A set emptied and freed (R197). -/
def shadowFree (s : State) (cl h : Nat) : State :=
  modCluster s cl (fun c => { c with shadow := tdel c.shadow h, shOwner := tdel c.shOwner h })

/-! ## Writing -/

/-- Whether one piece of a destination can be written now (R188, R194, R195): `sh` names a shadow set of a cluster. -/
def givePieceOk (s : State) (die : Nat) (sh : Option (Nat × Nat)) (va n : Nat) : State × Take :=
  let r := xlateNow s none die va
  match r.2 with
  | .fault sub => (r.1, .fault sub)
  | .wait => (r.1, .wait)
  | .ok e =>
    match daCheck r.1 e va true false with
    | some sub => (r.1, .fault sub)
    | none =>
      let da := daOf e va
      let la := localOf da
      match sh with
      | some (cl, h) =>
        if tgtOf r.1 da ≠ .hbm || e.nc then (r.1, .fault scType)
        else if shadowRoom r.1 cl h (lineOf la) then (r.1, .ok 0 none) else (r.1, .full)
      | none =>
        if tgtOf r.1 da = .remote then
          match fabRefuse r.1 (chipOf da) (localOf da) with
          | some code => (r.1, .remote code)
          | none => (r.1, if fabRoom r.1 (chipOf da) la then .ok 0 none else .wait)
        else match hostFails r.1 la with
        | some code => (r.1, .remote code)
        | none =>
          let h := admitType (if e.nc then .u else .o) r.1 (lineOf la) (spanMask (la % 128) n) true
          (h.1, if h.2 then .ok 0 none else .wait)
/-- One piece of a destination written, with the sectors that become poisoned. -/
def givePiece (s : State) (die : Nat) (sh : Option (Nat × Nat)) (va n v : Nat) (p : BitVec 4) : State × Take :=
  match sh with
  | none =>
    let r := accWrite s none die va n v p false
    (r.1, match r.2 with | .ok _ | .poison _ _ => .ok 0 none | .fault sub => .fault sub | .remote c => .remote c | .wait => .wait)
  | some (cl, h) =>
    match (xlateNow s none die va).2 with
    | .ok e =>
      let la := localOf (daOf e va)
      if shadowRoom s cl h (lineOf la) then
        (shadowPut s cl h (lineOf la) (spanMask (la % 128) n) (lineAt (la % 128) n v) p, .ok 0 none)
      else (s, .full)
    | .fault sub => (s, .fault sub)
    | .wait => (s, .wait)
/-- Sectors of a piece, which starts at byte `o` of the unit and at byte `off` of a line, that receive bytes of a poisoned
source sector. -/
def poisonHere (poi : Option (Nat × Nat)) (o off n : Nat) : BitVec 4 :=
  match poi with
  | none => 0
  | some (st, ln) =>
    let a := max o st
    let e := min (o + n) (st + ln)
    if a < e then spanSectors (off + (a - o)) (e - a) else 0
/-- Whether a piece of a destination lies on another device. -/
def pieceFar (s : State) (die : Nat) (sh : Option (Nat × Nat)) (va : Nat) : Bool :=
  sh.isNone && (match (xlateNow s none die va).2 with | .ok e => decide (tgtOf s (daOf e va) = .remote) | _ => false)
/-- Some pieces of a unit written one after another, up to the first that cannot be: how many have been. -/
def givePieces (s : State) (die : Nat) (sh : Option (Nat × Nat)) (v : Nat) (poi : Option (Nat × Nat)) (ps : List (Nat × Nat × Nat)) :
    State × Nat × Take :=
  ps.foldl (fun (a : State × Nat × Take) p =>
    match a.2.2 with
    | .ok _ _ =>
      let r := givePiece a.1 die sh p.1 p.2.1 (bitsOf v (8 * p.2.2) (8 * p.2.1)) (poisonHere poi p.2.2 (p.1 % 128) p.2.1)
      (match r.2 with
      | .ok _ _ => (r.1, a.2.1 + 1, r.2)
      | o => (a.1, a.2.1, o))
    | _ => a) (s, 0, .ok 0 none)
/-- The bytes of a unit written to a destination; after a poisoned source sector, the bytes before it and the poison (R188).
Nothing is written unless every piece can be. Of a unit that lies partly on another device the far part goes first and the near part
once the far part is `answered`, since a unit that a device turns down is not written (Table 8.5); `k` far pieces have gone already. -/
def giveSpan (s : State) (die b : Nat) (sh : Option (Nat × Nat)) (x : EngSpan) (v : Nat) (poi : Option (Nat × Nat)) (k : Nat)
    (answered : Bool) : State × Take :=
  let n := match poi with | none => x.len | some q => q.1 + q.2
  let ps := pieces (n / 128 + 2) (x.addr % 2 ^ 64) n 0
  match x.sp with
  | some c =>
    (ps.foldl (fun a p =>
      let bad := poisonHere poi p.2.2 (p.1 % 128) p.2.1
      let a1 := spadWrite a c b p.1 p.2.1 (bitsOf v (8 * p.2.2) (8 * p.2.1)) true
      ((List.range 4).filter (fun j => bad.getLsbD j)).foldl (fun q j => spadSetPoison q c b (p.1 / 128 * 4 + j)) a1) s, .ok 0 none)
  | none =>
    let far := ps.filter (fun p => pieceFar s die sh p.1)
    let near := ps.filter (fun p => !(pieceFar s die sh p.1))
    let chk := (if k = 0 then ps else near).foldl (fun (a : State × Take) p =>
      match a.2 with
      | .ok _ _ => givePieceOk a.1 die sh p.1 p.2.1
      | _ => a) (s, .ok 0 none)
    match chk.2 with
    | .ok _ _ =>
      let r := givePieces chk.1 die sh v poi (far.drop k)
      match r.2.2 with
      | .ok _ _ =>
        if near.isEmpty then (r.1, .ok 0 none)
        else if !(far.isEmpty || (answered && k = far.length)) then (r.1, .sent far.length)
        else
          let q := givePieces r.1 die sh v poi near
          match q.2.2 with
          | .ok _ _ => (q.1, .ok 0 none)
          | o => (chk.1, o)
      | .wait => if r.2.1 + k = 0 then (chk.1, .wait) else (r.1, .sent (k + r.2.1))
      | o => (chk.1, o)
    | _ => chk

end Sys2Proof.Machine
end

