-- ==== Sys2Proof/Machine/Transfer.lean ====
section
/-! DEFINITION. The transfer engines (chapter 8): XCOPY, XSTR, XLAY, XACC and the events that start and end a command, shadow
sets and XPUB, overlay loads, and the words that wait for tags. A command moves its bytes at TRANSFER_END, unit by unit in
ascending order, as far as nothing holds it (log 23). -/

namespace Sys2Proof.Machine

/-! ## The parameter block (Table 8.3) -/

def xSrc (b : Nat) : Nat := bitsOf b 0 64
def xDst (b : Nat) : Nat := bitsOf b 64 64
def xLen (b : Nat) : Nat := bitsOf b 128 32
def xRows (b : Nat) : Nat := bitsOf b 160 20
def xSsp (b : Nat) : Bool := bitsOf b 180 1 = 1
def xDsp (b : Nat) : Bool := bitsOf b 181 1 = 1
def xShadow (b : Nat) : Bool := bitsOf b 186 1 = 1
def xSet (b : Nat) : Nat := bitsOf b 187 2
def xFmt (b : Nat) : Nat := bitsOf b 189 3
def xSpitch (b : Nat) : Nat := bitsOf b 192 32
def xDpitch (b : Nat) : Nat := bitsOf b 224 32
def xSeed (b : Nat) : W64 := BitVec.ofNat 64 (bitsOf b 256 64)
def xCtr (b : Nat) : Nat := bitsOf b 320 64
def xProgress (b : Nat) : Nat := bitsOf b 384 32
/-- Core of the source's and of the destination's scratchpad. -/
def xScore (cl b : Nat) : Nat := cl * 4 + bitsOf b 182 2
def xDcore (cl b : Nat) : Nat := cl * 4 + bitsOf b 184 2

/-- Bytes of a row of K elements of an XLAY format (R51, R184). -/
def layRowBytes (fmt k : Nat) : Nat :=
  match fmt with
  | 0 => 2 * k
  | 1 | 2 => k
  | _ => (k + 1) / 2
/-- Number of units of a command; XCOPY counts bytes (Table 8.3). -/
def xUnits (k : XKind) (b : Nat) : Nat := match k with | .xstr | .xlay => xRows b | _ => xLen b
/-- Bytes from the first to the last that a command names at its source and at its destination. -/
def xSrcExtent (k : XKind) (b : Nat) : Nat :=
  match k with
  | .xstr => if xRows b = 0 then 0 else (xRows b - 1) * xSpitch b + xLen b
  | .xacc => xLen b * accSrcBytes (xFmt b)
  | _ => xLen b
def xDstExtent (k : XKind) (b : Nat) : Nat :=
  match k with
  | .xstr => if xRows b = 0 then 0 else (xRows b - 1) * xDpitch b + xLen b
  | .xlay => if xRows b = 0 then 0 else (xRows b - 1) * xDpitch b + layRowBytes (xFmt b) (xLen b)
  | .xacc => xLen b * accDstBytes (xFmt b)
  | _ => xLen b
/-- The declared buffer that a range lies wholly within (R182). -/
def bufWithin (h : LaunchHdr) (a n : Nat) : Option Nat :=
  ((bufsOf h).zipIdx.find? (fun x => x.1.1 ≤ a && a + n ≤ x.1.1 + x.1.2)).map (·.2)
/-- The buffer instance of a scratchpad end: core × 16 + buffer; none when the core or the range fails (R182, R187). -/
def bufInstance (s : State) (block core a n : Nat) : Option Nat :=
  match tget s.blocks block with
  | none => none
  | some k => if k.cores.contains core then (bufWithin k.hdr a n).map (fun i => core * 16 + i) else none
/-- Buffer instances that a command fills and drains. -/
def xFill (s : State) (cl : Nat) (x : XCmd) : Option Nat :=
  if xDsp x.blk then bufInstance s x.block (xDcore cl x.blk) (xDst x.blk) (xDstExtent x.kind x.blk) else none
def xDrain (s : State) (cl : Nat) (x : XCmd) : Option Nat :=
  if xSsp x.blk then bufInstance s x.block (xScore cl x.blk) (xSrc x.blk) (xSrcExtent x.kind x.blk) else none

/-- Fields of a block that must be 0 and are not (Table 8.3, R182). -/
def xReserved (k : XKind) (b : Nat) : Bool :=
  bitsOf b 432 16 ≠ 0
    || (xSsp b && bitsOf b 18 46 ≠ 0) || (xDsp b && bitsOf b 82 46 ≠ 0)
    || (!(k = .xstr || k = .xlay) && xRows b ≠ 0) || (!(xShadow b) && xSet b ≠ 0)
    || ((k = .xcopy || k = .xstr) && xFmt b ≠ 0) || (k ≠ .xstr && xSpitch b ≠ 0)
    || (!(k = .xstr || k = .xlay) && xDpitch b ≠ 0)
    || (k = .xlay && bitsOf b 276 44 ≠ 0) || ((k = .xcopy || k = .xstr) && xSeed b ≠ 0) || (k ≠ .xacc && xCtr b ≠ 0)
/-- Limits of an instruction that are broken (R183 to R185). -/
def xLimit (k : XKind) (b : Nat) : Bool :=
  match k with
  | .xcopy => !(xSsp b) && !(xDsp b) && xSrc b < xDst b + xLen b && xDst b < xSrc b + xLen b
  | .xstr => xDpitch b < xLen b && xRows b ≠ 1
  | .xlay =>
    xSrc b % 2 ^ 21 ≠ 0 || xLen b = 0 || xLen b > 65535 || xFmt b ≥ 5 || xSsp b || ((xFmt b = 3 || xFmt b = 4) && xLen b % 2 = 1)
      || (xDpitch b < layRowBytes (xFmt b) (xLen b) && xRows b ≠ 1)
  | .xacc => xFmt b % 4 = 3 || xSrc b % accSrcBytes (xFmt b) ≠ 0 || xDst b % accDstBytes (xFmt b) ≠ 0
  | _ => false
/-- The checks of R182. -/
def xBad (s : State) (cl : Nat) (x : XCmd) : Bool :=
  let b := x.blk
  xReserved x.kind b
    || (xSsp b && (xDrain s cl x).isNone) || (xDsp b && (xFill s cl x).isNone)
    || (xSsp b && xDsp b && xFill s cl x = xDrain s cl x)
    || (xShadow b && (xDsp b || (match tget (getCluster s cl).shOwner (xSet b) with | some o => o ≠ x.block | none => x.block = noGroup)))
    || xLimit x.kind b || xProgress b > xUnits x.kind b

/-! ## Issue -/

/-- XRIGHTS (R177). -/
def xRights (cx : Ctx) : WRes := .trap (mkTrap cx.path 9 0 0 cx.path.mask [])
/-- A command entered in a cluster's engine; a free shadow set that it names gets its owner (R197). -/
def xAccept (s : State) (cl : Nat) (x : XCmd) : State :=
  let s1 := modCluster s cl (fun c => { c with
    cmds := c.cmds ++ [x]
    shOwner := match x.kind with
      | .ovld | .ovpf => c.shOwner
      | _ => if xShadow x.blk && x.block ≠ noGroup && (tget c.shOwner (xSet x.blk)).isNone then tset c.shOwner (xSet x.blk) x.block else c.shOwner })
  match x.bar with
  | none => s1
  | some k => let o := barOf s1 x.block k; setBar s1 x.block k { o with joined := o.joined ++ [x.id], joins := o.joins + 1 }
/-- Whether a cluster's engine takes one more command (R178). -/
def xRoom (cl : Nat) (s : State) : Bool := (getCluster s cl).cmds.length < 64
/-- A transfer word (R178, R181, R190, R193). -/
def xIssue (s : State) (kind : XKind) (bar : Option (Fin 16)) (a : Fin 32) (n : BitVec 6) : Out :=
  runWord s (pendingOn [64 + a.val]) (fun cx =>
    if !cx.grp.producer then xRights cx
    else
      let cl := clusterOf cx.grp.core
      let bk := bar.map (·.val)
      let room := fun (t : State) (_ : Nat) => xRoom cl t && (match bk with | none => true | some k => (barOf t cx.grp.block k).joins < 64)
      issueCmd cx s n.toNat a.val 64 64 room (fun s1 blk =>
        let f := freshId s1
        .ok (xAccept f.2 cl
          { id := f.1, kind := kind, core := cx.grp.core, block := cx.grp.block, group := cx.gk, tag := some n.toNat, bar := bk,
            baddr := sGet cx.grp a.val, blk := blk, d := 0, slot := 0, node := none, started := false, fills := none, drains := none,
            prog := 0, rerr := none, fin := none })))
def execXcopy (bar : Option (Fin 16)) (a : Fin 32) (n : BitVec 6) (s : State) : Out := xIssue s .xcopy bar a n
def execXstr (bar : Option (Fin 16)) (a : Fin 32) (n : BitVec 6) (s : State) : Out := xIssue s .xstr bar a n
def execXlay (bar : Option (Fin 16)) (a : Fin 32) (n : BitVec 6) (s : State) : Out := xIssue s .xlay bar a n
def execXacc (bar : Option (Fin 16)) (a : Fin 32) (n : BitVec 6) (s : State) : Out := xIssue s .xacc bar a n

/-! ## Overlays (R37 to R41, R198, R199) -/

/-- A command of an engine changed, and a command that has ended removed. -/
def modCmd (s : State) (cl id : Nat) (f : XCmd → XCmd) : State :=
  modCluster s cl (fun c => { c with cmds := c.cmds.map (fun x => if x.id = id then f x else x) })
def dropCmd (s : State) (cl id : Nat) : State := modCluster s cl (fun c => { c with cmds := c.cmds.filter (·.id ≠ id) })
/-- Overlay number that a slot holds or loads. -/
def slotNumber : OvSlot → Option Nat | .empty => none | .loading n => some n | .resident n _ _ _ => some n | .system _ => some 0xFFFF
/-- Whether a slot is busy or loading (R41). -/
def slotBusy (s : State) (cl : Nat) (x : OvSlot) : Bool :=
  match x with
  | .empty => false
  | .loading _ => true
  | y => s.groups.any (fun g => clusterOf g.2.core = cl && g.2.paths.any (fun p => slotNumber y = some (ovOf p.pc)))
/-- Whether a descriptor breaks the checks of R198 step 1. -/
def descBad (va d : Nat) : Bool :=
  let size := bitsOf d 32 32
  va % 256 ≠ 0 || bitsOf d 16 16 ≠ 0 || bitsOf d 136 56 ≠ 0 || bitsOf d 1200 16 ≠ 0 || bitsOf d 1248 800 ≠ 0
    || size < 4 || size > 65536 || size % 4 ≠ 0 || bitsOf d 64 64 % 256 ≠ 0 || bitsOf d 128 8 > 63
/-- A slot of a cluster set. -/
def setSlot (s : State) (cl i : Nat) (x : OvSlot) : State := modCluster s cl (fun c => { c with slots := c.slots.set i x })
/-- A load that ends with a status before it has begun to fill a slot. -/
def ovRefuse (s : State) (cl : Nat) (x : XCmd) (st : Nat) : State :=
  modCmd s cl x.id (fun y => { y with started := true, fin := some (if y.kind = .ovpf then 7 else st, 0, 0) })
/-- The slot that OVPF takes (R199). -/
def ovpfSlot (s : State) (cl : Nat) : Option Nat :=
  let sl := (getCluster s cl).slots
  match sl.findIdx? (· = .empty) with
  | some i => some i
  | none =>
    let c := sl.zipIdx.filterMap (fun x => match x.1 with
      | .resident _ _ _ u | .system u => if slotBusy s cl x.1 then none else some (u, x.2)
      | _ => none)
    match c with
    | [] => none
    | y :: t => some ((t.foldl (fun b z => if z.1 < b.1 then z else b) y).2)
/-- The start of an overlay load: steps 1 and 2 of R198, or the conditions of R199. -/
def ovStart (s : State) (cl : Nat) (x : XCmd) : State :=
  let r := forEngine s x.id (fun q => spanRead q none (cl / 64) x.baddr.toNat 256)
  match r.2 with
  | .wait => r.1
  | .fault sub => ovRefuse r.1 cl x (if sub = scPoison then 4 else 3)
  | .remote _ => ovRefuse r.1 cl x 3
  | .poison _ _ => ovRefuse r.1 cl x 4
  | .ok d =>
    let num := bitsOf d 0 16
    let sl := (getCluster s cl).slots
    if descBad x.baddr.toNat d then ovRefuse r.1 cl x 5
    else
      let load := fun (i : Nat) =>
        modCmd (setSlot r.1 cl i (.loading num)) cl x.id (fun y => { y with started := true, slot := i, blk := d })
      if x.kind = .ovpf then
        if sl.any (fun y => slotNumber y = some num) then ovRefuse r.1 cl x 7
        else match ovpfSlot r.1 cl with | some i => load i | none => ovRefuse r.1 cl x 7
      else if slotBusy r.1 cl (sl.getD x.slot .empty) then ovRefuse r.1 cl x 1
      else if sl.zipIdx.any (fun y => y.2 ≠ x.slot && slotNumber y.1 = some num) then ovRefuse r.1 cl x 2
      else load x.slot
/-- A read of code at a device address by an engine of a die, piece by piece. -/
def codeRead (s : State) (die da n : Nat) : State × Acc :=
  let ps := pieces (n / 128 + 2) da n 0
  let r := ps.foldl (fun (a : State × Acc) x =>
    match a.2 with
    | .ok v =>
      let r := accReadAt a.1 none die ⟨0, 64, 0, false, false⟩ x.1 x.2.1
      match r.2 with
      | .ok w => (r.1, .ok (v + w * 2 ^ (8 * x.2.2)))
      | .poison _ _ => (r.1, .fault scPoison)
      | o => (r.1, o)
    | _ => a) (s, .ok 0)
  match r.2 with
  | .wait => r
  | o => (readsTaken r.1 none die (ps.map (fun x => (x.1, x.2.1))), o)
/-- The words of a number of code bytes. -/
def codeWords (n v : Nat) : List W32 := (List.range (n / 4)).map (fun i => BitVec.ofNat 32 (v / 2 ^ (32 * i)))
/-- Step 3 of R198: the code and link table copied; the status, once known. The load counts as a fetch from the slot: R199 does not
say how old a slot is that has been loaded and never fetched from (log 89). -/
def ovLoad (s : State) (cl : Nat) (x : XCmd) : State :=
  let d := x.blk
  let size := bitsOf d 32 32
  let r := forEngine s x.id (fun q => codeRead q (cl / 64) (bitsOf d 64 64) size)
  let stop := fun (st : Nat) => modCmd (setSlot r.1 cl x.slot .empty) cl x.id (fun y => { y with fin := some (st, 0, 0) })
  match r.2 with
  | .wait => r.1
  | .fault sub => stop (if sub = scPoison then 4 else 3)
  | .remote _ => stop 3
  | .poison _ _ => stop 4
  | .ok v =>
    if crc32 size v ≠ bitsOf d 1216 32 then stop 6
    else
      let links := (List.range (bitsOf d 128 8)).map (fun k => bitsOf d (192 + 16 * k) 16)
      let q := (getCluster r.1 cl).fetchSeq + 1
      modCmd (setSlot (modCluster r.1 cl (fun c => { c with fetchSeq := q })) cl x.slot (.resident (bitsOf d 0 16) (codeWords size v) links q)) cl x.id
        (fun y => { y with fin := some (0, 0, 0) })
/-- A path frozen on an overlay of a cluster changed; the flag says whether a group has one. -/
def thawGroup (s : State) (n gk : Nat) (ok : Bool) : State :=
  match tget s.groups gk with
  | none => s
  | some g =>
    let mine := fun (p : Path) => decide (p.wait = .frozen) && decide (ovOf p.pc = n)
    if !(g.paths.any mine) then s
    else if ok then boundary (modGroup s gk (fun g => { g with paths := g.paths.map (fun p => if mine p then { p with wait := .ready } else p) })) gk
    else if g.atEntry then
      fatalBlock (modGroup s gk (fun g => { g with paths := g.paths.map (fun p => if mine p then { p with wait := .ready } else p) })) g.block
    else modGroup s gk (fun g => { g with paths := g.paths.map (fun p =>
      if mine p then { p with wait := .trap (headTrap p 3 2 p.mask [] 0), stalled := false } else p) })
/-- The end of a load for the paths frozen on its overlay: once the slot is resident they go on to fetch, as paths that come out of a
wait (R330); when it has been left empty they take the overlay fault ABSENT where they stand (R39). -/
def thaw (s : State) (cl n : Nat) (ok : Bool) : State :=
  (s.groups.filter (fun g => clusterOf g.2.core = cl)).foldl (fun a g => thawGroup a n g.1 ok) s
/-- OVERLAY_LOAD_END (R198, R199): the load completes, s[d] gets its status, the tag becomes ready. -/
def execOverlayLoadEnd (c id : Nat) (s : State) : Out :=
  match (getCluster s c).cmds.find? (fun x => x.id = id && (x.kind = .ovld || x.kind = .ovpf) && x.started) with
  | none => .next s
  | some x =>
    let s1 := if x.fin.isSome then s else ovLoad s c x
    match (getCluster s1 c).cmds.find? (·.id = id) with
    | none => .next s1
    | some y =>
      match y.fin with
      | none => .next s1
      | some (st, _, _) =>
        let s2 := if x.kind = .ovld then uniResult s1 x.group x.d id (BitVec.ofNat 64 st) else s1
        let s3 := cmdDone (dropCmd s2 c id) x.core id x.tag .overlay (BitVec.ofNat 64 st) x.block none none
        .next (if x.blk = 0 then s3 else thaw s3 c (bitsOf x.blk 0 16) (st = 0))
/-- OVLD (R198). -/
def execOvld (d a : Fin 32) (slot : Fin 4) (n : BitVec 6) (s : State) : Out :=
  runWord s (pendingOn [64 + a.val, 64 + d.val]) (fun cx =>
    let cl := clusterOf cx.grp.core
    if !(tagFree s cx.grp.core n.toNat) || !(xRoom cl s) || !(memGate s cx.gk) then .stall s
    else
      let r := releaseAll s cx.gk s.nextId 5 (BitVec.allOnes 64)
      if !r.2 then .stall r.1
      else
        let f := freshId (tagTake r.1 cx.grp.core n.toNat)
        .ok (uniPend (xAccept f.2 cl
          { id := f.1, kind := .ovld, core := cx.grp.core, block := cx.grp.block, group := cx.gk, tag := some n.toNat, bar := none,
            baddr := sGet cx.grp a.val, blk := 0, d := d.val, slot := slot.val, node := none, started := false, fills := none,
            drains := none, prog := 0, rerr := none, fin := none }) cx.gk d.val f.1))
/-- OVPF (R199). -/
def execOvpf (a : Fin 32) (n : BitVec 6) (s : State) : Out :=
  runWord s (pendingOn [64 + a.val]) (fun cx =>
    let cl := clusterOf cx.grp.core
    if !(tagFree s cx.grp.core n.toNat) || !(xRoom cl s) || !(memGate s cx.gk) then .stall s
    else
      let r := releaseAll s cx.gk s.nextId 5 (BitVec.allOnes 64)
      if !r.2 then .stall r.1
      else
        let f := freshId (tagTake r.1 cx.grp.core n.toNat)
        .ok (xAccept f.2 cl
          { id := f.1, kind := .ovpf, core := cx.grp.core, block := cx.grp.block, group := cx.gk, tag := some n.toNat, bar := none,
            baddr := sGet cx.grp a.val, blk := 0, d := 0, slot := 0, node := none, started := false, fills := none,
            drains := none, prog := 0, rerr := none, fin := none }))

/-! ## TRANSFER_START -/

/-- The state of a buffer instance of a block: core × 16 + buffer. -/
def instState (s : State) (b i : Nat) : BufSt := match tget s.blocks b with | some k => bufState k (i / 16) (i % 16) | none => .empty
def setInst (s : State) (b i : Nat) (x : BufSt) : State := setBuf s b (i / 16) (i % 16) x
/-- The start of a transfer command (R182, R187): its checks, then its buffer events, both accepted or neither. A command that names
a shadow set which is free only now, another block having owned it at the acceptance or it having been freed since, makes its block the
owner as it starts: R197 speaks of sets free at the acceptance alone (log 90). -/
def xStart (s : State) (cl : Nat) (x : XCmd) : State :=
  let p := xProgress x.blk
  let stop := fun (st : Nat) => modCmd s cl x.id (fun y => { y with started := true, prog := p, fin := some (st, 0, 0) })
  if xBad s cl x then stop 1
  else if xUnits x.kind x.blk = p then stop 0
  else
    let fi := xFill s cl x
    let dr := xDrain s cl x
    let ok := (match fi with | some i => instState s x.block i = .empty | none => true)
      && (match dr with | some i => instState s x.block i = .full | none => true)
    if !ok then stop 5
    else
      let s1 := match fi with | some i => setInst s x.block i .filling | none => s
      let s2 := match dr with | some i => setInst s1 x.block i .draining | none => s1
      let s3 := if xShadow x.blk then modCluster s2 cl (fun c => { c with shOwner := tset c.shOwner (xSet x.blk) x.block }) else s2
      modCmd s3 cl x.id (fun y => { y with started := true, prog := p, fills := fi, drains := dr })
/-- TRANSFER_START (R178, R182, R187, R198): the oldest command that has not started starts, while fewer than 8 run. -/
def execTransferStart (c id : Nat) (s : State) : Out :=
  match (getCluster s c).cmds.find? (fun x => !x.started) with
  | none => .next s
  | some x =>
    if x.id ≠ id || ((getCluster s c).cmds.filter (·.started)).length ≥ 8 then .next s
    else match x.kind with
      | .ovld | .ovpf => .next (ovStart s c x)
      | _ => .next (xStart s c x)

/-! ## The units of a command -/

/-- Source spans, destination and end of the unit that starts at `u` (R183, R184). -/
def xUnit (cl : Nat) (x : XCmd) (u : Nat) : List EngSpan × EngSpan × Nat :=
  let b := x.blk
  let sc := if xSsp b then some (xScore cl b) else none
  let dc := if xDsp b then some (xDcore cl b) else none
  match x.kind with
  | .xstr => ([⟨sc, xSrc b + u * xSpitch b, xLen b⟩], ⟨dc, xDst b + u * xDpitch b, xLen b⟩, u + 1)
  | .xlay =>
    let rb := layRowBytes (xFmt b) (xLen b)
    let c := (rb + 1023) / 1024
    let m := bitsOf b 256 20 + u
    ((List.range c).map (fun j => ⟨none, xSrc b + (m / 2048 * c + j) * 2 ^ 21 + m % 2048 * 1024, min 1024 (rb - 1024 * j)⟩),
      ⟨dc, xDst b + u * xDpitch b, rb⟩, u + 1)
  | .xacc => ([⟨sc, xSrc b + u * accSrcBytes (xFmt b), accSrcBytes (xFmt b)⟩], ⟨dc, xDst b + u * accDstBytes (xFmt b), accDstBytes (xFmt b)⟩, u + 1)
  | _ =>
    let n := min (xLen b - u) (128 - (xDst b + u) % 128)
    ([⟨sc, xSrc b + u, n⟩], ⟨dc, xDst b + u, n⟩, u + n)

/-- What a unit comes to: done, held, or stopped with STATUS, FCODE and FADDR. -/
inductive UnitEnd where | done | held | stop (st code addr : Nat)
/-- A stop by a failed read or write at an address (Table 8.5). -/
def unitStop (t : Take) (addr : Nat) : UnitEnd :=
  match t with
  | .ok _ _ => .done
  | .fault sub => .stop 2 sub (addr % 2 ^ 64)
  | .remote code => .stop 4 code (addr % 2 ^ 64)
  | .full => .stop 6 0 0
  | .wait | .sent _ => .held
/-- Start of a unit's source. -/
def srcAddr (xs : List EngSpan) : Nat := match xs with | y :: _ => y.addr | [] => 0
/-- Whether requests of a unit of a command to other devices are still out. -/
def unitOut (s : State) (cl id u : Nat) : Bool := s.fab.tx.any (fun t => t.origin = .xfer cl id u)
/-- The bytes of a unit: those read when a part of it was sent, or read now. -/
def unitBytes (s : State) (cl : Nat) (x : XCmd) (u : Nat) : State × Take × Nat :=
  match x.sent with
  | some (w, v, poi, k) => if w = u then (s, .ok v poi, k) else let r := takeSpans s (cl / 64) x.block (xUnit cl x u).1; (r.1, r.2, 0)
  | none => let r := takeSpans s (cl / 64) x.block (xUnit cl x u).1; (r.1, r.2, 0)
/-- One unit of XCOPY, XSTR or XLAY (R183, R184, R188). -/
def copyUnit (s : State) (cl : Nat) (x : XCmd) (u : Nat) : State × UnitEnd :=
  let t := xUnit cl x u
  let sh := if xShadow x.blk then some (cl, xSet x.blk) else none
  let r := unitBytes s cl x u
  match r.2.1 with
  | .ok v poi =>
    let w := giveSpan r.1 (cl / 64) x.block sh t.2.1 v poi r.2.2 (!(unitOut s cl x.id u))
    let q := txMark w.1 s.fab.tx.length (.xfer cl x.id u)
    match w.2 with
    | .ok _ _ =>
      (spansTaken q (cl / 64) t.1, match poi with | none => .done | some _ => .stop 3 0 (srcAddr t.1 % 2 ^ 64))
    | .sent k => (spansTaken (modCmd q cl x.id (fun y => { y with sent := some (u, v, poi, k) })) (cl / 64) t.1, .held)
    | o => (q, unitStop o t.2.1.addr)
  | o => (r.1, unitStop o (srcAddr t.1))

/-- The random value of an element's stochastic conversion; none for nearest even (R185, R186). -/
def accRand (b u : Nat) : Option Nat :=
  if xCtr b ≥ 2 ^ 63 then none else some (bitsOf (randMix (xSeed b) (BitVec.ofNat 64 (xCtr b % 2 ^ 63 + u))).toNat 40 24)
/-- The new destination element of XACC (R185, R186). -/
def accElem (b u src dst : Nat) : Nat := accNew (xFmt b) (accRand b u) src dst
/-- Whether a unit's element has been sent to another device. -/
def accSent (x : XCmd) (u : Nat) : Bool := match x.sent with | some q => decide (q.1 = u) | none => false
/-- The unit whose element has been sent: held until the answer has come, which ends it (R185, R188). -/
def accAnswer (s : State) (cl : Nat) (x : XCmd) (u va : Nat) : State × UnitEnd :=
  if unitOut s cl x.id u then (s, .held)
  else match x.rerr with
    | some (_, code) =>
      (modCmd s cl x.id (fun y => { y with rerr := none }), if code = 3 then .stop 3 0 va else .stop 4 code va)
    | none => (s, .done)
/-- The destination element of an XACC unit on another device: its element is sent to the fabric home slice, which performs it as one
indivisible step, and the unit is held until the answer has come (R185). -/
def accFar (s : State) (cl : Nat) (x : XCmd) (u va da src : Nat) (nc : Bool) : State × UnitEnd :=
  match fabRefuse s (chipOf da) (localOf da) with
  | some code => (s, .stop 4 code va)
  | none =>
    if fabRoom s (chipOf da) (localOf da) then
      (modCmd (fabSend s (chipOf da) (localOf da) (.acc (localOf da) (xFmt x.blk) src (accRand x.blk u) nc) (.xfer cl x.id u)) cl x.id
        (fun y => { y with sent := some (u, 0, none, 1) }), .held)
    else (s, .held)
/-- The destination element of an XACC unit in memory, replaced in one step (R185, R188, R194). -/
def accMem (s : State) (cl : Nat) (x : XCmd) (u va n src : Nat) : State × UnitEnd :=
  let r := xlateNow s none (cl / 64) va
  match r.2 with
  | .fault sub => (r.1, .stop 2 sub va)
  | .wait => (r.1, .held)
  | .ok e =>
    match daCheck r.1 e va true false with
    | some sub => (r.1, .stop 2 sub va)
    | none =>
      let da := daOf e va
      let la := localOf da
      let line := lineOf la
      let m := spanMask (la % 128) n
      let sec := spanSectors (la % 128) n
      if xShadow x.blk && (tgtOf r.1 da ≠ .hbm || e.nc) then (r.1, .stop 2 scType va)
      else match tgtOf r.1 da with
        | .remote => accFar r.1 cl x u va da src e.nc
        | _ => match hostFails r.1 la with
        | some code => (r.1, .stop 4 code va)
        | none =>
          let h := admitType (if e.nc then .u else .o) r.1 line m (!(xShadow x.blk))
          if !h.2 then (h.1, .held)
          else
            let s1 := recallOw h.1 line none
            let g := if xShadow x.blk then shadowGet s1 cl (xSet x.blk) line else (0, 0, 0)
            let pois := (memPoison s1 line &&& (if m &&& ~~~g.1 = 0 then 0 else sec)) ||| (g.2.2 &&& sec)
            if pois ≠ 0 then (s1, .stop 3 0 va)
            else
              let new := lineAt (la % 128) n (accElem x.blk u src (lineRead (overLine (memLine s1 line) g.1 g.2.1) (la % 128) n))
              if xShadow x.blk then
                if shadowRoom s1 cl (xSet x.blk) line then (shadowPut s1 cl (xSet x.blk) line m new 0, .done) else (s1, .stop 6 0 0)
              else (homeStore e.nc s1 line m new 0, .done)
/-- One element of XACC (R185). An element that has been sent to another device has been taken: nothing of it is read again. -/
def accUnit (s : State) (cl : Nat) (x : XCmd) (u : Nat) : State × UnitEnd :=
  let t := xUnit cl x u
  let fin := fun (q : State × UnitEnd) => match q.2 with | .held => q | e => (spansTaken q.1 (cl / 64) t.1, e)
  if accSent x u then fin (accAnswer s cl x u (t.2.1.addr % 2 ^ 64))
  else
  let r := takeSpans s (cl / 64) x.block t.1
  match r.2 with
  | .ok v poi =>
    if poi.isSome then fin (r.1, .stop 3 0 (srcAddr t.1 % 2 ^ 64))
    else match t.2.1.sp with
      | none => fin (accMem r.1 cl x u (t.2.1.addr % 2 ^ 64) t.2.1.len v)
      | some c =>
        if spadPoison r.1 c x.block t.2.1.addr t.2.1.len then fin (r.1, .stop 3 0 t.2.1.addr)
        else
          let new := accElem x.blk u v (spadRead r.1 c x.block t.2.1.addr t.2.1.len)
          fin (spadWrite r.1 c x.block t.2.1.addr t.2.1.len new true, .done)
  | o => (r.1, unitStop o (srcAddr t.1))

/-- Units in ascending order until one is held or stops, or all are done; `k` bounds them. -/
def xLoop (cl : Nat) (x : XCmd) : Nat → State → Nat → State × Nat × Option (Nat × Nat × Nat)
  | 0, s, u => (s, u, if u ≥ xUnits x.kind x.blk then some (0, 0, 0) else none)
  | k + 1, s, u =>
    if u ≥ xUnits x.kind x.blk then (s, u, some (0, 0, 0))
    else
      let r := if x.kind = .xacc then accUnit s cl x u else copyUnit s cl x u
      match r.2 with
      | .done => xLoop cl x k r.1 ((xUnit cl x u).2.2)
      | .held => (r.1, u, none)
      | .stop st code addr => (r.1, u, some (st, code, addr))
/-- The units of a command done as far as they can be. One of whose units another device has turned down goes no further (R188). -/
def xRun (s : State) (cl : Nat) (x : XCmd) : State :=
  if x.kind ≠ .xacc && x.rerr.isSome then modCmd s cl x.id (fun y => { y with fin := some (4, 0, 0) })
  else
    let n := xUnits x.kind x.blk - x.prog
    let r := forEngine s x.id (fun q => xLoop cl x (if x.kind = .xcopy then n / 128 + 2 else n + 1) q x.prog)
    let s1 := modCmd r.1 cl x.id (fun y => { y with prog := r.2.1, fin := r.2.2 })
    let t := xUnit cl x r.2.1
    if r.2.2.isSome then s1 else spanHolds s1 (cl / 64) (t.1 ++ [t.2.1]) (.transferEnd cl x.id)

/-! ## TRANSFER_END -/

/-- PROGRESS, STATUS, FCODE and FADDR of an ended command: a write that another device turned down counts first (R188). -/
def xFinal (cl : Nat) (x : XCmd) (fin : Nat × Nat × Nat) : Nat × Nat × Nat × Nat :=
  match x.rerr with
  | some (u, code) => (u, 4, code, (xUnit cl x u).2.1.addr % 2 ^ 64)
  | none => (x.prog, fin.1, fin.2.1, fin.2.2)
/-- Buffer changes at the end of a command (Table 7.3). -/
def xBuffers (s : State) (x : XCmd) (done : Bool) : State :=
  let s1 := match x.fills with | some i => setInst s x.block i (if done then .full else .empty) | none => s
  match x.drains with | some i => setInst s1 x.block i (if done then .empty else .full) | none => s1
/-- The unit number under which a command's own fields are written. -/
def reportUnit : Nat := 2 ^ 40
/-- The fields of the parameter block written (R181); false while a lease or a snoop holds the write. DESIGN CHOICE (log 91): a write
that faults or that another device turns down is dropped, and the command completes. -/
def xReport (s : State) (cl : Nat) (x : XCmd) (f : Nat × Nat × Nat × Nat) : State × Bool :=
  let mark := fun (q : State) => txMark q s.fab.tx.length (.xfer cl x.id reportUnit)
  let r := accWrite s none (cl / 64) (x.baddr.toNat + 48) 6 (f.1 + f.2.1 * 2 ^ 32 + f.2.2.1 * 2 ^ 40) 0 false
  match r.2 with
  | .wait => (mark r.1, false)
  | _ =>
    let q := accWrite r.1 none (cl / 64) (x.baddr.toNat + 56) 8 f.2.2.2 0 false
    match q.2 with
    | .wait => (mark q.1, false)
    | _ => (modCmd (mark q.1) cl x.id (fun y => { y with reported := true }), true)
/-- Whether requests of a command to other devices are still out. -/
def xOut (s : State) (cl id : Nat) : Bool :=
  s.fab.tx.any (fun t => match t.origin with | .xfer c i _ => c = cl && i = id | _ => false)
/-- A command whose fields have been written completes: its buffers change, its tag becomes ready; one that has stopped on POISON raises
its block's imprecise storage error (R187, R188, R191, R193). -/
def xComplete (s : State) (c : Nat) (y : XCmd) (f : Nat × Nat × Nat × Nat) : State :=
  let s1 := if f.2.1 = 3 then impRaise s y.block 12 2 (BitVec.ofNat 64 f.2.2.2) else s
  cmdDone (dropCmd (xBuffers s1 y (f.2.1 = 0)) c y.id) y.core y.id y.tag .transfer (BitVec.ofNat 64 f.2.1) y.block y.bar y.node
/-- TRANSFER_END (R181, R188, R191, R193): the command's units are done as far as they can be; when it has completed or
stopped and its writes have been performed, its fields are written; when that write has been performed too, the command completes. -/
def execTransferEnd (c id : Nat) (s : State) : Out :=
  match (getCluster s c).cmds.find? (fun x => x.id = id && x.started && x.kind ≠ .ovld && x.kind ≠ .ovpf) with
  | none => .next s
  | some x =>
    let s1 := if x.fin.isSome then s else xRun s c x
    match (getCluster s1 c).cmds.find? (·.id = id) with
    | none => .next s1
    | some y =>
      match y.fin with
      | none => .next s1
      | some fin =>
        if xOut s1 c id then .next s1
        else
          let f := xFinal c y fin
          let r := if y.reported then (s1, true) else xReport s1 c y f
          if !r.2 || xOut r.1 c id then .next r.1 else .next (xComplete r.1 c y f)

/-! ## XPUB (R196, R197) -/

/-- XPUB and XPUB.x. -/
def execXpub (d : Fin 32) (x : Bool) (h : Fin 4) (s : State) : Out :=
  runWord s (pendingOn [64 + d.val]) (fun cx =>
    if !cx.grp.producer then xRights cx
    else if !(memGate s cx.gk) then .stall s
    else
      let cl := clusterOf cx.grp.core
      let f := freshId s
      let ws := ((getCluster s cl).cmds.filter (fun y => (match y.kind with | .ovld | .ovpf => false | _ => xShadow y.blk && xSet y.blk = h.val))).map (·.id)
      .ok (uniPend (modCluster f.2 cl (fun c => { c with
        pubs := c.pubs ++ [⟨f.1, h.val, x, cx.gk, cx.grp.block, d.val, ws⟩] })) cx.gk d.val f.1))
/-- Whether every line of a set can be written now; what that first sets going. -/
def shadowAdmit (s : State) (ls : List (Nat × LineMask × Line × BitVec 4)) : State × Bool :=
  if ls.any (fun l => heldLa s (l.1 * 128)) then (s, false)
  else ls.foldl (fun (a : State × Bool) l => let r := homeAdmit a.1 l.1 (BitVec.allOnes 128) true; (r.1, a.2 && r.2)) (s, true)
/-- A shadow line written to its visible line; every copy of it drops. -/
def shadowCommit (s : State) (l : Nat × LineMask × Line × BitVec 4) : State :=
  let s1 := dropAll s l.1
  homeWrite { s1 with coh := { s1.coh with fabric := tdel s1.coh.fabric l.1 } } none l.1 l.2.1 l.2.2.1 l.2.2.2
/-- XPUB_COMMIT (R196, R197): the oldest XPUB of a set whose earlier commands have completed takes effect. -/
def execXpubCommit (c h : Nat) (s : State) : Out :=
  let k := getCluster s c
  match k.pubs.find? (fun p => p.set = h && !(p.waits.any (fun i => k.cmds.any (·.id = i)))) with
  | none => .next s
  | some p =>
    let fin := fun (t : State) (v : W64) =>
      uniResult (modCluster t c (fun y => { y with pubs := y.pubs.filter (·.id ≠ p.id) })) p.group p.d p.id v
    let lost := match tget s.blocks p.block with | some b => b.lostSets.contains h | none => false
    if lost then .next (fin (modBlock s p.block (fun b => { b with lostSets := b.lostSets.filter (· ≠ h) })) 0x8000000000000002)
    else match tget k.shOwner h with
      | none => .next (fin s 0)
      | some o =>
        if o ≠ p.block then .next (fin s 0x8000000000000001)
        else
          let ls := tgetD k.shadow h []
          let v := BitVec.ofNat 64 (ls.length * 256)
          if p.discard then .next (fin (shadowFree s c h) v)
          else
            let r := shadowAdmit s ls
            if r.2 then .next (fin (shadowFree (ls.foldl shadowCommit r.1) c h) v) else .next r.1

/-! ## WAITANY, WAITALL, FFR (R192) -/

/-- WAITANY. Later loads see what the tags' commands wrote (R191); the acquire waits for the fibres' earlier reads (R309). -/
def execWaitany (d a : Fin 32) (s : State) : Out :=
  runWord s (pendingOn [64 + d.val, 64 + a.val]) (fun cx =>
    let m := sGet cx.grp a.val
    let t := (getCore s cx.grp.core).tags &&& m
    if m = 0 then .ok (modGroup s cx.gk (fun g => sSet g d.val 0))
    else if t = 0 || readsOpen cx.grp s.nextId cx.path.mask then .stall s
    else .ok (modGroup (acquireDo s cx.grp.core 3) cx.gk (fun g => sSet g d.val t)))
/-- WAITALL. -/
def execWaitall (a : Fin 32) (s : State) : Out :=
  runWord s (pendingOn [64 + a.val]) (fun cx =>
    let m := sGet cx.grp a.val
    if m = 0 then .ok s
    else if (getCore s cx.grp.core).tags &&& m ≠ m || readsOpen cx.grp s.nextId cx.path.mask then .stall s
    else .ok (acquireDo s cx.grp.core 3))
/-- FFR. -/
def execFfr (d a : Fin 32) (s : State) : Out :=
  runWord s (pendingOn [64 + d.val, 64 + a.val]) (fun cx =>
    let t := (getCore s cx.grp.core).tags &&& sGet cx.grp a.val
    .ok (modGroup s cx.gk (fun g => sSet g d.val (BitVec.ofNat 64 (lowLane t)))))

end Sys2Proof.Machine
end

