-- ==== Sys2Proof/Machine/Bank.lean ====
section
/-! DEFINITION. Bank-group engines (chapter 4): the commands BGLOAD, BGVEC, BGRUN and BGWAIT and their events, the moves, the
units and streams behind the ports, the chime, stops and completion records. Streams do their slices at BANK_STREAM_END, or
one at a BANK_CHIME_STEP; row buffers and refresh change only time (log 24). -/

namespace Sys2Proof.Machine

/-! ## Engines, sets and leases -/

/-- A bank-group engine; one that nothing has touched holds its reset state, its clock copy with the base die's (R61, R71). -/
def getBge (s : State) (k : Nat) : Bge := tgetD s.bges k { Bge.reset with clock := s.time.now }
def modBge (s : State) (k : Nat) (f : Bge → Bge) : State := { s with bges := tset s.bges k (f (getBge s k)) }
/-- Stack, channel and bank group of an engine's key. -/
def bgeStack (k : Nat) : Nat := k / 512
def bgeCh (k : Nat) : Nat := k % 512 / 16
def bgeBg (k : Nat) : Nat := k % 16
/-- Stack of a set word, and whether it is ARG (R98). -/
def setStack (w : Nat) : Nat := bitsOf w 48 3
def setBad (w : Nat) : Bool := bitsOf w 51 13 ≠ 0 || bitsOf w 0 32 = 0 || bitsOf w 32 16 = 0
/-- The engines of a set word in ordinal order (R98). -/
def setList (w : Nat) : List Nat :=
  (((List.range 32).filter (fun c => bitsOf w c 1 = 1)).map (fun c =>
    ((List.range 16).filter (fun b => bitsOf w (32 + b) 1 = 1)).map (fun b => setStack w * 512 + c * 16 + b))).flatten
/-- Whether an engine of a list runs a program. -/
def anyRunning (s : State) (ks : List Nat) : Bool := ks.any (fun k => (getBge s k).run.isSome)
/-- An entry of a lease table that a handle names, if the stack and the generation are right (R53). -/
def leaseEntry (s : State) (st x : Nat) : Lease := tgetD (getStack s st).leases x Lease.reset
def leaseNamed (s : State) (st h : Nat) : Option Lease :=
  if bitsOf h 7 3 = st && bitsOf h 10 6 = (leaseEntry s st (bitsOf h 0 7)).gen then some (leaseEntry s st (bitsOf h 0 7)) else none
def modLease (s : State) (st x : Nat) (f : Lease → Lease) : State :=
  modStack s st (fun k => { k with leases := tset k.leases x (f (tgetD k.leases x Lease.reset)) })

/-! ## Commands -/

def modBgCmd (s : State) (st id : Nat) (f : BgCmd → BgCmd) : State :=
  modStack s st (fun k => { k with
    cmdq := k.cmdq.map (fun c => if c.id = id then f c else c), vecq := k.vecq.map (fun c => if c.id = id then f c else c) })
def dropBgCmd (s : State) (st id : Nat) : State :=
  modStack s st (fun k => { k with cmdq := k.cmdq.filter (·.id ≠ id), vecq := k.vecq.filter (·.id ≠ id) })
def bgCmd (s : State) (st id : Nat) : Option BgCmd := ((getStack s st).cmdq ++ (getStack s st).vecq).find? (·.id = id)
/-- Whether a command is at its turn: no earlier command of its queue has a set that overlaps its own (R98). -/
def bgTurn (s : State) (st : Nat) (c : BgCmd) : Bool :=
  let q := if c.kind = .vec then (getStack s st).vecq else (getStack s st).cmdq
  !((q.takeWhile (·.id ≠ c.id)).any (fun e => e.set.any c.set.contains))
/-- A command entered in its stack's queue (R98). -/
def bgAccept (s : State) (c : BgCmd) : State :=
  modStack s (setStack c.blk) (fun k => if c.kind = .vec then { k with vecq := k.vecq ++ [c] } else { k with cmdq := k.cmdq ++ [c] })
/-- Whether the queue of a block's stack takes one more command. -/
def bgRoom (kind : BgKind) (s : State) (blk : Nat) : Bool :=
  let k := getStack s (setStack blk)
  (if kind = .vec then k.vecq.length else k.cmdq.length) < 16
/-- A new command. -/
def bgNew (id : Nat) (kind : BgKind) (core block spad : Nat) (tag : Option Nat) (node : Option (Nat × Nat)) (baddr : W64) (blk : Nat) : BgCmd :=
  { id := id, kind := kind, core := core, block := block, tag := tag, node := node, baddr := baddr, blk := blk,
    set := setList blk, started := false, stat := 0, done := 0, tstart := 0, e := 0, stops := [],
    wrow := [], wovf := [], pc := 0, spad := spad }
/-- Bytes of the scratchpad of a group's launch. -/
def launchSpad (s : State) (b : Nat) : Nat := match tget s.blocks b with | some k => k.hdr.spad * 32768 | none => 0
/-- A bank word (R97). -/
def bgIssue (s : State) (kind : BgKind) (a : Fin 32) (n : BitVec 6) (align bytes : Nat) : Out :=
  runWord s (pendingOn [64 + a.val]) (fun cx =>
    issueCmd cx s n.toNat a.val align bytes (bgRoom kind) (fun s1 blk =>
      let f := freshId s1
      .ok (bgAccept f.2 (bgNew f.1 kind cx.grp.core cx.grp.block (launchSpad s cx.grp.block) (some n.toNat) none (sGet cx.grp a.val) blk))))
/-- BGLOAD (R99). -/
def execBgload (a : Fin 32) (n : BitVec 6) (s : State) : Out := bgIssue s .load a n 32 32
/-- BGVEC (R100). -/
def execBgvec (a : Fin 32) (n : BitVec 6) (s : State) : Out := bgIssue s .vec a n 32 32
/-- Whether a completion record's address serves: none while its translation waits (R101). -/
def crecOk (s : State) (core : Option Nat) (die va : Nat) : State × Option Bool :=
  if va % 64 ≠ 0 then (s, some false)
  else
    let r := xlateNow s core die va
    match r.2 with
    | .fault _ => (r.1, some false)
    | .wait => (r.1, none)
    | .ok e => (r.1, some (daCheck r.1 e va true false).isNone)
/-- BGRUN (R101): a bad CREC refuses the command, and its tag is ready at once with status 4. -/
def execBgrun (a : Fin 32) (n : BitVec 6) (s : State) : Out :=
  runWord s (pendingOn [64 + a.val]) (fun cx =>
    issueCmd cx s n.toNat a.val 128 128 (bgRoom .run) (fun s1 blk =>
      let r := crecOk s1 (some cx.grp.core) (dieOfCore cx.grp.core) (bitsOf blk 128 64)
      match r.2 with
      | none => .stall (tagBack r.1 cx.grp.core n.toNat)
      | some false => .ok (tagReady r.1 cx.grp.core n.toNat .bank 4 cx.grp.block)
      | some true =>
        let f := freshId r.1
        .ok (bgAccept f.2 (bgNew f.1 .run cx.grp.core cx.grp.block (launchSpad s cx.grp.block) (some n.toNat) none (sGet cx.grp a.val) blk))))
/-- BGWAIT (R103, R104): s[d] is written when the tag is ready; later loads then see what the command wrote. -/
def execBgwait (d : Fin 32) (n : BitVec 6) (s : State) : Out :=
  runWord s (pendingOn [64 + d.val]) (fun cx =>
    if !(memGate s cx.gk) then .stall s
    else if tagFree s cx.grp.core n.toNat then
      .ok (modGroup (acquireDo s cx.grp.core 3) cx.gk (fun g => sSet g d.val (tagValue s cx.grp.core n.toNat)))
    else .ok (modGroup (uniPend s cx.gk d.val (bgwaitId n.toNat)) cx.gk (fun g =>
      { g with bgwaits := g.bgwaits ++ [(n.toNat, d.val)] })))

/-! ## BGLOAD and BGVEC -/

/-- Whether a read by a stack's controller must wait; otherwise its bytes, or STATUS 2 FAULT or 3 POISON. -/
inductive CtlRead where | ok (v : Nat) | bad (st : Nat) | wait
def ctlRead (s : State) (st id va n : Nat) : State × CtlRead :=
  let r := forEngine s id (fun q => spanRead q none (st / 4) va n)
  (r.1, match r.2 with
    | .ok v => .ok v
    | .poison _ _ => .bad 3
    | .fault sub => .bad (if sub = scPoison then 3 else 2)
    | .remote _ => .bad 2
    | .wait => .wait)
/-- Engines of a set whose store loses VALID, or takes an image. -/
def clearValid (s : State) (ks : List Nat) : State := ks.foldl (fun a k => modBge a k (fun b => { b with valid := false })) s
def storeImage (s : State) (ks : List Nat) (h : Nat) (ms : List W32) : State :=
  ks.foldl (fun a k => modBge a k (fun b => { b with valid := true, header := h, moves := ms })) s
/-- BGLOAD_EXECUTE (R99, R397): the image checked and copied into every store of the set. DESIGN CHOICE (log 93): a block that ends ARG
neither waits for running engines nor clears VALID. DESIGN CHOICE (log 111): of an image with both faults FORMAT is reported, and
VERSION only without it. -/
def execBgloadExecute (st id : Nat) (s : State) : Out :=
  match bgCmd s st id with
  | none => .next s
  | some c =>
    if c.kind ≠ .load || c.started || !(bgTurn s st c) then .next s
    else
      let fin := fun (t : State) (v : Nat) => modBgCmd t st id (fun x => { x with started := true, stat := v })
      let img := bitsOf c.blk 64 64
      if setBad c.blk || bitsOf c.blk 136 120 ≠ 0 || img % 32 ≠ 0 then .next (fin s 1)
      else if anyRunning s c.set then .next s
      else
        let h := ctlRead s st id img 32
        match h.2 with
        | .wait => .next (spanHolds h.1 (st / 4) [⟨none, img, 32⟩] (.bgloadExecute st id))
        | .bad v => .next (fin (clearValid h.1 c.set) v)
        | .ok hd =>
          let n := bitsOf hd 48 8
          let s0 := clearValid h.1 c.set
          if bitsOf hd 0 32 ≠ 0x4D504742 || n = 0 || n > 248 || bitsOf hd 56 8 ≠ 0 || bitsOf hd 96 160 ≠ 0 then .next (fin s0 4)
          else if bitsOf hd 32 16 ≠ 0x0100 || selBp s = 0 then .next (fin s0 5)
          else
            let m := ctlRead s0 st id (img + 32) (4 * n)
            match m.2 with
            | .wait => .next (spanHolds m.1 (st / 4) [⟨none, img + 32, 4 * n⟩] (.bgloadExecute st id))
            | .bad v => .next (fin m.1 v)
            | .ok mv =>
              if crc32 (4 * n) mv ≠ bitsOf hd 64 32 then .next (fin m.1 6)
              else .next (fin (storeImage m.1 c.set hd (codeWords (4 * n) mv)) 0)
/-- Key of a stack's controller among those who write over the fabric, beside the clusters'. -/
def stackKey (st : Nat) : Nat := 128 + st
/-- What a stack's controller writes for a command, once, and performed on other devices too before the command completes (R104): false
while the write is held or out. A write that faults or that another device turns down is dropped (log 91). -/
def reportTry (s : State) (st id : Nat) (reported : Bool) (mark : State → State) (f : State → State × Acc) : State × Bool :=
  if reported then (s, !(xOut s (stackKey st) id))
  else
    let r := f s
    let q := txMark r.1 s.fab.tx.length (.xfer (stackKey st) id reportUnit)
    match r.2 with
    | .wait => (q, false)
    | _ => let t := mark q; (t, !(xOut t (stackKey st) id))
/-- The STATUS, and DONE, of a bank command's block written (R104). -/
def bgReport (s : State) (st : Nat) (c : BgCmd) (va n v : Nat) : State × Bool :=
  reportTry s st c.id c.reported (fun t => modBgCmd t st c.id (fun x => { x with reported := true })) (fun t => accWrite t none (st / 4) va n v 0 false)
/-- BGLOAD_END (R99, R103). -/
def execBgloadEnd (st id : Nat) (s : State) : Out :=
  match bgCmd s st id with
  | none => .next s
  | some c =>
    if c.kind ≠ .load || !c.started then .next s
    else
      let r := bgReport s st c (c.baddr.toNat + 16) 1 c.stat
      if !r.2 then .next r.1
      else .next (cmdDone (dropBgCmd r.1 st id) c.core id c.tag .bank (BitVec.ofNat 64 c.stat) c.block none c.node)
/-- FIRST, NENT and FORCE of a BGVEC block (Table 4.12). -/
def vecFirst (b : Nat) : Nat := bitsOf b 128 8
def vecNent (b : Nat) : Nat := bitsOf b 136 9
def vecForce (b : Nat) : Bool := bitsOf b 145 1 = 1
/-- Halves of the vector store that a BGVEC writes. -/
def vecHalves (b : Nat) : Bool × Bool := (vecFirst b < 128, vecFirst b + vecNent b > 128)
/-- Entries written one after another, as far as nothing holds or stops them; `k` bounds them. -/
def vecGo (st : Nat) (c : BgCmd) : Nat → State → Nat → State × Nat × Option Nat
  | 0, s, i => (s, i, some 0)
  | k + 1, s, i =>
    let r := ctlRead s st c.id ((bitsOf c.blk 64 64 + 64 * i) % 2 ^ 64) 64
    match r.2 with
    | .wait => (r.1, i, none)
    | .bad v => (r.1, i, some v)
    | .ok v => vecGo st c k (c.set.foldl (fun a e => modBge a e (fun b => { b with vs := tset b.vs (vecFirst c.blk + i) v })) r.1) (i + 1)
/-- BGVEC_EXECUTE (R100). -/
def execBgvecExecute (st id : Nat) (s : State) : Out :=
  match bgCmd s st id with
  | none => .next s
  | some c =>
    if c.kind ≠ .vec || c.started || !(bgTurn s st c) then .next s
    else
      let b := c.blk
      let hv := vecHalves b
      let full := c.set.any (fun k => (hv.1 && (getBge s k).full0) || (hv.2 && (getBge s k).full1))
      if setBad b || bitsOf b 146 14 ≠ 0 || bitsOf b 177 79 ≠ 0 || bitsOf b 64 64 % 64 ≠ 0 || vecNent b = 0 || vecFirst b + vecNent b > 256 then
        .next (modBgCmd s st id (fun x => { x with started := true, stat := 1 }))
      else if c.done = 0 && (if vecForce b then anyRunning s c.set else full) then .next s
      else
        let r := vecGo st c (vecNent b - c.done) s c.done
        let s1 := if r.2.2.isSome then r.1 else spanHolds r.1 (st / 4) [⟨none, bitsOf b 64 64 + 64 * r.2.1, 64⟩] (.bgvecExecute st id)
        .next (modBgCmd s1 st id (fun x => match r.2.2 with
          | none => { x with done := r.2.1 }
          | some v => { x with done := r.2.1, started := true, stat := v }))
/-- BGVEC_END (R81, R100, R103): FULL bits set with status 0, STATUS and DONE written. -/
def execBgvecEnd (st id : Nat) (s : State) : Out :=
  match bgCmd s st id with
  | none => .next s
  | some c =>
    if c.kind ≠ .vec || !c.started then .next s
    else
      let r := bgReport s st c (c.baddr.toNat + 20) 3 (c.stat + c.done * 256)
      if !r.2 then .next r.1
      else
        let hv := vecHalves c.blk
        let s1 := if c.stat ≠ 0 then r.1
          else c.set.foldl (fun a k => modBge a k (fun b => { b with full0 := b.full0 || hv.1, full1 := b.full1 || hv.2 })) r.1
        .next (cmdDone (dropBgCmd s1 st id) c.core id c.tag .bank (BitVec.ofNat 64 c.stat) c.block none c.node)

/-! ## Stops (R92, R93) -/

/-- The run that an engine executes. -/
def runOf (s : State) (k : Nat) : Option BgCmd :=
  match (getBge s k).run with
  | none => none
  | some id => (getStack s (bgeStack k)).cmdq.find? (·.id = id)
/-- Ordinal of an engine in a run. -/
def ordOf (c : BgCmd) (k : Nat) : Nat := (c.set.findIdx? (· = k)).getD 0
/-- Elements of a slice of a DOT (R82). -/
def dotPer (mx4 : Bool) : Nat := if mx4 then 64 else 16
/-- Elements that the DOT under way has completed. -/
def dotDone (b : Bge) : Nat :=
  match b.stream with
  | some ⟨.dot mx4 _ _ len, n, _⟩ => min len (n * dotPer mx4)
  | _ => 0
/-- One engine stops with a status (R92). DESIGN CHOICE (log 94): MIDX of a stop that a running stream causes is the engine's PC, the next or
the held move, not the move that began the stream; MIDX of NOPROG is ENTRY. -/
def stopOne (s : State) (k stat hcode : Nat) : State :=
  match runOf s k with
  | none => s
  | some c =>
    let b := getBge s k
    let x : BgStop := { stat := stat, midx := b.pc % 256, hcode := hcode, row := b.rowptr, col := b.colptr, ddone := dotDone b, tstop := s.time.now }
    modBgCmd (modBge s k (fun y => { y with run := none, stream := none })) (bgeStack k) c.id (fun y =>
      { y with stops := tset y.stops (ordOf c k) x })
/-- Whether an engine of a run stops when the run does: it still runs, and its clock too, unless the controller ends the program (R61). -/
def stopsWith (s : State) (c : BgCmd) (stat j : Nat) : Bool :=
  (getBge s j).run = some c.id && (stat = 3 || !(getBge s j).stopped)
/-- One engine stops, and with it the others of its run: with the same lease status, or with STOPPED (R93). -/
def stopRun (s : State) (k stat hcode : Nat) : State :=
  match runOf s k with
  | none => s
  | some c =>
    let s1 := stopOne s k stat hcode
    if stat = 0 then s1
    else (c.set.filter (· ≠ k)).foldl (fun a j => if stopsWith a c stat j then stopOne a j (if stat ≤ 3 then stat else 10) 0 else a) s1
/-- Every engine of a run stops with a status. -/
def stopAll (s : State) (c : BgCmd) (stat : Nat) : State :=
  c.set.foldl (fun a j => if stopsWith a c stat j then stopOne a j stat 0 else a) s

/-! ## Rows (R79, R80) -/

/-- Handles of a run's leases (Table 4.13). -/
def runLeases (blk : Nat) : List Nat := (List.range (bitsOf blk 208 6)).map (fun i => bitsOf blk (512 + 16 * i) 16)
/-- Whether an entry of the row-translation cache holds a virtual page for a lease. -/
def rowHit (p x : Nat) (e : RowEntry) : Bool := e.lease = x && e.vpage ≤ p && p < e.vpage + e.count
/-- A row that an access reaches: local address of the row in bank 0 of the group, index of the lease, and the row set's index in it. -/
inductive RowRes where
  | ok (la lease idx : Nat)
  | bad (stat : Nat)
  /-- The row's lease is ENDING: the program is stopping and reaches no row (Table 3.6, log 100). -/
  | ending
/-- Row `n` of an engine's banks (R59, R63, R79). DESIGN CHOICE (log 96): the cache is looked up before the bank group is compared, so a row
set of another channel that has no entry gives XMISS. -/
def rowAt (s : State) (k : Nat) (c : BgCmd) (n : Nat) : RowRes :=
  let va := (bitsOf c.blk 64 64 + n * 2 ^ 21 + bgeCh k * 65536 + bgeBg k * 4096) % 2 ^ 64
  let p := va / 65536
  let st := bgeStack k
  let hs := (runLeases c.blk).zipIdx.filterMap (fun h => (leaseNamed s st h.1).map (fun l => (l, h.2, bitsOf h.1 0 7)))
  match hs.find? (fun x => x.1.vbase / 65536 ≤ p && p < x.1.vbase / 65536 + x.1.rowSets.length) with
  | none => .bad 4
  | some (l, i, x) =>
    if l.st = .ending then .ending
    else if l.st ≠ .held then .bad 4
    else match (getStack s st).rowCache.find? (rowHit p x) with
      | none => .bad 5
      | some e =>
        let rs := e.rowSet + (p - e.vpage)
        if rs % 32 ≠ bgeCh k || rs / 2 ^ 20 ≠ st then .bad 4
        else .ok (rs * 65536 + bgeBg k * 4096) i (p - l.vbase / 65536)
/-- The row-translation entry that an engine's row pointer used put first, as used last (R63). -/
def touchRow (s : State) (k : Nat) (c : BgCmd) : State :=
  match rowAt s k c (getBge s k).rowptr with
  | .ok _ i idx =>
    let x := bitsOf ((runLeases c.blk).getD i 0) 0 7
    let hit := rowHit ((leaseEntry s (bgeStack k) x).vbase / 65536 + idx) x
    modStack s (bgeStack k) (fun q =>
      match q.rowCache.find? hit with
      | some e => { q with rowCache := e :: q.rowCache.filter (fun y => !(hit y)) }
      | none => q)
  | _ => s
/-- A slice of a bank: its 32 bytes, and whether its sector is poisoned. -/
def sliceRead (s : State) (la bank col : Nat) : Nat × Bool :=
  let a := la + bank * 1024 + col * 32
  (cellsRead s.mem.cells a 32, s.mem.poison.contains (a / 32))
/-- Bytes of a slice written by the bank path: the whole slice clears its poison (R65, R86). -/
def sliceWrite (s : State) (la bank col off n v : Nat) : State :=
  let a := la + bank * 1024 + col * 32 + off
  { s with mem :=
    { cells := cellsWrite s.mem.cells a n v,
      poison := if n = 32 then s.mem.poison.filter (· ≠ a / 32) else s.mem.poison } }
/-- A row written by a run noted for WROW, WOVF and WMASK (R55, R95). -/
def noteRow (s : State) (k : Nat) (c : BgCmd) (i idx bank : Nat) : State :=
  let st := bgeStack k
  match leaseNamed s st ((runLeases c.blk).getD i 0) with
  | none => s
  | some l =>
    let me := l.rowSets.getD idx 0
    let h := (l.rowSets.filter (fun r => r % 32 = bgeCh k && r < me)).length
    let s1 := modLease s st (bitsOf ((runLeases c.blk).getD i 0) 0 7) (fun y =>
      { y with wmask := tset y.wmask idx (Nat.lor (tgetD y.wmask idx 0) (2 ^ (bgeBg k * 4 + bank))) })
    let g := ordOf c k
    modBgCmd s1 st c.id (fun y =>
      if h < 2 then { y with wrow := if y.wrow.contains (g, bank, 2 * i + h) then y.wrow else y.wrow ++ [(g, bank, 2 * i + h)] }
      else { y with wovf := natInsert y.wovf g })
/-- An engine's pointers after one more slice; ROWPTR has 16 bits (Table 4.1). -/
def ptrStep (b : Bge) : Bge := if b.colptr = 31 then { b with rowptr := (b.rowptr + 1) % 65536, colptr := 0 } else { b with colptr := b.colptr + 1 }

/-! ## Streams (R78 to R86) -/

/-- Whether the half of the vector store that holds an entry is full. -/
def vecFull (b : Bge) (e : Nat) : Bool := if e < 128 then b.full0 else b.full1
/-- Vector entry of element `i` of a DOT. -/
def dotEntry (b : Bge) (i : Nat) : Nat := (bitsOf b.dcfg 4 8 + i / 32) % 256
/-- Whether a DOT's next slice waits for a FULL bit (R81). -/
def dotWaits (b : Bge) (mx4 : Bool) (len n : Nat) : Bool :=
  let i0 := n * dotPer mx4
  let i1 := min len (i0 + dotPer mx4) - 1
  !(vecFull b (dotEntry b i0) && vecFull b (dotEntry b i1))
/-- The product of an element (R82, R83). -/
def dotProd (b : Bge) (mx4 : Bool) (k sl i : Nat) : Nat :=
  let x := bitsOf (tgetD b.vs (dotEntry b i) 0) (16 * (i % 32)) 16
  if mx4 then
    let sc := tgetD b.bs (k * 2048 + (bitsOf b.dcfg 12 11 + i / 32) % 2048) 0x7F
    match e8m0Val sc, fvMul (e2m1Val (bitsOf sl (4 * (i % 64)) 4)) (e8m0Val sc) with
    | .nan _, _ => fmtNan fmt32
    | _, some v => (fMulV fmt32 .rne v (fUnpack fmtB16 x)).1
    | _, none => fmtNan fmt32
  else mul32 (to32 fmtB16 (bitsOf sl (16 * (i % 16)) 16)) (to32 fmtB16 x)
/-- Elements `i`, `i + 1`, … of a slice added into a bank's accumulator in ascending order. -/
def dotGo (b : Bge) (mx4 init : Bool) (k sl : Nat) : Nat → Nat → Nat → Nat
  | 0, _, acc => acc
  | n + 1, i, acc =>
    let p := dotProd b mx4 k sl i
    dotGo b mx4 init k sl n (i + 1) (if i = 0 && init then p else add32 acc p)
/-- FULL bits cleared by STRM when a slice has been used: between elements `i` and `i + 1` the stream passes to an entry of the
other half (R81). -/
def strmClear (b : Bge) (len i0 n : Nat) : Bge :=
  (rangeFrom i0 n).foldl (fun a i =>
    if i + 1 < len && dotEntry b i / 128 ≠ dotEntry b (i + 1) / 128 then
      (if dotEntry b i < 128 then { a with full0 := false } else { a with full1 := false })
    else a) b
/-- Length of a stream in slices. -/
def streamLen (t : StreamKind) : Nat :=
  match t with
  | .dot mx4 _ _ len => (len + dotPer mx4 - 1) / dotPer mx4
  | .bsld n _ => n
  | .accst _ _ | .accld _ _ => 1
/-- Whether a stream's next slice waits for a FULL bit. -/
def streamWaits (b : Bge) (t : Stream) : Bool :=
  match t.kind with
  | .dot mx4 _ _ len => dotWaits b mx4 len t.slices
  | _ => false
/-- Banks whose slice a stream reads. -/
def streamReads (t : StreamKind) : List Nat :=
  match t with
  | .dot _ _ _ _ | .bsld _ _ => [0, 1, 2, 3]
  | .accld _ k => [k]
  | .accst _ _ => []
/-- What a slice of a stream does in the engine: `sl` gives each bank's 32 bytes. -/
def sliceEffect (b : Bge) (t : Stream) (sl : Nat → Nat) : Bge :=
  match t.kind with
  | .dot mx4 init strm len =>
    let i0 := t.slices * dotPer mx4
    let n := min len (i0 + dotPer mx4) - i0
    let aq := bitsOf b.dcfg 0 4
    let b1 := { b with acc := (List.range 4).foldl (fun a k => tset a (4 * aq + k) (dotGo b mx4 init k (sl k) n i0 (tgetD b.acc (4 * aq + k) 0))) b.acc }
    if strm then strmClear b1 len i0 n else b1
  | .bsld _ f =>
    { b with bs := (List.range 4).foldl (fun a k => (List.range 32).foldl (fun q j =>
        tset q (k * 2048 + (32 * (f + t.slices) + j) % 2048) (bitsOf (sl k) (8 * j) 8)) a) b.bs }
  | .accld q k => { b with acc := (List.range 8).foldl (fun a j => tset a (8 * q + j) (bitsOf (sl k) (32 * j) 32)) b.acc }
  | .accst _ _ => b
/-- The stream and pointers of an engine after one more slice. -/
def sliceNext (b : Bge) (t : Stream) : Bge :=
  { ptrStep b with stream := if t.slices + 1 ≥ streamLen t.kind then none else some { t with slices := t.slices + 1, elems := t.elems } }
/-- One slice of an engine's stream: done, waiting for a FULL bit, or stopped with a status. -/
inductive SliceRes where | done (s : State) | wait | stop (stat : Nat)
def streamSlice (s : State) (k : Nat) (t : Stream) : SliceRes :=
  let b := getBge s k
  if streamWaits b t then .wait
  else match runOf s k with
    | none => .wait
    | some c =>
      match rowAt s k c b.rowptr with
      | .bad st => .stop st
      | .ending => .wait
      | .ok la i idx =>
        if (streamReads t.kind).any (fun q => (sliceRead s la q b.colptr).2) then .stop 6
        else
          let s0 := touchRow s k c
          let s1 := modStack s0 (bgeStack k) (fun x => { x with taken := x.taken.filter (·.1 ≠ k) })
          let s2 := modBge s1 k (fun _ => sliceNext (sliceEffect b t (fun q => (sliceRead s la q b.colptr).1)) t)
          match t.kind with
          | .accst q bk =>
            let v := (List.range 8).foldl (fun a j => a + tgetD b.acc (8 * q + j) 0 * 2 ^ (32 * j)) 0
            .done (noteRow (sliceWrite s2 la bk b.colptr 0 32 v) k c i idx bk)
          | _ => .done s2
/-- Slices of an engine's stream until it ends, waits or stops; `n` bounds them. -/
def streamGo (k : Nat) : Nat → State → State
  | 0, s => s
  | n + 1, s =>
    match (getBge s k).stream with
    | none => s
    | some t =>
      match streamSlice s k t with
      | .done s1 => streamGo k n s1
      | .wait => s
      | .stop st => stopRun s k st 0
/-- Slices that a running stream has left. -/
def streamLeft (b : Bge) : Nat := match b.stream with | some t => streamLen t.kind - t.slices | none => 0

/-! ## Ports (Table 4.4) -/

/-- Whether a port can be read, or written. -/
def portReads (p : Nat) : Bool := p ≤ 0x13 || p = 0x1A || p = 0x1F || p = 0x27
def portWrites (p : Nat) : Bool :=
  p ≤ 0x0D || (0x14 ≤ p && p ≤ 0x19) || (0x1B ≤ p && p ≤ 0x1E) || (0x20 ≤ p && p ≤ 0x26) || (0x28 ≤ p && p ≤ 0x2F)
/-- MOD bits that a port takes. -/
def portMod (p : Nat) : Nat :=
  if 0x10 ≤ p && p ≤ 0x17 then 7
  else match p with
    | 0x19 => 1 | 0x1C => 0x1F | 0x1E => 3 | 0x25 => 7 | 0x27 => 0x3F | 0x28 => 0x3F | 0x2A => 0x3F
    | _ => 0
/-- A move: guard, destination, source port or immediate value, MOD (Table 4.3). -/
structure BgMove where
  gn : Bool
  gsel : Nat
  dst : Nat
  src : Option Nat
  imm : Nat
  md : Nat
  deriving DecidableEq, Repr
/-- ILLEGAL (R75, R76). -/
def moveIllegal (m : BgMove) : Bool :=
  let allowed := Nat.lor (portMod m.dst) (match m.src with | some p => portMod p | none => 0)
  (m.gn && m.gsel = 0) || !(portWrites m.dst)
    || (match m.src with | some p => !(portReads p) | none => false)
    || Nat.land m.md allowed ≠ m.md
    || (m.dst = 0x1C && bitsOf m.md 2 3 ≥ 6) || (m.dst = 0x1E && bitsOf m.md 0 2 = 3)
/-- RANGE of an operand at a destination (Table 4.4, R84, R86, R87); `rstr` is RSTR of the run. -/
def moveRange (dst x rstr : Nat) : Bool :=
  if 0x08 ≤ dst && dst ≤ 0x0B then x > 65535
  else match dst with
    | 0x0C => x > 31
    | 0x0D => x ≥ 2 ^ 23
    | 0x20 | 0x21 | 0x22 | 0x23 => x > 247
    | 0x24 => x > 255
    | 0x25 => x > 65535
    | 0x26 | 0x29 => x > 15
    | 0x2A => x ≥ 2 ^ 24
    | 0x2B => x ≥ 2 ^ 13 || bitsOf x 0 7 = 0 || bitsOf x 0 7 > 64
    | 0x2C => x ≥ 2 ^ 28 || bitsOf x 0 6 + bitsOf x 6 6 + 1 > 64 || 4 * (bitsOf x 12 16 + bitsOf x 6 6 + 1) > rstr
    | 0x2D | 0x2E => x ≥ 32
    | 0x2F => x > 2
    | _ => false
/-- The guard on an engine's state (R73). -/
def guardOk (b : Bge) (m : BgMove) : Bool :=
  let v := if m.gsel = 0 then true else if m.gsel ≤ 4 then b.c.getLsbD (m.gsel - 1) else tgetD b.l (m.gsel - 5) 0 ≠ 0
  v != m.gn
/-- Accumulators that a stream uses (R78). -/
def streamAccs (b : Bge) (t : StreamKind) : List Nat :=
  match t with
  | .dot _ _ _ _ => rangeFrom (4 * bitsOf b.dcfg 0 4) 4
  | .bsld _ _ => []
  | .accst q _ | .accld q _ => rangeFrom (8 * q) 8
/-- Accumulators that a destination names for an operand, and those a source names. -/
def moveAccs (m : BgMove) (x : Nat) : List Nat :=
  (if m.src = some 0x27 then [bitsOf m.md 0 6] else [])
    ++ (match m.dst with
        | 0x28 => [bitsOf m.md 0 6]
        | 0x26 | 0x29 => rangeFrom (4 * x) 4
        | 0x2C => rangeFrom (bitsOf x 0 6) (bitsOf x 6 6 + 1)
        | _ => [])
/-- Whether a port is one that waits for the running stream whatever its operand (R78, HALT of Table 4.4). -/
def portHeld (p : Nat) : Bool :=
  (0x0B ≤ p && p ≤ 0x0D) || (0x10 ≤ p && p ≤ 0x17) || p = 0x24 || p = 0x25 || (0x2B ≤ p && p ≤ 0x2F && p ≠ 0x2C)
/-- Whether a move whose guard is true stalls on the running stream before its source is read. -/
def moveHeld (b : Bge) (m : BgMove) : Bool :=
  match b.stream with
  | none => false
  | some t =>
    portHeld m.dst || (match m.src with | some p => portHeld p || (p = 0x27 && (streamAccs b t.kind).contains (bitsOf m.md 0 6)) | none => false)
/-- Whether it stalls on an accumulator once its operand is known. -/
def moveHeldAcc (b : Bge) (m : BgMove) (x : Nat) : Bool :=
  match b.stream with
  | none => false
  | some t => (moveAccs m x).any (streamAccs b t.kind).contains

/-- The value a source port reads (R79 for RDk, which may stop the engine). -/
inductive SrcRes where | val (x : Nat) | stop (stat : Nat) | wait
def portRead (s : State) (k : Nat) (c : BgCmd) (p md : Nat) : SrcRes :=
  let b := getBge s k
  if p < 8 then .val (tgetD b.g p 0)
  else if p < 0x0B then .val (tgetD b.l (p - 8) 0)
  else match p with
    | 0x0B => .val b.rowptr
    | 0x0C => .val b.colptr
    | 0x0D => .val b.dcfg
    | 0x0E => .val (ordOf c k + bgeCh k * 2 ^ 16 + bgeBg k * 2 ^ 21 + bgeStack k * 2 ^ 25)
    | 0x0F => .val (b.clock % 2 ^ 32)
    | 0x1A => .val b.addq
    | 0x1F => .val b.shfq
    | 0x27 => .val (tgetD b.acc (bitsOf md 0 6) 0)
    | _ =>
      match rowAt s k c b.rowptr with
      | .bad st => .stop st
      | .ending => .wait
      | .ok la _ _ =>
        let r := sliceRead s la (p % 4) b.colptr
        if r.2 then .stop 6 else .val (bitsOf r.1 (32 * bitsOf md 0 3) 32)
/-- Two's complement value of 32 bits. -/
def sval32 (x : Nat) : Int := toSigned 32 x
/-- CMP's conditions. -/
def bankCond (cc a x : Nat) : Bool :=
  match cc with
  | 0 => a = x | 1 => a ≠ x | 2 => a < x | 3 => a ≥ x
  | 4 => sval32 a < sval32 x | _ => sval32 a ≥ sval32 x
/-- SHF's kinds. -/
def bankShift (kind a x : Nat) : Nat :=
  match kind with
  | 0 => if x ≥ 32 then 0 else a * 2 ^ x % 2 ^ 32
  | 1 => if x ≥ 32 then 0 else a / 2 ^ x
  | _ => ((BitVec.ofNat 32 a).sshiftRight (min x 32)).toNat
/-- SCL (R85). -/
def bankScl (b : Bge) (x : Nat) : Bge :=
  { b with acc := (rangeFrom (4 * x) 4).foldl (fun a i =>
      let sc := tgetD b.chs i 0x3F8038
      tset a i (mul32 (mul32 (tgetD b.acc i 0) (to32 fmtE4m3 (bitsOf sc 0 8))) (to32 fmtB16 (bitsOf sc 8 16)))) b.acc }
/-- A plain effect of a write to a port on the engine alone (R76). -/
def portStore (b : Bge) (dst x md : Nat) : Bge :=
  if dst < 8 then { b with g := tset b.g dst x }
  else if dst < 0x0B then { b with l := tset b.l (dst - 8) x }
  else match dst with
    | 0x0B => { b with rowptr := x }
    | 0x0C => { b with colptr := x }
    | 0x0D => { b with dcfg := x }
    | 0x18 => { b with addo := x }
    | 0x19 => { b with addq := (if bitsOf md 0 1 = 1 then b.addo + 2 ^ 32 - x else b.addo + x) % 2 ^ 32 }
    | 0x1B => { b with cmpo := x }
    | 0x1C => { b with c := if bankCond (bitsOf md 2 3) b.cmpo x then b.c ||| ((1 : BitVec 4) <<< bitsOf md 0 2) else b.c &&& ~~~((1 : BitVec 4) <<< bitsOf md 0 2) }
    | 0x1D => { b with shfo := x }
    | 0x1E => { b with shfq := bankShift (bitsOf md 0 2) b.shfo x }
    | 0x25 => if x = 0 then b else { b with stream := some ⟨.dot (bitsOf md 0 1 = 1) (bitsOf md 1 1 = 1) (bitsOf md 2 1 = 1) x, 0, 0⟩ }
    | 0x26 => { b with acc := (rangeFrom (4 * x) 4).foldl (fun a i => tset a i 0) b.acc }
    | 0x28 => { b with acc := tset b.acc (bitsOf md 0 6) x }
    | 0x29 => bankScl b x
    | 0x2A => { b with chs := tset b.chs (bitsOf md 0 6) x }
    | 0x2B => { b with stream := some ⟨.bsld (bitsOf x 0 7) (bitsOf x 7 6), 0, 0⟩ }
    | 0x2D => { b with stream := some ⟨.accst (bitsOf x 0 3) (bitsOf x 3 2), 0, 0⟩ }
    | 0x2E => { b with stream := some ⟨.accld (bitsOf x 0 3) (bitsOf x 3 2), 0, 0⟩ }
    | 0x2F => { b with full0 := b.full0 && x = 1, full1 := b.full1 && x = 0 }
    | _ => b
/-- The next move index after a move (R74, R76): PC and a taken LPj jump. -/
def movePc (b : Bge) (m : BgMove) (x : Nat) : Nat :=
  match m.dst with
  | 0x20 => x
  | 0x21 | 0x22 | 0x23 => if tgetD b.l (m.dst - 0x21) 0 > 1 then x else b.pc + 1
  | _ => b.pc + 1

/-- What a move comes to in one engine. -/
inductive MoveRes where
  /-- Carried out: the state, and the next move index. -/
  | next (s : State) (pc : Nat)
  | stall
  | stop (stat hcode : Nat)
/-- 32-bit words in one number, the first lowest. -/
def packWords : List Nat → Nat
  | [] => 0
  | w :: t => w % 2 ^ 32 + 2 ^ 32 * packWords t
/-- The write of an operand to the destination of a move. A partial-sum return is one write of the engine (R87, R163). -/
def moveWrite (s : State) (k : Nat) (c : BgCmd) (m : BgMove) (x : Nat) : MoveRes :=
  let b := getBge s k
  if m.dst = 0x24 then .stop 0 x
  else if 0x14 ≤ m.dst && m.dst ≤ 0x17 then
    match rowAt s k c b.rowptr with
    | .bad st => .stop st 0
    | .ending => .stall
    | .ok la i idx => .next (noteRow (sliceWrite s la (m.dst % 4) b.colptr (4 * bitsOf m.md 0 3) 4 x) k c i idx (m.dst % 4)) (b.pc + 1)
  else if 0x21 ≤ m.dst && m.dst ≤ 0x23 then
    .next (modBge s k (fun y => { y with l := tset y.l (m.dst - 0x21) (tgetD y.l (m.dst - 0x21) 0 - 1) })) (movePc b m x)
  else if m.dst = 0x2C then
    let a := bitsOf x 0 6
    let base := bitsOf c.blk 224 32 + ordOf c k * bitsOf c.blk 256 16 + 4 * bitsOf x 12 16
    let n := bitsOf x 6 6 + 1
    .next (spadWrite s c.core c.block base (4 * n) (packWords ((List.range n).map (fun j => tgetD b.acc (a + j) 0))) true) (b.pc + 1)
  else .next (modBge s k (fun y => portStore y m.dst x m.md)) (movePc b m x)
/-- One move in one engine of a run (R74 to R76, R78). -/
def moveIn (s : State) (k : Nat) (c : BgCmd) (m : BgMove) : MoveRes :=
  let b := getBge s k
  let rstr := bitsOf c.blk 256 16
  if moveIllegal m then .stop 7 0
  else if m.src.isNone && moveRange m.dst m.imm rstr then .stop 8 0
  else if !(guardOk b m) then .next s (b.pc + 1)
  else if moveHeld b m then .stall
  else match (match m.src with | some p => portRead s k c p m.md | none => .val m.imm) with
    | .stop st => .stop st 0
    | .wait => .stall
    | .val x =>
      if moveRange m.dst x rstr then .stop 8 0
      else if moveHeldAcc b m x then .stall
      else moveWrite s k c m x

/-- Whether a move of an engine names its row now: RDk or WDk, its guard true (R63). -/
def moveRow (b : Bge) (m : BgMove) : Bool :=
  guardOk b m && !(moveHeld b m) && ((0x14 ≤ m.dst && m.dst ≤ 0x17) || (match m.src with | some p => 0x10 ≤ p && p ≤ 0x13 | none => false))
/-- The row entry that a move uses noted as used last, then the move (R63). -/
def moveDo (s : State) (k : Nat) (c : BgCmd) (m : BgMove) : State × MoveRes :=
  let s1 := if moveRow (getBge s k) m then touchRow s k c else s
  (s1, moveIn s1 k c m)
/-- The engine's next move index set; past the last move the engine stops with ILLEGAL (R74). -/
def setPc (s : State) (k pc : Nat) : State :=
  let s1 := modBge s k (fun b => { b with pc := pc })
  if pc ≥ (getBge s k).moves.length then stopRun s1 k 7 0 else s1
/-- A move of the engine in focus (R74, R89): refused when no engine that runs a program of its own is in focus. A held row
buffer or a refresh changes only time; an engine whose clock has stopped does nothing (R61). -/
def bankMove (s : State) (m : BgMove) : Out :=
  match s.bfocus with
  | none => .refused .noPath
  | some k =>
    match runOf s k with
    | none => .refused .noPath
    | some c =>
      if (getBge s k).stopped then .next s
      else
        let r := moveDo s k c m
        match r.2 with
        | .next s1 pc => .next (setPc s1 k pc)
        | .stall => .next r.1
        | .stop st hc => .next (stopRun r.1 k st hc)
/-- BANK_MOVE_PORT (R74). -/
def execBankMovePort (gn : Bool) (gsel : Fin 8) (dst src : BitVec 7) (md : BitVec 13) (s : State) : Out :=
  bankMove s ⟨gn, gsel.val, dst.toNat, some src.toNat, 0, md.toNat⟩
/-- BANK_MOVE_IMMEDIATE (R74). -/
def execBankMoveImmediate (gn : Bool) (gsel : Fin 8) (dst : BitVec 7) (imm : BitVec 16) (md : BitVec 4) (s : State) : Out :=
  bankMove s ⟨gn, gsel.val, dst.toNat, none, imm.toNat, md.toNat⟩
/-- The move that a word encodes (Table 4.3). -/
def moveOfWord (w : Nat) : BgMove :=
  match decodeMoveNat w with
  | .bankMovePort gn gs d sr md => ⟨gn, gs.val, d.toNat, some sr.toNat, 0, md.toNat⟩
  | .bankMoveImmediate gn gs d im md => ⟨gn, gs.val, d.toNat, none, im.toNat, md.toNat⟩
  | _ => ⟨true, 0, 0, none, 0, 0⟩
/-- BANK_STREAM_END (R80): the slices of an engine's stream are done, as far as no FULL bit holds it; streams of a chime go on
step by step. -/
def execBankStreamEnd (k : Nat) (s : State) : Out :=
  match runOf s k with
  | none => .next s
  | some c => if bitsOf c.blk 192 1 = 1 || (getBge s k).stopped then .next s else .next (streamGo k (streamLeft (getBge s k)) s)

/-! ## Starting a run (R102) -/

/-- The row-translation entries of a lease, one for each page in ascending address (R102). -/
def leasePages (l : Lease) (x : Nat) : List RowEntry :=
  l.rowSets.zipIdx.foldl (fun (a : List RowEntry) r =>
    let p := l.vbase / 65536 + r.2
    let b := l.pages.getD r.2 16
    match a.getLast? with
    | some e =>
      if e.vpage * 65536 / 2 ^ b = p * 65536 / 2 ^ b then a.dropLast ++ [{ e with count := e.count + 1 }]
      else a ++ [{ vpage := p, rowSet := r.1, lease := x }]
    | none => [{ vpage := p, rowSet := r.1, lease := x }]) []
/-- The row-translation entries of a run's leases, in LEASE order and ascending address. -/
def leaseRows (s : State) (st : Nat) (blk : Nat) : List RowEntry :=
  ((runLeases blk).map (fun h => match leaseNamed s st h with
    | some l => leasePages l (bitsOf h 0 7)
    | none => [])).flatten
/-- Whether a running program names a lease: its entry, with the generation that the entry has now (R53, R61, R63). -/
def leaseBusy (s : State) (st x : Nat) : Bool :=
  (getStack s st).cmdq.any (fun c => c.kind = .run && c.started && anyRunning s c.set
    && (runLeases c.blk).any (fun h => bitsOf h 0 7 = x && (leaseNamed s st h).isSome))
/-- One entry put into the cache of 1,024 for a starting run with its leases: the least recently used entry of a lease with no running
program, nor of that run, makes room; none when only such entries remain (R63, R102). -/
def rowPut (s : State) (st : Nat) (own : List Nat) (e : RowEntry) : Option State :=
  let l := (getStack s st).rowCache.filter (fun x => !(x.vpage = e.vpage && x.lease = e.lease))
  if l.length < 1024 then some (modStack s st (fun k => { k with rowCache := e :: l }))
  else match (l.reverse.find? (fun x => !(leaseBusy s st x.lease) && !(own.contains x.lease))) with
    | none => none
    | some v => some (modStack s st (fun k => { k with rowCache := e :: l.filter (· ≠ v) }))
def rowFill (s : State) (st : Nat) (own : List Nat) : List RowEntry → State
  | [] => s
  | e :: t => match rowPut s st own e with | some s1 => rowFill s1 st own t | none => s
/-- ARG of a BGRUN (R102). DESIGN CHOICE (log 109): a LEASE[i] with i at or above NLEASE that is not 0 counts as a reserved bit that is not 0. -/
def runArg (c : BgCmd) : Bool :=
  let b := c.blk
  let n := bitsOf b 208 6
  let rsp := bitsOf b 224 32
  let rstr := bitsOf b 256 16
  setBad b || bitsOf b 193 7 ≠ 0 || bitsOf b 214 10 ≠ 0 || bitsOf b 272 16 ≠ 0 || bitsOf b 416 96 ≠ 0
    || bitsOf b 64 64 % 2 ^ 21 ≠ 0 || n = 0 || n > 32 || (List.range 32).any (fun i => i ≥ n && bitsOf b (512 + 16 * i) 16 ≠ 0)
    || rsp % 4 ≠ 0 || rstr % 4 ≠ 0 || rsp + c.set.length * rstr > c.spad
/-- An engine that starts (Table 4.1). -/
def startBge (c : BgCmd) (b : Bge) : Bge :=
  { b with g := (List.range 4).map (fun i => (i, bitsOf c.blk (288 + 32 * i) 32)), l := [], c := 0, rowptr := 0, colptr := 0, dcfg := 0,
           addo := 0, addq := 0, cmpo := 0, shfo := 0, shfq := 0, pc := bitsOf c.blk 200 8, stream := none, run := some c.id }
/-- Whether an engine's store serves a run (Table 4.6, NOPROG). -/
def progOk (b : Bge) (c : BgCmd) : Bool := b.valid && bitsOf c.blk 200 8 < b.moves.length
/-- The run starts in every engine; one without a program stops at once, and the others with it (R90, R93, R102). -/
def startRun (s : State) (st : Nat) (c : BgCmd) : State :=
  let ls := (runLeases c.blk).filterMap (leaseNamed s st)
  let e := (ls.filter (·.st = .held)).foldl (fun a l => if a = 0 then l.e else min a l.e) 0
  let s1 := rowFill s st ((runLeases c.blk).map (fun h => bitsOf h 0 7)) (leaseRows s st c.blk)
  let s2 := c.set.foldl (fun a k => modBge a k (startBge c)) s1
  let s3 := modBgCmd s2 st c.id (fun x => { x with started := true, tstart := s.time.now, e := e, pc := bitsOf c.blk 200 8 })
  let bad := if bitsOf c.blk 192 1 = 1 then
      (if progOk (getBge s3 (c.set.headD 0)) c then [] else c.set)
    else c.set.filter (fun k => !(progOk (getBge s3 k) c))
  if bad.isEmpty then s3
  else
    let s4 := bad.foldl (fun a k => stopOne a k 11 0) s3
    c.set.foldl (fun a k => if (getBge a k).run = some c.id then stopOne a k 10 0 else a) s4
/-- BGRUN_START (R102): the checks in order, then the wait for leases in hand-over and for running engines, then the start. A refused
command has free values for TSTART and TEND: Table 4.7 gives the times of a block that has started (log 8). DESIGN CHOICE (log 110): while
the command waits the checks are made again at each try, so a lease that has become ENDING or FREE meanwhile ends it WRONG or STALE. -/
def execBgrunStart (st id : Nat) (s : State) : Out :=
  match bgCmd s st id with
  | none => .next s
  | some c =>
    if c.kind ≠ .run || c.started || c.stat ≠ 0 || !(bgTurn s st c) then .next s
    else
      let hs := runLeases c.blk
      let ls := hs.map (leaseNamed s st)
      let f1 := drawFree s
      let f2 := drawFree f1.2
      let fin := fun (v : Nat) => Host.Outcome.next (modBgCmd f2.2 st id (fun x => { x with stat := v, tstart := f1.1.toNat, tend := f2.1.toNat }))
      if runArg c then fin 1
      else if ls.any (fun l => match l with | some x => x.st = .free | none => true) then fin 2
      else if ls.any (fun l => match l with | some x => (match x.st with | .ending | .returning => true | _ => false) | none => false) || hs.eraseDups.length ≠ hs.length then fin 3
      else if ls.any (fun l => match l with | some x => (match x.st with | .giving _ => true | _ => false) | none => false) then .next s
      else if anyRunning s c.set then .next s
      else .next (startRun s st c)

/-! ## The completion record (R94) -/

/-- FIRST and NBAD of a run. -/
def runFirst (c : BgCmd) : Nat := match c.stops.find? (fun x => x.2.stat ≠ 0) with | some x => x.2.stat | none => 0
def runNbad (c : BgCmd) : Nat := (c.stops.filter (fun x => x.2.stat ≠ 0)).length
/-- The header of the record (Table 4.7); TSTART and TEND of a refused command are free values (log 8). -/
def recHeader (c : BgCmd) : Nat :=
  let ran := c.stat = 0
  let tend := c.stops.foldl (fun a x => max a x.2.tstop) 0
  c.stat + (if ran then runFirst c * 2 ^ 8 + runNbad c * 2 ^ 16 + c.set.length * 2 ^ 32 + c.tstart * 2 ^ 64 + tend * 2 ^ 128
    else c.set.length * 2 ^ 32 + c.tstart * 2 ^ 64 + c.tend * 2 ^ 128)
/-- An entry of the record (Table 4.8). -/
def recEntry (c : BgCmd) (g : Nat) : Nat :=
  let x := tgetD c.stops g ⟨0, 0, 0, 0, 0, 0, 0⟩
  let wrow := fun (b : Nat) => (c.wrow.filter (fun w => w.1 = g && w.2.1 = b)).foldl (fun a w => a + 2 ^ w.2.2) 0
  x.stat + x.midx * 2 ^ 8 + x.hcode * 2 ^ 16 + x.row % 65536 * 2 ^ 24 + x.col * 2 ^ 40 + (if c.wovf.contains g then 2 ^ 45 else 0)
    + x.ddone * 2 ^ 48 + x.tstop * 2 ^ 64 + wrow 0 * 2 ^ 128 + wrow 1 * 2 ^ 192 + wrow 2 * 2 ^ 256 + wrow 3 * 2 ^ 320
/-- Size and value of the record: entries only for RAN. -/
def recordOf (c : BgCmd) : Nat × Nat :=
  if c.stat ≠ 0 then (64, recHeader c)
  else (64 + 48 * c.set.length, (List.range c.set.length).foldl (fun a g => a + recEntry c g * 2 ^ (8 * (64 + 48 * g))) (recHeader c))
/-- BANK_RUN_END (R93, R94, R103): every engine of the run has stopped, or a check failed; the record is written, then the tag
becomes ready. -/
def execBankRunEnd (st id : Nat) (s : State) : Out :=
  match bgCmd s st id with
  | none => .next s
  | some c =>
    if c.kind ≠ .run || !(c.stat ≠ 0 || (c.started && c.stops.length = c.set.length)) then .next s
    else
      let rc := recordOf c
      let w := reportTry s st id c.reported (fun t => modBgCmd t st id (fun x => { x with reported := true }))
        (fun t => spanWrite t none (st / 4) (bitsOf c.blk 128 64) rc.1 rc.2)
      if !w.2 then .next w.1
      else
        let v := BitVec.ofNat 64 (c.stat + (if c.stat = 0 then runFirst c * 2 ^ 8 + runNbad c * 2 ^ 16 else 0))
        .next (cmdDone (dropBgCmd w.1 st id) c.core id c.tag .bank v c.block none c.node)

/-! ## The chime (R90, R91) -/

/-- Whether a destination is one that must agree in every engine (R91). -/
def mustAgree (dst : Nat) : Bool := (0x20 ≤ dst && dst ≤ 0x25) || dst = 0x2B || dst = 0x2D || dst = 0x2E
/-- What R91 compares of a move in one engine: guard outcome, operand, and whether an LPj jumps. DESIGN CHOICE (log 95): a source that cannot
be read gives an operand that no readable one equals, so that a must-agree move whose source only some engines can read ends DIVERGE in all. -/
def agreeKey (s : State) (k : Nat) (c : BgCmd) (m : BgMove) : Bool × Nat × Nat :=
  let b := getBge s k
  if !(guardOk b m) then (false, 0, 0)
  else
    let x := match (match m.src with | some p => portRead s k c p m.md | none => .val m.imm) with | .val v => v | .stop _ => 2 ^ 32 | .wait => 2 ^ 33
    (true, x, if 0x21 ≤ m.dst && m.dst ≤ 0x23 && tgetD b.l (m.dst - 0x21) 0 > 1 then 1 else 0)
/-- The move of a chime carried to every engine (R90, R91). DESIGN CHOICE (log 95): guards that differ rank before an immediate out of
range, so such a move ends DIVERGE and not RANGE. DESIGN CHOICE (log 112): in the step in which one engine's move stops it, the moves of
the others take effect before they stop with STOPPED. -/
def chimeMove (s : State) (st : Nat) (c : BgCmd) (m : BgMove) : State :=
  let keys := c.set.map (fun k => agreeKey s k c m)
  if !(moveIllegal m) && mustAgree m.dst && keys.any (· ≠ keys.headD (false, 0, 0)) then stopAll s c 9
  else
    let res := c.set.foldl (fun (a : State × List (Nat × Nat × Nat) × Nat) k =>
      let r := moveDo a.1 k c m
      match r.2 with
      | .next s1 pc => (s1, a.2.1, pc)
      | .stall => (r.1, a.2.1, a.2.2)
      | .stop sx hc => (r.1, a.2.1 ++ [(k, sx, hc)], a.2.2)) (s, [], c.pc + 1)
    if !res.2.1.isEmpty then
      let s1 := res.2.1.foldl (fun a x => stopOne a x.1 x.2.1 x.2.2) res.1
      c.set.foldl (fun a k => if (getBge a k).run = some c.id then stopOne a k 10 0 else a) s1
    else
      let pc := res.2.2
      let s1 := c.set.foldl (fun a k => modBge a k (fun b => { b with pc := pc })) (modBgCmd res.1 st c.id (fun x => { x with pc := pc }))
      if pc ≥ (getBge s (c.set.headD 0)).moves.length then stopAll s1 c 7 else s1
/-- One slice of every running stream of a chime; engines that stop keep their status and stop the others. -/
def chimeSlices (s : State) (c : BgCmd) : State :=
  let res := c.set.foldl (fun (a : State × List (Nat × Nat)) k =>
    match (getBge a.1 k).stream with
    | none => a
    | some t =>
      match streamSlice a.1 k t with
      | .done s1 => (s1, a.2)
      | .wait => a
      | .stop sx => (a.1, a.2 ++ [(k, sx)])) (s, [])
  if res.2.isEmpty then res.1
  else
    let s1 := res.2.foldl (fun a x => stopOne a x.1 x.2 0) res.1
    c.set.foldl (fun a k => if (getBge a k).run = some c.id then stopOne a k 10 0 else a) s1
/-- Whether an engine can take no step of a chime: its clock has stopped, its stream waits for a FULL bit, or the stream's row belongs to
an ENDING lease (R61, R90). -/
def chimeWaits (s : State) (c : BgCmd) (k : Nat) : Bool :=
  (getBge s k).stopped || (match (getBge s k).stream with
    | some t => streamWaits (getBge s k) t || (match rowAt s k c (getBge s k).rowptr with | .ending => true | _ => false)
    | none => false)
/-- A step of a chime (R90): every running stream advances by one slice, and the next move is carried to every engine unless it stalls in
one. None while an engine has to wait. -/
def chimeStep (st id : Nat) (s : State) : Option State :=
  match bgCmd s st id with
  | none => none
  | some c =>
    if c.kind ≠ .run || !c.started || bitsOf c.blk 192 1 = 0 || !(anyRunning s c.set) then none
    else if c.set.any (chimeWaits s c) then none
    else
      let m := moveOfWord (((getBge s (c.set.headD 0)).moves[c.pc]?.getD 0).toNat)
      let held := c.set.any (fun k => match moveIn s k c m with | .stall => true | _ => false)
      let s1 := chimeSlices s c
      some (if held || !(c.set.all (fun k => (getBge s1 k).run = some id)) then s1 else chimeMove s1 st c m)
/-- BANK_CHIME_STEP (R90). -/
def execBankChimeStep (st id : Nat) (s : State) : Out := .next ((chimeStep st id s).getD s)
/-- Some more steps of a chime, as far as none has to wait. -/
def chimeGo (st id : Nat) : Nat → State → State
  | 0, s => s
  | n + 1, s => match chimeStep st id s with | some s1 => chimeGo st id n s1 | none => s

/-! ## Refresh, row buffers, clocks (R48, R49, R61) -/

/-- BANK_REFRESH (R48): the engine stalls for 108 cycles, which changes only time. -/
def execBankRefresh (_k _bank : Nat) (s : State) : Out := .next s
/-- BUFFER_TAKE_TIMEOUT (R49): the controller takes a row buffer of a bank for an ordinary request; the engine gives it up
until its next column boundary. -/
def execBufferTakeTimeout (k bank row : Nat) (s : State) : Out :=
  .next (modStack s (bgeStack k) (fun x => { x with taken := x.taken ++ [(k, bank, row)] }))
/-- BGE_CLOCK_STOP (R61). -/
def execBgeClockStop (k : Nat) (s : State) : Out := .next (modBge s k (fun b => { b with stopped := true }))
/-- BGE_LEASE_EXPIRY (R61, R92): an engine's own clock copy has reached its run's E; it stops with EXPIRED at a column boundary,
after some more slices of its stream, which in a chime are steps of every engine (R90). -/
def execBgeLeaseExpiry (k slices : Nat) (s : State) : Out :=
  match runOf s k with
  | none => .next s
  | some c =>
    if c.e = 0 || (getBge s k).clock < c.e || (getBge s k).stopped then .next s
    else
      let n := min slices (streamLeft (getBge s k) - 1)
      let s1 := if bitsOf c.blk 192 1 = 1 then chimeGo (bgeStack k) c.id n s else streamGo k n s
      .next (stopRun s1 k 1 0)

end Sys2Proof.Machine
end

