-- ==== Sys2Proof/Machine/Special.lean ====
section
/-! DEFINITION. The special functions of R253 (Table 10.10). The spec bounds the FP32 result to 2 units in the last place of
the exact value: the exact value is computed in fixed point, and which of the results within the bound the device gives is
a free value of Config, the same for the same input (assumption log 7). -/

namespace Sys2Proof.Machine

/-- Fixed-point scale: 128 fraction bits. -/
def fxOne : Int := 2 ^ 128
/-- Product of two fixed-point numbers. -/
def fxMul (a b : Int) : Int := a * b / 2 ^ 128
/-- ln 2 in fixed point. -/
def fxLn2 : Int := 0xB17217F7D1CF79ABC9E3B39803F2F6AF
/-- π in fixed point. -/
def fxPi : Int := 0x3243F6A8885A308D313198A2E03707344
/-- 2/√π in fixed point. -/
def fxTwoOverSqrtPi : Int := 0x120DD750429B6D11AE3A914FED7FD8688

/-- Σ of a Taylor series: the k-th term is the one before times `x` over `den k`. -/
def fxSeries (x : Int) (den : Nat → Int) : Nat → Nat → Int → Int
  | 0, _, _ => 0
  | n + 1, k, t => t + fxSeries x den n (k + 1) (fxMul t x / den k)

/-- e^x for |x| ≤ 1. -/
def fxExp (x : Int) : Int := fxSeries x (fun k => (k : Int)) 40 1 fxOne
/-- 2^f for 0 ≤ f < 1. -/
def fxExp2 (f : Int) : Int := fxExp (fxMul f fxLn2)
/-- sin y for |y| ≤ π/2. -/
def fxSin (y : Int) : Int := fxSeries (-(fxMul y y)) (fun k => (2 * k : Int) * (2 * k + 1)) 30 1 y
/-- erf y for 0 ≤ y ≤ 6: (2/√π) e^(−y²) Σ (2y²)^n y / (2n+1)!!. -/
def fxErfSum (y : Int) : Int := fxSeries (2 * fxMul y y) (fun k => (2 * k + 1 : Int)) 200 1 y

/-- Bits of log2 of `m` in [1, 2), by repeated squaring: `n` bits still to find. -/
def fxLog2Go : Nat → Int → Int → Int
  | 0, _, acc => acc
  | n + 1, m, acc =>
    let q := fxMul m m
    if q ≥ 2 * fxOne then fxLog2Go n (q / 2) (2 * acc + 1) else fxLog2Go n q (2 * acc)

/-- A real number near a function value: value × 2^exp. -/
abbrev Approx := Int × Int

/-- The fixed-point value of a finite number of magnitude below 2^8. -/
def fxOf (n : Bool) (m : Nat) (e : Int) : Int :=
  let k : Int := if e + 128 ≥ 0 then ((m * 2 ^ (e + 128).toNat : Nat) : Int) else ((m / 2 ^ (-(e + 128)).toNat : Nat) : Int)
  if n then -k else k

/-- 2^x. A value that lies closer to 1 than the scale shows stands just above or below it. -/
def apExp2 (n : Bool) (m : Nat) (e : Int) : Approx :=
  let i : Int := if e ≥ 0 then ((m * 2 ^ e.toNat : Nat) : Int) else ((m / 2 ^ (-e).toNat : Nat) : Int)
  if i ≥ 200 then (1, if n then -300 else 300)
  else if (Nat.log2 m : Int) + e < -100 then (if n then fxOne - 1 else fxOne + 1, -128)
  else
    let x := fxOf n m e
    let fl := x / 2 ^ 128
    (fxExp2 (x - fl * 2 ^ 128), fl - 128)

/-- log2 of a positive number. -/
def apLog2 (m : Nat) (e : Int) : Approx :=
  let l := Nat.log2 m
  let frac := fxLog2Go 110 ((m * 2 ^ (128 - l) : Nat) : Int) 0
  ((((l : Int) + e) * 2 ^ 110 + frac), -110)

/-- sin(πr) for r = ±m × 2^e with |r| ≤ 1/2. -/
def apSinPi (n : Bool) (m : Nat) (e : Int) : Approx :=
  if (Nat.log2 m : Int) + e < -30 then (fxPi * (if n then -(m : Int) else m), e - 128)
  else (fxSin (fxMul (fxOf n m e) fxPi), -128)

/-- x modulo 2, as a fixed-point number with 160 fraction bits in [0, 2). -/
def mod2Fx (n : Bool) (m : Nat) (e : Int) : Int :=
  let k : Int := if e + 160 ≥ 0 then ((m * 2 ^ (e + 160).toNat : Nat) : Int) else ((m / 2 ^ (-(e + 160)).toNat : Nat) : Int)
  (if n then -k else k) % 2 ^ 161

/-- The greatest fixed-point number below 1, for values that lie closer to 1 than the scale shows. -/
def fxBelowOne : Int := fxOne - 1
/-- sin(πx) of x given modulo 2: ±1 at an odd multiple of 1/2, and of smaller magnitude elsewhere. -/
def apSinMod (t : Int) : Approx :=
  let half : Int := 2 ^ 159
  let s : Int := if t ≤ half then t else if t ≤ 3 * half then 2 * half - t else t - 4 * half
  if s.natAbs = 2 ^ 159 then (if s < 0 then -1 else 1, 0)
  else
    let q := apSinPi (s < 0) s.natAbs (-160)
    if q.2 = -128 then (max (-fxBelowOne) (min q.1 fxBelowOne), -128) else q

/-- tanh x; it never reaches 1, nor x. -/
def apTanh (n : Bool) (m : Nat) (e : Int) : Approx :=
  let l := (Nat.log2 m : Int) + e
  let sg : Int := if n then -1 else 1
  if l < -30 then (sg * ((m : Int) * 2 ^ 64 - 1), e - 64)
  else if l ≥ 5 then (sg * fxBelowOne, -128)
  else
    let (a, k) := apExp2 false (m * 2 * 0x171547652B82FE1777D0FFDA0D23A7D11) (e - 128)
    let ex := if k + 128 ≥ 0 then a * 2 ^ (k + 128).toNat else a / 2 ^ (-(k + 128)).toNat
    (sg * ((ex - fxOne) * 2 ^ 128 / (ex + fxOne)), -128)

/-- erf x; it never reaches 1. -/
def apErf (n : Bool) (m : Nat) (e : Int) : Approx :=
  let l := (Nat.log2 m : Int) + e
  let sg : Int := if n then -1 else 1
  if l < -30 then (sg * (m : Int) * fxTwoOverSqrtPi, e - 128)
  else if l ≥ 3 then (sg * fxBelowOne, -128)
  else
    let y := fxOf false m e
    let y2 := fxMul y y
    let t := -(fxMul y2 0x171547652B82FE1777D0FFDA0D23A7D11)
    let fl := t / 2 ^ 128
    let ex := fxExp2 (t - fl * 2 ^ 128) / 2 ^ (-fl).toNat
    (sg * min (fxMul fxTwoOverSqrtPi (fxMul ex (fxErfSum y))) fxBelowOne, -128)

/-- The FP32 encoding as a signed index in the order of values. -/
def idx32 (b : Nat) : Int := if fNegBit fmt32 b then -((b % 2 ^ 31 : Nat) : Int) else b
/-- The encoding of an index. -/
def of32Idx (i : Int) : Nat := if i < 0 then i.natAbs + 2 ^ 31 else i.toNat

/-- R253: the FP32 values within 2 units in the last place of an exact value; the free value picks one. An exact value
that rounds beyond the largest finite value overflows. -/
def pick32 (fn bits : Nat) (v : Approx) : FRes :=
  let neg := v.1 < 0
  let (near, fl) := fRound fmt32 .rne false neg v.1.natAbs v.2 false
  if fl &&& flOF = flOF then (near, flOF)
  else
    let ex := max (if v.1 = 0 then -126 else (Nat.log2 v.1.natAbs : Int) + v.2) (-126)
    let inside := fun (i : Int) =>
      if i.natAbs > fmtMax fmt32 then false
      else match fUnpack fmt32 (of32Idx i) with
        | .fin n m e =>
          let c := min (min e v.2) (ex - 23)
          let y := fvAt c (.fin n m e)
          let w := v.1 * 2 ^ (v.2 - c).toNat
          (y - w).natAbs ≤ 2 * 2 ^ (ex - 23 - c).toNat
        | _ => false
    let k := idx32 near
    let cands := [k - 4, k - 3, k - 2, k - 1, k, k + 1, k + 2, k + 3, k + 4].filter inside
    let i := (cands[Config.specialPick fn bits % cands.length]?).getD k
    (of32Idx i, noFlags)

/-- Whether a finite magnitude is an integer. -/
def isInteger (m : Nat) (e : Int) : Bool := e ≥ 0 || m % 2 ^ (-e).toNat = 0

def spExp2 (b : Nat) : FRes :=
  match fUnpack fmt32 b with
  | .nan s => fNanRes fmt32 s
  | .inf n => if n then (0, noFlags) else fInfRes fmt32 false
  | .fin n m e =>
    if m = 0 then (0x3F800000, noFlags)
    else
      let a := apExp2 n m e
      if isInteger m e && -149 ≤ a.2 + 128 && a.2 + 128 ≤ 127 && a.1 = fxOne then
        ((fRound fmt32 .rne false false 1 (a.2 + 128) false).1, noFlags)
      else pick32 0 b a
def spLog2 (b : Nat) : FRes :=
  match fUnpack fmt32 b with
  | .nan s => fNanRes fmt32 s
  | .inf n => if n then fInvalid fmt32 else fInfRes fmt32 false
  | .fin n m e =>
    if m = 0 then ((fInfRes fmt32 true).1, flDZ)
    else if n then fInvalid fmt32
    else if m = 2 ^ Nat.log2 m then ((fOfInt fmt32 .rne false ((Nat.log2 m : Int) + e)).1, noFlags)
    else pick32 1 b (apLog2 m e)
def spSin (b : Nat) : FRes :=
  match fUnpack fmt32 b with
  | .nan s => fNanRes fmt32 s
  | .inf _ => fInvalid fmt32
  | .fin n m e => if m = 0 || isInteger m e then fZeroRes fmt32 n else
    if (Nat.log2 m : Int) + e < -30 then pick32 2 b (apSinPi n m e) else pick32 2 b (apSinMod (mod2Fx n m e))
def spCos (b : Nat) : FRes :=
  match fUnpack fmt32 b with
  | .nan s => fNanRes fmt32 s
  | .inf _ => fInvalid fmt32
  | .fin n m e =>
    if !(isInteger m e) && isInteger m (e + 1) then fZeroRes fmt32 false
    else pick32 3 b (apSinMod ((mod2Fx n m e + 2 ^ 159) % 2 ^ 161))
def spTanh (b : Nat) : FRes :=
  match fUnpack fmt32 b with
  | .nan s => fNanRes fmt32 s
  | .inf n => (0x3F800000 + (if n then fmtSign fmt32 else 0), noFlags)
  | .fin n m e => if m = 0 then fZeroRes fmt32 n else pick32 4 b (apTanh n m e)
def spErf (b : Nat) : FRes :=
  match fUnpack fmt32 b with
  | .nan s => fNanRes fmt32 s
  | .inf n => (0x3F800000 + (if n then fmtSign fmt32 else 0), noFlags)
  | .fin n m e => if m = 0 then fZeroRes fmt32 n else pick32 5 b (apErf n m e)

/-- A special function in a format (R253): FP16 and BF16 take the FP32 result rounded to nearest even; only IV, DZ and OF. -/
def spIn (fn : Nat → FRes) (f : SpFmt) (a : Nat) : FRes :=
  match f with
  | .fp32 => fn (bitsOf a 0 32)
  | _ =>
    let g := spfmtFmt f
    let w := fConvert fmt32 g .rne false a
    let r := fn w.1
    let o := fConvert g fmt32 .rne false r.1
    (o.1, (w.2 ||| r.2 ||| o.2) &&& (flIV ||| flDZ ||| flOF))

end Sys2Proof.Machine
end

