-- ==== Sys2Proof/Machine/FloatOps.lean ====
section
/-! DEFINITION. Floating-point words: scalar arithmetic (R248 to R253) and the packed forms (R265, R266). -/

namespace Sys2Proof.Machine

/-- The mode of the word in focus, nearest even by default (R227). -/
def rmCx (cx : Ctx) : Rm := rmOf (pfxOf cx) .rne 0

/-- A scalar two-source word: element 0 of each source, the result in the low bits (R225). -/
def fp2 (s : State) (d : Dst) (a b : Src) (f : Fmt) (op : Rm → Nat → Nat → FRes) : Out :=
  laneWord s d [fpOp f a, fpOp f b] (fun cx xs =>
    match xs with
    | x :: y :: _ => op (rmCx cx) (elemAt x (fmtWidth f) 0) (elemAt y (fmtWidth f) 0)
    | _ => (0, noFlags))
/-- A scalar one-source word. -/
def fp1 (s : State) (d : Dst) (a : Src) (f : Fmt) (op : Rm → Nat → FRes) : Out :=
  laneWord s d [fpOp f a] (fun cx xs => match xs with | x :: _ => op (rmCx cx) (elemAt x (fmtWidth f) 0) | _ => (0, noFlags))
/-- A scalar three-source word (R31); the third source is read as format `fc`. -/
def fp3 (s : State) (d : Dst) (a b : Src) (f fc : Fmt) (op : Rm → W64 → W64 → W64 → FRes) : Out :=
  withThird s d (.fp fc) (dstRegs d ++ srcRegs a ++ srcRegs b) (fun c =>
    laneWord s d [fpOp f a, fpOp f b, fpOp fc c] (fun cx xs =>
      match xs with
      | x :: y :: z :: _ => op (rmCx cx) x y z
      | _ => (0, noFlags)))

def execFadd (d : Dst) (a b : Src) (f : FFmt) (s : State) : Out := fp2 s d a b (ffmtFmt f) (fAdd (ffmtFmt f))
def execFsub (d : Dst) (a b : Src) (f : FFmt) (s : State) : Out := fp2 s d a b (ffmtFmt f) (fSub (ffmtFmt f))
def execFmul (d : Dst) (a b : Src) (f : FFmt) (s : State) : Out := fp2 s d a b (ffmtFmt f) (fMul (ffmtFmt f))
def execFfma (d : Dst) (a b : Src) (f : FFmt) (s : State) : Out :=
  let g := ffmtFmt f
  fp3 s d a b g g (fun rm x y z => fFma g rm (elemAt x (fmtWidth g) 0) (elemAt y (fmtWidth g) 0) (elemAt z (fmtWidth g) 0))
def execFmin (d : Dst) (a b : Src) (f : FFmt) (s : State) : Out := fp2 s d a b (ffmtFmt f) (fun _ => fMinMax (ffmtFmt f) false)
def execFmax (d : Dst) (a b : Src) (f : FFmt) (s : State) : Out := fp2 s d a b (ffmtFmt f) (fun _ => fMinMax (ffmtFmt f) true)
def execFabs (d : Dst) (a : Src) (f : FFmt) (s : State) : Out := fp1 s d a (ffmtFmt f) (fun _ x => (fAbsBits (ffmtFmt f) x, noFlags))
def execFneg (d : Dst) (a : Src) (f : FFmt) (s : State) : Out := fp1 s d a (ffmtFmt f) (fun _ x => (fNegBits (ffmtFmt f) x, noFlags))
def execFdiv (d : Dst) (a b : Src) (f : FFmt) (s : State) : Out := fp2 s d a b (ffmtFmt f) (fDiv (ffmtFmt f))
def execFsqrt (d : Dst) (a : Src) (f : FFmt) (s : State) : Out := fp1 s d a (ffmtFmt f) (fSqrt (ffmtFmt f))
def execFrcp (d : Dst) (a : Src) (f : FFmt) (s : State) : Out := fp1 s d a (ffmtFmt f) (fRcp (ffmtFmt f))
def execFrsq (d : Dst) (a : Src) (f : FFmt) (s : State) : Out := fp1 s d a (ffmtFmt f) (fRsq (ffmtFmt f))
def execFclass (d : Dst) (a : Src) (f : FFmt) (s : State) : Out := fp1 s d a (ffmtFmt f) (fun _ x => (fClass (ffmtFmt f) x, noFlags))
def execFcpys (d : Dst) (a b : Src) (f : FFmt) (s : State) : Out :=
  fp2 s d a b (ffmtFmt f) (fun _ x y => (fCpysBits (ffmtFmt f) x y, noFlags))
/-- FDOT2 (R250): two products and an FP32 addend, rounded once. -/
def execFdot2 (d : Dst) (a b : Src) (f : DFmt) (s : State) : Out :=
  let g := dfmtFmt f
  fp3 s d a b g fmt32 (fun rm x y z =>
    let p := fun e => (fUnpack g (elemAt x 16 e), fUnpack g (elemAt y 16 e))
    fDotV fmt32 rm [p 0, p 1] (fUnpack fmt32 (elemAt z 32 0)))
def execFexp2 (d : Dst) (a : Src) (f : SpFmt) (s : State) : Out := fp1 s d a (spfmtFmt f) (fun _ => spIn spExp2 f)
def execFlog2 (d : Dst) (a : Src) (f : SpFmt) (s : State) : Out := fp1 s d a (spfmtFmt f) (fun _ => spIn spLog2 f)
def execFsin (d : Dst) (a : Src) (f : SpFmt) (s : State) : Out := fp1 s d a (spfmtFmt f) (fun _ => spIn spSin f)
def execFcos (d : Dst) (a : Src) (f : SpFmt) (s : State) : Out := fp1 s d a (spfmtFmt f) (fun _ => spIn spCos f)
def execFtanh (d : Dst) (a : Src) (f : SpFmt) (s : State) : Out := fp1 s d a (spfmtFmt f) (fun _ => spIn spTanh f)
def execFerf (d : Dst) (a : Src) (f : SpFmt) (s : State) : Out := fp1 s d a (spfmtFmt f) (fun _ => spIn spErf f)
def execFrnd (d : Dst) (a : Src) (f : FFmt) (s : State) : Out := fp1 s d a (ffmtFmt f) (fRnd (ffmtFmt f))
def execFfrac (d : Dst) (a : Src) (f : FFmt) (s : State) : Out := fp1 s d a (ffmtFmt f) (fun _ => fFrac (ffmtFmt f))

/-! ## Packed forms (R265, R266) -/

/-- A packed floating-point word: the mode comes from the prefix. -/
def packedFp (s : State) (d : Dst) (kinds : List (SrcKind × Src)) (f : Fmt) (op : Rm → List Nat → FRes) : Out :=
  vecWord s d kinds (fun cx l old srcs => packedLane cx l (fmtWidth f) old srcs (op (rmCx cx)))
    (fun cx srcs => packedAll (fmtWidth f) srcs (op (rmCx cx)))
def pk2 (f : Rm → Nat → Nat → FRes) (rm : Rm) : List Nat → FRes
  | x :: y :: _ => f rm x y
  | _ => (0, noFlags)
def pk3 (f : Rm → Nat → Nat → Nat → FRes) (rm : Rm) : List Nat → FRes
  | x :: y :: z :: _ => f rm x y z
  | _ => (0, noFlags)

def execPadd (d : Dst) (a b : Src) (f : PFmt) (s : State) : Out :=
  packedFp s d [fpOp (pfmtFmt f) a, fpOp (pfmtFmt f) b] (pfmtFmt f) (pk2 (fAdd (pfmtFmt f)))
def execPsub (d : Dst) (a b : Src) (f : PFmt) (s : State) : Out :=
  packedFp s d [fpOp (pfmtFmt f) a, fpOp (pfmtFmt f) b] (pfmtFmt f) (pk2 (fSub (pfmtFmt f)))
def execPmul (d : Dst) (a b : Src) (f : PFmt) (s : State) : Out :=
  packedFp s d [fpOp (pfmtFmt f) a, fpOp (pfmtFmt f) b] (pfmtFmt f) (pk2 (fMul (pfmtFmt f)))
def execPfma (d : Dst) (a b : Src) (f : PFmt) (s : State) : Out :=
  let g := pfmtFmt f
  withThird s d (.fp g) (dstRegs d ++ srcRegs a ++ srcRegs b) (fun c =>
    packedFp s d [fpOp g a, fpOp g b, fpOp g c] g (pk3 (fFma g)))
def execPmin (d : Dst) (a b : Src) (f : PFmt) (s : State) : Out :=
  packedFp s d [fpOp (pfmtFmt f) a, fpOp (pfmtFmt f) b] (pfmtFmt f) (pk2 (fun _ => fMinMax (pfmtFmt f) false))
def execPmax (d : Dst) (a b : Src) (f : PFmt) (s : State) : Out :=
  packedFp s d [fpOp (pfmtFmt f) a, fpOp (pfmtFmt f) b] (pfmtFmt f) (pk2 (fun _ => fMinMax (pfmtFmt f) true))
/-- PDOT (R266). -/
def execPdot (d : Dst) (a b : Src) (f : PFmt) (s : State) : Out :=
  let g := pfmtFmt f
  let w := fmtWidth g
  fp3 s d a b g fmt32 (fun rm x y z =>
    fDotV fmt32 rm ((List.range (64 / w)).map (fun e => (fUnpack g (elemAt x w e), fUnpack g (elemAt y w e))))
      (fUnpack fmt32 (elemAt z 32 0)))

end Sys2Proof.Machine
end

