-- ==== Sys2Proof/Machine/Integer.lean ====
section
/-! DEFINITION. Integer arithmetic, logic and bit manipulation (R232 to R238), opcodes 0x20 to 0x4A and 0x4F to 0x51. -/

namespace Sys2Proof.Machine

/-! ## Element operations (Table 10.6) -/

/-- A value clamped to the range of a type of `w` bits (ADDS, SUBS). -/
def clampTo (signed : Bool) (w : Nat) (x : Int) : Nat :=
  let lo : Int := if signed then -(2 ^ (w - 1) : Nat) else 0
  let hi : Int := if signed then (2 ^ (w - 1) : Nat) - 1 else (2 ^ w : Nat) - 1
  ofSigned w (max lo (min hi x))
/-- An element read in a signedness. -/
def elemInt (signed : Bool) (w x : Nat) : Int := if signed then toSigned w x else (x % 2 ^ w : Nat)
/-- Quotient truncated toward zero with the defined corners (R234). -/
def divElem (signed : Bool) (w x y : Nat) : Nat :=
  let a := elemInt signed w x
  let b := elemInt signed w y
  if b = 0 then 2 ^ w - 1 else ofSigned w (Int.tdiv a b)
/-- Remainder with the sign of the dividend (R234). -/
def remElem (signed : Bool) (w x y : Nat) : Nat :=
  let a := elemInt signed w x
  let b := elemInt signed w y
  if b = 0 then x % 2 ^ w else ofSigned w (Int.tmod a b)
/-- floor(x × y / 2^w), exact (MULHI). -/
def mulhiElem (signed : Bool) (w x y : Nat) : Nat := ofSigned w (elemInt signed w x * elemInt signed w y / (2 ^ w : Nat))
/-- Left shift by an unsigned count; 0 from w on. -/
def shlElem (w x c : Nat) : Nat := if c ≥ w then 0 else x * 2 ^ c % 2 ^ w
/-- Logical right shift by an unsigned count. -/
def shrElem (w x c : Nat) : Nat := if c ≥ w then 0 else x % 2 ^ w / 2 ^ c
/-- Arithmetic right shift; w copies of the sign bit from w on. -/
def sarElem (w x c : Nat) : Nat := ofSigned w (toSigned w x / (2 ^ min c w : Nat))
/-- Rotate left by c mod w. -/
def rotElem (w x c : Nat) : Nat :=
  let k := c % w
  let y := x % 2 ^ w
  (y * 2 ^ k + y / 2 ^ (w - k)) % 2 ^ w
/-- Leading zero bits; w for 0. -/
def clzElem (w x : Nat) : Nat := if x % 2 ^ w = 0 then w else w - 1 - Nat.log2 (x % 2 ^ w)
/-- One bits among the low `n` bits. -/
def popcGo : Nat → Nat → Nat
  | 0, _ => 0
  | n + 1, x => x % 2 + popcGo n (x / 2)
/-- The low `n` bits in reverse order. -/
def brevGo : Nat → Nat → Nat → Nat
  | 0, _, r => r
  | n + 1, x, r => brevGo n (x / 2) (2 * r + x % 2)
/-- BFX (R235). -/
def bfxVal (sgn : Bool) (a b : Nat) : Nat :=
  let pos := bitsOf b 0 6
  let len := min (bitsOf b 8 7) 64
  let f := a / 2 ^ pos % 2 ^ len
  if sgn && len > 0 then ofSigned 64 (toSigned len f) else f
/-- BFI (R235). -/
def bfiVal (a b c : W64) : W64 :=
  let pos := bitsOf b.toNat 0 6
  let len := min (bitsOf b.toNat 8 7) 64
  let m := BitVec.ofNat 64 ((2 ^ len - 1) * 2 ^ pos)
  (c &&& ~~~m) ||| ((a <<< pos) &&& m)
/-- BDEP (R236): bits of `b` from position `i` on, `n` to go; `a` holds the bits still to place. -/
def bdepGo : Nat → Nat → Nat → Nat
  | 0, _, _ => 0
  | n + 1, a, b => if b % 2 = 1 then a % 2 + 2 * bdepGo n (a / 2) (b / 2) else 2 * bdepGo n a (b / 2)
/-- BEXT (R236). -/
def bextGo : Nat → Nat → Nat → Nat
  | 0, _, _ => 0
  | n + 1, a, b => if b % 2 = 1 then a % 2 + 2 * bextGo n (a / 2) (b / 2) else bextGo n (a / 2) (b / 2)
/-- Element (i, j) of an 8 × 8 GF(2) matrix: bit j of byte i (R237). -/
def gfAt (x : W64) (i j : Nat) : Bool := x.getLsbD (8 * i + j)
/-- GFMM (R237). -/
def gfmmVal (a b : W64) (tr : Bool) : W64 :=
  (List.range 64).foldl (fun (r : W64) p =>
    let i := p / 8
    let j := p % 8
    let bit := (List.range 8).foldl (fun acc k => acc != (gfAt a i k && (if tr then gfAt b j k else gfAt b k j))) false
    if bit then r ||| (1 <<< p) else r) 0
/-- PERM (R238): bit i of the result is bit k_i of a. -/
def permVal (a : W64) (cs : List W64) : W64 :=
  (List.range 64).foldl (fun (r : W64) i =>
    let k := (cs.foldl (fun (acc : Nat × Nat) c => (acc.1 + (if c.getLsbD i then acc.2 else 0), 2 * acc.2)) (0, 1)).1
    if a.getLsbD k then r ||| (1 <<< i) else r) 0
/-- MOVW on an old value (R232). -/
def movwVal (q : Nat) (k : Bool) (imm : BitVec 16) (old : W64) : W64 :=
  let v := imm.setWidth 64 <<< (16 * q)
  if k then (old &&& ~~~((0xFFFF : W64) <<< (16 * q))) ||| v else v
/-- LEA (R233). -/
def leaVal (a b : W64) (sc : Nat) : W64 := a + sext64 32 b.toNat <<< sc

/-- A binary element operation as a packed function. -/
def el2 (f : Nat → Nat → Nat) : List Nat → FRes
  | x :: y :: _ => intRes (f x y)
  | _ => intRes 0
def el1 (f : Nat → Nat) : List Nat → FRes
  | x :: _ => intRes (f x)
  | _ => intRes 0
def el3 (f : Nat → Nat → Nat → Nat) : List Nat → FRes
  | x :: y :: z :: _ => intRes (f x y z)
  | _ => intRes 0
/-- A whole-lane operation on 64-bit values. -/
def wl1 (f : W64 → W64) : Ctx → List W64 → FRes
  | _, x :: _ => intRes (f x).toNat
  | _, _ => intRes 0
def wl2 (f : W64 → W64 → W64) : Ctx → List W64 → FRes
  | _, x :: y :: _ => intRes (f x y).toNat
  | _, _ => intRes 0
def wl3 (f : W64 → W64 → W64 → W64) : Ctx → List W64 → FRes
  | _, x :: y :: z :: _ => intRes (f x y z).toNat
  | _, _ => intRes 0

/-- A two-source packed integer word of class W. -/
def intW (s : State) (d : Dst) (a b : Src) (w : Width) (f : Nat → Nat → Nat → Nat) : Out :=
  packedWord s d [intOp a, intOp b] (widthBits w) (el2 (f (widthBits w)))
/-- A one-source packed integer word of class W. -/
def intW1 (s : State) (d : Dst) (a : Src) (w : Width) (f : Nat → Nat → Nat) : Out :=
  packedWord s d [intOp a] (widthBits w) (el1 (f (widthBits w)))
/-- A two-source packed integer word of class S. -/
def intS (s : State) (d : Dst) (a b : Src) (t : SWidth) (f : Bool → Nat → Nat → Nat → Nat) : Out :=
  packedWord s d [intOp a, intOp b] (swidthBits t) (el2 (f (swidthSigned t) (swidthBits t)))
/-- A three-source packed integer word of class W (R31). -/
def intW3 (s : State) (d : Dst) (a b : Src) (w : Width) (f : Nat → Nat → Nat → Nat → Nat) : Out :=
  withThird s d .int (dstRegs d ++ srcRegs a ++ srcRegs b) (fun c =>
    packedWord s d [intOp a, intOp b, intOp c] (widthBits w) (el3 (f (widthBits w))))
/-- A two-source word over 64 bits, masked per 64-bit element. -/
def int64 (s : State) (d : Dst) (a b : Src) (f : W64 → W64 → W64) : Out := laneWord s d [intOp a, intOp b] (wl2 f)
/-- A one-source word over 64 bits. -/
def int64i (s : State) (d : Dst) (a : Src) (f : W64 → W64) : Out := laneWord s d [intOp a] (wl1 f)

/-- IMM9 sign-extended (R25). -/
def imm9 (i : BitVec 9) : W64 := sext64 9 i.toNat

/-! ## Meanings -/

/-- MOVW (R232). -/
def execMovw (q : Fin 4) (d : Reg) (k : Bool) (imm : BitVec 16) (s : State) : Out :=
  let dd : Dst := match d with | .v r => .v r | .s r => .s r
  vecWord s dd [] (fun cx l old _ => wholeLane cx l (fun _ => intRes (movwVal q.val k imm old).toNat))
    (fun cx _ => intRes (movwVal q.val k imm (oldOf cx dd 0)).toNat)
def execMov (d : Dst) (a : Src) (s : State) : Out := int64i s d a id
def execSel (d : Dst) (a b : Src) (w : Width) (s : State) : Out := intW3 s d a b w (fun _ x y z => if z ≠ 0 then x else y)
def execAdd (d : Dst) (a b : Src) (w : Width) (s : State) : Out := intW s d a b w (fun _ x y => x + y)
def execSub (d : Dst) (a b : Src) (w : Width) (s : State) : Out := intW s d a b w (fun w x y => x + (2 ^ w - y % 2 ^ w))
def execAddi (d : Dst) (a : Src) (imm : BitVec 9) (s : State) : Out := int64i s d a (· + imm9 imm)
def execMul (d : Dst) (a b : Src) (w : Width) (s : State) : Out := intW s d a b w (fun _ x y => x * y)
def execMulhi (d : Dst) (a b : Src) (t : SWidth) (s : State) : Out := intS s d a b t mulhiElem
def execMad (d : Dst) (a b : Src) (w : Width) (s : State) : Out := intW3 s d a b w (fun _ x y z => x * y + z)
def execDiv (d : Dst) (a b : Src) (t : SWidth) (s : State) : Out := intS s d a b t divElem
def execRem (d : Dst) (a b : Src) (t : SWidth) (s : State) : Out := intS s d a b t remElem
def execMin (d : Dst) (a b : Src) (t : SWidth) (s : State) : Out :=
  intS s d a b t (fun g w x y => if elemInt g w y < elemInt g w x then y else x)
def execMax (d : Dst) (a b : Src) (t : SWidth) (s : State) : Out :=
  intS s d a b t (fun g w x y => if elemInt g w x < elemInt g w y then y else x)
def execAbs (d : Dst) (a : Src) (w : Width) (s : State) : Out := intW1 s d a w (fun w x => ofSigned w (toSigned w x).natAbs)
def execNeg (d : Dst) (a : Src) (w : Width) (s : State) : Out := intW1 s d a w (fun w x => 2 ^ w - x % 2 ^ w)
def execAdds (d : Dst) (a b : Src) (t : SWidth) (s : State) : Out :=
  intS s d a b t (fun g w x y => clampTo g w (elemInt g w x + elemInt g w y))
def execSubs (d : Dst) (a b : Src) (t : SWidth) (s : State) : Out :=
  intS s d a b t (fun g w x y => clampTo g w (elemInt g w x - elemInt g w y))
def execAnd (d : Dst) (a b : Src) (s : State) : Out := int64 s d a b (· &&& ·)
def execOr (d : Dst) (a b : Src) (s : State) : Out := int64 s d a b (· ||| ·)
def execXor (d : Dst) (a b : Src) (s : State) : Out := int64 s d a b (· ^^^ ·)
def execAndn (d : Dst) (a b : Src) (s : State) : Out := int64 s d a b (fun x y => x &&& ~~~y)
def execAndi (d : Dst) (a : Src) (imm : BitVec 9) (s : State) : Out := int64i s d a (· &&& imm9 imm)
def execOri (d : Dst) (a : Src) (imm : BitVec 9) (s : State) : Out := int64i s d a (· ||| imm9 imm)
def execXori (d : Dst) (a : Src) (imm : BitVec 9) (s : State) : Out := int64i s d a (· ^^^ imm9 imm)
def execShl (d : Dst) (a b : Src) (w : Width) (s : State) : Out := intW s d a b w shlElem
def execShr (d : Dst) (a b : Src) (w : Width) (s : State) : Out := intW s d a b w shrElem
def execSar (d : Dst) (a b : Src) (w : Width) (s : State) : Out := intW s d a b w sarElem
def execRot (d : Dst) (a b : Src) (w : Width) (s : State) : Out := intW s d a b w rotElem
def execShli (d : Dst) (a : Src) (w : Width) (n : BitVec 6) (s : State) : Out := intW1 s d a w (fun w x => shlElem w x n.toNat)
def execShri (d : Dst) (a : Src) (w : Width) (n : BitVec 6) (s : State) : Out := intW1 s d a w (fun w x => shrElem w x n.toNat)
def execSari (d : Dst) (a : Src) (w : Width) (n : BitVec 6) (s : State) : Out := intW1 s d a w (fun w x => sarElem w x n.toNat)
def execClz (d : Dst) (a : Src) (w : Width) (s : State) : Out := intW1 s d a w clzElem
def execPopc (d : Dst) (a : Src) (w : Width) (s : State) : Out := intW1 s d a w popcGo
def execBrev (d : Dst) (a : Src) (w : Width) (s : State) : Out := intW1 s d a w (fun w x => brevGo w x 0)
def execBfx (d : Dst) (a b : Src) (sgn : Bool) (s : State) : Out :=
  int64 s d a b (fun x y => BitVec.ofNat 64 (bfxVal sgn x.toNat y.toNat))
def execBfi (d : Dst) (a b : Src) (s : State) : Out :=
  withThird s d .int (dstRegs d ++ srcRegs a ++ srcRegs b) (fun c => laneWord s d [intOp a, intOp b, intOp c] (wl3 bfiVal))
def execBdep (d : Dst) (a b : Src) (s : State) : Out := int64 s d a b (fun x y => BitVec.ofNat 64 (bdepGo 64 x.toNat y.toNat))
def execBext (d : Dst) (a b : Src) (s : State) : Out := int64 s d a b (fun x y => BitVec.ofNat 64 (bextGo 64 x.toNat y.toNat))
/-- The six registers of PERM from its field (R238). -/
def permRegs : Reg → List Src
  | .v r => (List.range 6).map (fun i => .v (Fin.ofNat 32 (r.val + i)))
  | .s r => (List.range 6).map (fun i => .s (Fin.ofNat 32 (r.val + i)))
def execPerm (d : Dst) (a : Src) (b : Reg) (s : State) : Out :=
  laneWord s d (intOp a :: (permRegs b).map intOp) (fun _ xs =>
    match xs with
    | x :: cs => intRes (permVal x cs).toNat
    | [] => intRes 0)
def execGfmm (d : Dst) (a b : Src) (tr : Bool) (s : State) : Out := int64 s d a b (fun x y => gfmmVal x y tr)
def execLea (d : Dst) (a b : Src) (sc : Fin 4) (s : State) : Out := int64 s d a b (fun x y => leaVal x y sc.val)
/-- The width that SEXT and ZEXT read. -/
def extFrom (fr : Fin 3) : Nat := 8 * 2 ^ fr.val
def execSext (d : Dst) (a : Src) (fr : Fin 3) (s : State) : Out := int64i s d a (fun x => sext64 (extFrom fr) x.toNat)
def execZext (d : Dst) (a : Src) (fr : Fin 3) (s : State) : Out :=
  int64i s d a (fun x => BitVec.ofNat 64 (x.toNat % 2 ^ extFrom fr))

end Sys2Proof.Machine
end

