-- ==== Sys2Proof/Machine/Convert.lean ====
section
/-! DEFINITION. Conversion and quantisation (R256 to R264): FCVT, ICVT, FICVT, PACK, UNPK, QMX4, DQMX4, QF8, DQF8, QI8, QI4,
SRND. RSCL reads the scratchpad and stands with the memory words. -/

namespace Sys2Proof.Machine

/-- A conversion whose prefix may ask for stochastic rounding: the draw is the value of C in the lane (R227, R256). -/
def drawWord (s : State) (d : Dst) (kinds : List (SrcKind × Src)) (f : Rm → Rm → List W64 → FRes) : Out :=
  match ctxOf s with
  | none => .refused .noPath
  | some cx =>
    if (pfxOf cx).rnd = 6 then
      match Src.ofCode (pfxOf cx).c with
      | none => runWord s (pendingOn (dstRegs d)) operandTrap
      | some c =>
        if !c.isInt then runWord s (pendingOn (dstRegs d)) operandTrap
        else laneWord s d (intOp c :: kinds) (fun _ xs =>
          match xs with
          | r :: ys => f (.sr (bitsOf r.toNat 0 24)) (.sr (bitsOf r.toNat 24 24)) ys
          | [] => (0, noFlags))
    else laneWord s d kinds (fun cx xs => f (rmCx cx) (rmCx cx) xs)

/-- FCVT (R256). -/
def execFcvt (d : Dst) (a : Src) (dst src : CFmt) (sat : Bool) (s : State) : Out :=
  let f := cfmtFmt src
  drawWord s d [fpOp f a] (fun rm _ xs => fConvert (cfmtFmt dst) f rm sat (elemAt (xs.headD 0) (fmtWidth f) 0))

/-- Width and signedness of an integer type code (Table 10.4, note). -/
def intTyBits : IntTy → Nat
  | .s64 | .n64 => 64
  | .s32 | .n32 => 32
  | .s16 | .n16 => 16
  | .s8 | .n8 => 8
def intTySigned : IntTy → Bool
  | .s64 | .s32 | .s16 | .s8 => true
  | _ => false

/-- ICVT (R257). -/
def execIcvt (d : Dst) (a : Src) (dst : FFmt) (ty : IntTy) (s : State) : Out :=
  laneWord s d [intOp a] (fun cx xs =>
    fOfInt (ffmtFmt dst) (rmCx cx) false (elemInt (intTySigned ty) (intTyBits ty) (xs.headD 0).toNat))
/-- FICVT (R257): toward zero unless the prefix chooses. -/
def execFicvt (d : Dst) (a : Src) (src : CFmt) (ty : IntTy) (s : State) : Out :=
  laneWord s d [fpOp (cfmtFmt src) a] (fun cx xs =>
    fToInt (cfmtFmt src) (rmOf (pfxOf cx) .rtz 0) (intTySigned ty) (intTyBits ty) (xs.headD 0).toNat)

/-- Bits of a PACK width. -/
def pkBits : PkW → Nat | .w32 => 32 | .w16 => 16 | .w8 => 8
/-- The even elements of a value, packed into 32 bits. -/
def packHalf (w : Nat) (x : W64) : Nat :=
  (List.range (32 / w)).foldl (fun acc i => acc + elemAt x w (2 * i) * 2 ^ (w * i)) 0
/-- PACK (R258). -/
def execPack (d : Dst) (a b : Src) (w : PkW) (s : State) : Out :=
  int64 s d a b (fun x y => BitVec.ofNat 64 (packHalf (pkBits w) x + packHalf (pkBits w) y * 2 ^ 32))
/-- UNPK (R258). -/
def unpkVal (w : Nat) (hi : Bool) (x : W64) : W64 :=
  let h := bitsOf x.toNat (if hi then 32 else 0) 32
  BitVec.ofNat 64 ((List.range (32 / w)).foldl (fun acc i => acc + bitsOf h (w * i) w * 2 ^ (2 * w * i)) 0)
def execUnpk (d : Dst) (a : Src) (w : PkW) (hi : Bool) (s : State) : Out := int64i s d a (unpkVal (pkBits w) hi)

/-! ## MXFP4 -/

/-- The four BF16 elements that a lane supplies to its octet's block; lanes that do not take part supply +0 (R259). -/
def qmxLane (cx : Ctx) (a : Src) (l : Nat) : List FVal :=
  if laneOn cx l then (List.range 4).map (fun i => fUnpack fmtB16 (elemAt (readSrc cx (.fp fmtB16) a l) 16 i))
  else (List.range 4).map (fun _ => .fin false 0 0)
/-- Whether a value is a NaN or an infinity. -/
def fvSpecial : FVal → Bool | .fin _ _ _ => false | _ => true
/-- Exponent of a finite non-zero value: floor(log2 |v|). -/
def fvLog2 : FVal → Option Int | .fin _ m e => if m = 0 then none else some ((Nat.log2 m : Int) + e) | _ => none
/-- The shared scale of a block (R259). -/
def qmxScale (vs : List FVal) : Nat :=
  if vs.any fvSpecial then 0xFF
  else match (vs.filterMap fvLog2) with
    | [] => 0x7F
    | x :: xs => ((max (-127) (min 127 ((xs.foldl max x) - 2))) + 127).toNat
/-- The code of an element under a scale, saturating at ±6.0, and whether it is inexact (R259). -/
def qmxCode (rm : Rm) (x : Nat) : FVal → Nat × Bool
  | .fin n m e => let r := fRound fmtE2m1 rm true n m (e + 127 - x) false; (r.1, r.2 &&& flIX = flIX)
  | _ => (0, false)
/-- QMX4's result in a lane (R259). -/
def qmxVal (cx : Ctx) (a : Src) (l : Nat) : FRes :=
  let block := (rangeFrom (l / 8 * 8) 8).map (qmxLane cx a)
  let x := qmxScale block.flatten
  let mine := qmxLane cx a l
  if x = 0xFF then (x * 2 ^ 16, flagIf (mine.any fvSpecial) flIV)
  else if (block.flatten.filterMap fvLog2).isEmpty then (x * 2 ^ 16, 0)
  else
    let cs := mine.map (qmxCode (rmCx cx) x)
    (x * 2 ^ 16 + (cs.foldr (fun c acc => c.1 + 16 * acc) 0), flagIf (cs.any (·.2)) flIX)
/-- QMX4 (R259). -/
def execQmx4 (d : Fin 32) (a : Src) (s : State) : Out :=
  runWord s (pendingOn (d.val :: srcRegs a)) (fun cx =>
    if !(srcReady cx false a) then operandTrap cx
    else .ok (writeLanes cx s (.v d) false (fun l => wholeLane cx l (fun _ => qmxVal cx a l))))

/-- An E2M1 code times an E8M0 scale in BF16, to nearest even (R260). -/
def dqmxElem (c x : Nat) : FRes :=
  match e8m0Val x, e2m1Val c with
  | .fin _ _ ex, .fin n m e => fRound fmtB16 .rne false n m (e + ex) false
  | _, _ => (fmtNan fmtB16, noFlags)
/-- DQMX4 (R260). -/
def execDqmx4 (d : Dst) (a b : Src) (q : Fin 4) (s : State) : Out :=
  laneWord s d [fpOp fmtE2m1 a, (.e8m0, b)] (fun _ xs =>
    match xs with
    | x :: y :: _ => (List.range 4).foldl (fun (acc : FRes) i =>
        let r := dqmxElem (elemAt x 4 (4 * q.val + i)) (bitsOf y.toNat 0 8)
        (acc.1 + r.1 * 2 ^ (16 * i), acc.2 ||| r.2)) (0, noFlags)
    | _ => (0, noFlags))

/-! ## FP8 and integers with a scale -/

/-- Two results placed at bit positions 0 and `w`. -/
def pair2 (w : Nat) (r0 r1 : FRes) : FRes := (r0.1 + r1.1 * 2 ^ w, r0.2 ||| r1.2)

/-- round(x × s) in FP8: the exact product rounded once, saturating as FCVT.sat (R256, R261). -/
def qf8Elem (f : Fmt) (rm : Rm) (x sc : Nat) : FRes :=
  let a := fUnpack fmt32 x
  let b := fUnpack fmt32 sc
  if fvIsNan a || fvIsNan b then fNanRes f (fvIsSnan a || fvIsSnan b)
  else match fvMul a b with
    | none => fInvalid f
    | some (.inf n) => (fmtMax f + (if n then fmtSign f else 0), noFlags)
    | some (.fin n m e) => fRound f rm true n m e false
    | some (.nan _) => fNanRes f false
/-- QF8 (R261). -/
def execQf8 (d : Dst) (a b : Src) (k : F8) (s : State) : Out :=
  drawWord s d [fpOp fmt32 a, fpOp fmt32 b] (fun r0 r1 xs =>
    match xs with
    | x :: y :: _ => pair2 8 (qf8Elem (f8Fmt k) r0 (elemAt x 32 0) (elemAt y 32 0)) (qf8Elem (f8Fmt k) r1 (elemAt x 32 1) (elemAt y 32 0))
    | _ => (0, noFlags))
/-- DQF8 (R261). -/
def execDqf8 (d : Dst) (a b : Src) (k : F8) (s : State) : Out :=
  laneWord s d [fpOp (f8Fmt k) a, fpOp fmt32 b] (fun cx xs =>
    match xs with
    | x :: y :: _ =>
      let sc := fUnpack fmt32 (elemAt y 32 0)
      let f := fun e => fMulV fmt32 (rmCx cx) (fUnpack (f8Fmt k) (elemAt x 8 e)) sc
      pair2 32 (f 0) (f 1)
    | _ => (0, noFlags))
/-- clamp(round(x × s), lo, hi) (R262). DEDUCED (log 125): a result that saturates sets no flag, also where its rounding was inexact. -/
def qiElem (w : Nat) (rm : Rm) (x sc : Nat) : FRes :=
  let a := fUnpack fmt32 x
  let b := fUnpack fmt32 sc
  let lo : Int := -(2 ^ (w - 1) : Nat)
  let hi : Int := (2 ^ (w - 1) : Nat) - 1
  if fvIsNan a || fvIsNan b then (0, flIV)
  else match fvMul a b with
    | some (.inf n) => (ofSigned w (if n then lo else hi), noFlags)
    | some (.fin n m e) =>
      let (k, inex) := fvToInt rm n m e
      let v : Int := if n then -(k : Int) else k
      if v < lo then (ofSigned w lo, noFlags) else if v > hi then (ofSigned w hi, noFlags)
      else (ofSigned w v, flagIf inex flIX)
    | _ => (0, flIV)
/-- QI8 and QI4 at a width (R262). -/
def qiWord (s : State) (d : Dst) (a b : Src) (w : Nat) : Out :=
  laneWord s d [fpOp fmt32 a, fpOp fmt32 b] (fun cx xs =>
    match xs with
    | x :: y :: _ => pair2 w (qiElem w (rmCx cx) (elemAt x 32 0) (elemAt y 32 0)) (qiElem w (rmCx cx) (elemAt x 32 1) (elemAt y 32 0))
    | _ => (0, noFlags))
def execQi8 (d : Dst) (a b : Src) (s : State) : Out := qiWord s d a b 8
def execQi4 (d : Dst) (a b : Src) (s : State) : Out := qiWord s d a b 4
/-- SRND (R264). -/
def execSrnd (d : Dst) (a b : Src) (s : State) : Out := int64 s d a b randMix

end Sys2Proof.Machine
end

