-- ==== Sys2Proof/Machine/CrossLane.lean ====
section
/-! DEFINITION. Words across lanes (R243 to R247, R254, R255): SHFL, BCAST, VOTE, IRED, ISCAN, FRED, FSCAN. -/

namespace Sys2Proof.Machine

/-- A cross-lane word with one result for each lane that takes part (R243), or one value for s[d] when `uni` gives it;
`alwaysUni` writes s[d] even when no lane takes part (R246). -/
def crossWord (s : State) (d : Dst) (kinds : List (SrcKind × Src)) (alwaysUni : Bool)
    (lane : Ctx → Nat → FRes) (uni : Ctx → Option FRes) : Out :=
  runWord s (pendingOn (dstRegs d ++ (kinds.map (fun k => srcRegs k.2)).flatten)) (fun cx =>
    if !(kinds.all (fun k => srcReady cx false k.2)) then operandTrap cx
    else match d with
      | .s r =>
        match uni cx with
        | none => .ok s
        | some v =>
          if alwaysUni then .ok (modGroup s cx.gk (fun g => sSet g r.val (BitVec.ofNat 64 v.1)))
          else .ok (writeUni cx s r.val (BitVec.ofNat 64 v.1) v.2)
      | _ => .ok (writeLanes cx s d (kinds.all (fun k => srcUniform cx k.2)) (fun l =>
          wholeLane cx l (fun _ => lane cx l))))

/-- SHFL's source lane (R244). DESIGN CHOICE (log 124): k is read as an unsigned 64-bit value, which the spec does not say, so that a negative k
names no lane in .up and .down. -/
def shflSrc (m : ShMode) (w l k : Nat) : Option Nat :=
  match m with
  | .idx => some (k % w)
  | .up => if k ≤ l then some (l - k) else none
  | .down => if l + k < w then some (l + k) else none
  | .xor => let x := l ^^^ (k % w); if x < w then some x else none

/-- SHFL (R244). -/
def execShfl (d : Dst) (a b : Src) (m : ShMode) (s : State) : Out :=
  crossWord s d [intOp a, intOp b] false (fun cx l =>
    let k := (readSrc cx .int b l).toNat
    let i := match shflSrc m (groupWidth cx.grp) l k with
      | some i => if cx.path.mask.getLsbD i then i else l
      | none => l
    intRes (readSrc cx .int a i).toNat) (fun _ => none)

/-- The value BCAST reads (R245); none when no lane takes part. -/
def bcastVal (cx : Ctx) (a : Src) (b : Option Src) : Option FRes :=
  match partLanes cx with
  | [] => none
  | l :: _ =>
    let i := match b with
      | none => l
      | some b => (readSrc cx .int b l).toNat % groupWidth cx.grp
    let j := if cx.path.mask.getLsbD i then i else lowLane cx.path.mask
    some (intRes (readSrc cx .int a j).toNat)

/-- BCAST (R245). -/
def execBcast (d : Dst) (a b : Src) (s : State) : Out :=
  crossWord s d [intOp a, intOp b] false (fun cx _ => (bcastVal cx a (some b)).getD (intRes 0)) (fun cx => bcastVal cx a (some b))
/-- BCAST.first (R245). -/
def execBcastFirst (d : Dst) (a : Src) (s : State) : Out :=
  crossWord s d [intOp a] false (fun cx _ => (bcastVal cx a none).getD (intRes 0)) (fun cx => bcastVal cx a none)

/-- VOTE's value (R246). -/
def voteVal (cx : Ctx) (k : Fin 8) (m : VoteMode) : FRes :=
  let bit := fun l => (predByte cx.grp l k.val).getLsbD 0
  let ls := partLanes cx
  match m with
  | .any => intRes (if ls.any bit then 1 else 0)
  | .all => intRes (if ls.all bit then 1 else 0)
  | .ballot => intRes (maskOf (ls.filter bit)).toNat
/-- VOTE (R246). -/
def execVote (d : Dst) (k : Fin 8) (m : VoteMode) (s : State) : Out :=
  crossWord s d [] true (fun cx _ => voteVal cx k m) (fun cx => some (voteVal cx k m))

/-- Identity of an IRED operation (Table 10.8). -/
def laneOpId : LaneOp → W64
  | .add => 0
  | .mins => 0x7FFFFFFFFFFFFFFF
  | .maxs => 0x8000000000000000
  | .minu => BitVec.allOnes 64
  | .maxu => 0
  | .and => BitVec.allOnes 64
  | .or => 0
  | .xor => 0
/-- An IRED operation (Table 10.8). -/
def laneOpFn (op : LaneOp) (x y : W64) : W64 :=
  match op with
  | .add => x + y
  | .mins => if x.toInt ≤ y.toInt then x else y
  | .maxs => if x.toInt ≤ y.toInt then y else x
  | .minu => if x.toNat ≤ y.toNat then x else y
  | .maxu => if x.toNat ≤ y.toNat then y else x
  | .and => x &&& y
  | .or => x ||| y
  | .xor => x ^^^ y

/-- Reduction of the lanes that take part (R247). -/
def iredVal (cx : Ctx) (a : Src) (op : LaneOp) (ls : List Nat) : FRes :=
  intRes (ls.foldl (fun acc l => laneOpFn op acc (readSrc cx .int a l)) (laneOpId op)).toNat
/-- IRED (R247). -/
def execIred (d : Dst) (a : Src) (op : LaneOp) (s : State) : Out :=
  crossWord s d [intOp a] false (fun cx _ => iredVal cx a op (partLanes cx)) (fun cx => some (iredVal cx a op (partLanes cx)))
/-- ISCAN (R247). -/
def execIscan (d : Dst) (a : Src) (op : LaneOp) (excl : Bool) (s : State) : Out :=
  crossWord s d [intOp a] false (fun cx l =>
    iredVal cx a op ((partLanes cx).filter (fun k => if excl then k < l else k ≤ l))) (fun _ => none)

/-- Identity of FRED and FSCAN (R254). -/
def fopId (f : Fmt) : FOp → Nat
  | .add => fmtSign f
  | .min => fmtInf f
  | .max => fmtInf f + fmtSign f
/-- combine of FRED and FSCAN (R254). -/
def fopFn (f : Fmt) (rm : Rm) (op : FOp) (x y : Nat) : FRes :=
  match op with
  | .add => fAdd f rm x y
  | .min => fMinMax f false x y
  | .max => fMinMax f true x y

/-- One level of the full tree: neighbours combined, flags joined. -/
def treeLevel (f : Fmt) (rm : Rm) (op : FOp) : List Nat → List Nat × Flags
  | x :: y :: t =>
    let r := fopFn f rm op x y
    let (ys, fl) := treeLevel f rm op t
    (r.1 :: ys, r.2 ||| fl)
  | l => (l, noFlags)
/-- The full tree of R254, level by level. -/
def treeGo (f : Fmt) (rm : Rm) (op : FOp) : Nat → List Nat → Flags → FRes
  | 0, l, fl => (l.headD 0, fl)
  | n + 1, l, fl =>
    match l with
    | [x] => (x, fl)
    | l => let (ys, g) := treeLevel f rm op l; treeGo f rm op n ys (fl ||| g)
/-- FRED's value: a full tree of W leaves, lanes that do not take part giving the identity (R254). -/
def fredVal (cx : Ctx) (a : Src) (op : FOp) (f : Fmt) : FRes :=
  let rm := rmOf (pfxOf cx) .rne 0
  let leaf := fun l => if laneOn cx l then bitsOf (readSrc cx (.fp f) a l).toNat 0 (fmtWidth f) else fopId f op
  treeGo f rm op 7 ((List.range (groupWidth cx.grp)).map leaf) noFlags
/-- FRED (R254). -/
def execFred (d : Dst) (a : Src) (op : FOp) (f : RFmt) (s : State) : Out :=
  crossWord s d [fpOp (rfmtFmt f) a] false (fun cx _ => fredVal cx a op (rfmtFmt f)) (fun cx => some (fredVal cx a op (rfmtFmt f)))

/-- The running value before lane `l` combines and the result of its step (R255). -/
def fscanTo (cx : Ctx) (a : Src) (op : FOp) (f : Fmt) (l : Nat) : Nat × FRes :=
  let rm := rmOf (pfxOf cx) .rne 0
  let before := ((partLanes cx).filter (· < l)).foldl (fun acc k => (fopFn f rm op acc (readSrc cx (.fp f) a k).toNat).1) (fopId f op)
  (before, fopFn f rm op before (readSrc cx (.fp f) a l).toNat)
/-- FSCAN (R255): the flags of a step belong to the lane whose value it combines. -/
def execFscan (d : Dst) (a : Src) (op : FOp) (excl : Bool) (f : RFmt) (s : State) : Out :=
  crossWord s d [fpOp (rfmtFmt f) a] false (fun cx l =>
    let r := fscanTo cx a op (rfmtFmt f) l
    (if excl then r.1 else r.2.1, r.2.2)) (fun _ => none)

end Sys2Proof.Machine
end

