-- ==== Sys2Proof/Machine/Receive.lean ====
section
/-! DEFINITION. The receiver's side of the fabric (R135 to R141): sequence numbers, the window, kept responses, and the
transactions of other devices performed in order at the home slices. -/

namespace Sys2Proof.Machine

/-- The number after one. -/
def snNext (a : Nat) : Nat := (a + 1) % 2 ^ 32
/-- The receiver of a pair; before any traffic its NEXP and LOW are 0 (log 6). -/
def getRx (s : State) (k : Nat) : RxSt := tgetD s.fab.rx k { nexp := 0, window := [], kept := [], low := 0 }
def setRx (s : State) (k : Nat) (x : RxSt) : State := { s with fab := { s.fab with rx := tset s.fab.rx k x } }
/-- An answer, or a PENDING notice, sent to a source (R139). -/
def rxSend (s : State) (chip plane sn : Nat) (a : Option FabAns) : State :=
  { s with fab := { s.fab with out := { chip := chip, plane := plane, sn := sn, ans := a } :: s.fab.out } }
/-- The fabric home slice's state of a line after a request of its own (R136): SHARED after a read, OWNED after a write; a request
that passes through leaves what it met. -/
def fabNote (s : State) (line : Nat) (write pass : Bool) : State :=
  if pass then s
  else { s with coh := { s.coh with fabric := tset s.coh.fabric line (write || tgetD s.coh.fabric line false) } }

/-- An answer of this device. -/
def okAns (v : Nat) : Option FabAns := some { code := 0, data := BitVec.ofNat 1024 v }
def codeAns (c : Nat) : Option FabAns := some { code := c, data := 0 }
/-- A request admitted at the home of a line of HBM: the state it leaves, or an answer, or none while it is held. The fabric home
slice's own request meets a back-invalidation of it as R128 says; one that passes through is a request of another agent (R136). An
address that is not HBM, the host window's too, is answered NOADDR (R109). -/
def rxAdmit (s : State) (la : Nat) (m : LineMask) (write pass : Bool) (f : State → State × Option FabAns) : State × Option FabAns :=
  match tgtLocal la with
  | .hbm =>
    let h := homeAdmitBy (!pass) s (lineOf la) m write
    if h.2 then f h.1 else (h.1, none)
  | _ => (s, codeAns 2)
/-- An element of a line of memory replaced as one indivisible step (R137): its old value is the answer, or POISON. -/
def rxElem (s : State) (la n : Nat) (pass : Bool) (rec_ : Option (Nat × Nat × AScope)) (f : Nat → Nat × Bool) : State × Option FabAns :=
  let line := lineOf la
  let m := spanMask (la % 128) n
  let s1 := recallOw s line none
  if (memPoison s1 line &&& spanSectors (la % 128) n) ≠ 0 then (fabNote s1 line false pass, codeAns 3)
  else
    let old := lineRead (memLine s1 line) (la % 128) n
    let r := f old
    let s2 := if r.2 then setRecord (homeWrite s1 none line m (lineAt (la % 128) n r.1) 0) line rec_ else s1
    (fabNote s2 line true pass, okAns old)
/-- An atomic of another device (R137, R310, R314): when it acquires, its answer names the narrow release that it reads, which its own device
then promotes; a narrow release is itself recorded. `acq` says whether it acquires, by the old value. -/
def rxAtom (s : State) (chip la n : Nat) (pass : Bool) (acq : Nat → Option (AScope × Nat)) (rel : Option (AScope × Nat))
    (f : Nat → Nat × Bool) : State × Option FabAns :=
  rxAdmit s la (spanMask (la % 128) n) true pass (fun s0 =>
    let old := lineRead (memLine (recallOw s0 (lineOf la) none) (lineOf la)) (la % 128) n
    let r := rxElem s0 la n pass (rel.map (fun x => (chip, x.2, x.1))) f
    (r.1, r.2.map (fun a => if a.code = 0 && (acq old).isSome then { a with release := tget s0.coh.records (lineOf la) } else a)))
/-- The elements of a merged RED of another device, each applied as one indivisible step; a poisoned one is left unchanged and
gives code POISON (R149). -/
def rxRed (s : State) (line n : Nat) (ty : RedTy) (op : RedOp) (vals : List (Nat × W64)) : State × Nat :=
  vals.foldl (fun (a : State × Nat) (x : Nat × W64) =>
    let s1 := recallOw a.1 line none
    if (memPoison s1 line &&& spanSectors x.1 n) ≠ 0 then (s1, 3)
    else
      let new := redApply ty op (lineRead (memLine s1 line) x.1 n) x.2.toNat
      (homeWrite s1 none line (spanMask x.1 n) (lineAt x.1 n new) 0, a.2)) (s, 0)
/-- The line at which a request acts. -/
def reqLine : FabReq → Nat
  | .read la _ _ | .write la _ _ _ _ | .atom la _ _ _ _ _ | .cas la _ _ _ _ _ _ _ | .acc la _ _ _ _ => lineOf la
  | .red line _ _ _ _ _ => line
  | .promote _ => 0
/-- A transaction of another device performed, if nothing holds it (R137, R139). -/
def rxServe (s : State) (chip : Nat) (req : FabReq) : State × Option FabAns :=
  match req with
  | .read la n pass =>
    rxAdmit s la (spanMask (la % 128) n) false pass (fun s0 =>
      let s1 := fabNote (homeRead s0 (lineOf la)) (lineOf la) false pass
      let p := memPoison s1 (lineOf la) &&& spanSectors (la % 128) n
      (s1, some { code := if p = 0 then 0 else 3, data := BitVec.ofNat 1024 (lineRead (memLine s1 (lineOf la)) (la % 128) n), poison := p }))
  | .write la m d p pass =>
    rxAdmit s la m true pass (fun s0 => (fabNote (homeWrite s0 none (lineOf la) m d p) (lineOf la) true pass, okAns 0))
  | .atom la op x pass acq rel =>
    let n := opBytes (.atom op .fab .rlx)
    rxAtom s chip la n pass (fun _ => acq) rel (fun old => (aopApply op old (bitsOf x.toNat 0 (8 * n)) % 2 ^ (8 * n), true))
  | .cas la is64 facq exp new pass acq rel =>
    let n := if is64 then 8 else 4
    let hit := fun (old : Nat) => decide (old = bitsOf exp.toNat 0 (8 * n))
    rxAtom s chip la n pass (fun old => if facq || hit old then acq else none) rel (fun old => (bitsOf new.toNat 0 (8 * n), hit old))
  | .acc la fmt src rand pass =>
    let n := accDstBytes fmt
    rxAdmit s la (spanMask (la % 128) n) true pass (fun s0 => rxElem s0 la n pass none (fun old => (accNew fmt rand src old, true)))
  | .red line ty op m vals pass =>
    rxAdmit s (line * 128) m true pass (fun s0 =>
      let r := rxRed s0 line ((if ty = .bf16 then 16 else redWidth ty) / 8) ty op vals
      (fabNote r.1 line true pass, codeAns r.2))
  | .promote core =>
    let r := promoteCore s core s.nextId
    (r.1, if r.2 then okAns 0 else none)
/-- The transactions of a pair performed in ascending order, up to a gap or one that is held, which is noted at its line; `n` bounds
them. -/
def rxRun (chip plane : Nat) : Nat → State → State
  | 0, s => s
  | n + 1, s =>
    let k := fabKey chip plane
    let x := getRx s k
    match tget x.window x.nexp with
    | none => s
    | some req =>
      let r := rxServe s chip req
      match r.2 with
      | none => noteHold r.1 (reqLine req) (.fabricRequestArrival chip plane x.nexp 0 req)
      | some a =>
        rxRun chip plane n (rxSend (setRx r.1 k { x with
          nexp := snNext x.nexp, window := tdel x.window x.nexp, kept := tset x.kept x.nexp a }) chip plane x.nexp (some a))
/-- Every pair's held transactions tried again. -/
def rxRetry (s : State) : State := (tkeys s.fab.rx).foldl (fun a k => rxRun (k / 16) (k % 16) 1024 a) s
/-- LOW of a pair taken from a request: kept responses below it go (R139). A LOW above NEXP, after the source has retired numbers
ABSENT that were never performed (R142), moves neither NEXP nor what waits behind the gap: R139 lets that wait, and says nothing of a gap
that is never filled (log 92). -/
def rxLow (x : RxSt) (low : Nat) : RxSt :=
  { x with kept := x.kept.filter (fun (y : Nat × FabAns) => !(snBefore y.1 low)), low := low }
/-- A transaction that arrives at the receiver (R139): taken into the window and performed in order, answered PENDING while it
waits there, or answered again. -/
def rxTake (s : State) (chip plane sn low : Nat) (req : FabReq) : State :=
  let k := fabKey chip plane
  let x := rxLow (getRx s k) low
  let s1 := setRx s k x
  if snBefore sn x.nexp then
    (match tget x.kept sn with | some a => rxSend s1 chip plane sn (some a) | none => s1)
  else if (tget x.window sn).isSome then rxRun chip plane 1024 (rxSend s1 chip plane sn none)
  else if (sn + 2 ^ 32 - x.nexp) % 2 ^ 32 ≥ 1024 then s1
  else rxRun chip plane 1024 (setRx s1 k { x with window := tset x.window sn req })

end Sys2Proof.Machine
end

