-- ==== Sys2Proof/Machine/HostMem.lean ====
section
/-! DEFINITION. The host's side of the bytes (R125 to R128, Table 5.8): CXL.mem reads and writes of halves of device memory,
and snoops of host-window halves that the device caches. -/

namespace Sys2Proof.Machine

/-- A request that wakes the compute dies from idle (R410). -/
def wake (s : State) : State := { s with mgmt := { s.mgmt with idle := false, idleFor := 0 } }
/-- Byte mask of a half within its line, and its sectors. -/
def halfMask (half : Nat) : LineMask := spanMask (half % 2 * 64) 64
def halfSectors (half : Nat) : BitVec 4 := if half % 2 = 0 then 0x3 else 0xC
/-- 64 bytes put at a half's place in its line. -/
def halfAt (half : Nat) (d : BitVec 512) : Line := lineAt (half % 2 * 64) 64 d.toNat
/-- A half of every L1 copy invalidated, dirty bytes merged first (R126); the other half stays valid. -/
def dropHalf (s : State) (half : Nat) : State :=
  let line := half / 2
  let s1 := recallOw s line none
  { s1 with cores := s1.cores.map (fun x => (x.1, { x.2 with
      l1 := (x.2.l1.map (fun y => if y.line = line then { y with valid := y.valid &&& ~~~(halfSectors half) } else y)).filter (·.valid ≠ 0) })) }
/-- Host state of a half set; a line with no half in a state leaves the tracking list, another comes first in it (R126). -/
def setHost (s : State) (half : Nat) (st : Option Bool) : State :=
  let line := half / 2
  let h := match st with | some o => tset s.coh.host half o | none => tdel s.coh.host half
  let rest := s.coh.tracked.filter (· ≠ line)
  { s with coh := { s.coh with
      host := h
      tracked := if (tget h (2 * line)).isSome || (tget h (2 * line + 1)).isSome then line :: rest else rest } }
/-- Whether a slice can track a line's host state: it does so already, or tracks fewer than 4,096 lines; otherwise its least
recently used tracked line is back-invalidated first (R126). -/
def trackRoom (s : State) (line : Nat) : State × Bool :=
  let same := s.coh.tracked.filter (fun x => homeSlice x = homeSlice line)
  if same.contains line || same.length < 4096 then (s, true)
  else match same.getLast? with
    | none => (s, true)
    | some v => (snoopAll s true ([2 * v, 2 * v + 1].filter (halfBusy s)), false)

/-- A half sent to the host: its bytes, poisoned when either sector is (R125). -/
def hostAnswer (s : State) (half : Nat) : State :=
  let line := half / 2
  let d := BitVec.ofNat 512 (lineRead (memLine s line) (half % 2 * 64) 64)
  { s with mgmt := { s.mgmt with hostOut := (half, d, (memPoison s line &&& halfSectors half) ≠ 0) :: s.mgmt.hostOut } }
/-- A half of the host's bytes merged at the home; a poisoned one poisons both of its sectors, whatever bytes it brings (R125). -/
def hostMerge (s : State) (half : Nat) (m : LineMask) (d : BitVec 512) (poison : Bool) : State :=
  let line := half / 2
  let s1 := memMerge s line m (halfAt half d) 0
  let s2 := if poison then { s1 with mem := { s1.mem with poison := poisonSet s1.mem.poison line (halfSectors half) (halfSectors half) } } else s1
  noteWrite (setRecord (llcTouch s2 line (maskSectors m ||| (if poison then halfSectors half else 0))) line none) line
/-- A host read served (R126). -/
def hostRead (s : State) (half : Nat) : State :=
  let s1 := homeRead s (half / 2)
  let st := match tget s1.coh.host half with | some o => o | none => false
  hostAnswer (setHost (llcValid (llcTouch s1 (half / 2) 0) (half / 2) (halfSectors half) 0) half (some st)) half
/-- A host write or ownership request served (R126): every L1 copy of the half goes, the bytes are merged. A write leaves the
half with no host state, a request for ownership leaves it OWNED and out of the slice, which keeps the other half (R121). -/
def hostWrite (s : State) (half : Nat) (own : Bool) (mask : BitVec 64) (data : BitVec 512) (poison : Bool) : State :=
  let line := half / 2
  let m : LineMask := mask.setWidth 128 <<< (half % 2 * 64)
  let s1 := dropHalf s half
  let s2 := if m = 0 && !poison then s1 else hostMerge s1 half m data poison
  setHost (llcValid (llcTouch s2 line 0) line (if own then 0 else halfSectors half) (if own then halfSectors half else 0)) half
    (if own then some true else none)

/-- Whether a host request is held: by a lease, after a yield, by a copy in the fabric home slice, or for want of room (R59, R126, R128,
R136, R158). -/
def hostAdmit (s : State) (half : Nat) (write : Bool) : State × Bool :=
  if heldLa s (half * 64) then (s, false)
  else if fabBusy s (half / 2) write then (fabSnoop s (half / 2) (!write), false)
  else match tget s.coh.snoops half with
    | some (0, k) => ({ s with coh := { s.coh with snoops := tset s.coh.snoops half (1, k) } }, true)
    | some _ => (s, false)
    | none =>
      let r := trackRoom s (half / 2)
      if !r.2 then r else llcRoom r.1 (half / 2)
/-- A host request to device memory tried: true when it has been served. -/
def hostTry (s : State) (i : Instr) : State × Bool :=
  match i with
  | .hostMemRead half =>
    let r := hostAdmit s half false
    if r.2 then (hostRead r.1 half, true) else r
  | .hostMemWrite half own mask data poison =>
    let r := hostAdmit s half true
    if r.2 then (hostWrite r.1 half own mask data poison, true) else r
  | _ => (s, true)
/-- The half that a host request names. -/
def halfOfReq (i : Instr) : Nat := match i with | .hostMemRead h => h | .hostMemWrite h _ _ _ _ => h | _ => 0
/-- A held host request tried again: it waits behind an earlier one for the same half, and leaves the queue once it has been served. -/
def hostAgain (s : State) (i : Instr) : State :=
  if !(s.coh.heldHost.contains i) || (s.coh.heldHost.takeWhile (· ≠ i)).any (fun j => halfOfReq j = halfOfReq i) then s
  else
    let r := hostTry s i
    if r.2 then { r.1 with coh := { r.1.coh with heldHost := r.1.coh.heldHost.erase i } } else r.1
/-- Held requests of other devices and of the host tried again, the host's in the order in which they came. -/
def heldRetry (s : State) : State := (rxRetry s).coh.heldHost.foldl hostAgain (rxRetry s)

/-- Whether the host port is closed to CXL.mem (R416). -/
def hostClosed (s : State) : Bool :=
  match s.mgmt.phase with | .committing | .retained | .waking => true | _ => false
/-- A host request to device memory, which the HDM decoder takes once firmware has been accepted (R401): answered poisoned or discarded while the port is closed, held, or served. -/
def hostRequest (s : State) (half : Nat) (i : Instr) : Out :=
  if s.mgmt.off || !s.mgmt.booted || half * 64 ≥ 0x8000000000 then .next s
  else if hostClosed s then
    let m := { s.mgmt with hostDrop := min (s.mgmt.hostDrop + 1) (2 ^ 32 - 1) }
    .next (match i with
      | .hostMemRead h => { s with mgmt := { m with hostOut := (h, 0, true) :: m.hostOut } }
      | _ => { s with mgmt := m })
  else
    let s0 := wake s
    let wait := fun (q : State) => noteHold { q with coh := { q.coh with heldHost := q.coh.heldHost ++ [i] } } (half / 2) i
    if s0.coh.heldHost.any (fun j => halfOfReq j = half) then .next (wait s0)
    else
      let r := hostTry s0 i
      .next (if r.2 then settleAll r.1 else wait r.1)
/-- HOST_MEM_READ (R126, R128, R416). -/
def execHostMemRead (half : Nat) (s : State) : Out := hostRequest s half (.hostMemRead half)
/-- HOST_MEM_WRITE (R126, R128, R416). -/
def execHostMemWrite (half : Nat) (own : Bool) (mask : BitVec 64) (data : BitVec 512) (poison : Bool) (s : State) : Out :=
  hostRequest s half (.hostMemWrite half own mask data poison)

/-- A request of the host that the closed port refuses (R416). -/
def hostRefuse (s : State) : State := { s with mgmt := { s.mgmt with hostDrop := min (s.mgmt.hostDrop + 1) (2 ^ 32 - 1) } }
/-- HOST_SNOOP (R127): a host-window half that the device caches is answered; an invalidation drops every copy of the half, in the L1s and in
the slice, and the host's own new bytes, if it writes some, then stand in its memory. A closed port answers none (R416). -/
def execHostSnoop (half : Nat) (k : SnoopKind) (data : Option (BitVec 512 × Bool)) (s : State) : Out :=
  let line := half / 2
  if tgtLocal (half * 64) ≠ .host || s.mgmt.off then .next s
  else if hostClosed s then .next (hostRefuse s)
  else
    let s0 := wake s
    match k with
    | .data =>
      let s1 := recallOw s0 line none
      .next (hostAnswer { s1 with coh := { s1.coh with
        window := match tget s1.coh.window half with | some _ => tset s1.coh.window half false | none => s1.coh.window } } half)
    | .inv =>
      let s1 := hostAnswer (dropHalf s0 half) half
      let s2 := hostPoison (llcValid { s1 with coh := { s1.coh with window := tdel s1.coh.window half } } line 0 (halfSectors half)) line
      .next (match data with
        | none => s2
        | some d => memMerge s2 line (halfMask half) (halfAt half d.1) (if d.2 then halfSectors half else 0))

end Sys2Proof.Machine
end

