-- ==== Sys2Proof/Machine/Layout.lean ====
section
/-! DEFINITION. The layout engines (R51, R52, R70): LAYOUT and the events that start and end its command. -/

namespace Sys2Proof.Machine

def lySrc (b : Nat) : Nat := bitsOf b 0 64
def lyDst (b : Nat) : Nat := bitsOf b 64 64
def lySsrc (b : Nat) : Nat := bitsOf b 128 64
def lySdst (b : Nat) : Nat := bitsOf b 192 64
def lyM (b : Nat) : Nat := bitsOf b 256 20
def lyK (b : Nat) : Nat := bitsOf b 276 16
def lyFmt (b : Nat) : Nat := bitsOf b 292 3
def lyPitch (b : Nat) : Nat := bitsOf b 320 32
def lyFirst (b : Nat) : Nat := bitsOf b 392 20
/-- Bytes of a row, chunks of a row, and the same of a scale row. -/
def lyRow (b : Nat) : Nat := layRowBytes (lyFmt b) (lyK b)
def chunks (n : Nat) : Nat := (n + 1023) / 1024
/-- LAYOUT: queued on the engine of the destination's stack, or of the lowest stack of the core's die. -/
def execLayout (a : Fin 32) (n : BitVec 6) (s : State) : Out :=
  runWord s (pendingOn [64 + a.val]) (fun cx =>
    issueCmd cx s n.toNat a.val 64 64 (fun _ _ => true) (fun s1 blk =>
      let core := cx.grp.core
      let r := xlateNow s1 (some core) (dieOfCore core) (lyDst blk)
      match r.2 with
      | .wait => .stall (tagBack r.1 core n.toNat)
      | x =>
        let t : Option Nat := match x with
          | .ok e => if tgtOf r.1 (daOf e (lyDst blk)) = Tgt.hbm then some (localOf (daOf e (lyDst blk)) / 2 ^ 36) else none
          | _ => none
        let bad := match x with | .fault _ => true | _ => false
        let st := t.getD (dieOfCore core * 4)
        if (getStack r.1 st).layq.length ≥ 8 then .stall (tagBack r.1 core n.toNat)
        else
          let f := freshId r.1
          .ok (modStack f.2 st (fun k => { k with layq := k.layq ++
            [{ id := f.1, core := core, block := cx.grp.block, tag := n.toNat, baddr := sGet cx.grp a.val, blk := blk, badDst := bad,
               started := false, done := 0, stat := 0, ended := false }] }))))
/-- ARG (Table 3.10). -/
def layBad (b : Nat) : Bool :=
  let k := lyK b
  bitsOf b 295 25 ≠ 0 || bitsOf b 412 100 ≠ 0 || lyDst b % 2 ^ 21 ≠ 0 || lyM b = 0 || k = 0 || lyFmt b > 4 || lyFirst b + lyM b > 2 ^ 20
    || (if lyFmt b = 3 then k % 32 ≠ 0 || lySdst b % 2 ^ 21 ≠ 0 else lySsrc b ≠ 0 || lySdst b ≠ 0)
    || (lyFmt b = 4 && k % 2 = 1) || lyPitch b < lyRow b
/-- Pages of 64 KiB that rows of a bank-striped matrix with `c` chunks a row touch (R51). -/
def stripePages (base c first m : Nat) : List Nat :=
  ((List.range m).map (fun i => (List.range c).map (fun j =>
    (base + ((first + i) / 2048 * c + j) * 2 ^ 21 + (first + i) % 2048 / 64 * 65536) / 65536))).flatten.eraseDups
/-- Whether the pages lie in one stack and in the channels that their addresses name (R52), with that stack once it is known;
pages without a translation are left to the writing. none while a translation waits. -/
def stripeOk (s : State) (die : Nat) (ps : List Nat) : State × Option (Bool × Option Nat) :=
  ps.foldl (fun (a : State × Option (Bool × Option Nat)) p =>
    match a.2 with
    | some (true, k) =>
      let r := xlateNow a.1 none die (p * 65536)
      match r.2 with
      | .wait => (r.1, none)
      | .fault _ => (r.1, some (true, k))
      | .ok e =>
        let la := localOf (daOf e (p * 65536))
        let one := match k with | some x => la / 2 ^ 36 = x | none => true
        (r.1, some (tgtOf r.1 (daOf e (p * 65536)) = .hbm && one && bitsOf la 16 5 = p % 32, some (la / 2 ^ 36)))
    | _ => a) (s, some (true, none))
/-- Whether an address translates to local HBM, or does not translate; none while the translation waits. -/
def hbmOrFault (s : State) (die va : Nat) : State × Option Bool :=
  let r := xlateNow s none die va
  match r.2 with
  | .wait => (r.1, none)
  | .fault _ => (r.1, some true)
  | .ok e => (r.1, some (tgtOf r.1 (daOf e va) = .hbm))
/-- The destinations of a LAYOUT checked before anything is written: DST, the rows, and for MXFP4 the scale rows (R52, R70).
none while a translation waits. -/
def laySpan (s : State) (die b : Nat) : State × Option Bool :=
  let d := hbmOrFault s die (lyDst b)
  match d.2 with
  | some true =>
    let r := stripeOk d.1 die (stripePages (lyDst b) (chunks (lyRow b)) (lyFirst b) (lyM b))
    match r.2 with
    | some (true, _) =>
      if lyFmt b = 3 then
        let q := stripeOk r.1 die (stripePages (lySdst b) (chunks (lyK b / 32)) (lyFirst b) (lyM b))
        (q.1, q.2.map (·.1))
      else (r.1, some true)
    | x => (r.1, x.map (·.1))
  | x => (d.1, x)
/-- LAYOUT_COMMAND_START (R70): the oldest command of the engine is taken and its block checked. -/
def execLayoutCommandStart (st : Nat) (s : State) : Out :=
  match (getStack s st).layq with
  | [] => .next s
  | c :: t =>
    if c.started then .next s
    else
      let b := c.blk
      let put := fun (q : State) (x : LayCmd) => Host.Outcome.next (modStack q st (fun k => { k with layq := x :: t }))
      if layBad b then put s { c with started := true, stat := 1, ended := true }
      else if c.badDst then put s { c with started := true, stat := 3, ended := true }
      else
        let q := laySpan s (st / 4) b
        match q.2 with
        | none => .next q.1
        | some false => put q.1 { c with started := true, stat := 2, ended := true }
        | some true => put q.1 { c with started := true }
/-- Whether some bytes lie where a layout engine reaches, in HBM of this device, as far as they translate (R109). -/
def layReach (s : State) (die va n : Nat) : Bool :=
  (pieces (n / 128 + 2) (va % 2 ^ 64) n 0).all (fun p => match (xlateNow s none die p.1).2 with
    | .ok e => decide (tgtOf s (daOf e p.1) = .hbm)
    | _ => true)
/-- A row of `c` chunks written into a bank-striped matrix, the rest of its last chunk with zeros (R51, R70); chunks before one that cannot
be written stay written, and one that lies outside HBM cannot be (R109, log 101). -/
def stripeRow (s : State) (die base c m v : Nat) (poi : Option (Nat × Nat)) : State × Take :=
  (List.range c).foldl (fun (a : State × Take) j =>
    match a.2 with
    | .ok _ _ =>
      let past : Bool := match poi with | some q => decide (q.1 + q.2 ≤ 1024 * j) | none => false
      if past then a
      else
        let p := match poi with
          | some q => if q.1 < 1024 * (j + 1) then some (q.1 - 1024 * j, min (q.1 + q.2) (1024 * (j + 1)) - max q.1 (1024 * j)) else none
          | none => none
        let va := base + (m / 2048 * c + j) * 2 ^ 21 + m % 2048 * 1024
        if layReach a.1 die va 1024 then giveSpan a.1 die 0 none ⟨none, va, 1024⟩ (bitsOf v (8192 * j) 8192) p 0 true
        else (a.1, .fault scNoAddr)
    | _ => a) (s, .ok 0 none)
/-- One matrix row copied: done, held, or a status; a source outside HBM stops it with FAULT (R109, log 101). -/
def layRow (s : State) (st : Nat) (b i : Nat) (src base n c : Nat) : State × Option Nat :=
  let die := st / 4
  let r := takeSpans s die 0 [⟨none, src, n⟩]
  if !(layReach s die src n) then (s, some 3)
  else match r.2 with
  | .ok v poi =>
    let w := stripeRow r.1 die base c (lyFirst b + i) v poi
    match w.2 with
    | .ok _ _ => (w.1, some (if poi.isSome then 4 else 0))
    | .wait => (w.1, none)
    | _ => (w.1, some 3)
  | .wait => (r.1, none)
  | _ => (r.1, some 3)
/-- Rows in ascending order until one is held or stops; `k` bounds them. -/
def layGo (st b : Nat) : Nat → State → Nat → State × Nat × Option Nat
  | 0, s, i => (s, i, if i ≥ lyM b then some 0 else none)
  | k + 1, s, i =>
    if i ≥ lyM b then (s, i, some 0)
    else
      let r := layRow s st b i (lySrc b + i * lyPitch b) (lyDst b) (lyRow b) (chunks (lyRow b))
      let q := match r.2 with
        | some 0 => if lyFmt b = 3 then layRow r.1 st b i (lySsrc b + i * (lyK b / 32)) (lySdst b) (lyK b / 32) (chunks (lyK b / 32)) else r
        | _ => r
      match q.2 with
      | none => (q.1, i, none)
      | some 0 => layGo st b k q.1 (i + 1)
      | some v => (q.1, i, some v)
/-- LAYOUT_COMMAND_END (R70): the rows are written as far as nothing holds them; DONE and STATUS are written, the tag becomes ready. -/
def execLayoutCommandEnd (st : Nat) (s : State) : Out :=
  match (getStack s st).layq with
  | [] => .next s
  | c :: t =>
    if !c.started then .next s
    else
      let r := if c.ended then (s, c.done, some c.stat) else layGo st c.blk (lyM c.blk - c.done) s c.done
      match r.2.2 with
      | none =>
        let row := fun (src base n k : Nat) => (⟨none, src, n⟩ : EngSpan) :: (List.range k).map (fun j =>
          let m := lyFirst c.blk + r.2.1
          ⟨none, base + (m / 2048 * k + j) * 2 ^ 21 + m % 2048 * 1024, 1024⟩)
        let xs := row (lySrc c.blk + r.2.1 * lyPitch c.blk) (lyDst c.blk) (lyRow c.blk) (chunks (lyRow c.blk))
          ++ (if lyFmt c.blk = 3 then row (lySsrc c.blk + r.2.1 * (lyK c.blk / 32)) (lySdst c.blk) (lyK c.blk / 32) (chunks (lyK c.blk / 32)) else [])
        .next (spanHolds (modStack r.1 st (fun k => { k with layq := { c with done := r.2.1 } :: t })) (st / 4) xs (.layoutCommandEnd st))
      | some v =>
        let fin := fun (rep : Bool) (q : State) =>
          modStack q st (fun k => { k with layq := { c with done := r.2.1, stat := v, ended := true, reported := rep } :: t })
        let w := reportTry (fin c.reported r.1) st c.id c.reported (fin true)
          (fun q => accWrite q none (st / 4) (c.baddr.toNat + 44) 5 (r.2.1 + v * 2 ^ 32) 0 false)
        if !w.2 then .next w.1
        else .next (cmdDone (modStack w.1 st (fun k => { k with layq := t })) c.core c.id (some c.tag) .layout (BitVec.ofNat 64 v) c.block none none)

end Sys2Proof.Machine
end

