-- ==== Sys2Proof/Machine/SmallMatrix.lean ====
section
/-! DEFINITION. The per-lane small-matrix instructions (R214, R290 to R300): views, shape words, pivot tests, and SMM, SMADD,
STRN, SCHOL, SLUF, SSOL, STRS and SDET. The octets' cycle count of R300 is timing and is not modelled. -/

namespace Sys2Proof.Machine

/-! ## Shapes and views -/

/-- A shape word (Table 11.8). -/
structure Shape where
  m : Nat
  n : Nat
  k : Nat
  sel : Bool
  unit : Bool
  tr : Bool
  rest : Bool
  deriving DecidableEq, Repr

/-- The fields of a shape word; `rest` says that a reserved bit is set. -/
def shapeOf (w : W64) : Shape :=
  let x := w.toNat
  { m := bitsOf x 0 3, n := bitsOf x 3 3, k := bitsOf x 6 3, sel := x.testBit 12, unit := x.testBit 13, tr := x.testBit 14,
    rest := bitsOf x 9 3 ≠ 0 || x / 2 ^ 15 ≠ 0 }

/-- View kinds (Table 9.3). -/
inductive ViewKind where | g32 | g64 | sym
  deriving DecidableEq, Repr

/-- Registers of an m × n view (Table 9.3). -/
def viewRegs (v : ViewKind) (m n : Nat) : Nat :=
  match v with
  | .g32 => (m * n + 1) / 2
  | .g64 => m * n
  | .sym => m * (m + 1) / 2

/-- A matrix in row-major order; an element outside it is +0. -/
structure Mat where
  rows : Nat
  cols : Nat
  els : List Nat
  deriving DecidableEq, Repr

def matAt (x : Mat) (i j : Nat) : Nat := x.els.getD (i * x.cols + j) 0
def matSet (x : Mat) (i j v : Nat) : Mat := { x with els := x.els.set (i * x.cols + j) v }

/-- Element (i, j) of a view in a lane (Table 9.3). -/
def viewAt (g : Group) (l vb : Nat) (v : ViewKind) (n i j : Nat) : Nat :=
  match v with
  | .g32 => let k := i * n + j; bitsOf (vGet g l (vb + k / 2)).toNat (32 * (k % 2)) 32
  | .g64 => (vGet g l (vb + i * n + j)).toNat
  | .sym => let a := max i j; let b := min i j; (vGet g l (vb + a * (a + 1) / 2 + b)).toNat
/-- A view read as a full matrix. -/
def viewMat (g : Group) (l vb : Nat) (v : ViewKind) (m n : Nat) : Mat :=
  { rows := m, cols := n, els := (List.range (m * n)).map (fun p => viewAt g l vb v n (p / n) (p % n)) }
/-- The registers of a view that hold a matrix, in order; an odd FP32 element count leaves the last [63:32] 0 (R214). -/
def matRegs (v : ViewKind) (x : Mat) : List W64 :=
  match v with
  | .g32 => (List.range (viewRegs .g32 x.rows x.cols)).map (fun r =>
      BitVec.ofNat 64 (x.els.getD (2 * r) 0 + (x.els.getD (2 * r + 1) 0) * 2 ^ 32))
  | .g64 => x.els.map (BitVec.ofNat 64)
  | .sym => ((List.range x.rows).map (fun i => (List.range (i + 1)).map (fun j => BitVec.ofNat 64 (matAt x i j)))).flatten

/-- The format and view of an instruction's SF. -/
def smFmt : SmF → Fmt | .fp32 => fmt32 | _ => fmt64
def smView : SmF → ViewKind | .fp32 => .g32 | .fp64 => .g64 | .sym64 => .sym
/-- The view of a general right-hand side (Table 11.9). -/
def smRhs : SmF → ViewKind | .fp32 => .g32 | _ => .g64
/-- The largest size of a field (R291). -/
def smMax : SmF → Nat | .fp32 => 6 | .fp64 => 5 | .sym64 => 6
/-- Whether a size field is legal. -/
def smSize (f : SmF) (x : Nat) : Bool := 1 ≤ x && x ≤ smMax f

/-! ## Arithmetic with pivots -/

/-- What a lane's computation has raised so far. -/
structure SmSt where
  fl : Flags
  sing : Bool
  near : Bool
  deriving DecidableEq, Repr

/-- The fixed facts of a computation: format, rounding mode, threshold code and amax. -/
structure SmEnv where
  f : Fmt
  rm : Rm
  thr : Nat
  amax : FVal

/-- The state with the flags of a result joined. -/
def smFl (st : SmSt) (r : FRes) : Nat × SmSt := (r.1, { st with fl := st.fl ||| r.2 })
/-- fma(−x, y, z), rounded once (R293). -/
def smFnma (e : SmEnv) (st : SmSt) (x y z : Nat) : Nat × SmSt := smFl st (fFma e.f e.rm (fNegBits e.f x) y z)
def smDiv (e : SmEnv) (st : SmSt) (x y : Nat) : Nat × SmSt := smFl st (fDiv e.f e.rm x y)

/-- |x| of an element; none for a NaN. -/
def magOf (f : Fmt) (x : Nat) : Option FVal :=
  match fUnpack f x with
  | .nan _ => none
  | .inf _ => some (.inf false)
  | .fin _ m e => some (.fin false m e)
/-- amax over elements: the largest magnitude of those that are not NaN (R293); 0 when there is none. -/
def amaxOf (f : Fmt) (xs : List Nat) : FVal :=
  (xs.filterMap (magOf f)).foldl (fun a x => if fvCmp a x = .lt then x else a) (.fin false 0 0)

/-- σ of R293. -/
def sigmaOf (f : Fmt) (amax : FVal) : Nat :=
  match amax with
  | .fin _ m e =>
    if m = 0 then (fRound f .rne false false 1 0 false).1
    else let r := (fRound f .rne false false m (e - f.fb) false).1; if r = 0 then 1 else r
  | _ => (fRound f .rne false false 1 0 false).1

/-- The pivot test (R293): whether the pivot is singular, and SING and NEARSING noted. -/
def pivotTest (e : SmEnv) (chol : Bool) (st : SmSt) (p : Nat) : Bool × SmSt :=
  let v := fUnpack e.f p
  let singular := fvIsNan v || fvIsZero v || (chol && fvNeg v)
  let near := !singular && e.thr ≠ 0 && (match magOf e.f p with
    | none => false
    | some mg => match e.amax with
      | .fin _ m x => fvCmp mg (.fin false m (x - 3 * e.thr)) = .lt
      | .inf _ => fvCmp mg (.inf false) = .lt
      | .nan _ => false)
  (singular, { st with sing := st.sing || singular, near := st.near || near })
/-- A pivot, replaced by σ when singular. -/
def pivotOr (e : SmEnv) (chol : Bool) (st : SmSt) (p : Nat) : Nat × SmSt :=
  let (s, st1) := pivotTest e chol st p
  (if s then sigmaOf e.f e.amax else p, st1)

/-- R295. -/
def scholCol (e : SmEnv) (a : Mat) (n j : Nat) (acc : Mat × SmSt) : Mat × SmSt :=
  let dotGo := fun (i : Nat) (z : Nat) (l : Mat) (st : SmSt) =>
    (List.range j).foldl (fun (q : Nat × SmSt) k => smFnma e q.2 (matAt l i k) (matAt l j k) q.1) (z, st)
  let (p0, st1) := dotGo j (matAt a j j) acc.1 acc.2
  let (p, st2) := pivotOr e true st1 p0
  let (d, st3) := smFl st2 (fSqrt e.f e.rm p)
  let l1 := matSet acc.1 j j d
  (rangeFrom (j + 1) (n - 1 - j)).foldl (fun (q : Mat × SmSt) i =>
    let (z, st4) := dotGo i (matAt a i j) q.1 q.2
    let (r, st5) := smDiv e st4 z d
    (matSet q.1 i j r, st5)) (l1, st3)
def scholVal (e : SmEnv) (a : Mat) (n : Nat) (st : SmSt) : Mat × SmSt :=
  (List.range n).foldl (fun acc j => scholCol e a n j acc) ({ rows := n, cols := n, els := List.replicate (n * n) 0 }, st)

/-- Rows i and p exchanged. -/
def swapRows (x : Mat) (i p : Nat) : Mat :=
  (List.range x.cols).foldl (fun (y : Mat) j => matSet (matSet y i j (matAt x p j)) p j (matAt x i j)) x
/-- The pivot row of step j (R296). -/
def pivotRow (f : Fmt) (w : Mat) (n j : Nat) : Nat :=
  ((rangeFrom j (n - j)).foldl (fun (b : Nat × Option FVal) i =>
    match magOf f (matAt w i j), b.2 with
    | none, _ => b
    | some v, none => (i, some v)
    | some v, some u => if fvCmp u v = .lt then (i, some v) else b) (j, none)).1
/-- Elimination below row j (R296). -/
def luStep (e : SmEnv) (n j : Nat) (w : Mat) (st : SmSt) : Mat × SmSt :=
  (rangeFrom (j + 1) (n - 1 - j)).foldl (fun (q : Mat × SmSt) i =>
    let (r, st1) := smDiv e q.2 (matAt q.1 i j) (matAt q.1 j j)
    (rangeFrom (j + 1) (n - 1 - j)).foldl (fun (t : Mat × SmSt) k =>
      let (v, st2) := smFnma e t.2 r (matAt t.1 j k) (matAt t.1 i k)
      (matSet t.1 i k v, st2)) (matSet q.1 i j r, st1)) (w, st)
/-- R296: factors and pivot rows. -/
def slufVal (e : SmEnv) (a : Mat) (n : Nat) (st : SmSt) : Mat × List Nat × SmSt :=
  (List.range n).foldl (fun (acc : Mat × List Nat × SmSt) j =>
    let p := pivotRow e.f acc.1 n j
    let w := swapRows acc.1 j p
    let (v, st1) := pivotOr e false acc.2.2 (matAt w j j)
    let (w2, st2) := luStep e n j (matSet w j j v) st1
    (w2, acc.2.1 ++ [p], st2)) (a, [], st)

/-- The steps of R296 in SDET: the pivots, and whether an odd number of steps swapped rows; none when a singular pivot stops
them (R299). -/
def sdetSteps (e : SmEnv) (n : Nat) : List Nat → Mat → Bool → SmSt → Option (List Nat × Bool) × SmSt
  | [], _, odd, st => (some ([], odd), st)
  | j :: js, w0, odd, st =>
    let p := pivotRow e.f w0 n j
    let w := swapRows w0 j p
    let (s, st1) := pivotTest e false st (matAt w j j)
    if s then (none, st1)
    else
      let (w2, st2) := luStep e n j w st1
      match sdetSteps e n js w2 (odd != (p ≠ j)) st2 with
      | (some (ps, o), st3) => (some (matAt w j j :: ps, o), st3)
      | (none, st3) => (none, st3)
/-- The determinant (R299): the pivots multiplied in order, and negated after an odd number of swaps (a NaN stays canonical, R229); +0.0 when a pivot stopped the
steps. -/
def sdetGo (e : SmEnv) (n : Nat) (w : Mat) (st : SmSt) : Nat × SmSt :=
  match sdetSteps e n (List.range n) w false st with
  | (some (p :: ps, o), st1) =>
    let (d, st2) := ps.foldl (fun (a : Nat × SmSt) q => smFl a.2 (fMul e.f e.rm a.1 q)) (p, st1)
    (if o then (match fUnpack e.f d with | .nan _ => d | _ => fNegBits e.f d) else d, st2)
  | (_, st1) => (0, st1)

/-- One substitution of R298 on a column: `el i k` are the elements of the effective triangle. -/
def substGo (e : SmEnv) (el : Nat → Nat → Nat) (n : Nat) (lower unit : Bool) (x : List Nat) (st : SmSt) : List Nat × SmSt :=
  let order := if lower then List.range n else (List.range n).reverse
  order.foldl (fun (q : List Nat × SmSt) i =>
    let ks := if lower then List.range i else rangeFrom (i + 1) (n - 1 - i)
    let (z, st1) := ks.foldl (fun (t : Nat × SmSt) k => smFnma e t.2 (el i k) (q.1.getD k 0) t.1) (q.1.getD i 0, q.2)
    if unit then (q.1.set i z, st1)
    else
      let (p, st2) := pivotOr e false st1 (el i i)
      let (r, st3) := smDiv e st2 z p
      (q.1.set i r, st3)) (x, st)

/-- A column of a matrix, and a column replaced. -/
def matCol (x : Mat) (j : Nat) : List Nat := (List.range x.rows).map (fun i => matAt x i j)
def setCol (x : Mat) (j : Nat) (c : List Nat) : Mat := (List.range x.rows).foldl (fun y i => matSet y i j (c.getD i 0)) x

/-- The exchanges of SSOL with LU factors (R297). -/
def permCol (n : Nat) (piv : W64) (x : List Nat) : List Nat :=
  (List.range n).foldl (fun y j =>
    let q0 := bitsOf piv.toNat (8 * j) 8
    let q := if q0 < j || q0 ≥ n then j else q0
    (y.set j (y.getD q 0)).set q (y.getD j 0)) x

/-- R297 on one column. -/
def ssolCol (e : SmEnv) (a : Mat) (n : Nat) (sel : Bool) (piv : W64) (x : List Nat) (st : SmSt) : List Nat × SmSt :=
  if sel then
    let (y, st1) := substGo e (matAt a) n true false x st
    substGo e (fun i k => matAt a k i) n false false y st1
  else
    let (y, st1) := substGo e (matAt a) n true true (permCol n piv x) st
    substGo e (matAt a) n false false y st1

/-- All columns of a right-hand side. -/
def eachCol (b : Mat) (st : SmSt) (f : List Nat → SmSt → List Nat × SmSt) : Mat × SmSt :=
  (List.range b.cols).foldl (fun (acc : Mat × SmSt) j =>
    let (c, st1) := f (matCol acc.1 j) acc.2
    (setCol acc.1 j c, st1)) (b, st)

/-- The lower or upper triangle of a matrix, diagonal included. -/
def triangle (x : Mat) (upper : Bool) : List Nat :=
  ((List.range (x.rows * x.cols)).filter (fun p => if upper then p / x.cols ≤ p % x.cols else p % x.cols ≤ p / x.cols)).map
    (fun p => x.els.getD p 0)

/-! ## The word -/

/-- The result of a lane: registers written from D on, flags, and whether SING and NEARSING are written. -/
structure SmRes where
  regs : List W64
  fl : Flags
  piv : Option (Bool × Bool)

/-- A small-matrix word (R290 to R293): `sh` gives the shape word; `ok` checks it; `nd` registers are written from D;
`uses` are the registers read. Lanes masked off keep or clear the D registers. -/
def smWord (s : State) (d : Fin 32) (shReg : Ctx → Option Nat) (uses : Shape → List Nat) (nd : Shape → Nat) (ok : Shape → Bool)
    (lane : Ctx → Shape → Nat → SmRes) : Out :=
  let sh := fun cx => match shReg cx with | some r => shapeOf (sGet cx.grp r) | none => shapeOf 0
  runWord s (fun cx =>
      let r := match shReg cx with | some r => [64 + r] | none => []
      regsPending cx.grp cx.path.mask (r ++ uses (sh cx) ++ rangeFrom d.val (min (nd (sh cx)) 32)))
    (fun cx =>
      let w := sh cx
      if shReg cx = none || w.rest || !(ok w) || d.val + nd w > 32 || (uses w).any (· ≥ 32) then operandTrap cx
      else
        let mz := (pfxOf cx).mz
        let rs := (lanesOf cx.path.mask).map (fun l =>
          (l, if laneOn cx l then some (lane cx w l)
            else if mz then some ⟨List.replicate (nd w) 0, noFlags, none⟩ else none))
        .ok (modGroup s cx.gk (fun g => rs.foldl (fun (a : Group) x =>
          match x.2 with
          | none => a
          | some r =>
            let b := (r.regs.zipIdx).foldl (fun (y : Group) v => vSet y x.1 (d.val + v.2) v.1) (flagsAdd a x.1 r.fl)
            match r.piv with
            | none => b
            | some (sg, nr) => modFibre b x.1 (fun f => { f with lstat := lstatSetSing f.lstat sg nr })) g)))

/-- The shape register in C, required by SMM and SMADD (R290). -/
def shapeC (cx : Ctx) : Option Nat :=
  let x := pfxOf cx
  if x.ce && 64 ≤ x.c && x.c < 96 then some (x.c - 64) else none
/-- The shape register in B. -/
def shapeB (b : Fin 32) (_ : Ctx) : Option Nat := some b.val

/-- The environment of a lane's computation. -/
def smEnv (cx : Ctx) (f : SmF) (els : List Nat) : SmEnv :=
  { f := smFmt f, rm := rmCx cx, thr := (pfxOf cx).thr, amax := amaxOf (smFmt f) els }
def smSt0 : SmSt := ⟨noFlags, false, false⟩
/-- Fields an instruction does not use are 0 (R291). -/
def noSol (w : Shape) : Bool := !w.sel && !w.unit && !w.tr

/-- SMM (R294). -/
def execSmm (d a b : Fin 32) (f : SmF) (s : State) : Out :=
  smWord s d shapeC (fun w => rangeFrom a.val (viewRegs (smView f) w.m w.k) ++ rangeFrom b.val (viewRegs (smView f) w.k w.n))
    (fun w => viewRegs (smView f) w.m w.n) (fun w => smSize f w.m && smSize f w.n && smSize f w.k && noSol w)
    (fun cx w l =>
      let x := viewMat cx.grp l a.val (smView f) w.m w.k
      let y := viewMat cx.grp l b.val (smView f) w.k w.n
      let g := smFmt f
      let el := fun (p : Nat) =>
        let i := p / w.n
        let j := p % w.n
        (rangeFrom 1 (w.k - 1)).foldl (fun (acc : FRes) k =>
          let r := fFma g (rmCx cx) (matAt x i k) (matAt y k j) acc.1
          (r.1, acc.2 ||| r.2)) (fMul g (rmCx cx) (matAt x i 0) (matAt y 0 j))
      let rs := (List.range (w.m * w.n)).map el
      ⟨matRegs (smView f) ⟨w.m, w.n, rs.map Prod.fst⟩, rs.foldl (fun a r => a ||| r.2) noFlags, none⟩)
/-- SMADD (R294). -/
def execSmadd (d a b : Fin 32) (f : SmF) (s : State) : Out :=
  smWord s d shapeC (fun w => rangeFrom a.val (viewRegs (smView f) w.m w.n) ++ rangeFrom b.val (viewRegs (smView f) w.m w.n))
    (fun w => viewRegs (smView f) w.m w.n)
    (fun w => smSize f w.m && smSize f w.n && w.k = 0 && noSol w && (f ≠ .sym64 || w.m = w.n))
    (fun cx w l =>
      let x := viewMat cx.grp l a.val (smView f) w.m w.n
      let y := viewMat cx.grp l b.val (smView f) w.m w.n
      let rs := (x.els.zip y.els).map (fun p => fAdd (smFmt f) (rmCx cx) p.1 p.2)
      ⟨matRegs (smView f) ⟨w.m, w.n, rs.map Prod.fst⟩, rs.foldl (fun a r => a ||| r.2) noFlags, none⟩)
/-- STRN (R294): bits move unchanged and no flag is set. -/
def execStrn (d a b : Fin 32) (f : SmF) (s : State) : Out :=
  smWord s d (shapeB b) (fun w => rangeFrom a.val (viewRegs (smView f) w.m w.n)) (fun w => viewRegs (smView f) w.n w.m)
    (fun w => smSize f w.m && smSize f w.n && w.k = 0 && noSol w)
    (fun cx w l =>
      let x := viewMat cx.grp l a.val (smView f) w.m w.n
      ⟨matRegs (smView f) ⟨w.n, w.m, (List.range (w.n * w.m)).map (fun p => matAt x (p % w.m) (p / w.m))⟩, noFlags, none⟩)
/-- SCHOL (R295). -/
def execSchol (d a b : Fin 32) (f : SmF) (s : State) : Out :=
  smWord s d (shapeB b) (fun w => rangeFrom a.val (viewRegs (smView f) w.m w.m)) (fun w => viewRegs (smView f) w.m w.m)
    (fun w => smSize f w.m && w.n = 0 && w.k = 0 && noSol w)
    (fun cx w l =>
      let x := viewMat cx.grp l a.val (smView f) w.m w.m
      let (r, st) := scholVal (smEnv cx f (triangle x false)) x w.m smSt0
      ⟨matRegs (smView f) r, st.fl, some (st.sing, st.near)⟩)
/-- SLUF (R296): the pivot register follows the factors. -/
def execSluf (d a b : Fin 32) (f : SmF) (s : State) : Out :=
  smWord s d (shapeB b) (fun w => rangeFrom a.val (viewRegs (smView f) w.m w.m)) (fun w => viewRegs (smView f) w.m w.m + 1)
    (fun w => smSize f w.m && w.n = 0 && w.k = 0 && noSol w)
    (fun cx w l =>
      let x := viewMat cx.grp l a.val (smView f) w.m w.m
      let (r, ps, st) := slufVal (smEnv cx f x.els) x w.m smSt0
      let pv := ps.foldr (fun p acc => p + 256 * acc) 0
      ⟨matRegs (smView f) r ++ [BitVec.ofNat 64 pv], st.fl, some (st.sing, st.near)⟩)
/-- Size checks of SSOL and STRS: an order and right-hand columns (R291). -/
def solSize (f : SmF) (w : Shape) : Bool :=
  smSize f w.m && smSize f w.n && w.k = 0 && (f ≠ .sym64 || (w.m ≤ 5 && w.n ≤ 5))
/-- SSOL (R297). -/
def execSsol (d a b : Fin 32) (f : SmF) (s : State) : Out :=
  smWord s d (shapeB b) (fun w => rangeFrom a.val (viewRegs (smView f) w.m w.m + (if w.sel then 0 else 1)))
    (fun w => viewRegs (smRhs f) w.m w.n)
    (fun w => solSize f w && !w.unit && !w.tr && (f ≠ .sym64 || w.sel))
    (fun cx w l =>
      let x := viewMat cx.grp l a.val (smView f) w.m w.m
      let y := viewMat cx.grp l d.val (smRhs f) w.m w.n
      let e := smEnv cx f (triangle x (!w.sel))
      let piv := vGet cx.grp l (a.val + viewRegs (smView f) w.m w.m)
      let (r, st) := eachCol y smSt0 (ssolCol e x w.m w.sel piv)
      ⟨matRegs (smRhs f) r, st.fl, some (st.sing, st.near)⟩)
/-- STRS (R298). With UNIT there is no pivot test, so both flags are written 0. -/
def execStrs (d a b : Fin 32) (f : SmF) (s : State) : Out :=
  smWord s d (shapeB b) (fun w => rangeFrom a.val (viewRegs (smView f) w.m w.m)) (fun w => viewRegs (smRhs f) w.m w.n)
    (fun w => solSize f w && (f ≠ .sym64 || !w.sel))
    (fun cx w l =>
      let x := viewMat cx.grp l a.val (smView f) w.m w.m
      let y := viewMat cx.grp l d.val (smRhs f) w.m w.n
      let e := smEnv cx f (triangle x w.sel)
      let el := fun i k => if w.tr then matAt x k i else matAt x i k
      let (r, st) := eachCol y smSt0 (fun c st => substGo e el w.m (w.sel = w.tr) w.unit c st)
      ⟨matRegs (smRhs f) r, st.fl, some (st.sing, st.near)⟩)
/-- SDET (R299). -/
def execSdet (d a b : Fin 32) (f : SmF) (s : State) : Out :=
  smWord s d (shapeB b) (fun w => rangeFrom a.val (viewRegs (smView f) w.m w.m)) (fun _ => 1)
    (fun w => smSize f w.m && w.n = 0 && w.k = 0 && noSol w)
    (fun cx w l =>
      let x := viewMat cx.grp l a.val (smView f) w.m w.m
      let (r, st) := sdetGo (smEnv cx f x.els) w.m x smSt0
      ⟨[BitVec.ofNat 64 r], st.fl, some (st.sing, st.near)⟩)

end Sys2Proof.Machine
end

