-- ==== Sys2Proof/Machine/Matrix.lean ====
section
/-! DEFINITION. The matrix engine (R267 to R283): MQA, MQAX, MQAI, their requests, grants and passes, MSYNC, and the remote tile
fetch MTF and MTFR (R284 to R289). -/

namespace Sys2Proof.Machine

/-! ## Combining rows and columns (R273 to R279) -/

/-- How the elements of a matrix word are read: element width, the formats of A and B, or integers. -/
inductive MatKind where
  | fp (w : Nat) (fa fb : Fmt)
  | mx4
  | int (w : Nat) (sa sb : Bool)
  deriving DecidableEq

/-- Element width in bits; K is 256 divided by it (Table 11.2). -/
def matWidth : MatKind → Nat | .fp w _ _ => w | .mx4 => 4 | .int w _ _ => w
/-- A row of A or a column of B: 256 bits, its scales, and whether a lane supplies it (R277). -/
structure MatVec where
  bits : Nat
  sc0 : Nat
  sc1 : Nat
  given : Bool
/-- Element `k` of a row or column. -/
def matEl (w : Nat) (x : MatVec) (k : Nat) : Nat := bitsOf x.bits (w * k) w
/-- The FP32 canonical NaN. -/
def nan32 : Nat := 0x7FC00000
/-- A leaf of the floating-point tree (R278). A row or column that no lane supplies gives +0, whatever stands beside it. -/
def matLeaf (kd : MatKind) (a b : MatVec) (k : Nat) : Nat :=
  let zero := !(a.given && b.given)
  match kd with
  | .fp w fa fb =>
    let x := fConvert fmt32 fa .rne false (matEl w a k)
    let y := fConvert fmt32 fb .rne false (matEl w b k)
    if zero then 0 else mul32 x.1 y.1
  | .mx4 =>
    let sa := if k < 32 then a.sc0 else a.sc1
    let sb := if k < 32 then b.sc0 else b.sc1
    if zero then 0
    else if sa = 0xFF || sb = 0xFF then nan32
    else match fvMul (fUnpack fmtE2m1 (matEl 4 a k)) (fUnpack fmtE2m1 (matEl 4 b k)) with
      | some (.fin n m e) => (fRound fmt32 .rne false n m (e + (sa + sb : Nat) - 254) false).1
      | _ => nan32
  | .int _ _ _ => 0
/-- One level of the tree: neighbours summed in pairs. -/
def matLevel : List Nat → List Nat
  | x :: y :: t => add32 x y :: matLevel t
  | l => l
/-- The tree of a power-of-two number of leaves, `n` levels. -/
def treeSum : Nat → List Nat → Nat
  | 0, l => l.headD 0
  | n + 1, l => treeSum n (matLevel l)
/-- combine of R277: one element of the result. -/
def matCombine (kd : MatKind) (c : Nat) (a b : MatVec) : Nat :=
  let w := matWidth kd
  let n := 256 / w
  match kd with
  | .int _ sa sb =>
    let v := fun (sg : Bool) (x : Nat) => if sg then toSigned w x else (x : Int)
    ofSigned 32 ((List.range n).foldl (fun (acc : Int) k => acc + v sa (matEl w a k) * v sb (matEl w b k)) (toSigned 32 c))
  | _ => add32 c (treeSum 6 ((List.range n).map (matLeaf kd a b)))

/-! ## Posting a request (R268, R276, R277, R281) -/

/-- Four registers of a lane as one value. -/
def frag (g : Group) (l r : Nat) : Nat :=
  ((List.range 4).map (fun j => (vGet g l (r + j)).toNat * 2 ^ (64 * j))).foldl (· + ·) 0
/-- The accumulator input: D, a fragment, or a constant in every element. -/
inductive MatC where
  | frag (r : Nat)
  | const (x : Nat)
/-- The accumulator input that a prefix gives (R276); none when C is illegal. `r` is the D register. -/
def matC (kd : MatKind) (x : Pfx) (r : Nat) : Option MatC :=
  match kd with
  | .mx4 => if x.ce && x.c < 32 then some (.frag r) else none
  | _ =>
    if !x.ce then some (.frag r)
    else if x.c < 32 then (if x.c % 4 = 0 then some (.frag x.c) else none)
    else match Src.ofCode x.c with
      | some a =>
        (match kd with
        | .int _ _ _ => if x.c < 56 then some (.const (bitsOf (constInt a).toNat 0 32)) else none
        | _ => if x.c < 64 then some (.const (bitsOf (constFp fmt32 a).toNat 0 32)) else none)
      | none => none
/-- Where B is. -/
inductive MatBv where
  | reg (r : Nat)
  | tile (bits : Nat)
/-- The row of A that a lane supplies; `sc` is the scale register, for MXFP4 (R274). -/
def rowOf (cx : Ctx) (l a : Nat) (sc : Option Nat) : MatVec :=
  if cx.path.mask.getLsbD l then
    let x := match sc with | some r => (vGet cx.grp l r).toNat | none => 0
    ⟨frag cx.grp l a, bitsOf x 0 8, bitsOf x 8 8, true⟩
  else ⟨0, 0, 0, false⟩
/-- Column `j` of B for the octet of lane `l` (R275). -/
def colOf (cx : Ctx) (l j : Nat) (b : MatBv) (sc : Option Nat) : MatVec :=
  match b with
  | .tile t => ⟨bitsOf t (256 * j) 256, bitsOf t (2048 + 16 * j) 8, bitsOf t (2056 + 16 * j) 8, true⟩
  | .reg r =>
    let m := l / 8 * 8 + j
    if cx.path.mask.getLsbD m then
      let x := match sc with | some k => (vGet cx.grp m k).toNat | none => 0
      ⟨frag cx.grp m r, bitsOf x 16 8, bitsOf x 24 8, true⟩
    else ⟨0, 0, 0, false⟩
/-- The four D registers of a lane that takes part (R277). -/
def matRow (cx : Ctx) (kd : MatKind) (l d a : Nat) (b : MatBv) (c : MatC) (sc : Option Nat) : List (Nat × Nat × W64) :=
  let row := rowOf cx l a sc
  let cin := fun (j : Nat) => match c with
    | .const x => x
    | .frag r => bitsOf (frag cx.grp l r) (32 * j) 32
  let o := fun (j : Nat) => matCombine kd (cin j) row (colOf cx l j b sc)
  (List.range 4).map (fun j => (l, logicalOf (getFibre cx.grp l) (d + j), BitVec.ofNat 64 (o (2 * j) + o (2 * j + 1) * 2 ^ 32)))
/-- Octets that take part (R268). -/
def matOctets (cx : Ctx) : List Nat := ((partLanes cx).map (· / 8)).eraseDups
/-- Lanes whose D registers MZ clears (R277), with the logical registers. -/
def matZeros (cx : Ctx) (d : Nat) : List (Nat × Nat) :=
  if (pfxOf cx).mz then
    (((lanesOf cx.path.mask).filter (fun l => !(elemOn cx l 0))).map (fun l =>
      (List.range 4).map (fun j => (l, logicalOf (getFibre cx.grp l) (d + j))))).flatten
  else []
/-- Logical registers of a group written. -/
def writeLogs (g : Group) (xs : List (Nat × Nat × W64)) : Group := xs.foldl (fun a x => vSetLog a x.1 x.2.1 x.2.2) g
/-- A launch priority of a group. -/
def groupPrio (s : State) (g : Group) : Nat := match tget s.blocks g.block with | some b => b.hdr.prio | none => 0
/-- Pending marks of a request: destinations and the registers that its pass has still to read (R271). -/
def matPend (cx : Ctx) (id : Nat) (regs : List Nat) : List PendReg :=
  ((lanesOf cx.path.mask).map (fun l => regs.map (fun r => ⟨false, logicalOf (getFibre cx.grp l) r, laneBit l, id⟩))).flatten
/-- The tile of a request (R275, R281): a sub-cause, or its bytes and whether a sector is poisoned. -/
def readTile (s : State) (cx : Ctx) (v : W64) (n : Nat) : Nat ⊕ (Nat × Bool) :=
  let t := bitsOf v.toNat 0 18
  let c := cx.grp.core
  let b := cx.grp.block
  if bitsOf v.toNat 18 46 ≠ 0 || t % 32 ≠ 0 || t + n > spadSize s c b then .inl scSpRange
  else match tget s.blocks b with
    | none => .inl scSpRange
    | some k =>
      if !((bufsTouched k.hdr t n).all (fun i => bufLoadOk (bufState k c i))) then .inl scBufState
      else .inr (spadRead s c b t n, spadPoison s c b t n)
/-- Four registers from one on. -/
def fragRegs (r : Nat) : List Nat := rangeFrom r 4
/-- The registers of C of a matrix word's prefix. -/
def matCRegs (kd : MatKind) (x : Pfx) : List Nat := if x.ce && x.c < 32 then (if kd = .mx4 then [x.c] else fragRegs x.c) else []
/-- Whether the reservation table has no entry for a group (R268). -/
def matFull (s : State) (core gk : Nat) : Bool :=
  let tab := (getCluster s (clusterOf core)).mat
  tab.length ≥ 32 || (tab.filter (·.group = gk)).length ≥ 4
/-- The request of a matrix word posted: its results for the lanes that take part, its zeros, its pending registers (R268, R271, R277).
`br` are the registers that hold B. -/
def matPost (s : State) (cx : Ctx) (kd : MatKind) (d a : Nat) (bv : MatBv) (br : List Nat) (c : MatC) (pois : Bool) (zs : List (Nat × Nat)) : State :=
  let sc := if kd = .mx4 then some (pfxOf cx).c else none
  let f := freshId s
  let outs := ((partLanes cx).map (fun l => matRow cx kd l d a bv c sc)).flatten
  let regs := fragRegs d ++ fragRegs a ++ (match c with | .frag r => fragRegs r | .const _ => []) ++ br
    ++ (match sc with | some r => [r] | none => [])
  let req : MatReq :=
    { id := f.1, core := cx.grp.core, group := cx.gk, prio := groupPrio s cx.grp,
      posted := (tgetD (getCore s cx.grp.core).perf 0 0).toNat, aged := false, granted := false,
      int := match kd with | .int _ _ _ => true | _ => false, outs := outs, zeros := zs, poison := pois }
  modGroup (modCluster f.2 (clusterOf cx.grp.core) (fun q => { q with mat := q.mat ++ [req] })) cx.gk (fun g =>
    { g with pend := g.pend ++ matPend cx f.1 regs })
/-- Bytes of a tile (R275). -/
def tileBytes (kd : MatKind) : Nat := if kd = .mx4 then 272 else 256
/-- A matrix word whose tile cannot be read, in the form of R117: a record of the lanes that take part, helper lanes among them (R362), with
the tile offset (R281). -/
def tileListed (s : State) (cx : Ctx) (d sub : Nat) (v : W64) : State :=
  let f := freshId s
  let w : MemWord :=
    { id := f.1, op := .tile, mask := cx.path.mask, uni := false, caddr := cx.path.pc,
      widx := if cx.path.pfx.isSome then cx.path.widx - 1 else cx.path.widx, word := rotWord cx.path.loop cx.path.cur,
      pfxw := match cx.path.pfx with | some p => rotWord cx.path.loop p.toNat | none => 0,
      lanes := (partLanes cx).map (fun l =>
        (l, { st := .listed sub 0, va := v, d0 := 0, d1 := 0, dlog := logicalOf (getFibre cx.grp l) d })),
      blk := 0, ans := [], replay := false }
  if w.lanes.isEmpty then s else modGroup f.2 cx.gk (fun g => { g with words := g.words ++ [w] })
/-- Whether a tile read waits for what the group has issued before it: a scratchpad word that has not arrived (R166), a FENCE with an acquire
part (R315), an atomic whose acquire part is not complete (R313). -/
def tileWaits (g : Group) (id : Nat) (mask : LaneMask) : Bool :=
  spadAhead g id || g.words.any (fun w => w.id < id && match w.op with
    | .fence _ k => k ≠ .rel && wordOpen w
    | op => w.lanes.any (fun x => mask.getLsbD x.1 && acquiring op x.2))
/-- A matrix compute word (R268, R276, R277, R281). -/
def matWord (s : State) (d a : Fin 32) (b : MatB) (kd : MatKind) : Out :=
  runWord s (fun cx => regsPending cx.grp cx.path.mask (fragRegs d.val ++ fragRegs a.val ++ matCRegs kd (pfxOf cx)
      ++ (match b with | .v r => fragRegs r.val | .tile r => [64 + r.val])))
    (fun cx =>
      let bOk := match b with | .v r => r.val % 4 = 0 | .tile _ => true
      match matC kd (pfxOf cx) d.val with
      | none => operandTrap cx
      | some c =>
        if d.val % 4 ≠ 0 || a.val % 4 ≠ 0 || !bOk then operandTrap cx
        else
          let zs := matZeros cx d.val
          let clear := fun (q : State) => modGroup q cx.gk (fun g => writeLogs g (zs.map (fun z => (z.1, z.2, (0 : W64)))))
          if (matOctets cx).isEmpty then .ok (clear s)
          else if matFull s cx.grp.core cx.gk then .stall s
          else match b with
            | .v r => .ok (matPost s cx kd d.val a.val (.reg r.val) (fragRegs r.val) c false zs)
            | .tile r =>
              if tileWaits cx.grp s.nextId cx.path.mask then .stall s
              else match readTile s cx (sGet cx.grp r.val) (tileBytes kd) with
              | .inl e => .ok (tileListed (clear s) cx d.val e (sGet cx.grp r.val))
              | .inr t => .ok (matPost s cx kd d.val a.val (.tile t.1) [] c t.2 zs))

/-- Kinds of the three matrix words by format (Table 11.3). -/
def mqaKind : MqaF → MatKind
  | .bf16 => .fp 16 fmtB16 fmtB16 | .fp16 => .fp 16 fmt16 fmt16 | .e4m3 => .fp 8 fmtE4m3 fmtE4m3 | .e5m2 => .fp 8 fmtE5m2 fmtE5m2
def mqaxKind : MqaxF → MatKind
  | .mx4 => .mx4 | .e4m3e5m2 => .fp 8 fmtE4m3 fmtE5m2 | .e5m2e4m3 => .fp 8 fmtE5m2 fmtE4m3
def mqaiKind : MqaiF → MatKind
  | .s8 => .int 8 true true | .n8 => .int 8 false true | .s4 => .int 4 true true
/-- MQA (R276 to R278). -/
def execMqa (d a : Fin 32) (b : MatB) (f : MqaF) (s : State) : Out := matWord s d a b (mqaKind f)
/-- MQAX (R276 to R278). -/
def execMqax (d a : Fin 32) (b : MatB) (f : MqaxF) (s : State) : Out := matWord s d a b (mqaxKind f)
/-- MQAI (R276, R279). -/
def execMqai (d a : Fin 32) (b : MatB) (f : MqaiF) (s : State) : Out := matWord s d a b (mqaiKind f)

/-! ## Matrix words that TRET performs (R281, R384) -/

/-- Kind, D and A of a matrix word. -/
def matParts : Instr → Option (MatKind × Nat × Nat)
  | .mqa d a _ f => some (mqaKind f, d.val, a.val)
  | .mqax d a _ f => some (mqaxKind f, d.val, a.val)
  | .mqai d a _ f => some (mqaiKind f, d.val, a.val)
  | _ => none
/-- The path that the replayed lanes of a record stand for: their mask, and the record's prefix without the mask it applied at issue. -/
def replayPath (w : MemWord) (m : LaneMask) : Path :=
  { pc := w.caddr, widx := w.widx, hdr := 0, cur := w.word, mask := m,
    pfx := if w.pfxw = 0 then none else some (BitVec.ofNat 32 w.pfxw &&& 0xFF0EFFFF), y0 := none, y1 := none, y2 := none, loop := none,
    wait := .ready, lndCheck := 0, stalled := false, yielded := false, fresh := false, age := 0, aged := false }
/-- A record of a matrix word performed: its tile is read at the record's address and its request posted once the table has room, or its
lanes are listed again. -/
def tileReplay (s : State) (gk id : Nat) : State :=
  match wordAt s gk id with
  | none => s
  | some (g, w) =>
    let ls := w.lanes.filter (fun x => x.2.st = .walk)
    match ls, decodeNat w.word with
    | x :: _, .ok i =>
      (match matParts i with
      | none => s
      | some (kd, d, a) =>
        let cx : Ctx := ⟨gk, g, replayPath w (maskOf (ls.map Prod.fst)), x.1⟩
        let all := fun (q : State) (st : LaneSt) => ls.foldl (fun r y => setSt r gk id y.1 st) q
        match matC kd (pfxOf cx) d with
        | none => all s .done
        | some c =>
          if matFull s g.core gk || tileWaits g w.id cx.path.mask || regsPending g cx.path.mask (fragRegs d ++ fragRegs a ++ matCRegs kd (pfxOf cx)) then s
          else match readTile s cx x.2.va (tileBytes kd) with
            | .inl e => all s (.listed e 0)
            | .inr t => all (matPost s cx kd d a (.tile t.1) [] c t.2 []) .done)
    | _, _ => s
/-- The matrix words of a cluster's groups that TRET has still to perform, as far as the table takes them. -/
def tileReplays (s : State) (c : Nat) : State :=
  (s.groups.filter (fun g => clusterOf g.2.core = c)).foldl (fun a g =>
    (g.2.words.filter (fun w => w.op = .tile && w.replay && wordOpen w)).foldl (fun q w => settleGroup (tileReplay q g.1 w.id) g.1) a) s

/-! ## Grants and passes (R269 to R272, R282) -/

/-- A request of a cluster changed. -/
def modReq (s : State) (c id : Nat) (f : MatReq → MatReq) : State :=
  modCluster s c (fun k => { k with mat := k.mat.map (fun r => if r.id = id then f r else r) })
/-- Priority of a request: the highest once aged, or while its group is to enter a trap or be pre-empted (R269, R272). -/
def reqPrio (s : State) (r : MatReq) : Nat :=
  let urgent := match tget s.groups r.group with | some g => groupTrapping g || g.stopReq | none => false
  if r.aged || urgent then 8 else r.prio
/-- Whether a request is chosen before another (R269). -/
def reqBefore (s : State) (x y : MatReq) : Bool :=
  reqPrio s x > reqPrio s y || (reqPrio s x = reqPrio s y &&
    (if x.posted = y.posted && x.core ≠ y.core then decide (x.core < y.core) else decide (x.id < y.id)))
/-- The request granted next: the requests of one group in the order of issue. -/
def nextReq (s : State) (c : Nat) : Option MatReq :=
  let ws := (getCluster s c).mat.filter (fun r => !r.granted)
  let heads := ws.filter (fun r => !(ws.any (fun q => q.group = r.group && q.id < r.id)))
  heads.foldl (fun (a : Option MatReq) r => match a with
    | none => some r
    | some q => if reqBefore s r q then some r else some q) none
/-- MATRIX_GRANT (R269): words that TRET performs post their requests first (R384). -/
def execMatrixGrant (c : Nat) (s : State) : Out :=
  let s1 := tileReplays s c
  match nextReq s1 c with
  | none => .next s1
  | some r => .next (modReq s1 c r.id (fun q => { q with granted := true }))
/-- MATRIX_REQUEST_AGED (R269): a request that has waited 256 engine cycles. -/
def execMatrixRequestAged (c id : Nat) (s : State) : Out :=
  match (getCluster s c).mat.find? (·.id = id) with
  | none => .next s
  | some r =>
    if r.granted || r.aged || (tgetD (getCore s r.core).perf 0 0).toNat < r.posted + 256 then .next s
    else .next (modReq s c id (fun q => { q with aged := true }))
/-- MATRIX_PASS_END (R270, R277, R282): results are written; with a storage error every element is NaN, or 0x80000000 for MQAI,
and the block's imprecise trap is raised. -/
def execMatrixPassEnd (c id : Nat) (regErr : Bool) (s : State) : Out :=
  match (getCluster s c).mat.find? (·.id = id) with
  | none => .next s
  | some r =>
    if !r.granted then .next s
    else
      let bad := r.poison || regErr
      let e : Nat := if r.int then 0x80000000 else nan32
      let outs := if bad then r.outs.map (fun x => (x.1, x.2.1, BitVec.ofNat 64 (e + e * 2 ^ 32))) else r.outs
      let s1 := modCluster s c (fun k => { k with mat := k.mat.filter (·.id ≠ id) })
      let s2 := modGroup s1 r.group (fun g =>
        { writeLogs g (outs ++ r.zeros.map (fun z => (z.1, z.2, (0 : W64)))) with pend := g.pend.filter (fun p => p.id ≠ id) })
      .next (if bad then (match tget s2.groups r.group with | some g => impRaise s2 g.block 12 1 0 | none => s2) else s2)
/-- MSYNC (R283): every matrix word of the group has written back; a storage error is then pending and is taken before the
next clause. -/
def execMsync (s : State) : Out :=
  runWord s (fun cx => (getCluster s (clusterOf cx.grp.core)).mat.any (·.group = cx.gk)) (fun _ => .ok s)

/-! ## MTF and MTFR (R284 to R289) -/

/-- Fields of an MTF block (Table 11.5). -/
def mtfSrc (b : Nat) : Nat := bitsOf b 0 64
def mtfPitch (b : Nat) : Nat := bitsOf b 64 32
def mtfRowb (b : Nat) : Nat := bitsOf b 96 16
def mtfNrow (b : Nat) : Nat := bitsOf b 112 16
def mtfStg (b : Nat) : Nat := bitsOf b 128 18
def mtfProg (b : Nat) : Nat := bitsOf b 160 32
/-- Lines of a fetch. -/
def mtfLines (b : Nat) : Nat := mtfNrow b * mtfRowb b / 128
/-- Virtual address of a line. -/
def mtfVa (b n : Nat) : Nat :=
  let c := mtfRowb b / 128
  (mtfSrc b + n / c * mtfPitch b + 128 * (n % c)) % 2 ^ 64
/-- Whether a block ends the fetch with ARG (R286). -/
def mtfBad (s : State) (core block b : Nat) (resume : Bool) : Bool :=
  bitsOf b 146 14 ≠ 0 || bitsOf b 208 48 ≠ 0 || bitsOf b 320 192 ≠ 0 || mtfSrc b % 128 ≠ 0 || mtfPitch b % 128 ≠ 0
    || mtfRowb b % 128 ≠ 0 || mtfRowb b = 0 || mtfRowb b > 32768 || mtfNrow b = 0 || mtfNrow b > 2048 || mtfStg b % 128 ≠ 0
    || mtfLines b > 2048 || mtfStg b + 128 * mtfLines b > spadSize s core block || (resume && mtfProg b > mtfLines b)
/-- Lowest line that has not landed (R288). -/
def mtfNext (f : Fetch) : Nat :=
  ((rangeFrom f.start (mtfLines f.blk - f.start)).find? (fun n => !(f.landed.contains n))).getD (mtfLines f.blk)
/-- A fetch of a core changed. -/
def modFetch (s : State) (core id : Nat) (g : Fetch → Fetch) : State :=
  modCore s core (fun k => { k with fetches := k.fetches.map (fun f => if f.id = id then g f else f) })
/-- A fetch that has ended writes PROGRESS, STATUS, FCODE and FADDR, then s[d], and leaves (R288). It waits while its block's
line is held; a write that faults is dropped. -/
def fetchEnd (s : State) (core id : Nat) : State :=
  match (getCore s core).fetches.find? (·.id = id) with
  | none => s
  | some f =>
    match f.stop with
    | none => s
    | some (st, fc, fa) =>
      let p := if st = 1 then mtfProg f.blk else mtfNext f
      let r := spanWrite s none (dieOfCore core) (f.baddr.toNat + 20) 6 (p + st * 2 ^ 32 + fc * 2 ^ 40)
      let r2 := match r.2 with | .wait => r | _ => spanWrite r.1 none (dieOfCore core) (f.baddr.toNat + 32) 8 fa
      match r2.2 with
      | .wait => r2.1
      | _ =>
        let s1 := modCore r2.1 core (fun k => { k with fetches := k.fetches.filter (·.id ≠ id) })
        uniResult s1 f.group f.d id (BitVec.ofNat 64 (st + fc * 2 ^ 8 + p * 2 ^ 16))
/-- A fetch stopped with a status (Table 11.6); transactions that are still out land nowhere. -/
def fetchStop (s : State) (core id st fc fa : Nat) : State :=
  fetchEnd (modFetch s core id (fun f => if f.stop.isSome then f else { f with stop := some (st, fc, fa) })) core id
/-- A fetch whose lines have all landed ends DONE. -/
def fetchDone (s : State) (core id : Nat) : State :=
  match (getCore s core).fetches.find? (·.id = id) with
  | none => s
  | some f => if f.stop.isNone && mtfNext f = mtfLines f.blk then fetchStop s core id 0 0 0 else s
/-- A line that lands in the staging area as one event, its poisoned sectors with it (R163, R287); poison stops the fetch and
raises the block's storage-error trap. -/
def fetchLand (s : State) (core : Nat) (f : Fetch) (n : Nat) (d : Line) (p : BitVec 4) : State :=
  let off := mtfStg f.blk + 128 * n
  let s1 := spadWrite s core f.block off 128 d.toNat true
  let s2 := ((List.range 4).filter (fun k => p.getLsbD k)).foldl (fun a k => spadSetPoison a core f.block (off / 32 + k)) s1
  let s3 := modFetch s2 core f.id (fun x => { x with landed := natInsert x.landed n })
  if p = 0 then fetchDone s3 core f.id
  else
    let va := mtfVa f.blk n
    fetchStop (impRaise s3 f.block 12 3 (BitVec.ofNat 64 va)) core f.id 3 0 va
/-- The answer to a remote line (R153): OK lands, any other code stops the fetch with that code. -/
def fetchAnswer (s : State) (core id n : Nat) (ans : FabAns) : State :=
  match (getCore s core).fetches.find? (·.id = id) with
  | none => s
  | some f =>
    if f.stop.isSome || f.landed.contains n then s
    else if ans.code = 0 then fetchLand s core f n ans.data 0
    else fetchStop s core id 4 ans.code (mtfVa f.blk n)
/-- The core's own buffered bytes and contributions for the lines of a fetch, all of them, drained and flushed before its first line is
read; lines without a translation have none. False while one of them has to wait (R148, R160, R287). -/
def fetchClear (s : State) (core : Nat) (f : Fetch) : State × Bool :=
  if !f.landed.isEmpty || s.fab.tx.any (fun t => match t.origin with | .mtf c i _ => c = core && i = f.id | _ => false) then (s, true)
  else (rangeFrom f.start (mtfLines f.blk - f.start)).foldl (fun (a : State × Bool) n =>
    let r := xlateNow a.1 (some core) (dieOfCore core) (mtfVa f.blk n)
    match r.2 with
    | .wait => (r.1, false)
    | .fault _ => (r.1, a.2)
    | .ok e =>
      let da := daOf e (mtfVa f.blk n)
      let b := ownBuffers r.1 core (if tgtOf r.1 da = .remote then da / 128 else devLine r.1 (lineOf (localOf da)))
      (b.1, a.2 && b.2)) (s, true)
/-- A line of a fetch read now (R287): translated, then from its home, or asked for over the fabric. -/
def fetchLine (s : State) (core : Nat) (f : Fetch) (n : Nat) : State :=
  let va := mtfVa f.blk n
  let c := fetchClear s core f
  if !c.2 then c.1
  else
    let r := xlateNow c.1 (some core) (dieOfCore core) va
    match r.2 with
    | .wait => r.1
    | .fault sub => fetchStop r.1 core f.id 2 sub va
    | .ok e =>
      match daCheck r.1 e va false false with
      | some sub => fetchStop r.1 core f.id 2 sub va
      | none =>
        let da := daOf e va
        let la := localOf da
        let line := lineOf la
        if tgtOf r.1 da = .remote then
          match fabRefuse r.1 (chipOf da) la with
          | some code => fetchStop r.1 core f.id 4 code va
          | none => if fabRoom r.1 (chipOf da) la then fabSend r.1 (chipOf da) la (.read la 128 e.nc) (.mtf core f.id n) else r.1
        else match hostFails r.1 la with
        | some code => fetchStop r.1 core f.id 4 code va
        | none =>
          let h := admitType (if e.nc then .u else .o) r.1 line (BitVec.allOnes 128) false
          if !h.2 then noteHold h.1 line (.mtfLineArrival core f.id n { code := 0, data := 0 })
          else
            let s1 := if e.nc then homeRead h.1 line else windowTake (homeRead h.1 line) line (BitVec.allOnes 128) false
            fetchLand s1 core f n (memLine s1 line) (memPoison s1 line)
/-- MTF and MTFR (R284 to R287). -/
def mtfWord (s : State) (d a : Fin 32) (resume : Bool) : Out :=
  runWord s (pendingOn [64 + d.val, 64 + a.val]) (fun cx =>
    if (getCore s cx.grp.core).fetches.length ≥ 8 then .stall s
    else withParam cx s (sGet cx.grp a.val) 64 64 (fun s1 blk =>
      let f := freshId s1
      let bad := mtfBad s1 cx.grp.core cx.grp.block blk resume
      let x : Fetch := { id := f.1, group := cx.gk, block := cx.grp.block, d := d.val, baddr := sGet cx.grp a.val, blk := blk,
                         start := if resume then mtfProg blk else 0, landed := [], stop := if bad then some (1, 0, 0) else none }
      let s2 := uniPend (modCore f.2 cx.grp.core (fun k => { k with fetches := k.fetches ++ [x] })) cx.gk d.val f.1
      .ok (if bad then fetchEnd s2 cx.grp.core f.1 else fetchDone s2 cx.grp.core f.1)))
/-- MTF. -/
def execMtf (d a : Fin 32) (s : State) : Out := mtfWord s d a false
/-- MTFR. -/
def execMtfr (d a : Fin 32) (s : State) : Out := mtfWord s d a true
/-- MTF_LINE_ARRIVAL (R287, R288): a line of a running fetch is read and lands or stops the fetch; for a line that has been
asked for over the fabric the answer arrives; a fetch that has ended writes its block. -/
def execMtfLineArrival (core id line : Nat) (ans : FabAns) (s : State) : Out :=
  match (getCore s core).fetches.find? (·.id = id) with
  | none => .next s
  | some f =>
    let mine := fun (t : FabTx) => t.origin = .mtf core id line
    if f.stop.isSome then .next (fetchEnd s core id)
    else if line < f.start || mtfLines f.blk ≤ line || f.landed.contains line then .next s
    else if s.fab.tx.any mine then
      .next (fetchAnswer { s with fab := { s.fab with tx := s.fab.tx.filter (fun t => !(mine t)) } } core id line ans)
    else .next (fetchLine s core f line)

end Sys2Proof.Machine
end

