-- ==== Sys2Proof/Machine/Held.lean ====
section
/-! DEFINITION. Requests held at a line (R58, R60, R128): the events by which they are served again, in order, and the responses to the
back-invalidations that some of them wait for (R126, R128, R136). -/

namespace Sys2Proof.Machine

/-- The state after an event that has one. -/
def outState (o : Out) (s : State) : State := match o with | .next t => t | _ => s
/-- A held request served again, by the event that makes it; none where that event is none of an agent that this file knows. -/
def serveHeld (i : Instr) (s : State) : Option State :=
  match i with
  | .homeSliceRead g id l => some (outState (execHomeSliceRead g id l s) s)
  | .homeSliceWrite src => some (outState (execHomeSliceWrite src s) s)
  | .redEntryApply core line el => some (outState (execRedEntryApply core line el s) s)
  | .pageWalkComplete die vp => some (outState (execPageWalkComplete die vp s) s)
  | .mtfLineArrival core id n a => some (outState (execMtfLineArrival core id n a s) s)
  | .transferEnd c id => some (outState (execTransferEnd c id s) s)
  | .bgloadExecute st id => some (outState (execBgloadExecute st id s) s)
  | .bgvecExecute st id => some (outState (execBgvecExecute st id s) s)
  | .layoutCommandEnd st => some (outState (execLayoutCommandEnd st s) s)
  | .fabricRequestArrival chip plane _ _ _ => some (rxRun chip plane 1024 s)
  | .hostMemRead _ | .hostMemWrite _ _ _ _ _ => some (hostAgain s i)
  | _ => none
/-- Held requests served in order, one that still has to wait noted again; then those of other devices and of the host that are not noted.
From the first request on that another agent makes (a word of a path, a frame, a graph header, a report) the rest comes first on the agenda,
in the same order. -/
def serveList : List Action → State → State
  | [], s => heldRetry s
  | a :: t, s =>
    match (match a with | .event i => (serveHeld i s).map (noteWait a) | _ => none) with
    | some s1 => serveList t s1
    | none => { s with agenda := (a :: t).map (fun x => match x with | .event i => .retry i | y => y) ++ (.heldRetry :: s.agenda) }
/-- The requests held at some lines served in order (R58, R60). -/
def serveHolds (s : State) (which : Nat → Bool) : State :=
  serveList ((holdsOf s which).map Prod.snd) (dropHolds s which)
/-- The requests held at a line served once a back-invalidation of it is over: those of the device that waited for it before the host's
and the fabric's (R128). -/
def snoopOver (s : State) (line : Nat) : State :=
  let own := fun (a : Action) => match a with
    | .event (.hostMemRead _) | .event (.hostMemWrite _ _ _ _ _) | .event (.fabricRequestArrival _ _ _ _ _) => false
    | _ => true
  let hs := (holdsOf s (fun x => x = line)).map Prod.snd
  serveList (hs.filter own ++ hs.filter (fun a => !(own a))) (dropHolds s (fun x => x = line))
/-- A line that leaves its slice, its bytes being in DRAM (R57). -/
def llcLeave (s : State) (line : Nat) : State :=
  { s with coh := { s.coh with sets := tset s.coh.sets (llcSet line) ((llcLines s line).filter (·.1 ≠ line)), valid := tdel s.coh.valid line } }

/-- BACK_INVALIDATE_RESPONSE (R126, R128): the host's bytes are merged and the half's state moves; the response to a snoop that
has yielded is discarded and the snoop sent again. A line of a row set that goes over to the bank path does not stay in its slice (R57). -/
def execBackInvalidateResponse (half : Nat) (dirty : Option (BitVec 512 × Bool)) (s : State) : Out :=
  match tget s.coh.snoops half with
  | none => .next s
  | some (1, k) => .next { s with coh := { s.coh with snoops := tset s.coh.snoops half (2, k) } }
  | some (_, k) =>
    let s1 := match dirty with
      | none => s
      | some d => hostMerge s half (halfMask half) d.1 d.2
    let s2 := setHost (llcValid { s1 with coh := { s1.coh with snoops := tdel s1.coh.snoops half } } (half / 2) (halfSectors half) 0) half
      (if k then some false else none)
    .next (snoopOver (if heldLa s (half / 2 * 128) then llcLeave s2 (half / 2) else s2) (half / 2))
/-- The response of a line's fabric home slice to a back-invalidation (R136): its copy is gone, or SHARED; the response to one that has
yielded is discarded and it is sent again, as R128 says of a host half. Its bytes are those of memory (log 25). -/
def fabSnoopDone (line : Nat) (s : State) : Out :=
  match tget s.coh.fsnoops line with
  | none => .next s
  | some (1, k) => .next { s with coh := { s.coh with fsnoops := tset s.coh.fsnoops line (2, k) } }
  | some (_, k) =>
    .next (snoopOver { s with coh := { s.coh with
      fsnoops := tdel s.coh.fsnoops line
      fabric := if k then tset s.coh.fabric line false else tdel s.coh.fabric line } } line)

end Sys2Proof.Machine
end

