-- ==== Sys2Proof/Machine/Lease.lean ====
section
/-! DEFINITION. Leases (chapter 3): ROWGIVE, ROWTAKE, FENCE.MODE and the lease events, with the sweep at hand-over, the
return and its record, revocation; the response of memory words, which carries FENCE.MODE and PHASE.END too; and the
publication phases of chapter 12. -/

namespace Sys2Proof.Machine

/-! ## Runs under a lease -/

/-- Started runs of a stack that name a lease, with the generation that its entry has now, and have an engine that has not stopped (R53, R61). -/
def runsUnder (s : State) (st x : Nat) : List BgCmd :=
  (getStack s st).cmdq.filter (fun c => c.kind = .run && c.started && (runLeases c.blk).any (fun h => bitsOf h 0 7 = x && (leaseNamed s st h).isSome)
    && c.set.any (fun k => (getBge s k).run = some c.id))
/-- Every run under a lease stopped with a status (R93). -/
def stopUnder (s : State) (st x stat : Nat) : State := (runsUnder s st x).foldl (fun a c => stopAll a c stat) s
/-- Handle of an entry (R53). -/
def handleOf (st x gen : Nat) : Nat := gen * 2 ^ 10 + st * 2 ^ 7 + x

/-! ## Hand-over (R57) -/

/-- Whether a local line lies in one of some row sets. -/
def inRows (rs : List Nat) (line : Nat) : Bool := rs.contains (rowSetOf (line * 128))
/-- The host's copies of halves of some row sets, and the fabric home slices' of lines, back-invalidated where that is not under way
(R57, R136). -/
def sweepSnoops (s : State) (rs : List Nat) : State :=
  let s1 := ((s.coh.host.map Prod.fst).filter (fun (h : Nat) => inRows rs (h / 2))).foldl (fun (a : State) h => snoopSend a h false) s
  ((s1.coh.fabric.map Prod.fst).filter (inRows rs)).foldl (fun (a : State) n => fabSnoop a n false) s1
/-- The sweep: lines of the row sets leave every L1 and slice, and the copies of the host and of the fabric home slices are
back-invalidated (R57). -/
def sweep (s : State) (rs : List Nat) : State :=
  let s1 := s.cores.foldl (fun (a : State) c => (c.2.l1.filter (fun y => inRows rs y.line)).foldl (fun q y => l1Drop q c.1 y.line) a) s
  let s2 := { s1 with coh := { s1.coh with
    sets := s1.coh.sets.map (fun (x : Nat × List (Nat × BitVec 4)) => (x.1, x.2.filter (fun (y : Nat × BitVec 4) => !(inRows rs y.1))))
    valid := s1.coh.valid.filter (fun (x : Nat × BitVec 4) => !(inRows rs x.1))
    records := s1.coh.records.filter (fun (x : Nat × Nat × Nat × AScope) => !(inRows rs x.1)) } }
  sweepSnoops s2 rs
/-- Whether the host still has a copy of a half of the row sets, or a fabric home slice one of a line, or a back-invalidation is out. -/
def sweepBusy (s : State) (rs : List Nat) : Bool :=
  (s.coh.host.map Prod.fst).any (fun (h : Nat) => inRows rs (h / 2)) || (s.coh.snoops.map Prod.fst).any (fun (h : Nat) => inRows rs (h / 2))
    || (s.coh.fabric.map Prod.fst).any (inRows rs) || (s.coh.fsnoops.map Prod.fst).any (inRows rs)

/-! ## Fences that wait on a lease (R68) -/

/-- A FENCE.MODE or PHASE.END word completed with its result. -/
def wordResult (s : State) (gk id : Nat) (v : W64) : State :=
  match wordAt s gk id with
  | none => s
  | some (_, w) =>
    let d := match w.lanes with | x :: _ => x.2.dlog | [] => 0
    let s1 := modWord s gk id (fun x => { x with lanes := x.lanes.map (fun y => (y.1, { y.2 with st := .done })) })
    settleGroup (landValue s1 gk w 0 d v) gk
/-- The fences that wait on a handle complete: .give with one status, .take with another; none leaves them waiting. -/
def modeResolve (s : State) (st h : Nat) (give take : Option Nat) : State :=
  let ws := (getStack s st).modeWaits.filter (fun m => m.handle = h && (if m.give then give.isSome else take.isSome))
  ws.foldl (fun a m => wordResult a m.group m.id (BitVec.ofNat 64 (if m.give then give.getD 0 else take.getD 0)))
    (modStack s st (fun k => { k with modeWaits := k.modeWaits.filter (fun m => !(ws.contains m)) }))

/-! ## Return (R55, R58) -/

/-- The lease record (Table 3.5). -/
def leaseRecord (s : State) (st x : Nat) (l : Lease) : Nat :=
  let was := l.tstart ≠ 0 || l.tend ≠ 0
  handleOf st x l.gen + l.cause * 2 ^ 16 + l.rowSets.length * 2 ^ 24 + (if was then l.tstart * 2 ^ 64 + l.tend * 2 ^ 128 else 0)
    + s.time.now * 2 ^ 192 + (List.range 64).foldl (fun a k => a + tgetD l.wmask k 0 * 2 ^ (512 + 64 * k)) 0
/-- Whether a line of the record can be written now, with what that first sets going. No lease holds the controller's write, not that of
another lease in whose row sets the record lies: the return waits for no bank program (R62, log 102). -/
def recordAdmit (s : State) (line n : Nat) : State × Bool :=
  if heldLa s (line * 128) then (if lineBusy s line then (snoopLine s line, false) else (s, true)) else homeAdmit s line (spanMask 0 n) true
/-- A line of the record written. -/
def recordPut (s : State) (line n v : Nat) : State :=
  if heldLa s (line * 128) then noteWrite (memMerge (dropAll s line) line (spanMask 0 n) (lineAt 0 n v) 0) line
  else homeWrite s none line (spanMask 0 n) (lineAt 0 n v) 0
/-- The record's five lines written at device scope, if each can be now. -/
def recordTry (s : State) (la v : Nat) : State × Bool :=
  let ps := pieces 6 la 576 0
  let r := ps.foldl (fun (a : State × Bool) p => let h := recordAdmit a.1 (lineOf p.1) p.2.1; (h.1, a.2 && h.2)) (s, true)
  if r.2 then (ps.foldl (fun a p => recordPut a (lineOf p.1) p.2.1 (bitsOf v (8 * p.2.2) (8 * p.2.1))) r.1, true) else r
/-- Row sets of a lease that bank programs wrote: monitors and anchors on their lines trigger at the return, and promotion
records of them clear (R310, R372). -/
def noteRows (s : State) (rs : List Nat) : State :=
  let ls := ((s.groups.filterMap (fun g => match g.2.monitor with | .armed n => some n | _ => none))
    ++ s.esc.anch.map (fun a => bitsOf a.2.toNat 7 39)).eraseDups
  (ls.filter (inRows rs)).foldl noteWrite s
/-- A lease due to become FREE: its record is written, its translations drop, its row sets go back, the requests held for them are served
in order, and what waits on it goes on. False while the record cannot be written: the lease stays as it is (R55, R58). -/
def freeLease (s : State) (st x : Nat) : State × Bool :=
  let l := leaseEntry s st x
  let r := recordTry s l.lrec (leaseRecord s st x l)
  if !r.2 then r
  else
    let s1 := modLease r.1 st x (fun y => { Lease.reset with gen := (y.gen + 1) % 64 })
    let s2 := modStack s1 st (fun k => { k with rowCache := k.rowCache.filter (·.lease ≠ x) })
    let wr := (l.rowSets.zipIdx.filter (fun p => tgetD l.wmask p.2 0 ≠ 0)).map Prod.fst
    (modeResolve (serveHolds (noteRows s2 wr) (inRows l.rowSets)) st (handleOf st x l.gen) (some 3) (some 0), true)
/-- A lease whose programs have stopped sent on its way to FREE. -/
def returnLease (s : State) (st x : Nat) : State := (freeLease (modLease s st x (fun l => { l with st := .returning })) st x).1
/-- A lease cancelled before it was HELD; false while it stays as it is. -/
def cancelLease (s : State) (st x : Nat) : State × Bool := freeLease (modLease s st x (fun l => { l with cause := 4 })) st x
/-- A lease revoked: its programs end LEASE-LOST and it returns at once (R61). -/
def revokeLease (s : State) (st x : Nat) : State :=
  let s1 := stopUnder s st x 3
  returnLease (modLease s1 st x (fun l => { l with cause := 3, tend := if l.st = .held then s.time.now else l.tend })) st x
/-- Whether a fence waits to take a lease. -/
def takeWaits (s : State) (st x : Nat) : Bool :=
  (getStack s st).modeWaits.any (fun m => !m.give && m.handle = handleOf st x (leaseEntry s st x).gen)
/-- LEASE_RETURN (R53, R58): an ENDING lease that a FENCE.MODE.take waits for returns once its engines have stopped; a return
whose record had to wait goes on. -/
def execLeaseReturn (st x : Nat) (s : State) : Out :=
  match (leaseEntry s st x).st with
  | .returning => .next (freeLease s st x).1
  | .ending => if takeWaits s st x && (runsUnder s st x).isEmpty then .next (returnLease s st x) else .next s
  | _ => .next s

/-! ## Events of Table 3.3 -/

/-- LEASE_RESERVATION_TIMEOUT (R53). -/
def execLeaseReservationTimeout (st x : Nat) (s : State) : Out :=
  let l := leaseEntry s st x
  if l.st = .reserved && s.time.now ≥ l.tres + l.dur * 1000 then .next (cancelLease s st x).1 else .next s
/-- The E of a lease that has become HELD joins that of the started runs that name it (R93). -/
def joinRuns (s : State) (st x e : Nat) : State :=
  (runsUnder s st x).foldl (fun a c => modBgCmd a st c.id (fun y => { y with e := if y.e = 0 then e else min y.e e })) s
/-- SWEEP_COMPLETE (R53, R57): HELD, or FREE after a ROWTAKE. A copy that a back-invalidation has left SHARED is back-invalidated
again. -/
def execSweepComplete (st x : Nat) (s : State) : Out :=
  let l := leaseEntry s st x
  match l.st with
  | .giving taken =>
    if sweepBusy s l.rowSets then .next (sweepSnoops s l.rowSets)
    else if taken then .next (cancelLease s st x).1
    else
      let e := s.time.now + l.dur * 1000
      .next (modeResolve (joinRuns (modLease s st x (fun y => { y with st := .held, e := e, tstart := s.time.now })) st x e)
        st (handleOf st x l.gen) (some 0) none)
  | _ => .next s
/-- LEASE_EXPIRY (R53). -/
def execLeaseExpiry (st x : Nat) (s : State) : Out :=
  let l := leaseEntry s st x
  if l.st = .held && s.time.now ≥ l.e then .next (modLease s st x (fun y => { y with st := .ending, cause := 2, tend := s.time.now }))
  else .next s
/-- ENDING_TIMEOUT (R53, R61). -/
def execEndingTimeout (st x : Nat) (s : State) : Out :=
  let l := leaseEntry s st x
  if l.st = .ending && s.time.now ≥ l.tend + 2000 then
    .next (if (runsUnder s st x).isEmpty then returnLease s st x else revokeLease s st x)
  else .next s
/-- A clock copy slewed toward the base die's, by at most 1 tick in 1,000; a stopped one stays (R61, R404). -/
def slew (now : Nat) (b : Bge) : Bge :=
  if b.stopped then b else { b with clock := if b.clock < now then b.clock + 1 else if b.clock > now then b.clock - 1 else b.clock }
/-- Leases of a stack that a read-back revokes: HELD or ENDING, with an engine under them more than 2,000 ticks off (R61). -/
def driftLeases (s : State) (st : Nat) : List Nat :=
  ((getStack s st).leases.filter (fun x => (x.2.st = .held || x.2.st = .ending) &&
    (runsUnder s st x.1).any (fun c => c.set.any (fun k => (getBge s k).run = some c.id &&
      ((getBge s k).clock + 2000 < s.time.now || s.time.now + 2000 < (getBge s k).clock))))).map Prod.fst
/-- CLOCK_READBACK (R61): every 1,000 ticks. -/
def execClockReadback (st : Nat) (s : State) : Out :=
  if s.time.now / 1000 = (getStack s st).readback / 1000 then .next s
  else
    let s1 := (driftLeases s st).foldl (fun a x => revokeLease a st x) (modStack s st (fun k => { k with readback := s.time.now }))
    .next { s1 with bges := s1.bges.map (fun b => if bgeStack b.1 = st then (b.1, slew s.time.now b.2) else b) }

/-! ## ROWGIVE and ROWTAKE -/

/-- Whether a device refuses every ROWGIVE for want of a time of its own or of the fabric (R404, R405). -/
def timeRefuses (s : State) : Bool :=
  match s.time.mode with
  | .waiting | .joining _ => true
  | .selfTimed => s.time.linked || !s.fab.links.isEmpty || !s.fab.portDown.isEmpty
  | .fabric => false
/-- Translation of a page for ROWGIVE: a writable page's device address and size in address bits, none when it is not mapped or not
writable, waiting. -/
inductive PageRes where | ok (da bits : Nat) | bad | wait
def pageOf (s : State) (core va : Nat) : State × PageRes :=
  let r := xlateNow s (some core) (dieOfCore core) va
  match r.2 with
  | .fault _ => (r.1, .bad)
  | .wait => (r.1, .wait)
  | .ok e => (r.1, if e.w then .ok (daOf e va) e.bits else .bad)
/-- Device addresses of some pages, with their sizes, all of them or none. -/
def pagesOf (s : State) (core : Nat) : List Nat → State × Option (List (Nat × Nat)) × Bool
  | [] => (s, some [], true)
  | va :: t =>
    let r := pageOf s core va
    match r.2 with
    | .wait => (r.1, none, false)
    | .bad => (r.1, none, true)
    | .ok da b =>
      let q := pagesOf r.1 core t
      (q.1, q.2.1.map ((da, b) :: ·), q.2.2)
/-- Row sets of a stack that a lease in any state but FREE covers. -/
def coveredRows (s : State) (st : Nat) : List Nat :=
  (((getStack s st).leases.filter (fun l => l.2.st ≠ .free)).map (fun l => l.2.rowSets)).flatten
/-- ROWGIVE's checks after its block is read (R67): the status, and the state with the lease reserved. DESIGN CHOICE (log 97): the entry
allocated is the lowest-numbered free one. -/
def rowGive (s : State) (core : Nat) (blk : Nat) : State × Option W64 :=
  let base := bitsOf blk 0 64
  let n := bitsOf blk 64 7
  let dur := bitsOf blk 80 16
  let lrec := bitsOf blk 128 64
  let err := fun (k : Nat) => some (BitVec.ofNat 64 (2 ^ 63 + k))
  if bitsOf blk 71 9 ≠ 0 || bitsOf blk 96 32 ≠ 0 || bitsOf blk 192 64 ≠ 0 || base % 65536 ≠ 0 || n = 0 || n > 64 || dur = 0 || lrec % 1024 ≠ 0 then
    (s, err 5)
  else
    let r := pagesOf s core (lrec :: (List.range n).map (fun i => base + 65536 * i))
    match r.2.1 with
    | none => (r.1, if r.2.2 then err 4 else none)
    | some [] => (r.1, err 4)
    | some (ldb :: dbs) =>
      let s1 := r.1
      let ld := ldb.1
      let das := dbs.map Prod.fst
      let rs := das.map (fun d => localOf d / 65536)
      let st := (rs.headD 0) / 2 ^ 20
      let inRange := base ≤ lrec && lrec < base + 65536 * n
      if !(das.all (fun d => tgtOf s1 d = .hbm)) || !(rs.all (fun x => x / 2 ^ 20 = st)) then (s1, err 3)
      else if rs.eraseDups.length ≠ rs.length || inRange || tgtOf s1 ld ≠ .hbm || rs.contains (localOf ld / 65536) then (s1, err 5)
      else
        let cov := coveredRows s1 st
        let free := (List.range 128).find? (fun x => (leaseEntry s1 st x).st = .free)
        if rs.any cov.contains then (s1, err 1)
        else match free with
          | none => (s1, err 2)
          | some x =>
            if timeRefuses s1 || (List.range 32).any (fun c => ((cov ++ rs).filter (fun y => y % 32 = c)).length > 64) then (s1, err 2)
            else
              let g := (leaseEntry s1 st x).gen
              (modLease s1 st x (fun y => { y with st := .reserved, rowSets := rs, pages := dbs.map Prod.snd, vbase := base, dur := dur, lrec := localOf ld, tres := s.time.now,
                                                   e := 0, tstart := 0, tend := 0, cause := 0, wmask := [] }),
                some (BitVec.ofNat 64 (handleOf st x g)))
/-- ROWGIVE (R67). -/
def execRowgive (d a : Fin 32) (s : State) : Out :=
  runWord s (pendingOn [64 + d.val, 64 + a.val]) (fun cx =>
    withParam cx s (sGet cx.grp a.val) 32 32 (fun s1 blk =>
      let r := rowGive s1 cx.grp.core blk
      match r.2 with
      | none => .stall r.1
      | some v => .ok (modGroup r.1 cx.gk (fun g => sSet g d.val v))))
/-- ROWTAKE at a stack: what it does and, once the stack has taken it, the status (R69, Table 3.3). A RESERVED lease whose record cannot
be written yet makes it wait (R55). DESIGN CHOICE (log 98): a run that names a lease which is still RESERVED or GIVING is not stopped by its
ROWTAKE. -/
def rowTake (s : State) (h : Nat) : State × Option Nat :=
  let st := bitsOf h 7 3
  let x := bitsOf h 0 7
  match (if h ≥ 65536 then none else leaseNamed s st h) with
  | none => (s, some 1)
  | some l =>
    match l.st with
    | .free => (s, some 1)
    | .reserved => let r := cancelLease s st x; (r.1, if r.2 then some 0 else none)
    | .giving _ => (modLease s st x (fun y => { y with st := .giving true }), some 0)
    | .held => (stopUnder (modLease s st x (fun y => { y with st := .ending, cause := 1, tend := s.time.now })) st x 2, some 0)
    | .ending | .returning => (s, some 2)
/-- ROWTAKE (R69). -/
def execRowtake (d a : Fin 32) (s : State) : Out :=
  runWord s (pendingOn [64 + d.val, 64 + a.val]) (fun cx =>
    if !(memGate s cx.gk) then .stall s
    else
      let r := rowTake s (sGet cx.grp a.val).toNat
      match r.2 with
      | none => .stall r.1
      | some v => .ok (modGroup r.1 cx.gk (fun g => sSet g d.val (BitVec.ofNat 64 v))))

/-! ## FENCE.MODE (R68) -/

/-- A FENCE.MODE that has drained reaches the stack (Table 3.9): a status at once, or it waits there. -/
def modeAt (s : State) (gk id : Nat) (give : Bool) (h : Nat) : State :=
  let st := bitsOf h 7 3
  let x := bitsOf h 0 7
  let wait := fun (t : State) =>
    modStack (modWord t gk id (fun w => { w with lanes := w.lanes.map (fun y => (y.1, { y.2 with st := .remote 0 0 0 })) })) st
      (fun k => { k with modeWaits := k.modeWaits ++ [⟨give, h, gk, id⟩] })
  match (if h ≥ 65536 then none else leaseNamed s st h) with
  | none => wordResult s gk id 1
  | some l =>
    match l.st, give with
    | .free, _ => wordResult s gk id 1
    | .reserved, true => wait (sweep (modLease s st x (fun y => { y with st := .giving false })) l.rowSets)
    | .giving _, true => wait s
    | .held, true | .ending, true | .returning, true => wordResult s gk id 2
    | .held, false | .ending, false | .returning, false => wait s
    | .reserved, false | .giving _, false => wordResult s gk id 2
/-- Whether a FENCE.MODE or PHASE.END word has still to begin and can: the group's earlier words have been translated (R117 item 2). -/
def lateDue (g : Group) (w : MemWord) : Bool :=
  w.lanes.any (fun x => x.2.st = .walk) && !(g.words.any (fun e => e.id < w.id && wordWalks e))
/-- A FENCE.MODE word tried: it first drains the group's earlier stores to device scope. -/
def modeTry (s : State) (gk id : Nat) : State :=
  match wordAt s gk id with
  | none => s
  | some (g, w) =>
    match w.op with
    | .fmode give =>
      if !(lateDue g w) then s
      else
        let r := releaseTry s gk id 4 (BitVec.allOnes 64)
        if !r.2 then r.1
        else modeAt r.1 gk id give (match w.lanes with | x :: _ => x.2.va.toNat | [] => 0)
    | _ => s
/-- A FENCE.MODE or PHASE.END word issued as a memory word of its path's lanes (R117), and tried at once. -/
def lateWord (s : State) (d a : Fin 32) (op : MemOp) (go : State → Nat → Nat → State) : Out :=
  runWord s (pendingOn [64 + d.val, 64 + a.val]) (fun cx =>
    match issueMem cx s op (.s d) 0 ((lanesOf cx.path.mask).map (fun l => (l, sGet cx.grp a.val, (0 : W64), (0 : W64)))) with
    | .ok s1 => .ok (go s1 cx.gk (s1.nextId - 1))
    | r => r)
/-- FENCE.MODE.give. -/
def execFenceModeGive (d a : Fin 32) (s : State) : Out := lateWord s d a (.fmode true) modeTry
/-- FENCE.MODE.take. -/
def execFenceModeTake (d a : Fin 32) (s : State) : Out := lateWord s d a (.fmode false) modeTry

/-! ## Publication phases (R316 to R319) -/

/-- A region of a block under the block's own numbering of its cores, which a restore keeps (R319). -/
def regionKey (b : Block) (core h : Nat) : Nat := (b.cores.findIdx (· = core)) * 4 + h
/-- PHASE.open (R316). A handle that a pre-emption had closed names the new region from now on. -/
def execPhaseOpen (d a b : Fin 32) (s : State) : Out :=
  runWord s (pendingOn [64 + d.val, 64 + a.val, 64 + b.val]) (fun cx =>
    if !(memGate s cx.gk) then .stall s
    else
      let base := (sGet cx.grp a.val).toNat
      let n := (sGet cx.grp b.val).toNat
      let rc := regionCore s cx.grp.core
      let rs := (getCore s rc).regions
      let put := fun (t : State) (v : Nat) => WRes.ok (modGroup t cx.gk (fun g => sSet g d.val (BitVec.ofNat 64 v)))
      if base % 128 ≠ 0 || n % 128 ≠ 0 || n < 128 || n > 2 ^ 24 || base + n > 2 ^ 64 then put s (2 ^ 63 + 1)
      else if rs.any (fun r => base < r.2.base + r.2.size && r.2.base < base + n) then put s (2 ^ 63 + 2)
      else match (List.range 4).find? (fun h => (tget rs h).isNone) with
        | none => put s (2 ^ 63 + 3)
        | some h =>
          let q : Region := { block := cx.grp.block, base := base, size := n, early := false, lines := [], atHome := [], ending := none }
          let s1 := modCore s rc (fun k => { k with regions := tset k.regions h q })
          put (modBlock s1 cx.grp.block (fun y => { y with lostRegions := y.lostRegions.filter (· ≠ regionKey y rc h) })) h)
/-- Private lines in the form of shadow lines. -/
def regionLines (r : Region) : List (Nat × LineMask × Line × BitVec 4) := r.lines.map (fun x => (x.1, x.2.1, x.2.2, 0))
/-- A region published at one point, if every line of it can be written now (R318). -/
def publishTry (s : State) (rc h : Nat) : State × Bool :=
  match tget (getCore s rc).regions h with
  | none => (s, true)
  | some r =>
    let q := shadowAdmit s (regionLines r)
    if !q.2 then q
    else ((regionLines r).foldl shadowCommit (modCore q.1 rc (fun k => { k with regions := tdel k.regions h })), true)
/-- PHASE_PUBLICATION (R318): a region that a PHASE.end has ended is published, and the word gets its result. -/
def execPhasePublication (core handle : Nat) (s : State) : Out :=
  match tget (getCore s core).regions handle with
  | none => .next s
  | some r =>
    match r.ending with
    | none => .next s
    | some (gk, id) =>
      let q := publishTry s core handle
      if !q.2 then .next q.1
      else .next (wordResult q.1 gk id (BitVec.ofNat 64 (r.lines.length * 256 + (if r.early then 1 else 0))))
/-- A PHASE.END word tried: the handle's check, a release at device scope, then the region ends (R318, R319). -/
def phendTry (s : State) (gk id : Nat) : State :=
  match wordAt s gk id with
  | none => s
  | some (g, w) =>
    if w.op ≠ .phend || !(lateDue g w) then s
    else
      let h := match w.lanes with | x :: _ => x.2.va.toNat | [] => 0
      let rc := regionCore s g.core
      let mine := match tget (getCore s rc).regions h with | some r => r.block = g.block && r.ending.isNone | none => false
      let lost := match tget s.blocks g.block with | some b => b.lostRegions.contains (regionKey b rc h) | none => false
      if h < 4 && mine then
        let r := releaseAll s gk id 4 (BitVec.allOnes 64)
        if !r.2 then r.1
        else
          modRegion (modWord r.1 gk id (fun x => { x with lanes := x.lanes.map (fun y => (y.1, { y.2 with st := .remote 0 0 0 })) }))
            rc h (fun q => { q with ending := some (gk, id) })
      else if h < 4 && lost then wordResult s gk id (BitVec.ofNat 64 (2 ^ 63 + 5))
      else wordResult s gk id (BitVec.ofNat 64 (2 ^ 63 + 4))
/-- PHASE.end (R318). -/
def execPhaseEnd (d a : Fin 32) (s : State) : Out := lateWord s d a .phend phendTry

/-- MEMORY_RESPONSE (R68, R169, R318): a lane's value is written to its destination; a FENCE.MODE or PHASE.END that waits for
its group's stores goes on. -/
def execMemoryResponse (g id l : Nat) (s : State) : Out :=
  match wordAt s g id with
  | none => .next s
  | some (_, w) =>
    match w.op with
    | .fmode _ => .next (modeTry s g id)
    | .phend => .next (phendTry s g id)
    | _ => laneResponse g id l s

end Sys2Proof.Machine
end

