-- ==== Sys2Proof/Machine/Dispatcher.lean ====
section
/-! DEFINITION. Launch headers and their checks (R321 to R325), room and placement of blocks on cores (R154, R156, R326,
R327), and the end of a block (R328). -/

namespace Sys2Proof.Machine

/-! ## The launch header (Table 13.1) -/

/-- A launch header's fields. -/
def launchHdr (b : Nat) : LaunchHdr :=
  let nl := bitsOf b 50 3
  { width := bitsOf b 48 2, nl := nl, blk := bitsOf b 53 3, fuse := bitsOf b 56 1 = 1, prio := bitsOf b 57 3, spad := bitsOf b 60 4,
    entry := BitVec.ofNat 32 (bitsOf b 64 32), depth := 8 * bitsOf b 96 8, prod := bitsOf b 104 10,
    ws := (List.range nl).map (fun k => bitsOf b (128 + 7 * k) 7), exts := (List.range nl).map (fun k => bitsOf b (192 + 32 * k) 32 + 1),
    bufs := ((List.range 16).map (fun j => bitsOf b (384 + 12 * j) 12)).takeWhile (· ≠ 0),
    spillBase := BitVec.ofNat 64 (bitsOf b 576 64), spillStride := BitVec.ofNat 64 (bitsOf b 640 64),
    args := (List.range 4).map (fun m => BitVec.ofNat 64 (bitsOf b (704 + 64 * m) 64)) }
def sumOf (l : List Nat) : Nat := l.foldl (· + ·) 0
def prodOf (l : List Nat) : Nat := l.foldl (· * ·) 1
/-- W, BS and G of a launch, and its number of blocks (R322). -/
def launchW (h : LaunchHdr) : Nat := 8 * 2 ^ h.width
def launchBs (h : LaunchHdr) : Nat := prodOf (h.exts.take h.blk)
def launchG (h : LaunchHdr) : Nat := (launchBs h + launchW h - 1) / launchW h
def launchTotal (h : LaunchHdr) : Nat := prodOf (h.exts.drop h.blk)
/-- F: the fibres that a core can hold (R326). -/
def launchF (h : LaunchHdr) : Nat := 49152 / h.depth / launchW h * launchW h
/-- Number of cores that a block uses; none when it fits on none (R326). -/
def launchC (h : LaunchHdr) : Option Nat :=
  let ok := fun (c : Nat) => decide ((launchG h + c - 1) / c * launchW h ≤ launchF h)
  if h.fuse then (if ok 4 then some 4 else none) else [1, 2, 3, 4].find? ok
/-- q: groups on each core but the last ones (R326). -/
def launchQ (h : LaunchHdr) : Nat := match launchC h with | some c => (launchG h + c - 1) / c | none => 0
/-- Groups on the j-th core of a block. -/
def launchShare (h : LaunchHdr) (j : Nat) : Nat := min (launchQ h) (launchG h - j * launchQ h)
/-- The checks of R325. -/
def launchBad (b : Nat) : Bool :=
  let h := launchHdr b
  let bufs := (List.range 16).map (fun j => bitsOf b (384 + 12 * j) 12)
  bitsOf b 0 32 ≠ 0x4E55414C || bitsOf b 40 8 ≠ 1
    || bitsOf b 114 14 ≠ 0 || bitsOf b 170 22 ≠ 0 || bitsOf b 960 64 ≠ 0
    || h.nl = 0 || h.nl = 7 || h.blk ≥ h.nl
    || (List.range 6).any (fun k => k ≥ h.nl && (bitsOf b (128 + 7 * k) 7 ≠ 0 || bitsOf b (192 + 32 * k) 32 ≠ 0))
    || h.ws.any (fun w => w = 0 || w > 64) || sumOf h.ws > 64
    || (h.ws.zip h.exts).any (fun x => x.2 > 2 ^ x.1)
    || launchBs h > 6144 || h.depth < 32 || h.depth > 1536 || h.spad > 8
    || (bufs.drop h.bufs.length).any (· ≠ 0) || h.bufs.any (· > 2048) || sumOf h.bufs * 128 > h.spad * 32768
    || h.prod ≥ launchG h || h.entry.toNat % 4 ≠ 0 || (launchC h).isNone

/-! ## Room (R326) -/

/-- Groups of a resident block on a core that have not ended (R361). -/
def shareOn (b : Block) (c : Nat) : Nat := (b.groups.filter (fun g => g / 192 = c)).length
/-- Register slots of a core that resident blocks hold, and groups. -/
def slotsUsed (s : State) (c : Nat) : Nat := sumOf (s.blocks.map (fun b => shareOn b.2 c * launchW b.2.hdr * b.2.hdr.depth))
def groupsUsed (s : State) (c : Nat) : Nat := sumOf (s.blocks.map (fun b => shareOn b.2 c))
/-- The lowest run of parts of a core's local store in which no part holds a scratchpad (R154). -/
def freeRun (s : State) (c n : Nat) : Option Nat :=
  let sp := (getCore s c).spads.map Prod.snd
  (List.range (9 - n)).find? (fun f => (rangeFrom f n).all (fun p => !(sp.any (fun x => x.first ≤ p && p < x.first + x.parts))))
/-- Whether a core has room for a share of a launch's block. -/
def coreRoom (s : State) (h : LaunchHdr) (c share : Nat) : Bool :=
  slotsUsed s c + share * launchW h * h.depth ≤ 49152 && groupsUsed s c + share ≤ 192 && (freeRun s c h.spad).isSome
/-- The lowest-numbered cores with room for the shares of a block, from core `k` of a cluster on. -/
def coresFrom (s : State) (h : LaunchHdr) (cl : Nat) : Nat → Nat → List Nat → Option (List Nat)
  | _, _, [] => some []
  | 0, _, _ :: _ => none
  | n + 1, k, x :: t =>
    if coreRoom s h (cl * 4 + k) x then (coresFrom s h cl n (k + 1) t).map (fun y => (cl * 4 + k) :: y)
    else coresFrom s h cl n (k + 1) (x :: t)
/-- The cores of a cluster on which a block fits (R326); a fused block takes the cluster alone. -/
def coresIn (s : State) (h : LaunchHdr) (cl : Nat) : Option (List Nat) :=
  let here := s.blocks.filter (fun b => b.2.cores.any (fun c => clusterOf c = cl))
  if here.any (fun b => b.2.hdr.fuse) || (h.fuse && !here.isEmpty) then none
  else match launchC h with
    | none => none
    | some c => coresFrom s h cl 4 0 ((List.range c).map (launchShare h))
/-- The first open cluster with room, from the one after the last used; the cluster reserved for another launch is left out
(R342, R386). -/
def findRoom (s : State) (h : LaunchHdr) (inst node : Nat) : Option (Nat × List Nat) :=
  let try_ := fun (i : Nat) =>
    let cl := (s.esc.lastCluster + 1 + i) % 128
    let kept := match s.esc.reserved with | some (a, b, c) => c = cl && !(a = inst && b = node) | none => false
    if kept || (getCluster s cl).closed then none else (coresIn s h cl).map (fun x => (cl, x))
  (List.range 128).findSome? try_

/-! ## Placement (R154, R156, R327) -/

/-- Every line of an L1 written back and dropped. -/
def l1Empty (s : State) (c : Nat) : State := (getCore s c).l1.foldl (fun a x => l1Drop a c x.line) s
/-- A core as a block comes: its untracked copies are dropped, since a launch comes after what its predecessors wrote (R304, R340), and its
local store is divided, with a scratchpad of zeros in the lowest run (R154, log 26). -/
def spadMake (s : State) (h : LaunchHdr) (b c : Nat) : State :=
  let s1 := if h.spad = 0 && !h.fuse then acquireDo s c 4 else l1Empty s c
  if h.spad = 0 then modCore s1 c id
  else
    let x : Spad := { first := (freeRun s1 c h.spad).getD 0, parts := h.spad, bytes := [], poison := [] }
    modCore s1 c (fun k => { k with spads := tset k.spads b x })
/-- The division as a block leaves. -/
def spadDrop (s : State) (h : LaunchHdr) (b c : Nat) : State :=
  let s1 := if h.spad = 0 && !h.fuse then s else l1Empty s c
  modCore s1 c (fun k => { k with spads := tdel k.spads b })
/-- The lowest free group index of a core. -/
def freeGid (s : State) (gks : List Nat) (c : Nat) : Nat :=
  let used := (s.blocks.map (fun b => b.2.groups)).flatten ++ gks
  ((List.range 192).find? (fun g => !(used.contains (gnOf c g)))).getD 191
/-- Fields of a number taken by extents, level 0 first. -/
def splitBy : List Nat → Nat → List Nat
  | [], _ => []
  | e :: t, n => n % e :: splitBy t (n / e)
/-- Fields put at the places of their levels (R321). -/
def joinAt : List (Nat × Nat) → Nat → Nat
  | [], _ => 0
  | (w, x) :: t, o => x * 2 ^ o + joinAt t (o + w)
/-- WID of fibre i of block bn (R321, R322). -/
def widOf (h : LaunchHdr) (bn i : Nat) : Nat := joinAt (h.ws.zip (splitBy (h.exts.take h.blk) i ++ splitBy (h.exts.drop h.blk) bn)) 0
/-- A fibre as it starts from a launch (R206, R327); SPILLA keeps no bit below 8 (Table 9.7). -/
def newFibre (h : LaunchHdr) (wid : Nat) : Fibre :=
  { live := true, slots := [], wb := 0, low := 0, spilla := spillAddr (h.spillBase + BitVec.ofNat 64 wid * h.spillStride), pred := 0, lstat := 0,
    rejoin := [], arrived := 0 }
/-- Group g of block bn of a launch, as placed for the first time (R217, R327). -/
def newGroup (h : LaunchHdr) (b bn g core gid lane0 : Nat) : Group :=
  let w := launchW h
  let n := min w (launchBs h - g * w)
  let lanes := (List.range n).map (fun l => (l, newFibre h (widOf h bn (g * w + l))))
  let p : Path :=
    { pc := h.entry, widx := 0, hdr := 0, cur := 0, mask := maskOf (List.range n), pfx := none, y0 := none, y1 := none, y2 := none,
      loop := none, wait := .ready, lndCheck := 0, stalled := false, yielded := false, fresh := false, age := 0, aged := false }
  { block := b, index := g, wcode := h.width, depth := h.depth, core := core, gid := gid, lane0 := lane0, fused := h.fuse,
    producer := g = h.prod, lanes := lanes,
    sregs := (0, BitVec.ofNat 64 (widOf h bn 0)) :: (1, BitVec.ofNat 64 (g * w)) :: h.args.zipIdx.map (fun x => (x.2 + 2, x.1)),
    paths := [p], tdepth := 0, tvec := 0xFFFF0000, lcause := 0, imp := none, monitor := .none, words := [], barPhase := [], pend := [],
    lastIssue := 0, stopReq := false, replays := [], bgwaits := [], frame0 := 0, frame1 := 0, frameOut := false, atEntry := false, held := [] }
/-- The launch of a node run. -/
def launchOf (s : State) (inst node : Nat) : Option Launch := s.esc.launches.find? (fun x => x.inst = inst && x.node = node)
def modLaunch (s : State) (inst node : Nat) (f : Launch → Launch) : State :=
  { s with esc := { s.esc with launches := s.esc.launches.map (fun x => if x.inst = inst && x.node = node then f x else x) } }
/-- One group put on a core of its block, at the lowest free group index and the launch's next LANE0 (R326). -/
def putGroup (b inst node : Nat) (s : State) (core : Nat) (mk : Nat → Nat → Group) : State :=
  match tget s.blocks b with
  | none => s
  | some k =>
    let gid := freeGid s [] core
    let l0 := match launchOf s inst node with | some x => tgetD x.rots core 0 | none => 0
    let s1 := setGroup s (gnOf core gid) (mk gid l0)
    let s2 := modBlock s1 b (fun x => { x with groups := x.groups ++ [gnOf core gid] })
    modLaunch s2 inst node (fun x => { x with rots := tset x.rots core ((l0 + launchW k.hdr) % 64) })
/-- A block placed for the first time on some cores (R326, R327). -/
def placeNew (s : State) (x : Launch) (cl : Nat) (cores : List Nat) : State :=
  let f := freshId s
  let h := x.hdr
  let k : Block :=
    { hdr := h, bn := x.next, cores := cores, groups := [], bars := [], bufs := [], lostSets := [], lostRegions := [],
      inst := x.inst, node := x.node, fatal := false, preempt := false, noSlot := false }
  let s1 := { f.2 with
    blocks := tset f.2.blocks f.1 k
    esc := { f.2.esc with lastCluster := cl } }
  let s2 := cores.foldl (fun a c => spadMake a h f.1 c) s1
  let s3 := (List.range (launchG h)).foldl (fun a g =>
    let core := cores.getD (g / launchQ h) 0
    putGroup f.1 x.inst x.node a core (fun gid l0 => newGroup h f.1 x.next g core gid l0)) s2
  modLaunch s3 x.inst x.node (fun y => { y with next := y.next + 1, live := y.live + 1, since := none })

/-! ## The end of a block (R197, R319, R328, R382) -/

/-- Whether a write to another device is out that a block's groups have made, one that has ended among them (R148, R328). -/
def blockFab (s : State) (b : Nat) (k : Block) : Bool :=
  s.fab.tx.any (fun t => match t.origin with
    | .lane g _ _ | .mlr g _ _ _ | .frame g => k.groups.contains g
    | .drain _ _ bs | .merge _ _ _ bs => bs.contains b
    | .unit | .mtf _ _ _ | .xfer _ _ _ | .node _ _ | .acc _ _ _ _ _ => false)
/-- The open regions of a block published; whether none is left (R319). -/
def publishAll (s : State) (b : Nat) (k : Block) (lost : Bool) : State × Bool :=
  (k.cores.map (fun c => (List.range 4).map (fun h => (c, h)))).flatten.foldl (fun (a : State × Bool) x =>
    match tget (getCore a.1 x.1).regions x.2 with
    | some r =>
      if r.block = b then
        let q := publishTry a.1 x.1 x.2
        let early := if lost && q.2 then modBlock q.1 b (fun y => { y with lostRegions := natInsert y.lostRegions (regionKey k x.1 x.2) }) else q.1
        (early, a.2 && q.2)
      else a
    | none => a) (s, true)
/-- The buffered bytes and contributions of a block's groups drained and flushed; whether none is left (R148, R160). -/
def drainBlock (s : State) (b : Nat) (k : Block) : State × Bool :=
  k.cores.foldl (fun (a : State × Bool) c =>
    let r := sbDrainAll a.1 c (fun x => x.blocks.contains b)
    let s1 := mbAsk r.1 c (fun x => x.blocks.contains b)
    (s1, a.2 && r.2 && !(mbAny s1 c (fun x => x.blocks.contains b)))) (s, true)
/-- Transfer commands and fetches of a block that have not ended (R179, R288). -/
def blockBusy (s : State) (b : Nat) (k : Block) : Bool :=
  s.clusters.any (fun c => c.2.cmds.any (·.block = b) || c.2.pubs.any (·.block = b)) || k.cores.any (fun c => (getCore s c).fetches.any (·.block = b))
/-- Shadow sets that a block owns (R197). -/
def blockSets (s : State) (b : Nat) : List (Nat × Nat) :=
  (s.clusters.map (fun c => (c.2.shOwner.filter (fun x => x.2 = b)).map (fun x => (c.1, x.1)))).flatten
/-- A group taken off its core with everything that names it. -/
def removeGroup (s : State) (gk : Nat) : State := forgetGroup { s with groups := tdel s.groups gk } gk
/-- A block that has ended leaves its cores (R154, R156, R197). -/
def leaveCores (s : State) (b : Nat) (k : Block) : State :=
  let s1 := (blockSets s b).foldl (fun a x => shadowFree a x.1 x.2) s
  let s2 := k.groups.foldl removeGroup s1
  let s3 := { s2 with blocks := tdel s2.blocks b }
  k.cores.foldl (fun a c => spadDrop a k.hdr b c) s3
/-- The end of a block noted in its launch; with the last one, the node's run ends DONE or FAILED (R337, R341, R382). -/
def launchEnded (s : State) (k : Block) : State :=
  let s1 := modLaunch s k.inst k.node (fun x => { x with live := x.live - 1, failed := x.failed || k.fatal })
  match launchOf s1 k.inst k.node with
  | none => s1
  | some x =>
    if x.live = 0 && x.next ≥ x.total then
      { s1 with esc := { s1.esc with
          launches := s1.esc.launches.filter (fun y => !(y.inst = k.inst && y.node = k.node))
          runs := s1.esc.runs.map (fun r => if r.inst = k.inst && r.node = k.node then { r with status := some (if x.failed then 2 else 0) } else r) } }
    else s1
/-- Whether every group of a block is stopped under steps 1 to 4 of R379. -/
def blockStopped (s : State) (k : Block) : Bool :=
  k.groups.all (fun g => match tget s.groups g with | some x => groupSettled s g x | none => true)
/-- BLOCK_END (R328, R382): every fibre has ended, or FATAL ends the block once its groups have stopped; what the block has under
way is completed, published and drained, and it leaves its cores; vector 2 for FATAL (R396). -/
def execBlockEnd (b : Nat) (s : State) : Out :=
  match tget s.blocks b with
  | none => .next s
  | some k =>
    if k.fatal && !k.groups.isEmpty then
      if blockStopped s k then
        let s1 := k.groups.foldl removeGroup s
        .next (modBlock s1 b (fun x => { x with groups := [] }))
      else .next s
    else if !k.groups.isEmpty || blockBusy s b k then .next s
    else
      let d := drainBlock s b k
      if !d.2 then .next d.1
      else
        let p := publishAll d.1 b k false
        if !p.2 || blockFab p.1 b k then .next p.1
        else
          let s1 := if k.fatal then raiseMsix p.1 2 else p.1
          .next (settleAll (launchEnded (leaveCores s1 b k) k))

end Sys2Proof.Machine
end

