-- ==== Sys2Proof/Machine/Escapement.lean ====
section
/-! DEFINITION. The escapement (R333 to R342): anchor lines, graph instances, the firing and running of nodes, and the dispatch of
blocks. Its accesses to headers and nodes are reads and writes at device scope, translated through die 0 (log 27). -/

namespace Sys2Proof.Machine

/-! ## Accesses to graph memory -/

/-- Whether an access still waits. -/
def accWaits : Acc → Bool | .wait => true | _ => false
/-- A read of `n` bytes that the escapement makes. -/
def escRead (s : State) (va n : Nat) : State × Acc := spanRead s none 0 va n
/-- Writes made one after another; whether each was made. A write of a field that faults is dropped (R339). -/
def escWrite (s : State) (va n v : Nat) : State × Bool :=
  let r := accWrite s none 0 va n v 0 false
  (txMark r.1 s.fab.tx.length (.node 64 0), match r.2 with | .ok _ => true | _ => false)
/-- Whether a write of the escapement to another device is still out. -/
def escOut (s : State) : Bool := s.fab.tx.any (fun t => match t.origin with | .node _ _ => true | _ => false)
/-- Whether the replay buffer takes `n` more transactions to the device that holds an address, if another device does. -/
def escRoom (s : State) (va n : Nat) : Bool :=
  match (xlateNow s none 0 va).2 with
  | .ok e => tgtOf s (daOf e va) ≠ .remote || fabRoomFor s (chipOf (daOf e va)) (localOf (daOf e va)) n
  | _ => true
/-- Whether nothing holds writes to some ranges (a lease, a snoop, a full set, a full replay buffer). -/
def escFree (s : State) (rs : List (Nat × Nat)) : State × Bool :=
  rs.foldl (fun (a : State × Bool) x =>
    let r := givePieceOk a.1 0 none x.1 x.2
    (r.1, a.2 && (match r.2 with | .wait => false | _ => true) && escRoom r.1 x.1 (2 * rs.length))) (s, true)
def getInst (s : State) (i : Nat) : Option Inst := tget s.esc.insts i
def modInst (s : State) (i : Nat) (f : Inst → Inst) : State :=
  match tget s.esc.insts i with
  | some x => { s with esc := { s.esc with insts := tset s.esc.insts i (f x) } }
  | none => s
/-- Address of a node. -/
def nodeVa (x : Inst) (n : Nat) : Nat := (x.nodes.toNat + 64 * n) % 2 ^ 64
/-- An instance stopped by a node: FNODE written, and nothing fires further (R338). -/
def stopInst (s : State) (i n : Nat) : State :=
  match getInst s i with
  | none => s
  | some x =>
    if x.stopped then s
    else modInst (escWrite s (x.hdr.toNat + 25) 2 n).1 i (fun y =>
      { y with status := 2, fnode := n, stopped := true, fires := [], kept := [] })
/-- A node that cannot be read or written ends ARG, and stops its instance (R338, R339). -/
def argNode (s : State) (i n : Nat) : State :=
  match getInst s i with
  | none => s
  | some x => stopInst (escWrite s (nodeVa x n + 2) 1 3).1 i n

/-! ## Fields of a node (Tables 13.5, 13.6) -/

def ndType (b : Nat) : Nat := bitsOf b 0 4
def ndFs (b : Nat) : Bool := bitsOf b 4 1 = 1
def ndDep (b : Nat) : Nat := bitsOf b 8 8
def ndSucc (b m : Nat) : Nat := bitsOf b (64 + 16 * m) 16
def ndP (b k : Nat) : Nat := bitsOf b (128 + 64 * k) 64
/-- Parameter bits that a type leaves unlisted are not all 0, or a listed field has a value that is not assigned (R337). -/
def ndParamBad (b : Nat) : Bool :=
  match ndType b with
  | 0 => ndP b 1 ≠ 0 || ndP b 2 ≠ 0 || ndP b 3 ≠ 0
  | 1 => bitsOf (ndP b 1) 2 6 ≠ 0 || ndP b 1 / 2 ^ 16 ≠ 0 || ndP b 2 ≠ 0 || ndP b 3 ≠ 0
      || (128 ≤ bitsOf (ndP b 1) 8 8 && bitsOf (ndP b 1) 8 8 ≤ 254)
  | 2 => ndP b 1 / 4 ≠ 0 || bitsOf (ndP b 1) 0 2 = 3 || ndP b 2 ≠ 0 || ndP b 3 ≠ 0
  | 3 => ndP b 2 / 8 ≠ 0 || bitsOf (ndP b 2) 0 3 ≥ 6 || ndP b 3 ≠ 0
  | 4 => ndP b 2 / 8 ≠ 0 || bitsOf (ndP b 2) 0 3 ≥ 6
  | 5 => ndP b 0 ≠ 0 || ndP b 1 ≠ 0 || ndP b 2 ≠ 0 || ndP b 3 ≠ 0
  | 6 => ndP b 0 % 8 ≠ 0 || ndP b 2 / 2 ≠ 0 || ndP b 3 ≠ 0
  | _ => true
/-- A node that ends ARG when it fires (R337). -/
def ndBad (b nnode : Nat) : Bool :=
  bitsOf b 5 3 ≠ 0 || b / 2 ^ 384 ≠ 0 || ndParamBad b
    || (List.range 4).any (fun m => ndSucc b m ≥ nnode && ndSucc b m ≠ 0xFFFF)
/-- The test of a condition or while node (Table 13.6). -/
def ndTest (b : Nat) (cw : W64) : Bool :=
  let x := cw &&& BitVec.ofNat 64 (ndP b 0)
  let c := BitVec.ofNat 64 (ndP b 1)
  match bitsOf (ndP b 2) 0 3 with
  | 0 => x = c
  | 1 => x ≠ c
  | 2 => x < c
  | 3 => !(x < c)
  | 4 => x.slt c
  | _ => !(x.slt c)

/-! ## Anchors (R335) -/

/-- Running instances, with the pointers whose instances are about to start. -/
def instCount (s : State) : Nat := s.esc.insts.length + s.esc.starts.length
/-- Slots of a line exchanged with 0 in ascending order while fewer than 64 instances run; whether the scan reached its end. -/
def scanSlots (line : Nat) : Nat → Nat → State → State × Bool
  | 0, _, s => (s, true)
  | n + 1, j, s =>
    let v := lineRead (memLine s line) (8 * j) 8
    if v = 0 || (memPoison s line &&& spanSectors (8 * j) 8) ≠ 0 then scanSlots line n (j + 1) s
    else if instCount s ≥ 64 then (s, false)
    else
      let s1 := homeWrite s none line (spanMask (8 * j) 8) 0 0
      scanSlots line n (j + 1) { s1 with esc := { s1.esc with starts := s1.esc.starts ++ [BitVec.ofNat 64 v] } }
/-- Whether the escapement works: it is stopped from PREPARE to RELEASE (R412 to R415). -/
def escRuns (s : State) : Bool := !s.esc.stopped && !s.mgmt.off
/-- ANCHOR_SCAN (R335, R375, R410): waiting launches start first; the exchange acquires at host scope, which may promote (R310). -/
def execAnchorScan (k : Fin 16) (s : State) : Out :=
  let a := (tgetD s.esc.anch k.val 0).toNat
  let line := bitsOf a 7 39
  if !(escRuns s) || !(s.esc.scans.contains k.val) then .next s
  else if a % 2 = 0 || line * 128 ≥ 0x8000000000 then .next { s with esc := { s.esc with scans := s.esc.scans.filter (· ≠ k.val) } }
  else if (!s.esc.pending.isEmpty && instCount s < 64) || instCount s ≥ 64 then .next s
  else
    let h := homeAdmit (wake s) line (BitVec.allOnes 128) true
    let p := match tget h.1.coh.records line with
      | some (c, rc, _) => if h.2 && c = s.fab.chipid then promoteCore h.1 rc h.1.nextId else h
      | none => h
    if !h.2 || !p.2 then .next p.1
    else
      let s1 := { p.1 with esc := { p.1.esc with scans := p.1.esc.scans.filter (· ≠ k.val) } }
      let r := scanSlots line 16 0 (recallOw s1 line none)
      .next (if r.2 then r.1 else { r.1 with esc := { r.1.esc with scans := natInsert r.1.esc.scans k.val } })

/-! ## Instances (R336, R339) -/

/-- The lowest name that no instance has. -/
def freeInst (s : State) : Nat := ((List.range 64).find? (fun i => (tget s.esc.insts i).isNone)).getD 63
/-- An instance that ends ARG at once. -/
def argInst (va : W64) (donea donev : W64) : Inst :=
  { hdr := va, nnode := 0, nodes := 0, iprio := 0, cw := 0, donea := donea, donev := donev, status := 1, fnode := 0xFFFF, stopped := true,
    fires := [], running := [], kept := [] }
/-- A graph header that fails its checks (R336). -/
def graphBad (h : Nat) : Bool :=
  bitsOf h 0 32 ≠ 0x48505247 || bitsOf h 40 8 ≠ 1 || bitsOf h 48 16 = 0 || bitsOf h 64 64 % 64 ≠ 0 || bitsOf h 219 37 ≠ 0 || bitsOf h 448 576 ≠ 0
/-- CNT := NDEP and RUNS := 0 in a node: none while something holds it; its NDEP, or none when it cannot be read or written
(R336, R339). -/
def nodeInit (s : State) (va : Nat) : State × Option (Option Nat) :=
  let f := escFree s [(va, 8)]
  if !f.2 then (f.1, none)
  else
    let r := escRead f.1 va 64
    match r.2 with
    | .wait => (r.1, none)
    | .ok v =>
      let w := escWrite r.1 (va + 3) 5 (ndDep v)
      (w.1, some (if w.2 then some (ndDep v) else none))
    | _ => (r.1, some none)
/-- Some nodes initialised in ascending index, as far as nothing holds them: the next one, the nodes to fire, and the first that
failed. -/
def initNodes (x : Inst) : Nat → State → Nat × List Nat × Option Nat → State × Nat × List Nat × Option Nat
  | 0, s, q => (s, q)
  | n + 1, s, (k, fs, bad) =>
    let r := nodeInit s (nodeVa x k)
    match r.2 with
    | none => (r.1, k, fs, bad)
    | some (some d) => initNodes x n r.1 (k + 1, if d = 0 then fs ++ [k] else fs, bad)
    | some none => initNodes x n r.1 (k + 1, fs, match bad with | some f => some f | none => some k)
/-- The initialisation of an instance's nodes carried on, and at its end STATUS set and the nodes with NDEP 0 due to fire (R336). A node
that cannot be read or written stops the instance (R339). -/
def instInit (s : State) (i : Nat) : State :=
  match getInst s i with
  | none => s
  | some x =>
    match x.init with
    | none => s
    | some q =>
      let r := initNodes x (x.nnode - q.1) s q
      let k := r.2.1
      let fs := r.2.2.1
      let bad := r.2.2.2
      let f := escFree r.1 ((x.hdr.toNat + 24, 3) :: (match bad with | some n => [(nodeVa x n, 8)] | none => []))
      if k < x.nnode || !f.2 then modInst f.1 i (fun y => { y with init := some (k, fs, bad) })
      else
        let w := (escWrite f.1 (x.hdr.toNat + 24) 1 0xFF).1
        match bad with
        | none => modInst w i (fun y => { y with init := none, fires := fs })
        | some n => argNode (modInst w i (fun y => { y with init := none })) i n
/-- The instance of a graph header that has been read (R336): CW set, and the initialisation of its nodes begun. -/
def instBegin (s : State) (va : W64) (h : Nat) : State :=
  let i := freeInst s
  let donea := BitVec.ofNat 64 (bitsOf h 256 64)
  let donev := BitVec.ofNat 64 (bitsOf h 320 64)
  let put := fun (t : State) (x : Inst) => { t with esc := { t.esc with insts := tset t.esc.insts i x } }
  if graphBad h then put s (argInst va donea donev)
  else
    instInit (put s
      { hdr := va, nnode := bitsOf h 48 16, nodes := BitVec.ofNat 64 (bitsOf h 64 64), iprio := bitsOf h 216 3,
        cw := BitVec.ofNat 64 (bitsOf h 128 64), donea := donea, donev := donev, status := 0, fnode := 0xFFFF, stopped := false,
        fires := [], running := [], kept := [], init := some (0, [], none) }) i
/-- INSTANCE_START (R335, R336, R375): the instance whose nodes are being initialised goes on; with none, the oldest exchanged pointer or
waiting launch becomes an instance. -/
def execInstanceStart (s : State) : Out :=
  match s.esc.insts.find? (fun x => x.2.init.isSome) with
  | some x => .next (if escRuns s then instInit s x.1 else s)
  | none =>
    match (match s.esc.starts with
      | v :: t => some (v, { s with esc := { s.esc with starts := t } })
      | [] => match s.esc.pending with
        | v :: t => some (v, { s with esc := { s.esc with pending := t } })
        | [] => none) with
    | none => .next s
    | some (va, s1) =>
      if !(escRuns s) || s.esc.insts.length ≥ 64 then .next s
      else
        let bad := fun (t : State) => { t with esc := { t.esc with insts := tset t.esc.insts (freeInst t) (argInst va 0 0) } }
        if va.toNat % 128 ≠ 0 then .next (bad s1)
        else
          let r := escRead s1 va.toNat 128
          match r.2 with
          | .wait => .next { r.1 with esc := { s.esc with scans := r.1.esc.scans } }
          | .ok h => .next (instBegin r.1 va h)
          | _ => .next (bad r.1)
/-- Whether nothing of an instance is left to happen (R339). -/
def instQuiet (s : State) (i : Nat) (x : Inst) : Bool :=
  x.running.isEmpty && x.kept.all (fun k => k.2.isEmpty) && x.fires.isEmpty && x.init.isNone
    && !(s.esc.ready.any (·.inst = i)) && !(s.esc.runs.any (·.inst = i))

/-- What a .u store of 8 bytes by the escapement comes to. -/
inductive EscStore where
  | done
  /-- Sent to another device. -/
  | out
  /-- It faults, or its code is not OK (R337). -/
  | fails
  | waits
  deriving DecidableEq, Repr
/-- A .u store of 8 bytes as a release at host scope (R309, R337, R339): the escapement's earlier writes have been performed. `o` waits for
the answer of another device. -/
def escStore (s : State) (va v : Nat) (o : FabOrigin) : State × EscStore :=
  let r := xlateNow s none 0 va
  match r.2 with
  | .wait => (r.1, .waits)
  | .fault _ => (r.1, .fails)
  | .ok e =>
    match daCheck r.1 e va true true with
    | some _ => (r.1, .fails)
    | none =>
      if escOut r.1 then (r.1, .waits)
      else
        let da := daOf e va
        let la := localOf da
        match tgtOf r.1 da with
        | .reg =>
          let q := regStoreCore r.1 (regOff da) (BitVec.ofNat 64 v)
          (q.1, if q.2 then .done else .waits)
        | .remote =>
          match fabRefuse r.1 (chipOf da) la with
          | some _ => (r.1, .fails)
          | none =>
            if fabRoom r.1 (chipOf da) la then
              (fabSend r.1 (chipOf da) la (.write la (spanMask (la % 128) 8) (lineAt (la % 128) 8 v) 0 true) o, .out)
            else (r.1, .waits)
        | t =>
          match hostFails r.1 la with
          | some _ => (r.1, .fails)
          | none =>
            let m := spanMask (la % 128) 8
            let d := lineAt (la % 128) 8 v
            let h := admitType .u r.1 (lineOf la) m true
            if !h.2 then (h.1, .waits)
            else (if t = .host then hostThrough h.1 none (lineOf la) m d else homeWrite h.1 none (lineOf la) m d 0, .done)

/-- STATUS and TEND of an instance written (R339). -/
def instClose (s : State) (inst : Nat) (x : Inst) : State :=
  let h := x.hdr.toNat
  let s1 := (escWrite s (h + 24) 1 x.status).1
  let s2 := if x.fnode = 0xFFFF then (escWrite s1 (h + 25) 2 0xFFFF).1 else s1
  modInst (escWrite s2 (h + 48) 8 s2.time.now).1 inst (fun y => { y with closing := true })
/-- Whether the phase lets the escapement write (R412, R415): from QUIET to RELEASE the device issues nothing. -/
def escWrites (s : State) : Bool := s.mgmt.phase = .run || s.mgmt.phase = .preparing
/-- INSTANCE_END (R339, R412): STATUS, TEND, then DONEV to DONEA; what faults is dropped. -/
def execInstanceEnd (inst : Nat) (s : State) : Out :=
  match getInst s inst with
  | none => .next s
  | some x =>
    if !(instQuiet s inst x) || !(escWrites s) then .next s
    else
      let f := if x.closing then (s, true) else escFree s [(x.hdr.toNat + 24, 3), (x.hdr.toNat + 48, 8)]
      if !f.2 then .next f.1
      else
        let s1 := if x.closing then f.1 else instClose f.1 inst x
        let w := if x.donea ≠ 0 && x.donea.toNat % 8 = 0 then escStore s1 x.donea.toNat x.donev.toNat (.node 64 0) else (s1, .done)
        .next (if w.2 = .waits then w.1 else { w.1 with esc := { w.1.esc with insts := tdel w.1.esc.insts inst } })

/-! ## Firing (R338, R342) -/

/-- A firing that starts: the node joins the ready queue, or ends ARG without running (R337, R338). -/
def startFiring (s : State) (i : Nat) (x : Inst) (n blk : Nat) (cw : W64) (ord : Nat) : State :=
  if ndBad blk x.nnode then
    { s with esc := { s.esc with
      runs := s.esc.runs ++ [{ inst := i, node := n, blk := blk, status := some 3, which := 0, waiting := false, order := ord }] } }
  else { s with esc := { s.esc with ready := s.esc.ready ++ [{ prio := x.iprio, inst := i, node := n, blk := blk, cw := cw, order := ord }] } }
/-- The first firing of an instance that is due (R338, R340): CNT := NDEP, the node and CW read as the firing reads them; a firing of a
running node is kept. Whether nothing holds it. -/
def fireHead (s : State) (inst : Nat) : State × Bool :=
  match getInst s inst with
  | none => (s, true)
  | some x =>
    match x.fires with
    | [] => (s, true)
    | node :: _ =>
      let va := nodeVa x node
      let f := escFree s [(va, 8), (x.hdr.toNat + 25, 2)]
      if !f.2 then f
      else
        let r := escRead f.1 va 64
        if accWaits r.2 then (r.1, false)
        else
          let got := match r.2 with | .ok v => some v | _ => none
          let w := match got with
            | some v => escWrite r.1 (va + 3) 1 (ndDep v)
            | none => (r.1, false)
          let s1 := modInst w.1 inst (fun y => { y with fires := y.fires.drop 1 })
          let ord := s1.esc.fired
          let s2 := { s1 with esc := { s1.esc with fired := ord + 1 } }
          let v := match got with | some v => (if w.2 then v else 0xF) | none => 0xF
          (if x.running.contains node then modInst s2 inst (fun y => { y with kept := tset y.kept node (tgetD y.kept node [] ++ [(v, x.cw, ord)]) })
            else startFiring (modInst s2 inst (fun y => { y with running := y.running ++ [node] })) inst x node v x.cw ord, true)
/-- NODE_FIRE (R338, R340). -/
def execNodeFire (inst node : Nat) (s : State) : Out :=
  match getInst s inst with
  | none => .next s
  | some x => if !(escRuns s) || x.stopped || x.fires.head? ≠ some node then .next s else .next (fireHead s inst).1
/-- The head of the ready queue: higher IPRIO first, then the earlier (R342). -/
def readyHead (s : State) : Option Ready :=
  s.esc.ready.foldl (fun (a : Option Ready) r => match a with | none => some r | some b => if r.prio > b.prio then some r else a) none
/-- A node of some type taken from the head of the ready queue. -/
def takeReady (s : State) (inst node ty : Nat) : Option (Ready × State) :=
  match readyHead s with
  | none => none
  | some r =>
    if r.inst = inst && r.node = node && ndType r.blk = ty && escRuns s then
      some (r, { s with esc := { s.esc with ready := s.esc.ready.erase r } })
    else none
/-- A run under way. -/
def addRun (s : State) (r : Ready) (st : Option Nat) (which : Nat) (waiting : Bool) : State :=
  { s with esc := { s.esc with runs := s.esc.runs ++ [{ inst := r.inst, node := r.node, blk := r.blk, status := st, which := which, waiting := waiting, order := r.order }] } }
def modRun (s : State) (inst node : Nat) (f : NodeRun → NodeRun) : State :=
  { s with esc := { s.esc with runs := s.esc.runs.map (fun r => if r.inst = inst && r.node = node then f r else r) } }
def runAt (s : State) (inst node : Nat) : Option NodeRun := s.esc.runs.find? (fun r => r.inst = inst && r.node = node)

/-! ## Runs (Table 13.6) -/

/-- KERNEL_NODE_RUN (R325, R342). -/
def execKernelNodeRun (inst node : Nat) (s : State) : Out :=
  match takeReady s inst node 0 with
  | none => .next s
  | some (r, s1) =>
    let p := ndP r.blk 0
    let q := if p % 128 = 0 then escRead s1 p 128 else (s1, .fault scMisalign)
    match q.2 with
    | .wait => .next { q.1 with esc := { q.1.esc with ready := s.esc.ready } }
    | .ok b =>
      if launchBad b then .next (addRun q.1 r (some 1) 0 false)
      else
        let h := launchHdr b
        let x : Launch := { inst := inst, node := node, hdr := h, next := 0, total := launchTotal h, live := 0, failed := false,
                            order := r.order, since := none, rots := [] }
        let s2 := addRun q.1 r none 0 false
        .next { s2 with esc := { s2.esc with launches := s2.esc.launches ++ [x] } }
    | _ => .next (addRun q.1 r (some 1) 0 false)
/-- Cluster that a transfer node names, or the one whose engine holds the fewest commands (Table 13.6). -/
def nodeCluster (s : State) (b : Nat) : Nat :=
  let c := bitsOf (ndP b 1) 8 8
  if c < 128 then c
  else ((List.range 128).foldl (fun (a : Nat × Nat) k =>
    let n := (getCluster s k).cmds.length; if n < a.2 then (k, n) else a) (0, (getCluster s 0).cmds.length)).1
def nodeKind (b : Nat) : XKind := match bitsOf (ndP b 1) 0 2 with | 0 => .xcopy | 1 => .xstr | 2 => .xlay | _ => .xacc
/-- A transfer node's command issued, or what holds it: its status when it ends at once, true when it waits (R337, R341). -/
def transferTry (s : State) (inst node b : Nat) : State × Option Nat × Bool :=
  let cl := nodeCluster s b
  let p := ndP b 0
  if !(xRoom cl s) then (s, none, true)
  else
    let q := if p % 64 = 0 then escRead s p 64 else (s, .fault scMisalign)
    match q.2 with
    | .wait => (q.1, none, true)
    | .ok v =>
      let f := freshId q.1
      (xAccept f.2 cl
        { id := f.1, kind := nodeKind b, core := cl * 4, block := noGroup, group := noGroup, tag := none, bar := none,
          baddr := BitVec.ofNat 64 p, blk := v, d := 0, slot := 0, node := some (inst, node), started := false, fills := none,
          drains := none, prog := 0, rerr := none, fin := none }, none, false)
    | _ => (q.1, some 4, false)
/-- A node's command tried: for a node at the head of the queue, or one that waits for its engine. -/
def commandRun (s : State) (inst node ty : Nat) (go : State → Nat → State × Option Nat × Bool) : Out :=
  match runAt s inst node with
  | some r =>
    if r.waiting && ndType r.blk = ty then
      let q := go s r.blk
      .next (modRun q.1 inst node (fun x => { x with status := q.2.1, waiting := q.2.2 }))
    else .next s
  | none =>
    match takeReady s inst node ty with
    | none => .next s
    | some (r, s1) =>
      let q := go (addRun s1 r none 0 false) r.blk
      .next (modRun q.1 inst node (fun x => { x with status := q.2.1, waiting := q.2.2 }))
/-- TRANSFER_NODE_RUN (R337, R341). -/
def execTransferNodeRun (inst node : Nat) (s : State) : Out := commandRun s inst node 1 (fun t b => transferTry t inst node b)
/-- A bank node's command queued (R337, R341): BGRUN ends ARG with RSTR set, and CMDERR with a CREC that does not serve (R101). -/
def bankTry (s : State) (inst node b : Nat) : State × Option Nat × Bool :=
  let kind : BgKind := match bitsOf (ndP b 1) 0 2 with | 0 => .load | 1 => .vec | _ => .run
  let p := ndP b 0
  let n := if kind = .run then 128 else 32
  let q := if p % n = 0 then escRead s p n else (s, .fault scMisalign)
  match q.2 with
  | .wait => (q.1, none, true)
  | .ok v =>
    let put := fun (t : State) =>
      let f := freshId t
      (bgAccept f.2 (bgNew f.1 kind (setStack v / 4 * 256) noGroup 0 none (some (inst, node)) (BitVec.ofNat 64 p) v), (none : Option Nat), false)
    if kind = .run && bitsOf v 256 16 ≠ 0 then (q.1, some 3, false)
    else if !(bgRoom kind q.1 v) then (q.1, none, true)
    else if kind = .run then
      let c := crecOk q.1 none (setStack v / 4) (bitsOf v 128 64)
      match c.2 with
      | none => (c.1, none, true)
      | some false => (c.1, some 4, false)
      | some true => put c.1
    else put q.1
  | _ => (q.1, some 4, false)
/-- BANK_NODE_RUN (R337, R341). -/
def execBankNodeRun (inst node : Nat) (s : State) : Out := commandRun s inst node 2 (fun t b => bankTry t inst node b)
/-- CONDITION_NODE_RUN (R337, R340). -/
def execConditionNodeRun (inst node : Nat) (s : State) : Out :=
  match takeReady s inst node 3 with
  | none => .next s
  | some (r, s1) => .next (addRun s1 r (some 0) (if ndTest r.blk r.cw then 1 else 2) false)
/-- WHILE_NODE_RUN (R337, R340). -/
def execWhileNodeRun (inst node : Nat) (s : State) : Out :=
  match takeReady s inst node 4 with
  | none => .next s
  | some (r, s1) =>
    let t := ndTest r.blk r.cw
    let s2 := if t then modInst s1 inst (fun x => { x with cw := x.cw + BitVec.ofNat 64 (ndP r.blk 3) }) else s1
    .next (addRun s2 r (some 0) (if t then 1 else 2) false)
/-- BARRIER_NODE_RUN (R337). -/
def execBarrierNodeRun (inst node : Nat) (s : State) : Out :=
  match takeReady s inst node 5 with
  | none => .next s
  | some (r, s1) => .next (addRun s1 r (some 0) 0 false)
/-- A host-signal node's store: a .u store of 8 bytes (R337). The status once it is performed, none while it is out; true when it
waits. -/
def signalTry (s : State) (inst node b : Nat) : State × Option Nat × Bool :=
  let r := escStore s (ndP b 0) (ndP b 1) (.node inst node)
  match r.2 with
  | .done => (if bitsOf (ndP b 2) 0 1 = 1 then raiseMsix r.1 0 else r.1, some 0, false)
  | .out => (r.1, none, false)
  | .fails => (r.1, some 4, false)
  | .waits => (r.1, none, true)
/-- HOST_SIGNAL_NODE_RUN (R337, R396). -/
def execHostSignalNodeRun (inst node : Nat) (s : State) : Out := commandRun s inst node 6 (fun t b => signalTry t inst node b)

/-! ## The end of a run (R338) -/

/-- A successor's CNT decremented: it fires when CNT reaches 0, unless the instance has been stopped (R338); firings that are due have reset
theirs first. A node that cannot be read or written stops the instance. Whether nothing holds it. -/
def decrement (s : State) (i n : Nat) : State × Bool :=
  match getInst s i with
  | none => (s, true)
  | some x =>
    let p := x.fires.foldl (fun (a : State × Bool) _ => if a.2 then fireHead a.1 i else a) (s, true)
    let f := if p.2 then escFree p.1 [(nodeVa x n, 8), (x.hdr.toNat + 25, 2)] else p
    if !f.2 then f
    else
      let r := escRead f.1 (nodeVa x n) 64
      match r.2 with
      | .wait => (r.1, false)
      | .ok v =>
        let c := (bitsOf v 24 8 + 255) % 256
        let w := escWrite r.1 (nodeVa x n + 3) 1 c
        if !w.2 then (argNode w.1 i n, true)
        else if c = 0 && !x.stopped then (modInst w.1 i (fun y => { y with fires := y.fires ++ [n] }), true)
        else (w.1, true)
      | _ => (argNode r.1 i n, true)
/-- Some nodes decremented in order, as far as nothing holds them: those that are left. -/
def decrements (i : Nat) : List Nat → State → State × List Nat
  | [], s => (s, [])
  | n :: t, s =>
    let r := decrement s i n
    if r.2 then decrements i t r.1 else (r.1, n :: t)
/-- Successors of a run (R338). -/
def succsOf (r : NodeRun) : List Nat :=
  ((match r.which with | 0 => [0, 1, 2, 3] | 1 => [0, 1] | _ => [2, 3]).map (ndSucc r.blk)).filter (· ≠ 0xFFFF)
/-- The next kept firing of a node starts, or the node is no longer running (R338). -/
def nextKept (s : State) (i n : Nat) : State :=
  match getInst s i with
  | none => s
  | some x =>
    match tgetD x.kept n [] with
    | [] => modInst s i (fun y => { y with running := y.running.filter (· ≠ n) })
    | (b, cw, ord) :: t => startFiring (modInst s i (fun y => { y with kept := tset y.kept n t })) i x n b cw ord
/-- STATUS and RUNS written at the end of a run, ARG for a node that cannot be read or written, and the instance stopped by it if it ends so
or the node asks for it (R338, R339); a node that ended ARG as it fired has not run. None while something holds the node. -/
def runNoted (s : State) (x : Inst) (r : NodeRun) (st : Nat) : State × Bool :=
  let va := nodeVa x r.node
  let f := escFree s [(va, 8), (x.hdr.toNat + 25, 2)]
  if !f.2 then f
  else
    let q := escRead f.1 va 64
    if accWaits q.2 then (q.1, false)
    else
      let w := match q.2 with
        | .ok v =>
          let w1 := escWrite q.1 (va + 2) 1 st
          let w2 := if ndBad r.blk x.nnode then w1 else escWrite w1.1 (va + 4) 4 ((bitsOf v 32 32 + 1) % 2 ^ 32)
          (w2.1, w1.2 && w2.2)
        | _ => (q.1, false)
      if !w.2 then (argNode w.1 r.inst r.node, true)
      else (if st = 3 || (st ≠ 0 && ndFs r.blk) then stopInst w.1 r.inst r.node else w.1, true)
/-- NODE_RUN_END (R338): STATUS and RUNS written, then the successors decremented or the instance stopped; a kept firing starts. -/
def execNodeRunEnd (inst node : Nat) (s : State) : Out :=
  match runAt s inst node, getInst s inst with
  | some r, some x =>
    match r.status with
    | none => .next s
    | some st =>
      let a := match r.left with
        | some l => (s, true, l)
        | none => let q := runNoted s x r st; (q.1, q.2, succsOf r)
      if !a.2.1 then .next a.1
      else
        let d := decrements inst a.2.2 a.1
        if !d.2.isEmpty then .next (modRun d.1 inst node (fun y => { y with left := some d.2 }))
        else .next (nextKept { d.1 with esc := { d.1.esc with runs := d.1.esc.runs.filter (fun y => !(y.inst = inst && y.node = node)) } } inst node)
  | _, _ => .next s

/-! ## Dispatch (R342, R390) -/

/-- A launch put at its place: higher PRIO first, then earlier firing. -/
def launchInsert (a : Launch) : List Launch → List Launch
  | [] => [a]
  | b :: t => if a.hdr.prio > b.hdr.prio || (a.hdr.prio = b.hdr.prio && a.order ≤ b.order) then a :: b :: t else b :: launchInsert a t
/-- Launches of the dispatch list that have blocks to place: higher PRIO first, then earlier firing. -/
def waitingLaunches (s : State) : List Launch :=
  (s.esc.launches.filter (fun x => x.next < x.total)).foldr launchInsert []
/-- Order of firing of a saved block's launch. -/
def savedOrder (s : State) (x : Saved) : Nat := match launchOf s x.block.inst x.block.node with | some l => l.order | none => 0
/-- Whether a saved block is placed before a launch's next block (R390). -/
def savedFirst (s : State) (x : Saved) (l : Launch) : Bool := l.hdr.prio ≤ x.block.hdr.prio && savedOrder s x ≤ l.order
/-- A saved block put at its place among launches: higher PRIO first, then earlier firing. -/
def savedInsert (s : State) (x : Saved) : List Launch → List (Saved ⊕ Launch)
  | [] => [.inl x]
  | l :: t =>
    if x.block.hdr.prio > l.hdr.prio || (x.block.hdr.prio = l.hdr.prio && savedOrder s x ≤ l.order) then .inl x :: .inr l :: t.map Sum.inr
    else .inr l :: savedInsert s x t
/-- What the dispatcher may place, in its order: saved blocks as they were saved, the oldest first, and no block of a launch that one of
them precedes, wherever it fits (R344, R390). -/
def dispatchOrder (s : State) : List (Saved ⊕ Launch) :=
  let ls := (waitingLaunches s).filter (fun l => !(s.esc.saved.any (savedFirst s · l)))
  match s.esc.saved with
  | [] => ls.map Sum.inr
  | x :: _ => savedInsert s x ls

end Sys2Proof.Machine
end

