-- ==== Sys2Proof/Machine/Fabric.lean ====
section
/-! DEFINITION. The source's side of the fabric and its links (chapter 6): arrivals, responses and notices, timers, holds,
the calibre table and resynchronisation of a moved identity; and global time (R404, R405). -/

namespace Sys2Proof.Machine

/-! ## Global time (R404, R405) -/

/-- The count loaded at once in every copy: the device's, the cores' and the BGEs' (R61, R405); a copy that slewing has brought ahead stays,
since none goes backwards (R394). -/
def loadTime (s : State) (v : Nat) (m : TimeMode) : State :=
  { s with
    time := { s.time with now := v, mode := m, adj := 0, sinceAdj := 0 }
    cores := s.cores.map (fun (x : Nat × Core) => (x.1, { x.2 with timeCopy := max v x.2.timeCopy }))
    bges := s.bges.map (fun (x : Nat × Bge) => (x.1, if x.2.stopped then x.2 else { x.2 with clock := max v x.2.clock })) }
/-- One step of a slew (R404): never more than 1 tick. -/
def slewStep (e : Int) : Int := if e > 0 then 1 else if e < 0 then -1 else 0
/-- A copy after a tick: 1 more, and every 1,000th tick 1 closer to the device's count. -/
def copyTick (big : Bool) (now c : Nat) : Nat := if big then c + 1 + (slewStep (now - (c + 1) : Int)).toNat - (if c + 1 > now then 1 else 0) else c + 1
/-- A tick of 1 ns of the counter (R394, R404): it runs in every state but off; while a join holds it, the fabric's time runs
on (R405). BGE clocks run unless they have stopped (R61). -/
def tickDo (s : State) : State :=
  let bg := s.bges.map (fun (x : Nat × Bge) => (x.1, if x.2.stopped then x.2 else { x.2 with clock := x.2.clock + 1 }))
  if s.mgmt.off then s
  else match s.time.mode with
    | .waiting => { s with time := { s.time with sinceOff := s.time.sinceOff + 1 } }
    | .joining f => { s with time := { s.time with mode := .joining (f + 1) } }
    | .selfTimed | .fabric =>
      let big : Bool := decide (s.time.sinceAdj ≥ 999)
      let d := if big then slewStep s.time.adj else 0
      let now := ((s.time.now : Int) + 1 + d).toNat
      { s with
        time := { s.time with now := now, adj := s.time.adj - d, sinceAdj := if big then 0 else s.time.sinceAdj + 1 }
        cores := s.cores.map (fun (x : Nat × Core) => (x.1, { x.2 with timeCopy := copyTick big now x.2.timeCopy }))
        bges := bg }
/-- TIME_SAMPLE (R404, R405): a sample that comes shows that its link is up, whatever the link has negotiated. -/
def execTimeSample (_port : Fin 16) (v : W64) (s : State) : Out :=
  let t := v.toNat
  if s.mgmt.off then .next s
  else match s.time.mode with
    | .waiting => .next (loadTime s t .fabric)
    | .fabric => .next { s with time := { s.time with adj := (t : Int) - s.time.now } }
    | .joining _ => .next { s with time := { s.time with mode := .joining t } }
    | .selfTimed =>
      let s := { s with time := { s.time with linked := true } }
      if !(s.stackTbl.all (fun (x : Nat × Stack) => x.2.leases.all (fun (l : Nat × Lease) => l.2.st = .free))) then .next s
      else if t ≥ s.time.now then .next (loadTime s t .fabric)
      else .next { s with time := { s.time with mode := .joining t, adj := 0 } }
/-- TIME_SAMPLE_TIMEOUT (R405): 10 ms after leaving off. -/
def execTimeSampleTimeout (s : State) : Out :=
  if s.time.mode = .waiting && s.time.sinceOff ≥ 10000000 && !s.mgmt.off then .next (loadTime s 0 .selfTimed) else .next s
/-- FABRIC_TIME_REACHED (R405). -/
def execFabricTimeReached (s : State) : Out :=
  match s.time.mode with
  | .joining f => if f ≥ s.time.now then .next (loadTime s f .fabric) else .next s
  | _ => .next s

/-! ## Arrivals -/

/-- Whether the link of a plane carries no fabric traffic: it is not up, or the device has no chip number, is off or keeps a time of its
own (R130, R133, R405). -/
def fabShut (s : State) (plane : Nat) : Bool :=
  s.mgmt.off || s.fab.chipid = 0x3FFFF || (tget s.fab.links plane).isNone || (match s.time.mode with | .selfTimed | .joining _ => true | _ => false)
/-- Whether the device, or its switches for it, answer every request with PENDING (R413, R415). -/
def fabRetained (s : State) : Bool :=
  match s.mgmt.phase with | .committing | .retained | .waking => true | _ => false
/-- FABRIC_REQUEST_ARRIVAL (R139, R410, R413). -/
def execFabricRequestArrival (chip plane sn low : Nat) (req : FabReq) (s : State) : Out :=
  if fabShut s plane || plane ≥ 16 || sn ≥ 2 ^ 32 || low ≥ 2 ^ 32 then .next s
  else if fabRetained s then .next (rxSend s chip plane sn none)
  else .next (settleAll (rxTake (wake s) chip plane sn low req))
/-- RESYNC (R144): the receiver of a pair starts again at LOW. -/
def execResync (chip plane low : Nat) (s : State) : Out :=
  if fabShut s plane || plane ≥ 16 || low ≥ 2 ^ 32 then .next s
  else .next (setRx s (fabKey chip plane) { nexp := low, window := [], kept := [], low := low })

/-! ## Responses -/

/-- The lanes of a word that wait for one transaction. -/
def remoteLanes (w : MemWord) (t : FabTx) : List (Nat × LaneAcc) :=
  w.lanes.filter (fun (x : Nat × LaneAcc) => x.2.st = .remote t.chip t.plane t.sn)
/-- Local address that a read or an atomic names. -/
def reqLa : FabReq → Nat | .read la _ _ | .atom la _ _ _ _ _ | .cas la _ _ _ _ _ _ _ => la | _ => 0
/-- Whether a read passes through the switch. -/
def reqPass : FabReq → Bool | .read _ _ pass => pass | _ => false
/-- Bytes that a read names. -/
def reqLen : FabReq → Nat | .read _ n _ => n | _ => 0
/-- A value that has come for a lane from another device: joined, or written later (R169, R313, R314). A CAS that has first read the element
fails as a relaxed read, or goes on to its release. -/
def laneAnswer (s : State) (gk : Nat) (g : Group) (w : MemWord) (l : Nat) (a : LaneAcc) (da v : Nat) (pass : Bool)
    (rel : Option (Nat × Nat × AScope)) : State :=
  match w.op with
  | .loadu _ _ =>
    let n := opBytes w.op
    let o := a.va.toNat % 8
    if a.d1 = 4 || a.d1 = 5 then
      setLane s gk w.id l (fun b => { b with st := .req da b.d0.toNat (b.d1 = 5), d0 := BitVec.ofNat 64 (bitsOf v 0 (8 * (8 - o))), d1 := 2 })
    else if a.d1 = 2 then setSt s gk w.id l (.data (BitVec.ofNat 64 (a.d0.toNat + bitsOf v 0 (8 * (n + o - 8)) * 2 ^ (8 * (8 - o)))) 0)
    else setSt s gk w.id l (.data (BitVec.ofNat 64 (bitsOf v 0 (8 * n))) 0)
  | _ =>
    let old := bitsOf v 0 (8 * opBytes w.op)
    let ok := match w.op with | .cas _ _ _ _ => decide (old = bitsOf a.d0.toNat 0 (8 * opBytes w.op)) | _ => true
    if tget w.ans (probeKey l) = some (0, 0) && ok then
      setSt (modWord s gk w.id (fun q => { q with ans := tset q.ans (probeKey l) (1, 0) })) gk w.id l (.req da 0 pass)
    else atomRead s gk g w l (lineOf (localOf da)) old (if ok then 1 else 0) ok rel
/-- A write of a memory word that another device has answered: its lanes are done, and a code raises the trap of the group's block (R143). -/
def lanesWritten (s : State) (gk id block : Nat) (ls : List (Nat × LaneAcc)) (silent : Bool) (chip code : Nat) : State :=
  let q := doneLanes s gk id ls
  if code = 0 || silent then q else fabricTrap q [block] 4 chip code
/-- What an answer does for whoever waits for a transaction (R138, R142, R143). -/
def fabDeliver (s : State) (t : FabTx) (ans : FabAns) : State :=
  let trap := fun (q : State) (bs : List Nat) => if ans.code = 0 then q else fabricTrap q bs 4 t.chip ans.code
  match t.origin with
  | .lane gk id _ =>
    match wordAt s gk id with
    | none => s
    | some (g, w) =>
      let ls := remoteLanes w t
      settleGroup (if opLoads w.op then
          ls.foldl (fun (q : State) (x : Nat × LaneAcc) =>
            if ans.code = 0 then
              laneAnswer q gk g w x.1 x.2 (t.chip * 2 ^ 46 + reqLa t.req) (overBuffered w x.1 (reqLa t.req % 128) (reqLen t.req) ans.data.toNat)
                (reqPass t.req) ans.release
            else failLane q gk w x.1 scRemote (ans.code % 16)) s
        else lanesWritten s gk id g.block ls (opDrops w.op) t.chip ans.code) gk
  | .drain _ _ bs => settleAll (trap s bs)
  | .merge core line _ bs => settleAll (trap (modCore s core (fun k => { k with mb := k.mb.filter (·.line ≠ line) })) bs)
  | .unit => s
  | .mlr gk id l i =>
    match wordAt s gk id with
    | none => s
    | some (_, w) =>
      settleGroup (match w.op with
        | .mlr _ => mlrShare s gk id i (reqLa t.req) (opBytes w.op) ans
        | _ => mlrKeep s gk id l 0 ans.code 0) gk
  | .mtf core id line => fetchAnswer s core id line ans
  | .frame gk =>
    if ans.code = 0 then s
    else match tget s.groups gk with
      | some g => fatalBlock s g.block
      | none => s
  | .xfer cl id u =>
    if ans.code = 0 || u = reportUnit then s
    else modCmd s cl id (fun x => { x with rerr := match x.rerr with
      | some q => some (if u < q.1 then (u, ans.code) else q)
      | none => some (u, ans.code) })
  | .node i n =>
    let irq := ans.code = 0 && s.esc.runs.any (fun r => r.inst = i && r.node = n && bitsOf r.blk 256 1 = 1)
    nodeNote (if irq then raiseMsix s 0 else s) (some (i, n)) ans.code
  | .acc _ _ _ _ _ => { s with fab := { s.fab with reads := s.fab.reads ++ [(t.origin, ans)] } }
/-- Whether a transaction is the one named. -/
def fabIs (chip plane sn : Nat) (t : FabTx) : Bool := t.chip = chip && t.plane = plane && t.sn = sn
/-- A transaction retired with an answer. -/
def fabRetire (s : State) (t : FabTx) (ans : FabAns) : State :=
  fabDeliver { s with fab := { s.fab with tx := s.fab.tx.filter (fun x => !(fabIs t.chip t.plane t.sn x)) } } t ans
/-- Some transactions retired with a code. -/
def retireAll (s : State) (which : FabTx → Bool) (code : Nat) : State :=
  (s.fab.tx.filter which).foldl (fun a t => fabRetire a t { code := code, data := 0 }) s
/-- FABRIC_RESPONSE (R138). -/
def execFabricResponse (chip plane sn : Nat) (ans : FabAns) (s : State) : Out :=
  match s.fab.tx.find? (fabIs chip plane sn) with
  | none => .next s
  | some t => if fabShut s plane then .next s else .next (fabRetire s t ans)
/-- A transaction of the replay buffer changed. -/
def modTx (s : State) (chip plane sn : Nat) (f : FabTx → FabTx) : State :=
  { s with fab := { s.fab with tx := s.fab.tx.map (fun t => if fabIs chip plane sn t then f t else t) } }
/-- PENDING_NOTICE (R140). -/
def execPendingNotice (chip plane sn : Nat) (s : State) : Out :=
  if fabShut s plane then .next s else .next (modTx s chip plane sn (fun t => { t with timer := s.time.now, resends := 0 }))
/-- Whether the entry that routes a chip is DOWN (R142). -/
def fabDown (s : State) (chip : Nat) : Bool := (calOf s chip).getLsbD 1
/-- Whether the device may send transactions on a plane: its link carries traffic, and the device is not between COMMIT and RELEASE (R130,
R133, R412 to R415). -/
def fabSends (s : State) (plane : Nat) : Bool :=
  !(fabShut s plane) && (match s.mgmt.phase with | .run | .preparing | .quiet => true | _ => false)
/-- RSPT_EXPIRY (R140): a transaction resent, with LOW as it is now (R139), 20 µs after it was last sent or drew PENDING; after 8 resends the chip is reported.
Nothing is sent while the chip's entry is DOWN (R142). -/
def execRsptExpiry (chip plane sn : Nat) (s : State) : Out :=
  match s.fab.tx.find? (fabIs chip plane sn) with
  | none => .next s
  | some t =>
    if !(fabSends s plane) || fabDown s chip || s.time.now < t.timer + 20000 then .next s
    else if t.resends < 8 then
      .next (modTx s chip plane sn (fun x => { x with timer := s.time.now, resends := x.resends + 1, low := pairLow s chip plane }))
    else
      let s1 := modTx s chip plane sn (fun x => { x with timer := s.time.now, reported := true })
      .next { s1 with fab := { s1.fab with failing := natInsert s1.fab.failing chip } }
/-- DLRT_EXPIRY (R140): a packet is dropped at a hop and nothing says so; the replay buffer still holds its transaction. -/
def execDlrtExpiry (_chip _plane _sn : Nat) (s : State) : Out := .next s
/-- FHOLD_EXPIRY (R142): the entry that routes a chip has stayed DOWN for FHOLD.MS: its held transactions end ABSENT, and so
does every new request. -/
def execFholdExpiry (chip : Nat) (s : State) : Out :=
  let k := calKey s chip
  if !(fabDown s chip) || s.fab.holdOut.contains k || s.mgmt.off || s.time.now < tgetD s.fab.downSince k 0 + s.fab.fhold * 1000000 then .next s
  else
    let s1 := { s with fab := { s.fab with holdOut := natInsert s.fab.holdOut k } }
    .next (retireAll s1 (fun t => calKey s t.chip = k) 1)

/-! ## Links -/

/-- LINK_UP (R130): a partner with major version 1 is used at the lower minor version; any other port is reported down, and what is held or
out on its plane completes NOEXT. -/
def execLinkUp (port : Fin 16) (ver : Option (BitVec 16)) (s : State) : Out :=
  let p := port.val
  let f := s.fab
  let time := { s.time with linked := s.time.linked || s.time.mode = .selfTimed }
  if s.mgmt.off then .next s
  else match (match ver with | some v => if v.toNat / 256 = 1 then some (256 + min (v.toNat % 256) 0) else none | none => none) with
    | some v => .next { s with time := time, fab := { f with links := tset f.links p v, portDown := f.portDown.filter (· ≠ p) } }
    | none => .next (retireAll { s with time := time, fab := { f with links := tdel f.links p, portDown := natInsert f.portDown p } } (·.plane = p) 4)

/-! ## Calibre and identity registers -/

/-- Transactions of the chips that an entry routes, sent now in SN order with LOW as it is now (R139, R142, R144). -/
def sendHeld (s : State) (k : Nat) : State :=
  { s with fab := { s.fab with tx := s.fab.tx.map (fun t =>
      if calKey s t.chip = k && fabSends s t.plane then { t with timer := s.time.now, resends := 0, reported := false, low := pairLow s t.chip t.plane } else t) } }
/-- RESYNC sent to the receivers of the pairs of a chip (R144): every pair that has carried a transaction. -/
def resyncSend (s : State) (chip : Nat) : State :=
  let ps := (List.range 16).filter (fun p => (tget s.fab.nextSn (fabKey chip p)).isSome && fabSends s p)
  { s with fab := { s.fab with resyncs := (ps.map (fun p => (chip, p, pairLow s chip p))) ++ s.fab.resyncs } }
/-- An entry of the calibre table after a write: DOWN rising starts a hold; DOWN falling ends it, and with a new GEN the sources
send RESYNC before they send what they held (R142, R144). What is held or out to a chip that no longer exists, V being 0, ends ABSENT and is
not sent again (R134). -/
def calWrite (s0 : State) (pod : Bool) (i : Nat) (v : W64) : State :=
  let k := if pod then 2048 + i else i
  let old : W64 := if pod then tgetD s0.fab.calp i 2 else tgetD s0.fab.calm i 2
  let s := if v.getLsbD 0 then s0 else retireAll (calStore s0 pod i v) (fun t => calKey s0 t.chip = k) 1
  let s1 := calStore s pod i v
  let gen := fun (x : W64) => bitsOf x.toNat 24 16
  if v.getLsbD 1 && !old.getLsbD 1 then
    { s1 with fab := { s1.fab with downSince := tset s1.fab.downSince k s.time.now, downGen := tset s1.fab.downGen k (gen old),
                                   holdOut := s1.fab.holdOut.filter (· ≠ k) } }
  else if !v.getLsbD 1 && old.getLsbD 1 then
    let s2 := { s1 with fab := { s1.fab with holdOut := s1.fab.holdOut.filter (· ≠ k) } }
    let s3 := if !pod && gen v ≠ tgetD s.fab.downGen k 0 then resyncSend s2 (bitsOf s.fab.chipid 10 8 * 1024 + i) else s2
    sendHeld s3 k
  else s1

end Sys2Proof.Machine
end

