-- ==== Sys2Proof/Machine/Preempt.lean ====
section
/-! DEFINITION. Pre-emption and restoring of blocks (R386 to R390), the encoding of an image's registers and scratchpads (R389),
and the dispatcher's choice of what to place next (R342, R390). -/

namespace Sys2Proof.Machine

/-! ## The encoding of 64-byte blocks (Table 15.9) -/

/-- The bytes of a number, least significant first. -/
def bytesOf : Nat → Nat → List Byte
  | 0, _ => []
  | n + 1, v => BitVec.ofNat 8 v :: bytesOf n (v / 256)
/-- The number that bytes stand for. -/
def natOfBytes : List Byte → Nat
  | [] => 0
  | b :: t => b.toNat + 256 * natOfBytes t
/-- Whether a difference lies in −2^(8k−1) .. 2^(8k−1) − 1 modulo 2^64. -/
def deltaFits (k : Nat) (d : W64) : Bool := (BitVec.ofInt 64 (d.setWidth (8 * k)).toInt) = d
/-- A block of 64 bytes, as eight words, encoded by the first row of Table 15.9 that applies. -/
def encodeBlock (ws : List W64) : List Byte :=
  match ws with
  | [] => []
  | w0 :: t =>
    if ws.all (· = 0) then [0]
    else if t.all (· = w0) then 1 :: bytesOf 8 w0.toNat
    else if t.all (fun w => deltaFits 1 (w - w0)) then 2 :: bytesOf 8 w0.toNat ++ (t.map (fun w => bytesOf 1 (w - w0).toNat)).flatten
    else if t.all (fun w => deltaFits 2 (w - w0)) then 3 :: bytesOf 8 w0.toNat ++ (t.map (fun w => bytesOf 2 (w - w0).toNat)).flatten
    else 4 :: (ws.map (fun w => bytesOf 8 w.toNat)).flatten
/-- The word at some bytes. -/
def wordAtBytes (b : List Byte) (o : Nat) : W64 := BitVec.ofNat 64 (natOfBytes ((b.drop o).take 8))
/-- The word at a base and a signed delta of `k` bytes. -/
def deltaAt (b : List Byte) (k o : Nat) (w0 : W64) : W64 := w0 + BitVec.ofInt 64 (BitVec.ofNat (8 * k) (natOfBytes ((b.drop o).take k))).toInt
/-- The first encoded block of some bytes as its eight words, and the bytes after it. -/
def decodeBlock (bs : List Byte) : List W64 × List Byte :=
  match bs with
  | [] => ([], [])
  | tag :: p =>
    let w0 := wordAtBytes p 0
    if tag = 0 then (List.replicate 8 0, p)
    else if tag = 1 then (List.replicate 8 w0, p.drop 8)
    else if tag = 2 then (w0 :: (List.range 7).map (fun j => deltaAt p 1 (8 + j) w0), p.drop 15)
    else if tag = 3 then (w0 :: (List.range 7).map (fun j => deltaAt p 2 (8 + 2 * j) w0), p.drop 22)
    else ((List.range 8).map (fun j => wordAtBytes p (8 * j)), p.drop 64)
/-- `n` blocks of words encoded, from a function that gives the words. -/
def encodeWords (f : Nat → W64) (n : Nat) : List Byte :=
  ((List.range n).map (fun k => encodeBlock ((List.range 8).map (fun j => f (8 * k + j))))).flatten
/-- The words of `n` encoded blocks. -/
def decodeWords : Nat → List Byte → List W64
  | 0, _ => []
  | n + 1, b => let r := decodeBlock b; r.1 ++ decodeWords n r.2
/-- A fibre's slots encoded and restored. -/
def slotsEncode (depth : Nat) (f : Fibre) : List Byte := encodeWords (fun j => tgetD f.slots j 0) (depth / 8)
def slotsDecode (depth : Nat) (b : List Byte) : Tbl W64 := (decodeWords (depth / 8) b).zipIdx.map (fun x => (x.2, x.1))
/-- A scratchpad's bytes encoded and restored. -/
def padEncode (x : Spad) : List Byte := encodeWords (fun j => BitVec.ofNat 64 (cellsRead x.bytes (8 * j) 8)) (x.parts * 512)
def padDecode (parts : Nat) (b : List Byte) : List Host.Cell :=
  (decodeWords (parts * 512) b).zipIdx.foldl (fun a x => if x.1 = 0 then a else cellsWrite a (8 * x.2) 8 x.1.toNat) []

/-! ## Saving a block (R387, R388) -/

/-- Step 1: every group at clause boundaries, in no precise trap, with no memory word or record open. -/
def groupParked (g : Group) : Bool :=
  g.paths.all (fun p => p.widx = 0 && (pathTrap p).isNone) && !(g.words.any wordFaulted) && !(g.words.any wordOpen) && g.replays.isEmpty && !g.frameOut
/-- Steps 3 and 4: no matrix request, and no command with a tag of the block, still to come. -/
def commandsDone (s : State) (b : Nat) (k : Block) : Bool :=
  !(s.clusters.any (fun c => c.2.cmds.any (·.block = b) || c.2.pubs.any (·.block = b) || c.2.mat.any (fun m => k.groups.contains m.group)))
    && !(s.stackTbl.any (fun t => t.2.layq.any (·.block = b) || t.2.cmdq.any (·.block = b) || t.2.vecq.any (·.block = b)))
/-- Step 2 for a group: its monitor is lost, YIELD cycles are discarded, captured loop bodies dropped. -/
def dropTransient (g : Group) : Group :=
  { g with
    monitor := match g.monitor with | .none => .none | _ => .lost
    paths := g.paths.map (fun p =>
      { p with
        wait := match p.wait with | .yield _ => .ready | w => w
        loop := p.loop.map (fun l => { l with captured := [] }) }) }
/-- A group as its image holds it: a path frozen on a loading overlay fetches again when the block resumes (R39, R390). -/
def thawImage (g : Group) : Group :=
  { g with paths := g.paths.map (fun p => { p with wait := match p.wait with | .frozen => .ready | w => w }) }
/-- Step 2: fetches stop with PREEMPT at their lowest line not landed; monitors drop; paths whose YIELD has ended merge (R330). -/
def preemptTransient (s : State) (b : Nat) (k : Block) : State :=
  let s1 := k.cores.foldl (fun a c => ((getCore a c).fetches.filter (·.block = b)).foldl (fun q f => fetchStop q c f.id 5 0 0) a) s
  k.groups.foldl (fun a g => boundary (settleMonitor (tidyMonitors (modGroup a g dropTransient)) g) g) s1
/-- Step 5: buffers drained, regions published and noted as lost, shadow sets discarded and noted as lost; whether it is done. -/
def preemptDrain (s : State) (b : Nat) (k : Block) : State × Bool :=
  let d := drainBlock s b k
  if !d.2 then d
  else
    let p := publishAll d.1 b k true
    if !p.2 || blockFab p.1 b k then (p.1, false)
    else
      let sets := blockSets p.1 b
      (modBlock (sets.foldl (fun a x => shadowFree a x.1 x.2) p.1) b (fun y => { y with lostSets := (sets.map Prod.snd).foldl natInsert y.lostSets }), true)
/-- Virtual address of a context slot (Table 15.8). -/
def slotVa (s : State) (n : Nat) : Nat := bitsOf s.mgmt.ctxbase.toNat 22 35 * 2 ^ 22 + n * 2 ^ 22
/-- The lowest free context slot. -/
def freeSlot (s : State) : Option Nat := (List.range s.mgmt.ctxn).find? (fun n => !(s.esc.slots.contains n))
/-- Whether nothing holds the lines of a slot. -/
def slotFree (s : State) (n : Nat) : State × Bool := escFree s ((List.range 32768).map (fun i => (slotVa s n + 128 * i, 128)))
/-- The image's bytes in a slot: its layout is not given, so every byte of the slot is a free value (log 28). -/
def slotImage (s : State) (n : Nat) : State :=
  (List.range 32768).foldl (fun (a : State) i =>
    (escWrite { a with free := a.free + 1 } (slotVa s n + 128 * i) 128 (Config.freeLine a.free).toNat).1) s
/-- What is saved of a block. -/
def savedOf (s : State) (b : Nat) (k : Block) (slot : Nat) : Saved :=
  let gs := k.groups.filterMap (fun g => tget s.groups g)
  { block := k, id := b, slot := slot,
    groups := gs.map (fun g => { thawImage g with lanes := g.lanes.map (fun x => (x.1, { x.2 with slots := [] })) }),
    slots := (gs.zipIdx.map (fun g => g.1.lanes.map (fun x => (g.2 * 64 + x.1, slotsEncode g.1.depth x.2)))).flatten,
    spads := k.cores.zipIdx.filterMap (fun c => (spadOf s c.1 b).map (fun x => (c.2, { x with bytes := [] }))),
    pads := k.cores.zipIdx.filterMap (fun c => (spadOf s c.1 b).map (fun x => (c.2, padEncode x))),
    tags := (k.cores.zipIdx.map (fun c => ((getCore s c.1).tagInfo.filter (fun x => x.2.block = b)).map (fun x => (c.2 * 64 + x.1, x.2)))).flatten }
/-- Step 6: the block's image is saved and it leaves its cores; with no free slot it goes on running (R387). -/
def saveBlock (s : State) (b : Nat) (k : Block) : State :=
  match freeSlot s with
  | none => askStop (modBlock s b (fun x => { x with preempt := false, noSlot := true })) b false
  | some n =>
    let f := slotFree s n
    if !f.2 then f.1
    else
      let s1 := slotImage f.1 n
      let x := savedOf s1 b k n
      settleAll (leaveCores { s1 with esc := { s1.esc with saved := s1.esc.saved ++ [x], slots := natInsert s1.esc.slots n } } b k)
/-- BLOCK_PREEMPT_SAVE (R387): as far as the steps have come; it is carried out whole once nothing holds them. -/
def execBlockPreemptSave (b : Nat) (s : State) : Out :=
  match tget s.blocks b with
  | none => .next s
  | some k =>
    if !k.preempt || k.fatal || k.groups.isEmpty || !(k.groups.all (fun g => match tget s.groups g with | some x => groupParked x | none => true)) then .next s
    else
      let s1 := preemptTransient s b k
      if !(commandsDone s1 b k) || k.cores.any (fun c => (getCore s1 c).fetches.any (·.block = b)) then .next s1
      else
        let d := preemptDrain s1 b k
        if !d.2 then .next d.1
        else .next (match tget d.1.blocks b with | some y => saveBlock d.1 b y | none => d.1)

/-! ## Placing (R342, R390) -/

/-- A saved group as it resumes: its registers restored, its placement new, its frames where they were. -/
def restoredGroup (x : Saved) (i core gid lane0 : Nat) (g : Group) : Group :=
  { g with
    core := core, gid := gid, lane0 := lane0, stopReq := false, lastIssue := 0
    lanes := g.lanes.map (fun y => (y.1, { y.2 with slots := slotsDecode g.depth (tgetD x.slots (i * 64 + y.1) []) })) }
/-- The paths of a block's groups merged at the boundaries where they stand (R330). -/
def settleBlock (s : State) (b : Nat) : State :=
  match tget s.blocks b with
  | some k => k.groups.foldl boundary s
  | none => s
/-- A saved block placed again on some cores (R390). -/
def placeSaved (s : State) (x : Saved) (cl : Nat) (cores : List Nat) : State :=
  let k := x.block
  let idx := fun (c : Nat) => (k.cores.findIdx? (· = c)).getD 0
  let k1 : Block := { k with
    cores := cores, groups := [], preempt := false, noSlot := false
    bufs := k.bufs.map (fun y => (cores.getD (idx (y.1 / 16)) 0 * 16 + y.1 % 16, y.2)) }
  let s1 := { s with
    blocks := tset s.blocks x.id k1
    esc := { s.esc with lastCluster := cl, saved := s.esc.saved.filter (·.id ≠ x.id), slots := s.esc.slots.filter (· ≠ x.slot) } }
  let s2 := cores.foldl (fun a c => spadMake a k.hdr x.id c) s1
  let s3 := cores.zipIdx.foldl (fun a c => modSpad a c.1 x.id (fun y =>
    { y with bytes := padDecode y.parts (tgetD x.pads c.2 []), poison := match tget x.spads c.2 with | some z => z.poison | none => [] })) s2
  let s4 := x.groups.zipIdx.foldl (fun a g =>
    let core := cores.getD (idx g.1.core) 0
    putGroup x.id k.inst k.node a core (fun gid l0 => restoredGroup x g.2 core gid l0 g.1)) s3
  settleBlock (x.tags.foldl (fun a t =>
    let c := cores.getD (t.1 / 64) 0
    if tagFree a c (t.1 % 64) then modCore a c (fun y => { y with tagInfo := tset y.tagInfo (t.1 % 64) t.2 }) else a) s4) x.id
/-- The clusters and cores for an item of the dispatch order. -/
def itemRoom (s : State) (x : Saved ⊕ Launch) : Option (Nat × List Nat) :=
  match x with
  | .inl y => findRoom s y.block.hdr y.block.inst y.block.node
  | .inr l => findRoom s l.hdr l.inst l.node
/-- An item of the dispatch order placed. -/
def placeItem (s : State) (x : Saved ⊕ Launch) (r : Nat × List Nat) : State :=
  match x with
  | .inl y => placeSaved s y r.1 r.2
  | .inr l =>
    let s1 := placeNew s l r.1 r.2
    { s1 with esc := { s1.esc with reserved := match s1.esc.reserved with
      | some (a, b, c) => if a = l.inst && b = l.node then none else some (a, b, c)
      | none => none } }
/-- The head launch of the dispatch list starts to wait when its next block fits nowhere (R342). -/
def noteWaiting (s : State) : State :=
  match waitingLaunches s with
  | [] => s
  | l :: _ =>
    if (findRoom s l.hdr l.inst l.node).isNone && l.since.isNone then modLaunch s l.inst l.node (fun y => { y with since := some s.time.now }) else s
/-- BLOCK_PLACEMENT (R326, R327, R342, R390): the first item of the dispatch order that fits is placed; with a block resident the compute
dies are not idle (R410). -/
def execBlockPlacement (s : State) : Out :=
  if s.mgmt.off || s.mgmt.phase ≠ .run then .next s
  else
    let s1 := noteWaiting s
    match (dispatchOrder s1).findSome? (fun x => (itemRoom s1 x).map (fun r => (x, r))) with
    | none => .next s1
    | some (x, r) => .next (placeItem (wake s1) x r)
/-- Free register slots of a cluster. -/
def clusterRoom (s : State) (cl : Nat) : Nat := sumOf ((List.range 4).map (fun c => 49152 - slotsUsed s (cl * 4 + c)))
/-- The open cluster with the most free room, the lowest of equals (log 29). -/
def roomiest (s : State) : Option Nat :=
  ((List.range 128).filter (fun c => !(getCluster s c).closed)).foldl (fun (a : Option Nat) c =>
    match a with | none => some c | some b => if clusterRoom s c > clusterRoom s b then some c else some b) none
/-- DISPATCH_WAIT_EXPIRY (R342): after 100,000 ticks the cluster with the most free room is kept for the head launch. -/
def execDispatchWaitExpiry (s : State) : Out :=
  match waitingLaunches s with
  | [] => .next s
  | l :: _ =>
    match l.since with
    | some t =>
      if s.esc.reserved.isSome || s.time.now < t + 100000 then .next s
      else .next { s with esc := { s.esc with reserved := (roomiest s).map (fun c => (l.inst, l.node, c)) } }
    | none => .next s

end Sys2Proof.Machine
end

