-- ==== Sys2Proof/Machine/Power.lean ====
section
/-! DEFINITION. Operating points, throttling and temperature (R406 to R409), idle, suspend and resume (R410 to R416), the mailbox
(R399, R400, R402, R403), power-on (R401), and ticks and cycles as the scheduler makes them. -/

namespace Sys2Proof.Machine

def modMgmt (s : State) (f : Mgmt → Mgmt) : State := { s with mgmt := f s.mgmt }

/-! ## DVFS (R406, R407) -/

/-- Voltage of an operating point in mV (Table 16.6). -/
def opMv (p : Nat) : Nat := [500, 530, 560, 590, 620, 650, 685, 720].getD p 0
/-- Ticks that a rail takes between two points at 10 mV per µs (R407). -/
def railTicks (a b : Nat) : Nat := ((opMv a - opMv b) + (opMv b - opMv a)) * 100
def setStep (m : Mgmt) (d : Nat) (x : Option DvStep) : Mgmt := if d = 0 then { m with step0 := x } else { m with step1 := x }
def setOp (m : Mgmt) (d p : Nat) : Mgmt := if d = 0 then { m with op0 := p } else { m with op1 := p }
/-- Whether a die is in a step of a request. -/
def stepIn (m : Mgmt) (r : Nat) : Bool := [m.step0, m.step1].any (fun x => match x with | some y => decide (y.req = r) | none => false)
/-- The step of a die ended: LAST becomes DONE once its request has no die left in a step (R406). -/
def stepEnd (m : Mgmt) (d : Nat) (x : DvStep) : Mgmt :=
  let q := setStep m d none
  if x.req = 0 || stepIn q x.req then q else { q with last := 0 }
/-- A number for a request that no step has. -/
def freshReq (m : Mgmt) : Nat := [m.step0, m.step1].foldl (fun a x => match x with | some y => max a (y.req + 1) | none => a) 1
/-- A write to DVREQ (R406): the checks in order, or the steps of the named dies begin. -/
def dvreqTake (s : State) (v : W64) : State :=
  let t := bitsOf v.toNat 0 3
  let ds := (List.range 2).filter (fun d => bitsOf v.toNat (3 + d) 1 = 1)
  let up := ds.any (fun d => t > opOf s d)
  let deny := fun (c : Nat) => modMgmt s (fun m => { m with last := c })
  if bitsOf v.toNat 5 59 ≠ 0 || ds.isEmpty then s
  else if ds.any (fun d => (stepOf s d).isSome) || s.mgmt.phase ≠ .run then deny 3
  else if t > binOp then deny 2
  else if t < max fFloor s.mgmt.swFloor then deny 1
  else if up && s.mgmt.tlim then deny 4
  else if up && s.mgmt.throttling then deny 5
  else
    modMgmt s (fun m =>
      let q := ds.foldl (fun (q : Mgmt) d =>
        if opOf s d = t then q else setStep q d (some { target := t, switched := false, from_ := opOf s d, since := s.time.now, req := freshReq m })) m
      if stepIn q (freshReq m) then q else { q with last := 0 })
/-- A write to DVFLOOR (Table 16.7). -/
def dvfloorTake (s : State) (v : W64) : State :=
  let f := bitsOf v.toNat 0 3
  if f > s.mgmt.op0 || f > s.mgmt.op1 then s else modMgmt s (fun m => { m with swFloor := f })
/-- DVFS_CLOCK_SWITCH (R407): the PLL has locked for 5 µs, and in an up-step the rail has reached its voltage. -/
def execDvfsClockSwitch (die : Fin 2) (s : State) : Out :=
  match stepOf s die.val with
  | none => .next s
  | some x =>
    let up := x.target > x.from_
    let wait := if up then max 5000 (railTicks x.from_ x.target) else 5000
    if x.switched || s.mgmt.off || s.time.now < x.since + wait then .next s
    else .next (modMgmt s (fun m => setStep (setOp m die.val x.target) die.val (some { x with switched := true, since := s.time.now })))
/-- DVFS_RAIL_SETTLED (R407): in a down-step once the rail has fallen, in an up-step at once, its rail having risen before the switch. -/
def execDvfsRailSettled (die : Fin 2) (s : State) : Out :=
  match stepOf s die.val with
  | none => .next s
  | some x =>
    if !x.switched || s.mgmt.off || (x.target ≤ x.from_ && s.time.now < x.since + railTicks x.from_ x.target) then .next s
    else .next (modMgmt s (fun m => stepEnd m die.val x))
/-- DVSAMP_WINDOW (Table 16.7): every 10,000 ticks both registers take the last window's counts. -/
def execDvsampWindow (s : State) : Out :=
  if s.time.now / 10000 = s.mgmt.winAt / 10000 then .next s
  else
    let w := fun (d : Nat) => BitVec.ofNat 64 (tgetD s.mgmt.winStall d 0 % 2 ^ 32 + tgetD s.mgmt.winTotal d 0 % 2 ^ 32 * 2 ^ 32)
    .next (modMgmt s (fun m => { m with samp0 := w 0, samp1 := w 1, winTotal := [], winStall := [], winAt := s.time.now }))

/-! ## Temperature and current (R408, R409) -/

/-- A die forced to OP0: the clock at once, the rail after it. -/
def forceLow (now : Nat) (op : Nat) (st : Option DvStep) : Option DvStep :=
  match st with
  | some x => some { target := 0, switched := true, from_ := max op x.target, since := now }
  | none => if op = 0 then none else some { target := 0, switched := true, from_ := op, since := now }
/-- THERMAL_TRIP (R408): a step under way is abandoned and its request reports THERMAL. -/
def execThermalTrip (s : State) : Out :=
  if s.mgmt.off then .next s
  else .next (modMgmt (raiseMsix s 3) (fun m =>
    { m with op0 := 0, op1 := 0, step0 := forceLow s.time.now m.op0 m.step0, step1 := forceLow s.time.now m.op1 m.step1, tlim := true,
             last := if [m.step0, m.step1].any (fun x => match x with | some y => decide (y.req ≠ 0) | none => false) then 4 else m.last }))
/-- THERMAL_RECOVERY (R408): the temperature has been below 100 °C for 1 ms. -/
def execThermalRecovery (s : State) : Out :=
  if !s.mgmt.tlim || s.mgmt.off then .next s else .next (modMgmt (raiseMsix s 3) (fun m => { m with tlim := false }))
/-- THERMAL_SHUTDOWN (R408): off, with nothing kept but fuses and flash (Table 16.8). -/
def execThermalShutdown (s : State) : Out :=
  .next { State.reset with free := s.free, nextId := s.nextId, fuses := s.fuses, mgmt := { Mgmt.reset with off := true, booted := false } }
/-- CURRENT_SAMPLE (R409), in amperes. -/
def execCurrentSample (amps : Nat) (s : State) : Out :=
  if s.mgmt.off then .next s
  else if !s.mgmt.throttling && amps > 3420 then
    .next (modMgmt (raiseMsix s 3) (fun m => { m with throttling := true, thrCnt := min (m.thrCnt + 1) 65535 }))
  else if s.mgmt.throttling && amps < 3240 then .next (modMgmt s (fun m => { m with throttling := false }))
  else .next s

/-! ## Idle and power-on (R401, R410) -/

/-- Nothing is resident, running or waiting to be scanned (Table 16.8). -/
def quietNow (s : State) : Bool :=
  s.blocks.isEmpty && s.esc.runs.isEmpty && s.esc.ready.isEmpty && s.esc.scans.isEmpty && s.esc.starts.isEmpty && s.esc.pending.isEmpty
    && s.clusters.all (fun c => c.2.cmds.isEmpty && c.2.pubs.isEmpty && c.2.mat.isEmpty)
    && s.stackTbl.all (fun k => k.2.cmdq.isEmpty && k.2.vecq.isEmpty && k.2.layq.isEmpty)
/-- IDLE_ENTRY (R410): after 1 ms of it. -/
def execIdleEntry (s : State) : Out :=
  if quietNow s && s.mgmt.idleFor ≥ 1000000 && !s.mgmt.idle && s.mgmt.phase = .run && !s.mgmt.off then
    .next (modMgmt s (fun m => { m with idle := true }))
  else .next s
/-- Whether the boot ROM accepts a slot of the flash (R401): the fused root digest, an RSA-4096 key with exponent 65,537, a signature that
verifies, and a security version that is not below the fused minimum. -/
def slotOk (f : Fuses) (x : FwSlot) : Bool :=
  x.keyDigest = f.rootDigest && x.keyBits = 4096 && x.exponent = 65537 && x.verifies && f.minSvn ≤ x.svn
/-- POWER_ON_BOOT (R401): slot A, then slot B; with neither, VERCAP.FW reads 0 and the HDM decoder stays disabled. -/
def execPowerOnBoot (slotA slotB : FwSlot) (s : State) : Out :=
  if !s.mgmt.off then .next s
  else
    let ok := slotOk s.fuses slotA || slotOk s.fuses slotB
    .next { State.reset with free := s.free, nextId := s.nextId, fuses := s.fuses,
                             mgmt := { Mgmt.reset with booted := ok, verFw := if ok then 0x100 else 0 } }
/-- The fused minimum SVN raised, by accepted firmware alone; it is never lowered (R401). -/
def raiseSvn (s : State) (n : Nat) : State :=
  if s.mgmt.booted && !s.mgmt.off then { s with fuses := { s.fuses with minSvn := max s.fuses.minSvn n } } else s
/-- A tick of global time, and of the time with nothing to do. -/
def tickAll (s : State) : State :=
  let s1 := tickDo s
  modMgmt s1 (fun m => { m with idleFor := if quietNow s1 then m.idleFor + 1 else 0 })

/-! ## The mailbox (R399, R400) -/

/-- A command completed: STATUS and SEQ written, vector 1 raised. -/
def mbDone (s : State) (seq st : Nat) : State :=
  modMgmt (raiseMsix s 1) (fun m => { m with mbBusy := false, mbStatus := st, mbSeq := seq, mbOp := 0 })
/-- A command under way. -/
def mbBegin (s : State) (seq : Nat) : State := modMgmt s (fun m => { m with mbBusy := true, mbCur := seq })
/-- Local address of a report area; none when it is out of range. -/
def reportArea (s : State) : Option Nat :=
  let a := s.mgmt.mbarg.toNat
  if a % 4096 = 0 && a < 0x8000000000 then some a else none
/-- Bytes written at a local address at device scope, once every line of them can be; whether they were. -/
def mgmtWrite (s : State) (la n v : Nat) : State × Bool :=
  let ps := pieces (n / 128 + 2) la n 0
  let r := ps.foldl (fun (a : State × Bool) p =>
    let h := homeAdmit a.1 (lineOf p.1) (spanMask (p.1 % 128) p.2.1) true; (h.1, a.2 && h.2)) (s, true)
  if !r.2 then r
  else (ps.foldl (fun a p => homeWrite a none (lineOf p.1) (spanMask (p.1 % 128) p.2.1) (lineAt (p.1 % 128) p.2.1 (bitsOf v (8 * p.2.2) (8 * p.2.1))) 0) r.1, true)
/-- The report of Table 16.5, with its signature. -/
def attestReport (s : State) (nonce : Nat) : Nat :=
  let words := (List.range 18).foldl (fun a k => a + (Config.measured k).toNat * 2 ^ (64 * k)) 0
  let body := nonce + bitsOf words 0 512 * 2 ^ 512 + bitsOf words 512 512 * 2 ^ 1024 + bitsOf words 1024 64 * 2 ^ 1536 + s.fab.chipid * 2 ^ 1600
    + bitsOf words 1088 64 * 2 ^ 1664 + (s.time.now % 2 ^ 64) * 2 ^ 1728 + s.mgmt.versel.toNat * 2 ^ 1792 + (if binOp = 7 then 12 else 10) * 2 ^ 1856
  body + Config.sign body s.free % 2 ^ 4096 * 2 ^ 2048
/-- A command whose report is held stays under way (R15). -/
def mbHold (s : State) (c seq : Nat) : State := modMgmt (mbBegin s seq) (fun m => { m with mbOp := c })
/-- ATTEST (R403). -/
def mbAttestDo (s : State) (seq : Nat) : State :=
  match reportArea s with
  | none => mbDone s seq 2
  | some a =>
    let s1 := recallOw s (lineOf a) none
    let w := mgmtWrite s1 a 768 (attestReport s1 (lineRead (memLine s1 (lineOf a)) 0 64))
    if w.2 then mbDone { w.1 with free := w.1.free + 1 } seq 0 else mbHold w.1 2 seq
/-- IDCERT (R402). -/
def mbIdcertDo (s : State) (seq : Nat) : State :=
  match reportArea s with
  | none => mbDone s seq 2
  | some a =>
    let n := Config.certLen % 4093
    let w := mgmtWrite s a (n + 4) (n + (List.range n).foldl (fun q k => q + (Config.certByte k).toNat * 2 ^ (8 * (k + 4))) 0)
    if w.2 then mbDone w.1 seq 0 else mbHold w.1 3 seq
/-- A report that was held is tried again. -/
def mbRetry (s : State) : Out :=
  .next (if s.mgmt.mbOp = 2 then mbAttestDo s s.mgmt.mbCur else if s.mgmt.mbOp = 3 then mbIdcertDo s s.mgmt.mbCur else s)
/-- The clusters opened and the escapement started again, and PHASE RUN (R412, R414). -/
def reopen (s : State) : State :=
  modMgmt { openClusters s (List.range 128) with esc := { s.esc with stopped := false } } (fun m => { m with phase := .run })
/-- Leases cancelled or taken (R412 step 2); one whose record cannot be written yet is cancelled when it can (R55). -/
def takeLeases (s : State) : State :=
  ((s.stackTbl.map (fun k => k.2.leases.map (fun l => handleOf k.1 l.1 l.2.gen))).flatten).foldl (fun a h => (rowTake a h).1) s
/-- PREPARE (R412). -/
def mbPrepareDo (s : State) (seq : Nat) : State :=
  let s1 := takeLeases { s with esc := { s.esc with stopped := true } }
  modMgmt (mbBegin (closeClusters s1 (List.range 128)) seq) (fun m => { m with phase := .preparing, since := s.time.now })
/-- Every enabled anchor, to be scanned once. -/
def allScans (s : State) : List Nat := (List.range 16).filter (fun k => (tgetD s.esc.anch k 0).getLsbD 0)
/-- RELEASE (R415): unretired transactions are sent again, in SN order of each pair. -/
def mbReleaseDo (s : State) (seq : Nat) : State :=
  let s1 := reopen s
  mbDone { s1 with
    esc := { s1.esc with scans := (allScans s1).foldl natInsert s1.esc.scans }
    fab := { s1.fab with tx := s1.fab.tx.map (fun t => { t with timer := s1.time.now, resends := 0 }) } } seq 0
/-- Whether a command is allowed in the phase (Table 16.4). -/
def mbPhaseOk (c : Nat) (p : Phase) : Bool :=
  match c with
  | 1 => true
  | 2 | 3 | 4 | 5 => p = .run
  | 6 | 7 => p = .quiet
  | 8 => p = .retained
  | _ => p = .woken
/-- Whether a command's argument is out of its range, or it is a suspend command without a suspend area (R400). -/
def mbArgBad (s : State) (c : Nat) : Bool :=
  match c with
  | 1 => false
  | 2 | 3 => (reportArea s).isNone
  | 4 => s.mgmt.mbarg.toNat < 300 || 1800 < s.mgmt.mbarg.toNat
  | _ => !(s.mgmt.suspbase.getLsbD 0)
/-- A known command, once the checks of R397 and R400 have passed it to firmware. -/
def mbRun (s : State) (c seq : Nat) : State :=
  match c with
  | 1 => mbDone (modMgmt s (fun m => { m with verFw := 0x100 })) seq 0
  | 2 => mbAttestDo s seq
  | 3 => mbIdcertDo s seq
  | 4 => mbDone (modMgmt s (fun m => { m with cap := m.mbarg.toNat })) seq 0
  | 5 => mbPrepareDo s seq
  | 6 => modMgmt (mbBegin s seq) (fun m => { m with phase := .committing })
  | 7 => mbDone (reopen s) seq 0
  | 8 => modMgmt (mbBegin s seq) (fun m => { m with phase := .waking })
  | _ => mbReleaseDo s seq
/-- A write to MBCMD: dropped while BUSY; BADCMD, VERSION, STATE and BADARG before the command itself, and BUSY while firmware does work of its
own (R397, R399, R400, log 70). Without accepted firmware nothing answers (R401). -/
def mbTake (s : State) (v : W64) : State :=
  let c := bitsOf v.toNat 0 8
  let seq := bitsOf v.toNat 8 8
  if s.mgmt.mbBusy || !s.mgmt.booted then s
  else if bitsOf v.toNat 16 48 ≠ 0 || c = 0 || c > 9 then mbDone s seq 1
  else if selFw s = 0 && c ≠ 1 then mbDone s seq 7
  else if !(mbPhaseOk c s.mgmt.phase) then mbDone s seq 6
  else if mbArgBad s c then mbDone s seq 2
  else if s.mgmt.fwBusy then mbDone s seq 3
  else mbRun s c seq

/-! ## Suspend and resume (R412 to R415) -/

/-- Whether every engine is idle and every lease returned (R412). -/
def allIdle (s : State) : Bool :=
  s.blocks.isEmpty && s.clusters.all (fun c => c.2.cmds.isEmpty && c.2.pubs.isEmpty && c.2.mat.isEmpty)
    && s.stackTbl.all (fun k => k.2.cmdq.isEmpty && k.2.vecq.isEmpty && k.2.layq.isEmpty && k.2.leases.all (fun l => l.2.st = .free))
    && s.esc.runs.all (fun r => ndType r.blk = 0 && r.status.isNone)
/-- PREPARE_QUIET (R412): QUIET with DONE, or back to RUN with NOSLOT. -/
def execPrepareQuiet (s : State) : Out :=
  if s.mgmt.phase ≠ .preparing || s.mgmt.off then .next s
  else if s.blocks.any (fun b => b.2.noSlot) then .next (mbDone (reopen s) s.mgmt.mbCur 4)
  else if allIdle s then .next (mbDone (modMgmt s (fun m => { m with phase := .quiet })) s.mgmt.mbCur 0)
  else if s.stackTbl.any (fun k => k.2.leases.any (fun l => l.2.st = .reserved)) then .next (takeLeases s)
  else .next s
/-- PREPARE_TIMEOUT (R412): 3 s. -/
def execPrepareTimeout (s : State) : Out :=
  if s.mgmt.phase ≠ .preparing || s.mgmt.off || s.time.now < s.mgmt.since + 3000000000 then .next s
  else .next (mbDone (reopen s) s.mgmt.mbCur 5)
/-- Lines of the suspend area written: its layout is not given, so its bytes are free values (R413, log 28). -/
def suspendArea (s : State) : State :=
  let base := bitsOf s.mgmt.suspbase.toNat 26 20 * 2 ^ 26 / 128
  (List.range (2 ^ 19)).foldl (fun (a : State) i =>
    homeWrite { a with free := a.free + 1 } none (base + i) (BitVec.allOnes 128) (Config.freeLine a.free) 0) s
/-- Pages of 64 KiB of a range that lie outside local HBM or have no translation; none while a translation waits. -/
def outsideHbm (s : State) (va n : Nat) : Option (List Nat) :=
  (List.range (n / 65536)).foldr (fun i a => match a, (xlateNow s none 0 (va + 65536 * i)).2 with
    | none, _ | _, .wait => none
    | some l, .ok e => if tgtOf s (daOf e (va + 65536 * i)) = .hbm then some l else some (i :: l)
    | some l, .fault _ => some (i :: l)) (some [])
/-- A group whose image is lost: what it held are free values (R411, log 28). -/
def groupLost (k : Nat) (g : Group) : Group :=
  { g with
    sregs := (List.range 32).map (fun j => (j, Config.freeWord (k + j)))
    lanes := g.lanes.map (fun x => (x.1, { x.2 with pred := Config.freeWord (k + 32 + x.1), lstat := Config.freeWord (k + 96 + x.1) &&& 0x1031F }))
    paths := g.paths.map (fun p => { p with pc := (Config.freeWord (k + 160 + lowLane p.mask)).setWidth 32 &&& 0xFFFFFFFC }) }
/-- A saved block whose context slot did not map to local HBM: its image is lost (R411). -/
def savedLost (s : State) (x : Saved) : State × Saved :=
  let k := s.free
  let blocks := fun (b n : Nat) => ((List.range n).map (fun i =>
    4 :: (List.range 64).map (fun j => BitVec.ofNat 8 ((Config.freeWord (k + b + 64 * i + j)).toNat)))).flatten
  ({ s with free := k + 2 ^ 30 }, { x with
    groups := x.groups.zipIdx.map (fun g => groupLost (k + 224 * g.2) g.1)
    slots := x.slots.zipIdx.map (fun y => (y.1.1, blocks (2 ^ 20 + 2 ^ 12 * y.2) ((match x.groups[y.1.1 / 64]? with | some g => g.depth | none => 0) / 8)))
    pads := x.pads.zipIdx.map (fun y => (y.1.1, blocks (2 ^ 28 + 2 ^ 20 * y.2) ((match tget x.spads y.1.1 with | some z => z.parts | none => 0) * 64))) })
/-- The frames of a saved group that stand in the host window, lost: their bytes are free values (R383, R411). -/
def frameLost (s : State) (va : Nat) : State :=
  (List.range 512).foldl (fun (a : State) i => match (xlateNow a none 0 (va + 128 * i)).2 with
    | .ok e =>
      if tgtOf a (daOf e (va + 128 * i)) = .host then
        memMerge { a with free := a.free + 1 } (lineOf (localOf (daOf e (va + 128 * i)))) (BitVec.allOnes 128) (Config.freeLine a.free) 0
      else a
    | _ => a) s
/-- What a suspend loses of the saved blocks: images and frames outside local HBM (R383, R411). -/
def suspendLoses (s : State) : State :=
  let r := s.esc.saved.foldl (fun (a : State × List Saved) x => match outsideHbm a.1 (slotVa a.1 x.slot) (2 ^ 22) with
    | some [] => (a.1, a.2 ++ [x])
    | _ => let q := savedLost a.1 x; (q.1, a.2 ++ [q.2])) (s, [])
  let s1 := { r.1 with esc := { r.1.esc with saved := r.2 } }
  ((s1.esc.saved.map (fun x => (x.groups.map (fun g => [(1, g.frame0), (2, g.frame1)].filterMap (fun f =>
    if f.1 ≤ g.tdepth then some f.2.toNat else none))).flatten)).flatten).foldl frameLost s1
/-- COMMIT_RETAINED (R413): once nothing of a host half is out, the caches are written back, the suspend area is written, saved contexts
and frames outside local HBM are lost (R411), and the compute dies, their caches, overlays and tags are lost (Table 16.8). -/
def execCommitRetained (s : State) : Out :=
  if s.mgmt.phase ≠ .committing || s.mgmt.off then .next s
  else
    let s1 := (tkeys s.cores).foldl l1Empty s
    if !s1.coh.host.isEmpty || !s1.coh.snoops.isEmpty then .next (snoopAll s1 true (tkeys s1.coh.host))
    else
      let s2 := suspendArea <| suspendLoses { s1 with coh := { s1.coh with sets := [], valid := [], fsnoops := [], window := [], fabric := [], records := [], monitored := [] } }
      let s3 := { s2 with
        cores := [], clusters := [], bges := []
        coh := { s2.coh with sets := [], valid := [] }
        xl := { s2.xl with dieTlb0 := [], dieTlb1 := [], walk0 := [], walk1 := [], pend0 := [], pend1 := [] }
        stackTbl := s2.stackTbl.map (fun k => (k.1, { k.2 with rowCache := [], taken := [] })) }
      .next (mbDone (modMgmt s3 (fun m => { m with phase := .retained })) s.mgmt.mbCur 0)
/-- WAKE_WOKEN (R415). -/
def execWakeWoken (s : State) : Out :=
  if s.mgmt.phase ≠ .waking || s.mgmt.off then .next s
  else .next (mbDone (modMgmt s (fun m => { m with phase := .woken })) s.mgmt.mbCur 0)

end Sys2Proof.Machine
end

