-- ==== Sys2Proof/Machine/Host.lean ====
section
/-! DEFINITION. Writes to the register window by each agent (R109, R133, R386, R397, R406) with what each register does, and the
completion of translation invalidations (R120). -/

namespace Sys2Proof.Machine

/-- A write to a register by an agent that may write it. -/
def regWrite (s : State) (ag : Agent) (off : Nat) (v : W64) : State :=
  if !(mayWrite ag off) then s
  else if off = 0x100 then ptbaseTake s v
  else if off = 0x108 then (xlinvTake s v).1
  else if off = 0x110 then xlstatTake s v
  else if 0x200 ≤ off && off < 0x280 && off % 8 = 0 then anchorTake (wake s) ((off - 0x200) / 8) v
  else if off = 0x318 then preqTake s v
  else if off = 0x408 then verselTake s v
  else if off = 0x600 then dvreqTake s v
  else if off = 0x620 then dvfloorTake s v
  else if off = 0x700 then mbTake s v
  else if 0x10000 ≤ off && off < 0x12000 && off % 8 = 0 then calWrite s false ((off - 0x10000) / 8) v
  else if 0x12000 ≤ off && off < 0x12800 && off % 8 = 0 then calWrite s true ((off - 0x12000) / 8) v
  else if off = 0x13008 then fholdStore s v
  else plainStore s off v
/-- Whether a write waits for a place in the invalidation queues (R120). -/
def xlinvFull (s : State) (off : Nat) (v : W64) : Bool :=
  off = 0x108 && !(xlinvBad v) && (s.xl.invq0.length ≥ 16 || s.xl.invq1.length ≥ 16)
/-- The registers of Table 16.2, which a closed host port still answers (R416). -/
def mgmtReg (off : Nat) : Bool := [0x400, 0x408, 0x500, 0x508, 0x700, 0x708, 0x710].contains off
/-- A write that arrives at the register block, which wakes the compute dies if it is the host's (R410): refused to the host while the port is closed (R416), held behind an XLINV write that
waits (R120), not performed while a queue is full for another agent, or performed. -/
def regEvent (s : State) (ag : Agent) (off : Nat) (v : W64) : Out :=
  if s.mgmt.off then .next s
  else if ag = .host && hostClosed s && !(mgmtReg off) then .next (hostRefuse s)
  else
    let s := if ag = .host then wake s else s
    if ag = .host && (hostHeld s ag || xlinvFull s off v) then .next { s with xl := { s.xl with waiting := s.xl.waiting ++ [(off, v.toNat)] } }
    else if xlinvFull s off v then .next s
    else .next (regWrite s ag off v)
/-- What a host read of BAR 0 leaves: its answer (R125). -/
def hostRegAnswer (s : State) (off : Nat) : State := modMgmt s (fun m => { m with hostRegs := (off, regRead s off) :: m.hostRegs })
/-- A host read of BAR 0 (R125): refused while the port is closed but for the registers of Table 16.2 (R416), held behind an XLINV write that
waits (R120), or answered. -/
def hostRegRead (off : Nat) (s : State) : Out :=
  if s.mgmt.off then .next s
  else if hostClosed s && !(mgmtReg off) then .next (hostRefuse s)
  else
    let s := wake s
    if hostHeld s .host then .next { s with xl := { s.xl with waiting := s.xl.waiting ++ [(2 ^ 32 + off, 0)] } }
    else .next (hostRegAnswer s off)
/-- Held requests performed in order, up to one that must wait for a queue; `n` bounds them. -/
def heldWrites : Nat → State → State
  | 0, s => s
  | n + 1, s =>
    match s.xl.waiting with
    | [] => s
    | (off, v) :: t =>
      if off ≥ 2 ^ 32 then heldWrites n (hostRegAnswer { s with xl := { s.xl with waiting := t } } (off - 2 ^ 32))
      else if xlinvFull s off (BitVec.ofNat 64 v) then s
      else heldWrites n (regWrite { s with xl := { s.xl with waiting := t } } .host off (BitVec.ofNat 64 v))

/-! ## Rows of the register window -/

/-- XLINV_WRITE (R120). -/
def execXlinvWrite (ag : Agent) (v : W64) (s : State) : Out := regEvent s ag 0x108 v
/-- XLSTAT_WRITE (R120). -/
def execXlstatWrite (ag : Agent) (v : W64) (s : State) : Out := regEvent s ag 0x110 v
/-- PTBASE_WRITE (R111). -/
def execPtbaseWrite (ag : Agent) (v : W64) (s : State) : Out := regEvent s ag 0x100 v
/-- ANCHOR_WRITE (R334, R335, R397). -/
def execAnchorWrite (ag : Agent) (k : Fin 16) (v : W64) (s : State) : Out := regEvent s ag (0x200 + 8 * k.val) v
/-- OP of a PREQ value. -/
def preqOp (v : W64) (op : Nat) : W64 := (v &&& ~~~(0x300 : W64)) ||| BitVec.ofNat 64 (op * 256)
/-- PREQ_CLOSE (R386): a write to PREQ with OP = 1. -/
def execPreqClose (ag : Agent) (v : W64) (s : State) : Out := regEvent s ag 0x318 (preqOp v 1)
/-- PREQ_OPEN (R386): a write to PREQ with OP = 2. -/
def execPreqOpen (ag : Agent) (v : W64) (s : State) : Out := regEvent s ag 0x318 (preqOp v 2)
/-- REGISTER_WRITE (R109). -/
def execRegisterWrite (ag : Agent) (off : Nat) (v : W64) (s : State) : Out := regEvent s ag off v
/-- VERSEL_WRITE (R397). -/
def execVerselWrite (ag : Agent) (v : W64) (s : State) : Out := regEvent s ag 0x408 v
/-- DVREQ (R406). -/
def execDvreq (ag : Agent) (v : W64) (s : State) : Out := regEvent s ag 0x600 v
/-- DVFLOOR_WRITE (R406). -/
def execDvfloorWrite (ag : Agent) (v : W64) (s : State) : Out := regEvent s ag 0x620 v
/-- CALIBRE_WRITE (R133, R142, R144). -/
def execCalibreWrite (ag : Agent) (pod : Bool) (i : Nat) (v : W64) (s : State) : Out :=
  if i ≥ (if pod then 256 else 1024) then .next s else regEvent s ag ((if pod then 0x12000 else 0x10000) + 8 * i) v
/-- FHOLD_WRITE (R133). -/
def execFholdWrite (ag : Agent) (v : W64) (s : State) : Out := regEvent s ag 0x13008 v

/-! ## Mailbox commands: writes of MBCMD by the host (Table 16.4) -/

/-- MBCMD with a command and a sequence tag. -/
def mbcmd (c : Nat) (seq : Byte) : W64 := BitVec.ofNat 64 (c + seq.toNat * 256)
/-- VERSION (R399). -/
def execMbVersion (seq : Byte) (s : State) : Out := regEvent s .host 0x700 (mbcmd 1 seq)
/-- ATTEST (R403). -/
def execMbAttest (seq : Byte) (s : State) : Out := regEvent s .host 0x700 (mbcmd 2 seq)
/-- IDCERT (R402). -/
def execMbIdcert (seq : Byte) (s : State) : Out := regEvent s .host 0x700 (mbcmd 3 seq)
/-- POWERCAP (R399). -/
def execMbPowercap (seq : Byte) (s : State) : Out := regEvent s .host 0x700 (mbcmd 4 seq)
/-- PREPARE (R412). -/
def execMbPrepare (seq : Byte) (s : State) : Out := regEvent s .host 0x700 (mbcmd 5 seq)
/-- COMMIT (R413). -/
def execMbCommit (seq : Byte) (s : State) : Out := regEvent s .host 0x700 (mbcmd 6 seq)
/-- ABORT (R414). -/
def execMbAbort (seq : Byte) (s : State) : Out := regEvent s .host 0x700 (mbcmd 7 seq)
/-- WAKE (R415). -/
def execMbWake (seq : Byte) (s : State) : Out := regEvent s .host 0x700 (mbcmd 8 seq)
/-- RELEASE (R415). -/
def execMbRelease (seq : Byte) (s : State) : Out := regEvent s .host 0x700 (mbcmd 9 seq)
/-- BADCMD (R400): any other value of MBCMD. -/
def execMbBadcmd (v : W64) (s : State) : Out := regEvent s .host 0x700 v

/-! ## Invalidations (R120) -/

/-- Whether a range of an invalidation overlaps a range of `2^bits` bytes at an address. -/
def invHits (q : Nat × Nat) (va bits : Nat) : Bool :=
  let size := match q.2 with | 0 => 2 ^ 16 | 1 => 2 ^ 21 | 2 => 2 ^ 30 | _ => 2 ^ 57
  q.2 = 3 || (q.1 < va + 2 ^ bits && va < q.1 + size)
def invQueue (s : State) (die : Nat) : List (Nat × Nat) := if die = 0 then s.xl.invq0 else s.xl.invq1
/-- Entries of a die that overlap a range dropped: core TLBs, die TLB, walk cache, row-translation caches (Table 5.5). -/
def invDrop (s : State) (die : Nat) (q : Nat × Nat) : State :=
  let keepT := fun (e : TlbEntry) => !(invHits q e.va e.bits)
  let s1 := { s with
    cores := s.cores.map (fun (c : Nat × Core) => if dieOfCore c.1 = die then (c.1, { c.2 with tlb := c.2.tlb.filter keepT }) else c)
    stackTbl := s.stackTbl.map (fun (k : Nat × Stack) => if k.1 / 4 = die then (k.1, { k.2 with rowCache := k.2.rowCache.filter (fun e => !((List.range e.count).any (fun j => invHits q ((e.vpage + j) * 65536) 16))) }) else k) }
  let s2 := setDieTlb s1 die ((dieTlb s1 die).filter keepT)
  setWalk s2 die ((walkList s2 die).filter (fun e => !(invHits q (e.prefix_ * 2 ^ levelShift e.level) (levelShift e.level))))
/-- Whether a lane still has an access to perform under a translation of a range; a lane that walks its second page holds the translation of
its first. -/
def laneUnder (q : Nat × Nat) (op : MemOp) (a : LaneAcc) : Bool :=
  match a.st with
  | .req _ _ _ | .remote _ _ _ => (lanePages op a).any (fun p => invHits q (p * 65536) 16)
  | .walk => atSecond op a && invHits q (vpageOf a.va.toNat * 65536) 16
  | _ => false
/-- Whether an access to another device is out, which a translation of the die may have named: what a core or an engine has sent (log 30). -/
def fabOutDie (s : State) (die : Nat) : Bool :=
  let ofGroup := fun (g : Nat) => match tget s.groups g with | some x => dieOfCore x.core = die | none => true
  s.fab.tx.any (fun t => match t.origin with
    | .lane g _ _ | .mlr g _ _ _ | .frame g => ofGroup g
    | .drain c _ _ | .merge c _ _ _ | .mtf c _ _ => dieOfCore c = die
    | .xfer cl _ _ => cl / 64 = die
    | .unit | .node _ _ | .acc _ _ _ _ _ => true)
/-- The stores of a die's cores drained and flushed; whether none is left (log 30). -/
def invDrain (s : State) (die : Nat) : State × Bool :=
  ((tkeys s.cores).filter (fun c => dieOfCore c = die)).foldl (fun (a : State × Bool) c =>
    let r := sbDrainAll a.1 c (fun _ => true)
    let s1 := mbAsk r.1 c (fun _ => true)
    (s1, a.2 && r.2 && !(mbAny s1 c (fun _ => true)))) (s, true)
/-- XLINV_COMPLETE (R120): an entry of a die's queue; held host writes then go on. -/
def execXlinvComplete (die idx : Nat) (s : State) : Out :=
  match (if die < 2 then (invQueue s die)[idx]? else none) with
  | none => .next s
  | some q =>
    let s1 := invDrop s die q
    let busy := s1.groups.any (fun g => dieOfCore g.2.core = die && g.2.words.any (fun w => opTranslates w.op && w.lanes.any (fun x => laneUnder q w.op x.2)))
    let d := invDrain s1 die
    if busy || !d.2 || fabOutDie d.1 die then .next d.1
    else
      let s2 := { d.1 with xl := if die = 0 then { d.1.xl with invq0 := d.1.xl.invq0.eraseIdx idx } else { d.1.xl with invq1 := d.1.xl.invq1.eraseIdx idx } }
      .next (settleAll (heldWrites (s2.xl.waiting.length + 1) s2))

end Sys2Proof.Machine
end

