-- ==== Sys2Proof/Machine/Predicate.lean ====
section
/-! DEFINITION. Compares and predicates (R210, R211, R239 to R242): ICMP, ICMPI, FCMP, PLOG, PMOV. -/

namespace Sys2Proof.Machine

/-- Integer conditions (Table 10.7). -/
def icondHolds (cc : ICond) (w x y : Nat) : Bool :=
  let sx := toSigned w x
  let sy := toSigned w y
  let ux := x % 2 ^ w
  let uy := y % 2 ^ w
  match cc with
  | .eq => ux = uy
  | .ne => ux ≠ uy
  | .lts => sx < sy
  | .ges => sy ≤ sx
  | .gts => sy < sx
  | .les => sx ≤ sy
  | .ltu => ux < uy
  | .geu => uy ≤ ux
  | .gtu => uy < ux
  | .leu => ux ≤ uy

/-- A predicate byte written element by element (R211): every bit of an unmasked element's bytes takes its result, a masked
element merges or clears. `w` in bits. -/
def predElems (cx : Ctx) (l k w : Nat) (f : Nat → Bool) : Byte :=
  let old := predByte cx.grp l k
  BitVec.ofNat 8 ((List.range 8).foldl (fun acc j =>
    let e := j / (w / 8)
    let b := if elemOn cx l (e * w / 8) then f e else if (pfxOf cx).mz then false else old.getLsbD j
    acc + (if b then 2 ^ j else 0)) 0)

/-- A word that writes predicate pk in every active lane: the new byte and flags of a lane. -/
def predWord (s : State) (k : Fin 8) (kinds : List (SrcKind × Src)) (f : Ctx → Nat → List W64 → Byte × Flags) : Out :=
  runWord s (pendingOn (kinds.map (fun x => srcRegs x.2)).flatten) (fun cx =>
    if !(kinds.all (fun x => srcReady cx false x.2)) then operandTrap cx
    else
      let rs := (lanesOf cx.path.mask).map (fun l => (l, f cx l (kinds.map (fun x => readSrc cx x.1 x.2 l))))
      .ok (modGroup s cx.gk (fun g => rs.foldl (fun a x => flagsAdd (predSet a x.1 k.val x.2.1) x.1 x.2.2) g)))

/-- ICMP (R239). -/
def execIcmp (cc : ICond) (k : Fin 8) (a b : Src) (w : Width) (s : State) : Out :=
  predWord s k [intOp a, intOp b] (fun cx l xs =>
    match xs with
    | x :: y :: _ =>
      (predElems cx l k.val (widthBits w) (fun e =>
        icondHolds cc (widthBits w) (elemAt x (widthBits w) e) (elemAt y (widthBits w) e)), noFlags)
    | _ => (0, noFlags))
/-- ICMPI (R239): 64-bit elements with IMM9 sign-extended. -/
def execIcmpi (cc : ICond) (k : Fin 8) (a : Src) (imm : BitVec 9) (s : State) : Out :=
  predWord s k [intOp a] (fun cx l xs =>
    match xs with
    | x :: _ => (predElems cx l k.val 64 (fun _ => icondHolds cc 64 x.toNat (imm9 imm).toNat), noFlags)
    | _ => (0, noFlags))
/-- FCMP (R240): one result for all eight bytes; a masked lane keeps or clears them. -/
def execFcmp (cc : FCond) (k : Fin 8) (a b : Src) (f : FFmt) (s : State) : Out :=
  predWord s k [fpOp (ffmtFmt f) a, fpOp (ffmtFmt f) b] (fun cx l xs =>
    match xs with
    | x :: y :: _ =>
      let r := fCompare (ffmtFmt f) cc x.toNat y.toNat
      (predElems cx l k.val 64 (fun _ => r.1), if elemOn cx l 0 then r.2 else noFlags)
    | _ => (0, noFlags))
/-- PLOG (R241): pd := table[2x + y], masked per byte. -/
def execPlog (tt : BitVec 4) (d a b : Fin 8) (s : State) : Out :=
  predWord s d [] (fun cx l _ =>
    let x := predByte cx.grp l a.val
    let y := predByte cx.grp l b.val
    (predElems cx l d.val 8 (fun e => tt.getLsbD ((if x.getLsbD e then 2 else 0) + (if y.getLsbD e then 1 else 0))), noFlags))

/-- PMOV vd, pk (R242). -/
def execPmovToVreg (d : Fin 32) (k : Fin 8) (s : State) : Out :=
  vecWord s (.v d) [] (fun cx l _ _ => wholeLane cx l (fun _ => intRes (predByte cx.grp l k.val).toNat)) (fun _ _ => intRes 0)
/-- PMOV pk, va (R242): whole-lane. -/
def execPmovToPred (k : Fin 8) (a : Src) (s : State) : Out :=
  predWord s k [intOp a] (fun cx l xs =>
    (if elemOn cx l 0 then ((xs.headD 0).setWidth 8) else if (pfxOf cx).mz then 0 else predByte cx.grp l k.val, noFlags))
/-- PMOV vd, pall (R242). -/
def execPmovPallToVreg (d : Fin 32) (s : State) : Out :=
  vecWord s (.v d) [] (fun cx l _ _ => wholeLane cx l (fun _ => intRes (getFibre cx.grp l).pred.toNat)) (fun _ _ => intRes 0)
/-- PMOV pall, va (R242): the whole predicate word; a masked lane keeps it or has it cleared. -/
def execPmovVregToPall (a : Src) (s : State) : Out :=
  runWord s (pendingOn (srcRegs a)) (fun cx =>
    if !(srcReady cx false a) then operandTrap cx
    else
      let rs := (lanesOf cx.path.mask).map (fun l => (l, if elemOn cx l 0 then some (readSrc cx .int a l) else
        if (pfxOf cx).mz then some 0 else none))
      .ok (modGroup s cx.gk (fun g => rs.foldl (fun x r => match r.2 with
        | some v => modFibre x r.1 (fun f => { f with pred := v })
        | none => x) g)))

end Sys2Proof.Machine
end

