-- ==== Sys2Proof/Machine/Dispatch.lean ====
section
/-! DEFINITION. One arm for each row of spec/opcode_table.json: the meaning of the instruction or event. -/

namespace Sys2Proof.Machine

/-- What an instruction or event does in a state. -/
def exec (i : Instr) (s : State) : Host.Outcome State Fault Refusal :=
  match i with
  | .clauseHeader x0 x1 x2 x3 x4 x5 x6 x7 x8 x9 => Sys2Proof.Machine.execClauseHeader x0 x1 x2 x3 x4 x5 x6 x7 x8 x9 s
  | .pathAged x0 x1 => Sys2Proof.Machine.execPathAged x0 x1 s
  | .nop => Sys2Proof.Machine.execNop s
  | .pfx x0 x1 x2 x3 x4 x5 x6 => Sys2Proof.Machine.execPfx x0 x1 x2 x3 x4 x5 x6 s
  | .udf x0 => Sys2Proof.Machine.execUdf x0 s
  | .bra x0 => Sys2Proof.Machine.execBra x0 s
  | .brc x0 x1 x2 => Sys2Proof.Machine.execBrc x0 x1 x2 s
  | .jmp x0 => Sys2Proof.Machine.execJmp x0 s
  | .call x0 => Sys2Proof.Machine.execCall x0 s
  | .calli x0 => Sys2Proof.Machine.execCalli x0 s
  | .ret => Sys2Proof.Machine.execRet s
  | .fork x0 x1 x2 => Sys2Proof.Machine.execFork x0 x1 x2 s
  | .fend x0 => Sys2Proof.Machine.execFend x0 s
  | .groupEnd x0 => Sys2Proof.Machine.execGroupEnd x0 s
  | .rejoin x0 => Sys2Proof.Machine.execRejoin x0 s
  | .brk x0 x1 => Sys2Proof.Machine.execBrk x0 x1 s
  | .demote x0 => Sys2Proof.Machine.execDemote x0 s
  | .loop x0 x1 x2 => Sys2Proof.Machine.execLoop x0 x1 x2 s
  | .lend => Sys2Proof.Machine.execLend s
  | .bar x0 => Sys2Proof.Machine.execBar x0 s
  | .launch x0 x1 => Sys2Proof.Machine.execLaunch x0 x1 s
  | .cwset x0 x1 x2 => Sys2Proof.Machine.execCwset x0 x1 x2 s
  | .mwait x0 x1 => Sys2Proof.Machine.execMwait x0 x1 s
  | .mwaitTimeout x0 x1 => Sys2Proof.Machine.execMwaitTimeout x0 x1 s
  | .marm x0 x1 => Sys2Proof.Machine.execMarm x0 x1 s
  | .yield x0 => Sys2Proof.Machine.execYield x0 s
  | .yieldExpiry x0 x1 => Sys2Proof.Machine.execYieldExpiry x0 x1 s
  | .movw x0 x1 x2 x3 => Sys2Proof.Machine.execMovw x0 x1 x2 x3 s
  | .mov x0 x1 => Sys2Proof.Machine.execMov x0 x1 s
  | .sel x0 x1 x2 x3 => Sys2Proof.Machine.execSel x0 x1 x2 x3 s
  | .add x0 x1 x2 x3 => Sys2Proof.Machine.execAdd x0 x1 x2 x3 s
  | .sub x0 x1 x2 x3 => Sys2Proof.Machine.execSub x0 x1 x2 x3 s
  | .addi x0 x1 x2 => Sys2Proof.Machine.execAddi x0 x1 x2 s
  | .mul x0 x1 x2 x3 => Sys2Proof.Machine.execMul x0 x1 x2 x3 s
  | .mulhi x0 x1 x2 x3 => Sys2Proof.Machine.execMulhi x0 x1 x2 x3 s
  | .mad x0 x1 x2 x3 => Sys2Proof.Machine.execMad x0 x1 x2 x3 s
  | .div x0 x1 x2 x3 => Sys2Proof.Machine.execDiv x0 x1 x2 x3 s
  | .rem x0 x1 x2 x3 => Sys2Proof.Machine.execRem x0 x1 x2 x3 s
  | .min x0 x1 x2 x3 => Sys2Proof.Machine.execMin x0 x1 x2 x3 s
  | .max x0 x1 x2 x3 => Sys2Proof.Machine.execMax x0 x1 x2 x3 s
  | .abs x0 x1 x2 => Sys2Proof.Machine.execAbs x0 x1 x2 s
  | .neg x0 x1 x2 => Sys2Proof.Machine.execNeg x0 x1 x2 s
  | .adds x0 x1 x2 x3 => Sys2Proof.Machine.execAdds x0 x1 x2 x3 s
  | .subs x0 x1 x2 x3 => Sys2Proof.Machine.execSubs x0 x1 x2 x3 s
  | .and x0 x1 x2 => Sys2Proof.Machine.execAnd x0 x1 x2 s
  | .or x0 x1 x2 => Sys2Proof.Machine.execOr x0 x1 x2 s
  | .xor x0 x1 x2 => Sys2Proof.Machine.execXor x0 x1 x2 s
  | .andn x0 x1 x2 => Sys2Proof.Machine.execAndn x0 x1 x2 s
  | .andi x0 x1 x2 => Sys2Proof.Machine.execAndi x0 x1 x2 s
  | .ori x0 x1 x2 => Sys2Proof.Machine.execOri x0 x1 x2 s
  | .xori x0 x1 x2 => Sys2Proof.Machine.execXori x0 x1 x2 s
  | .shl x0 x1 x2 x3 => Sys2Proof.Machine.execShl x0 x1 x2 x3 s
  | .shr x0 x1 x2 x3 => Sys2Proof.Machine.execShr x0 x1 x2 x3 s
  | .sar x0 x1 x2 x3 => Sys2Proof.Machine.execSar x0 x1 x2 x3 s
  | .rot x0 x1 x2 x3 => Sys2Proof.Machine.execRot x0 x1 x2 x3 s
  | .shli x0 x1 x2 x3 => Sys2Proof.Machine.execShli x0 x1 x2 x3 s
  | .shri x0 x1 x2 x3 => Sys2Proof.Machine.execShri x0 x1 x2 x3 s
  | .sari x0 x1 x2 x3 => Sys2Proof.Machine.execSari x0 x1 x2 x3 s
  | .clz x0 x1 x2 => Sys2Proof.Machine.execClz x0 x1 x2 s
  | .popc x0 x1 x2 => Sys2Proof.Machine.execPopc x0 x1 x2 s
  | .brev x0 x1 x2 => Sys2Proof.Machine.execBrev x0 x1 x2 s
  | .bfx x0 x1 x2 x3 => Sys2Proof.Machine.execBfx x0 x1 x2 x3 s
  | .bfi x0 x1 x2 => Sys2Proof.Machine.execBfi x0 x1 x2 s
  | .bdep x0 x1 x2 => Sys2Proof.Machine.execBdep x0 x1 x2 s
  | .bext x0 x1 x2 => Sys2Proof.Machine.execBext x0 x1 x2 s
  | .perm x0 x1 x2 => Sys2Proof.Machine.execPerm x0 x1 x2 s
  | .gfmm x0 x1 x2 x3 => Sys2Proof.Machine.execGfmm x0 x1 x2 x3 s
  | .icmp x0 x1 x2 x3 x4 => Sys2Proof.Machine.execIcmp x0 x1 x2 x3 x4 s
  | .icmpi x0 x1 x2 x3 => Sys2Proof.Machine.execIcmpi x0 x1 x2 x3 s
  | .plog x0 x1 x2 x3 => Sys2Proof.Machine.execPlog x0 x1 x2 x3 s
  | .pmovToVreg x0 x1 => Sys2Proof.Machine.execPmovToVreg x0 x1 s
  | .pmovToPred x0 x1 => Sys2Proof.Machine.execPmovToPred x0 x1 s
  | .pmovPallToVreg x0 => Sys2Proof.Machine.execPmovPallToVreg x0 s
  | .pmovVregToPall x0 => Sys2Proof.Machine.execPmovVregToPall x0 s
  | .lea x0 x1 x2 x3 => Sys2Proof.Machine.execLea x0 x1 x2 x3 s
  | .sext x0 x1 x2 => Sys2Proof.Machine.execSext x0 x1 x2 s
  | .zext x0 x1 x2 => Sys2Proof.Machine.execZext x0 x1 x2 s
  | .shfl x0 x1 x2 x3 => Sys2Proof.Machine.execShfl x0 x1 x2 x3 s
  | .bcast x0 x1 x2 => Sys2Proof.Machine.execBcast x0 x1 x2 s
  | .bcastFirst x0 x1 => Sys2Proof.Machine.execBcastFirst x0 x1 s
  | .vote x0 x1 x2 => Sys2Proof.Machine.execVote x0 x1 x2 s
  | .ired x0 x1 x2 => Sys2Proof.Machine.execIred x0 x1 x2 s
  | .iscan x0 x1 x2 x3 => Sys2Proof.Machine.execIscan x0 x1 x2 x3 s
  | .fadd x0 x1 x2 x3 => Sys2Proof.Machine.execFadd x0 x1 x2 x3 s
  | .fsub x0 x1 x2 x3 => Sys2Proof.Machine.execFsub x0 x1 x2 x3 s
  | .fmul x0 x1 x2 x3 => Sys2Proof.Machine.execFmul x0 x1 x2 x3 s
  | .ffma x0 x1 x2 x3 => Sys2Proof.Machine.execFfma x0 x1 x2 x3 s
  | .fmin x0 x1 x2 x3 => Sys2Proof.Machine.execFmin x0 x1 x2 x3 s
  | .fmax x0 x1 x2 x3 => Sys2Proof.Machine.execFmax x0 x1 x2 x3 s
  | .fabs x0 x1 x2 => Sys2Proof.Machine.execFabs x0 x1 x2 s
  | .fneg x0 x1 x2 => Sys2Proof.Machine.execFneg x0 x1 x2 s
  | .fdiv x0 x1 x2 x3 => Sys2Proof.Machine.execFdiv x0 x1 x2 x3 s
  | .fsqrt x0 x1 x2 => Sys2Proof.Machine.execFsqrt x0 x1 x2 s
  | .frcp x0 x1 x2 => Sys2Proof.Machine.execFrcp x0 x1 x2 s
  | .frsq x0 x1 x2 => Sys2Proof.Machine.execFrsq x0 x1 x2 s
  | .fcmp x0 x1 x2 x3 x4 => Sys2Proof.Machine.execFcmp x0 x1 x2 x3 x4 s
  | .fclass x0 x1 x2 => Sys2Proof.Machine.execFclass x0 x1 x2 s
  | .fcpys x0 x1 x2 x3 => Sys2Proof.Machine.execFcpys x0 x1 x2 x3 s
  | .fdot2 x0 x1 x2 x3 => Sys2Proof.Machine.execFdot2 x0 x1 x2 x3 s
  | .fexp2 x0 x1 x2 => Sys2Proof.Machine.execFexp2 x0 x1 x2 s
  | .flog2 x0 x1 x2 => Sys2Proof.Machine.execFlog2 x0 x1 x2 s
  | .fsin x0 x1 x2 => Sys2Proof.Machine.execFsin x0 x1 x2 s
  | .fcos x0 x1 x2 => Sys2Proof.Machine.execFcos x0 x1 x2 s
  | .ftanh x0 x1 x2 => Sys2Proof.Machine.execFtanh x0 x1 x2 s
  | .ferf x0 x1 x2 => Sys2Proof.Machine.execFerf x0 x1 x2 s
  | .frnd x0 x1 x2 => Sys2Proof.Machine.execFrnd x0 x1 x2 s
  | .ffrac x0 x1 x2 => Sys2Proof.Machine.execFfrac x0 x1 x2 s
  | .fred x0 x1 x2 x3 => Sys2Proof.Machine.execFred x0 x1 x2 x3 s
  | .fscan x0 x1 x2 x3 x4 => Sys2Proof.Machine.execFscan x0 x1 x2 x3 x4 s
  | .fcvt x0 x1 x2 x3 x4 => Sys2Proof.Machine.execFcvt x0 x1 x2 x3 x4 s
  | .icvt x0 x1 x2 x3 => Sys2Proof.Machine.execIcvt x0 x1 x2 x3 s
  | .ficvt x0 x1 x2 x3 => Sys2Proof.Machine.execFicvt x0 x1 x2 x3 s
  | .pack x0 x1 x2 x3 => Sys2Proof.Machine.execPack x0 x1 x2 x3 s
  | .unpk x0 x1 x2 x3 => Sys2Proof.Machine.execUnpk x0 x1 x2 x3 s
  | .qmx4 x0 x1 => Sys2Proof.Machine.execQmx4 x0 x1 s
  | .dqmx4 x0 x1 x2 x3 => Sys2Proof.Machine.execDqmx4 x0 x1 x2 x3 s
  | .qf8 x0 x1 x2 x3 => Sys2Proof.Machine.execQf8 x0 x1 x2 x3 s
  | .dqf8 x0 x1 x2 x3 => Sys2Proof.Machine.execDqf8 x0 x1 x2 x3 s
  | .qi8 x0 x1 x2 => Sys2Proof.Machine.execQi8 x0 x1 x2 s
  | .qi4 x0 x1 x2 => Sys2Proof.Machine.execQi4 x0 x1 x2 s
  | .rscl x0 x1 x2 => Sys2Proof.Machine.execRscl x0 x1 x2 s
  | .srnd x0 x1 x2 => Sys2Proof.Machine.execSrnd x0 x1 x2 s
  | .padd x0 x1 x2 x3 => Sys2Proof.Machine.execPadd x0 x1 x2 x3 s
  | .psub x0 x1 x2 x3 => Sys2Proof.Machine.execPsub x0 x1 x2 x3 s
  | .pmul x0 x1 x2 x3 => Sys2Proof.Machine.execPmul x0 x1 x2 x3 s
  | .pfma x0 x1 x2 x3 => Sys2Proof.Machine.execPfma x0 x1 x2 x3 s
  | .pmin x0 x1 x2 x3 => Sys2Proof.Machine.execPmin x0 x1 x2 x3 s
  | .pmax x0 x1 x2 x3 => Sys2Proof.Machine.execPmax x0 x1 x2 x3 s
  | .pdot x0 x1 x2 x3 => Sys2Proof.Machine.execPdot x0 x1 x2 x3 s
  | .mqa x0 x1 x2 x3 => Sys2Proof.Machine.execMqa x0 x1 x2 x3 s
  | .mqax x0 x1 x2 x3 => Sys2Proof.Machine.execMqax x0 x1 x2 x3 s
  | .mqai x0 x1 x2 x3 => Sys2Proof.Machine.execMqai x0 x1 x2 x3 s
  | .matrixGrant x0 => Sys2Proof.Machine.execMatrixGrant x0 s
  | .matrixRequestAged x0 x1 => Sys2Proof.Machine.execMatrixRequestAged x0 x1 s
  | .matrixPassEnd x0 x1 x2 => Sys2Proof.Machine.execMatrixPassEnd x0 x1 x2 s
  | .mtf x0 x1 => Sys2Proof.Machine.execMtf x0 x1 s
  | .mtfr x0 x1 => Sys2Proof.Machine.execMtfr x0 x1 s
  | .mtfLineArrival x0 x1 x2 x3 => Sys2Proof.Machine.execMtfLineArrival x0 x1 x2 x3 s
  | .msync => Sys2Proof.Machine.execMsync s
  | .smm x0 x1 x2 x3 => Sys2Proof.Machine.execSmm x0 x1 x2 x3 s
  | .smadd x0 x1 x2 x3 => Sys2Proof.Machine.execSmadd x0 x1 x2 x3 s
  | .strn x0 x1 x2 x3 => Sys2Proof.Machine.execStrn x0 x1 x2 x3 s
  | .schol x0 x1 x2 x3 => Sys2Proof.Machine.execSchol x0 x1 x2 x3 s
  | .sluf x0 x1 x2 x3 => Sys2Proof.Machine.execSluf x0 x1 x2 x3 s
  | .ssol x0 x1 x2 x3 => Sys2Proof.Machine.execSsol x0 x1 x2 x3 s
  | .strs x0 x1 x2 x3 => Sys2Proof.Machine.execStrs x0 x1 x2 x3 s
  | .sdet x0 x1 x2 x3 => Sys2Proof.Machine.execSdet x0 x1 x2 x3 s
  | .ld x0 x1 x2 x3 x4 => Sys2Proof.Machine.execLd x0 x1 x2 x3 x4 s
  | .st x0 x1 x2 x3 x4 => Sys2Proof.Machine.execSt x0 x1 x2 x3 x4 s
  | .lds x0 x1 x2 x3 => Sys2Proof.Machine.execLds x0 x1 x2 x3 s
  | .sts x0 x1 x2 x3 => Sys2Proof.Machine.execSts x0 x1 x2 x3 s
  | .gath x0 x1 x2 x3 => Sys2Proof.Machine.execGath x0 x1 x2 x3 s
  | .scat x0 x1 x2 x3 => Sys2Proof.Machine.execScat x0 x1 x2 x3 s
  | .ldu x0 x1 x2 x3 x4 => Sys2Proof.Machine.execLdu x0 x1 x2 x3 x4 s
  | .pref x0 x1 x2 x3 => Sys2Proof.Machine.execPref x0 x1 x2 x3 s
  | .memoryResponse x0 x1 x2 => Sys2Proof.Machine.execMemoryResponse x0 x1 x2 s
  | .pageWalkComplete x0 x1 => Sys2Proof.Machine.execPageWalkComplete x0 x1 s
  | .homeSliceWrite x0 => Sys2Proof.Machine.execHomeSliceWrite x0 s
  | .homeSliceRead x0 x1 x2 => Sys2Proof.Machine.execHomeSliceRead x0 x1 x2 s
  | .cflush x0 x1 => Sys2Proof.Machine.execCflush x0 x1 s
  | .cinv x0 => Sys2Proof.Machine.execCinv x0 s
  | .bufset x0 x1 x2 => Sys2Proof.Machine.execBufset x0 x1 x2 s
  | .bufget x0 x1 => Sys2Proof.Machine.execBufget x0 x1 s
  | .atom x0 x1 x2 x3 x4 => Sys2Proof.Machine.execAtom x0 x1 x2 x3 x4 s
  | .cas x0 x1 x2 x3 x4 x5 => Sys2Proof.Machine.execCas x0 x1 x2 x3 x4 x5 s
  | .fence x0 x1 => Sys2Proof.Machine.execFence x0 x1 s
  | .fenceModeGive x0 x1 => Sys2Proof.Machine.execFenceModeGive x0 x1 s
  | .fenceModeTake x0 x1 => Sys2Proof.Machine.execFenceModeTake x0 x1 s
  | .rowgive x0 x1 => Sys2Proof.Machine.execRowgive x0 x1 s
  | .rowtake x0 x1 => Sys2Proof.Machine.execRowtake x0 x1 s
  | .layout x0 x1 => Sys2Proof.Machine.execLayout x0 x1 s
  | .phaseOpen x0 x1 x2 => Sys2Proof.Machine.execPhaseOpen x0 x1 x2 s
  | .phaseEnd x0 x1 => Sys2Proof.Machine.execPhaseEnd x0 x1 s
  | .phasePublication x0 x1 => Sys2Proof.Machine.execPhasePublication x0 x1 s
  | .red x0 x1 x2 x3 => Sys2Proof.Machine.execRed x0 x1 x2 x3 s
  | .redEntryApply x0 x1 x2 => Sys2Proof.Machine.execRedEntryApply x0 x1 x2 s
  | .xcopy x0 x1 x2 => Sys2Proof.Machine.execXcopy x0 x1 x2 s
  | .xstr x0 x1 x2 => Sys2Proof.Machine.execXstr x0 x1 x2 s
  | .xlay x0 x1 x2 => Sys2Proof.Machine.execXlay x0 x1 x2 s
  | .xacc x0 x1 x2 => Sys2Proof.Machine.execXacc x0 x1 x2 s
  | .transferStart x0 x1 => Sys2Proof.Machine.execTransferStart x0 x1 s
  | .transferEnd x0 x1 => Sys2Proof.Machine.execTransferEnd x0 x1 s
  | .xpub x0 x1 x2 => Sys2Proof.Machine.execXpub x0 x1 x2 s
  | .xpubCommit x0 x1 => Sys2Proof.Machine.execXpubCommit x0 x1 s
  | .ovld x0 x1 x2 x3 => Sys2Proof.Machine.execOvld x0 x1 x2 x3 s
  | .ovpf x0 x1 => Sys2Proof.Machine.execOvpf x0 x1 s
  | .overlayLoadEnd x0 x1 => Sys2Proof.Machine.execOverlayLoadEnd x0 x1 s
  | .waitany x0 x1 => Sys2Proof.Machine.execWaitany x0 x1 s
  | .waitall x0 => Sys2Proof.Machine.execWaitall x0 s
  | .ffr x0 x1 => Sys2Proof.Machine.execFfr x0 x1 s
  | .bgload x0 x1 => Sys2Proof.Machine.execBgload x0 x1 s
  | .bgvec x0 x1 => Sys2Proof.Machine.execBgvec x0 x1 s
  | .bgrun x0 x1 => Sys2Proof.Machine.execBgrun x0 x1 s
  | .bgwait x0 x1 => Sys2Proof.Machine.execBgwait x0 x1 s
  | .bgloadExecute x0 x1 => Sys2Proof.Machine.execBgloadExecute x0 x1 s
  | .bgloadEnd x0 x1 => Sys2Proof.Machine.execBgloadEnd x0 x1 s
  | .bgvecExecute x0 x1 => Sys2Proof.Machine.execBgvecExecute x0 x1 s
  | .bgvecEnd x0 x1 => Sys2Proof.Machine.execBgvecEnd x0 x1 s
  | .bgrunStart x0 x1 => Sys2Proof.Machine.execBgrunStart x0 x1 s
  | .bankRunEnd x0 x1 => Sys2Proof.Machine.execBankRunEnd x0 x1 s
  | .bankMovePort x0 x1 x2 x3 x4 => Sys2Proof.Machine.execBankMovePort x0 x1 x2 x3 x4 s
  | .bankMoveImmediate x0 x1 x2 x3 x4 => Sys2Proof.Machine.execBankMoveImmediate x0 x1 x2 x3 x4 s
  | .bankStreamEnd x0 => Sys2Proof.Machine.execBankStreamEnd x0 s
  | .bankChimeStep x0 x1 => Sys2Proof.Machine.execBankChimeStep x0 x1 s
  | .bankRefresh x0 x1 => Sys2Proof.Machine.execBankRefresh x0 x1 s
  | .bufferTakeTimeout x0 x1 x2 => Sys2Proof.Machine.execBufferTakeTimeout x0 x1 x2 s
  | .gred x0 x1 x2 x3 => Sys2Proof.Machine.execGred x0 x1 x2 x3 s
  | .gredComplete x0 x1 => Sys2Proof.Machine.execGredComplete x0 x1 s
  | .mlr x0 x1 x2 x3 => Sys2Proof.Machine.execMlr x0 x1 x2 x3 s
  | .mlrComplete x0 x1 => Sys2Proof.Machine.execMlrComplete x0 x1 s
  | .trap x0 => Sys2Proof.Machine.execTrap x0 s
  | .tret => Sys2Proof.Machine.execTret s
  | .tretFail => Sys2Proof.Machine.execTretFail s
  | .rdsr x0 x1 => Sys2Proof.Machine.execRdsr x0 x1 s
  | .wrsr x0 x1 => Sys2Proof.Machine.execWrsr x0 x1 s
  | .bkpt x0 => Sys2Proof.Machine.execBkpt x0 s
  | .rdtime x0 => Sys2Proof.Machine.execRdtime x0 s
  | .perf x0 x1 => Sys2Proof.Machine.execPerf x0 x1 s
  | .trapEntry x0 => Sys2Proof.Machine.execTrapEntry x0 s
  | .leaseReservationTimeout x0 x1 => Sys2Proof.Machine.execLeaseReservationTimeout x0 x1 s
  | .sweepComplete x0 x1 => Sys2Proof.Machine.execSweepComplete x0 x1 s
  | .leaseExpiry x0 x1 => Sys2Proof.Machine.execLeaseExpiry x0 x1 s
  | .bgeLeaseExpiry x0 x1 => Sys2Proof.Machine.execBgeLeaseExpiry x0 x1 s
  | .endingTimeout x0 x1 => Sys2Proof.Machine.execEndingTimeout x0 x1 s
  | .clockReadback x0 => Sys2Proof.Machine.execClockReadback x0 s
  | .leaseReturn x0 x1 => Sys2Proof.Machine.execLeaseReturn x0 x1 s
  | .layoutCommandStart x0 => Sys2Proof.Machine.execLayoutCommandStart x0 s
  | .layoutCommandEnd x0 => Sys2Proof.Machine.execLayoutCommandEnd x0 s
  | .xlinvWrite x0 x1 => Sys2Proof.Machine.execXlinvWrite x0 x1 s
  | .xlinvComplete x0 x1 => Sys2Proof.Machine.execXlinvComplete x0 x1 s
  | .xlstatWrite x0 x1 => Sys2Proof.Machine.execXlstatWrite x0 x1 s
  | .ptbaseWrite x0 x1 => Sys2Proof.Machine.execPtbaseWrite x0 x1 s
  | .hostMemRead x0 => Sys2Proof.Machine.execHostMemRead x0 s
  | .hostMemWrite x0 x1 x2 x3 x4 => Sys2Proof.Machine.execHostMemWrite x0 x1 x2 x3 x4 s
  | .backInvalidateResponse x0 x1 => Sys2Proof.Machine.execBackInvalidateResponse x0 x1 s
  | .hostSnoop x0 x1 x2 => Sys2Proof.Machine.execHostSnoop x0 x1 x2 s
  | .linkUp x0 x1 => Sys2Proof.Machine.execLinkUp x0 x1 s
  | .fabricRequestArrival x0 x1 x2 x3 x4 => Sys2Proof.Machine.execFabricRequestArrival x0 x1 x2 x3 x4 s
  | .fabricResponse x0 x1 x2 x3 => Sys2Proof.Machine.execFabricResponse x0 x1 x2 x3 s
  | .pendingNotice x0 x1 x2 => Sys2Proof.Machine.execPendingNotice x0 x1 x2 s
  | .rsptExpiry x0 x1 x2 => Sys2Proof.Machine.execRsptExpiry x0 x1 x2 s
  | .dlrtExpiry x0 x1 x2 => Sys2Proof.Machine.execDlrtExpiry x0 x1 x2 s
  | .fholdExpiry x0 => Sys2Proof.Machine.execFholdExpiry x0 s
  | .resync x0 x1 x2 => Sys2Proof.Machine.execResync x0 x1 x2 s
  | .calibreWrite x0 x1 x2 x3 => Sys2Proof.Machine.execCalibreWrite x0 x1 x2 x3 s
  | .fholdWrite x0 x1 => Sys2Proof.Machine.execFholdWrite x0 x1 s
  | .timeSample x0 x1 => Sys2Proof.Machine.execTimeSample x0 x1 s
  | .timeSampleTimeout => Sys2Proof.Machine.execTimeSampleTimeout s
  | .anchorWrite x0 x1 x2 => Sys2Proof.Machine.execAnchorWrite x0 x1 x2 s
  | .anchorScan x0 => Sys2Proof.Machine.execAnchorScan x0 s
  | .instanceStart => Sys2Proof.Machine.execInstanceStart s
  | .nodeFire x0 x1 => Sys2Proof.Machine.execNodeFire x0 x1 s
  | .kernelNodeRun x0 x1 => Sys2Proof.Machine.execKernelNodeRun x0 x1 s
  | .transferNodeRun x0 x1 => Sys2Proof.Machine.execTransferNodeRun x0 x1 s
  | .bankNodeRun x0 x1 => Sys2Proof.Machine.execBankNodeRun x0 x1 s
  | .conditionNodeRun x0 x1 => Sys2Proof.Machine.execConditionNodeRun x0 x1 s
  | .whileNodeRun x0 x1 => Sys2Proof.Machine.execWhileNodeRun x0 x1 s
  | .barrierNodeRun x0 x1 => Sys2Proof.Machine.execBarrierNodeRun x0 x1 s
  | .hostSignalNodeRun x0 x1 => Sys2Proof.Machine.execHostSignalNodeRun x0 x1 s
  | .nodeRunEnd x0 x1 => Sys2Proof.Machine.execNodeRunEnd x0 x1 s
  | .instanceEnd x0 => Sys2Proof.Machine.execInstanceEnd x0 s
  | .blockPlacement => Sys2Proof.Machine.execBlockPlacement s
  | .dispatchWaitExpiry => Sys2Proof.Machine.execDispatchWaitExpiry s
  | .blockEnd x0 => Sys2Proof.Machine.execBlockEnd x0 s
  | .preqClose x0 x1 => Sys2Proof.Machine.execPreqClose x0 x1 s
  | .preqOpen x0 x1 => Sys2Proof.Machine.execPreqOpen x0 x1 s
  | .blockPreemptSave x0 => Sys2Proof.Machine.execBlockPreemptSave x0 s
  | .registerWrite x0 x1 x2 => Sys2Proof.Machine.execRegisterWrite x0 x1 x2 s
  | .verselWrite x0 x1 => Sys2Proof.Machine.execVerselWrite x0 x1 s
  | .mbVersion x0 => Sys2Proof.Machine.execMbVersion x0 s
  | .mbAttest x0 => Sys2Proof.Machine.execMbAttest x0 s
  | .mbIdcert x0 => Sys2Proof.Machine.execMbIdcert x0 s
  | .mbPowercap x0 => Sys2Proof.Machine.execMbPowercap x0 s
  | .mbPrepare x0 => Sys2Proof.Machine.execMbPrepare x0 s
  | .prepareQuiet => Sys2Proof.Machine.execPrepareQuiet s
  | .prepareTimeout => Sys2Proof.Machine.execPrepareTimeout s
  | .mbCommit x0 => Sys2Proof.Machine.execMbCommit x0 s
  | .mbAbort x0 => Sys2Proof.Machine.execMbAbort x0 s
  | .mbWake x0 => Sys2Proof.Machine.execMbWake x0 s
  | .mbRelease x0 => Sys2Proof.Machine.execMbRelease x0 s
  | .mbBadcmd x0 => Sys2Proof.Machine.execMbBadcmd x0 s
  | .dvreq x0 x1 => Sys2Proof.Machine.execDvreq x0 x1 s
  | .dvfloorWrite x0 x1 => Sys2Proof.Machine.execDvfloorWrite x0 x1 s
  | .dvfsClockSwitch x0 => Sys2Proof.Machine.execDvfsClockSwitch x0 s
  | .dvfsRailSettled x0 => Sys2Proof.Machine.execDvfsRailSettled x0 s
  | .dvsampWindow => Sys2Proof.Machine.execDvsampWindow s
  | .thermalTrip => Sys2Proof.Machine.execThermalTrip s
  | .thermalRecovery => Sys2Proof.Machine.execThermalRecovery s
  | .thermalShutdown => Sys2Proof.Machine.execThermalShutdown s
  | .currentSample x0 => Sys2Proof.Machine.execCurrentSample x0 s
  | .idleEntry => Sys2Proof.Machine.execIdleEntry s
  | .powerOnBoot x0 x1 => Sys2Proof.Machine.execPowerOnBoot x0 x1 s
  | .bgeClockStop x0 => Sys2Proof.Machine.execBgeClockStop x0 s
  | .commitRetained => Sys2Proof.Machine.execCommitRetained s
  | .wakeWoken => Sys2Proof.Machine.execWakeWoken s
  | .fabricTimeReached => Sys2Proof.Machine.execFabricTimeReached s

end Sys2Proof.Machine
end

