-- ==== Sys2Proof/Machine/Schedule.lean ====
section
/-! DEFINITION. What a step does: one action of the agenda, and, when the agenda is empty, the model's own choice of what happens
next (log 1): an event that is due, a move of a bank-group engine, the words of a core's cycle in the order of R331, or the passing of
time. Every order that the spec allows can be asked for by an agenda. -/

namespace Sys2Proof.Machine

/-! ## One action -/

/-- The next word of a path (R19, R21): its word is fetched, decoded and carried out; a path that is not there changes nothing. -/
def pathAct (g l : Nat) (s : State) : Out :=
  let s1 := { s with focus := some (g, l) }
  match ctxOf s1 with
  | none => .next s
  | some cx =>
    match fetchPath s1 cx.grp.core cx.path with
    | .system => systemAct cx s1
    | _ =>
      match fetchWord s1 cx with
      | .run i t => exec i t
      | .stop t => .next t
/-- The next move of an engine that runs a program of its own (R74, R89); the engines of a chime take theirs by BANK_CHIME_STEP. -/
def bgeAct (k : Nat) (s : State) : Out :=
  match runOf s k with
  | none => .next s
  | some c =>
    if bitsOf c.blk 192 1 = 1 then .next s
    else match (getBge s k).moves[(getBge s k).pc]? with
      | none => .next (stopRun s k 7 0)
      | some w => exec (decodeMove w) { s with bfocus := some k }
/-- Whether the compute dies' clocks run (Table 16.8). -/
def clocked (s : State) : Bool := !(s.mgmt.off || s.mgmt.idle || s.mgmt.phase = .retained || s.mgmt.phase = .waking)
/-- Whether a core issued no word in the cycle while a resident group had an outstanding memory operation (DVSAMP, Table 16.7). -/
def coreStalls (s : State) (core : Nat) : Bool :=
  let now := (tgetD (getCore s core).perf 0 0).toNat
  let gs := s.groups.filter (fun g => g.2.core = core)
  !(gs.any (fun g => g.2.lastIssue = now)) && gs.any (fun g => g.2.words.any wordOpen)
/-- A path after a cycle: the count of R332, and, from the cycle after that in which its last clause ended, that of YIELD and the end of
what YLD does (R23, R331, R374). -/
def cyclePath (s : State) (g : Group) (p : Path) : Path :=
  let q := { p with age := if candidate s g p then p.age + 1 else 0, aged := p.aged && candidate s g p }
  if p.fresh then { q with fresh := false }
  else { q with yielded := false, wait := match p.wait with | .yield n => .yield (n - 1) | w => w }
/-- The paths that issue a word in a cycle of a core (R329, R331), and those that freeze or stop on what their fetch finds (R39): the
candidates that take their turn, in order, and then those whose clauses have begun. -/
def issueList (s : State) (core : Nat) : List Action :=
  let ps := corePaths s core
  (issueSet s core).map (fun x => .path x.1 (lowLane x.2))
  ++ (ps.filter (fun x => x.2.2.widx = 0 && x.2.2.wait = .ready && (match fetchPath s core x.2.2 with | .loading | .fault _ => true | _ => false))).map
      (fun x => .path x.1 (lowLane x.2.2.mask))
  ++ (ps.filter (fun x => x.2.2.widx ≠ 0)).map (fun x => .path x.1 (lowLane x.2.2.mask))
/-- A cycle's issue on a core: its YIELD counts that have run out end first; while the die is throttled it issues on alternate cycles only
(R409). -/
def issueAct (core : Nat) (s : State) : State :=
  if !(clocked s) || core ≥ 512 || (s.mgmt.throttling && (tgetD (getCore s core).perf 0 0).toNat % 2 = 1) then s
  else
    let s1 := (corePaths s core).foldl (fun a x => outState (execYieldExpiry x.1 (lowLane x.2.2.mask) a) a) s
    { s1 with agenda := issueList s1 core ++ s1.agenda }
/-- An error in a sector that HBM cannot correct (R123): the sector is poisoned, unless its bytes stand in its home slice. -/
def sectorError (s : State) (sector : Nat) : State :=
  if sector ≥ 2 ^ 34 || (tgetD s.coh.valid (sector / 4) 0).getLsbD (sector % 4) then s
  else { s with mem := { s.mem with poison := natInsert s.mem.poison sector } }
/-- An arithmetic-clock cycle of a core (Table 13.9: CYCLES, SLIPCYC, MATWAIT; R332, R374, Table 16.7). -/
def cycleAct (core : Nat) (s : State) : State :=
  if !(clocked s) || core ≥ 512 then s
  else
    let die := dieOfCore core
    let frozen := ((corePaths s core).filter (fun x => x.2.2.wait = .frozen)).length
    let waits := (getCluster s (clusterOf core)).mat.any (fun r => r.core = core && !r.granted)
    let stall := coreStalls s core
    let s1 := { s with groups := s.groups.map (fun (g : Nat × Group) =>
      if g.2.core = core then (g.1, { g.2 with paths := g.2.paths.map (cyclePath s g.2) }) else g) }
    let s2 := perfAdd s1 core 0 1
    let s3 := if frozen = 0 then s2 else perfAdd s2 core 4 frozen
    let s4 := if waits then perfAdd s3 core 7 1 else s3
    modMgmt s4 (fun m => { m with
      winTotal := tset m.winTotal die (tgetD m.winTotal die 0 + 1)
      winStall := if stall then tset m.winStall die (tgetD m.winStall die 0 + 1) else m.winStall })
/-- The first of some events that changes the state. -/
def firstOf (fs : List (State → Out)) (s : State) : Out :=
  .next ((fs.findSome? (fun f => match f s with
    | .next t => if t = s then none else some t
    | _ => none)).getD s)
/-- What the escapement has to do for a node: its firing, the end of its run, its run. -/
def nodeActs (i n : Nat) : List (State → Out) :=
  [execNodeFire i n, execNodeRunEnd i n, execTransferNodeRun i n, execBankNodeRun i n, execHostSignalNodeRun i n, execKernelNodeRun i n,
   execConditionNodeRun i n, execWhileNodeRun i n, execBarrierNodeRun i n]
/-- Events of power and firmware that need no agenda. -/
def powerActs : List (State → Out) :=
  [execDvfsClockSwitch 0, execDvfsClockSwitch 1, execDvfsRailSettled 0, execDvfsRailSettled 1, execDvsampWindow, execPrepareTimeout, execWakeWoken,
   execIdleEntry]
/-- One action by itself. -/
def actDo (a : Action) (s : State) : Out :=
  match a with
  | .event i => exec i s
  | .path g l => pathAct g l s
  | .bge k => bgeAct k s
  | .tick => .next (tickAll s)
  | .cycle c => .next (cycleAct c s)
  | .issue c => .next (issueAct c s)
  | .sectorError k => .next (sectorError s k)
  | .spadError c b k => .next (match spadOf s c b with | some x => if k < x.parts * 1024 then spadSetPoison s c b k else s | none => s)
  | .hostRegRead off => hostRegRead off s
  | .fabSnoop line => fabSnoopDone line s
  | .vectorMask v masked => .next (maskVector s v masked)
  | .fwWork busy => .next (modMgmt s (fun m => { m with fwBusy := busy }))
  | .raiseSvn n => .next (raiseSvn s n)
  | .retry i => match serveHeld i s with | some t => .next t | none => exec i s
  | .heldRetry => .next (heldRetry s)
  | .mbRetry => mbRetry s
  | .node i n => firstOf (nodeActs i n) s
  | .inst i => execInstanceEnd i s
  | .scan k => execAnchorScan k s
  | .block b => firstOf [execBlockPreemptSave b, execBlockEnd b] s
  | .power => firstOf powerActs s
  | .hostCode line code =>
    .next (modMgmt s (fun m => { m with hostCodes := if code = 0 then tdel m.hostCodes line else tset m.hostCodes line code }))

/-- What an action that has to wait at a line asks again when its turn comes there: its own event or path, for a write of MBCMD the report
that it began; none for what only outside agents make (R58, R60, R128). -/
def askAgain (a : Action) : Option Action :=
  match a with
  | .path _ _ | .bge _ | .mbRetry | .node _ _ | .inst _ | .scan _ | .block _ => some a
  | .retry i => some (.event i)
  | .event i => match i with
    | .mbAttest _ | .mbIdcert _ | .registerWrite _ _ _ | .mbBadcmd _ => some .mbRetry
    | .homeSliceRead _ _ _ | .homeSliceWrite _ | .memoryResponse _ _ _ | .gredComplete _ _ | .mlrComplete _ _ | .trapEntry _ | .groupEnd _
    | .redEntryApply _ _ _ | .phasePublication _ _ | .mtfLineArrival _ _ _ _ | .transferStart _ _
    | .transferEnd _ _ | .overlayLoadEnd _ _ | .xpubCommit _ _ | .matrixGrant _ | .leaseReservationTimeout _ _ | .sweepComplete _ _
    | .leaseExpiry _ _ | .endingTimeout _ _ | .leaseReturn _ _ | .bgloadExecute _ _ | .bgloadEnd _ _ | .bgvecExecute _ _ | .bgvecEnd _ _
    | .bgrunStart _ _ | .bankRunEnd _ _ | .layoutCommandStart _ | .layoutCommandEnd _ | .pageWalkComplete _ _ | .xlinvComplete _ _
    | .instanceStart | .prepareQuiet | .commitRetained => some a
    | .blockPreemptSave b | .blockEnd b => some (.block b)
    | .nodeFire x n | .nodeRunEnd x n | .kernelNodeRun x n | .transferNodeRun x n | .bankNodeRun x n | .hostSignalNodeRun x n => some (.node x n)
    | .instanceEnd x => some (.inst x)
    | .anchorScan k => some (.scan k)
    | _ => none
  | _ => none
/-- What an action comes to; a request that it has made and that has to wait is noted at its line, in order of arrival. -/
def noted (a : Action) (o : Out) : Out :=
  match o with
  | .next t => .next (match askAgain a with
    | some b => noteWait b t
    | none => { t with coh := { t.coh with waits := none } })
  | o => o
/-- One action, and what it leaves to be asked again. -/
def act (a : Action) (s : State) : Out := noted a (actDo a s)

/-! ## Events that may be due -/

/-- Lanes of memory words with what each waits for. -/
def laneEvents (s : State) : List Action :=
  (s.groups.map (fun (g : Nat × Group) => (g.2.words.map (fun w =>
    (w.lanes.map (fun (a : Nat × LaneAcc) => match a.2.st with
      | .req _ _ _ => [.event (.homeSliceRead g.1 w.id a.1), .event (.homeSliceWrite (.lane g.1 w.id a.1)), .event (.memoryResponse g.1 w.id a.1)]
      | .data _ _ => [.event (.memoryResponse g.1 w.id a.1)]
      | _ => [])).flatten
    ++ (match w.op with
      | .gred _ => [.event (.gredComplete g.1 w.id)]
      | .mlr _ => [.event (.mlrComplete g.1 w.id)]
      | .fmode _ | .phend => [.event (.memoryResponse g.1 w.id 0)]
      | _ => []))).flatten)).flatten
/-- Events of groups, paths and blocks. -/
def groupEvents (s : State) : List Action :=
  (s.groups.map (fun (g : Nat × Group) =>
    [.event (.trapEntry g.1), .event (.groupEnd g.1)] ++ (g.2.paths.map (fun p =>
      [.event (.pathAged g.1 (lowLane p.mask)), .event (.mwaitTimeout g.1 (lowLane p.mask)), .event (.yieldExpiry g.1 (lowLane p.mask))])).flatten)).flatten
  ++ s.blocks.map (fun (b : Nat × Block) => .block b.1)
/-- Events of cores: buffers, publications, lines of tile fetches that are not out. -/
def coreEvents (s : State) : List Action :=
  (s.cores.map (fun (c : Nat × Core) =>
    c.2.sb.map (fun e => .event (.homeSliceWrite (.storeBuf c.1 e.line)))
    ++ (c.2.mb.map (fun e => e.vals.map (fun (v : Nat × W64) => .event (.redEntryApply c.1 e.line v.1)))).flatten
    ++ c.2.regions.map (fun (r : Nat × Region) => .event (.phasePublication c.1 r.1))
    ++ (c.2.fetches.map (fun f => ((List.range (mtfLines f.blk)).filter (fun n =>
        !(f.landed.contains n) && !(s.fab.tx.any (fun t => t.origin = .mtf c.1 f.id n)))).map (fun n =>
          .event (.mtfLineArrival c.1 f.id n { code := 0, data := 0 })))).flatten)).flatten
/-- Events of clusters: transfers, overlays, shadow sets, the matrix engine. -/
def clusterEvents (s : State) : List Action :=
  (s.clusters.map (fun (c : Nat × Cluster) =>
    (c.2.cmds.map (fun x => [.event (.transferStart c.1 x.id), .event (.transferEnd c.1 x.id), .event (.overlayLoadEnd c.1 x.id)])).flatten
    ++ c.2.pubs.map (fun p => .event (.xpubCommit c.1 p.set))
    ++ (c.2.mat.map (fun r => [.event (.matrixRequestAged c.1 r.id), .event (.matrixPassEnd c.1 r.id false)])).flatten
    ++ [.event (.matrixGrant c.1)])).flatten
/-- Events of stacks and their engines: queues, runs, leases, layout engines, clock copies. -/
def stackEvents (s : State) : List Action :=
  (s.stackTbl.map (fun (k : Nat × Stack) =>
    (k.2.leases.map (fun (l : Nat × Lease) => [.event (.leaseReservationTimeout k.1 l.1), .event (.sweepComplete k.1 l.1), .event (.leaseExpiry k.1 l.1),
      .event (.endingTimeout k.1 l.1), .event (.leaseReturn k.1 l.1)])).flatten
    ++ ((k.2.cmdq ++ k.2.vecq).map (fun c => match c.kind with
      | .load => [.event (.bgloadExecute k.1 c.id), .event (.bgloadEnd k.1 c.id)]
      | .vec => [.event (.bgvecExecute k.1 c.id), .event (.bgvecEnd k.1 c.id)]
      | .run => [.event (.bgrunStart k.1 c.id), .event (.bankRunEnd k.1 c.id), .event (.bankChimeStep k.1 c.id)])).flatten
    ++ [.event (.layoutCommandStart k.1), .event (.layoutCommandEnd k.1), .event (.clockReadback k.1)])).flatten
  ++ (s.bges.map (fun (b : Nat × Bge) => if b.2.run.isSome then [.event (.bankStreamEnd b.1), .event (.bgeLeaseExpiry b.1 0)] else [])).flatten
/-- Walks and invalidations. -/
def walkEvents (s : State) : List Action :=
  s.xl.pend0.map (fun p => .event (.pageWalkComplete 0 p)) ++ s.xl.pend1.map (fun p => .event (.pageWalkComplete 1 p))
  ++ (List.range s.xl.invq0.length).map (fun i => .event (.xlinvComplete 0 i)) ++ (List.range s.xl.invq1.length).map (fun i => .event (.xlinvComplete 1 i))
/-- Timers of the fabric and of global time. -/
def fabEvents (s : State) : List Action :=
  s.fab.tx.map (fun t => .event (.rsptExpiry t.chip t.plane t.sn))
  ++ ((s.fab.tx.map (·.chip)).filter (fabDown s)).eraseDups.map (fun c => .event (.fholdExpiry c))
  ++ ((s.fab.calm.filter (fun k => k.2.getLsbD 1)).map (fun k => bitsOf s.fab.chipid 10 8 * 1024 + k.1)).map (fun c => .event (.fholdExpiry c))
  ++ ((s.fab.calp.filter (fun k => k.2.getLsbD 1)).map (fun k => k.1 * 1024)).map (fun c => .event (.fholdExpiry c))
  ++ [.event .timeSampleTimeout, .event .fabricTimeReached]
/-- Events of the escapement and the dispatcher. -/
def escEvents (s : State) : List Action :=
  (s.esc.insts.map (fun (x : Nat × Inst) => x.2.fires.map (fun n => .node x.1 n))).flatten
  ++ s.esc.runs.map (fun r => .node r.inst r.node) ++ s.esc.ready.map (fun r => .node r.inst r.node)
  ++ s.esc.insts.map (fun (x : Nat × Inst) => .inst x.1)
  ++ [.event .instanceStart, .event .blockPlacement, .event .dispatchWaitExpiry] ++ s.esc.scans.map (fun k => .scan (Fin.ofNat 16 k))
/-- Events of power, firmware and the suspend sequence. -/
def powerEvents : List Action := [.power, .event .prepareQuiet, .event .commitRetained, .mbRetry]
/-- Every event that may be due by itself. Inputs from outside, and failures, come by the agenda alone. -/
def dueEvents (s : State) : List Action :=
  laneEvents s ++ walkEvents s ++ coreEvents s ++ clusterEvents s ++ stackEvents s ++ fabEvents s ++ escEvents s ++ groupEvents s ++ powerEvents

/-! ## The choice -/

/-- Whether an action changes the state, apart from what is in focus. -/
def moves (a : Action) (s : State) : Bool :=
  match act a s with
  | .next t => { t with focus := s.focus, bfocus := s.bfocus } ≠ s
  | _ => false
/-- The state after the first event that is due. -/
def dueNext (s : State) : Option State :=
  (dueEvents s).findSome? (fun a => match act a s with
    | .next t => if t = s then none else some t
    | _ => none)
/-- Clock of an operating point, in twentieths of 1 GHz (Table 16.6). -/
def clockOf (op : Nat) : Nat := [12, 14, 16, 18, 20, 21, 22, 24].getD op 12
/-- Arithmetic-clock cycles of a die in the running tick of global time (R1, R407). -/
def dieCycles (s : State) (die : Nat) : Nat :=
  let f := clockOf (if die = 0 then s.mgmt.op0 else s.mgmt.op1)
  (s.time.now + 1) * f / 20 - s.time.now * f / 20
/-- What a core does in the running tick: an issue of words and a cycle for each cycle of its die. -/
def corePlan (s : State) (c : Nat) : List Action :=
  let busy := s.groups.any (fun g => g.2.core = c)
  ((List.range (dieCycles s (dieOfCore c))).map (fun _ => if busy then [Action.issue c, .cycle c] else [.cycle c])).flatten
/-- What happens next when no event is due: one move of every engine that can make one, the cycles of every core with the words that its
paths issue, and a tick, so that nothing that waits on another agent keeps it from going on. -/
def plan (s : State) : List Action :=
  (s.bges.filter (fun b => b.2.run.isSome && moves (.bge b.1) s)).map (fun b => .bge b.1)
  ++ (if clocked s then ((List.range 512).map (corePlan s)).flatten else [])
  ++ [.tick]
/-- One step: the first action of the agenda; with none, an event that is due, or else the first action of the plan. -/
def stepDo (s : State) : Out :=
  match s.agenda with
  | a :: r => act a { s with agenda := r }
  | [] =>
    match dueNext s with
    | some t => .next t
    | none =>
      match plan s with
      | a :: r => act a { s with agenda := r }
      | [] => .next s

/-! ## A word placed for the next step -/

/-- The engine class of a clause for an opcode (Table 2.2). -/
def engFor (op : Nat) : Nat :=
  if op < 0xA0 then 0 else if op < 0xB0 then 1 else if op < 0xC0 then 0 else if op < 0xF0 then 2 else 3
/-- A header of a clause of some words for an opcode. -/
def headerFor (op n : Nat) : Nat := 0xF7 * 2 ^ 24 + n * 2 ^ 20 + engFor op * 2 ^ 18
/-- A launch of one block of eight fibres with nothing but its entry. -/
def probeHdr : LaunchHdr :=
  { width := 0, nl := 2, blk := 1, fuse := false, prio := 0, spad := 1, entry := 0, depth := 64, prod := 0, ws := [3, 1], exts := [8, 1],
    bufs := [], spillBase := 0, spillStride := 0, args := [0, 0, 0, 0] }
/-- A block of that launch, resident on core 0. -/
def probeBlock : Block :=
  { hdr := probeHdr, bn := 0, cores := [0], groups := [0], bars := [], bufs := [], lostSets := [], lostRegions := [], inst := 0,
    node := 0, fatal := false, preempt := false, noSlot := false }
/-- Some code resident in overlay 0 of cluster 0, and a group of eight fibres on core 0 whose path stands in its first clause. -/
def placeCode (s : State) (code : List W32) (widx hdr : Nat) (lp : Option LoopSt) : State :=
  let g := newGroup probeHdr 0 0 0 0 0 0
  let s1 := modCluster s 0 (fun c => { c with slots := (c.slots.set 0 (.resident 0 code [] 0)) })
  let s2 := { s1 with blocks := tset s1.blocks 0 probeBlock }
  let s3 := setGroup s2 0 { g with paths := g.paths.map (fun p => { p with widx := widx, hdr := hdr, loop := lp }) }
  { modCore s3 0 (fun k => { k with spads := tset k.spads 0 { first := 0, parts := 1, bytes := [], poison := [] } }) with
    focus := some (0, 0), agenda := [.path 0 0] }
/-- A word of a clause placed so that the next step carries it out: the second word of a clause of one word, or of two for a PFX,
which modifies the next; LEND in the last clause of a running loop. -/
def placeWord (s : State) (w : Nat) : State :=
  let op := fOP w
  let n := if op = 0xF0 then 2 else 1
  let h := headerFor op n
  let lp : Option LoopSt := if op = 0x0D then some { ncl := 1, pass := 0, count := 1, inc := 0, body := 0, captured := [] } else none
  placeCode s (BitVec.ofNat 32 h :: BitVec.ofNat 32 w :: List.replicate 15 0) 1 h lp
/-- A header placed so that the next step begins its clause. -/
def placeHeader (s : State) (w : Nat) : State := placeCode s (BitVec.ofNat 32 w :: List.replicate 16 0) 0 0 none
/-- A move placed in the command store of engine 0, which runs a program of its own with it (R77). -/
def placeMove (s : State) (w : Nat) : State :=
  let c : BgCmd :=
    { id := 0, kind := .run, core := 0, block := 0, tag := none, node := none, baddr := 0, blk := 2 ^ 96, set := [0], started := true, stat := 0,
      done := 0, tstart := 0, e := 0, stops := [], wrow := [], wovf := [], pc := 0, spad := 0 }
  let s1 := modStack s 0 (fun k => { k with cmdq := [c] })
  { modBge s1 0 (fun b => { b with valid := true, moves := [BitVec.ofNat 32 w], pc := 0, run := some 0 }) with
    bfocus := some 0, agenda := [.bge 0] }
/-- The instruction of an opcode-table word placed where the next step takes it. -/
def placeTable (s : State) (nbits w : Nat) : State :=
  match decodeTableWord nbits w with
  | some (.clauseHeader _ _ _ _ _ _ _ _ _ _) => placeHeader s w
  | some (.bankMovePort _ _ _ _ _) | some (.bankMoveImmediate _ _ _ _ _) => placeMove s w
  | _ => placeWord s w

end Sys2Proof.Machine
end

