-- ==== Sys2Proof/Machine/Step.lean ====
section
/-! DEFINITION. One step of the device, and the state that a word of the opcode table is placed in. -/

namespace Sys2Proof.Machine

/-- One step: the first action of the agenda, or of the model's own plan when the agenda is empty (log 1). -/
def step (s : State) : Host.Outcome State Fault Refusal := stepDo s

/-- The state with the instruction of an opcode-table word placed so that the next step carries it out (log 1). -/
def State.withFetchWord (s : State) (nbits w : Nat) : State := placeTable s nbits w

end Sys2Proof.Machine
end

