-- ==== Sys2Proof/Safety.lean ====
section
/-! DEFINITION. The terms in which claims are stated: what a register, a predicate or a byte of memory reads as in a state, when
a word can issue, which words compute an integer or a floating-point function and which, what a word may change, and the
invariant of the memory. A run never ends in a fault: Fault is empty, and every failure of the spec is a trap, a status or a
code in the state (Tables 15.1, 15.2, 8.5). -/

namespace Sys2Proof.Safety

open Sys2Proof.Machine

/-! ## Reading a state -/

/-- v[r] of lane l of group g (R202); 0 where there is no such group. -/
def vReg (s : State) (g l r : Nat) : W64 := match tget s.groups g with | some x => vGet x l r | none => 0
/-- Slot j of the register stack of a lane (R200). -/
def slotVal (s : State) (g l j : Nat) : W64 := match tget s.groups g with | some x => tgetD (getFibre x l).slots j 0 | none => 0
/-- s[r] of group g (R208). -/
def sReg (s : State) (g r : Nat) : W64 := match tget s.groups g with | some x => sGet x r | none => 0
/-- Predicate byte pk of a lane (R210). -/
def pReg (s : State) (g l k : Nat) : Byte := match tget s.groups g with | some x => predByte x l k | none => 0
/-- LSTAT of a lane (R216). -/
def lstatOf (s : State) (g l : Nat) : W64 := match tget s.groups g with | some x => (getFibre x l).lstat | none => 0
/-- The path of a group that holds a lane. -/
def pathIn (s : State) (g l : Nat) : Option Path := match tget s.groups g with | some x => pathOf x l | none => none
/-- An event counter of a core (Table 13.9). -/
def counter (s : State) (core e : Nat) : W64 := tgetD (getCore s core).perf e 0
/-- A byte of memory at device scope (R47, R109). -/
def memAt (s : State) (a : Nat) : Byte := cellsGet s.mem.cells a

/-- An MSI-X vector has been raised, or is left pending by its mask (R396). -/
def Raised (s : State) (v : Nat) : Prop := (s.mgmt.vmask.testBit v = false → v ∈ s.mgmt.msix) ∧ (s.mgmt.vmask.testBit v = true → s.mgmt.vpend.testBit v = true)

/-- The invariant of the memories: the bytes of memory and of every scratchpad are in canonical form. -/
def Inv (s : State) : Prop := cellsWf s.mem.cells = true ∧ ∀ c, c ∈ s.cores → ∀ p, p ∈ c.2.spads → cellsWf p.2.bytes = true

/-! ## Outcomes -/

/-- An outcome is a next state with a property. -/
def Goes (o : Host.Outcome State Fault Refusal) (P : State → Prop) : Prop := ∃ t, o = .next t ∧ P t

/-- The path in focus has been put into a trap with a cause and a sub-cause (R377, R379 step 1). -/
def Traps (s : State) (cx : Ctx) (cause sub : Nat) (t : State) : Prop :=
  t = raiseTrap cx (mkTrap cx.path cause sub 0 cx.path.mask []) s

/-- A word has ended its clause: the grouping stage (R330, R356) has been given a state with a property, which holds the group in focus. -/
def Lands (o : Host.Outcome State Fault Refusal) (gk : Nat) (P : State → Group → Prop) : Prop :=
  ∃ u g, o = .next (boundary u gk) ∧ tget u.groups gk = some g ∧ P u g
/-- A lane of a group is on a path that stands at the clause at a code address, with a property. -/
def LaneAt (g : Group) (l : Nat) (a : W32) (P : Path → Prop := fun _ => True) : Prop :=
  ∃ p, p ∈ g.paths ∧ p.mask.getLsbD l = true ∧ p.pc = a ∧ p.widx = 0 ∧ P p
/-- The active lanes of a path. -/
def Active (cx : Ctx) (l : Nat) : Prop := cx.path.mask.getLsbD l = true

/-! ## When a word issues -/

/-- A path is in focus and no register of a list is pending for it (R21). -/
def Issues (s : State) (cx : Ctx) (regs : List Nat) : Prop := ctxOf s = some cx ∧ pendingOn regs cx = false

/-- The word in focus is not the last of its clause. -/
def midClause (cx : Ctx) : Prop := cx.path.widx < hdrCount cx.path.hdr

/-! ## Words that compute (chapter 10) -/

/-- How a word computes: element by element of a width, or on the whole lane from the destination's old value and the sources. -/
inductive Form where
  | packed (w : Nat) (f : List (BitVec w) → BitVec w)
  | whole (f : W64 → List W64 → W64)

/-- A computing word: destination, sources A and B, whether C or the destination is a third source (R31), and its function. -/
structure IntSpec where
  d : Dst
  srcs : List Src
  third : Bool
  form : Form

/-- A packed word of two sources. -/
def pk (d : Dst) (a b : Src) (w : Nat) (f : BitVec w → BitVec w → BitVec w) : Option IntSpec :=
  some ⟨d, [a, b], false, .packed w (fun xs => match xs with | x :: y :: _ => f x y | _ => 0)⟩
/-- A packed word of one source. -/
def pk1 (d : Dst) (a : Src) (w : Nat) (f : BitVec w → BitVec w) : Option IntSpec :=
  some ⟨d, [a], false, .packed w (fun xs => match xs with | x :: _ => f x | _ => 0)⟩
/-- A packed word of three sources. -/
def pkt (d : Dst) (a b : Src) (w : Nat) (f : BitVec w → BitVec w → BitVec w → BitVec w) : Option IntSpec :=
  some ⟨d, [a, b], true, .packed w (fun xs => match xs with | x :: y :: z :: _ => f x y z | _ => 0)⟩
/-- A word on 64 bits. -/
def w64 (d : Dst) (srcs : List Src) (f : List W64 → W64) : Option IntSpec := some ⟨d, srcs, false, .whole (fun _ xs => f xs)⟩
/-- The exact value of an element in a signedness (R7). -/
def val (sg : Bool) {w : Nat} (x : BitVec w) : Int := if sg then x.toInt else (x.toNat : Int)
/-- Clamped to the range of a type (ADDS, SUBS). -/
def clampBv (sg : Bool) (w : Nat) (x : Int) : BitVec w :=
  if sg then BitVec.ofInt w (max (-(2 ^ (w - 1) : Int)) (min (2 ^ (w - 1) - 1) x)) else BitVec.ofInt w (max 0 (min (2 ^ w - 1) x))
/-- Quotient toward zero; all ones for a divisor of 0 (R234). -/
def divBv (sg : Bool) {w : Nat} (x y : BitVec w) : BitVec w := if y = 0 then BitVec.allOnes w else BitVec.ofInt w (Int.tdiv (val sg x) (val sg y))
/-- Remainder with the sign of the dividend; the dividend for a divisor of 0 (R234). -/
def remBv (sg : Bool) {w : Nat} (x y : BitVec w) : BitVec w := if y = 0 then x else BitVec.ofInt w (Int.tmod (val sg x) (val sg y))
/-- Position and length of a bit field (R235). -/
def fieldPos (b : W64) : Nat := (b.extractLsb' 0 6).toNat
def fieldLen (b : W64) : Nat := min (b.extractLsb' 8 7).toNat 64

/-- The integer words of Tables 10.6 and R232 to R238, R258, R264 with the function that the spec gives each. -/
def intSpec : Instr → Option IntSpec
  | .movw q d k imm => some ⟨(match d with | .v r => .v r | .s r => .s r), [], false, .whole (fun old _ =>
      let v := imm.setWidth 64 <<< (16 * q.val)
      if k then (old &&& ~~~((0xFFFF : W64) <<< (16 * q.val))) ||| v else v)⟩
  | .mov d a => w64 d [a] (fun xs => xs.headD 0)
  | .sel d a b w => pkt d a b (widthBits w) (fun x y z => if z ≠ 0 then x else y)
  | .add d a b w => pk d a b (widthBits w) (fun x y => x + y)
  | .sub d a b w => pk d a b (widthBits w) (fun x y => x - y)
  | .addi d a i => w64 d [a] (fun xs => xs.headD 0 + i.signExtend 64)
  | .mul d a b w => pk d a b (widthBits w) (fun x y => x * y)
  | .mulhi d a b t => pk d a b (swidthBits t) (fun x y =>
      BitVec.ofInt _ (val (swidthSigned t) x * val (swidthSigned t) y / 2 ^ swidthBits t))
  | .mad d a b w => pkt d a b (widthBits w) (fun x y z => x * y + z)
  | .div d a b t => pk d a b (swidthBits t) (divBv (swidthSigned t))
  | .rem d a b t => pk d a b (swidthBits t) (remBv (swidthSigned t))
  | .min d a b t => pk d a b (swidthBits t) (fun x y => if val (swidthSigned t) y < val (swidthSigned t) x then y else x)
  | .max d a b t => pk d a b (swidthBits t) (fun x y => if val (swidthSigned t) x < val (swidthSigned t) y then y else x)
  | .abs d a w => pk1 d a (widthBits w) (fun x => if x.toInt < 0 then -x else x)
  | .neg d a w => pk1 d a (widthBits w) (fun x => -x)
  | .adds d a b t => pk d a b (swidthBits t) (fun x y => clampBv (swidthSigned t) _ (val (swidthSigned t) x + val (swidthSigned t) y))
  | .subs d a b t => pk d a b (swidthBits t) (fun x y => clampBv (swidthSigned t) _ (val (swidthSigned t) x - val (swidthSigned t) y))
  | .and d a b => w64 d [a, b] (fun xs => xs.headD 0 &&& xs.getD 1 0)
  | .or d a b => w64 d [a, b] (fun xs => xs.headD 0 ||| xs.getD 1 0)
  | .xor d a b => w64 d [a, b] (fun xs => xs.headD 0 ^^^ xs.getD 1 0)
  | .andn d a b => w64 d [a, b] (fun xs => xs.headD 0 &&& ~~~(xs.getD 1 0))
  | .andi d a i => w64 d [a] (fun xs => xs.headD 0 &&& i.signExtend 64)
  | .ori d a i => w64 d [a] (fun xs => xs.headD 0 ||| i.signExtend 64)
  | .xori d a i => w64 d [a] (fun xs => xs.headD 0 ^^^ i.signExtend 64)
  | .shl d a b w => pk d a b (widthBits w) (fun x y => if y.toNat < widthBits w then x <<< y.toNat else 0)
  | .shr d a b w => pk d a b (widthBits w) (fun x y => if y.toNat < widthBits w then x >>> y.toNat else 0)
  | .sar d a b w => pk d a b (widthBits w) (fun x y => x.sshiftRight (min y.toNat (widthBits w)))
  | .rot d a b w => pk d a b (widthBits w) (fun x y => x.rotateLeft y.toNat)
  | .shli d a w n => pk1 d a (widthBits w) (fun x => x <<< n.toNat)
  | .shri d a w n => pk1 d a (widthBits w) (fun x => x >>> n.toNat)
  | .sari d a w n => pk1 d a (widthBits w) (fun x => x.sshiftRight n.toNat)
  | .clz d a w => pk1 d a (widthBits w) (fun x => BitVec.ofNat _ (((List.range (widthBits w)).takeWhile (fun i => !(x.getMsbD i))).length))
  | .popc d a w => pk1 d a (widthBits w) (fun x => BitVec.ofNat _ ((List.range (widthBits w)).filter x.getLsbD).length)
  | .brev d a w => pk1 d a (widthBits w) (fun x => x.reverse)
  | .bfx d a b sg => w64 d [a, b] (fun xs =>
      let f := (xs.headD 0 >>> fieldPos (xs.getD 1 0)).setWidth (fieldLen (xs.getD 1 0))
      if sg then f.signExtend 64 else f.setWidth 64)
  | .bfi d a b => some ⟨d, [a, b], true, .whole (fun _ xs =>
      let p := fieldPos (xs.getD 1 0)
      let m := ((BitVec.allOnes (fieldLen (xs.getD 1 0))).setWidth 64) <<< p
      (xs.getD 2 0 &&& ~~~m) ||| ((xs.headD 0 <<< p) &&& m))⟩
  | .bdep d a b => w64 d [a, b] (fun xs => BitVec.ofNat 64 (bdepGo 64 (xs.headD 0).toNat (xs.getD 1 0).toNat))
  | .bext d a b => w64 d [a, b] (fun xs => BitVec.ofNat 64 (bextGo 64 (xs.headD 0).toNat (xs.getD 1 0).toNat))
  | .perm d a b => w64 d (a :: permRegs b) (fun xs => permVal (xs.headD 0) xs.tail)
  | .gfmm d a b tr => w64 d [a, b] (fun xs => gfmmVal (xs.headD 0) (xs.getD 1 0) tr)
  | .lea d a b sc => w64 d [a, b] (fun xs => xs.headD 0 + ((xs.getD 1 0).setWidth 32).signExtend 64 <<< sc.val)
  | .sext d a fr => w64 d [a] (fun xs => ((xs.headD 0).setWidth (8 * 2 ^ fr.val)).signExtend 64)
  | .zext d a fr => w64 d [a] (fun xs => ((xs.headD 0).setWidth (8 * 2 ^ fr.val)).setWidth 64)
  | .pack d a b w => w64 d [a, b] (fun xs => BitVec.ofNat 64 (packHalf (pkBits w) (xs.headD 0) + packHalf (pkBits w) (xs.getD 1 0) * 2 ^ 32))
  | .unpk d a w hi => w64 d [a] (fun xs => unpkVal (pkBits w) hi (xs.headD 0))
  | .srnd d a b => w64 d [a, b] (fun xs => randMix (xs.headD 0) (xs.getD 1 0))
  | _ => none

/-- A floating-point word: its function on the values of its sources, on element 0 or packed, in a rounding mode. -/
structure FpSpec where
  d : Dst
  srcs : List (SrcKind × Src)
  /-- Kind of the third source, for a word that has one. -/
  third : Option SrcKind
  /-- Width of the elements of a packed word; none for a word on the whole lane. -/
  packed : Option Nat
  /-- Rounding mode without a prefix. -/
  mode : Rm
  f : Rm → List Nat → FRes

/-- Element 0 of the sources of a scalar word, in a format. -/
def el0 (f : Fmt) (x : Nat) : Nat := bitsOf x 0 (fmtWidth f)
/-- A scalar word of one source. -/
def sc1 (d : Dst) (a : Src) (f : Fmt) (g : Rm → Nat → FRes) : Option FpSpec :=
  some ⟨d, [(.fp f, a)], none, none, .rne, fun rm xs => match xs with | x :: _ => g rm (el0 f x) | _ => (0, noFlags)⟩
/-- A scalar word of two sources. -/
def sc2 (d : Dst) (a b : Src) (f : Fmt) (g : Rm → Nat → Nat → FRes) : Option FpSpec :=
  some ⟨d, [(.fp f, a), (.fp f, b)], none, none, .rne, fun rm xs => match xs with | x :: y :: _ => g rm (el0 f x) (el0 f y) | _ => (0, noFlags)⟩
/-- A packed word of two sources. -/
def pf2 (d : Dst) (a b : Src) (p : PFmt) (g : Fmt → Rm → Nat → Nat → FRes) : Option FpSpec :=
  some ⟨d, [(.fp (pfmtFmt p), a), (.fp (pfmtFmt p), b)], none, some (fmtWidth (pfmtFmt p)), .rne,
    fun rm xs => match xs with | x :: y :: _ => g (pfmtFmt p) rm x y | _ => (0, noFlags)⟩

/-- The floating-point words of R248 to R253, R257 and R265 with the operation that the spec names for each. -/
def fpSpec : Instr → Option FpSpec
  | .fadd d a b f => sc2 d a b (ffmtFmt f) (fAdd (ffmtFmt f))
  | .fsub d a b f => sc2 d a b (ffmtFmt f) (fSub (ffmtFmt f))
  | .fmul d a b f => sc2 d a b (ffmtFmt f) (fMul (ffmtFmt f))
  | .ffma d a b f => some ⟨d, [(.fp (ffmtFmt f), a), (.fp (ffmtFmt f), b)], some (.fp (ffmtFmt f)), none, .rne, fun rm xs => match xs with
      | x :: y :: z :: _ => fFma (ffmtFmt f) rm (el0 (ffmtFmt f) x) (el0 (ffmtFmt f) y) (el0 (ffmtFmt f) z)
      | _ => (0, noFlags)⟩
  | .fmin d a b f => sc2 d a b (ffmtFmt f) (fun _ => fMinMax (ffmtFmt f) false)
  | .fmax d a b f => sc2 d a b (ffmtFmt f) (fun _ => fMinMax (ffmtFmt f) true)
  | .fabs d a f => sc1 d a (ffmtFmt f) (fun _ x => (fAbsBits (ffmtFmt f) x, noFlags))
  | .fneg d a f => sc1 d a (ffmtFmt f) (fun _ x => (fNegBits (ffmtFmt f) x, noFlags))
  | .fdiv d a b f => sc2 d a b (ffmtFmt f) (fDiv (ffmtFmt f))
  | .fsqrt d a f => sc1 d a (ffmtFmt f) (fSqrt (ffmtFmt f))
  | .frcp d a f => sc1 d a (ffmtFmt f) (fRcp (ffmtFmt f))
  | .frsq d a f => sc1 d a (ffmtFmt f) (fRsq (ffmtFmt f))
  | .fclass d a f => sc1 d a (ffmtFmt f) (fun _ x => (fClass (ffmtFmt f) x, noFlags))
  | .fcpys d a b f => sc2 d a b (ffmtFmt f) (fun _ x y => (fCpysBits (ffmtFmt f) x y, noFlags))
  | .fdot2 d a b f => some ⟨d, [(.fp (dfmtFmt f), a), (.fp (dfmtFmt f), b)], some (.fp fmt32), none, .rne, fun rm xs => match xs with
      | x :: y :: z :: _ => fDotV fmt32 rm [(fUnpack (dfmtFmt f) (bitsOf x 0 16), fUnpack (dfmtFmt f) (bitsOf y 0 16)),
          (fUnpack (dfmtFmt f) (bitsOf x 16 16), fUnpack (dfmtFmt f) (bitsOf y 16 16))] (fUnpack fmt32 (bitsOf z 0 32))
      | _ => (0, noFlags)⟩
  | .fexp2 d a f => sc1 d a (spfmtFmt f) (fun _ => spIn spExp2 f)
  | .flog2 d a f => sc1 d a (spfmtFmt f) (fun _ => spIn spLog2 f)
  | .fsin d a f => sc1 d a (spfmtFmt f) (fun _ => spIn spSin f)
  | .fcos d a f => sc1 d a (spfmtFmt f) (fun _ => spIn spCos f)
  | .ftanh d a f => sc1 d a (spfmtFmt f) (fun _ => spIn spTanh f)
  | .ferf d a f => sc1 d a (spfmtFmt f) (fun _ => spIn spErf f)
  | .frnd d a f => sc1 d a (ffmtFmt f) (fRnd (ffmtFmt f))
  | .ffrac d a f => sc1 d a (ffmtFmt f) (fun _ => fFrac (ffmtFmt f))
  | .icvt d a f ty => some ⟨d, [(.int, a)], none, none, .rne, fun rm xs => match xs with
      | x :: _ => fOfInt (ffmtFmt f) rm false (elemInt (intTySigned ty) (intTyBits ty) x)
      | _ => (0, noFlags)⟩
  | .ficvt d a f ty => some ⟨d, [(.fp (cfmtFmt f), a)], none, none, .rtz, fun rm xs => match xs with
      | x :: _ => fToInt (cfmtFmt f) rm (intTySigned ty) (intTyBits ty) x
      | _ => (0, noFlags)⟩
  | .dqf8 d a b k => some ⟨d, [(.fp (f8Fmt k), a), (.fp fmt32, b)], none, none, .rne, fun rm xs => match xs with
      | x :: y :: _ => pair2 32 (fMulV fmt32 rm (fUnpack (f8Fmt k) (bitsOf x 0 8)) (fUnpack fmt32 (bitsOf y 0 32)))
          (fMulV fmt32 rm (fUnpack (f8Fmt k) (bitsOf x 8 8)) (fUnpack fmt32 (bitsOf y 0 32)))
      | _ => (0, noFlags)⟩
  | .qi8 d a b => some ⟨d, [(.fp fmt32, a), (.fp fmt32, b)], none, none, .rne, fun rm xs => match xs with
      | x :: y :: _ => pair2 8 (qiElem 8 rm (bitsOf x 0 32) (bitsOf y 0 32)) (qiElem 8 rm (bitsOf x 32 32) (bitsOf y 0 32))
      | _ => (0, noFlags)⟩
  | .qi4 d a b => some ⟨d, [(.fp fmt32, a), (.fp fmt32, b)], none, none, .rne, fun rm xs => match xs with
      | x :: y :: _ => pair2 4 (qiElem 4 rm (bitsOf x 0 32) (bitsOf y 0 32)) (qiElem 4 rm (bitsOf x 32 32) (bitsOf y 0 32))
      | _ => (0, noFlags)⟩
  | .dqmx4 d a b q => some ⟨d, [(.fp fmtE2m1, a), (.e8m0, b)], none, none, .rne, fun _ xs => match xs with
      | x :: y :: _ =>
        let e := fun i => dqmxElem (bitsOf x (4 * (4 * q.val + i)) 4) (bitsOf y 0 8)
        ((e 0).1 + (e 1).1 * 2 ^ 16 + (e 2).1 * 2 ^ 32 + (e 3).1 * 2 ^ 48, (e 0).2 ||| (e 1).2 ||| (e 2).2 ||| (e 3).2)
      | _ => (0, noFlags)⟩
  | .padd d a b p => pf2 d a b p fAdd
  | .psub d a b p => pf2 d a b p fSub
  | .pmul d a b p => pf2 d a b p fMul
  | .pfma d a b p => some ⟨d, [(.fp (pfmtFmt p), a), (.fp (pfmtFmt p), b)], some (.fp (pfmtFmt p)), some (fmtWidth (pfmtFmt p)), .rne, fun rm xs => match xs with
      | x :: y :: z :: _ => fFma (pfmtFmt p) rm x y z
      | _ => (0, noFlags)⟩
  | .pmin d a b p => pf2 d a b p (fun f _ => fMinMax f false)
  | .pmax d a b p => pf2 d a b p (fun f _ => fMinMax f true)
  | .pdot d a b p => some ⟨d, [(.fp (pfmtFmt p), a), (.fp (pfmtFmt p), b)], some (.fp fmt32), none, .rne, fun rm xs => match xs with
      | x :: y :: z :: _ => fDotV fmt32 rm ((List.range (64 / fmtWidth (pfmtFmt p))).map (fun e =>
          (fUnpack (pfmtFmt p) (bitsOf x (fmtWidth (pfmtFmt p) * e) (fmtWidth (pfmtFmt p))),
           fUnpack (pfmtFmt p) (bitsOf y (fmtWidth (pfmtFmt p) * e) (fmtWidth (pfmtFmt p)))))) (fUnpack fmt32 (bitsOf z 0 32))
      | _ => (0, noFlags)⟩
  | _ => none

/-- The sources of a word with its third source under the prefix in force; none when C is no legal operand (R31). -/
def withC (cx : Ctx) (d : Dst) (srcs : List (SrcKind × Src)) (third : Option SrcKind) : Option (List (SrcKind × Src)) :=
  match third with
  | none => some srcs
  | some k =>
    match thirdSrc (pfxOf cx) d with
    | some c => if srcLegal k c then some (srcs ++ [(k, c)]) else none
    | none => none
/-- The registers that a destination and sources name. -/
def namedRegs (d : Dst) (srcs : List (SrcKind × Src)) : List Nat := dstRegs d ++ (srcs.map (fun k => srcRegs k.2)).flatten
/-- A computing word can run to its end: its path is in focus, its sources with C are legal, none of its registers is pending and
every latch it reads is full, and carries the uniform mark for a uniform destination (R21, R28, R29, R209). -/
def Runs (s : State) (cx : Ctx) (d : Dst) (srcs : List (SrcKind × Src)) (third : Option SrcKind) (all : List (SrcKind × Src)) : Prop :=
  withC cx d srcs third = some all ∧ Issues s cx (namedRegs d all) ∧ all.all (fun k => srcReady cx (!d.notS) k.2) = true

/-- Sources of an integer word. -/
def IntSpec.kinds (W : IntSpec) : List (SrcKind × Src) := W.srcs.map (fun a => (SrcKind.int, a))
/-- Kind of an integer word's third source. -/
def IntSpec.kind3 (W : IntSpec) : Option SrcKind := if W.third then some .int else none

/-- Element e of width w of a value. -/
def elBv (w : Nat) (x : W64) (e : Nat) : BitVec w := x.extractLsb' (w * e) w
/-- What an integer word leaves in a lane's destination, from what it held before (R210, R225). -/
def LaneResult (cx : Ctx) (l : Nat) (sh : Form) (old : W64) (xs : List W64) (new : W64) : Prop :=
  match sh with
  | .packed w f => ∀ e, e < 64 / w → elBv w new e =
      if elemOn cx l (e * w / 8) then f (xs.map (elBv w · e)) else if (pfxOf cx).mz then 0 else elBv w old e
  | .whole f => new = if elemOn cx l 0 then f old xs else if (pfxOf cx).mz then 0 else old
/-- What an integer word leaves in a uniform register (R209): one value for the group, from the values that every lane shares. -/
def UniResult (sh : Form) (old : W64) (xs : List W64) (new : W64) : Prop :=
  match sh with
  | .packed w f => ∀ e, e < 64 / w → elBv w new e = f (xs.map (elBv w · e))
  | .whole f => new = f old xs

/-- What a floating-point word computes from source values, with its flags. -/
def fpValue (W : FpSpec) (cx : Ctx) (on : Nat → Bool) (old : W64) (xs : List W64) : W64 × Flags :=
  let rm := rmOf (pfxOf cx) W.mode 0
  match W.packed with
  | none =>
    if on 0 then (BitVec.ofNat 64 (W.f rm (xs.map (·.toNat))).1, (W.f rm (xs.map (·.toNat))).2)
    else (if (pfxOf cx).mz then 0 else old, noFlags)
  | some w =>
    let r := fun e => W.f rm (xs.map (fun x => bitsOf x.toNat (w * e) w))
    let part := fun e => if on (e * w / 8) then (r e).1 % 2 ^ w else if (pfxOf cx).mz then 0 else bitsOf old.toNat (w * e) w
    (BitVec.ofNat 64 ((List.range (64 / w)).foldl (fun acc e => acc + part e * 2 ^ (w * e)) 0),
     (List.range (64 / w)).foldl (fun fl e => if on (e * w / 8) then fl ||| (r e).2 else fl) noFlags)

/-- FCVT and QF8 under a prefix: with RND 6 the draws of the two elements are bits [23:0] and [47:24] of C (R227, R256, R261); none
when C is no integer operand then. -/
def convSpec (x : Pfx) (i : Instr) : Option FpSpec :=
  let draw := fun (d : Dst) (srcs : List (SrcKind × Src)) (f : Rm → Rm → List Nat → FRes) =>
    if x.rnd = 6 then
      match Src.ofCode x.c with
      | some c => if c.isInt then some (⟨d, (.int, c) :: srcs, none, none, .rne, fun _ xs => match xs with
          | r :: ys => f (.sr (bitsOf r 0 24)) (.sr (bitsOf r 24 24)) ys
          | [] => (0, noFlags)⟩ : FpSpec) else none
      | none => none
    else some (⟨d, srcs, none, none, .rne, fun rm xs => f rm rm xs⟩ : FpSpec)
  match i with
  | .fcvt d a dst src sat => draw d [(.fp (cfmtFmt src), a)] (fun r0 _ xs =>
      fConvert (cfmtFmt dst) (cfmtFmt src) r0 sat (el0 (cfmtFmt src) (xs.headD 0)))
  | .qf8 d a b k => draw d [(.fp fmt32, a), (.fp fmt32, b)] (fun r0 r1 xs =>
      pair2 8 (qf8Elem (f8Fmt k) r0 (bitsOf (xs.headD 0) 0 32) (bitsOf (xs.getD 1 0) 0 32))
        (qf8Elem (f8Fmt k) r1 (bitsOf (xs.headD 0) 32 32) (bitsOf (xs.getD 1 0) 0 32)))
  | _ => none

/-- A word that reads other lanes or the predicates: what a lane that takes part gets, with its flags; what a uniform destination gets,
if anything; whether it gets it even when no lane takes part (R246). -/
structure CrossSpec where
  d : Dst
  srcs : List (SrcKind × Src)
  lane : Ctx → Nat → W64 × Flags
  uni : Ctx → Option W64
  always : Bool

/-- The reduction of some lanes' values (R247). -/
def reduceLanes (cx : Ctx) (a : Src) (op : LaneOp) (ls : List Nat) : W64 := (ls.map (readSrc cx .int a)).foldl (laneOpFn op) (laneOpId op)
/-- The value that BCAST takes from a lane: that of a lane that is not on the path is the lowest lane's (R245). -/
def lentLane (cx : Ctx) (a : Src) (i : Nat) : W64 := readSrc cx .int a (if cx.path.mask.getLsbD i then i else lowLane cx.path.mask)
/-- VOTE (R246). -/
def votes (cx : Ctx) (k : Fin 8) (m : VoteMode) : W64 :=
  let bit := fun l => (predByte cx.grp l k.val).getLsbD 0
  match m with
  | .any => if (partLanes cx).any bit then 1 else 0
  | .all => if (partLanes cx).all bit then 1 else 0
  | .ballot => maskOf ((partLanes cx).filter bit)
/-- The words across lanes of R243 to R247, R254, R255, R259 and the reading forms of PMOV (R242). -/
def crossSpec : Instr → Option CrossSpec
  | .shfl d a b m => some ⟨d, [(.int, a), (.int, b)], fun cx l =>
      (readSrc cx .int a (match shflSrc m (groupWidth cx.grp) l (readSrc cx .int b l).toNat with
        | some i => if cx.path.mask.getLsbD i then i else l
        | none => l), noFlags), fun _ => none, false⟩
  | .bcast d a b =>
      let v := fun cx => (partLanes cx).head?.map (fun l0 => lentLane cx a ((readSrc cx .int b l0).toNat % groupWidth cx.grp))
      some ⟨d, [(.int, a), (.int, b)], fun cx _ => ((v cx).getD 0, noFlags), v, false⟩
  | .bcastFirst d a =>
      let v := fun cx => (partLanes cx).head?.map (readSrc cx .int a)
      some ⟨d, [(.int, a)], fun cx _ => ((v cx).getD 0, noFlags), v, false⟩
  | .vote d k m => some ⟨d, [], fun cx _ => (votes cx k m, noFlags), fun cx => some (votes cx k m), true⟩
  | .ired d a op => some ⟨d, [(.int, a)], fun cx _ => (reduceLanes cx a op (partLanes cx), noFlags),
      fun cx => some (reduceLanes cx a op (partLanes cx)), false⟩
  | .iscan d a op ex => some ⟨d, [(.int, a)], fun cx l =>
      (reduceLanes cx a op ((partLanes cx).filter (fun k => if ex then k < l else k ≤ l)), noFlags), fun _ => none, false⟩
  | .fred d a op f => some ⟨d, [(.fp (rfmtFmt f), a)],
      fun cx _ => (BitVec.ofNat 64 (fredVal cx a op (rfmtFmt f)).1, (fredVal cx a op (rfmtFmt f)).2),
      fun cx => some (BitVec.ofNat 64 (fredVal cx a op (rfmtFmt f)).1), false⟩
  | .fscan d a op ex f => some ⟨d, [(.fp (rfmtFmt f), a)], fun cx l =>
      let q := fscanTo cx a op (rfmtFmt f) l
      (BitVec.ofNat 64 (if ex then q.1 else q.2.1), q.2.2), fun _ => none, false⟩
  | .qmx4 r a => some ⟨.v r, [(.fp fmtB16, a)], fun cx l => (BitVec.ofNat 64 (qmxVal cx a l).1, (qmxVal cx a l).2), fun _ => none, false⟩
  | .pmovToVreg r k => some ⟨.v r, [], fun cx l => ((predByte cx.grp l k.val).setWidth 64, noFlags), fun _ => none, false⟩
  | .pmovPallToVreg r => some ⟨.v r, [], fun cx l => ((getFibre cx.grp l).pred, noFlags), fun _ => none, false⟩
  | _ => none
/-- What such a word leaves in a lane's destination. -/
def crossValue (cx : Ctx) (l : Nat) (old v : W64) : W64 := if elemOn cx l 0 then v else if (pfxOf cx).mz then 0 else old

/-- Integer conditions on elements (Table 10.7). -/
def condBv (cc : ICond) {w : Nat} (x y : BitVec w) : Bool :=
  match cc with
  | .eq => x == y
  | .ne => x != y
  | .lts => x.slt y
  | .ges => y.sle x
  | .gts => y.slt x
  | .les => x.sle y
  | .ltu => x.ult y
  | .geu => y.ule x
  | .gtu => y.ult x
  | .leu => x.ule y

/-! ## What a word leaves alone -/

/-- Everything of a device but its groups and the event counters of one core. -/
def RestKept (s t : State) (core : Nat) : Prop :=
  t.time = s.time ∧ t.mem = s.mem ∧ t.coh = s.coh ∧ t.xl = s.xl ∧ t.blocks = s.blocks ∧ t.clusters = s.clusters ∧ t.stackTbl = s.stackTbl
  ∧ t.bges = s.bges ∧ t.fab = s.fab ∧ t.esc = s.esc ∧ t.mgmt = s.mgmt ∧ t.free = s.free ∧ t.nextId = s.nextId
  ∧ (∀ c, c ≠ core → getCore t c = getCore s c) ∧ { getCore t core with perf := [] } = { getCore s core with perf := [] }
/-- A fibre after a word that may have written one slot, some predicate bytes, and the flags; the rejoin stack may have been released
at the end of the clause (R356). -/
def FibreKept (slot : Option Nat) (pr : List Nat) (fl : Bool) (f f' : Fibre) : Prop :=
  f'.live = f.live ∧ f'.wb = f.wb ∧ f'.low = f.low ∧ f'.spilla = f.spilla ∧ f'.arrived = f.arrived
  ∧ (∀ k, k < 8 → k ∉ pr → f'.pred.extractLsb' (8 * k) 8 = f.pred.extractLsb' (8 * k) 8)
  ∧ (∀ j, slot ≠ some j → tgetD f'.slots j 0 = tgetD f.slots j 0)
  ∧ f'.lstat &&& ~~~(0x1F : W64) = f.lstat &&& ~~~(0x1F : W64) ∧ (fl = false → f'.lstat = f.lstat)
/-- A group after such a word: its fibres, its uniform registers but at most one, and everything that a word of arithmetic has no
part in. -/
def GroupKept (g g' : Group) (slot : Nat → Option Nat) (sreg : Option Nat) (pr : Nat → List Nat) (fl : Nat → Bool) : Prop :=
  g'.block = g.block ∧ g'.wcode = g.wcode ∧ g'.depth = g.depth ∧ g'.core = g.core ∧ g'.gid = g.gid ∧ g'.tdepth = g.tdepth
  ∧ g'.tvec = g.tvec ∧ g'.lcause = g.lcause ∧ g'.imp = g.imp ∧ g'.monitor = g.monitor ∧ g'.words = g.words ∧ g'.pend = g.pend
  ∧ g'.barPhase = g.barPhase ∧ (∀ r, sreg ≠ some r → sGet g' r = sGet g r)
  ∧ (∀ l, FibreKept (slot l) (pr l) (fl l) (getFibre g l) (getFibre g' l))
/-- The slot that a destination names in a lane of a path. -/
def dstSlot (cx : Ctx) (d : Dst) (l : Nat) : Option Nat :=
  match d with
  | .v r => if cx.path.mask.getLsbD l then some (slotOf cx.grp (logicalOf (getFibre cx.grp l) r.val)) else none
  | _ => none
/-- The uniform register that a destination names. -/
def dstSreg : Dst → Option Nat
  | .s r => some r.val
  | _ => none
/-- The frame of a word of arithmetic: memory and every unit but the group are as they were, other groups too, and the group keeps
all but the destination, the flags or predicates that the word writes, and its paths. -/
def WordFrame (s t : State) (cx : Ctx) (slot : Nat → Option Nat) (sreg : Option Nat) (pr : Nat → List Nat) (fl : Nat → Bool) : Prop :=
  RestKept s t cx.grp.core ∧ (∀ g, g ≠ cx.gk → tget t.groups g = tget s.groups g)
  ∧ ∃ g', tget t.groups cx.gk = some g' ∧ GroupKept cx.grp g' slot sreg pr fl

/-- Uniform registers, LSTAT, predicates and register slots of a group are as before, but for some slots of some lanes. -/
def RegsKept (s t : State) (g : Nat) (slots : Nat → Nat → Prop) : Prop :=
  (∀ r, sReg t g r = sReg s g r) ∧ ∀ l, lstatOf t g l = lstatOf s g l ∧ (∀ k, k < 8 → pReg t g l k = pReg s g l k)
    ∧ ∀ j, ¬ slots l j → slotVal t g l j = slotVal s g l j

/-! ## Matrix words (chapter 11) -/

/-- The matrix words with the elements that they combine (R276). -/
def matSpec : Instr → Option (Fin 32 × Fin 32 × MatB × MatKind)
  | .mqa d a b f => some (d, a, b, match f with
      | .bf16 => .fp 16 fmtB16 fmtB16 | .fp16 => .fp 16 fmt16 fmt16 | .e4m3 => .fp 8 fmtE4m3 fmtE4m3 | .e5m2 => .fp 8 fmtE5m2 fmtE5m2)
  | .mqax d a b f => some (d, a, b, match f with
      | .mx4 => .mx4 | .e4m3e5m2 => .fp 8 fmtE4m3 fmtE5m2 | .e5m2e4m3 => .fp 8 fmtE5m2 fmtE4m3)
  | .mqai d a b f => some (d, a, b, match f with | .s8 => .int 8 true true | .n8 => .int 8 false true | .s4 => .int 4 true true)
  | _ => none
/-- Registers that a matrix word names. -/
def matRegsOf (x : Pfx) (d a : Fin 32) (b : MatB) (kd : MatKind) : List Nat :=
  rangeFrom d.val 4 ++ rangeFrom a.val 4 ++ (if x.ce && x.c < 32 then (if kd = .mx4 then [x.c] else rangeFrom x.c 4) else [])
    ++ (match b with | .v r => rangeFrom r.val 4 | .tile r => [64 + r.val])
/-- Where B of a matrix word is, with the poison of a tile, when it can be read (R275, R281). -/
def BIs (s : State) (cx : Ctx) (b : MatB) (kd : MatKind) (bv : MatBv) (pois : Bool) : Prop :=
  match b with
  | .v r => r.val % 4 = 0 ∧ bv = .reg r.val ∧ pois = false
  | .tile r => ∃ x, readTile s cx (sGet cx.grp r.val) (if kd = .mx4 then 272 else 256) = .inr x ∧ bv = .tile x.1 ∧ pois = x.2

/-- A small-matrix word: first D register, its sizes, the registers it reads and writes, and a lane's result. -/
structure SmSpec where
  d : Fin 32
  shape : Ctx → Option Nat
  uses : Shape → List Nat
  nd : Shape → Nat
  ok : Shape → Bool
  lane : Ctx → Shape → Nat → SmRes
/-- Size field checks of a word with neither SEL nor UNIT nor TR (R291). -/
def plainShape (w : Shape) : Bool := !(w.sel || w.unit || w.tr)
/-- The small-matrix words (R290 to R299): SMM, SMADD and STRN element by element; the factorizations by the steps of their rules. -/
def smSpec : Instr → Option SmSpec
  | .smm d a b f => some ⟨d, shapeC, fun w => rangeFrom a.val (viewRegs (smView f) w.m w.k) ++ rangeFrom b.val (viewRegs (smView f) w.k w.n),
      fun w => viewRegs (smView f) w.m w.n, fun w => smSize f w.m && smSize f w.n && smSize f w.k && plainShape w, fun cx w l =>
      let x := fun i k => viewAt cx.grp l a.val (smView f) w.k i k
      let y := fun k j => viewAt cx.grp l b.val (smView f) w.n k j
      let el := fun (p : Nat) => (rangeFrom 1 (w.k - 1)).foldl (fun (acc : FRes) k =>
        let r := fFma (smFmt f) (rmCx cx) (x (p / w.n) k) (y k (p % w.n)) acc.1
        (r.1, acc.2 ||| r.2)) (fMul (smFmt f) (rmCx cx) (x (p / w.n) 0) (y 0 (p % w.n)))
      ⟨matRegs (smView f) ⟨w.m, w.n, (List.range (w.m * w.n)).map (fun p => (el p).1)⟩,
        (List.range (w.m * w.n)).foldl (fun fl p => fl ||| (el p).2) noFlags, none⟩⟩
  | .smadd d a b f => some ⟨d, shapeC, fun w => rangeFrom a.val (viewRegs (smView f) w.m w.n) ++ rangeFrom b.val (viewRegs (smView f) w.m w.n),
      fun w => viewRegs (smView f) w.m w.n,
      fun w => smSize f w.m && smSize f w.n && w.k = 0 && plainShape w && (f ≠ .sym64 || w.m = w.n), fun cx w l =>
      let el := fun (p : Nat) => fAdd (smFmt f) (rmCx cx) (viewAt cx.grp l a.val (smView f) w.n (p / w.n) (p % w.n))
        (viewAt cx.grp l b.val (smView f) w.n (p / w.n) (p % w.n))
      ⟨matRegs (smView f) ⟨w.m, w.n, (List.range (w.m * w.n)).map (fun p => (el p).1)⟩,
        (List.range (w.m * w.n)).foldl (fun fl p => fl ||| (el p).2) noFlags, none⟩⟩
  | .strn d a b f => some ⟨d, shapeB b, fun w => rangeFrom a.val (viewRegs (smView f) w.m w.n), fun w => viewRegs (smView f) w.n w.m,
      fun w => smSize f w.m && smSize f w.n && w.k = 0 && plainShape w, fun cx w l =>
      ⟨matRegs (smView f) ⟨w.n, w.m, (List.range (w.n * w.m)).map (fun p => viewAt cx.grp l a.val (smView f) w.n (p % w.m) (p / w.m))⟩,
        noFlags, none⟩⟩
  | .schol d a b f => some ⟨d, shapeB b, fun w => rangeFrom a.val (viewRegs (smView f) w.m w.m), fun w => viewRegs (smView f) w.m w.m,
      fun w => smSize f w.m && w.n = 0 && w.k = 0 && plainShape w, fun cx w l =>
      let x := viewMat cx.grp l a.val (smView f) w.m w.m
      let q := scholVal (smEnv cx f (triangle x false)) x w.m smSt0
      ⟨matRegs (smView f) q.1, q.2.fl, some (q.2.sing, q.2.near)⟩⟩
  | .sluf d a b f => some ⟨d, shapeB b, fun w => rangeFrom a.val (viewRegs (smView f) w.m w.m), fun w => viewRegs (smView f) w.m w.m + 1,
      fun w => smSize f w.m && w.n = 0 && w.k = 0 && plainShape w, fun cx w l =>
      let x := viewMat cx.grp l a.val (smView f) w.m w.m
      let q := slufVal (smEnv cx f x.els) x w.m smSt0
      ⟨matRegs (smView f) q.1 ++ [BitVec.ofNat 64 (q.2.1.foldr (fun p acc => p + 256 * acc) 0)], q.2.2.fl, some (q.2.2.sing, q.2.2.near)⟩⟩
  | .ssol d a b f => some ⟨d, shapeB b, fun w => rangeFrom a.val (viewRegs (smView f) w.m w.m + (if w.sel then 0 else 1)),
      fun w => viewRegs (smRhs f) w.m w.n, fun w => solSize f w && !w.unit && !w.tr && (f ≠ .sym64 || w.sel), fun cx w l =>
      let x := viewMat cx.grp l a.val (smView f) w.m w.m
      let q := eachCol (viewMat cx.grp l d.val (smRhs f) w.m w.n) smSt0 (ssolCol (smEnv cx f (triangle x (!w.sel))) x w.m w.sel
        (vGet cx.grp l (a.val + viewRegs (smView f) w.m w.m)))
      ⟨matRegs (smRhs f) q.1, q.2.fl, some (q.2.sing, q.2.near)⟩⟩
  | .strs d a b f => some ⟨d, shapeB b, fun w => rangeFrom a.val (viewRegs (smView f) w.m w.m), fun w => viewRegs (smRhs f) w.m w.n,
      fun w => solSize f w && (f ≠ .sym64 || !w.sel), fun cx w l =>
      let x := viewMat cx.grp l a.val (smView f) w.m w.m
      let q := eachCol (viewMat cx.grp l d.val (smRhs f) w.m w.n) smSt0 (fun c st =>
        substGo (smEnv cx f (triangle x w.sel)) (fun i k => if w.tr then matAt x k i else matAt x i k) w.m (w.sel = w.tr) w.unit c st)
      ⟨matRegs (smRhs f) q.1, q.2.fl, some (q.2.sing, q.2.near)⟩⟩
  | .sdet d a b f => some ⟨d, shapeB b, fun w => rangeFrom a.val (viewRegs (smView f) w.m w.m), fun _ => 1,
      fun w => smSize f w.m && w.n = 0 && w.k = 0 && plainShape w, fun cx w l =>
      let x := viewMat cx.grp l a.val (smView f) w.m w.m
      let q := sdetGo (smEnv cx f x.els) w.m x smSt0
      ⟨[BitVec.ofNat 64 q.1], q.2.fl, some (q.2.sing, q.2.near)⟩⟩
  | _ => none

/-! ## Memory words (chapters 04, 06, 07, 10, 12) -/

/-- A memory word: what it does, its destination, the registers it names, its source that can be a latch, the window register
that MZ clears in masked lanes, and for each lane that takes part its address and data (R169, R172, R313). -/
structure MemSpec where
  op : MemOp
  d : Dst
  regs : List Nat
  src : Option Src
  zero : Option (Fin 32)
  ents : Ctx → List (Nat × W64 × W64 × W64)
/-- The base of a lane's address. -/
def base (cx : Ctx) (a : Reg) (l : Nat) : W64 := match a with | .v r => vGet cx.grp l r.val | .s r => sGet cx.grp r.val
/-- Base plus the signed offset times the size (R169). -/
def plus (cx : Ctx) (a : Reg) (off : BitVec 6) (n l : Nat) : W64 := base cx a l + BitVec.ofInt 64 (off.toInt * n)
/-- Base plus the signed 32-bit index times the size (R172). -/
def indexed (cx : Ctx) (a : Reg) (b : Fin 32) (n l : Nat) : W64 := sGet cx.grp b.val + BitVec.ofInt 64 (toSigned 32 (base cx a l).toNat * n)
/-- The lanes of a word without side effects, and of a word with side effects, which leaves helper lanes out (R362). -/
def reading (cx : Ctx) : List Nat := partLanes cx
def acting (cx : Ctx) : List Nat := (partLanes cx).filter (fun l => !(isHelper cx.grp l))
/-- A load (LD, LDU, LDS): per lane, or by the lowest lane that takes part for a uniform destination (R169). -/
def loadSpec (op : MemOp) (d a : Reg) (n : Nat) (off : BitVec 6) : MemSpec :=
  match d with
  | .v r => ⟨op, .v r, regRegs d ++ regRegs a, none, some r, fun cx => (reading cx).map (fun l => (l, plus cx a off n l, 0, 0))⟩
  | .s r => ⟨op, .s r, regRegs d ++ regRegs a, none, none, fun cx => ((reading cx).map (fun l => (l, plus cx a off n l, (0 : W64), (0 : W64)))).take 1⟩
/-- The memory words whose lanes travel through the memory system. -/
def memSpec : Instr → Option MemSpec
  | .ld d a t z off => some (loadSpec (.load t z) d a (sizeBytes z) off)
  | .ldu d a t z off => some (loadSpec (.loadu t z) d a (sizeBytes z) off)
  | .lds d a z off => some (loadSpec (.lds z) d a (sizeBytes z) off)
  | .st d a t z off => some ⟨.store t z, srcDst d, srcRegs d ++ regRegs a, some d, none, fun cx =>
      (acting cx).map (fun l => (l, plus cx a off (sizeBytes z) l, readSrc cx .int d l, 0))⟩
  | .sts d a z off => some ⟨.sts z, srcDst d, srcRegs d ++ regRegs a, some d, none, fun cx =>
      (acting cx).map (fun l => (l, plus cx a off (sizeBytes z) l, readSrc cx .int d l, 0))⟩
  | .gath d a b z => some ⟨.load .o z, .v d, d.val :: (64 + b.val) :: regRegs a, none, some d, fun cx =>
      (reading cx).map (fun l => (l, indexed cx a b (sizeBytes z) l, 0, 0))⟩
  | .scat d a b z => some ⟨.store .o z, srcDst d, (64 + b.val) :: (srcRegs d ++ regRegs a), some d, none, fun cx =>
      (acting cx).map (fun l => (l, indexed cx a b (sizeBytes z) l, readSrc cx .int d l, 0))⟩
  | .pref k a t off => some ⟨.pref k t, .y 0, regRegs a, none, none, fun cx => (acting cx).map (fun l => (l, plus cx a off 1 l, 0, 0))⟩
  | .cflush a k => some ⟨.cflush k, .y 0, regRegs a, none, none, fun cx => (acting cx).map (fun l => (l, base cx a l, 0, 0))⟩
  | .cinv (some a) => some ⟨.cinv, .y 0, regRegs a, none, none, fun cx => (acting cx).map (fun l => (l, base cx a l, 0, 0))⟩
  | .atom d a op sc ord => some ⟨.atom op sc ord, .v d, d.val :: regRegs a, none, none, fun cx =>
      (acting cx).map (fun l => (l, base cx a l, vGet cx.grp l d.val, 0))⟩
  | .cas d a facq is64 sc ord => some ⟨.cas is64 facq sc ord, .v d, d.val :: (d.val + 1) :: regRegs a, none, none, fun cx =>
      (acting cx).map (fun l => (l, base cx a l, vGet cx.grp l d.val, vGet cx.grp l (d.val + 1)))⟩
  | .fence sc k => some ⟨.fence sc k, .y 0, [], none, none, fun cx => (lanesOf cx.path.mask).map (fun l => (l, 0, 0, 0))⟩
  | .red d a ty op => some ⟨.red ty op, srcDst d, srcRegs d ++ regRegs a, some d, none, fun cx =>
      (acting cx).map (fun l => (l, base cx a l, readSrc cx (match ty with
        | .fp32 => .fp fmt32 | .fp64 => .fp fmt64 | .bf16 => .fp fmtB16 | _ => .int) d l, 0))⟩
  | .gred d a b fp32 => some ⟨.gred fp32, .v d, d.val :: (regRegs a ++ srcRegs b), some b, some d, fun cx =>
      (reading cx).map (fun l => (l, base cx a l, readSrc cx (.fp fmt32) b l, 0))⟩
  | _ => none
/-- Whether the masked lanes are cleared with the results and not at issue: a GRED that traps writes no lane (R106). -/
def clearsLate (W : MemSpec) (cx : Ctx) : Bool := match W.op with | .gred _ => !(W.ents cx).isEmpty | _ => false
/-- The masked lanes' destination cleared under MZ (R31). -/
def cleared (W : MemSpec) (cx : Ctx) (s : State) : State :=
  match W.zero with | some r => if clearsLate W cx then s else zeroMasked cx s r.val | none => s
/-- The record of a memory word at issue; a uniform destination takes the value of the lowest lane that takes part (R209). -/
def issued (W : MemSpec) (cx : Ctx) (id : Nat) : MemWord :=
  { id := id, op := W.op, mask := cx.path.mask, uni := !W.d.notS, caddr := cx.path.pc,
    widx := if cx.path.pfx.isSome then cx.path.widx - 1 else cx.path.widx, word := rotWord cx.path.loop cx.path.cur,
    pfxw := match cx.path.pfx with | some p => rotWord cx.path.loop p.toNat | none => 0,
    lanes := (W.ents cx).zipIdx.map (fun e => (e.1.1, { st := .walk, va := e.1.2.1, d0 := e.1.2.2.1, d1 := e.1.2.2.2,
                                                        dlog := if !W.d.notS && e.2 ≠ 0 then 65536 else destOf cx W.d e.1.1 })),
    blk := 0, ans := match W.op, W.zero with | .gred _, some r => maskedOut cx r.val | _, _ => [], replay := false }
/-- A memory word for some addresses can issue in a state that has settled: the gate is open, and a word that translates finds room for
its lanes, its pages and its transactions (R116, R117, R138). -/
def MayIssue (s1 : State) (cx : Ctx) (op : MemOp) (vas : List Nat) (blk : Nat := 0) : Prop :=
  memGate s1 cx.gk = true ∧ ∃ g, tget s1.groups cx.gk = some g ∧ (opTranslates op = true → (g.words.filter wordWalks).length < 32 ∧
    (pendList s1 (dieOfCore g.core)).length + newPages s1 g.core op vas ≤ 1024 ∧ fabWould s1 g.core op vas blk = false)
/-- A byte of a scratchpad (R163). -/
def spadAt (s : State) (c b o : Nat) : Byte := match spadOf s c b with | some x => cellsGet x.bytes o | none => 0
/-- No store that an L1 has taken, drained entry of a group or transaction holds up a wide release of a core's group (Table 12.2). -/
def BuffersEmpty (s : State) (gk : Nat) (g : Group) : Prop :=
  (getCore s g.core).sb = [] ∧ (getCore s g.core).mb = [] ∧ takenAt s g.core none none = false ∧ drainsOpen s gk = false
/-- A group that has nothing under way in memory, and no group waits at a fence. -/
def NothingOut (s : State) (gk : Nat) (g : Group) : Prop :=
  g.words = [] ∧ g.replays = [] ∧ g.bgwaits = [] ∧ s.stackTbl.any (fun k => k.2.modeWaits.any (·.group = gk)) = false
    ∧ s.groups.any (fun q => q.2.words.any (fun w => match w.op with | .fence _ _ => true | _ => false)) = false
/-- The destination register of a lane is within its window (R204). -/
def InWindow (g : Group) (l r : Nat) : Prop :=
  (getFibre g l).low.toNat ≤ logicalOf (getFibre g l) r ∧ logicalOf (getFibre g l) r < (getFibre g l).low.toNat + g.depth
    ∧ logicalOf (getFibre g l) r < 65536

/-- The smaller or larger of two elements in a signedness (R313). -/
def pick (sg mx : Bool) (w old x : Nat) : Nat :=
  let v := fun (q : Nat) => if sg then (BitVec.ofNat w q).toInt else (q : Int)
  if mx then (if v old < v x then x else old) else (if v x < v old then x else old)
/-- The element that an ATOM leaves (R313): sums wrap, minima and maxima of two equal elements leave it as it is. -/
def atomValue (o : AOp) (old x : Nat) : Nat :=
  match o with
  | .addN32 => (old + x) % 2 ^ 32
  | .addN64 => (old + x) % 2 ^ 64
  | .addF32 => (fAdd fmt32 .rne old x).1 % 2 ^ 32
  | .addF64 => (fAdd fmt64 .rne old x).1 % 2 ^ 64
  | .addBf16 => aopApply .addBf16 old x % 2 ^ 16
  | .minN32 => pick false false 32 old x
  | .maxN32 => pick false true 32 old x
  | .minS32 => pick true false 32 old x
  | .maxS32 => pick true true 32 old x
  | .minN64 => pick false false 64 old x
  | .maxN64 => pick false true 64 old x
  | .minS64 => pick true false 64 old x
  | .maxS64 => pick true true 64 old x
  | .minF32 => (fMinMax fmt32 false old x).1 % 2 ^ 32
  | .maxF32 => (fMinMax fmt32 true old x).1 % 2 ^ 32
  | .minF64 => (fMinMax fmt64 false old x).1 % 2 ^ 64
  | .maxF64 => (fMinMax fmt64 true old x).1 % 2 ^ 64
  | .and32 | .and64 => old &&& x
  | .or32 | .or64 => old ||| x
  | .xor32 | .xor64 => old ^^^ x
  | .exch32 | .exch64 => x

/-! ## Commands (chapters 03, 04, 08) -/

/-- A command word can be accepted: its tag is ready, the group may issue memory instructions, its release at fabric scope is done,
and its parameter block reads as some bytes (R181, R190, R311, R452). -/
def Accepted (s : State) (cx : Ctx) (n a align bytes : Nat) (s1 : State) (blk : Nat) : Prop :=
  tagFree s cx.grp.core n = true ∧ memGate s cx.gk = true ∧ ∃ r, releaseAll s cx.gk s.nextId 5 (BitVec.allOnes 64) = (r, true) ∧
    storesOpen cx.grp r.nextId (BitVec.allOnes 64) = false ∧ memGate r cx.gk = true ∧ (sGet cx.grp a).toNat % align = 0 ∧
    spanRead r (some cx.grp.core) (dieOfCore cx.grp.core) (sGet cx.grp a).toNat bytes = (s1, .ok blk)
/-- A parameter block is read at a word that is no command (R311, R452). -/
def ReadsBlock (s : State) (cx : Ctx) (a align bytes : Nat) (s1 : State) (blk : Nat) : Prop :=
  storesOpen cx.grp s.nextId (BitVec.allOnes 64) = false ∧ memGate s cx.gk = true ∧ (sGet cx.grp a).toNat % align = 0 ∧
    spanRead s (some cx.grp.core) (dieOfCore cx.grp.core) (sGet cx.grp a).toNat bytes = (s1, .ok blk)
/-- The transfer words (R177 to R185). -/
def transferSpec : Instr → Option (XKind × Option (Fin 16) × Fin 32 × BitVec 6)
  | .xcopy b a n => some (.xcopy, b, a, n)
  | .xstr b a n => some (.xstr, b, a, n)
  | .xlay b a n => some (.xlay, b, a, n)
  | .xacc b a n => some (.xacc, b, a, n)
  | _ => none
/-- The state of a tag of a core (R190). -/
def tagOn (s : State) (core n : Nat) : Bool := (getCore s core).tags.getLsbD n
/-- The move that a bank word carries (Table 4.3). -/
def bankMoveOf : Instr → Option BgMove
  | .bankMovePort gn gs d sr md => some ⟨gn, gs.val, d.toNat, some sr.toNat, 0, md.toNat⟩
  | .bankMoveImmediate gn gs d im md => some ⟨gn, gs.val, d.toNat, none, im.toNat, md.toNat⟩
  | _ => none

end Sys2Proof.Safety
end

