-- ==== Sys2Proof/Certificates/Slice0/Obligations.lean ====
section
/-! DEFINITION. The statements for the provers, from the numbered rules of spec/. -/

open Sys2Proof Sys2Proof.Machine Sys2Proof.Safety

/-! ## Words that compute -/

/-- R225, R233 to R238, R258, R264: an integer word completes and writes the value that the spec's table gives, in every active lane,
for every form of destination. -/
def Obligations.IntegerWords : Prop :=
  ∀ (i : Instr) (W : IntSpec) (s : State) (cx : Ctx) (all : List (SrcKind × Src)),
    intSpec i = some W → Runs s cx W.d W.kinds W.kind3 all →
    Goes (exec i s) (fun t => match W.d with
      | .v r => ∀ l, cx.path.mask.getLsbD l = true →
          LaneResult cx l W.form (vGet cx.grp l r.val) (all.map (fun k => readSrc cx k.1 k.2 l)) (vReg t cx.gk l r.val)
      | .s r => if (partLanes cx).isEmpty then sReg t cx.gk r.val = sGet cx.grp r.val
          else UniResult W.form (sGet cx.grp r.val) (all.map (fun k => readSrc cx k.1 k.2 (lowLane cx.path.mask))) (sReg t cx.gk r.val)
      | .y k => midClause cx → ∃ p x, pathIn t cx.gk cx.lane = some p ∧ latchOf p k = some x ∧ ∀ l, cx.path.mask.getLsbD l = true →
          LaneResult cx l W.form (oldOf cx (.y k) l) (all.map (fun q => readSrc cx q.1 q.2 l)) (tgetD x.vals l 0))

/-- R225: what an integer word leaves alone, whatever next state it gives: all of memory, every other group, every register but its
destination, the predicates and LSTAT. -/
def Obligations.IntegerFrame : Prop :=
  ∀ (i : Instr) (W : IntSpec) (s t : State) (cx : Ctx), intSpec i = some W → ctxOf s = some cx → exec i s = .next t →
    WordFrame s t cx (dstSlot cx W.d) (dstSreg W.d) (fun _ => []) (fun _ => false) ∧ (∀ a, memAt t a = memAt s a)

/-- R225, R227, R228, R248 to R253, R256, R257, R260 to R262, R265, R266: a floating-point word completes, writes the value of its operation
in the rounding mode in force, and joins the operation's flags into LSTAT. The model's choices here: with a uniform destination the flags go to
every lane that takes part (log 40), the values of the special functions (log 7), the operand that RND 6
draws from (log 31), and no flag for an element of QI8 or QI4 that saturates, also where its rounding was inexact (log 125). -/
def Obligations.FloatWords : Prop :=
  ∀ (i : Instr) (W : FpSpec) (s : State) (cx : Ctx) (all : List (SrcKind × Src)),
    fpSpec i = some W ∨ convSpec (pfxOf cx) i = some W → Runs s cx W.d W.srcs W.third all →
    Goes (exec i s) (fun t => match W.d with
      | .v r => ∀ l, cx.path.mask.getLsbD l = true →
          let q := fpValue W cx (elemOn cx l) (vGet cx.grp l r.val) (all.map (fun k => readSrc cx k.1 k.2 l))
          vReg t cx.gk l r.val = q.1 ∧ lstatOf t cx.gk l = (getFibre cx.grp l).lstat ||| q.2.setWidth 64
      | .s r => if (partLanes cx).isEmpty then sReg t cx.gk r.val = sGet cx.grp r.val
          else
            let q := fpValue W cx (fun _ => true) 0 (all.map (fun k => readSrc cx k.1 k.2 (lowLane cx.path.mask)))
            sReg t cx.gk r.val = q.1 ∧ ∀ l, l ∈ partLanes cx → lstatOf t cx.gk l = (getFibre cx.grp l).lstat ||| q.2.setWidth 64
      | .y k => let q := fun l => fpValue W cx (elemOn cx l) (oldOf cx (.y k) l) (all.map (fun q => readSrc cx q.1 q.2 l))
          (∀ l, cx.path.mask.getLsbD l = true → lstatOf t cx.gk l = (getFibre cx.grp l).lstat ||| (q l).2.setWidth 64)
          ∧ (midClause cx → ∃ p x, pathIn t cx.gk cx.lane = some p ∧ latchOf p k = some x ∧ ∀ l, cx.path.mask.getLsbD l = true →
              tgetD x.vals l 0 = (q l).1))

/-- R225, R228: what a floating-point word leaves alone: of a fibre only the destination and the five flags of LSTAT change. -/
def Obligations.FloatFrame : Prop :=
  ∀ (i : Instr) (W : FpSpec) (s t : State) (cx : Ctx), fpSpec i = some W ∨ convSpec (pfxOf cx) i = some W → ctxOf s = some cx → exec i s = .next t →
    WordFrame s t cx (dstSlot cx W.d) (dstSreg W.d) (fun _ => []) cx.path.mask.getLsbD ∧ (∀ a, memAt t a = memAt s a)

/-! ## Predicates and words across lanes -/

/-- R210, R211, R239 to R242: each compare, PLOG and PMOV completes; every bit of a predicate byte takes the result of its element,
is cleared, or is kept, as the mask says. -/
def Obligations.PredicateWords : Prop :=
  (∀ (cc : ICond) (k : Fin 8) (a b : Src) (w : Width) (s : State) (cx : Ctx),
    Issues s cx (srcRegs a ++ srcRegs b) → srcReady cx false a = true → srcReady cx false b = true →
    Goes (exec (.icmp cc k a b w) s) (fun t => ∀ l j, cx.path.mask.getLsbD l = true → j < 8 →
      let e := j / (widthBits w / 8)
      (pReg t cx.gk l k.val).getLsbD j = if elemOn cx l (e * widthBits w / 8)
        then condBv cc (elBv (widthBits w) (readSrc cx .int a l) e) (elBv (widthBits w) (readSrc cx .int b l) e)
        else if (pfxOf cx).mz then false else (predByte cx.grp l k.val).getLsbD j)) ∧
  (∀ (cc : ICond) (k : Fin 8) (a : Src) (imm : BitVec 9) (s : State) (cx : Ctx),
    Issues s cx (srcRegs a) → srcReady cx false a = true →
    Goes (exec (.icmpi cc k a imm) s) (fun t => ∀ l, cx.path.mask.getLsbD l = true →
      pReg t cx.gk l k.val = if elemOn cx l 0 then (if condBv cc (readSrc cx .int a l) (imm.signExtend 64) then 0xFF else 0)
        else if (pfxOf cx).mz then 0 else predByte cx.grp l k.val)) ∧
  (∀ (cc : FCond) (k : Fin 8) (a b : Src) (f : FFmt) (s : State) (cx : Ctx),
    Issues s cx (srcRegs a ++ srcRegs b) → srcReady cx false a = true → srcReady cx false b = true →
    Goes (exec (.fcmp cc k a b f) s) (fun t => ∀ l, cx.path.mask.getLsbD l = true →
      let q := fCompare (ffmtFmt f) cc (readSrc cx (.fp (ffmtFmt f)) a l).toNat (readSrc cx (.fp (ffmtFmt f)) b l).toNat
      if elemOn cx l 0 then pReg t cx.gk l k.val = (if q.1 then 0xFF else 0) ∧ lstatOf t cx.gk l = (getFibre cx.grp l).lstat ||| q.2.setWidth 64
      else pReg t cx.gk l k.val = (if (pfxOf cx).mz then 0 else predByte cx.grp l k.val) ∧ lstatOf t cx.gk l = (getFibre cx.grp l).lstat)) ∧
  (∀ (tt : BitVec 4) (d a b : Fin 8) (s : State) (cx : Ctx), Issues s cx [] →
    Goes (exec (.plog tt d a b) s) (fun t => ∀ l j, cx.path.mask.getLsbD l = true → j < 8 →
      (pReg t cx.gk l d.val).getLsbD j = if elemOn cx l j
        then tt.getLsbD (2 * ((predByte cx.grp l a.val).getLsbD j).toNat + ((predByte cx.grp l b.val).getLsbD j).toNat)
        else if (pfxOf cx).mz then false else (predByte cx.grp l d.val).getLsbD j)) ∧
  (∀ (k : Fin 8) (a : Src) (s : State) (cx : Ctx), Issues s cx (srcRegs a) → srcReady cx false a = true →
    Goes (exec (.pmovToPred k a) s) (fun t => ∀ l, cx.path.mask.getLsbD l = true →
      pReg t cx.gk l k.val = if elemOn cx l 0 then (readSrc cx .int a l).setWidth 8
        else if (pfxOf cx).mz then 0 else predByte cx.grp l k.val)) ∧
  (∀ (a : Src) (s : State) (cx : Ctx), Issues s cx (srcRegs a) → srcReady cx false a = true →
    Goes (exec (.pmovVregToPall a) s) (fun t => ∀ l k, cx.path.mask.getLsbD l = true → k < 8 →
      pReg t cx.gk l k = if elemOn cx l 0 then (readSrc cx .int a l).extractLsb' (8 * k) 8
        else if (pfxOf cx).mz then 0 else predByte cx.grp l k))

/-- R242 to R247, R254, R255, R259: each word across lanes, and each PMOV that reads predicates, completes; a lane that takes part gets
the value that the rule gives, a masked one keeps what it has or 0, and a uniform destination gets the group's value, the flags of FRED going to
every lane that takes part (R254). The model's choices here: SHFL.up and SHFL.down read k unsigned (log 124). -/
def Obligations.CrossLaneWords : Prop :=
  ∀ (i : Instr) (W : CrossSpec) (s : State) (cx : Ctx), crossSpec i = some W → Issues s cx (namedRegs W.d W.srcs) →
    W.srcs.all (fun k => srcReady cx false k.2) = true →
    Goes (exec i s) (fun t => match W.d with
      | .v r => ∀ l, cx.path.mask.getLsbD l = true →
          vReg t cx.gk l r.val = crossValue cx l (vGet cx.grp l r.val) (W.lane cx l).1
            ∧ (elemOn cx l 0 = true → lstatOf t cx.gk l = (getFibre cx.grp l).lstat ||| (W.lane cx l).2.setWidth 64)
      | .s r => match W.uni cx with
          | some v => sReg t cx.gk r.val = (if W.always || !(partLanes cx).isEmpty then v else sGet cx.grp r.val)
              ∧ ∀ l, l ∈ partLanes cx → lstatOf t cx.gk l = (getFibre cx.grp l).lstat ||| (W.lane cx l).2.setWidth 64
          | none => sReg t cx.gk r.val = sGet cx.grp r.val
      | .y k => midClause cx → ∃ p x, pathIn t cx.gk cx.lane = some p ∧ latchOf p k = some x ∧ ∀ l, cx.path.mask.getLsbD l = true →
          tgetD x.vals l 0 = crossValue cx l (oldOf cx (.y k) l) (W.lane cx l).1)

/-- R211, R242, R243: what the compares, PLOG, PMOV and the words across lanes leave alone. -/
def Obligations.PredicateCrossFrame : Prop :=
  ∀ (s t : State) (cx : Ctx) (i : Instr), ctxOf s = some cx → exec i s = .next t →
    (match i with
      | .icmp _ k _ _ _ | .icmpi _ k _ _ | .plog _ k _ _ | .pmovToPred k _ =>
          WordFrame s t cx (fun _ => none) none (fun l => if cx.path.mask.getLsbD l then [k.val] else []) (fun _ => false)
      | .fcmp _ k _ _ _ => WordFrame s t cx (fun _ => none) none (fun l => if cx.path.mask.getLsbD l then [k.val] else []) cx.path.mask.getLsbD
      | .pmovVregToPall _ => WordFrame s t cx (fun _ => none) none (fun l => if cx.path.mask.getLsbD l then List.range 8 else []) (fun _ => false)
      | i => ∀ W, crossSpec i = some W → WordFrame s t cx (dstSlot cx W.d) (dstSreg W.d) (fun _ => []) cx.path.mask.getLsbD)

/-! ## Control words (chapter 14) -/

/-- R348 to R354, R358, R360 to R362: where each lane of a path goes after a branch, an indirect transfer that passes its checks, a call,
a return, FORK, FEND, BRK, DEMOTE or REJOIN, and what it does to fibres; then the grouping stage follows. -/
def Obligations.ControlFlow : Prop :=
  ∀ (s : State) (cx : Ctx), ctxOf s = some cx →
    (∀ t a, directTarget s cx t = some a → Lands (exec (.bra t) s) cx.gk (fun _ g => ∀ l, Active cx l → LaneAt g l a)) ∧
    (∀ p n t a, directTarget s cx t = some a → Lands (exec (.brc p n t) s) cx.gk (fun _ g => ∀ l, Active cx l →
      LaneAt g l (if (predByte cx.grp l p.val).getLsbD 0 != n then a else nextClause cx.path))) ∧
    (∀ a, pendingOn (regRegs a) cx = false → (∀ l, Active cx l → indirectCode s cx.grp.core true (regVal cx a l) = 0) →
      Lands (exec (.jmp a) s) cx.gk (fun _ g => ∀ l, Active cx l → LaneAt g l ((regVal cx a l).setWidth 32))) ∧
    (∀ t a, directTarget s cx t = some a → callPending cx = false → callCheck cx = none →
      Lands (exec (.call t) s) cx.gk (fun _ g => ∀ l, Active cx l → LaneAt g l a ∧ (getFibre g l).wb = (getFibre cx.grp l).wb + 8
        ∧ vGet g l 24 = (nextClause cx.path).setWidth 64)) ∧
    (∀ a, pendingOn (regRegs a) cx = false → callPending cx = false → callCheck cx = none →
      (∀ l, Active cx l → indirectCode s cx.grp.core true (regVal cx a l) = 0) →
      Lands (exec (.calli a) s) cx.gk (fun _ g => ∀ l, Active cx l → LaneAt g l ((regVal cx a l).setWidth 32)
        ∧ (getFibre g l).wb = (getFibre cx.grp l).wb + 8 ∧ vGet g l 24 = (nextClause cx.path).setWidth 64)) ∧
    (pendingOn [24] cx = false →
      (∀ l, Active cx l → (getFibre cx.grp l).wb ≠ 0 → (getFibre cx.grp l).low.toNat + 8 ≤ (getFibre cx.grp l).wb.toNat
        ∧ indirectCode s cx.grp.core false (vGet cx.grp l 24) = 0) →
      Lands (exec .ret s) cx.gk (fun _ g => ∀ l, Active cx l →
        if (getFibre cx.grp l).wb = 0 then (getFibre g l).live = false
        else LaneAt g l ((vGet cx.grp l 24).setWidth 32) ∧ (getFibre g l).wb = (getFibre cx.grp l).wb - 8)) ∧
    (∀ p n t a, directTarget s cx t = some a →
      regsPending cx.grp (maskOf ((lanesOf cx.path.mask).filter (selected cx p n))) (List.range 32) = false →
      Lands (exec (.fork p n t) s) cx.gk (fun _ g =>
        let pairs := ((lanesOf cx.path.mask).filter (selected cx p n)).zip (freeLanes cx.grp)
        (∀ q, q ∈ pairs → getFibre g q.2 = forkChild cx.grp p.val q.1 ∧ LaneAt g q.2 a ∧ predByte g q.1 p.val = 0xFF)
        ∧ (∀ l, Active cx l → LaneAt g l (nextClause cx.path))
        ∧ (∀ l, Active cx l → selected cx p n l = true → (∀ q, q ∈ pairs → q.1 ≠ l) → predByte g l p.val = 0))) ∧
    (∀ sel, Lands (exec (.fend sel) s) cx.gk (fun _ g => ∀ l, Active cx l →
      if (selLanes cx sel).contains l then (getFibre g l).live = false else LaneAt g l (nextClause cx.path))) ∧
    (∀ sel n, (∀ l, l ∈ selLanes cx sel → n.toNat < (getFibre cx.grp l).rejoin.length) →
      Lands (exec (.brk sel n) s) cx.gk (fun _ g => ∀ l, Active cx l →
        if (selLanes cx sel).contains l then (getFibre g l).rejoin = (getFibre cx.grp l).rejoin.drop n.toNat
          ∧ ∃ a, (getFibre g l).rejoin.head? = some a ∧ LaneAt g l a
        else LaneAt g l (nextClause cx.path))) ∧
    (∀ sel, Lands (exec (.demote sel) s) cx.gk (fun _ g => ∀ l, Active cx l → LaneAt g l (nextClause cx.path)
      ∧ (getFibre g l).lstat = if (selLanes cx sel).contains l then (getFibre cx.grp l).lstat ||| 0x10000 else (getFibre cx.grp l).lstat)) ∧
    (∀ t a, directTarget s cx t = some a → (∀ l, Active cx l → (getFibre cx.grp l).rejoin.length < 16) →
      Lands (exec (.rejoin t) s) cx.gk (fun _ g => ∀ l, Active cx l → LaneAt g l (nextClause cx.path)
        ∧ (getFibre g l).rejoin = a :: (getFibre cx.grp l).rejoin))

/-- R203, R346, R351 to R355, R358: the precise traps of control words: an indirect transfer of which every lane fails a check, or some
lanes, which trap while the others go on; a full and a short rejoin stack; a window that a call cannot raise, by its limit or for want of
resident registers, or that a return cannot lower; a target that is no overlay. The trapping lanes' word has no effect. WINLIMIT before SPILL
is the model's choice (log 53). -/
def Obligations.ControlTraps : Prop :=
  ∀ (s : State) (cx : Ctx), ctxOf s = some cx →
    let fails := fun (lnd : Bool) (v : Nat → W64) =>
      raiseTrap cx (mkTrap cx.path 4 0 0 cx.path.mask ((lanesOf cx.path.mask).map (fun l => (l, indirectCode s cx.grp.core lnd (v l))))) s
    let windowTrap := fun (cause : Nat) (short : Nat → Prop) (t : State) => ∃ m, t = raiseTrap cx (mkTrap cx.path cause 0 0 m []) s ∧
      ∀ l, m.getLsbD l = true ↔ Active cx l ∧ short l
    let limit := fun (l : Nat) => 65536 < (getFibre cx.grp l).wb.toNat + 40
    let spills := fun (l : Nat) => (getFibre cx.grp l).low.toNat + cx.grp.depth < (getFibre cx.grp l).wb.toNat + 40
    let under := fun (l : Nat) => (getFibre cx.grp l).wb ≠ 0 ∧ (getFibre cx.grp l).wb.toNat < (getFibre cx.grp l).low.toNat + 8
    (∀ a, pendingOn (regRegs a) cx = false → cx.path.mask ≠ 0 →
      (∀ l, Active cx l → indirectCode s cx.grp.core true (regVal cx a l) ≠ 0) →
      exec (.jmp a) s = .next (fails true (regVal cx a)) ∧
      (callPending cx = false → callCheck cx = none → exec (.calli a) s = .next (fails true (regVal cx a)))) ∧
    (∀ a l0 l1, pendingOn (regRegs a) cx = false → let code := fun l => indirectCode s cx.grp.core true (regVal cx a l)
      Active cx l0 → code l0 = 0 → Active cx l1 → code l1 ≠ 0 →
      Lands (exec (.jmp a) s) cx.gk (fun _ g => ∀ l, Active cx l →
        if code l = 0 then LaneAt g l ((regVal cx a l).setWidth 32)
        else ∃ p t, p ∈ g.paths ∧ p.mask.getLsbD l = true ∧ p.pc = cx.path.pc ∧ p.wait = .trap t ∧ t.cause = 4 ∧ tget t.lcause l = some (code l)
          ∧ ∀ m, p.mask.getLsbD m = true ↔ Active cx m ∧ code m ≠ 0)) ∧
    (pendingOn [24] cx = false → cx.path.mask ≠ 0 →
      (∀ l, Active cx l → (getFibre cx.grp l).wb ≠ 0 ∧ (getFibre cx.grp l).low.toNat + 8 ≤ (getFibre cx.grp l).wb.toNat
        ∧ indirectCode s cx.grp.core false (vGet cx.grp l 24) ≠ 0) →
      exec .ret s = .next (fails false (fun l => vGet cx.grp l 24))) ∧
    (pendingOn [24] cx = false → (∃ l, Active cx l ∧ under l) → Goes (exec .ret s) (windowTrap 6 under)) ∧
    (∀ t a, directTarget s cx t = some a → (∃ l, Active cx l ∧ 16 ≤ (getFibre cx.grp l).rejoin.length) →
      Goes (exec (.rejoin t) s) (Traps s cx 8 1)) ∧
    (∀ sel n, (∃ l, l ∈ selLanes cx sel ∧ (getFibre cx.grp l).rejoin.length < n.toNat + 1) →
      Goes (exec (.brk sel n) s) (Traps s cx 8 2)) ∧
    (∀ t a, directTarget s cx t = some a → callPending cx = false →
      ((∃ l, Active cx l ∧ limit l) → Goes (exec (.call t) s) (Traps s cx 7 0)) ∧
      ((∀ l, Active cx l → ¬ limit l) → (∃ l, Active cx l ∧ spills l) → Goes (exec (.call t) s) (windowTrap 5 spills))) ∧
    (∀ a, pendingOn (regRegs a) cx = false → callPending cx = false →
      ((∃ l, Active cx l ∧ limit l) → Goes (exec (.calli a) s) (Traps s cx 7 0)) ∧
      ((∀ l, Active cx l → ¬ limit l) → (∃ l, Active cx l ∧ spills l) → Goes (exec (.calli a) s) (windowTrap 5 spills))) ∧
    (∀ t, directTarget s cx t = none → Goes (exec (.bra t) s) (Traps s cx 1 5))

/-- R363 to R366, R374: LOOP starts its body or, with a count of 0, goes past it; LEND steps the uniform registers and goes to the next
pass or leaves the loop; YIELD holds the path for n cycles. -/
def Obligations.LoopsAndYield : Prop :=
  ∀ (s : State) (cx : Ctx), ctxOf s = some cx →
    (∀ ncl count inc, pendingOn ((match count with | .s r => [64 + r.val] | .k _ => []) ++ (match inc with | some r => [64 + r.val] | none => [])) cx = false →
      let c := match count with | .s r => (sGet cx.grp r.val).toNat % 2 ^ 32 | .k n => n.val
      let i := match inc with | some r => sGet cx.grp r.val | none => 0
      Lands (exec (.loop ncl count inc) s) cx.gk (fun _ g => ∀ l, Active cx l →
        if c = 0 then ∀ ws ls, fetchAt s cx.grp.core cx.path.pc = .code ws ls →
            LaneAt g l (inOverlay cx.path.pc (skipClauses ws ncl.toNat (wixOf (nextClause cx.path))))
        else LaneAt g l (nextClause cx.path) (fun p =>
          p.loop = some { ncl := ncl.toNat, pass := 0, count := c, inc := i, body := nextClause cx.path, captured := [] }))) ∧
    (∀ lp, cx.path.loop = some lp →
      pendingOn ((if lp.inc.getLsbD 15 then [64 + bitsOf lp.inc.toNat 16 5] else [])
        ++ (if lp.inc.getLsbD 21 then [64 + bitsOf lp.inc.toNat 22 5] else [])) cx = false →
      Lands (exec .lend s) cx.gk (fun _ g =>
        (∀ l, Active cx l → if lp.pass + 1 < lp.count then LaneAt g l lp.body (fun p => p.loop = some { lp with pass := lp.pass + 1 })
          else LaneAt g l (nextClause cx.path) (fun p => p.loop = none))
        ∧ ∀ r, sGet g r = sGet (loopStep (loopStep cx.grp lp.inc 15 16 32) lp.inc 21 22 48) r)) ∧
    (∀ n, Lands (exec (.yield n) s) cx.gk (fun _ g => ∀ l, Active cx l →
      LaneAt g l (nextClause cx.path) (fun p => if n = 0 then p.yielded = true ∧ p.wait = .ready else p.wait = .yield n.toNat)))

/-- R368 to R370, R373, R375, R376: BAR arrives, and its phase completes when every other member fibre and every joined command has arrived, and
not before; MWAIT ends at once or waits; MARM arms the
group's monitor on a line of HBM; LAUNCH queues a header or is refused; CWSET changes the condition word and returns the old one. -/
def Obligations.WaitsAndGraphs : Prop :=
  ∀ (s : State) (cx : Ctx), ctxOf s = some cx →
    (∀ (k : Fin 16) s1 b l0, releaseAll s cx.gk s.nextId 3 cx.path.mask = (s1, true) → ctxOf s1 = some cx → s1.blocks = s.blocks →
      (s1.groups.map Prod.fst).Pairwise (· < ·) → tget s.blocks cx.grp.block = some b → Active cx l0 → (liveMask cx.grp).getLsbD l0 = true →
      let slot := barOf s cx.grp.block k.val
      let others := ∀ q, q ∈ blockGroups s1 cx.grp.block → ∀ l, (liveMask q.2).getLsbD l = true →
        (q.1 = cx.gk ∧ Active cx l) ∨ (getFibre q.2 l).arrived.getLsbD k.val = true
      Lands (exec (.bar k) s) cx.gk (fun u g => (∀ l, Active cx l → LaneAt g l (nextClause cx.path)) ∧
        (slot.joined = [] → others → (barOf u cx.grp.block k.val).phase = slot.phase + 1
          ∧ ∀ l, Active cx l → (getFibre g l).arrived.getLsbD k.val = false) ∧
        (slot.joined ≠ [] ∨ ¬ others → barOf u cx.grp.block k.val = slot
          ∧ ∀ l, Active cx l → (getFibre g l).arrived.getLsbD k.val = true))) ∧
    (∀ d a c, pendingOn [64 + d.val, 64 + a.val] cx = false → readsOpen cx.grp s.nextId cx.path.mask = false → monCode cx.grp.monitor = some c →
      Lands (exec (.mwait d a) s) cx.gk (fun _ g => sGet g d.val = BitVec.ofNat 64 c ∧ g.monitor = .none
        ∧ ∀ l, Active cx l → LaneAt g l (nextClause cx.path) (fun p => p.wait = .ready))) ∧
    (∀ (d a : Fin 32), pendingOn [64 + d.val, 64 + a.val] cx = false → readsOpen cx.grp s.nextId cx.path.mask = false → monCode cx.grp.monitor = none →
      Lands (exec (.mwait d a) s) cx.gk (fun _ g => ∀ l, Active cx l → LaneAt g l (nextClause cx.path) (fun p =>
        p.wait = .mwait d.val (if sGet cx.grp a.val = 0 then none else some (s.time.now + (sGet cx.grp a.val).toNat))))) ∧
    (∀ (d a : Fin 32) s1 e, pendingOn [64 + d.val, 64 + a.val] cx = false →
      xlateNow s (some cx.grp.core) (dieOfCore cx.grp.core) (sGet cx.grp a.val).toNat = (s1, .ok e) →
      daCheck s1 e (sGet cx.grp a.val).toNat false false = none → tgtOf s1 (daOf e (sGet cx.grp a.val).toNat) = .hbm →
      ctxOf s1 = some cx →
      Lands (exec (.marm d a) s) cx.gk (fun _ g => sGet g d.val = 0
        ∧ g.monitor = .armed (lineOf (localOf (daOf e (sGet cx.grp a.val).toNat))) ∧ ∀ l, Active cx l → LaneAt g l (nextClause cx.path))) ∧
    (∀ (d a : Fin 32), pendingOn [64 + d.val, 64 + a.val] cx = false →
      let va := sGet cx.grp a.val
      let bad := va.toNat % 128 ≠ 0 ∨ 2 ^ 57 ≤ va.toNat ∨ selLh s = 0
      (bad → Lands (exec (.launch d a) s) cx.gk (fun u g => sGet g d.val = 0x8000000000000001 ∧ u.esc = s.esc)) ∧
      (¬ bad → 16 ≤ s.esc.pending.length → Lands (exec (.launch d a) s) cx.gk (fun u g => sGet g d.val = 0x8000000000000002 ∧ u.esc = s.esc)) ∧
      (∀ s1, ¬ bad → s.esc.pending.length < 16 → releaseAll s cx.gk s.nextId 4 cx.path.mask = (s1, true) → ctxOf s1 = some cx →
        Lands (exec (.launch d a) s) cx.gk (fun u g => sGet g d.val = 0 ∧ u.esc.pending = s1.esc.pending ++ [va]))) ∧
    (∀ op (d a : Fin 32), pendingOn [64 + d.val, 64 + a.val] cx = false →
      ∀ b x, tget s.blocks cx.grp.block = some b → tget s.esc.insts b.inst = some x →
      Lands (exec (.cwset op d a) s) cx.gk (fun u g => sGet g d.val = x.cw ∧ ∃ y, tget u.esc.insts b.inst = some y ∧
        y.cw = (match op with
          | .set => sGet cx.grp a.val
          | .add => x.cw + sGet cx.grp a.val
          | .or => x.cw ||| sGet cx.grp a.val
          | .and => x.cw &&& sGet cx.grp a.val)))

/-- R19, R22, R31, R34: a clause whose header is legal, whose conditions hold, whose octets are free and whose turn it is begins; NOP changes nothing but the
path's place; a legal prefix is kept for the next word; UDF is the illegal-instruction trap. -/
def Obligations.ClauseWords : Prop :=
  ∀ (s : State) (cx : Ctx), ctxOf s = some cx →
    (∀ count eng wsb wte wt wbe wb yld lnd lcp ws ls,
      let h := (encodeNat (.clauseHeader count eng wsb wte wt wbe wb yld lnd lcp)).getD 0
      cx.path.widx = 0 → fetchPath s cx.grp.core cx.path = .code ws ls → codeAt ws (wixOf cx.path.pc) = h → headerOk ws (wixOf cx.path.pc) = true →
      pathFree cx.grp cx.path = true → (cx.path.lndCheck &&& cx.path.mask ≠ 0 → lnd = true) → clauseWaits s cx.grp cx.path ws = false →
      octetsFree s cx.gk cx.grp cx.path = true → takesTurn s cx.gk cx.grp cx.path = true →
      Goes (exec (.clauseHeader count eng wsb wte wt wbe wb yld lnd lcp) s) (fun t => ∃ p, pathIn t cx.gk cx.lane = some p
        ∧ p.pc = cx.path.pc ∧ p.widx = 1 ∧ p.hdr = h ∧ p.y0 = none ∧ p.y1 = none ∧ p.y2 = none ∧ p.pfx = none)) ∧
    Goes (exec .nop s) (fun t => WordFrame s t cx (fun _ => none) none (fun _ => []) (fun _ => false)
      ∧ counter t cx.grp.core 1 = counter s cx.grp.core 1 + 1 ∧ (midClause cx → ∃ p, pathIn t cx.gk cx.lane = some p ∧ p.widx = cx.path.widx + 1)) ∧
    (∀ m e r z c ce th nw, nextWord s cx = some nw →
      let w := (encodeNat (.pfx m e r z c ce th)).getD 0
      pfxLegal (pfxOfNat w) nw = true →
      Goes (exec (.pfx m e r z c ce th) s) (fun t => ∃ p, pathIn t cx.gk cx.lane = some p ∧ p.pfx = some (BitVec.ofNat 32 w) ∧ p.widx = cx.path.widx + 1)) ∧
    (∀ u, Goes (exec (.udf u) s) (Traps s cx 1 2))

/-- R332, R361, R373, R374: the events of paths and groups that are due take effect: PATH_AGED counts, MWAIT_TIMEOUT and YIELD_EXPIRY make the
path ready, GROUP_END takes the group off its core. -/
def Obligations.PathEvents : Prop :=
  ∀ (s : State) (g l : Nat) (x : Group) (p : Path), tget s.groups g = some x →
    (pathOf x l = some p → p.aged = false → 1024 ≤ p.age →
      Goes (exec (.pathAged g l) s) (fun t => counter t x.core 5 = counter s x.core 5 + 1 ∧ ∃ q, pathIn t g l = some q ∧ q.aged = true)) ∧
    (∀ d T, pathOf x l = some p → p.wait = .mwait d (some T) → T ≤ s.time.now →
      Goes (exec (.mwaitTimeout g l) s) (fun t => ∃ u y, t = boundary (settleMonitor (tidyMonitors u) g) g
        ∧ tget u.groups g = some y ∧ sGet y d = 1 ∧ y.monitor = .none ∧ pathOf y l = some { p with wait := .ready })) ∧
    (pathOf x l = some p → p.wait = .yield 0 → p.widx = 0 →
      Lands (exec (.yieldExpiry g l) s) g (fun _ y => LaneAt y l p.pc (fun q => q.wait = .ready))) ∧
    (liveMask x = 0 → x.words.any wordOpen = false → (∀ r, r ∈ (getCluster s (clusterOf x.core)).mat → r.group ≠ g) →
      Goes (exec (.groupEnd g) s) (fun t => tget t.groups g = none ∧ ∀ b, tget t.blocks x.block = some b → g ∉ b.groups))

/-! ## Traps and system words (chapter 15) -/

/-- R392: TRAP n and BKPT n raise SOFTWARE and BREAK with INFO n, whenever a path issues them; the path resumes at the next clause. TRET at
depth 0 is illegal with sub-cause CLASS, and TRET.fail ends the block FATAL. -/
def Obligations.SoftwareTraps : Prop :=
  ∀ (s : State) (cx : Ctx) (n : BitVec 9), ctxOf s = some cx →
    (cx.grp.tdepth = 0 → Goes (exec .tret s) (Traps s cx 1 7)) ∧
    (∀ b, tget s.blocks cx.grp.block = some b →
      Goes (exec .tretFail s) (fun t => ∃ c, tget t.blocks cx.grp.block = some c ∧ c.fatal = true)) ∧
    Lands (exec (.trap n) s) cx.gk (fun _ g => ∀ l, Active cx l → LaneAt g l (nextClause cx.path) (fun p =>
      ∃ t, p.wait = .trap t ∧ t.cause = 10 ∧ t.info = n.setWidth 64 ∧ t.lanes = cx.path.mask)) ∧
    Lands (exec (.bkpt n) s) cx.gk (fun _ g => ∀ l, Active cx l → LaneAt g l (nextClause cx.path) (fun p =>
      ∃ t, p.wait = .trap t ∧ t.cause = 11 ∧ t.info = n.setWidth 64 ∧ t.lanes = cx.path.mask))

/-- R160, R379, R380, R382: a trap of a settled group is taken once its buffered stores have drained: with the frame written, its address is saved, the trap depth rises by one and
one path of every live fibre stands at TVEC; at depth 2 or with TFBASE.EN = 0 the block ends FATAL. -/
def Obligations.TrapEntry : Prop :=
  ∀ (s : State) (gk : Nat) (g : Group), tget s.groups gk = some g → groupTrapping g = true → groupSettled s gk g = true →
    (∀ b, tget s.blocks g.block = some b → b.fatal = false) → mbAny s g.core (fun x => x.groups.contains gk) = false →
    let d := sbDrainAll s g.core (fun x => x.groups.contains gk)
    (d.2 = false → Goes (exec (.trapEntry gk) s) (fun t => t.groups = d.1.groups ∧ t.blocks = d.1.blocks)) ∧
    (∀ s1 v, d.2 = true → g.tdepth < 2 → s.mgmt.tfbase.getLsbD 0 = true → g.frameOut = false →
      writeParts d.1 g.core (frameAddr s gk g.tdepth).toNat (frameParts s g) = (s1, .ok v) → s1.fab.tx = d.1.fab.tx →
      (∀ t, t ∈ s1.fab.tx → t.origin ≠ .frame gk) → tget s1.groups gk = some g →
      Goes (exec (.trapEntry gk) s) (fun t => t.mem = s1.mem ∧ ∃ y, tget t.groups gk = some y ∧ y.tdepth = g.tdepth + 1
        ∧ (if g.tdepth = 0 then y.frame0 else y.frame1) = frameAddr s gk g.tdepth
        ∧ ∃ p, y.paths = [p] ∧ p.mask = liveMask g ∧ p.pc = g.tvec ∧ p.widx = 0 ∧ p.wait = .ready)) ∧
    (∀ b, d.2 = true → tget d.1.blocks g.block = some b → 2 ≤ g.tdepth ∨ s.mgmt.tfbase.getLsbD 0 = false →
      Goes (exec (.trapEntry gk) s) (fun t => ∃ c, tget t.blocks g.block = some c ∧ c.fatal = true))

/-- R202, R384, R392: TRET in a handler whose frame reads back well-formed restores the resident ones of v24 to v31, the predicates and LSTAT of every fibre and s24 to
s31, puts the paths of the frame in place and lowers the trap depth. -/
def Obligations.TrapReturn : Prop :=
  ∀ (s : State) (cx : Ctx), ctxOf s = some cx →
    (∀ s1 hdr ps ls recs g, cx.grp.tdepth ≠ 0 → cx.grp.words.any wordOpen = false → regsPending cx.grp (liveMask cx.grp) tretRegs = false →
      readFrame s cx.grp (if cx.grp.tdepth = 1 then cx.grp.frame0 else cx.grp.frame1) = (s1, .ok hdr ps ls recs) →
      tget s1.groups cx.gk = some g → framePathsOk (liveMask g) hdr ps = true →
      ∃ u y, exec .tret s = .next (boundary (settleMonitor (settleGroup u cx.gk) cx.gk) cx.gk) ∧ tget u.groups cx.gk = some y
        ∧ y.tdepth = g.tdepth - 1 ∧ (∀ m, m < 8 → sGet y (24 + m) = BitVec.ofNat 64 (bitsOf hdr (1024 + 64 * m) 64))
        ∧ (∀ l, (liveMask g).getLsbD l = true → (BitVec.ofNat 64 (bitsOf hdr 64 64)).getLsbD l = true →
            (∀ m, m < 8 → 32 ≤ g.depth → (getFibre g l).wb.toNat + 24 + m < (getFibre g l).low.toNat + g.depth → vGet y l (24 + m) = BitVec.ofNat 64 (bitsOf (ls.getD l 0) (256 + 64 * m) 64))
            ∧ (getFibre y l).pred = BitVec.ofNat 64 (bitsOf (ls.getD l 0) 768 64)
            ∧ (getFibre y l).lstat = BitVec.ofNat 64 (bitsOf (ls.getD l 0) 832 64) &&& 0x1031F)
        ∧ ∀ q, q ∈ ps → liveMask g &&& BitVec.ofNat 64 (bitsOf q 64 64) ≠ 0 → ∃ p, p ∈ y.paths
            ∧ p.mask = liveMask g &&& BitVec.ofNat 64 (bitsOf q 64 64) ∧ p.pc = BitVec.ofNat 32 (bitsOf q 0 32) ∧ p.widx = bitsOf q 32 4)

/-- R207, R215, R219, R345, R393, R394, Tables 9.4 to 9.7 and 15.11: what RDSR, RDTIME and PERF write, and what WRSR writes to each
register that a program can write. -/
def Obligations.StatusRegisters : Prop :=
  ∀ (s : State) (cx : Ctx), ctxOf s = some cx →
    (∀ (r : Fin 32) (idx : BitVec 8), pendingOn [r.val] cx = false → Goes (exec (.rdsr (.v r) idx) s) (fun t => ∀ l, Active cx l →
      let f := getFibre cx.grp l
      vReg t cx.gk l r.val =
        if idx = 0 then f.lstat
        else if idx = 1 then gstatOf cx.grp
        else if idx = 2 then BitVec.ofNat 64 (f.wb.toNat + f.low.toNat * 2 ^ 16 + cx.grp.depth * 2 ^ 32)
        else if idx = 3 then f.spilla &&& 0xFFFFFFFFFFFFFFF8
        else if idx = 4 then (getCore s cx.grp.core).tags
        else if idx = 5 then cwOf s cx.grp
        else if idx = 8 then tstatOf cx.grp
        else if idx = 9 then cx.grp.tvec.setWidth 64
        else if idx = 10 then tframeOf s cx.gk cx.grp
        else 0)) ∧
    (∀ (r : Fin 32) (idx : BitVec 8), pendingOn [64 + r.val] cx = false → idx ≠ 0 → idx ≠ 2 → idx ≠ 3 →
      Goes (exec (.rdsr (.s r) idx) s) (fun t => sReg t cx.gk r.val = groupReg s cx idx.toNat)) ∧
    (∀ (r : Fin 32), pendingOn [64 + r.val] cx = false → Goes (exec (.rdtime (.s r)) s) (fun t =>
      sReg t cx.gk r.val = BitVec.ofNat 64 (getCore s cx.grp.core).timeCopy)) ∧
    (∀ (r : Fin 32), pendingOn [r.val] cx = false → Goes (exec (.rdtime (.v r)) s) (fun t => ∀ l, Active cx l →
      vReg t cx.gk l r.val = BitVec.ofNat 64 (getCore s cx.grp.core).timeCopy)) ∧
    (∀ (r : Fin 32) (e : Fin 8), pendingOn [64 + r.val] cx = false → Goes (exec (.perf (.s r) e) s) (fun t =>
      sReg t cx.gk r.val = counter s cx.grp.core e.val)) ∧
    (∀ (r : Fin 32) (e : Fin 8), pendingOn [r.val] cx = false → Goes (exec (.perf (.v r) e) s) (fun t => ∀ l, Active cx l →
      vReg t cx.gk l r.val = counter s cx.grp.core e.val)) ∧
    (∀ a, pendingOn (srcRegs a) cx = false → Goes (exec (.wrsr a 0) s) (fun t => ∀ l, Active cx l →
      lstatOf t cx.gk l = ((getFibre cx.grp l).lstat &&& ~~~(0x31F : W64)) ||| (readSrc cx .int a l &&& 0x31F))) ∧
    (∀ a, pendingOn (srcRegs a) cx = false → (∀ l, Active cx l → winbaseOk cx.grp (readSrc cx .int a l) = true) →
      Goes (exec (.wrsr a 2) s) (fun t => ∃ y, tget t.groups cx.gk = some y ∧ ∀ l, Active cx l →
        (getFibre y l).wb = (readSrc cx .int a l).setWidth 16 ∧ (getFibre y l).low = ((readSrc cx .int a l) >>> 16).setWidth 16)) ∧
    (∀ a, pendingOn (srcRegs a) cx = false → Goes (exec (.wrsr a 3) s) (fun t => ∃ y, tget t.groups cx.gk = some y ∧ ∀ l, Active cx l →
      (getFibre y l).spilla = readSrc cx .int a l &&& 0xFFFFFFFFFFFFFFF8)) ∧
    (∀ a, pendingOn (srcRegs a) cx = false → (∀ r, a ≠ .v r) → Goes (exec (.wrsr a 9) s) (fun t => ∃ y, tget t.groups cx.gk = some y
      ∧ y.tvec = (readSrc cx .int a (lowLane cx.path.mask) &&& 0xFFFFFFFC).setWidth 32)) ∧
    (∀ a b x, pendingOn (srcRegs a) cx = false → (∀ r, a ≠ .v r) → tget s.blocks cx.grp.block = some b → tget s.esc.insts b.inst = some x →
      Goes (exec (.wrsr a 5) s) (fun t => ∃ y, tget t.esc.insts b.inst = some y ∧ y.cw = readSrc cx .int a (lowLane cx.path.mask))) ∧
    (∀ a idx, pendingOn (srcRegs a) cx = false → (∀ r, a ≠ .v r) → idx ∉ [0, 2, 3, 5, 9] →
      Goes (exec (.wrsr a idx) s) (fun t => WordFrame s t cx (fun _ => none) none (fun _ => []) (fun _ => false)))

/-- R393: what RDSR, RDTIME and PERF leave alone. -/
def Obligations.StatusFrame : Prop :=
  ∀ (s t : State) (cx : Ctx) (i : Instr) (d : Reg), ctxOf s = some cx →
    (match i with | .rdsr x _ | .rdtime x | .perf x _ => d = x | _ => False) → exec i s = .next t →
    match d with
    | .v r => WordFrame s t cx (dstSlot cx (.v r)) none (fun _ => []) (fun _ => false)
    | .s r => WordFrame s t cx (fun _ => none) (some r.val) (fun _ => []) (fun _ => false)

/-! ## Matrix engine and small matrices (chapter 11) -/

/-- R268, R271, R276, R277, R281: MQA, MQAX and MQAI post a request: with their operands legal, no register pending, room in the table
and B readable, the cluster's table gets one request with the result of every row, and the registers named become pending; with no
octet taking part they only clear what MZ clears. -/
def Obligations.MatrixWords : Prop :=
  ∀ (i : Instr) (d a : Fin 32) (b : MatB) (kd : MatKind) (s : State) (cx : Ctx) (c : MatC), matSpec i = some (d, a, b, kd) → ctxOf s = some cx →
    regsPending cx.grp cx.path.mask (matRegsOf (pfxOf cx) d a b kd) = false → matC kd (pfxOf cx) d.val = some c →
    d.val % 4 = 0 → a.val % 4 = 0 → (∀ r, b = .v r → r.val % 4 = 0) →
    let k := clusterOf cx.grp.core
    (partLanes cx = [] → Goes (exec i s) (fun t => t.clusters = s.clusters ∧ ∀ l, Active cx l → (pfxOf cx).mz = true →
      ∀ j, j < 4 → vReg t cx.gk l (d.val + j) = 0)) ∧
    (∀ bv pois, partLanes cx ≠ [] → (getCluster s k).mat.length < 32 → ((getCluster s k).mat.filter (·.group = cx.gk)).length < 4 →
      BIs s cx b kd bv pois → (∀ r, b = .tile r → tileWaits cx.grp s.nextId cx.path.mask = false) →
      Goes (exec i s) (fun t => (∃ r, (getCluster t k).mat = (getCluster s k).mat ++ [r] ∧ r.id = s.nextId ∧ r.core = cx.grp.core
          ∧ r.group = cx.gk ∧ r.granted = false ∧ r.poison = pois
          ∧ r.outs = ((partLanes cx).map (fun l => matRow cx kd l d.val a.val bv c (if kd = .mx4 then some (pfxOf cx).c else none))).flatten)
        ∧ ∃ y, tget t.groups cx.gk = some y ∧ ∀ l j, Active cx l → j < 4 →
          ({ uni := false, idx := logicalOf (getFibre cx.grp l) (d.val + j), mask := laneBit l, id := s.nextId } : PendReg) ∈ y.pend))

/-- R166, R276, R281: a matrix word whose D is no multiple of 4, or whose accumulator input is no legal operand, is the OPERAND trap; one
with a tile stalls while an earlier scratchpad word, FENCE or acquiring atomic of its group is still to take effect; one whose tile cannot be
read lists the lanes that take part, helper lanes among them, with the sub-cause and the tile's place, in the form of R117: what that record
holds is the model's reading (log 55). -/
def Obligations.MatrixTraps : Prop :=
  ∀ (i : Instr) (d a : Fin 32) (b : MatB) (kd : MatKind) (s : State) (cx : Ctx), matSpec i = some (d, a, b, kd) → ctxOf s = some cx →
    regsPending cx.grp cx.path.mask (matRegsOf (pfxOf cx) d a b kd) = false →
    (d.val % 4 ≠ 0 ∨ matC kd (pfxOf cx) d.val = none → Goes (exec i s) (Traps s cx 1 Illegal.operand.code)) ∧
    (∀ c r, matC kd (pfxOf cx) d.val = some c → d.val % 4 = 0 → a.val % 4 = 0 → b = .tile r → partLanes cx ≠ [] →
      tileWaits cx.grp s.nextId cx.path.mask = true → exec i s = .next (stallAt cx s)) ∧
    (∀ c r e, matC kd (pfxOf cx) d.val = some c → d.val % 4 = 0 → a.val % 4 = 0 → b = .tile r → partLanes cx ≠ [] →
      tileWaits cx.grp s.nextId cx.path.mask = false →
      (getCluster s (clusterOf cx.grp.core)).mat.length < 32 →
      ((getCluster s (clusterOf cx.grp.core)).mat.filter (·.group = cx.gk)).length < 4 →
      readTile s cx (sGet cx.grp r.val) (if kd = .mx4 then 272 else 256) = .inl e →
      ∃ u y w, exec i s = .next (advance cx u) ∧ tget u.groups cx.gk = some y ∧ y.words = cx.grp.words ++ [w] ∧ w.op = .tile
        ∧ w.mask = cx.path.mask ∧ w.caddr = cx.path.pc ∧ w.lanes = (partLanes cx).map (fun l =>
            (l, { st := .listed e 0, va := sGet cx.grp r.val, d0 := 0, d1 := 0, dlog := logicalOf (getFibre cx.grp l) d.val })))

/-- R277: what a matrix word leaves alone: every byte of memory, every uniform register, predicate and LSTAT, every register but those
that MZ clears in masked lanes when no octet takes part or its tile cannot be read; its results come with MATRIX_PASS_END. -/
def Obligations.MatrixFrame : Prop :=
  ∀ (i : Instr) (d a : Fin 32) (b : MatB) (kd : MatKind) (s t : State) (cx : Ctx), matSpec i = some (d, a, b, kd) → ctxOf s = some cx →
    exec i s = .next t → (∀ x, memAt t x = memAt s x) ∧ t.stackTbl = s.stackTbl ∧ t.esc = s.esc ∧ t.mgmt = s.mgmt ∧
      RegsKept s t cx.gk (fun l j => (partLanes cx = [] ∨ ∃ r e, b = .tile r
          ∧ readTile s cx (sGet cx.grp r.val) (if kd = .mx4 then 272 else 256) = .inl e) ∧ (pfxOf cx).mz = true ∧ Active cx l ∧
        elemOn cx l 0 = false ∧ ∃ q, q < 4 ∧ j = slotOf cx.grp (logicalOf (getFibre cx.grp l) (d.val + q)))

/-- R269, R270, R272, R277, R282, R283: a grant goes to a request that is the oldest of its group; a request that has waited 256 cycles
is aged; a pass writes its results, or NaN or 0x80000000 in every element after a storage error, frees its registers and leaves the
table; MSYNC completes when the group has no request left. -/
def Obligations.MatrixEvents : Prop :=
  ∀ (s : State) (c : Nat),
    (∀ r, nextReq s c = some r → r ∈ (getCluster s c).mat ∧ r.granted = false
      ∧ (∀ q, q ∈ (getCluster s c).mat → q.granted = false → q.group = r.group → r.id ≤ q.id)
      ∧ ((∀ g, g ∈ s.groups → clusterOf g.2.core = c → ∀ w, w ∈ g.2.words → w.op = .tile → w.replay = true → wordOpen w = false) → Goes (exec (.matrixGrant c) s) (fun t => (getCluster t c).mat = (getCluster s c).mat.map (fun q => if q.id = r.id then { q with granted := true } else q)
        ∧ t.groups = s.groups ∧ t.mem = s.mem))) ∧
    (∀ id r, (getCluster s c).mat.find? (·.id = id) = some r → r.granted = false → r.aged = false → r.posted + 256 ≤ (counter s r.core 0).toNat →
      Goes (exec (.matrixRequestAged c id) s) (fun t =>
        (getCluster t c).mat = (getCluster s c).mat.map (fun q => if q.id = id then { q with aged := true } else q))) ∧
    (∀ id r g e, (getCluster s c).mat.find? (·.id = id) = some r → r.granted = true → tget s.groups r.group = some g →
      ((r.outs.map (fun x => (x.1, slotOf g x.2.1))) ++ (r.zeros.map (fun x => (x.1, slotOf g x.2)))).Nodup →
      Goes (exec (.matrixPassEnd c id e) s) (fun t => t.mem = s.mem ∧ (getCluster t c).mat = (getCluster s c).mat.filter (·.id ≠ id)
        ∧ (∀ x, x ∈ r.outs → slotVal t r.group x.1 (slotOf g x.2.1) =
            if r.poison || e then (if r.int then 0x8000000080000000 else 0x7FC000007FC00000) else x.2.2)
        ∧ (∀ z, z ∈ r.zeros → slotVal t r.group z.1 (slotOf g z.2) = 0)
        ∧ RegsKept s t r.group (fun l j => (∃ x, x ∈ r.outs ∧ l = x.1 ∧ j = slotOf g x.2.1) ∨ ∃ z, z ∈ r.zeros ∧ l = z.1 ∧ j = slotOf g z.2)
        ∧ ∃ y, tget t.groups r.group = some y ∧ (∀ p, p ∈ y.pend ↔ p ∈ g.pend ∧ p.id ≠ id) ∧ ((r.poison || e) = true → y.imp.isSome = true))) ∧
    (∀ cx, ctxOf s = some cx → (∀ r, r ∈ (getCluster s (clusterOf cx.grp.core)).mat → r.group ≠ cx.gk) →
      Goes (exec .msync s) (fun t => WordFrame s t cx (fun _ => none) none (fun _ => []) (fun _ => false)
        ∧ (midClause cx → ∃ p, pathIn t cx.gk cx.lane = some p ∧ p.widx = cx.path.widx + 1)))

/-- R284 to R289: MTF and MTFR start a fetch of the lines that their block names, MTFR after PROGRESS; a line that arrives puts its bytes at
its place in the staging area; another device's code or poison stops the fetch, and its last line ends it; a fetch that has ended writes
PROGRESS, the lowest line that has not landed, STATUS, FCODE and FADDR into its block and gives its register its value. -/
def Obligations.TileFetch : Prop :=
  (∀ (s s1 : State) (cx : Ctx) (d a : Fin 32) (r : Bool) (blk : Nat), ctxOf s = some cx → pendingOn [64 + d.val, 64 + a.val] cx = false →
    (getCore s cx.grp.core).fetches.length < 8 → storesOpen cx.grp s.nextId (BitVec.allOnes 64) = false → memGate s cx.gk = true →
    (sGet cx.grp a.val).toNat % 64 = 0 →
    spanRead s (some cx.grp.core) (dieOfCore cx.grp.core) (sGet cx.grp a.val).toNat 64 = (s1, .ok blk) →
    mtfBad s1 cx.grp.core cx.grp.block blk r = false → (r = true → mtfProg blk < mtfLines blk) →
    (∀ f, f ∈ (getCore s1 cx.grp.core).fetches → f.id ≠ s1.nextId) →
    Goes (exec (if r then .mtfr d a else .mtf d a) s) (fun t => ∃ f, (getCore t cx.grp.core).fetches = (getCore s1 cx.grp.core).fetches ++ [f]
      ∧ f.blk = blk ∧ f.start = (if r then mtfProg blk else 0) ∧ f.landed = [] ∧ f.stop = none ∧ f.d = d.val ∧ f.group = cx.gk)) ∧
  (∀ (s : State) (core id line : Nat) (ans : FabAns) (f : Fetch), (getCore s core).fetches.find? (·.id = id) = some f →
    f.stop = none → f.start ≤ line → line < mtfLines f.blk → line ∉ f.landed →
    (∀ tx, tx ∈ s.fab.tx → tx.origin ≠ .mtf core id line) →
    exec (.mtfLineArrival core id line ans) s = .next (fetchLine s core f line)) ∧
  (∀ (s : State) (core id line : Nat) (ans : FabAns) (f : Fetch) (tx : FabTx), (getCore s core).fetches.find? (·.id = id) = some f →
    f.stop = none → f.start ≤ line → line < mtfLines f.blk → line ∉ f.landed → tx ∈ s.fab.tx → tx.origin = .mtf core id line →
    let u := { s with fab := { s.fab with tx := s.fab.tx.filter (fun t => !(decide (t.origin = .mtf core id line))) } }
    exec (.mtfLineArrival core id line ans) s =
      .next (if ans.code = 0 then fetchLand u core f line ans.data 0 else fetchStop u core id 4 ans.code (mtfVa f.blk line))) ∧
  (∀ (s0 s1 s s3 : State) (core line : Nat) (f : Fetch) (e : TlbEntry), fetchClear s0 core f = (s1, true) →
    xlateNow s1 (some core) (dieOfCore core) (mtfVa f.blk line) = (s, .ok e) → daCheck s e (mtfVa f.blk line) false false = none →
    let la := localOf (daOf e (mtfVa f.blk line))
    let n := lineOf la
    let all := BitVec.allOnes 128
    (tgtOf s (daOf e (mtfVa f.blk line)) ≠ .remote → hostFails s la = none → admitType (if e.nc then .u else .o) s n all false = (s3, true) →
      ∃ u, fetchLine s0 core f line = fetchLand u core f line (memLine u n) (memPoison u n)
        ∧ u = if e.nc then homeRead s3 n else windowTake (homeRead s3 n) n all false)) ∧
  (∀ (s : State) (core line : Nat) (f : Fetch) (d : Line) (p : BitVec 4) (x : Spad), spadOf s core f.block = some x → Inv s →
    let at_ := mtfStg f.blk + 128 * line
    ∃ u, u.mem = s.mem ∧ (∀ o, spadAt u core f.block o = if at_ ≤ o ∧ o < at_ + 128 then d.extractLsb' (8 * (o - at_)) 8 else spadAt s core f.block o)
      ∧ (∀ g, (getCore s core).fetches.find? (·.id = f.id) = some g →
          (getCore u core).fetches.find? (·.id = f.id) = some { g with landed := natInsert g.landed line })
      ∧ fetchLand s core f line d p = if p = 0 then fetchDone u core f.id
          else fetchStop (impRaise u f.block 12 3 (BitVec.ofNat 64 (mtfVa f.blk line))) core f.id 3 0 (mtfVa f.blk line)) ∧
  (∀ (s : State) (core id st fc fa : Nat) (f : Fetch), (getCore s core).fetches.find? (·.id = id) = some f → f.stop = none →
    fetchDone s core id = (if mtfNext f = mtfLines f.blk then fetchStop s core id 0 0 0 else s) ∧
    ∃ u, fetchStop s core id st fc fa = fetchEnd u core id ∧ u.mem = s.mem ∧ u.groups = s.groups ∧
      (getCore u core).fetches.find? (·.id = id) = some { f with stop := some (st, fc, fa) }) ∧
  (∀ (f : Fetch), let p := mtfNext f
    (∀ n, f.start ≤ n → n < p → n ∈ f.landed) ∧ (p < mtfLines f.blk → f.start ≤ p ∧ p ∉ f.landed)) ∧
  (∀ (s u w : State) (core id st fc fa v z : Nat) (f : Fetch) (g : Group), (getCore s core).fetches.find? (·.id = id) = some f →
    f.stop = some (st, fc, fa) → let p := if st = 1 then mtfProg f.blk else mtfNext f
    spanWrite s none (dieOfCore core) (f.baddr.toNat + 20) 6 (p + st * 2 ^ 32 + fc * 2 ^ 40) = (u, .ok v) →
    spanWrite u none (dieOfCore core) (f.baddr.toNat + 32) 8 fa = (w, .ok z) → tget w.groups f.group = some g →
    let t := fetchEnd s core id
    t.mem = w.mem ∧ (getCore t core).fetches = (getCore w core).fetches.filter (·.id ≠ id) ∧
      sReg t f.group f.d = BitVec.ofNat 64 (st + fc * 2 ^ 8 + p * 2 ^ 16))

/-- R290 to R299: each small-matrix word completes: every lane that takes part gets its result registers, the flags of its operations
and, for a word with pivots, SING and NEARSING; a masked lane keeps its registers or has them cleared. -/
def Obligations.SmallMatrixWords : Prop :=
  ∀ (i : Instr) (W : SmSpec) (s : State) (cx : Ctx) (w : Machine.Shape) (r : Nat), smSpec i = some W → ctxOf s = some cx →
    W.shape cx = some r → w = shapeOf (sGet cx.grp r) →
    regsPending cx.grp cx.path.mask ((64 + r) :: (W.uses w ++ rangeFrom W.d.val (min (W.nd w) 32))) = false →
    w.rest = false → W.ok w = true → W.d.val + W.nd w ≤ 32 → (∀ k, k ∈ W.uses w → k < 32) → W.nd w ≤ cx.grp.depth →
    Goes (exec i s) (fun t => ∀ l, Active cx l →
      (elemOn cx l 0 = true → (∀ k, k < W.nd w → vReg t cx.gk l (W.d.val + k) = (W.lane cx w l).regs.getD k 0)
        ∧ lstatOf t cx.gk l = match (W.lane cx w l).piv with
          | none => (getFibre cx.grp l).lstat ||| (W.lane cx w l).fl.setWidth 64
          | some q => lstatSetSing ((getFibre cx.grp l).lstat ||| (W.lane cx w l).fl.setWidth 64) q.1 q.2) ∧
      (elemOn cx l 0 = false → lstatOf t cx.gk l = (getFibre cx.grp l).lstat
        ∧ ∀ k, k < W.nd w → vReg t cx.gk l (W.d.val + k) = if (pfxOf cx).mz then 0 else vGet cx.grp l (W.d.val + k)))

/-- R290, R291: what a small-matrix word leaves alone, and its OPERAND trap for a shape word with a reserved bit or a size out of range. -/
def Obligations.SmallMatrixFrame : Prop :=
  ∀ (i : Instr) (W : SmSpec) (s : State) (cx : Ctx) (w : Machine.Shape) (r : Nat), smSpec i = some W → ctxOf s = some cx →
    W.shape cx = some r → w = shapeOf (sGet cx.grp r) →
    (∀ t, exec i s = .next t → (∀ x, memAt t x = memAt s x) ∧ (∀ g, g ≠ cx.gk → tget t.groups g = tget s.groups g)
      ∧ ∀ l, (∀ k, k < 8 → pReg t cx.gk l k = pReg s cx.gk l k) ∧ (∀ q, sReg t cx.gk q = sReg s cx.gk q)
        ∧ ∀ j, (Active cx l → ∀ k, k < W.nd w → j ≠ slotOf cx.grp (logicalOf (getFibre cx.grp l) (W.d.val + k))) → slotVal t cx.gk l j = slotVal s cx.gk l j) ∧
    (regsPending cx.grp cx.path.mask ((64 + r) :: (W.uses w ++ rangeFrom W.d.val (min (W.nd w) 32))) = false → w.rest = true ∨ W.ok w = false →
      Goes (exec i s) (Traps s cx 1 Illegal.operand.code))

/-! ## Memory words (chapters 05, 07, 10, 12) -/

/-- R117, R168, R169, R172, R313 to R315: a memory word whose registers are ready issues: each lane that takes part has the address and
data of the rule, a word that no lane takes part in does nothing else, and one that the group's gate holds, or for which there is no
room, stalls. -/
def Obligations.MemoryIssue : Prop :=
  ∀ (i : Instr) (W : MemSpec) (s : State) (cx : Ctx), memSpec i = some W → ctxOf s = some cx → pendingOn W.regs cx = false →
    (∀ a, W.src = some a → srcReady cx false a = true) →
    let s1 := settleGroup (cleared W cx s) cx.gk
    (memGate s1 cx.gk = false → exec i s = .next (stallAt cx s1)) ∧
    (W.ents cx = [] → memGate s1 cx.gk = true → exec i s = .next (advance cx s1)) ∧
    (W.ents cx ≠ [] → (∃ g, tget s1.groups cx.gk = some g) → ¬ MayIssue s1 cx W.op ((W.ents cx).map (fun e => e.2.1.toNat)) →
      exec i s = .next (stallAt cx s1)) ∧
    (W.ents cx ≠ [] → MayIssue s1 cx W.op ((W.ents cx).map (fun e => e.2.1.toNat)) →
      exec i s = .next (advance cx (settleGroup (afterStart
        (startWord { s1 with nextId := s1.nextId + 1 } cx.gk (issued W cx s1.nextId)) cx.gk s1.nextId) cx.gk)))

/-- R163, R165, R169, R263: LDS, STS and RSCL on a group with nothing under way: the registers hold the scratchpad's bytes, the scratchpad
holds the stored bytes (the highest lane's where lanes meet) and no others change, RSCL scales the value of every lane, in a latch also beside lanes that are listed. -/
def Obligations.ScratchpadWords : Prop :=
  ∀ (s : State) (cx : Ctx) (a : Reg) (z : MSize) (off : BitVec 6), ctxOf s = some cx → NothingOut s cx.gk cx.grp → Inv s →
    let c := cx.grp.core
    let b := cx.grp.block
    let n := sizeBytes z
    let at_ := fun l => (plus cx a off n l).toNat
    (∀ r : Fin 32, pendingOn (regRegs (.v r) ++ regRegs a) cx = false →
      (∀ l, l ∈ partLanes cx → at_ l % n = 0 ∧ spadReadBad s c b (at_ l) n = none ∧ InWindow cx.grp l r.val) →
      Goes (exec (.lds (.v r) a z off) s) (fun t => ∀ l, Active cx l → vReg t cx.gk l r.val =
        if elemOn cx l 0 then BitVec.ofNat 64 (spadRead s c b (at_ l) n) else if (pfxOf cx).mz then 0 else vGet cx.grp l r.val)) ∧
    (∀ r : Fin 32, pendingOn (regRegs (.s r) ++ regRegs a) cx = false →
      (∀ l, (partLanes cx).head? = some l → at_ l % n = 0 ∧ spadReadBad s c b (at_ l) n = none) →
      Goes (exec (.lds (.s r) a z off) s) (fun t => sReg t cx.gk r.val =
        match (partLanes cx).head? with | some l => BitVec.ofNat 64 (spadRead s c b (at_ l) n) | none => sGet cx.grp r.val)) ∧
    (∀ d, pendingOn (srcRegs d ++ regRegs a) cx = false → srcReady cx false d = true →
      (∀ l, l ∈ acting cx → at_ l % n = 0 ∧ spadWriteBad s c b (at_ l) n = none) →
      Goes (exec (.sts d a z off) s) (fun t => t.mem = s.mem ∧ RegsKept s t cx.gk (fun _ _ => False) ∧
        (∀ l k, l ∈ acting cx → k < n → (∀ m, m ∈ acting cx → l < m → ¬ (at_ m ≤ at_ l + k ∧ at_ l + k < at_ m + n)) →
          spadAt t c b (at_ l + k) = (readSrc cx .int d l).extractLsb' (8 * k) 8) ∧
        (∀ o, (∀ l, l ∈ acting cx → ¬ (at_ l ≤ o ∧ o < at_ l + n)) → spadAt t c b o = spadAt s c b o))) ∧
    (∀ (r : Fin 32) (x : Src) (tb : Fin 32) (v : Nat → FRes), pendingOn ((64 + tb.val) :: (dstRegs (.v r) ++ srcRegs x)) cx = false →
      srcReady cx false x = true →
      (∀ l, l ∈ partLanes cx → rsclLane s c b (readSrc cx .int x l) (sGet cx.grp tb.val) = .inr (v l) ∧ InWindow cx.grp l r.val) →
      Goes (exec (.rscl (.v r) x tb) s) (fun t => ∀ l, Active cx l → vReg t cx.gk l r.val =
          (if elemOn cx l 0 then BitVec.ofNat 64 (v l).1 else if (pfxOf cx).mz then 0 else vGet cx.grp l r.val)
        ∧ lstatOf t cx.gk l = (getFibre cx.grp l).lstat ||| (if elemOn cx l 0 then (v l).2.setWidth 64 else 0))) ∧
    (∀ (r : Fin 32) (x : Src) (tb : Fin 32) (v : Nat → FRes), pendingOn ((64 + tb.val) :: (dstRegs (.s r) ++ srcRegs x)) cx = false →
      srcReady cx true x = true →
      (∀ l, l ∈ partLanes cx → rsclLane s c b (readSrc cx .int x l) (sGet cx.grp tb.val) = .inr (v l)) →
      Goes (exec (.rscl (.s r) x tb) s) (fun t =>
        sReg t cx.gk r.val = (match (partLanes cx).head? with | some l => BitVec.ofNat 64 (v l).1 | none => sGet cx.grp r.val)
        ∧ ∀ l, l ∈ partLanes cx → lstatOf t cx.gk l = (getFibre cx.grp l).lstat ||| (v l).2.setWidth 64)) ∧
    (∀ (k : Fin 3) (x : Src) (tb : Fin 32), pendingOn ((64 + tb.val) :: srcRegs x) cx = false → srcReady cx false x = true → midClause cx →
      Goes (exec (.rscl (.y k) x tb) s) (fun t => ∃ p y, pathIn t cx.gk cx.lane = some p ∧ latchOf p k = some y ∧
        ∀ l v, l ∈ partLanes cx → rsclLane s c b (readSrc cx .int x l) (sGet cx.grp tb.val) = .inr v → tgetD y.vals l 0 = BitVec.ofNat 64 v.1))

/-- R109, R148, R160, R171: what a memory word leaves in memory when it issues from a group with nothing under way: every byte as it was. Stores of
type .w and .u wait for their homes; a .s store goes into the empty store buffer and a .o store of a line that no L1 owns waits; a contribution
of RED goes into the merge buffer or waits for it, when no cached page has NC = 1; a FENCE with an empty store buffer writes none. A store in an
open region of its block is in PublicationPhases, one of an owned line in StoreEvents. -/
def Obligations.MemoryIssueFrame : Prop :=
  ∀ (i : Instr) (W : MemSpec) (s t : State) (cx : Ctx), memSpec i = some W → ctxOf s = some cx → NothingOut s cx.gk cx.grp →
    (∀ l r, opWrites W.op = true → W.d = .v r → Active cx l → InWindow cx.grp l r.val) →
    (match W.op with
      | .store ty _ => (∀ h r, tget (getCore s (regionCore s cx.grp.core)).regions h = some r → r.block ≠ cx.grp.block)
          ∧ (ty = .s ∨ ty = .o → (getCore s cx.grp.core).sb = []) ∧ (ty = .o → ∀ y, y ∈ s.cores → ∀ q, q ∈ y.2.l1 → q.form ≠ .ow)
      | .fence _ _ => (getCore s cx.grp.core).sb = []
      | .red _ _ => ∀ e, e ∈ (getCore s cx.grp.core).tlb ++ dieTlb s (dieOfCore cx.grp.core) → e.nc = false
      | _ => True) →
    exec i s = .next t → ∀ a, memAt t a = memAt s a

/-- R107, R115, R117, R169: a lane at its issue: misaligned, not canonical, or translated at once by a cached entry to its device address
when the page allows it, once no earlier word of its group waits for that page (R117); a miss asks its die for the page when the die has room
for it (R116). -/
def Obligations.LaneTranslation : Prop :=
  ∀ (s : State) (gk id l : Nat) (g : Group) (w : MemWord) (a : LaneAcc), wordAt s gk id = some (g, w) → tget w.lanes l = some a →
    a.st = .walk → opTranslates w.op = true → w.id = id →
    (a.va.toNat % opAlign w.op ≠ 0 → startLane s gk id l = failLane s gk w l scMisalign 0) ∧
    (a.va.toNat % opAlign w.op = 0 → (g.words.filter (fun x => x.id < id)).any wordFaulted = false → pageAhead g id (vpageOf a.va.toNat) = false →
      (2 ^ 57 ≤ a.va.toNat → startLane s gk id l = failLane s gk w l scNonCanon 0) ∧
      (a.va.toNat < 2 ^ 57 → 2 ^ 57 ≤ a.va.toNat + opBytes w.op - 1 →
        startLane s gk id l = failLane (setLane s gk id l (fun b => { b with d1 := 1 })) gk w l scNonCanon 0) ∧
      (∀ e da nc, a.va.toNat + opBytes w.op - 1 < 2 ^ 57 → (lanePages w.op a).length = 1 → tlbLook s g.core a.va.toNat = some e →
        laneTarget s w.op e a.va.toNat = .req da 0 nc →
        ∃ u h v, startLane s gk id l = u ∧ wordAt u gk id = some (h, v) ∧ (tgetD v.lanes l a).st = .req da 0 nc) ∧
      (a.va.toNat + opBytes w.op - 1 < 2 ^ 57 → (lanePages w.op a).length = 1 → tlbLook s g.core a.va.toNat = none →
        pageRoom s (dieOfCore g.core) (vpageOf a.va.toNat) = true → vpageOf a.va.toNat ∈ pendList (startLane s gk id l) (dieOfCore g.core)))

/-- R110 to R112, Tables 5.2 to 5.4: a step of a walk: an absent, malformed or poisoned entry is its sub-cause, a table entry leads to the
next level, a leaf gives its page; PAGE_WALK_COMPLETE gives the outcome to the requests that it covers. While EN of PTBASE is 0 no cached
translation is used and a walk faults NOTMAPPED. -/
def Obligations.PageWalks : Prop :=
  (∀ (die va n table : Nat) (s u : State) (p : Nat) (pois : Bool), walkAt.entry va s table n = (u, some (p, pois)) →
    let r := walkAt die va n s table
    (pois = true → r = (u, .fault scPtePoison)) ∧
    (pois = false → bitsOf p 0 1 = 0 → r = (u, .fault scNotMapped)) ∧
    (pois = false → bitsOf p 0 1 = 1 → pteBad n p = true → r = (u, .fault scBadPte)) ∧
    (pois = false → bitsOf p 0 1 = 1 → pteBad n p = false → bitsOf p 1 1 = 1 →
      r = (u, .leaf { va := va / 2 ^ levelShift n * 2 ^ levelShift n, bits := levelShift n, da := bitsOf p 16 48 * 65536,
                      w := bitsOf p 2 1 = 1, nc := bitsOf p 3 1 = 1 })) ∧
    (∀ m, n = m + 1 → pois = false → bitsOf p 0 1 = 1 → pteBad n p = false → bitsOf p 1 1 = 0 →
      ∃ v, r = walkAt die va m v (bitsOf p 8 38 * 256) ∧ v.mem = u.mem)) ∧
  (∀ (s u : State) (die vp : Nat) (e : TlbEntry), vp ∈ (pendList s die).take 128 → walk s die (vp * 65536) = (u, .leaf e) →
    exec (.pageWalkComplete die vp) s = .next (walkGive (fillDie u die e) die vp (.leaf e))) ∧
  (∀ (s u : State) (die vp sub : Nat), vp ∈ (pendList s die).take 128 → walk s die (vp * 65536) = (u, .fault sub) →
    exec (.pageWalkComplete die vp) s = .next (walkGive u die vp (.fault sub))) ∧
  (∀ (s : State) (die c va : Nat), s.xl.ptbase.getLsbD 0 = false →
    walk s die va = (s, .fault scNotMapped) ∧ tlbLook s c va = none ∧ dieLook s die va = none)

/-- R159, R161, R169, R384: a load lane is served at its home by HOME_SLICE_READ, and MEMORY_RESPONSE writes its value to its register once the
promotion that its acquire part waits for is done, or keeps it, or lists the lane when its place in the spill area cannot be written; a PREF
lane fetches its line; what the value is, and where it goes. -/
def Obligations.LoadEvents : Prop :=
  (∀ (s u : State) (g id l : Nat) (x : Group) (w : MemWord) (a : LaneAcc) (da da2 : Nat) (nc : Bool) (d : Line) (pz : BitVec 4),
    wordAt s g id = some (x, w) → (∃ t z, w.op = .load t z ∨ w.op = .loadu t z) → tget w.lanes l = some a → a.st = .req da da2 nc →
    inOrder x w l a = true →
    let q := loadPiece w.op a da da2
    let la := localOf q.1
    tgtOf s q.1 = .hbm →
    laneLine s x.core x.block (if nc then .u else opType w.op) (!nc) (lineOf la) (spanMask (la % 128) q.2.1) false = (u, some (d, pz)) →
    (pz &&& spanSectors (la % 128) q.2.1 = 0 →
      exec (.homeSliceRead g id l) s = .next (settleGroup (holdLane (gotPiece u g w l a q da da2 nc (lineRead d (la % 128) q.2.1))
        g id l (.homeSliceRead g id l)) g)) ∧
    (pz &&& spanSectors (la % 128) q.2.1 ≠ 0 → exec (.homeSliceRead g id l) s =
      .next (settleGroup (holdLane (failLane u g w l scPoison 0) g id l (.homeSliceRead g id l)) g))) ∧
  (∀ (s u : State) (c b line : Nat) (m : LineMask), line * 128 < 0x8000000000 → sbGet (getCore s c) (devLine s line) = none →
    mbAny s c (·.line = devLine s line) = false → takenAt s c none (some (devLine s line)) = false → homeAdmit s line m false = (u, true) →
    (∀ y, y ∈ (homeRead u line).cores → ∀ r, r ∈ y.2.regions → r.2.block ≠ b) →
    (∃ pz, laneLine s c b .u true line m false = (homeRead u line, some (memLine (homeRead u line) line, pz)))) ∧
  (∀ (s p : State) (g id l : Nat) (x : Group) (w : MemWord) (a : LaneAcc) (v v2 : W64) (ok : Bool), wordAt s g id = some (x, w) →
    (match w.op with | .gred _ | .fmode _ | .phend => False | _ => True) → tget w.lanes l = some a → a.st = .data v v2 →
    (guessed w a = true → afterOlder x w.id w.op l a = true) → acquireTry s x.core g id l w = (p, ok) →
    exec (.memoryResponse g id l) s = .next (settleGroup (if ok then landDone p g w l v v2 else p) g)) ∧
  (∀ (s u : State) (g l : Nat) (w : MemWord) (v v2 : W64) (r : Landed), landLaneTry (setSt s g w.id l .done) g w l v v2 = (u, r) →
    landDone s g w l v v2 = match r with
      | .yes => u
      | .wait => setSt u g w.id l (.data v v2)
      | .fail sub fab => setSt u g w.id l (.listed sub fab)) ∧
  (∀ (s : State) (g l j : Nat) (x : Group) (w : MemWord) (v : W64), tget s.groups g = some x → w.uni = false →
    (getFibre x l).low.toNat ≤ j → j < (getFibre x l).low.toNat + x.depth → j < 65536 →
    (landTry s g w l j v).2 = .yes ∧ slotVal (landValue s g w l j v) g l (slotOf x j) = v
      ∧ RegsKept s (landValue s g w l j v) g (fun m q => m = l ∧ q = slotOf x j) ∧ ∀ a, memAt (landValue s g w l j v) a = memAt s a) ∧
  (∀ (s : State) (g l : Nat) (x : Group) (w : MemWord) (r : Fin 32) (v : W64), tget s.groups g = some x → w.uni = true →
    sReg (landValue s g w l r.val v) g r.val = v) ∧
  (∀ (s h : State) (g id l : Nat) (x : Group) (w : MemWord) (a : LaneAcc) (k : Bool) (t : MType) (da da2 : Nat) (nc : Bool),
    wordAt s g id = some (x, w) → w.op = .pref k t → tget w.lanes l = some a → a.st = .req da da2 nc → tgtOf s da = .hbm →
    heldLa s (localOf da) = false → memPoison s (lineOf (localOf da)) &&& spanSectors (da % 128) 1 = 0 →
    homeAdmit s (lineOf (localOf da)) (spanMask (da % 128) 1) false = (h, true) →
    exec (.homeSliceRead g id l) s = .next (settleGroup (holdLane (setSt
      (if k || nc || t = .u then h else (lineLoad h x.core t (lineOf (localOf da)) (spanMask (da % 128) 1)).1) g id l .done)
      g id l (.homeSliceRead g id l)) g))

/-- R159 to R161, R169, R171: a store is performed by HOME_SLICE_WRITE: the lanes at its line together, at the home slice, in the L1 or in
the store buffer, by its type; a drained buffer entry and an evicted copy are written; every byte of memory but those is kept. -/
def Obligations.StoreEvents : Prop :=
  (∀ (s : State) (g id l : Nat) (x : Group) (w : MemWord) (a : LaneAcc) (t : MType) (z : MSize) (da da2 : Nat) (n0 nc : Bool),
    wordAt s g id = some (x, w) → w.op = .store t z → tget w.lanes l = some a → a.st = .req da da2 n0 → laneNc s w (l, a) = nc → tgtOf s da = .hbm →
    let ev := Instr.homeSliceWrite (.lane g id l)
    let tt : MType := if nc then .u else t
    let ls := lanesAtLine s w (dlOf s da) nc
    let line := lineOf (localOf da)
    let md := mergeLanes (sizeBytes z) ls
    (∀ y, y ∈ ls → inOrder x w y.1 y.2 = true) → (∀ h, tget (getCore s (regionCore s x.core)).regions h = none) → ls ≠ [] →
    mbAny s x.core (·.line = dlOf s da) = false → takenAt s x.core (some id) (some (dlOf s da)) = false →
    (∀ h, tt = .s → sbRoom s x.core (dlOf s da) = (h, true) → exec ev s = .next (settleGroup (holdLane (doneLanes
      (l1Update (sbMerge h x.core (dlOf s da) md.1 md.2 g x.block) (l1Core (sbMerge h x.core (dlOf s da) md.1 md.2 g x.block) x.core line)
        line md.1 md.2) g id ls) g id l ev) g)) ∧
    (∀ h, tt = .w ∨ tt = .u → sbGet (getCore s x.core) (dlOf s da) = none → homeAdmit s line md.1 true = (h, true) →
      exec ev s = .next (settleGroup (holdLane (doneLanes (lineStoreHome h x.core line md.1 md.2) g id ls) g id l ev) g)) ∧
    (∀ h, tt = .o → sbGet (getCore s x.core) (dlOf s da) = none → homeAdmit s line md.1 true = (h, true) →
      exec ev s = .next (settleGroup (holdLane (doneLanes (lineStoreO h x.core line md.1 md.2) g id ls) g id l ev) g))) ∧
  (∀ (s : State) (k : Option Nat) (line : Nat) (m : LineMask) (d : Line) (a : Nat), Inv s →
    (∀ y, y ∈ s.cores → ∀ v, v ∈ y.2.l1 → v.line = line → v.form ≠ .ow) →
    memAt (homeWrite s k line m d 0) a = if a / 128 = line ∧ m.getLsbD (a % 128) = true then d.extractLsb' (8 * (a % 128)) 8 else memAt s a) ∧
  (∀ (n : Nat) (pre post : List (Nat × LaneAcc)) (x : Nat × LaneAcc) (da da2 : Nat) (nc : Bool) (k : Nat), x.2.st = .req da da2 nc →
    n ≤ 8 → (∀ y db db2 nb, y ∈ pre ++ x :: post → y.2.st = .req db db2 nb → db % 128 + n ≤ 128) → k < n →
    (∀ y db db2 nb, y ∈ post → y.2.st = .req db db2 nb → ¬ (db % 128 ≤ da % 128 + k ∧ da % 128 + k < db % 128 + n)) →
    let md := mergeLanes n (pre ++ x :: post)
    md.1.getLsbD (da % 128 + k) = true ∧ md.2.extractLsb' (8 * (da % 128 + k)) 8 = x.2.d0.extractLsb' (8 * k) 8) ∧
  (∀ (s : State) (c dl : Nat) (e : SbEntry), sbGet (getCore s c) dl = some e → e.draining = true →
    exec (.homeSliceWrite (.storeBuf c dl)) s = .next (settleAll (if (sbDrain s c dl).2 = true ∨ dlLocal s dl = false then (sbDrain s c dl).1
      else noteHold (sbDrain s c dl).1 (dl % 2 ^ 39) (.homeSliceWrite (.storeBuf c dl))))) ∧
  (∀ (s h : State) (c dl : Nat) (e : SbEntry), sbGet (getCore s c) dl = some e → dlLocal s dl = true →
    homeAdmit s (dl % 2 ^ 39) e.mask true = (h, true) →
    let k := l1Core h c (dl % 2 ^ 39)
    sbDrain s c dl = (l1Update (modCore (homeWrite (windowTake h (dl % 2 ^ 39) e.mask true) (some k) (dl % 2 ^ 39) e.mask e.data 0) c
      (fun q => { q with sb := q.sb.filter (·.line ≠ dl) })) k (dl % 2 ^ 39) e.mask e.data, true)) ∧
  (∀ (s : State) (c line : Nat) (y : L1Line),
    let same := (getCore s c).l1.filter (fun v => l1SetOf s c v.line = l1SetOf s c line)
    same.getLast? = some y → y.line = line → 8 ≤ same.length → l1Get (getCore s c) line = some y →
    exec (.homeSliceWrite (.l1Evict c line)) s = .next (modCore (writeBack s y) c (fun k => { k with l1 := k.l1.filter (·.line ≠ line) })))

/-- R310, R312 to R314: an ATOM or CAS lane whose release and home admit it is one step: the old element is the result, the new
one is in memory, no other byte changes, a release of a narrower scope is recorded, and CAS gives 1 when it wrote; its acquire part is over when
the recorded core has been promoted, every write that it issued before performed (log 25); the operations of Table 12.3. -/
def Obligations.AtomicEvents : Prop :=
  (∀ (s b r h : State) (g id l : Nat) (x : Group) (w : MemWord) (a : LaneAcc) (da da2 : Nat) (nc : Bool),
    wordAt s g id = some (x, w) → (∃ o sc ord, w.op = .atom o sc ord) ∨ (∃ is64 fq sc ord, w.op = .cas is64 fq sc ord) →
    tget w.lanes l = some a → a.st = .req da da2 nc → tgtOf s da = .hbm → inOrder x w l a = true →
    let n := opBytes w.op
    (∀ y, y ∈ w.lanes → y.1 < l → (match y.2.st with | .req d _ _ => dlOf s d ≠ dlOf s da | .remote _ _ _ => sameLine n y.2 n a = false | _ => True)) →
    ownBuffers s x.core (dlOf s da) = (b, true) →
    let ok := atomWrites b w.op a da
    (if ordRel (opOrd w.op) && ok then releaseTry b g id (ascopeRank (opScope w.op)) (laneBit l) else (b, true)) = (r, true) →
    let off := localOf da % 128
    let line := lineOf (localOf da)
    homeAdmit r line (spanMask off n) true = (h, true) → memPoison (recallOw h line none) line &&& spanSectors off n = 0 →
    let u := recallOw h line none
    let old := lineRead (memLine u line) off n
    let q := atomStep w.op old a
    Inv u → off + n ≤ 128 → (∀ y, y ∈ u.cores → ∀ v, v ∈ y.2.l1 → v.line = line → v.form ≠ .ow) →
    ∃ t, exec (.homeSliceWrite (.lane g id l)) s = .next (settleGroup (holdLane (atomRead t g x w l line old q.2.1 q.2.2 (tget h.coh.records line))
        g id l (.homeSliceWrite (.lane g id l))) g)
      ∧ (q.2.2 = true → ordRel (opOrd w.op) = true → ascopeRank (opScope w.op) < 4 →
          tget t.coh.records line = some (u.fab.chipid, x.core, opScope w.op))
      ∧ ∀ i, memAt t i = if q.2.2 = true ∧ localOf da ≤ i ∧ i < localOf da + n then BitVec.ofNat 8 (q.1 / 2 ^ (8 * (i - localOf da))) else memAt u i) ∧
  (∀ (s : State) (g l line old v2 : Nat) (x y : Group) (w w' : MemWord) (a : LaneAcc) (ok : Bool) (rel : Option (Nat × Nat × AScope)),
    wordAt s g w.id = some (y, w') → tget w'.lanes l = some a → (atomRead s g x w l line old v2 ok rel).mem = s.mem ∧
      ∃ z w2 b, wordAt (atomRead s g x w l line old v2 ok rel) g w.id = some (z, w2) ∧ tget w2.lanes l = some b
        ∧ b.st = .data (BitVec.ofNat 64 old) (BitVec.ofNat 64 v2)) ∧
  (∀ (s p : State) (core g id l chip b : Nat) (w : MemWord) (ok : Bool), (tget w.ans (promKey l) = none → acquireTry s core g id l w = (s, true)) ∧
    (tget w.ans (promKey l) = some (s.fab.chipid * 65536 + chip, b) → chip < 65536 → promoteCore s chip b = (p, ok) →
      acquireTry s core g id l w = if ok then (acquireDo (modWord p g id (fun q => { q with ans := tdel q.ans (promKey l) })) core
        (ascopeRank (opScope w.op)), true) else (p, false))) ∧
  (∀ (s t : State) (rc n : Nat), promoteCore s rc n = (t, true) → mbAny t rc (fun _ => true) = false ∧
    (∀ q, q ∈ t.groups → q.2.core = rc → ∀ w, w ∈ q.2.words → w.id < n → opAsWrite w.op = true → ∀ y, y ∈ w.lanes →
      (match y.2.st with | .walk | .req _ _ _ | .remote _ _ _ => True | _ => False) → behindPromotion q.2 w.id y.1 = true) ∧
    ∀ x, x ∈ t.fab.tx → (match x.origin with | .drain c _ _ | .merge c _ _ _ => c ≠ rc | _ => True)) ∧
  (∀ (o : AOp) (sc : AScope) (ord : AOrd) (old : Nat) (a : LaneAcc), old < 2 ^ (8 * aopBytes o) →
    atomStep (.atom o sc ord) old a = (atomValue o old (a.d0.toNat % 2 ^ (8 * aopBytes o)), 0, true)) ∧
  (∀ (is64 fq : Bool) (sc : AScope) (ord : AOrd) (old : Nat) (a : LaneAcc), let m := if is64 then 2 ^ 64 else 2 ^ 32
    atomStep (.cas is64 fq sc ord) old a = if old = a.d0.toNat % m then (a.d1.toNat % m, 1, true) else (old, 0, false))

/-- R154, R158, R173 to R176, R309, R315: CFLUSH writes a line back and drops it, its dirty bytes then standing in memory, CINV drops UT copies, BUFSET and BUFGET change and read a buffer's state;
a FENCE of a group with nothing outstanding completes at once, with its acquire part. -/
def Obligations.CacheWords : Prop :=
  (∀ (s u : State) (g id l : Nat) (x : Group) (w : MemWord) (a : LaneAcc) (da da2 : Nat), wordAt s g id = some (x, w) → w.op = .cflush false →
    tget w.lanes l = some a → a.st = .req da da2 false → tgtOf s da = .hbm → givingLa s (localOf da) = false → heldLa s (localOf da) = false →
    inOrder x w l a = true → takenAt s x.core none (some (dlOf s da)) = false → sbDrain s x.core (dlOf s da) = (u, true) →
    exec (.homeSliceWrite (.lane g id l)) s = .next (settleGroup (holdLane
      (setSt (l1Drop u (l1Core u x.core (lineOf (localOf da))) (lineOf (localOf da))) g id l .done) g id l (.homeSliceWrite (.lane g id l))) g)) ∧
  (∀ (s : State) (c line : Nat) (y : L1Line), l1Get (getCore s c) line = some y →
    l1Get (getCore (l1Drop s c line) c) line = none ∧ (Inv s → ∀ a, memAt (l1Drop s c line) a =
      if a / 128 = line ∧ y.dirty.getLsbD (a % 128 / 32) = true then y.data.extractLsb' (8 * (a % 128)) 8 else memAt s a)) ∧
  (∀ (s : State) (cx : Ctx), ctxOf s = some cx → NothingOut s cx.gk cx.grp →
    (pendingOn [] cx = false → Goes (exec (.cinv none) s) (fun t => t.mem = s.mem ∧ ∀ y, y ∈ (getCore t cx.grp.core).l1 → y.form ≠ .ut)) ∧
    (∀ sc k, pendingOn [] cx = false → BuffersEmpty s cx.gk cx.grp → fabOpen s cx.gk cx.path.mask = false →
      Goes (exec (.fence sc k) s) (fun t => t.mem = s.mem ∧ (∃ y, tget t.groups cx.gk = some y ∧ y.words = [])
        ∧ (k ≠ .rel → 3 ≤ scopeRank sc → cx.path.mask ≠ 0 → ∀ y, y ∈ (getCore t cx.grp.core).l1 → y.form ≠ .ut))) ∧
    (∀ (d : Fin 32) (n : Fin 16) (b : Block), pendingOn [64 + d.val] cx = false → tget s.blocks cx.grp.block = some b →
      let st := bufState b cx.grp.core n.val
      Goes (exec (.bufget d n) s) (fun t => t.blocks = s.blocks ∧ t.mem = s.mem ∧
        sReg t cx.gk d.val = if b.hdr.bufs.length ≤ n.val then 0xFF else BitVec.ofNat 64 (bufCode st)) ∧
      (∀ f, Goes (exec (.bufset d f n) s) (fun t => t.mem = s.mem ∧
        sReg t cx.gk d.val = (if b.hdr.bufs.length ≤ n.val then 2
          else BitVec.ofNat 64 (256 * bufCode st + (if st = .filling ∨ st = .draining then 1 else 0))) ∧
        ∃ c, tget t.blocks cx.grp.block = some c ∧ bufState c cx.grp.core n.val =
          if b.hdr.bufs.length ≤ n.val ∨ st = .filling ∨ st = .draining then st else if f then .full else .empty))))

/-! ## Leases, phases and reductions (chapters 03, 06, 12) -/

/-- R53, R67 to R70: ROWGIVE reserves row sets and returns a handle, or its status; ROWTAKE answers by the lease's state; LAYOUT queues a command and
takes its tag; FENCE.MODE hands a reserved lease over, or answers by the lease's state. The model's choices here: ROWTAKE of a lease on its way to
FREE answers 2, and ROWTAKE of a reserved one stalls until the lease's record can be written (log 62). -/
def Obligations.LeaseWords : Prop :=
  ∀ (s : State) (cx : Ctx), ctxOf s = some cx →
    (∀ (d a : Fin 32) s1 blk u v, pendingOn [64 + d.val, 64 + a.val] cx = false → ReadsBlock s cx a.val 32 32 s1 blk →
      rowGive s1 cx.grp.core blk = (u, some v) → (∃ g, tget u.groups cx.gk = some g) →
      Goes (exec (.rowgive d a) s) (fun t => sReg t cx.gk d.val = v ∧ t.stackTbl = u.stackTbl)) ∧
    (∀ s1 core blk u v, rowGive s1 core blk = (u, some v) →
      (bitsOf blk 0 64 % 65536 ≠ 0 ∨ bitsOf blk 64 7 = 0 ∨ 64 < bitsOf blk 64 7 ∨ bitsOf blk 80 16 = 0 → v = 0x8000000000000005) ∧
      ((∃ st x, x < 128 ∧ (leaseEntry s1 st x).st = .free ∧ (leaseEntry u st x).st = .reserved
          ∧ v = BitVec.ofNat 64 (handleOf st x (leaseEntry u st x).gen) ∧ (leaseEntry u st x).rowSets.length = bitsOf blk 64 7
          ∧ (leaseEntry u st x).rowSets.Nodup ∧ ∀ r, r ∈ (leaseEntry u st x).rowSets → r / 2 ^ 20 = st)
        ∨ ((∃ k, 1 ≤ k ∧ k ≤ 5 ∧ v = BitVec.ofNat 64 (2 ^ 63 + k)) ∧ u.stackTbl = s1.stackTbl))) ∧
    (∀ (d a : Fin 32), pendingOn [64 + d.val, 64 + a.val] cx = false → memGate s cx.gk = true →
      let h := (sGet cx.grp a.val).toNat
      let st := bitsOf h 7 3
      let x := bitsOf h 0 7
      (65536 ≤ h ∨ leaseNamed s st h = none → Goes (exec (.rowtake d a) s) (fun t => sReg t cx.gk d.val = 1 ∧ t.stackTbl = s.stackTbl)) ∧
      (∀ l, h < 65536 → leaseNamed s st h = some l →
        (l.st = .free → Goes (exec (.rowtake d a) s) (fun t => sReg t cx.gk d.val = 1)) ∧
        (l.st = .ending ∨ l.st = .returning → Goes (exec (.rowtake d a) s) (fun t => sReg t cx.gk d.val = 2)) ∧
        (∀ u, l.st = .reserved → cancelLease s st x = (u, true) → (∃ g, tget u.groups cx.gk = some g) →
          Goes (exec (.rowtake d a) s) (fun t => sReg t cx.gk d.val = 0 ∧ t.stackTbl = u.stackTbl)) ∧
        (∀ u, l.st = .reserved → cancelLease s st x = (u, false) → exec (.rowtake d a) s = .next (stallAt cx u)) ∧
        (∀ b, l.st = .giving b → Goes (exec (.rowtake d a) s) (fun t => sReg t cx.gk d.val = 0 ∧ (leaseEntry t st x).st = .giving true)) ∧
        (l.st = .held → Goes (exec (.rowtake d a) s) (fun t => sReg t cx.gk d.val = 0 ∧ (leaseEntry t st x).st = .ending
          ∧ (leaseEntry t st x).cause = 1 ∧ (leaseEntry t st x).tend = s.time.now)))) ∧
    (∀ (a : Fin 32) (n : BitVec 6) s1 blk u e, pendingOn [64 + a.val] cx = false → Accepted s cx n.toNat a.val 64 64 s1 blk →
      xlateNow (tagTake s1 cx.grp.core n.toNat) (some cx.grp.core) (dieOfCore cx.grp.core) (lyDst blk) = (u, .ok e) →
      tgtOf u (daOf e (lyDst blk)) = .hbm → let st := localOf (daOf e (lyDst blk)) / 2 ^ 36
      (getStack u st).layq.length < 8 →
      Goes (exec (.layout a n) s) (fun t => tagOn t cx.grp.core n.toNat = false ∧ ∃ c, (getStack t st).layq = (getStack u st).layq ++ [c]
        ∧ c.blk = blk ∧ c.tag = n.toNat ∧ c.core = cx.grp.core ∧ c.started = false)) ∧
    (NothingOut s cx.gk cx.grp → BuffersEmpty s cx.gk cx.grp → cx.path.mask ≠ 0 →
      ∀ (d a : Fin 32), pendingOn [64 + d.val, 64 + a.val] cx = false →
      let h := (sGet cx.grp a.val).toNat
      let st := bitsOf h 7 3
      let x := bitsOf h 0 7
      (65536 ≤ h ∨ leaseNamed s st h = none →
        Goes (exec (.fenceModeGive d a) s) (fun t => sReg t cx.gk d.val = 1) ∧ Goes (exec (.fenceModeTake d a) s) (fun t => sReg t cx.gk d.val = 1)) ∧
      (∀ l, h < 65536 → leaseNamed s st h = some l →
        (l.st = .held → Goes (exec (.fenceModeGive d a) s) (fun t => sReg t cx.gk d.val = 2)
          ∧ Goes (exec (.fenceModeTake d a) s) (fun t => ∃ m, m ∈ (getStack t st).modeWaits ∧ m.give = false ∧ m.handle = h ∧ m.group = cx.gk)) ∧
        (l.st = .reserved → Goes (exec (.fenceModeTake d a) s) (fun t => sReg t cx.gk d.val = 2)
          ∧ Goes (exec (.fenceModeGive d a) s) (fun t => (leaseEntry t st x).st = .giving false
            ∧ ∃ m, m ∈ (getStack t st).modeWaits ∧ m.give = true ∧ m.handle = h ∧ m.group = cx.gk))))

/-- R316 to R319: PHASE.open opens a region or returns its status, FULL with four regions open; PHASE.end ends one of the block's regions, or returns
its status; PHASE_PUBLICATION makes its lines visible, drops the region and gives the word its result. -/
def Obligations.PublicationPhases : Prop :=
  (∀ (s : State) (cx : Ctx) (d a b : Fin 32), ctxOf s = some cx → pendingOn [64 + d.val, 64 + a.val, 64 + b.val] cx = false → memGate s cx.gk = true →
    let base := (sGet cx.grp a.val).toNat
    let n := (sGet cx.grp b.val).toNat
    let rs := (getCore s (regionCore s cx.grp.core)).regions
    let legal := base % 128 = 0 ∧ n % 128 = 0 ∧ 128 ≤ n ∧ n ≤ 2 ^ 24 ∧ base + n ≤ 2 ^ 64
    (¬ legal → Goes (exec (.phaseOpen d a b) s) (fun t => sReg t cx.gk d.val = 0x8000000000000001)) ∧
    (∀ r, legal → r ∈ rs → base < r.2.base + r.2.size → r.2.base < base + n →
      Goes (exec (.phaseOpen d a b) s) (fun t => sReg t cx.gk d.val = 0x8000000000000002)) ∧
    (legal → (∀ r, r ∈ rs → ¬ (base < r.2.base + r.2.size ∧ r.2.base < base + n)) → (∀ k, k < 4 → tget rs k ≠ none) →
      Goes (exec (.phaseOpen d a b) s) (fun t => sReg t cx.gk d.val = 0x8000000000000003 ∧ t.mem = s.mem ∧ t.cores = s.cores)) ∧
    (∀ h, legal → (∀ r, r ∈ rs → ¬ (base < r.2.base + r.2.size ∧ r.2.base < base + n)) → h < 4 → tget rs h = none →
      (∀ k, k < h → tget rs k ≠ none) →
      Goes (exec (.phaseOpen d a b) s) (fun t => sReg t cx.gk d.val = BitVec.ofNat 64 h ∧ t.mem = s.mem
        ∧ ∃ r, tget (getCore t (regionCore s cx.grp.core)).regions h = some r ∧ r.block = cx.grp.block ∧ r.base = base ∧ r.size = n
          ∧ r.lines = [] ∧ r.early = false ∧ r.ending = none))) ∧
  (∀ (s : State) (cx : Ctx) (d a : Fin 32) (b : Block), ctxOf s = some cx → pendingOn [64 + d.val, 64 + a.val] cx = false →
    NothingOut s cx.gk cx.grp → BuffersEmpty s cx.gk cx.grp → cx.path.mask ≠ 0 →
    tget s.blocks cx.grp.block = some b →
    let h := (sGet cx.grp a.val).toNat
    let rc := regionCore s cx.grp.core
    (∀ r, h < 4 → tget (getCore s rc).regions h = some r → r.block = cx.grp.block → r.ending = none →
      Goes (exec (.phaseEnd d a) s) (fun t => ∃ q, tget (getCore t rc).regions h = some q ∧ q.ending = some (cx.gk, s.nextId) ∧ q.lines = r.lines)) ∧
    (4 ≤ h ∨ (tget (getCore s rc).regions h = none ∧ regionKey b rc h ∉ b.lostRegions) →
      Goes (exec (.phaseEnd d a) s) (fun t => sReg t cx.gk d.val = 0x8000000000000004)) ∧
    (h < 4 → tget (getCore s rc).regions h = none → regionKey b rc h ∈ b.lostRegions →
      Goes (exec (.phaseEnd d a) s) (fun t => sReg t cx.gk d.val = 0x8000000000000005))) ∧
  (∀ (s u : State) (core h gk id : Nat) (r : Region), tget (getCore s core).regions h = some r → r.ending = some (gk, id) →
    publishTry s core h = (u, true) →
    exec (.phasePublication core h) s = .next (wordResult u gk id (BitVec.ofNat 64 (r.lines.length * 256 + (if r.early then 1 else 0))))) ∧
  (∀ (s q : State) (core h : Nat) (r : Region), tget (getCore s core).regions h = some r →
    let ls := r.lines.map (fun x => (x.1, x.2.1, x.2.2, (0 : BitVec 4)))
    let u := ls.foldl shadowCommit (modCore q core (fun k => { k with regions := tdel k.regions h }))
    (shadowAdmit s ls = (q, true) → publishTry s core h = (u, true) ∧ tget (getCore u core).regions h = none) ∧
    (shadowAdmit s ls = (q, false) → publishTry s core h = (q, false) ∧ ∀ gk id, r.ending = some (gk, id) → exec (.phasePublication core h) s = .next q)) ∧
  (∀ (s : State) (ls : List (Nat × LineMask × Line × BitVec 4)) (a : Nat), Inv s → (∀ l, l ∈ ls → l.1 ≠ a / 128) → memAt (ls.foldl shadowCommit s) a = memAt s a) ∧
  (∀ (s : State) (l : Nat × LineMask × Line × BitVec 4) (a : Nat), Inv (dropAll s l.1) →
    memAt (shadowCommit s l) a = if a / 128 = l.1 ∧ l.2.1.getLsbD (a % 128) = true then l.2.2.1.extractLsb' (8 * (a % 128)) 8 else memAt (dropAll s l.1) a)

/-- R147 to R149: a RED lane joins its contribution in the core's merge buffer, by comb, or on a page with NC = 1 goes to its home at once; an entry
of another type or operation, and the last used entry of a full buffer, are asked to flush first; RED_ENTRY_APPLY applies one element of a flushed
entry at its home as one step, and sends an entry of another device's line as one transaction, which waits for room and whose answer ends the entry. -/
def Obligations.Reductions : Prop :=
  (∀ (s : State) (g id l : Nat) (x : Group) (w : MemWord) (a : LaneAcc) (ty : RedTy) (op : RedOp) (da da2 : Nat),
    wordAt s g id = some (x, w) → w.op = .red ty op → tget w.lanes l = some a → a.st = .req da da2 false → inOrder x w l a = true →
    (∀ y d d2 n, y ∈ w.lanes → y.1 < l → y.2.st = .req d d2 n → dlOf s d ≠ dlOf s da) → takenAt s x.core none (some (dlOf s da)) = false →
    let k := getCore s x.core
    let v := redVal ty a.d0.toNat
    let asks := fun (dl : Nat) => ∃ u, exec (.homeSliceWrite (.lane g id l)) s = .next (settleGroup u g) ∧ u.mem = s.mem ∧ u.groups = s.groups ∧
      (getCore u x.core).mb = k.mb.map (fun f => if f.line = dl then { f with flushed := true } else f)
    (∀ e, k.mb.find? (·.line = dlOf s da) = some e → e.flushed = false → (e.ty ≠ ty ∨ e.op ≠ op) → asks (dlOf s da)) ∧
    (∀ e, k.mb.find? (·.line = dlOf s da) = none → 32 ≤ k.mb.length → k.mb.getLast? = some e → asks e.line) ∧
    (∀ e, k.mb.find? (·.line = dlOf s da) = some e → e.flushed = false → e.ty = ty → e.op = op →
      ∃ u, exec (.homeSliceWrite (.lane g id l)) s = .next (settleGroup (setSt u g id l .done) g) ∧ u.mem = s.mem
        ∧ ∃ f, (getCore u x.core).mb = f :: k.mb.filter (·.line ≠ dlOf s da) ∧ f.line = dlOf s da ∧ tget f.vals (da % 128) =
          some (BitVec.ofNat 64 (match tget e.vals (da % 128) with | none => v | some o => redComb ty op o.toNat v))) ∧
    (k.mb.find? (·.line = dlOf s da) = none → k.mb.length < 32 →
      ∃ u, exec (.homeSliceWrite (.lane g id l)) s = .next (settleGroup (setSt u g id l .done) g) ∧ u.mem = s.mem
        ∧ ∃ f, (getCore u x.core).mb = f :: k.mb ∧ f.line = dlOf s da ∧ f.vals = [(da % 128, BitVec.ofNat 64 v)] ∧ f.ty = ty ∧ f.op = op
          ∧ f.groups = [g] ∧ f.blocks = [x.block] ∧ f.flushed = false)) ∧
  (∀ (s : State) (g id l : Nat) (x : Group) (w : MemWord) (a : LaneAcc) (ty : RedTy) (op : RedOp) (da da2 : Nat),
    wordAt s g id = some (x, w) → w.op = .red ty op → tget w.lanes l = some a → a.st = .req da da2 true → inOrder x w l a = true →
    (∀ y d d2 n, y ∈ w.lanes → y.1 < l → y.2.st = .req d d2 n → dlOf s d ≠ dlOf s da) → takenAt s x.core none (some (dlOf s da)) = false →
    let la := localOf da
    let v := redVal ty a.d0.toNat
    let n := opBytes w.op
    (∀ h, tgtOf s da = .hbm → admitType .u s (lineOf la) (spanMask (da % 128) n) true = (h, true) → ∃ u,
      exec (.homeSliceWrite (.lane g id l)) s = .next (settleGroup u g) ∧ u.mem = (redAtHome h [x.block] (lineOf la) (da % 128) ty op v false).mem ∧
        (getCore u x.core).mb = (getCore (redAtHome h [x.block] (lineOf la) (da % 128) ty op v false) x.core).mb) ∧
    (tgtOf s da = .remote → fabRefuse s (chipOf da) la = none → fabRoom s (chipOf da) la = true → ∃ u t,
      exec (.homeSliceWrite (.lane g id l)) s = .next (settleGroup (setSt u g id l .done) g) ∧ u.mem = s.mem ∧ u.cores = s.cores ∧ u.fab.tx = s.fab.tx ++ [t] ∧
        t.chip = chipOf da ∧ t.req = .red (lineOf la) ty op (spanMask (da % 128) n) [(da % 128, BitVec.ofNat 64 v)] true)) ∧
  (∀ (s : State) (core line el : Nat) (e : MbEntry), (getCore s core).mb.find? (·.line = line) = some e →
    let chip := line / 2 ^ 39
    let la := line % 2 ^ 39 * 128
    let n := (if e.ty = .bf16 then 16 else redWidth e.ty) / 8
    let out := ∃ t g b, t ∈ s.fab.tx ∧ t.origin = .merge core line g b
    (e.flushed = false → exec (.redEntryApply core line el) s = .next s) ∧
    (e.flushed = true → dlLocal s line = false →
      (out → exec (.redEntryApply core line el) s = .next s) ∧
      (¬ out → fabRefuse s chip la = none → fabRoom s chip la = false → exec (.redEntryApply core line el) s = .next s) ∧
      (¬ out → fabRefuse s chip la = none → fabRoom s chip la = true → Goes (exec (.redEntryApply core line el) s) (fun u => u.mem = s.mem ∧
        u.cores = s.cores ∧ ∃ t m, u.fab.tx = s.fab.tx ++ [t] ∧ t.chip = chip ∧ t.plane = planeOf la ∧ t.origin = .merge core line e.groups e.blocks ∧
          t.req = .red (line % 2 ^ 39) e.ty e.op m e.vals false ∧ ∀ o, o < 128 → m.getLsbD o = e.vals.any (fun x => x.1 ≤ o && o < x.1 + n))) ∧
      (∀ code, ¬ out → fabRefuse s chip la = some code → exec (.redEntryApply core line el) s = .next (settleAll (fabricTrap
        (modCore s core (fun k => { k with mb := k.mb.filter (·.line ≠ line) })) e.blocks 4 chip code))))) ∧
  (∀ (s : State) (t : FabTx) (ans : FabAns) (core line : Nat) (gs bs : List Nat), t.origin = .merge core line gs bs →
    let q := modCore s core (fun k => { k with mb := k.mb.filter (·.line ≠ line) })
    fabDeliver s t ans = settleAll (if ans.code = 0 then q else fabricTrap q bs 4 t.chip ans.code)) ∧
  (∀ (ty : RedTy) (x y : Nat), (ty = .n32 ∨ ty = .s32 → x < 2 ^ 32 → y < 2 ^ 32 → redComb ty .add x y = (x + y) % 2 ^ 32
      ∧ redComb ty .and x y = x &&& y ∧ redComb ty .or x y = x ||| y ∧ redComb ty .xor x y = x ^^^ y)
    ∧ (ty = .n32 → redComb ty .min x y = min x y ∧ redComb ty .max x y = max x y)) ∧
  (∀ (s h : State) (core line el : Nat) (e : MbEntry) (v : W64), (getCore s core).mb.find? (·.line = line) = some e → e.flushed = true →
    dlLocal s line = true → tget e.vals el = some v →
    let n := (if e.ty = .bf16 then 16 else redWidth e.ty) / 8
    let ln := line % 2 ^ 39
    homeAdmit s ln (spanMask el n) true = (h, true) → memPoison (recallOw h ln none) ln &&& spanSectors el n = 0 →
    Inv (recallOw h ln none) → el + n ≤ 128 → (∀ y, y ∈ (recallOw h ln none).cores → ∀ q, q ∈ y.2.l1 → q.line = ln → q.form ≠ .ow) →
    ∃ u, exec (.redEntryApply core line el) s = .next (settleAll u) ∧ (getCore u core).mb.any (fun f => f.line = line && (tget f.vals el).isSome) = false
      ∧ ∀ a, memAt u a = if ln * 128 + el ≤ a ∧ a < ln * 128 + el + n
          then BitVec.ofNat 8 (redApply e.ty e.op (lineRead (memLine (recallOw h ln none) ln) el n) v.toNat / 2 ^ (8 * (a - (ln * 128 + el))))
          else memAt (recallOw h ln none) a)

/-! ## Transfer engines and overlays (chapters 02, 08) -/

/-- R177, R178, R181, R190, R193: a transfer word of a producer group is accepted: the command joins its cluster's engine with its block,
takes its tag and joins its barrier; another group's is the XRIGHTS trap. -/
def Obligations.TransferWords : Prop :=
  ∀ (i : Instr) (k : XKind) (bar : Option (Fin 16)) (a : Fin 32) (n : BitVec 6) (s : State) (cx : Ctx),
    transferSpec i = some (k, bar, a, n) → ctxOf s = some cx → pendingOn [64 + a.val] cx = false →
    (cx.grp.producer = false → Goes (exec i s) (Traps s cx 9 0)) ∧
    (∀ s1 blk, cx.grp.producer = true → Accepted s cx n.toNat a.val 64 64 s1 blk →
      let cl := clusterOf cx.grp.core
      (getCluster s1 cl).cmds.length < 64 → (∀ q, bar = some q → (barOf s1 cx.grp.block q.val).joins < 64) →
      Goes (exec i s) (fun t => tagOn t cx.grp.core n.toNat = false ∧ (∃ x, (getCluster t cl).cmds = (getCluster s1 cl).cmds ++ [x]
          ∧ x.kind = k ∧ x.blk = blk ∧ x.tag = some n.toNat ∧ x.bar = bar.map (·.val) ∧ x.started = false ∧ x.core = cx.grp.core)
        ∧ ∀ q b, bar = some q → tget s1.blocks cx.grp.block = some b → (barOf t cx.grp.block q.val).joins = (barOf s1 cx.grp.block q.val).joins + 1))

/-- R178, R181 to R184, R187, R188, R190, R191: the oldest command that has not started starts, after its checks; a unit copies its bytes; a
command that has ended writes PROGRESS, STATUS, FCODE and FADDR into its block, fills or empties its buffers, or leaves them as they were when it
has failed, and makes its tag ready; what such a write of an engine leaves in memory. -/
def Obligations.TransferEvents : Prop :=
  (∀ (s : State) (c : Nat) (x : XCmd), (getCluster s c).cmds.find? (fun y => !y.started) = some x →
    ((getCluster s c).cmds.filter (·.started)).length < 8 → x.kind ≠ .ovld → x.kind ≠ .ovpf → (∀ y, y ∈ (getCluster s c).cmds → y.id = x.id → y = x) →
    let p := xProgress x.blk
    (xBad s c x = true → Goes (exec (.transferStart c x.id) s) (fun t => t.mem = s.mem ∧ t.blocks = s.blocks ∧
      { x with started := true, prog := p, fin := some (1, 0, 0) } ∈ (getCluster t c).cmds)) ∧
    (xBad s c x = false → xUnits x.kind x.blk = p → Goes (exec (.transferStart c x.id) s) (fun t => t.blocks = s.blocks ∧
      { x with started := true, prog := p, fin := some (0, 0, 0) } ∈ (getCluster t c).cmds)) ∧
    (xBad s c x = false → xUnits x.kind x.blk ≠ p →
      ((∃ i, xFill s c x = some i ∧ instState s x.block i ≠ .empty) ∨ (∃ i, xDrain s c x = some i ∧ instState s x.block i ≠ .full)) →
      Goes (exec (.transferStart c x.id) s) (fun t => t.blocks = s.blocks ∧ { x with started := true, prog := p, fin := some (5, 0, 0) } ∈ (getCluster t c).cmds)) ∧
    (∀ b, xBad s c x = false → xUnits x.kind x.blk ≠ p → tget s.blocks x.block = some b →
      (∀ i, xFill s c x = some i → instState s x.block i = .empty) → (∀ i, xDrain s c x = some i → instState s x.block i = .full) →
      Goes (exec (.transferStart c x.id) s) (fun t =>
        { x with started := true, prog := p, fills := xFill s c x, drains := xDrain s c x } ∈ (getCluster t c).cmds
        ∧ (∀ i, xFill s c x = some i → xDrain s c x = none → instState t x.block i = .filling)
        ∧ (∀ i, xDrain s c x = some i → instState t x.block i = .draining)))) ∧
  (∀ (s : State) (die b core a n v : Nat) (sp : Spad), Inv s → spadOf s core b = some sp → a + n ≤ 2 ^ 64 → 1 ≤ n →
    let w := giveSpan s die b none ⟨some core, a, n⟩ v none 0 true
    spadRead w.1 core b a n = v % 2 ^ (8 * n) ∧ w.1.mem = s.mem ∧ ∀ o, o < a ∨ a + n ≤ o → spadAt w.1 core b o = spadAt s core b o) ∧
  (∀ (s : State) (cl u : Nat) (x : XCmd) (r w : State) (v k z : Nat), unitBytes s cl x u = (r, .ok v none, k) →
    giveSpan r (cl / 64) x.block (if xShadow x.blk then some (cl, xSet x.blk) else none) (xUnit cl x u).2.1 v none k (!(unitOut s cl x.id u))
      = (w, .ok z none) →
    copyUnit s cl x u = (spansTaken (txMark w s.fab.tx.length (.xfer cl x.id u)) (cl / 64) (xUnit cl x u).1, .done)) ∧
  (∀ (s r : State) (cl u : Nat) (x : XCmd) (v : Take), x.sent = none → takeSpans s (cl / 64) x.block (xUnit cl x u).1 = (r, v) →
    unitBytes s cl x u = (r, v, 0)) ∧
  (∀ (s r : State) (c : Nat) (x : XCmd) (fin : Nat × Nat × Nat), x.kind ≠ .ovld → x.kind ≠ .ovpf → x.started = true → x.fin = some fin →
    (getCluster s c).cmds.find? (fun y => y.id = x.id && y.started && y.kind ≠ .ovld && y.kind ≠ .ovpf) = some x →
    (getCluster s c).cmds.find? (fun y => y.id = x.id) = some x → xOut s c x.id = false → x.reported = false →
    xReport s c x (xFinal c x fin) = (r, true) → xOut r c x.id = false →
    let f := xFinal c x fin
    let u := if f.2.1 = 3 then impRaise r x.block 12 2 (BitVec.ofNat 64 f.2.2.2) else r
    exec (.transferEnd c x.id) s = .next (cmdDone (dropCmd (xBuffers u x (f.2.1 = 0)) c x.id) x.core x.id x.tag .transfer
      (BitVec.ofNat 64 f.2.1) x.block x.bar x.node)) ∧
  (∀ (s : State) (core id n block : Nat) (st : W64) (bar : Option Nat), n < 64 →
    tagOn (cmdDone s core id (some n) .transfer st block bar none) core n = true) ∧
  (∀ (s r w : State) (c prog st fc fa v z : Nat) (x : XCmd),
    accWrite s none (c / 64) (x.baddr.toNat + 48) 6 (prog + st * 2 ^ 32 + fc * 2 ^ 40) 0 false = (r, .ok v) →
    accWrite r none (c / 64) (x.baddr.toNat + 56) 8 fa 0 false = (w, .ok z) →
    ∃ t, xReport s c x (prog, st, fc, fa) = (t, true) ∧ t.mem = w.mem ∧ t.blocks = w.blocks ∧ ∀ y, y ∈ (getCluster t c).cmds → y.id = x.id → y.reported = true) ∧
  (∀ (s : State) (x : XCmd) (b : Block) (done : Bool) (i : Nat), tget s.blocks x.block = some b →
    instState (xBuffers s x done) x.block i = if x.drains = some i then (if done then .empty else .full)
      else if x.fills = some i then (if done then .full else .empty) else instState s x.block i) ∧
  (∀ (s : State) (core : Option Nat) (die va n v : Nat), 1 ≤ n → va % 128 + n ≤ 128 →
    spanWrite s core die va n v = accWrite s core die va n (v % 2 ^ (8 * n)) 0 false) ∧
  (∀ (s u h : State) (die va n v : Nat) (regOk : Bool) (e : TlbEntry), xlateNow s none die va = (u, .ok e) → daCheck u e va true regOk = none →
    tgtOf u (daOf e va) = .hbm → let la := localOf (daOf e va)
    1 ≤ n → la % 128 + n ≤ 128 → admitType (if e.nc then .u else .o) u (lineOf la) (spanMask (la % 128) n) true = (h, true) →
    let r := recallOw h (lineOf la) none
    Inv r → (∀ y, y ∈ r.cores → ∀ q, q ∈ y.2.l1 → q.line = lineOf la → q.form ≠ .ow) →
    ∃ w, accWrite s none die va n v 0 regOk = (w, .ok 0) ∧ ∀ a, memAt w a =
      if la ≤ a ∧ a < la + n then BitVec.ofNat 8 (v / 2 ^ (8 * (a - la))) else memAt r a)

/-- R194 to R197: XPUB joins the queue of its set and keeps its register pending; XPUB_COMMIT publishes or discards the set's lines once
the commands accepted before it have ended, frees the set, and gives the count of lines or a status. -/
def Obligations.ShadowSets : Prop :=
  (∀ (s : State) (cx : Ctx) (d : Fin 32) (x : Bool) (h : Fin 4), ctxOf s = some cx → pendingOn [64 + d.val] cx = false →
    (cx.grp.producer = false → Goes (exec (.xpub d x h) s) (Traps s cx 9 0)) ∧
    (cx.grp.producer = true → memGate s cx.gk = true → Goes (exec (.xpub d x h) s) (fun t =>
      (∃ p, (getCluster t (clusterOf cx.grp.core)).pubs = (getCluster s (clusterOf cx.grp.core)).pubs ++ [p] ∧ p.set = h.val ∧ p.discard = x
        ∧ p.group = cx.gk ∧ p.d = d.val ∧ p.id = s.nextId)
      ∧ ∃ y, tget t.groups cx.gk = some y ∧ (⟨true, d.val, BitVec.allOnes 64, s.nextId⟩ : PendReg) ∈ y.pend))) ∧
  (∀ (s : State) (c h : Nat) (p : XPub) (b : Block), (getCluster s c).pubs.find? (fun q => q.set = h && !(q.waits.any (fun i => (getCluster s c).cmds.any (·.id = i)))) = some p →
    tget s.blocks p.block = some b → (∃ g, tget s.groups p.group = some g) →
    let ls := tgetD (getCluster s c).shadow h []
    (h ∈ b.lostSets → Goes (exec (.xpubCommit c h) s) (fun t => sReg t p.group p.d = 0x8000000000000002 ∧ t.mem = s.mem)) ∧
    (h ∉ b.lostSets → tget (getCluster s c).shOwner h = none → Goes (exec (.xpubCommit c h) s) (fun t => sReg t p.group p.d = 0 ∧ t.mem = s.mem)) ∧
    (∀ o, h ∉ b.lostSets → tget (getCluster s c).shOwner h = some o → o ≠ p.block →
      Goes (exec (.xpubCommit c h) s) (fun t => sReg t p.group p.d = 0x8000000000000001 ∧ t.mem = s.mem)) ∧
    (h ∉ b.lostSets → tget (getCluster s c).shOwner h = some p.block → p.discard = true →
      Goes (exec (.xpubCommit c h) s) (fun t => sReg t p.group p.d = BitVec.ofNat 64 (ls.length * 256) ∧ t.mem = s.mem
        ∧ tget (getCluster t c).shOwner h = none ∧ tget (getCluster t c).shadow h = none)) ∧
    (∀ u, h ∉ b.lostSets → tget (getCluster s c).shOwner h = some p.block → p.discard = false → shadowAdmit s ls = (u, true) →
      exec (.xpubCommit c h) s = .next (uniResult (modCluster (shadowFree (ls.foldl shadowCommit u) c h) c (fun y =>
        { y with pubs := y.pubs.filter (·.id ≠ p.id) })) p.group p.d p.id (BitVec.ofNat 64 (ls.length * 256)))))

/-- R37 to R41, R198, R199: OVLD and OVPF are accepted by the engine and take their tags; a load whose descriptor is sound begins to fill its slot;
OVERLAY_LOAD_END gives the status, makes the tag ready and frees the paths that wait, which take the ABSENT fault after a load that failed. The
model's choices here: a loaded slot is numbered as the last fetched (log 89); the initial value and the bit order of the CRC (log 75). -/
def Obligations.Overlays : Prop :=
  (∀ (s r : State) (cx : Ctx) (a : Fin 32) (n : BitVec 6), ctxOf s = some cx → tagFree s cx.grp.core n.toNat = true →
    (getCluster s (clusterOf cx.grp.core)).cmds.length < 64 → memGate s cx.gk = true →
    releaseAll s cx.gk s.nextId 5 (BitVec.allOnes 64) = (r, true) →
    let cl := clusterOf cx.grp.core
    (∀ (d : Fin 32) (sl : Fin 4), pendingOn [64 + a.val, 64 + d.val] cx = false →
      Goes (exec (.ovld d a sl n) s) (fun t => tagOn t cx.grp.core n.toNat = false ∧ ∃ x, (getCluster t cl).cmds = (getCluster r cl).cmds ++ [x]
        ∧ x.kind = .ovld ∧ x.baddr = sGet cx.grp a.val ∧ x.slot = sl.val ∧ x.d = d.val ∧ x.started = false)) ∧
    (pendingOn [64 + a.val] cx = false → Goes (exec (.ovpf a n) s) (fun t => tagOn t cx.grp.core n.toNat = false ∧
      ∃ x, (getCluster t cl).cmds = (getCluster r cl).cmds ++ [x] ∧ x.kind = .ovpf ∧ x.baddr = sGet cx.grp a.val ∧ x.started = false))) ∧
  (∀ (s u : State) (c d : Nat) (x : XCmd), (getCluster s c).cmds.find? (fun y => !y.started) = some x →
    ((getCluster s c).cmds.filter (·.started)).length < 8 → x.kind = .ovld →
    forEngine s x.id (fun q => spanRead q none (c / 64) x.baddr.toNat 256) = (u, .ok d) →
    descBad x.baddr.toNat d = false → slotBusy u c ((getCluster s c).slots.getD x.slot .empty) = false →
    (∀ y, y ∈ (getCluster s c).slots.zipIdx → y.2 ≠ x.slot → slotNumber y.1 ≠ some (bitsOf d 0 16)) → x.slot < (getCluster u c).slots.length →
    Goes (exec (.transferStart c x.id) s) (fun t => (getCluster t c).slots[x.slot]? = some (.loading (bitsOf d 0 16))
      ∧ ∀ y, y ∈ (getCluster t c).cmds → y.id = x.id → y.started = true ∧ y.blk = d)) ∧
  (∀ (s : State) (c : Nat) (x : XCmd) (st fc fa : Nat) (g : Group), x.kind = .ovld → x.started = true → x.fin = some (st, fc, fa) →
    (getCluster s c).cmds.find? (fun y => y.id = x.id && (y.kind = .ovld || y.kind = .ovpf) && y.started) = some x →
    (getCluster s c).cmds.find? (fun y => y.id = x.id) = some x → tget s.groups x.group = some g →
    (∀ y, y ∈ s.groups → clusterOf y.2.core = c → y.2.atEntry = true → st = 0 ∨ ∀ p, p ∈ y.2.paths → p.wait = .frozen → ovOf p.pc ≠ bitsOf x.blk 0 16) →
    Goes (exec (.overlayLoadEnd c x.id) s) (fun t => t.mem = s.mem ∧ (∀ y, y ∈ (getCluster t c).cmds → y.id ≠ x.id)
      ∧ ((∀ q, q ∈ g.bgwaits → q.2 ≠ x.d) → sReg t x.group x.d = BitVec.ofNat 64 st)
      ∧ (∀ n, x.tag = some n → n < 64 → tagOn t x.core n = true))) ∧
  (∀ (s u : State) (c v : Nat) (x : XCmd), forEngine s x.id (fun q => codeRead q (c / 64) (bitsOf x.blk 64 64) (bitsOf x.blk 32 32)) = (u, .ok v) →
    crc32 (bitsOf x.blk 32 32) v = bitsOf x.blk 1216 32 → x.slot < (getCluster u c).slots.length →
    (getCluster (ovLoad s c x) c).slots[x.slot]? = some (.resident (bitsOf x.blk 0 16) (codeWords (bitsOf x.blk 32 32) v)
      ((List.range (bitsOf x.blk 128 8)).map (fun k => bitsOf x.blk (192 + 16 * k) 16)) ((getCluster u c).fetchSeq + 1))) ∧
  (∀ (s : State) (n gk : Nat) (g : Group), tget s.groups gk = some g →
    let mine := fun (p : Path) => p.wait = .frozen ∧ ovOf p.pc = n
    ((∀ p, p ∈ g.paths → ¬ mine p) → ∀ ok, thawGroup s n gk ok = s) ∧
    ((∃ p, p ∈ g.paths ∧ mine p) → g.atEntry = false → ∃ y, tget (thawGroup s n gk false).groups gk = some y ∧
      y.paths = g.paths.map (fun p => if mine p then { p with wait := .trap (headTrap p 3 2 p.mask [] 0), stalled := false } else p)))

/-- R103, R190 to R192, R309: WAITANY and WAITALL complete when a tag, or every tag, of their mask is ready and the fibres' earlier reads have
returned; FFR gives the lowest ready tag, 64 for none; BGWAIT gives a ready tag's status and otherwise waits with its register pending. -/
def Obligations.TagWords : Prop :=
  ∀ (s : State) (cx : Ctx), ctxOf s = some cx →
    (∀ (d a : Fin 32), pendingOn [64 + d.val, 64 + a.val] cx = false →
      let m := sGet cx.grp a.val
      let ready := (getCore s cx.grp.core).tags &&& m
      (m = 0 ∨ (ready ≠ 0 ∧ readsOpen cx.grp s.nextId cx.path.mask = false) → Goes (exec (.waitany d a) s) (fun t => sReg t cx.gk d.val = ready ∧ t.mem = s.mem)) ∧
      (m ≠ 0 → ready = 0 ∨ readsOpen cx.grp s.nextId cx.path.mask = true → exec (.waitany d a) s = .next (stallAt cx s)) ∧
      Goes (exec (.ffr d a) s) (fun t => sReg t cx.gk d.val = BitVec.ofNat 64 (lowLane ready) ∧ RestKept s t cx.grp.core)) ∧
    (∀ (a : Fin 32), pendingOn [64 + a.val] cx = false →
      let m := sGet cx.grp a.val
      ((getCore s cx.grp.core).tags &&& m = m → m = 0 ∨ readsOpen cx.grp s.nextId cx.path.mask = false → Goes (exec (.waitall a) s) (fun t => t.mem = s.mem ∧
        (m ≠ 0 → ∀ y, y ∈ (getCore t cx.grp.core).l1 → y.form ≠ .ut) ∧ (midClause cx → ∃ p, pathIn t cx.gk cx.lane = some p ∧ p.widx = cx.path.widx + 1))) ∧
      ((getCore s cx.grp.core).tags &&& m ≠ m ∨ (m ≠ 0 ∧ readsOpen cx.grp s.nextId cx.path.mask = true) →
        exec (.waitall a) s = .next (stallAt cx s))) ∧
    (∀ (d : Fin 32) (n : BitVec 6), pendingOn [64 + d.val] cx = false → memGate s cx.gk = true →
      (tagOn s cx.grp.core n.toNat = true → Goes (exec (.bgwait d n) s) (fun t => sReg t cx.gk d.val = tagValue s cx.grp.core n.toNat ∧ t.mem = s.mem)) ∧
      (tagOn s cx.grp.core n.toNat = false → Goes (exec (.bgwait d n) s) (fun t => ∃ y, tget t.groups cx.gk = some y ∧ (n.toNat, d.val) ∈ y.bgwaits
        ∧ memGate t cx.gk = false))) ∧
    (∀ (n d : Nat) (st : W64) (b : Nat) (y : Group), tget (tagReady s cx.grp.core n .bank st b).groups cx.gk = some y →
      (n, d) ∈ cx.grp.bgwaits → (∀ q, q ∈ cx.grp.bgwaits → q.1 = n → q.2 = d) → sGet y d = st ∧ ∀ q, q ∈ y.bgwaits → q.1 ≠ n)

/-! ## Bank-group engines (chapter 04) -/

/-- R97 to R104: BGLOAD, BGVEC and BGRUN join the queue of their set's stack and take their tag; a bad CREC ends BGRUN at once with status 4; their
events check, load the stores and start the runs; each end writes its status into its block, once and performed on other devices too, and makes the
tag ready. The model's choices here: TSTART and TEND of a refused run are free values (log 8); BGLOAD that ends ARG does so at once (log 93); a LEASE
field that must be 0 and is not gives ARG (log 109); the checks of a run that waits are made again (log 110); FORMAT is reported before VERSION (log
111). -/
def Obligations.BankCommands : Prop :=
  (∀ (s s1 : State) (cx : Ctx) (a : Fin 32) (n : BitVec 6) (blk : Nat), ctxOf s = some cx → pendingOn [64 + a.val] cx = false →
    let ks := setList blk
    (Accepted s cx n.toNat a.val 32 32 s1 blk →
      (bgRoom .load s1 blk = true → Goes (exec (.bgload a n) s) (fun t => tagOn t cx.grp.core n.toNat = false ∧ ∃ c,
        (getStack t (setStack blk)).cmdq = (getStack s1 (setStack blk)).cmdq ++ [c] ∧ c.kind = .load ∧ c.blk = blk ∧ c.set = ks
        ∧ c.tag = some n.toNat ∧ c.baddr = sGet cx.grp a.val ∧ c.started = false)) ∧
      (bgRoom .vec s1 blk = true → Goes (exec (.bgvec a n) s) (fun t => tagOn t cx.grp.core n.toNat = false ∧ ∃ c,
        (getStack t (setStack blk)).vecq = (getStack s1 (setStack blk)).vecq ++ [c] ∧ c.kind = .vec ∧ c.blk = blk ∧ c.set = ks
        ∧ c.tag = some n.toNat ∧ c.baddr = sGet cx.grp a.val ∧ c.started = false))) ∧
    (∀ u, Accepted s cx n.toNat a.val 128 128 s1 blk → bgRoom .run s1 blk = true →
      (crecOk (tagTake s1 cx.grp.core n.toNat) (some cx.grp.core) (dieOfCore cx.grp.core) (bitsOf blk 128 64) = (u, some true) →
        Goes (exec (.bgrun a n) s) (fun t => tagOn t cx.grp.core n.toNat = tagOn u cx.grp.core n.toNat ∧ ∃ c,
          (getStack t (setStack blk)).cmdq = (getStack u (setStack blk)).cmdq ++ [c] ∧ c.kind = .run ∧ c.blk = blk ∧ c.set = ks
          ∧ c.tag = some n.toNat ∧ c.started = false ∧ c.stops = [])) ∧
      (crecOk (tagTake s1 cx.grp.core n.toNat) (some cx.grp.core) (dieOfCore cx.grp.core) (bitsOf blk 128 64) = (u, some false) →
        Goes (exec (.bgrun a n) s) (fun t => tagOn t cx.grp.core n.toNat = true ∧ tagValue t cx.grp.core n.toNat = 4)))) ∧
  (∀ (s : State) (core n : Nat), tagOn (tagTake s core n) core n = false) ∧
  (∀ (s u w : State) (st id hd mv : Nat) (c : BgCmd), bgCmd s st id = some c → c.kind = .load → c.started = false → bgTurn s st c = true →
    let img := bitsOf c.blk 64 64
    let k := bitsOf hd 48 8
    (setBad c.blk = true ∨ img % 32 ≠ 0 → exec (.bgloadExecute st id) s = .next (modBgCmd s st id (fun x => { x with started := true, stat := 1 }))) ∧
    (setBad c.blk = false → bitsOf c.blk 136 120 = 0 → img % 32 = 0 → anyRunning s c.set = false → ctlRead s st id img 32 = (u, .ok hd) →
      (bitsOf hd 0 32 ≠ 0x4D504742 → exec (.bgloadExecute st id) s =
        .next (modBgCmd (clearValid u c.set) st id (fun x => { x with started := true, stat := 4 }))) ∧
      (bitsOf hd 0 32 = 0x4D504742 → 1 ≤ k → k ≤ 248 → bitsOf hd 56 8 = 0 → bitsOf hd 96 160 = 0 → bitsOf hd 32 16 = 0x0100 → selBp s ≠ 0 →
        ctlRead (clearValid u c.set) st id (img + 32) (4 * k) = (w, .ok mv) →
        exec (.bgloadExecute st id) s = .next (modBgCmd (if crc32 (4 * k) mv = bitsOf hd 64 32 then storeImage w c.set hd (codeWords (4 * k) mv) else w)
          st id (fun x => { x with started := true, stat := if crc32 (4 * k) mv = bitsOf hd 64 32 then 0 else 6 }))))) ∧
  (∀ (s : State) (ks : List Nat) (h k : Nat) (ms : List W32), k ∈ ks →
    (getBge (clearValid s ks) k).valid = false ∧ let b := getBge (storeImage s ks h ms) k
    b.valid = true ∧ b.header = h ∧ b.moves = ms) ∧
  (∀ (s u : State) (st id v : Nat) (c : BgCmd), bgCmd s st id = some c → c.kind = .vec → c.started = false → c.done = 0 → bgTurn s st c = true →
    setBad c.blk = false → bitsOf c.blk 146 14 = 0 → bitsOf c.blk 177 79 = 0 → bitsOf c.blk 64 64 % 64 = 0 → vecNent c.blk = 1 → vecFirst c.blk < 256 →
    (if vecForce c.blk then anyRunning s c.set = false else ∀ k, k ∈ c.set → vecFull (getBge s k) (vecFirst c.blk) = false) →
    ctlRead s st id (bitsOf c.blk 64 64) 64 = (u, .ok v) →
    Goes (exec (.bgvecExecute st id) s) (fun t => t.mem = u.mem ∧ ∀ k, k ∈ c.set → tgetD (getBge t k).vs (vecFirst c.blk) 0 = v)) ∧
  (∀ (s u : State) (st va n v r : Nat) (c : BgCmd), c.reported = false → accWrite s none (st / 4) va n v 0 false = (u, .ok r) →
    let q := modBgCmd (txMark u s.fab.tx.length (.xfer (stackKey st) c.id reportUnit)) st c.id (fun x => { x with reported := true })
    bgReport s st c va n v = (q, !(xOut q (stackKey st) c.id)) ∧ q.mem = u.mem) ∧
  (∀ (s u : State) (st id : Nat) (c : BgCmd), bgCmd s st id = some c → c.started = true →
    (c.kind = .load → bgReport s st c (c.baddr.toNat + 16) 1 c.stat = (u, true) → exec (.bgloadEnd st id) s =
      .next (cmdDone (dropBgCmd u st id) c.core id c.tag .bank (BitVec.ofNat 64 c.stat) c.block none c.node)) ∧
    (c.kind = .vec → bgReport s st c (c.baddr.toNat + 20) 3 (c.stat + c.done * 256) = (u, true) →
      Goes (exec (.bgvecEnd st id) s) (fun t => (∀ n, c.tag = some n → n < 64 → tagOn t c.core n = true) ∧
        (c.stat = 0 → ∀ k, k ∈ c.set → (vecFirst c.blk < 128 → (getBge t k).full0 = true) ∧ (128 < vecFirst c.blk + vecNent c.blk → (getBge t k).full1 = true)) ∧
        (c.stat ≠ 0 → ∀ k, getBge t k = getBge u k)))) ∧
  (∀ (s : State) (st id : Nat) (c : BgCmd), bgCmd s st id = some c → c.kind = .run → c.started = false → c.stat = 0 → bgTurn s st c = true →
    let ls := (runLeases c.blk).map (leaseNamed s st)
    let f1 := drawFree s
    let f2 := drawFree f1.2
    let refused := fun (v : Nat) => modBgCmd f2.2 st id (fun x => { x with stat := v, tstart := f1.1.toNat, tend := f2.1.toNat })
    (runArg c = true → exec (.bgrunStart st id) s = .next (refused 1)) ∧
    (runArg c = false → none ∈ ls → exec (.bgrunStart st id) s = .next (refused 2)) ∧
    (runArg c = false → (∀ o, o ∈ ls → ∃ l, o = some l ∧ l.st ≠ .free) → (∃ l, some l ∈ ls ∧ (l.st = .ending ∨ l.st = .returning)) →
      exec (.bgrunStart st id) s = .next (refused 3)) ∧
    (runArg c = false → (runLeases c.blk).Nodup → (∀ o, o ∈ ls → ∃ l, o = some l ∧ (l.st = .reserved ∨ l.st = .held)) → anyRunning s c.set = false →
      exec (.bgrunStart st id) s = .next (startRun s st c))) ∧
  (∀ (s : State) (st k : Nat) (c : BgCmd), k ∈ c.set → bitsOf c.blk 192 1 = 0 → (∀ j, j ∈ c.set → progOk (getBge s j) c = true) →
    let b := getBge (startRun s st c) k
    b.run = some c.id ∧ b.pc = bitsOf c.blk 200 8 ∧ b.rowptr = 0 ∧ b.colptr = 0 ∧ b.stream = none ∧ b.acc = (getBge s k).acc ∧ b.vs = (getBge s k).vs
      ∧ ∀ i, i < 4 → tgetD b.g i 0 = bitsOf c.blk (288 + 32 * i) 32) ∧
  (∀ (s u : State) (st id v : Nat) (c : BgCmd), bgCmd s st id = some c → c.kind = .run → c.started = true → c.stat = 0 → c.stops.length = c.set.length → c.reported = false →
    spanWrite s none (st / 4) (bitsOf c.blk 128 64) (recordOf c).1 (recordOf c).2 = (u, .ok v) →
    let q := modBgCmd (txMark u s.fab.tx.length (.xfer (stackKey st) id reportUnit)) st id (fun x => { x with reported := true })
    xOut q (stackKey st) id = false →
    exec (.bankRunEnd st id) s = .next (cmdDone (dropBgCmd q st id) c.core id c.tag .bank
      (BitVec.ofNat 64 (256 * runFirst c + 65536 * runNbad c)) c.block none c.node))

/-- R61, R73 to R79, R84 to R87, Tables 4.3, 4.4 and 4.5: a bank move in the engine in focus: an illegal move, an operand out of range and HALT
stop the run; a false guard only advances; what a write to each kind of port does; an engine whose clock has stopped does nothing. -/
def Obligations.BankMoves : Prop :=
  ∀ (i : Instr) (m : BgMove) (s : State) (k : Nat) (c : BgCmd), bankMoveOf i = some m → s.bfocus = some k → runOf s k = some c →
    let b := getBge s k
    let rstr := bitsOf c.blk 256 16
    let u := if moveRow b m then touchRow s k c else s
    (b.stopped = true → exec i s = .next s) ∧ (b.stopped = false →
    (moveIllegal m = true → exec i s = .next (stopRun u k 7 0)) ∧
    (moveIllegal m = false → m.src = none → moveRange m.dst m.imm rstr = true → exec i s = .next (stopRun u k 8 0)) ∧
    (moveIllegal m = false → (m.src = none → moveRange m.dst m.imm rstr = false) →
      (guardOk b m = false → b.pc + 1 < b.moves.length → Goes (exec i s) (fun t => getBge t k = { b with pc := b.pc + 1 } ∧ t.mem = s.mem)) ∧
      (guardOk b m = true → moveHeld b m = true → exec i s = .next s) ∧
      (∀ stat p, guardOk b m = true → moveHeld b m = false → m.src = some p → portRead u k c p m.md = .stop stat → exec i s = .next (stopRun u k stat 0)) ∧
      (∀ x, guardOk b m = true → moveHeld b m = false →
        ((m.src = none ∧ x = m.imm) ∨ ∃ p, m.src = some p ∧ portRead u k c p m.md = .val x) → x < 2 ^ 32 →
        (moveRange m.dst x rstr = true → exec i s = .next (stopRun u k 8 0)) ∧
        (moveRange m.dst x rstr = false → moveHeldAcc b m x = true → exec i s = .next u) ∧
        (m.dst = 0x24 → x ≤ 255 → exec i s = .next (stopRun u k 0 x)) ∧
        (moveRange m.dst x rstr = false → moveHeldAcc b m x = false → b.pc + 1 < b.moves.length →
          let v := BitVec.ofNat 32 x
          let q := bitsOf m.md 0 6
          let done := fun (P : Bge → Prop) => Goes (exec i s) (fun t => P (getBge t k) ∧ (getBge t k).pc = b.pc + 1 ∧ t.mem = s.mem)
          (m.dst < 8 → done (fun e => tgetD e.g m.dst 0 = x)) ∧
          (8 ≤ m.dst → m.dst < 11 → done (fun e => tgetD e.l (m.dst - 8) 0 = x)) ∧
          (m.dst = 0x0B → done (fun e => e.rowptr = x)) ∧ (m.dst = 0x0C → done (fun e => e.colptr = x)) ∧
          (m.dst = 0x0D → done (fun e => e.dcfg = x)) ∧ (m.dst = 0x18 → done (fun e => e.addo = x)) ∧
          (m.dst = 0x19 → done (fun e => e.addq = (if m.md % 2 = 1 then BitVec.ofNat 32 b.addo - v else BitVec.ofNat 32 b.addo + v).toNat)) ∧
          (m.dst = 0x1B → done (fun e => e.cmpo = x)) ∧ (m.dst = 0x1D → done (fun e => e.shfo = x)) ∧
          (m.dst = 0x1C → b.cmpo < 2 ^ 32 → done (fun e => e.c.getLsbD (m.md % 4) = (match bitsOf m.md 2 3 with
            | 0 => BitVec.ofNat 32 b.cmpo == v | 1 => BitVec.ofNat 32 b.cmpo != v | 2 => (BitVec.ofNat 32 b.cmpo).ult v
            | 3 => v.ule (BitVec.ofNat 32 b.cmpo) | 4 => (BitVec.ofNat 32 b.cmpo).slt v | _ => v.sle (BitVec.ofNat 32 b.cmpo))
            ∧ ∀ j, j < 4 → j ≠ m.md % 4 → e.c.getLsbD j = b.c.getLsbD j)) ∧
          (m.dst = 0x1E → b.shfo < 2 ^ 32 → done (fun e => BitVec.ofNat 32 e.shfq = (match bitsOf m.md 0 2 with
            | 0 => BitVec.ofNat 32 b.shfo <<< x | 1 => BitVec.ofNat 32 b.shfo >>> x | _ => (BitVec.ofNat 32 b.shfo).sshiftRight x))) ∧
          (m.dst = 0x20 → x < b.moves.length → Goes (exec i s) (fun t => (getBge t k).pc = x ∧ t.mem = s.mem)) ∧
          (∀ j, j < 3 → m.dst = 0x21 + j → x < b.moves.length → Goes (exec i s) (fun t => tgetD (getBge t k).l j 0 = tgetD b.l j 0 - 1 ∧
            (getBge t k).pc = (if 1 < tgetD b.l j 0 then x else b.pc + 1) ∧ t.mem = s.mem)) ∧
          (m.dst = 0x25 → 1 ≤ x → done (fun e => ∃ y, e.stream = some y ∧ y.slices = 0
            ∧ y.kind = .dot (bitsOf m.md 0 1 = 1) (bitsOf m.md 1 1 = 1) (bitsOf m.md 2 1 = 1) x)) ∧
          (m.dst = 0x26 → done (fun e => ∀ j, j < 64 → tgetD e.acc j 0 = if 4 * x ≤ j ∧ j < 4 * x + 4 then 0 else tgetD b.acc j 0)) ∧
          (m.dst = 0x28 → done (fun e => tgetD e.acc q 0 = x)) ∧
          (m.dst = 0x29 → done (fun e => ∀ j, j < 64 → tgetD e.acc j 0 = if 4 * x ≤ j ∧ j < 4 * x + 4
            then mul32 (mul32 (tgetD b.acc j 0) (to32 fmtE4m3 (tgetD b.chs j 0x3F8038 % 256))) (to32 fmtB16 (tgetD b.chs j 0x3F8038 / 256 % 65536))
            else tgetD b.acc j 0)) ∧
          (m.dst = 0x2A → done (fun e => tgetD e.chs q 0x3F8038 = x)) ∧
          (m.dst = 0x2B → done (fun e => ∃ y, e.stream = some y ∧ y.slices = 0 ∧ y.kind = .bsld (x % 128) (x / 128))) ∧
          (m.dst = 0x2C → ∀ sp, spadOf s c.core c.block = some sp → Inv s →
            let n := x / 64 % 64 + 1
            let at_ := bitsOf c.blk 224 32 + ordOf c k * rstr + 4 * (x / 4096 % 65536)
            Goes (exec i s) (fun t => getBge t k = { b with pc := b.pc + 1 } ∧ t.mem = s.mem ∧
              (∀ o, spadAt t c.core c.block o = if at_ ≤ o ∧ o < at_ + 4 * n
                then BitVec.ofNat 8 (tgetD b.acc (x % 64 + (o - at_) / 4) 0 / 2 ^ (8 * ((o - at_) % 4))) else spadAt s c.core c.block o) ∧
              ∀ z, (tgetD (getCore t c.core).spads c.block sp).poison.contains z = (sp.poison.contains z && !(at_ ≤ 32 * z && 32 * z + 32 ≤ at_ + 4 * n)))) ∧
          (m.dst = 0x2D → done (fun e => ∃ y, e.stream = some y ∧ y.slices = 0 ∧ y.kind = .accst (x % 8) (x / 8))) ∧
          (m.dst = 0x2E → done (fun e => ∃ y, e.stream = some y ∧ y.slices = 0 ∧ y.kind = .accld (x % 8) (x / 8))) ∧
          (m.dst = 0x2F → done (fun e => (x = 0 → e.full0 = false ∧ e.full1 = b.full1) ∧ (x = 1 → e.full1 = false ∧ e.full0 = b.full0)
            ∧ (x = 2 → e.full0 = false ∧ e.full1 = false))) ∧
          (∀ la li ix, 0x14 ≤ m.dst → m.dst ≤ 0x17 → rowAt u k c b.rowptr = .ok la li ix → Inv s →
            let at_ := la + (m.dst - 0x14) * 1024 + b.colptr * 32 + 4 * (m.md % 8)
            Goes (exec i s) (fun t => (getBge t k).pc = b.pc + 1 ∧ ∀ o, memAt t o =
              if at_ ≤ o ∧ o < at_ + 4 then BitVec.ofNat 8 (x / 2 ^ (8 * (o - at_))) else memAt s o))))))

/-- R61, R78, R80 to R82, R84, R86, R90 to R93: a stream's slices, with the sums of DOT, the scales of BSLD and the accumulators of ACCST and ACCLD;
its waits and its poison; the steps of a chime with its agreement, a stopped engine and its run, the expiry of a lease on an engine's own clock, the
refresh and the taken row buffer. The model's choices here: MIDX of a stopped stream is the engine's PC (log 94); a source that cannot be read takes
part in the agreement, and DIVERGE ranks before RANGE (log 95); in the step in which one engine stops, the moves of the others take effect (log
112); the refresh and a taken row buffer change no result (log 24). -/
def Obligations.BankEvents : Prop :=
  (∀ (s : State) (k : Nat) (c : BgCmd) (q bk la li ix : Nat), runOf s k = some c → bitsOf c.blk 192 1 = 0 → Inv s →
    let b := getBge s k
    b.stopped = false →
    rowAt s k c b.rowptr = .ok la li ix →
    (b.stream = some ⟨.accst q bk, 0, 0⟩ → (∀ j, tgetD b.acc j 0 < 2 ^ 32) →
      Goes (exec (.bankStreamEnd k) s) (fun t => (getBge t k).stream = none ∧ ∀ o, memAt t o =
        let at_ := la + bk * 1024 + b.colptr * 32
        if at_ ≤ o ∧ o < at_ + 32 then BitVec.ofNat 8 (tgetD b.acc (8 * q + (o - at_) / 4) 0 / 2 ^ (8 * ((o - at_) % 4))) else memAt s o)) ∧
    (b.stream = some ⟨.accld q bk, 0, 0⟩ → (sliceRead s la bk b.colptr).2 = false →
      Goes (exec (.bankStreamEnd k) s) (fun t => t.mem = s.mem ∧ (getBge t k).stream = none ∧
        (getBge t k).rowptr = (if b.colptr = 31 then (b.rowptr + 1) % 65536 else b.rowptr) ∧ (getBge t k).colptr = (if b.colptr = 31 then 0 else b.colptr + 1) ∧
        ∀ j, j < 8 → tgetD (getBge t k).acc (8 * q + j) 0 = bitsOf (sliceRead s la bk b.colptr).1 (32 * j) 32)) ∧
    (b.stream = some ⟨.accld q bk, 0, 0⟩ → (sliceRead s la bk b.colptr).2 = true → exec (.bankStreamEnd k) s = .next (stopRun s k 6 0))) ∧
  (∀ (s : State) (k : Nat) (c : BgCmd) (y : Stream) (la li ix : Nat), runOf s k = some c → bitsOf c.blk 192 1 = 0 →
    let b := getBge s k
    let sl := fun (bk : Nat) => (sliceRead s la bk b.colptr).1
    let bad := fun (bk : Nat) => (sliceRead s la bk b.colptr).2
    b.stopped = false → b.stream = some y → rowAt s k c b.rowptr = .ok la li ix →
    exec (.bankStreamEnd k) s = .next (streamGo k (streamLen y.kind - y.slices) s) ∧
    (streamWaits b y = true → ∀ n, streamGo k n s = s) ∧
    (streamWaits b y = false → (∃ bk, bk ∈ streamReads y.kind ∧ bad bk = true) → ∀ n, streamGo k (n + 1) s = stopRun s k 6 0) ∧
    (streamWaits b y = false → (∀ bk, bk < 4 → bad bk = false) → (match y.kind with | .dot _ _ _ _ | .bsld _ _ => True | _ => False) →
      ∃ u, (∀ n, streamGo k (n + 1) s = streamGo k n u) ∧ u.mem = s.mem ∧ (∀ j, j ≠ k → getBge u j = getBge s j) ∧
        let e := getBge u k
        e.stream = (if y.slices + 1 < streamLen y.kind then some { y with slices := y.slices + 1 } else none) ∧
        e.rowptr = (if b.colptr = 31 then (b.rowptr + 1) % 65536 else b.rowptr) ∧ e.colptr = (if b.colptr = 31 then 0 else b.colptr + 1) ∧ e.vs = b.vs ∧
        (∀ mx4 ini strm len, y.kind = .dot mx4 ini strm len →
          let per := if mx4 then 64 else 16
          let first := y.slices * per
          let cnt := min len (first + per) - first
          let leaves := fun (lo : Bool) => (List.range cnt).any (fun j => decide (first + j + 1 < len ∧
            (dotEntry b (first + j) < 128 ↔ lo = true) ∧ (dotEntry b (first + j + 1) < 128 ↔ lo = false)))
          streamLen y.kind = (len + per - 1) / per ∧
          (∀ bk, bk < 4 → tgetD e.acc (4 * (b.dcfg % 16) + bk) 0 = (List.range cnt).foldl (fun a j =>
            let p := dotProd b mx4 bk (sl bk) (first + j)
            if first + j = 0 ∧ ini = true then p else add32 a p) (tgetD b.acc (4 * (b.dcfg % 16) + bk) 0)) ∧
          (∀ j, j / 4 ≠ b.dcfg % 16 → tgetD e.acc j 0 = tgetD b.acc j 0) ∧
          e.full0 = (b.full0 && !(strm && leaves true)) ∧ e.full1 = (b.full1 && !(strm && leaves false))) ∧
        (∀ n f, y.kind = .bsld n f → e.acc = b.acc ∧ e.full0 = b.full0 ∧ e.full1 = b.full1 ∧ streamLen y.kind = n ∧ ∀ bk p, bk < 4 → p < 2048 →
          let j := (p + 2048 - 32 * (f + y.slices) % 2048) % 2048
          tgetD e.bs (bk * 2048 + p) 0x7F = if j < 32 then bitsOf (sl bk) (8 * j) 8 else tgetD b.bs (bk * 2048 + p) 0x7F))) ∧
  (∀ (b : Bge) (bk sl i : Nat), let x := bitsOf (tgetD b.vs ((b.dcfg / 16 % 256 + i / 32) % 256) 0) (16 * (i % 32)) 16
    let sc := tgetD b.bs (bk * 2048 + (b.dcfg / 4096 % 2048 + i / 32) % 2048) 0x7F
    dotProd b false bk sl i = mul32 (to32 fmtB16 (bitsOf sl (16 * (i % 16)) 16)) (to32 fmtB16 x) ∧
    (sc % 256 = 0xFF → sc < 256 → dotProd b true bk sl i = 0x7FC00000) ∧
    (∀ n m e, sc < 0xFF → e2m1Val (bitsOf sl (4 * (i % 64)) 4) = .fin n m e →
      dotProd b true bk sl i = (fMulV fmt32 .rne (.fin n m (e + ((sc : Int) - 127))) (fUnpack fmtB16 x)).1)) ∧
  (∀ (s : State) (k stat hcode : Nat) (c : BgCmd), runOf s k = some c → (getBge (stopOne s k stat hcode) k).run = none ∧
    ∀ d, (getStack (stopOne s k stat hcode) (bgeStack k)).cmdq.find? (·.id = c.id) = some d →
      ∃ x, tget d.stops (ordOf c k) = some x ∧ x.stat = stat ∧ x.hcode = hcode ∧ x.midx = (getBge s k).pc % 256 ∧ x.tstop = s.time.now) ∧
  (∀ (s : State) (st id : Nat) (c : BgCmd), bgCmd s st id = some c → c.kind = .run → c.started = true → bitsOf c.blk 192 1 = 1 →
    anyRunning s c.set = true → (∀ k, k ∈ c.set → (getBge s k).run = some id ∧ (getBge s k).stream = none ∧ (getBge s k).stopped = false) → c.set ≠ [] →
    let m := moveOfWord (((getBge s (c.set.headD 0)).moves[c.pc]?.getD 0).toNat)
    (∀ k, k ∈ c.set → (match moveIn s k c m with | .stall => False | _ => True)) →
    exec (.bankChimeStep st id) s = .next (chimeMove s st c m)) ∧
  (∀ (s : State) (st : Nat) (c : BgCmd) (m : BgMove) (j k : Nat), moveIllegal m = false → mustAgree m.dst = true → j ∈ c.set → k ∈ c.set →
    agreeKey s j c m ≠ agreeKey s k c m → chimeMove s st c m = stopAll s c 9) ∧
  (∀ (s : State) (k n : Nat) (c : BgCmd), runOf s k = some c →
    (c.e ≠ 0 → c.e ≤ (getBge s k).clock → (getBge s k).stream = none → (getBge s k).stopped = false → exec (.bgeLeaseExpiry k n) s = .next (stopRun s k 1 0)) ∧
    ((getBge s k).clock < c.e → exec (.bgeLeaseExpiry k n) s = .next s)) ∧
  (∀ (s : State) (k bank row : Nat), exec (.bankRefresh k bank) s = .next s ∧
    Goes (exec (.bufferTakeTimeout k bank row) s) (fun t => t.mem = s.mem ∧ t.bges = s.bges ∧ (getStack t (bgeStack k)).taken = (getStack s (bgeStack k)).taken ++ [(k, bank, row)]) ∧
    Goes (exec (.bgeClockStop k) s) (fun t => t.mem = s.mem ∧ getBge t k = { getBge s k with stopped := true } ∧ ∀ j, j ≠ k → getBge t j = getBge s j))

/-- R105, R106, R151, R152: GRED sums the products of each bank's lanes at the bank's lowest lane and clears what MZ clears with its results (log
113); MLR reads its block and then the members; the completion of MLR writes each lane's sum in ascending member order. MLR completes its issue when
its block reads and its lanes' addresses pass the checks; GRED_COMPLETE and MLR_COMPLETE complete with the result of every lane in its register when
every lane has its element or every member's answer. The model's choice of the lane whose code CODE takes is log 117. -/
def Obligations.SumWords : Prop :=
  let quiet := fun (s : State) => s.groups.any (fun q => q.2.words.any (fun w => match w.op with | .fence _ _ => true | _ => false)) = false
  let inSlots := fun (x : Group) (w : MemWord) => w.uni = false ∧ w.lanes.Pairwise (fun a b => a.1 < b.1) ∧ w.lanes ≠ [] ∧
    ∀ y, y ∈ w.lanes → y.2.dlog < 65536 ∧ (getFibre x y.1).low.toNat ≤ y.2.dlog ∧ y.2.dlog < (getFibre x y.1).low.toNat + x.depth
  let clears := fun (x : Group) (w : MemWord) => ∀ z, z ∈ w.ans → tget w.lanes z.1 = none ∧ z.2.1 < 65536 ∧
    (getFibre x z.1).low.toNat ≤ z.2.1 ∧ z.2.1 < (getFibre x z.1).low.toNat + x.depth
  let landed := fun (t : State) (g : Nat) (x : Group) (w : MemWord) (f : Nat → W64 → Prop) =>
    ∃ z, tget t.groups g = some z ∧ z.words = [] ∧ z.paths = x.paths ∧ ∀ y v, y ∈ w.lanes → f y.1 v →
      slotVal t g y.1 (slotOf x y.2.dlog) = v
  (∀ (s : State) (g id : Nat) (x : Group) (w : MemWord) (fp32 : Bool) (val wt : Nat → W64) (bank : Nat → Nat), wordAt s g id = some (x, w) →
    w.op = .gred fp32 → x.words = [w] → x.replays = [] → quiet s → inSlots x w → clears x w →
    (∀ y, y ∈ w.lanes → y.2.st = .data (val y.1) (BitVec.ofNat 64 (bank y.1)) ∧ y.2.d0 = wt y.1 ∧ bank y.1 < 2 ^ 64) →
    ∃ t, exec (.gredComplete g id) s = .next t ∧ t.mem = s.mem ∧ (∀ q, q ≠ g → tget t.groups q = tget s.groups q) ∧
      landed t g x w (fun l v => (l, v) ∈ gredSums fp32 (w.lanes.map (fun y => (y.1, bank y.1, val y.1, wt y.1)))) ∧
      ∀ z, z ∈ w.ans → slotVal t g z.1 (slotOf x z.2.1) = 0) ∧
  (∀ (s s2 : State) (cx : Ctx) (d b : Fin 32) (a : Reg) (fp32 : Bool) (blk : Nat), ctxOf s = some cx → NothingOut s cx.gk cx.grp →
    pendingOn (d.val :: (64 + b.val) :: regRegs a) cx = false → partLanes cx ≠ [] → (sGet cx.grp b.val).toNat % 256 = 0 →
    spanRead (settleGroup s cx.gk) (some cx.grp.core) (dieOfCore cx.grp.core) (sGet cx.grp b.val).toNat 256 = (s2, .ok blk) →
    tget s2.groups cx.gk = some cx.grp → NothingOut s2 cx.gk cx.grp →
    (pendList s2 (dieOfCore cx.grp.core)).length + newPages s2 cx.grp.core (.mlr fp32) ((partLanes cx).map (fun l => (base cx a l).toNat)) ≤ 1024 →
    fabWould s2 cx.grp.core (.mlr fp32) ((partLanes cx).map (fun l => (base cx a l).toNat)) blk = false →
    (∀ l, l ∈ partLanes cx → (base cx a l).toNat % (if fp32 then 4 else 2) = 0 ∧ canonical (base cx a l).toNat = true ∧
      canonical ((base cx a l).toNat + (if fp32 then 4 else 2) - 1) = true) →
    ∃ u z w, exec (.mlr d a b fp32) s = .next (advance cx u) ∧ u.mem = s2.mem ∧ tget u.groups cx.gk = some z ∧ z.words = [w] ∧
      w.id = s2.nextId ∧ w.op = .mlr fp32 ∧ w.blk = blk ∧ w.ans = [] ∧ tkeys w.lanes = partLanes cx ∧
      ∀ l y, tget w.lanes l = some y → y.va = base cx a l ∧ y.dlog = logicalOf (getFibre cx.grp l) d.val ∧
        (tlbLook s2 cx.grp.core y.va.toNat = none → y.st = .walk ∨ ∃ e, y.st = .req (localOf (daOf e y.va.toNat)) 0 e.nc) ∧
        ∀ e, (∀ m, m ∈ partLanes cx → tlbLook s2 cx.grp.core (base cx a m).toNat = some e) →
          y.st = .req (localOf (daOf e y.va.toNat)) 0 e.nc) ∧
  (∀ (s u : State) (g id v : Nat) (x : Group) (w : MemWord) (fp32 : Bool), wordAt s g id = some (x, w) → w.op = .mlr fp32 → x.words = [w] →
    x.replays = [] → inSlots x w → (∀ y, y ∈ w.lanes → (∃ a b n, y.2.st = .req a b n) ∧ mlrReady w y.1 = true) →
    let n := bitsOf w.blk 0 6
    let ok := fun (i : Nat) => w.lanes.all (fun y => (tgetD w.ans (y.1 * 32 + i) (1, 0)).1 = 0)
    let mask := ((List.range n).filter ok).foldl (fun a i => a + 2 ^ i) 0
    let first := fun (i : Nat) => ((w.lanes.map (fun y => (tgetD w.ans (y.1 * 32 + i) (1, 0)).1)).find? (· ≠ 0)).getD 0
    let out := if mlrBad w.blk then 5 * 2 ^ 64 else mask + (match (List.range n).find? (fun i => !(ok i)) with | some i => first i | none => 0) * 2 ^ 64
    (∀ p, p ∈ w.lanes.head? → spanWrite s (some x.core) (dieOfCore x.core) (p.2.d1.toNat + 8) 9 out = (u, .ok v)) →
    tget u.groups g = some x → quiet u →
    ∃ t, exec (.mlrComplete g id) s = .next t ∧ t.mem = u.mem ∧ (∀ q, q ≠ g → tget t.groups q = tget u.groups q) ∧
      landed t g x w (fun l r => r = mlrLane w l)) ∧
  (∀ (s : State) (cx : Ctx) (d b : Fin 32) (a : Reg) (fp32 : Bool) (s2 : State) (blk : Nat), ctxOf s = some cx → NothingOut s cx.gk cx.grp →
    pendingOn (d.val :: (64 + b.val) :: regRegs a) cx = false →
    (partLanes cx = [] → Goes (exec (.mlr d a b fp32) s) (fun t => t.mem = s.mem ∧ ∀ l, Active cx l →
      vReg t cx.gk l d.val = if (pfxOf cx).mz then 0 else vGet cx.grp l d.val)) ∧
    (partLanes cx ≠ [] → settleGroup s cx.gk = s → ReadsBlock s cx b.val 256 256 s2 blk →
      let s3 := settleGroup (zeroMasked cx s2 d.val) cx.gk
      let ents := (partLanes cx).map (fun l => (l, base cx a l, (0 : W64), sGet cx.grp b.val))
      MayIssue s3 cx (.mlr fp32) (ents.map (fun e => e.2.1.toNat)) blk →
      exec (.mlr d a b fp32) s = .next (advance cx (settleGroup (afterStart (startWord { s3 with nextId := s3.nextId + 1 } cx.gk
        { issued ⟨.mlr fp32, .v d, [], none, none, fun _ => ents⟩ cx s3.nextId with blk := blk }) cx.gk s3.nextId) cx.gk)))) ∧
  (∀ (s : State) (g id : Nat) (x : Group) (w : MemWord) (fp32 : Bool) (val wt : Nat → W64) (bank : Nat → Nat), wordAt s g id = some (x, w) →
    w.op = .gred fp32 → w.lanes ≠ [] → (∀ y, y ∈ w.lanes → y.2.st = .data (val y.1) (BitVec.ofNat 64 (bank y.1)) ∧ y.2.d0 = wt y.1 ∧ bank y.1 < 2 ^ 64) →
    exec (.gredComplete g id) s = .next (settleGroup (landEnd g id (w.lanes.map Prod.fst)
      (landAll s g w ((gredSums fp32 (w.lanes.map (fun y => (y.1, bank y.1, val y.1, wt y.1)))).map (fun z => (z.1, destLog w z.1, z.2))
        ++ w.ans.map (fun z => (z.1, z.2.1, 0))))) g)) ∧
  (∀ (fp32 : Bool) (pre post : List (Nat × Nat × W64 × W64)) (l b : Nat) (v wt : W64), (∀ y, y ∈ pre → y.2.1 ≠ b) → (∀ y, y ∈ post → y.2.1 ≠ b) →
    (∀ y, y ∈ pre ++ post → y.1 ≠ l) →
    (l, BitVec.ofNat 64 (mul32 (if fp32 then v.toNat % 2 ^ 32 else (fConvert fmt32 fmtB16 .rne false (v.toNat % 65536)).1) (wt.toNat % 2 ^ 32)))
      ∈ gredSums fp32 (pre ++ (l, b, v, wt) :: post)) ∧
  (∀ (s u : State) (g id v : Nat) (x : Group) (w : MemWord) (fp32 : Bool), wordAt s g id = some (x, w) → w.op = .mlr fp32 → w.lanes ≠ [] →
    (∀ y, y ∈ w.lanes → (∃ a b n, y.2.st = .req a b n) ∧ mlrReady w y.1 = true) → mlrBad w.blk = false →
    (∀ y i, y ∈ w.lanes → i < bitsOf w.blk 0 6 → (tgetD w.ans (y.1 * 32 + i) (1, 0)).1 = 0) →
    (∀ p, p ∈ w.lanes.head? → spanWrite s (some x.core) (dieOfCore x.core) (p.2.d1.toNat + 8) 9 (2 ^ bitsOf w.blk 0 6 - 1) = (u, .ok v)) →
    exec (.mlrComplete g id) s = .next (settleGroup (landEnd g id (w.lanes.map Prod.fst)
      (landAll (txMark u s.fab.tx.length (.drain x.core [g] [x.block])) g w (w.lanes.map (fun y => (y.1, destLog w y.1, mlrLane w y.1))))) g)) ∧
  (∀ (w : MemWord) (l : Nat) (f : Nat → Nat), mlrBad w.blk = false → (∀ i, i < bitsOf w.blk 0 6 → tget w.ans (l * 32 + i) = some (0, f i)) →
    let fmt := match w.op with | .mlr true => fmt32 | _ => fmtB16
    ∃ sum, sum = (List.range (bitsOf w.blk 0 6)).foldl (fun acc i => add32 acc (to32 fmt (f i))) 0x80000000
      ∧ mlrLane w l = BitVec.ofNat 64 (sum + bitsOf w.blk 0 6 * 2 ^ 40))

/-! ## Lease events and LAYOUT (chapter 03) -/

/-- R53, R55, R57, R58, R61, R70: the events that move a lease between its states, the engines that a revocation stops, the clocks that a read-back
slews, and the start and end of a LAYOUT command. The model's choices here: the state between the last engine's stop and FREE, a record that cannot be
written yet, and a cancelled lease that waits for its record (log 62). -/
def Obligations.LeaseEvents : Prop :=
  (∀ (s : State) (st x : Nat), let l := leaseEntry s st x
    (l.st = .reserved → l.tres + l.dur * 1000 ≤ s.time.now → exec (.leaseReservationTimeout st x) s = .next (cancelLease s st x).1) ∧
    (l.st = .reserved → s.time.now < l.tres + l.dur * 1000 → exec (.leaseReservationTimeout st x) s = .next s) ∧
    (l.st = .giving false → sweepBusy s l.rowSets = false → Goes (exec (.sweepComplete st x) s) (fun t =>
      leaseEntry t st x = { l with st := .held, e := s.time.now + l.dur * 1000, tstart := s.time.now })) ∧
    (l.st = .giving true → sweepBusy s l.rowSets = false →
      exec (.sweepComplete st x) s = .next (cancelLease s st x).1) ∧
    (∀ b, l.st = .giving b → sweepBusy s l.rowSets = true → exec (.sweepComplete st x) s = .next (sweepSnoops s l.rowSets)) ∧
    (l.st = .held → l.e ≤ s.time.now → Goes (exec (.leaseExpiry st x) s) (fun t => t.mem = s.mem ∧ t.groups = s.groups ∧ t.bges = s.bges ∧
      leaseEntry t st x = { l with st := .ending, cause := 2, tend := s.time.now } ∧ ∀ y, y ≠ x → leaseEntry t st y = leaseEntry s st y)) ∧
    (l.st = .held → s.time.now < l.e → exec (.leaseExpiry st x) s = .next s) ∧
    (l.st = .ending → l.tend + 2000 ≤ s.time.now → exec (.endingTimeout st x) s =
      .next (if runsUnder s st x = [] then returnLease s st x else revokeLease s st x)) ∧
    (l.st = .ending → s.time.now < l.tend + 2000 → exec (.endingTimeout st x) s = .next s) ∧
    (l.st = .ending → takeWaits s st x = true → runsUnder s st x = [] → exec (.leaseReturn st x) s = .next (returnLease s st x)) ∧
    (l.st = .returning → exec (.leaseReturn st x) s = .next (freeLease s st x).1) ∧
    returnLease s st x = (freeLease (modLease s st x (fun y => { y with st := .returning })) st x).1 ∧
    cancelLease s st x = freeLease (modLease s st x (fun y => { y with cause := 4 })) st x ∧
    (∀ u, recordTry s l.lrec (leaseRecord s st x l) = (u, true) →
      ∃ v, freeLease s st x = (modeResolve (serveHolds v (inRows l.rowSets)) st (handleOf st x l.gen) (some 3) (some 0), true)
        ∧ leaseEntry v st x = { Lease.reset with gen := ((leaseEntry u st x).gen + 1) % 64 } ∧ v.mem = u.mem
        ∧ (getStack v st).rowCache = (getStack u st).rowCache.filter (·.lease ≠ x)
        ∧ ∀ y, y ≠ x → leaseEntry v st y = leaseEntry u st y) ∧
    (∀ u, recordTry s l.lrec (leaseRecord s st x l) = (u, false) → freeLease s st x = (u, false))) ∧
  (∀ (s : State) (c : BgCmd) (stat k : Nat), (∀ j, j ∈ c.set → runOf s j = some c) → k ∈ c.set → (getBge (stopAll s c stat) k).run = none) ∧
  (∀ (s : State) (st : Nat), s.time.now / 1000 ≠ (getStack s st).readback / 1000 → driftLeases s st = [] →
    Goes (exec (.clockReadback st) s) (fun t => (getStack t st).readback = s.time.now ∧ t.mem = s.mem ∧ t.groups = s.groups ∧
      (∀ k b, tget s.bges k = some b → bgeStack k = st → b.stopped = false →
        (getBge t k).clock = if b.clock < s.time.now then b.clock + 1 else if s.time.now < b.clock then b.clock - 1 else b.clock) ∧
      (∀ k b, tget s.bges k = some b → bgeStack k ≠ st ∨ b.stopped = true → getBge t k = b))) ∧
  (∀ (s : State) (st : Nat), s.time.now / 1000 = (getStack s st).readback / 1000 → exec (.clockReadback st) s = .next s) ∧
  (∀ (s u : State) (st : Nat) (c : LayCmd) (q : List LayCmd), (getStack s st).layq = c :: q → c.started = false →
    (layBad c.blk = true → Goes (exec (.layoutCommandStart st) s) (fun t => t.mem = s.mem ∧
      (getStack t st).layq = { c with started := true, stat := 1, ended := true } :: q)) ∧
    (layBad c.blk = false → c.badDst = true → Goes (exec (.layoutCommandStart st) s) (fun t => t.mem = s.mem ∧
      (getStack t st).layq = { c with started := true, stat := 3, ended := true } :: q)) ∧
    (∀ ok, layBad c.blk = false → c.badDst = false → laySpan s (st / 4) c.blk = (u, some ok) →
      Goes (exec (.layoutCommandStart st) s) (fun t => t.mem = u.mem ∧
        (getStack t st).layq = (if ok then { c with started := true } else { c with started := true, stat := 2, ended := true }) :: q))) ∧
  (∀ (s u w : State) (st n stat v : Nat) (c : LayCmd) (q : List LayCmd), (getStack s st).layq = c :: q → c.started = true → c.reported = false →
    (if c.ended then (s, c.done, some c.stat) else layGo st c.blk (lyM c.blk - c.done) s c.done) = (u, n, some stat) →
    let fin := fun (b : Bool) (x : State) => modStack x st (fun k => { k with layq := { c with done := n, stat := stat, ended := true, reported := b } :: q })
    accWrite (fin false u) none (st / 4) (c.baddr.toNat + 44) 5 (n + stat * 2 ^ 32) 0 false = (w, .ok v) →
    let t := fin true (txMark w u.fab.tx.length (.xfer (stackKey st) c.id reportUnit))
    xOut t (stackKey st) c.id = false →
    exec (.layoutCommandEnd st) s = .next (cmdDone (modStack t st (fun k => { k with layq := q })) c.core c.id (some c.tag) .layout
      (BitVec.ofNat 64 stat) c.block none none))

/-! ## The host's side, and translation registers (chapter 05) -/

/-- R111, R120, R125 to R128, R416: writes of PTBASE, XLINV and XLSTAT, an invalidation carried out; the host's reads and writes of device memory, its
responses and its snoops; a closed port refuses and counts them. The model's readings here: a host write leaves the half without a host state (log
63); when an invalidation is complete (log 30). -/
def Obligations.HostAccess : Prop :=
  (∀ (s : State) (ag : Agent) (v : W64), s.mgmt.off = false → (ag = .host → hostClosed s = false ∧ s.xl.waiting = []) →
    (xlinvBad v = true → Goes (exec (.xlinvWrite ag v) s) (fun t => t.xl = { s.xl with perr := true } ∧ t.mem = s.mem ∧ t.groups = s.groups)) ∧
    (xlinvBad v = false → s.xl.invq0.length < 16 → s.xl.invq1.length < 16 → Goes (exec (.xlinvWrite ag v) s) (fun t =>
      let q := (v.toNat / 65536 % 2 ^ 41 * 65536, v.toNat % 4)
      t.xl = { s.xl with invq0 := s.xl.invq0 ++ [q], invq1 := s.xl.invq1 ++ [q] } ∧ t.mem = s.mem ∧ t.groups = s.groups)) ∧
    (xlinvBad v = false → 16 ≤ s.xl.invq0.length → ag = .host → Goes (exec (.xlinvWrite ag v) s) (fun t =>
      t.xl = { s.xl with waiting := [(0x108, v.toNat)] } ∧ t.mem = s.mem)) ∧
    Goes (exec (.xlstatWrite ag v) s) (fun t => t.xl = { s.xl with perr := s.xl.perr && !v.getLsbD 1 } ∧ t.mem = s.mem ∧ t.groups = s.groups) ∧
    Goes (exec (.ptbaseWrite ag v) s) (fun t => t.mem = s.mem ∧ t.groups = s.groups ∧ t.xl =
      if s.groups = [] ∧ v.toNat / 4096 % 2 ^ 34 * 4096 < 0x8000000000 then { s.xl with ptbase := v &&& 0x00003FFFFFFFF001 } else { s.xl with perr := true })) ∧
  (∀ (s u : State) (die idx : Nat) (q : Nat × Nat), die < 2 → (invQueue s die)[idx]? = some q → s.xl.waiting = [] →
    (∀ g, g ∈ s.groups → g.2.words = []) → invDrain (invDrop s die q) die = (u, true) → fabOutDie u die = false → u.groups = (invDrop s die q).groups → u.xl = (invDrop s die q).xl →
    exec (.xlinvComplete die idx) s = .next (settleAll { u with xl := if die = 0 then { u.xl with invq0 := u.xl.invq0.eraseIdx idx }
      else { u.xl with invq1 := u.xl.invq1.eraseIdx idx } })) ∧
  (∀ (s : State) (die : Nat) (q : Nat × Nat), die < 2 →
    (∀ c e, dieOfCore c = die → e ∈ (getCore (invDrop s die q) c).tlb → invHits q e.va e.bits = false) ∧
    (∀ e, e ∈ dieTlb (invDrop s die q) die → invHits q e.va e.bits = false) ∧
    (∀ c e, dieOfCore c = die → e ∈ (getCore s c).tlb → invHits q e.va e.bits = false → e ∈ (getCore (invDrop s die q) c).tlb)) ∧
  (∀ (s : State) (half : Nat), s.mgmt.off = false → s.mgmt.booted = true → half * 64 < 0x8000000000 →
    (hostClosed s = true → Goes (exec (.hostMemRead half) s) (fun t => t.mgmt.hostOut = (half, 0, true) :: s.mgmt.hostOut ∧ t.mem = s.mem
      ∧ t.mgmt.hostDrop = min (s.mgmt.hostDrop + 1) (2 ^ 32 - 1))) ∧
    (∀ own mask data p, hostClosed s = true → Goes (exec (.hostMemWrite half own mask data p) s) (fun t => t.mem = s.mem ∧
      t.mgmt.hostDrop = min (s.mgmt.hostDrop + 1) (2 ^ 32 - 1))) ∧
    (∀ u, hostClosed s = false → s.coh.heldHost = [] → hostAdmit (wake s) half false = (u, true) →
      exec (.hostMemRead half) s = .next (settleAll (hostRead u half))) ∧
    (∀ u own mask data p, hostClosed s = false → s.coh.heldHost = [] → hostAdmit (wake s) half true = (u, true) →
      exec (.hostMemWrite half own mask data p) s = .next (settleAll (hostWrite u half own mask data p))) ∧
    (∀ u, hostClosed s = false → s.coh.heldHost = [] → hostAdmit (wake s) half false = (u, false) → Goes (exec (.hostMemRead half) s) (fun t =>
      t.coh.heldHost = u.coh.heldHost ++ [.hostMemRead half] ∧ t.mem = u.mem))) ∧
  (∀ (u : State) (half : Nat), ∃ d p r, (hostRead u half).mgmt.hostOut = (half, d, p) :: r ∧
    ∀ k, k < 64 → d.extractLsb' (8 * k) 8 = memAt (hostRead u half) (half * 64 + k)) ∧
  (∀ (u : State) (half : Nat) (own : Bool) (mask : BitVec 64) (data : BitVec 512) (p : Bool) (a : Nat),
    let w := recallOw u (half / 2) none
    Inv w → (memAt (hostWrite u half own mask data p) a =
        if a / 64 = half ∧ mask.getLsbD (a % 64) = true then data.extractLsb' (8 * (a % 64)) 8 else memAt w a)
      ∧ tget (hostWrite u half own mask data p).coh.host half = if own then some true else none) ∧
  (∀ (s : State) (half n : Nat) (k : Bool), tget s.coh.snoops half = some (n, k) →
    (n = 1 → ∀ d, Goes (exec (.backInvalidateResponse half d) s) (fun t => t.mem = s.mem ∧ tget t.coh.snoops half = some (2, k))) ∧
    (n ≠ 1 → heldLa s (half / 2 * 128) = false → ∃ u, exec (.backInvalidateResponse half none) s = .next (snoopOver u (half / 2)) ∧ u.mem = s.mem ∧
      tget u.coh.snoops half = none ∧ tget u.coh.host half = if k then some false else none) ∧
    (∀ d, n ≠ 1 → heldLa s (half / 2 * 128) = true → ∃ u, exec (.backInvalidateResponse half d) s = .next (snoopOver (llcLeave u (half / 2)) (half / 2)) ∧
      tget u.coh.snoops half = none) ∧
    (∀ d p, n ≠ 1 → heldLa s (half / 2 * 128) = false → Inv s → ∃ u, exec (.backInvalidateResponse half (some (d, p))) s = .next (snoopOver u (half / 2)) ∧ tget u.coh.snoops half = none ∧
      ∀ a, memAt u a = if a / 64 = half then d.extractLsb' (8 * (a % 64)) 8 else memAt s a)) ∧
  (∀ (s : State) (half : Nat) (kd : SnoopKind) (d : Option (BitVec 512 × Bool)), tgtLocal (half * 64) = .host → s.mgmt.off = false →
    hostClosed s = true → Goes (exec (.hostSnoop half kd d) s) (fun t => t.mem = s.mem ∧ t.mgmt.hostOut = s.mgmt.hostOut ∧ t.cores = s.cores ∧
      t.mgmt.hostDrop = min (s.mgmt.hostDrop + 1) (2 ^ 32 - 1))) ∧
  (∀ (s : State) (half : Nat), tgtLocal (half * 64) = .host → s.mgmt.off = false → hostClosed s = false →
    Goes (exec (.hostSnoop half .inv none) s) (fun t => tget t.coh.window half = none ∧
      (∃ d p r, t.mgmt.hostOut = (half, d, p) :: r) ∧ ∀ c y, y ∈ (getCore t c).l1 → y.line = half / 2 → y.valid &&& halfSectors half = 0) ∧
    (∀ o, tget s.coh.window half = some o → Goes (exec (.hostSnoop half .data none) s) (fun t => tget t.coh.window half = some false ∧
      ∃ d p r, t.mgmt.hostOut = (half, d, p) :: r)))

/-! ## The fabric and global time (chapters 06, 16) -/

/-- R130, R137 to R144: a request at the receiver is performed in order, answered again or told PENDING; an answer retires its transaction at the
source and reaches the lane that waits; the timers, holds and resynchronisation of a pair. The model's readings here: FHOLD is read when the hold is
tested, and DLRT_EXPIRY has no effect on the device (log 64). -/
def Obligations.FabricTransport : Prop :=
  (∀ (s : State) (chip plane sn low : Nat) (req : FabReq), plane < 16 → sn < 2 ^ 32 → low < 2 ^ 32 →
    (fabShut s plane = true → exec (.fabricRequestArrival chip plane sn low req) s = .next s) ∧
    (fabShut s plane = false → fabRetained s = true → Goes (exec (.fabricRequestArrival chip plane sn low req) s) (fun t =>
      t.fab.out = ⟨chip, plane, sn, none⟩ :: s.fab.out ∧ t.mem = s.mem ∧ t.fab.rx = s.fab.rx)) ∧
    (fabShut s plane = false → fabRetained s = false →
      exec (.fabricRequestArrival chip plane sn low req) s = .next (settleAll (rxTake (wake s) chip plane sn low req))) ∧
    (fabShut s plane = false → Goes (exec (.resync chip plane low) s) (fun t => t.mem = s.mem ∧
      getRx t (fabKey chip plane) = { nexp := low, window := [], kept := [], low := low } ∧ ∀ k, k ≠ fabKey chip plane → getRx t k = getRx s k))) ∧
  (∀ (s u : State) (chip plane sn low : Nat) (req : FabReq) (a : FabAns),
    let k := fabKey chip plane
    let x := rxLow (getRx s k) low
    (snBefore sn x.nexp = true → tget x.kept sn = some a → rxTake s chip plane sn low req = rxSend (setRx s k x) chip plane sn (some a)) ∧
    (snBefore sn x.nexp = false → tget x.window sn = none → 1024 ≤ (sn + 2 ^ 32 - x.nexp) % 2 ^ 32 → rxTake s chip plane sn low req = setRx s k x) ∧
    (sn = x.nexp → sn < 2 ^ 32 → x.window = [] → rxServe (setRx s k { x with window := [(sn, req)] }) chip req = (u, some a) →
      (rxTake s chip plane sn low req).fab.out = ⟨chip, plane, sn, some a⟩ :: u.fab.out ∧ (rxTake s chip plane sn low req).mem = u.mem ∧
      getRx (rxTake s chip plane sn low req) k = { nexp := snNext sn, window := [], kept := tset x.kept sn a, low := low })) ∧
  (∀ (s h : State) (chip la n : Nat) (pass : Bool), tgtLocal la = .hbm → la % 128 + n ≤ 128 →
    homeAdmitBy (!pass) s (lineOf la) (spanMask (la % 128) n) false = (h, true) →
    let bad := memPoison (recallOw h (lineOf la) none) (lineOf la) &&& spanSectors (la % 128) n
    ∃ u a, rxServe s chip (.read la n pass) = (u, some a) ∧ a.code = (if bad = 0 then 0 else 3) ∧ a.poison = bad ∧
      u.mem = (recallOw h (lineOf la) none).mem ∧ ∀ k, k < n → a.data.extractLsb' (8 * k) 8 = memAt u (la + k)) ∧
  (∀ (s h : State) (chip la n : Nat) (pass : Bool),
    (tgtLocal la ≠ .hbm → rxServe s chip (.read la n pass) = (s, some { code := 2, data := 0 })) ∧
    (tgtLocal la = .hbm → homeAdmitBy (!pass) s (lineOf la) (spanMask (la % 128) n) false = (h, false) → rxServe s chip (.read la n pass) = (h, none))) ∧
  (∀ (s h : State) (chip la : Nat) (m : LineMask) (d : Line) (p : BitVec 4) (pass : Bool), tgtLocal la = .hbm →
    homeAdmitBy (!pass) s (lineOf la) m true = (h, true) → Inv (recallOw h (lineOf la) none) →
    ∃ u, rxServe s chip (.write la m d p pass) = (u, some { code := 0, data := 0 }) ∧ ∀ a, memAt u a =
      if a / 128 = lineOf la ∧ m.getLsbD (a % 128) = true then d.extractLsb' (8 * (a % 128)) 8 else memAt (recallOw h (lineOf la) none) a) ∧
  (∀ (s : State) (chip plane sn : Nat) (ans : FabAns) (t : FabTx), s.fab.tx.find? (fabIs chip plane sn) = some t → fabShut s plane = false →
    exec (.fabricResponse chip plane sn ans) s = .next
      (fabDeliver { s with fab := { s.fab with tx := s.fab.tx.filter (fun x => !(fabIs chip plane sn x)) } } t ans)) ∧
  (∀ (s : State) (t : FabTx) (ans : FabAns) (g id l : Nat) (x : Group) (w : MemWord) (a : LaneAcc) (ty : MType) (z : MSize),
    t.origin = .lane g id l → wordAt s g id = some (x, w) → remoteLanes w t = [(l, a)] →
    (w.op = .load ty z → ans.code = 0 → tget w.ans (l * 32 + 31) = none → tget w.ans (probeKey l) = none → fabDeliver s t ans = settleGroup (setSt s g w.id l
      (.data (BitVec.ofNat 64 (ans.data.toNat % 2 ^ (8 * sizeBytes z))) 1)) g) ∧
    (w.op = .load ty z → ans.code ≠ 0 → fabDeliver s t ans = settleGroup (failLane s g w l scRemote (ans.code % 16)) g) ∧
    (w.op = .store ty z → ans.code = 0 → fabDeliver s t ans = settleGroup (setSt s g id l .done) g) ∧
    (w.op = .store ty z → ans.code ≠ 0 → fabDeliver s t ans = settleGroup (fabricTrap (setSt s g id l .done) [x.block] 4 t.chip ans.code) g)) ∧
  (∀ (s : State) (chip plane sn : Nat),
    (fabShut s plane = true → exec (.pendingNotice chip plane sn) s = .next s) ∧
    (fabShut s plane = false → Goes (exec (.pendingNotice chip plane sn) s) (fun t => t.mem = s.mem ∧ t.fab.tx = s.fab.tx.map (fun x =>
      if x.chip = chip ∧ x.plane = plane ∧ x.sn = sn then { x with timer := s.time.now, resends := 0 } else x))) ∧
    exec (.dlrtExpiry chip plane sn) s = .next s ∧
    (∀ t, s.fab.tx.find? (fabIs chip plane sn) = some t → fabSends s plane = true → fabDown s chip = false →
      (s.time.now < t.timer + 20000 → exec (.rsptExpiry chip plane sn) s = .next s) ∧
      (t.timer + 20000 ≤ s.time.now → t.resends < 8 → Goes (exec (.rsptExpiry chip plane sn) s) (fun u => u.mem = s.mem ∧ u.fab.failing = s.fab.failing ∧
        u.fab.tx.find? (fabIs chip plane sn) = some { t with timer := s.time.now, resends := t.resends + 1, low := pairLow s chip plane })) ∧
      (t.timer + 20000 ≤ s.time.now → 8 ≤ t.resends → Goes (exec (.rsptExpiry chip plane sn) s) (fun u => u.mem = s.mem ∧ chip ∈ u.fab.failing ∧
        u.fab.tx.find? (fabIs chip plane sn) = some { t with timer := s.time.now, reported := true })))) ∧
  (∀ (s : State) (chip : Nat), s.mgmt.off = false → fabDown s chip = true → calKey s chip ∉ s.fab.holdOut →
    let due := tgetD s.fab.downSince (calKey s chip) 0 + s.fab.fhold * 1000000
    (s.time.now < due → exec (.fholdExpiry chip) s = .next s) ∧
    (due ≤ s.time.now → (∀ t, t ∈ s.fab.tx → calKey s t.chip ≠ calKey s chip) → Goes (exec (.fholdExpiry chip) s) (fun t =>
      calKey s chip ∈ t.fab.holdOut ∧ t.mem = s.mem ∧ t.fab.tx = s.fab.tx ∧ ∀ la, fabRefuse t chip la = some 1)) ∧
    (∀ t, due ≤ s.time.now → s.fab.tx = [t] → t.chip = chip → exec (.fholdExpiry chip) s = .next (fabDeliver
      { s with fab := { s.fab with holdOut := natInsert s.fab.holdOut (calKey s chip), tx := [] } } t { code := 1, data := 0 })))

/-- R130, R133, R142, R144, R404, R405: a link comes up at the lower version or is reported down, and what is out on a port that is down ends NOEXT,
to a chip without an entry ABSENT; the calibre table and FHOLD, which only firmware writes; samples of the fabric's time load, adjust or join the
counter. The model's reading here: the count of resends starts anew when DOWN falls (log 64). -/
def Obligations.FabricRegisters : Prop :=
  (∀ (s : State) (port : Fin 16), s.mgmt.off = false →
    (∀ v : BitVec 16, v.toNat / 256 = 1 → Goes (exec (.linkUp port (some v)) s) (fun t => tget t.fab.links port.val = some 0x100 ∧
      port.val ∉ t.fab.portDown ∧ t.mem = s.mem)) ∧
    (∀ ver : Option (BitVec 16), (∀ v, ver = some v → v.toNat / 256 ≠ 1) →
      let down : State := { s with
        time := { s.time with linked := s.time.linked || s.time.mode = .selfTimed }
        fab := { s.fab with links := tdel s.fab.links port.val, portDown := natInsert s.fab.portDown port.val } }
      ((∀ x, x ∈ s.fab.tx → x.plane ≠ port.val) → exec (.linkUp port ver) s = .next down ∧ tget down.fab.links port.val = none ∧ port.val ∈ down.fab.portDown) ∧
      (∀ x, s.fab.tx = [x] → x.plane = port.val → exec (.linkUp port ver) s = .next
        (fabDeliver { down with fab := { down.fab with tx := [] } } x { code := 4, data := 0 })))) ∧
  (∀ (s : State) (i : Nat) (v : W64), s.mgmt.off = false →
    (exec (.calibreWrite .core false i v) s = .next s ∧ exec (.calibreWrite .core true i v) s = .next s ∧ exec (.fholdWrite .core v) s = .next s) ∧
    (∀ x, i < 1024 → v.toNat % 4 = 0 → (tgetD s.fab.calm i 2).getLsbD 1 = false → s.fab.tx = [x] → calKey s x.chip = i →
      let z := { s with fab := { s.fab with calm := tset s.fab.calm i (v &&& 0x000000FFFF000FFF), tx := [] } }
      Goes (exec (.calibreWrite .fw false i v) s) (fun t => t.mem = (fabDeliver z x { code := 1, data := 0 }).mem ∧
        t.fab.tx = (fabDeliver z x { code := 1, data := 0 }).fab.tx)) ∧
    (i < 1024 → (v.getLsbD 0 = true ∨ ∀ x, x ∈ s.fab.tx → calKey s x.chip ≠ i) → Goes (exec (.calibreWrite .fw false i v) s) (fun t => tgetD t.fab.calm i 2 = v &&& 0x000000FFFF000FFF ∧ t.mem = s.mem ∧
      t.fab.calp = s.fab.calp ∧ (∀ j, j ≠ i → tgetD t.fab.calm j 2 = tgetD s.fab.calm j 2) ∧
      (v.getLsbD 1 = true → (tgetD s.fab.calm i 2).getLsbD 1 = false → tget t.fab.downSince i = some s.time.now ∧ i ∉ t.fab.holdOut) ∧
      (v.getLsbD 1 = false → (tgetD s.fab.calm i 2).getLsbD 1 = true → i ∉ t.fab.holdOut ∧
        t.fab.tx = s.fab.tx.map (fun x => if calKey s x.chip = i ∧ fabSends s x.plane = true then { x with timer := s.time.now, resends := 0, reported := false, low := pairLow s x.chip x.plane } else x) ∧
        (v.toNat / 2 ^ 24 % 2 ^ 16 = tgetD s.fab.downGen i 0 → t.fab.resyncs = s.fab.resyncs)))) ∧
    (i < 256 → Goes (exec (.calibreWrite .fw true i v) s) (fun t => tgetD t.fab.calp i 2 = v &&& 0xFFF ∧ t.fab.calm = s.fab.calm ∧ t.mem = s.mem)) ∧
    Goes (exec (.fholdWrite .fw v) s) (fun t => t.mem = s.mem ∧ let n := v.toNat % 4096
      t.fab.fhold = if n = 0 ∨ 4000 < n then 4000 else n)) ∧
  (∀ (s : State) (port : Fin 16) (v : W64), s.mgmt.off = false →
    let all := fun (t : State) (n : Nat) => t.time.now = n ∧ (∀ c k, tget s.cores c = some k → (getCore t c).timeCopy = max n k.timeCopy)
      ∧ (∀ c b, tget s.bges c = some b → b.stopped = false → (getBge t c).clock = max n b.clock)
    (s.time.mode = .waiting → Goes (exec (.timeSample port v) s) (fun t => t.time.mode = .fabric ∧ all t v.toNat ∧ t.mem = s.mem)) ∧
    (s.time.mode = .fabric → Goes (exec (.timeSample port v) s) (fun t => t.time.now = s.time.now ∧ t.time.mode = .fabric ∧
      t.time.adj = (v.toNat : Int) - s.time.now ∧ t.mem = s.mem)) ∧
    (∀ f, s.time.mode = .joining f → Goes (exec (.timeSample port v) s) (fun t => t.time.now = s.time.now ∧ t.time.mode = .joining v.toNat)) ∧
    (s.time.mode = .selfTimed → (∀ x, x ∈ s.stackTbl → ∀ l, l ∈ x.2.leases → l.2.st = .free) →
      (s.time.now ≤ v.toNat → Goes (exec (.timeSample port v) s) (fun t => t.time.mode = .fabric ∧ all t v.toNat)) ∧
      (v.toNat < s.time.now → Goes (exec (.timeSample port v) s) (fun t => t.time.mode = .joining v.toNat ∧ t.time.now = s.time.now))) ∧
    (s.time.mode = .selfTimed → (∃ x, x ∈ s.stackTbl ∧ ∃ l, l ∈ x.2.leases ∧ l.2.st ≠ .free) →
      exec (.timeSample port v) s = .next { s with time := { s.time with linked := true } }) ∧
    (s.time.mode = .waiting → s.time.sinceOff < 10000000 → exec .timeSampleTimeout s = .next s) ∧
    (s.time.mode = .waiting → 10000000 ≤ s.time.sinceOff → Goes (exec .timeSampleTimeout s) (fun t => t.time.mode = .selfTimed ∧ all t 0 ∧ t.mem = s.mem)) ∧
    (∀ f, s.time.mode = .joining f → f < s.time.now → exec .fabricTimeReached s = .next s) ∧
    (∀ f, s.time.mode = .joining f → s.time.now ≤ f → Goes (exec .fabricTimeReached s) (fun t => t.time.mode = .fabric ∧ all t f ∧ t.mem = s.mem)))

/-! ## The escapement and the dispatcher (chapters 13, 15) -/

/-- R334 to R336, R338, R339, R397: a write to an anchor register asks for a scan, a scan exchanges the slots of its line with 0, a graph pointer
becomes an instance, nodes fire and end, successors count down, and an instance ends with its STATUS, FNODE and TEND. The model's choices here: CNT 0
is decremented to 255, an ARG node counts no run, and the order in which the nodes of an instance are initialised (log 65). -/
def Obligations.GraphInstances : Prop :=
  (∀ (s : State) (ag : Agent) (k : Fin 16) (v : W64), s.mgmt.off = false → (ag = .host → hostClosed s = false ∧ s.xl.waiting = []) →
    let old := tgetD s.esc.anch k.val 0
    Goes (exec (.anchorWrite ag k v) s) (fun t => t.mem = s.mem ∧ (∀ j, j ≠ k.val → tgetD t.esc.anch j 0 = tgetD s.esc.anch j 0) ∧
      tgetD t.esc.anch k.val 0 = (v &&& 0x00003FFFFFFFFF80) ||| (old &&& 0xFFFFC0000000007E) ||| (if selLh s = 0 then old &&& 1 else v &&& 1) ∧
      (selLh s ≠ 0 → v.getLsbD 0 = true → old.getLsbD 0 = false → k.val ∈ t.esc.scans) ∧
      (selLh s = 0 ∨ v.getLsbD 0 = false ∨ old.getLsbD 0 = true → t.esc.scans = s.esc.scans))) ∧
  (∀ (s h : State) (k : Fin 16), let a := (tgetD s.esc.anch k.val 0).toNat
    let line := a / 128 % 2 ^ 39
    escRuns s = true → k.val ∈ s.esc.scans →
    (a % 2 = 0 → Goes (exec (.anchorScan k) s) (fun t => k.val ∉ t.esc.scans ∧ t.mem = s.mem ∧ t.esc.starts = s.esc.starts)) ∧
    (a % 2 = 1 → line * 128 < 0x8000000000 → 64 ≤ instCount s → exec (.anchorScan k) s = .next s) ∧
    (a % 2 = 1 → line * 128 < 0x8000000000 → s.esc.pending = [] → instCount s + 16 ≤ 64 →
      homeAdmit (wake s) line (BitVec.allOnes 128) true = (h, true) → tget h.coh.records line = none →
      let u := recallOw h line none
      Inv u → memPoison u line = 0 → (∀ y, y ∈ u.cores → ∀ q, q ∈ y.2.l1 → q.line = line → q.form ≠ .ow) →
      Goes (exec (.anchorScan k) s) (fun t => (∀ i, memAt t i = if i / 128 = line then 0 else memAt u i) ∧
        t.esc.starts = u.esc.starts ++ ((List.range 16).map (fun j => BitVec.ofNat 64 (lineRead (memLine u line) (8 * j) 8))).filter (· ≠ 0)))) ∧
  (∀ (s r : State) (va : W64) (q : List W64) (h : Nat), s.esc.starts = va :: q → escRuns s = true → s.esc.insts.length < 64 →
    (∀ y, y ∈ s.esc.insts → y.2.init = none) →
    let s1 := { s with esc := { s.esc with starts := q } }
    (va.toNat % 128 ≠ 0 → Goes (exec .instanceStart s) (fun t => getInst t (freeInst s1) = some (argInst va 0 0) ∧ t.mem = s.mem)) ∧
    (va.toNat % 128 = 0 → escRead s1 va.toNat 128 = (r, .ok h) → exec .instanceStart s = .next (instBegin r va h))) ∧
  (∀ (s f r w : State) (va v : Nat), escFree s [(va, 8)] = (f, true) → escRead f va 64 = (r, .ok v) → escWrite r (va + 3) 5 (ndDep v) = (w, true) →
    nodeInit s va = (w, some (some (ndDep v)))) ∧
  (∀ (s f w : State) (i : Nat) (x y : Inst) (fs : List Nat), getInst s i = some x → x.init = some (x.nnode, fs, none) →
    escFree s [(x.hdr.toNat + 24, 3)] = (f, true) → (escWrite f (x.hdr.toNat + 24) 1 0xFF).1 = w → getInst w i = some y →
    getInst (instInit s i) i = some { y with init := none, fires := fs } ∧ (instInit s i).mem = w.mem) ∧
  (∀ (s : State) (va : W64) (h : Nat), graphBad h = true → ∃ x, getInst (instBegin s va h) (freeInst s) = some x ∧ x.status = 1 ∧ x.stopped = true
    ∧ x.fnode = 0xFFFF ∧ (instBegin s va h).mem = s.mem) ∧
  (∀ (s f r w : State) (i n v : Nat) (x : Inst), getInst s i = some x → escRuns s = true → x.stopped = false → x.fires.head? = some n →
    escFree s [(nodeVa x n, 8), (x.hdr.toNat + 25, 2)] = (f, true) → escRead f (nodeVa x n) 64 = (r, .ok v) →
    escWrite r (nodeVa x n + 3) 1 (ndDep v) = (w, true) → n ∉ x.running →
    (ndBad v x.nnode = false → Goes (exec (.nodeFire i n) s) (fun t => t.mem = w.mem ∧
      t.esc.ready = w.esc.ready ++ [{ prio := x.iprio, inst := i, node := n, blk := v, cw := x.cw, order := w.esc.fired }] ∧
      t.esc.fired = w.esc.fired + 1 ∧
      ∀ y, getInst w i = some y → ∃ z, getInst t i = some z ∧ z.fires = y.fires.drop 1 ∧ z.running = y.running ++ [n])) ∧
    (ndBad v x.nnode = true → Goes (exec (.nodeFire i n) s) (fun t => t.mem = w.mem ∧ t.esc.ready = w.esc.ready ∧
      ∃ y, y ∈ t.esc.runs ∧ y.inst = i ∧ y.node = n ∧ y.status = some 3))) ∧
  (∀ (s f q w1 w2 d : State) (i n st v : Nat) (x : Inst) (r : NodeRun) (l : List Nat), runAt s i n = some r → getInst s i = some x →
    r.status = some st → r.left = none → escFree s [(nodeVa x n, 8), (x.hdr.toNat + 25, 2)] = (f, true) →
    escRead f (nodeVa x n) 64 = (q, .ok v) → escWrite q (nodeVa x n + 2) 1 st = (w1, true) →
    (if ndBad r.blk x.nnode then (w1, true) else escWrite w1 (nodeVa x n + 4) 4 ((v / 2 ^ 32 % 2 ^ 32 + 1) % 2 ^ 32)) = (w2, true) →
    decrements i (succsOf r) (if st = 3 ∨ (st ≠ 0 ∧ ndFs r.blk = true) then stopInst w2 i n else w2) = (d, l) →
    exec (.nodeRunEnd i n) s = .next (match l with
      | [] => nextKept { d with esc := { d.esc with runs := d.esc.runs.filter (fun y => !(y.inst = i && y.node = n)) } } i n
      | _ :: _ => modRun d i n (fun y => { y with left := some l }))) ∧
  (∀ (s f r w : State) (i n v : Nat) (x : Inst), getInst s i = some x → x.fires = [] →
    escFree s [(nodeVa x n, 8), (x.hdr.toNat + 25, 2)] = (f, true) → escRead f (nodeVa x n) 64 = (r, .ok v) →
    escWrite r (nodeVa x n + 3) 1 ((v / 2 ^ 24 % 256 + 255) % 256) = (w, true) →
    (v / 2 ^ 24 % 256 ≠ 1 ∨ x.stopped = true → decrement s i n = (w, true)) ∧
    (v / 2 ^ 24 % 256 = 1 → x.stopped = false → (decrement s i n).2 = true ∧
      ∀ y, getInst w i = some y → ∃ z, getInst (decrement s i n).1 i = some z ∧ z.fires = y.fires ++ [n])) ∧
  (∀ (s : State) (va : W64) (h : Nat), graphBad h = false → instBegin s va h = instInit { s with esc := { s.esc with
    insts := tset s.esc.insts (freeInst s) { hdr := va, nnode := bitsOf h 48 16, nodes := BitVec.ofNat 64 (bitsOf h 64 64), iprio := bitsOf h 216 3, cw := BitVec.ofNat 64 (bitsOf h 128 64), donea := BitVec.ofNat 64 (bitsOf h 256 64), donev := BitVec.ofNat 64 (bitsOf h 320 64), status := 0, fnode := 0xFFFF, stopped := false, fires := [], running := [], kept := [], init := some (0, [], none) } } } (freeInst s)) ∧
  (∀ (s : State) (i : Nat), escWrites s = false → exec (.instanceEnd i) s = .next s) ∧
  (∀ (s f u : State) (i : Nat) (x : Inst) (o : EscStore), getInst s i = some x → instQuiet s i x = true → escWrites s = true → x.closing = false →
    escFree s [(x.hdr.toNat + 24, 3), (x.hdr.toNat + 48, 8)] = (f, true) →
    let c := instClose f i x
    let w := (escWrite f (x.hdr.toNat + 24) 1 x.status).1
    (x.fnode = 0xFFFF → let w2 := (escWrite w (x.hdr.toNat + 25) 2 0xFFFF).1
      c.mem = (escWrite w2 (x.hdr.toNat + 48) 8 w2.time.now).1.mem) ∧
    (x.fnode ≠ 0xFFFF → c.mem = (escWrite w (x.hdr.toNat + 48) 8 w.time.now).1.mem) ∧
    (¬ (x.donea ≠ 0 ∧ x.donea.toNat % 8 = 0) → Goes (exec (.instanceEnd i) s) (fun t => getInst t i = none ∧ t.mem = c.mem)) ∧
    (x.donea ≠ 0 → x.donea.toNat % 8 = 0 → escStore c x.donea.toNat x.donev.toNat (.node 64 0) = (u, o) →
      (o ≠ .waits → Goes (exec (.instanceEnd i) s) (fun t => getInst t i = none ∧ t.mem = u.mem)) ∧
      (o = .waits → exec (.instanceEnd i) s = .next u))) ∧
  (∀ (s u h : State) (va v : Nat) (o : FabOrigin) e, xlateNow s none 0 va = (u, .ok e) → daCheck u e va true true = none → escOut u = false →
    tgtOf u (daOf e va) = .hbm → let la := localOf (daOf e va)
    hostFails u la = none → admitType .u u (lineOf la) (spanMask (la % 128) 8) true = (h, true) →
    escStore s va v o = (homeWrite h none (lineOf la) (spanMask (la % 128) 8) (lineAt (la % 128) 8 v) 0, .done))

/-- R337, R340 to R342, Tables 13.5 and 13.6: a node at the head of the ready queue runs by its type: a kernel joins the dispatch list, a transfer
node's command and a bank node's BGLOAD, BGVEC or BGRUN with RSTR 0 joins its queue, conditions choose successors, a while node adds to CW, a signal
node stores. The model's choice here: a misaligned launch header ends REFUSED (log 126). -/
def Obligations.NodeRuns : Prop :=
  ∀ (s : State) (i n : Nat) (r : Ready), readyHead s = some r → r.inst = i → r.node = n → escRuns s = true → runAt s i n = none →
    let s1 := { s with esc := { s.esc with ready := s.esc.ready.erase r } }
    let runsNow := fun (t : State) (st : Option Nat) (wh : Nat) (wt : Bool) =>
      runAt t i n = some { inst := i, node := n, blk := r.blk, status := st, which := wh, waiting := wt, order := r.order }
    (∀ u b, ndType r.blk = 0 → ndP r.blk 0 % 128 = 0 → escRead s1 (ndP r.blk 0) 128 = (u, .ok b) → u.esc.runs = s.esc.runs →
      (launchBad b = true → Goes (exec (.kernelNodeRun i n) s) (fun t => runsNow t (some 1) 0 false ∧ t.esc.launches = u.esc.launches)) ∧
      (launchBad b = false → Goes (exec (.kernelNodeRun i n) s) (fun t => runsNow t none 0 false ∧ ∃ x, t.esc.launches = u.esc.launches ++ [x]
        ∧ x.inst = i ∧ x.node = n ∧ x.order = r.order ∧ x.hdr = launchHdr b ∧ x.next = 0 ∧ x.total = launchTotal (launchHdr b) ∧ x.live = 0))) ∧
    (ndType r.blk = 0 → ndP r.blk 0 % 128 ≠ 0 → Goes (exec (.kernelNodeRun i n) s) (fun t => runsNow t (some 1) 0 false ∧ t.mem = s.mem)) ∧
    (let s2 := addRun s1 r none 0 false
     let cl := nodeCluster s2 r.blk
     ndType r.blk = 1 →
      (xRoom cl s2 = false → Goes (exec (.transferNodeRun i n) s) (fun t => runsNow t none 0 true ∧ t.mem = s.mem)) ∧
      (xRoom cl s2 = true → ndP r.blk 0 % 64 ≠ 0 → Goes (exec (.transferNodeRun i n) s) (fun t => runsNow t (some 4) 0 false ∧ t.mem = s.mem)) ∧
      (∀ u v, xRoom cl s2 = true → ndP r.blk 0 % 64 = 0 → escRead s2 (ndP r.blk 0) 64 = (u, .ok v) → u.esc.runs = s2.esc.runs →
        Goes (exec (.transferNodeRun i n) s) (fun t => runsNow t none 0 false ∧ ∃ x, (getCluster t cl).cmds = (getCluster u cl).cmds ++ [x]
          ∧ x.kind = nodeKind r.blk ∧ x.blk = v ∧ x.tag = none ∧ x.node = some (i, n) ∧ x.baddr = BitVec.ofNat 64 (ndP r.blk 0)))) ∧
    (let s2 := addRun s1 r none 0 false
     ∀ u v kd, ndType r.blk = 2 → (kd = .load ∧ ndP r.blk 1 % 4 = 0) ∨ (kd = .vec ∧ ndP r.blk 1 % 4 = 1) → ndP r.blk 0 % 32 = 0 →
      escRead s2 (ndP r.blk 0) 32 = (u, .ok v) → u.esc.runs = s2.esc.runs →
      (bgRoom kd u v = true → Goes (exec (.bankNodeRun i n) s) (fun t => runsNow t none 0 false ∧
        let q := fun (z : State) => if kd = .vec then (getStack z (setStack v)).vecq else (getStack z (setStack v)).cmdq
        ∃ x, q t = q u ++ [x] ∧ x.kind = kd ∧ x.blk = v ∧ x.set = setList v ∧ x.tag = none ∧ x.node = some (i, n) ∧ x.baddr = BitVec.ofNat 64 (ndP r.blk 0))) ∧
      (bgRoom kd u v = false → Goes (exec (.bankNodeRun i n) s) (fun t => runsNow t none 0 true))) ∧
    (let s2 := addRun s1 r none 0 false
     ndType r.blk = 2 → (∀ u v w, ndP r.blk 1 % 4 = 2 → ndP r.blk 0 % 128 = 0 → escRead s2 (ndP r.blk 0) 128 = (u, .ok v) → u.esc.runs = s2.esc.runs →
      (bitsOf v 256 16 ≠ 0 → Goes (exec (.bankNodeRun i n) s) (fun t => runsNow t (some 3) 0 false)) ∧
      (bitsOf v 256 16 = 0 → bgRoom .run u v = false → Goes (exec (.bankNodeRun i n) s) (fun t => runsNow t none 0 true)) ∧
      (∀ o, bitsOf v 256 16 = 0 → bgRoom .run u v = true → crecOk u none (setStack v / 4) (bitsOf v 128 64) = (w, o) → w.esc.runs = u.esc.runs →
        (o = some true → Goes (exec (.bankNodeRun i n) s) (fun t => runsNow t none 0 false ∧ ∃ x,
          (getStack t (setStack v)).cmdq = (getStack w (setStack v)).cmdq ++ [x] ∧ x.kind = .run ∧ x.blk = v ∧ x.set = setList v ∧ x.tag = none ∧ x.node = some (i, n))) ∧
        (o = some false → Goes (exec (.bankNodeRun i n) s) (fun t => runsNow t (some 4) 0 false)) ∧
        (o = none → Goes (exec (.bankNodeRun i n) s) (fun t => runsNow t none 0 true)))) ∧
      (ndP r.blk 0 % (if ndP r.blk 1 % 4 < 2 then 32 else 128) ≠ 0 → Goes (exec (.bankNodeRun i n) s) (fun t => runsNow t (some 4) 0 false ∧ t.mem = s.mem))) ∧
    (ndType r.blk = 3 → Goes (exec (.conditionNodeRun i n) s) (fun t => runsNow t (some 0) (if ndTest r.blk r.cw then 1 else 2) false ∧
      t.mem = s.mem ∧ t.esc.ready = s.esc.ready.erase r ∧ t.esc.insts = s.esc.insts)) ∧
    (∀ x, ndType r.blk = 4 → getInst s i = some x → Goes (exec (.whileNodeRun i n) s) (fun t =>
      runsNow t (some 0) (if ndTest r.blk r.cw then 1 else 2) false ∧ t.mem = s.mem ∧
      ∃ y, getInst t i = some y ∧ y.cw = if ndTest r.blk r.cw then x.cw + BitVec.ofNat 64 (ndP r.blk 3) else x.cw)) ∧
    (ndType r.blk = 5 → Goes (exec (.barrierNodeRun i n) s) (fun t => runsNow t (some 0) 0 false ∧ t.mem = s.mem ∧ t.esc.insts = s.esc.insts)) ∧
    (let s2 := addRun s1 r none 0 false
     let va := ndP r.blk 0
     ndType r.blk = 6 →
      (∀ u sub, xlateNow s2 none 0 va = (u, .fault sub) → u.esc.runs = s2.esc.runs →
        Goes (exec (.hostSignalNodeRun i n) s) (fun t => runsNow t (some 4) 0 false ∧ t.mem = u.mem)) ∧
      (∀ u e h, xlateNow s2 none 0 va = (u, .ok e) → daCheck u e va true true = none → tgtOf u (daOf e va) = .hbm → u.esc.runs = s2.esc.runs →
        let la := localOf (daOf e va)
        escOut u = false → hostFails u la = none →
        admitType .u u (lineOf la) (spanMask (la % 128) 8) true = (h, true) → h.esc.runs = u.esc.runs → Inv (recallOw h (lineOf la) none) → la % 8 = 0 →
        Goes (exec (.hostSignalNodeRun i n) s) (fun t => runsNow t (some 0) 0 false ∧ (ndP r.blk 2 % 2 = 1 → Raised t 0) ∧
          ∀ a, memAt t a = if la ≤ a ∧ a < la + 8 then BitVec.ofNat 8 (ndP r.blk 1 / 2 ^ (8 * (a - la))) else memAt (recallOw h (lineOf la) none) a))) ∧
    (∀ b cw, ndTest b cw = let x := cw &&& BitVec.ofNat 64 (ndP b 0)
      let c := BitVec.ofNat 64 (ndP b 1)
      match bitsOf (ndP b 2) 0 3 with
      | 0 => x == c | 1 => x != c | 2 => x.ult c | 3 => c.ule x | 4 => x.slt c | _ => c.sle x)

/-- R322, R326 to R328, R342, R386, R387, R389, R390: blocks go to open clusters with room, start with the launch's registers, end and leave their
cores; PREQ closes and opens clusters; a pre-empted block is saved, and what is encoded decodes to what it was. The model's reading here: the cluster
reserved is the one with most room, chosen once at the expiry (log 29). -/
def Obligations.Dispatching : Prop :=
  (∀ (s : State) (r : Nat × List Nat) (x : Saved ⊕ Launch), s.mgmt.off = false → s.mgmt.phase = .run →
    (dispatchOrder (noteWaiting s)).findSome? (fun y => (itemRoom (noteWaiting s) y).map (fun q => (y, q))) = some (x, r) →
    exec .blockPlacement s = .next (placeItem (noteWaiting s) x r)) ∧
  (∀ (s : State) (h : LaunchHdr) (i n cl : Nat) (cs : List Nat), findRoom s h i n = some (cl, cs) →
    cl < 128 ∧ (getCluster s cl).closed = false ∧ (∃ c, launchC h = some c ∧ cs.length = c) ∧
      ∀ j c, cs[j]? = some c → clusterOf c = cl ∧ coreRoom s h c (launchShare h j) = true) ∧
  (∀ (h : LaunchHdr) (b bn g core gid lane0 : Nat), h.args.length = 4 → launchW h ≤ 64 → let x := newGroup h b bn g core gid lane0
    sGet x 0 = BitVec.ofNat 64 (widOf h bn 0) ∧ sGet x 1 = BitVec.ofNat 64 (g * launchW h) ∧ (∀ m, m < 4 → sGet x (2 + m) = h.args.getD m 0) ∧
    (∀ m, 6 ≤ m → sGet x m = 0) ∧ x.tdepth = 0 ∧ x.tvec = 0xFFFF0000 ∧ x.producer = decide (g = h.prod) ∧
    (∀ l, l < min (launchW h) (launchBs h - g * launchW h) → LaneAt x l h.entry ∧ (getFibre x l).live = true ∧ (getFibre x l).pred = 0 ∧
      (getFibre x l).spilla = (h.spillBase + BitVec.ofNat 64 (widOf h bn (g * launchW h + l)) * h.spillStride) &&& 0xFFFFFFFFFFFFFFF8)) ∧
  (∀ (s : State) (l : Launch) (q : List Launch) (t0 : Nat), waitingLaunches s = l :: q → l.since = some t0 → s.esc.reserved = none →
    (s.time.now < t0 + 100000 → exec .dispatchWaitExpiry s = .next s) ∧
    (t0 + 100000 ≤ s.time.now → Goes (exec .dispatchWaitExpiry s) (fun t => t.mem = s.mem ∧ t.esc.reserved = (roomiest s).map (fun c => (l.inst, l.node, c))))) ∧
  (∀ (s d p : State) (b : Nat) (k : Block), tget s.blocks b = some k → k.groups = [] → blockBusy s b k = false → drainBlock s b k = (d, true) →
    publishAll d b k false = (p, true) → blockFab p b k = false →
    exec (.blockEnd b) s = .next (settleAll (launchEnded (leaveCores (if k.fatal then raiseMsix p 2 else p) b k) k))) ∧
  (∀ (s : State) (b : Nat) (k : Block), tget (leaveCores s b k).blocks b = none ∧ ∀ c, c ∈ k.cores → spadOf (leaveCores s b k) c b = none) ∧
  (∀ (s : State) (ag : Agent) (v : W64), s.mgmt.off = false → (ag = .host → hostClosed s = false ∧ s.xl.waiting = []) →
    (ag = .core → exec (.preqClose ag v) s = .next s ∧ exec (.preqOpen ag v) s = .next s) ∧
    (ag ≠ .core → ∀ cl, cl ∈ (if v.getLsbD 7 then List.range 128 else [v.toNat % 128]) →
      Goes (exec (.preqClose ag v) s) (fun t => (getCluster t cl).closed = true ∧ t.mem = s.mem ∧
        ∀ b k, tget s.blocks b = some k → (∃ c, c ∈ k.cores ∧ clusterOf c = cl) → ∃ y, tget t.blocks b = some y ∧ y.preempt = true) ∧
      Goes (exec (.preqOpen ag v) s) (fun t => (getCluster t cl).closed = false ∧ t.mem = s.mem ∧ t.blocks = s.blocks))) ∧
  (∀ (s d : State) (b : Nat) (k y : Block), tget s.blocks b = some k → k.preempt = true → k.fatal = false → k.groups ≠ [] →
    (∀ g x, g ∈ k.groups → tget s.groups g = some x → groupParked x = true) →
    let s1 := preemptTransient s b k
    commandsDone s1 b k = true → (∀ c, c ∈ k.cores → ∀ f, f ∈ (getCore s1 c).fetches → f.block ≠ b) → preemptDrain s1 b k = (d, true) →
    tget d.blocks b = some y → exec (.blockPreemptSave b) s = .next (saveBlock d b y)) ∧
  (∀ (s : State) (b : Nat) (k : Block), freeSlot s = none → tget s.blocks b = some k → ∃ y, tget (saveBlock s b k).blocks b = some y ∧
    y.noSlot = true ∧ y.preempt = false ∧ y.groups = k.groups ∧ (saveBlock s b k).mem = s.mem) ∧
  (∀ (ws : List W64) (rest : List Byte), ws.length = 8 → decodeBlock (encodeBlock ws ++ rest) = (ws, rest)) ∧
  (∀ (depth j : Nat) (f : Fibre), depth % 8 = 0 → j < depth → tgetD (slotsDecode depth (slotsEncode depth f)) j 0 = tgetD f.slots j 0) ∧
  (∀ (x : Spad) (o : Nat), o < x.parts * 32768 → cellsGet (padDecode x.parts (padEncode x)) o = cellsGet x.bytes o)

/-! ## Management (chapter 16) -/

/-- R397, R399 to R403, R412 to R416: the mailbox's checks in order and what each command does; PREPARE ends QUIET, NOSLOT or TIMEOUT; COMMIT and
WAKE; POWER_ON_BOOT with the slots' checks; the minimum security version only rises; a masked vector stays pending. The model's choices here: the
order BADCMD, VERSION, STATE, BADARG, BUSY of the checks, and the length of the certificate (log 70); memory, time and fabric after power-on (logs 3,
4 and 74); masked vectors (log 123). -/
def Obligations.MailboxAndSuspend : Prop :=
  let doneWith := fun (t : State) (seq : Byte) (st : Nat) => t.mgmt.mbBusy = false ∧ t.mgmt.mbStatus = st ∧ t.mgmt.mbSeq = seq.toNat ∧ Raised t 1
  (∀ (s : State) (seq : Byte), s.mgmt.off = false → s.xl.waiting = [] → s.mgmt.booted = true →
    (∀ v, s.mgmt.mbBusy = true → exec (.mbVersion seq) s = .next s ∧ exec (.mbBadcmd v) s = .next s) ∧
    (s.mgmt.mbBusy = false →
      (∀ v : W64, v.toNat / 2 ^ 16 ≠ 0 ∨ v.toNat % 256 = 0 ∨ 9 < v.toNat % 256 →
        Goes (exec (.mbBadcmd v) s) (fun t => doneWith t (BitVec.ofNat 8 (v.toNat / 256)) 1 ∧ t.mem = s.mem ∧ t.mgmt.phase = s.mgmt.phase)) ∧
      (s.mgmt.fwBusy = false → Goes (exec (.mbVersion seq) s) (fun t => doneWith t seq 0 ∧ t.mem = s.mem ∧ t.mgmt.verFw = 0x100)) ∧
      (∀ i c, s.mgmt.fwBusy = true → (i, c) ∈ [(Instr.mbVersion seq, 1), (.mbAttest seq, 2), (.mbIdcert seq, 3), (.mbPowercap seq, 4), (.mbPrepare seq, 5),
          (.mbCommit seq, 6), (.mbAbort seq, 7), (.mbWake seq, 8), (.mbRelease seq, 9)] → (c ≠ 1 → selFw s ≠ 0) → mbPhaseOk c s.mgmt.phase = true →
        mbArgBad s c = false → Goes (exec i s) (fun t => doneWith t seq 3 ∧ t.mem = s.mem ∧ t.mgmt.phase = s.mgmt.phase)) ∧
      (∀ i ph, (i, ph) ∈ [(Instr.mbPrepare seq, Phase.run), (.mbCommit seq, .quiet), (.mbAbort seq, .quiet), (.mbWake seq, .retained), (.mbRelease seq, .woken)] →
        selFw s ≠ 0 → s.mgmt.phase = ph → s.mgmt.suspbase.getLsbD 0 = false →
        Goes (exec i s) (fun t => doneWith t seq 2 ∧ t.mgmt.phase = ph ∧ t.mem = s.mem)) ∧
      (∀ i ph, (i, ph) ∈ [(Instr.mbAttest seq, Phase.run), (.mbIdcert seq, .run), (.mbPowercap seq, .run), (.mbPrepare seq, .run),
          (.mbCommit seq, .quiet), (.mbAbort seq, .quiet), (.mbWake seq, .retained), (.mbRelease seq, .woken)] →
        (selFw s = 0 → Goes (exec i s) (fun t => doneWith t seq 7 ∧ t.mem = s.mem)) ∧
        (selFw s ≠ 0 → s.mgmt.phase ≠ ph → Goes (exec i s) (fun t => doneWith t seq 6 ∧ t.mem = s.mem))) ∧
      (selFw s ≠ 0 → s.mgmt.phase = .run →
        (reportArea s = none → Goes (exec (.mbAttest seq) s) (fun t => doneWith t seq 2 ∧ t.mem = s.mem)
          ∧ Goes (exec (.mbIdcert seq) s) (fun t => doneWith t seq 2 ∧ t.mem = s.mem)) ∧
        (∀ a w, s.mgmt.fwBusy = false → reportArea s = some a → mgmtWrite (recallOw s (lineOf a) none) a 768 (attestReport (recallOw s (lineOf a) none)
            (lineRead (memLine (recallOw s (lineOf a) none) (lineOf a)) 0 64)) = (w, true) →
          Goes (exec (.mbAttest seq) s) (fun t => doneWith t seq 0 ∧ t.mem = w.mem)) ∧
        (∀ a w, s.mgmt.fwBusy = false → reportArea s = some a → mgmtWrite s a (Config.certLen % 4093 + 4) (Config.certLen % 4093 +
            (List.range (Config.certLen % 4093)).foldl (fun q k => q + (Config.certByte k).toNat * 2 ^ (8 * (k + 4))) 0) = (w, true) →
          Goes (exec (.mbIdcert seq) s) (fun t => doneWith t seq 0 ∧ t.mem = w.mem)) ∧
        (let n := s.mgmt.mbarg.toNat
         s.mgmt.fwBusy = false → Goes (exec (.mbPowercap seq) s) (fun t => t.mem = s.mem ∧ doneWith t seq (if 300 ≤ n ∧ n ≤ 1800 then 0 else 2) ∧
          t.mgmt.cap = if 300 ≤ n ∧ n ≤ 1800 then n else s.mgmt.cap)) ∧
        (s.mgmt.fwBusy = false → s.mgmt.suspbase.getLsbD 0 = true → Goes (exec (.mbPrepare seq) s) (fun t => t.mgmt.phase = .preparing ∧ t.mgmt.mbBusy = true ∧ t.mgmt.mbCur = seq.toNat ∧
          t.mgmt.since = s.time.now ∧ t.esc.stopped = true ∧ ∀ c, c < 128 → (getCluster t c).closed = true))) ∧
      (selFw s ≠ 0 → s.mgmt.fwBusy = false → s.mgmt.suspbase.getLsbD 0 = true → s.mgmt.phase = .quiet →
        Goes (exec (.mbCommit seq) s) (fun t => t.mgmt.phase = .committing ∧ t.mgmt.mbBusy = true ∧ t.mem = s.mem) ∧
        Goes (exec (.mbAbort seq) s) (fun t => doneWith t seq 0 ∧ t.mgmt.phase = .run ∧ t.esc.stopped = false ∧ t.mem = s.mem ∧
          ∀ c, c < 128 → (getCluster t c).closed = false)) ∧
      (selFw s ≠ 0 → s.mgmt.fwBusy = false → s.mgmt.suspbase.getLsbD 0 = true → s.mgmt.phase = .retained → Goes (exec (.mbWake seq) s) (fun t => t.mgmt.phase = .waking ∧ t.mgmt.mbBusy = true ∧ t.mem = s.mem)) ∧
      (selFw s ≠ 0 → s.mgmt.fwBusy = false → s.mgmt.suspbase.getLsbD 0 = true → s.mgmt.phase = .woken → Goes (exec (.mbRelease seq) s) (fun t => doneWith t seq 0 ∧ t.mgmt.phase = .run ∧ t.esc.stopped = false ∧
        t.mem = s.mem ∧ (∀ k, k < 16 → (tgetD s.esc.anch k 0).getLsbD 0 = true → k ∈ t.esc.scans) ∧
        t.fab.tx = s.fab.tx.map (fun x => { x with timer := s.time.now, resends := 0 }))))) ∧
  (∀ (s : State), s.mgmt.off = false →
    let seq := BitVec.ofNat 8 s.mgmt.mbCur
    (s.mgmt.phase = .preparing → s.mgmt.mbCur < 256 →
      ((∃ b, b ∈ s.blocks ∧ b.2.noSlot = true) → Goes (exec .prepareQuiet s) (fun t => doneWith t seq 4 ∧ t.mgmt.phase = .run ∧ t.mem = s.mem)) ∧
      ((∀ b, b ∈ s.blocks → b.2.noSlot = false) → allIdle s = true → Goes (exec .prepareQuiet s) (fun t => doneWith t seq 0 ∧ t.mgmt.phase = .quiet ∧ t.mem = s.mem)) ∧
      ((∀ b, b ∈ s.blocks → b.2.noSlot = false) → allIdle s = false → (∀ k, k ∈ s.stackTbl → ∀ l, l ∈ k.2.leases → l.2.st ≠ .reserved) →
        exec .prepareQuiet s = .next s) ∧
      ((∀ b, b ∈ s.blocks → b.2.noSlot = false) → (∃ k, k ∈ s.stackTbl ∧ ∃ l, l ∈ k.2.leases ∧ l.2.st = .reserved) →
        exec .prepareQuiet s = .next (takeLeases s)) ∧
      (s.mgmt.since + 3000000000 ≤ s.time.now → Goes (exec .prepareTimeout s) (fun t => doneWith t seq 5 ∧ t.mgmt.phase = .run ∧ t.mem = s.mem)) ∧
      (s.time.now < s.mgmt.since + 3000000000 → exec .prepareTimeout s = .next s)) ∧
    (s.mgmt.phase = .committing → s.mgmt.mbCur < 256 → s.coh.host = [] → s.coh.snoops = [] → Goes (exec .commitRetained s) (fun t =>
      doneWith t seq 0 ∧ t.mgmt.phase = .retained ∧ t.cores = [] ∧ t.clusters = [] ∧ t.bges = [] ∧ t.xl.dieTlb0 = [] ∧ t.xl.dieTlb1 = [])) ∧
    (s.mgmt.phase = .waking → s.mgmt.mbCur < 256 → Goes (exec .wakeWoken s) (fun t => doneWith t seq 0 ∧ t.mgmt.phase = .woken ∧ t.mem = s.mem))) ∧
  (∀ (s : State) (a b : FwSlot), (s.mgmt.off = false → exec (.powerOnBoot a b) s = .next s) ∧
    (s.mgmt.off = true →
      let ok := fun (x : FwSlot) => x.keyDigest = s.fuses.rootDigest ∧ x.keyBits = 4096 ∧ x.exponent = 65537 ∧ x.verifies = true ∧ s.fuses.minSvn ≤ x.svn
      Goes (exec (.powerOnBoot a b) s) (fun t => t.mgmt.off = false ∧ (ok a ∨ ok b → t.mgmt.booted = true ∧ t.mgmt.verFw = 0x100) ∧
        (¬ ok a → ¬ ok b → t.mgmt.booted = false ∧ t.mgmt.verFw = 0) ∧ t.fuses = s.fuses ∧ t.mem = State.reset.mem ∧ t.groups = [] ∧ t.time = State.reset.time))) ∧
  (∀ (s : State) (n : Nat), (raiseSvn s n).fuses.rootDigest = s.fuses.rootDigest ∧ s.fuses.minSvn ≤ (raiseSvn s n).fuses.minSvn ∧
    (raiseSvn s n).fuses.minSvn = if s.mgmt.booted = true ∧ s.mgmt.off = false then max s.fuses.minSvn n else s.fuses.minSvn) ∧
  (∀ (s : State) (v w : Nat), v < 4 → w < 4 →
    (maskVector s v true).mgmt.vmask.testBit w = (w = v || s.mgmt.vmask.testBit w) ∧ (maskVector s v true).mgmt.msix = s.mgmt.msix ∧
    (maskVector s v false).mgmt.vmask.testBit w = (w ≠ v && s.mgmt.vmask.testBit w) ∧ (maskVector s v false).mgmt.vpend.testBit w = (w ≠ v && s.mgmt.vpend.testBit w) ∧
    (maskVector s v false).mgmt.msix = if s.mgmt.vpend.testBit v then v :: s.mgmt.msix else s.mgmt.msix)

/-- R109, R396, R397, R406 to R410: a register's write keeps its RW bits and is refused to agents without the right; DVREQ is denied by the first
check that fails or starts a step, whose clock and rail then follow; temperature, current and idle. The model's choices here: memory after
THERMAL_SHUTDOWN is as at reset (log 4); the points of DVSAMP and of OPk (log 72); the range of BINOP and FFLOOR (log 2); masked vectors (log 123). -/
def Obligations.RegistersAndPower : Prop :=
  (∀ (s : State) (ag : Agent) (v : W64) (off : Nat), s.mgmt.off = false → (ag = .host → hostClosed s = false ∧ s.xl.waiting = []) →
    (mayWrite ag off = false → exec (.registerWrite ag off v) s = .next s) ∧
    (ag ≠ .core → Goes (exec (.registerWrite ag 0x300 v) s) (fun t => regRead t 0x300 = v &&& 0x01FFFFFFC0000001 ∧ t.mem = s.mem)
      ∧ Goes (exec (.registerWrite ag 0x308 v) s) (fun t => regRead t 0x308 = v &&& 0x01FFFFFFFFC00000 ∧ t.mem = s.mem)
      ∧ Goes (exec (.registerWrite ag 0x310 v) s) (fun t => regRead t 0x310 = v &&& 0xFFFF ∧ t.mem = s.mem)) ∧
    (ag = .host → Goes (exec (.registerWrite ag 0x500 v) s) (fun t => regRead t 0x500 = v &&& 0x00003FFFFC000001 ∧ t.mem = s.mem)
      ∧ Goes (exec (.registerWrite ag 0x708 v) s) (fun t => regRead t 0x708 = v ∧ t.mem = s.mem)
      ∧ Goes (exec (.verselWrite ag v) s) (fun t => t.mem = s.mem ∧ t.mgmt.versel = BitVec.ofNat 64 (versionKept s.mgmt.verFw (v.toNat % 2 ^ 16)
          + versionKept 0x100 (v.toNat / 2 ^ 16 % 2 ^ 16) * 2 ^ 16 + versionKept 0x100 (v.toNat / 2 ^ 32 % 2 ^ 16) * 2 ^ 32
          + versionKept 0x100 (v.toNat / 2 ^ 48) * 2 ^ 48)))) ∧
  (∀ (s : State) (v : W64), s.mgmt.off = false →
    let t0 := v.toNat % 8
    let m := v.toNat / 8 % 4
    let named := fun (d : Nat) => d < 2 ∧ m / 2 ^ d % 2 = 1
    let denied := fun (c : Nat) => Goes (exec (.dvreq .fw v) s) (fun t => t.mgmt = { s.mgmt with last := c })
    (v.toNat / 32 ≠ 0 ∨ m = 0 → exec (.dvreq .fw v) s = .next s) ∧
    (v.toNat / 32 = 0 → m ≠ 0 →
      ((∃ d, named d ∧ stepOf s d ≠ none) ∨ s.mgmt.phase ≠ .run → denied 3) ∧
      ((∀ d, named d → stepOf s d = none) → s.mgmt.phase = .run →
        (binOp < t0 → denied 2) ∧ (t0 ≤ binOp → t0 < max fFloor s.mgmt.swFloor → denied 1) ∧
        (t0 ≤ binOp → max fFloor s.mgmt.swFloor ≤ t0 →
          ((∃ d, named d ∧ opOf s d < t0) → s.mgmt.tlim = true → denied 4) ∧
          ((∃ d, named d ∧ opOf s d < t0) → s.mgmt.tlim = false → s.mgmt.throttling = true → denied 5) ∧
          (((∀ d, named d → t0 ≤ opOf s d) ∨ (s.mgmt.tlim = false ∧ s.mgmt.throttling = false)) → ∀ d, named d → opOf s d ≠ t0 →
            Goes (exec (.dvreq .fw v) s) (fun t => t.mem = s.mem ∧ opOf t d = opOf s d ∧
              stepOf t d = some { target := t0, switched := false, from_ := opOf s d, since := s.time.now, req := freshReq s.mgmt })) ∧
          (((∀ d, named d → t0 ≤ opOf s d) ∨ (s.mgmt.tlim = false ∧ s.mgmt.throttling = false)) → (∀ d, named d → opOf s d = t0) → denied 0)))) ∧
    Goes (exec (.dvfloorWrite .fw v) s) (fun t => t.mgmt.swFloor = if s.mgmt.op0 < t0 ∨ s.mgmt.op1 < t0 then s.mgmt.swFloor else t0)) ∧
  (∀ (s : State) (d : Fin 2) (x : DvStep), stepOf s d.val = some x → s.mgmt.off = false →
    let wait := if x.from_ < x.target then max 5000 (railTicks x.from_ x.target) else 5000
    (x.switched = false → s.time.now < x.since + wait → exec (.dvfsClockSwitch d) s = .next s) ∧
    (x.switched = false → x.since + wait ≤ s.time.now → Goes (exec (.dvfsClockSwitch d) s) (fun t => opOf t d.val = x.target ∧ t.mem = s.mem ∧
      stepOf t d.val = some { x with switched := true, since := s.time.now })) ∧
    (x.switched = true → x.target ≤ x.from_ → s.time.now < x.since + railTicks x.from_ x.target → exec (.dvfsRailSettled d) s = .next s) ∧
    (x.switched = true → (x.from_ < x.target ∨ x.since + railTicks x.from_ x.target ≤ s.time.now) → Goes (exec (.dvfsRailSettled d) s) (fun t =>
      stepOf t d.val = none ∧ opOf t d.val = opOf s d.val ∧ t.mem = s.mem ∧
      let other := stepOf s (1 - d.val)
      (x.req ≠ 0 → (∀ y, other = some y → y.req ≠ x.req) → t.mgmt.last = 0) ∧
      (x.req = 0 ∨ (∃ y, other = some y ∧ y.req = x.req) → t.mgmt.last = s.mgmt.last)))) ∧
  (∀ (s : State), (s.time.now / 10000 = s.mgmt.winAt / 10000 → exec .dvsampWindow s = .next s) ∧
    (s.time.now / 10000 ≠ s.mgmt.winAt / 10000 → Goes (exec .dvsampWindow s) (fun t => t.mgmt.winAt = s.time.now ∧ t.mgmt.winTotal = [] ∧ t.mgmt.winStall = [] ∧
      t.mgmt.samp0 = BitVec.ofNat 64 (tgetD s.mgmt.winStall 0 0 % 2 ^ 32 + tgetD s.mgmt.winTotal 0 0 % 2 ^ 32 * 2 ^ 32) ∧
      t.mgmt.samp1 = BitVec.ofNat 64 (tgetD s.mgmt.winStall 1 0 % 2 ^ 32 + tgetD s.mgmt.winTotal 1 0 % 2 ^ 32 * 2 ^ 32)))) ∧
  (∀ (s : State), s.mgmt.off = false →
    Goes (exec .thermalTrip s) (fun t => t.mgmt.op0 = 0 ∧ t.mgmt.op1 = 0 ∧ t.mgmt.tlim = true ∧ Raised t 3 ∧ t.mem = s.mem ∧
      ((∃ d x, d < 2 ∧ stepOf s d = some x ∧ x.req ≠ 0) → t.mgmt.last = 4) ∧
      ((∀ d x, d < 2 → stepOf s d = some x → x.req = 0) → t.mgmt.last = s.mgmt.last) ∧ ∀ d x, stepOf t d = some x → x.req = 0) ∧
    (s.mgmt.tlim = true → Goes (exec .thermalRecovery s) (fun t => t.mgmt.tlim = false ∧ Raised t 3 ∧ t.mem = s.mem)) ∧
    (∀ amps, s.mgmt.throttling = false → 3420 < amps → Goes (exec (.currentSample amps) s) (fun t => t.mgmt.throttling = true ∧ Raised t 3 ∧
      t.mgmt.thrCnt = min (s.mgmt.thrCnt + 1) 65535)) ∧
    (∀ amps, s.mgmt.throttling = true → amps < 3240 → Goes (exec (.currentSample amps) s) (fun t => t.mgmt.throttling = false ∧ t.mgmt.thrCnt = s.mgmt.thrCnt)) ∧
    (∀ amps, s.mgmt.throttling = false → amps ≤ 3420 → exec (.currentSample amps) s = .next s) ∧
    (quietNow s = true → 1000000 ≤ s.mgmt.idleFor → s.mgmt.phase = .run → Goes (exec .idleEntry s) (fun t => t.mgmt.idle = true ∧ t.mem = s.mem)) ∧
    (hostClosed s = false → s.xl.waiting = [] → ∀ off v, Goes (exec (.registerWrite .host off v) s) (fun t => t.mgmt.idle = false ∧ t.mgmt.idleFor = 0)) ∧
    Goes (exec .thermalShutdown s) (fun t => t.mgmt.off = true ∧ t.groups = [] ∧ t.fuses = s.fuses ∧ t.mem = State.reset.mem))

/-! ## Encoding, steps and reset -/

/-- R25 to R31, R34: words of every family, from the spec's examples of their encodings, and the instructions they stand for. -/
def Obligations.DecodeWords : Prop :=
  (∀ p ∈ ([(0x00000000, .nop), (0x26C00414, .add (.y 0) (.v 1) (.v 2) .w64), (0x260B8118, .add (.v 5) (.y 0) (.int 3) .w64),
      (0x02400040, .brc 2 false ⟨0, 64⟩), (0x03000C00, .jmp (.v 3)), (0x06000000, .ret), (0x08004000, .fend .all), (0x0AA00002, .brk (.pred 5 false) 2),
      (0x0E000003, .bar 3), (0x0F852400, .launch 2 9), (0x12850C00, .marm 2 3), (0x13000064, .yield 100),
      (0x20041234, .movw 0 (.v 2) false 0x1234), (0x400A1843, .shri (.v 5) (.v 6) .w32 3), (0x4B240C21, .icmp .lts 2 (.v 3) (.v 4) .w32),
      (0x491004A0, .perm (.v 8) (.v 1) (.v 20)), (0x78080801, .fred (.v 4) (.v 2) .add .fp32)] : List (Nat × Instr)), decodeNat p.1 = .ok p.2) ∧
  (∀ p ∈ ([(0xF0750F00, .pfx 3 true 2 true 7 true 0), (0x63081431, .ffma (.v 4) (.v 5) (.v 6) .fp32), (0x850C0800, .qmx4 6 (.v 2)),
      (0x8C192850, .srnd (.v 12) (.s 10) (.v 10)), (0x811A3048, .icvt (.v 13) (.v 12) .fp32 .n64), (0x6C223901, .fcmp .lt 1 (.v 14) (.int 0) .fp32),
      (0x549A0402, .vote (.s 13) 1 .ballot), (0x53A84EA8, .bcast (.s 20) (.v 19) (.s 21)), (0x43B56800, .popc (.s 26) (.s 26) .w64),
      (0xA0100020, .mqa 8 0 (.v 4) .bf16), (0xA0100228, .mqa 8 0 (.tile 5) .bf16), (0xA1200020, .mqax 16 0 (.v 4) .mx4), (0xA3851400, .mtf 2 5),
      (0xA5000000, .msync), (0xB0001860, .smm 0 6 12 .fp32), (0xB4182A18, .sluf 12 10 3 .fp32)] : List (Nat × Instr)), decodeNat p.1 = .ok p.2) ∧
  (∀ p ∈ ([(0xC00C0C80, .ld (.v 6) (.v 3) .o .b4 0), (0xC00506FD, .ld (.v 2) (.s 1) .s .b8 0x3D), (0xC2131045, .lds (.v 9) (.s 4) .b2 5),
      (0xC40E0A1A, .gath 7 (.v 2) 3 .b4), (0xD1840013, .bufset 2 true 3), (0xC80A0412, .atom 5 (.v 1) .addN32 .dev .rel),
      (0xC90C0851, .cas 6 (.v 2) true false .dev .acq), (0xCA000022, .fence .device .rel), (0xCF851228, .phaseOpen 2 4 5), (0xCC892800, .rowgive 4 10),
      (0xD0080600, .red (.v 4) (.v 1) .fp32 .add), (0xE0251003, .xcopy (some 2) 4 3), (0xE5871C81, .ovld 3 7 2 1), (0xE8011400, .waitall 5),
      (0xE9851400, .ffr 2 5)] : List (Nat × Instr)), decodeNat p.1 = .ok p.2) ∧
  (∀ p ∈ ([(0xEC011809, .bgrun 6 9), (0xED840009, .bgwait 2 9), (0xEE0809C9, .gred 4 (.v 2) (.fpc 1) true), (0xEF100A28, .mlr 8 (.v 2) 5 false),
      (0xF1000005, .trap 5), (0xF2000000, .tret), (0xF3060002, .rdsr (.v 3) 2), (0xF3880009, .rdsr (.s 4) 9), (0xF4011009, .wrsr (.s 4) 9),
      (0xF6840000, .rdtime (.s 2)), (0xFF123456, .udf 0x123456)] : List (Nat × Instr)), decodeNat p.1 = .ok p.2) ∧
  decodeMoveNat 0xAA000050 = .bankMoveImmediate true 2 0x20 5 0 ∧ decodeMoveNat 0x00B34000 = .bankMovePort false 0 0x0B 0x1A 0 ∧
  decodeHeaderNat 0xF7220000 = .ok (.clauseHeader 2 0 true false 0 false 0 false false false) ∧
  decodeNat 0x00000001 = .error .reserved ∧ decodeNat 0xFE000000 = .error .unassigned

/-- R25 to R33, R75: every well-formed instruction's word decodes to it, for every word of a clause body, headers and bank moves, and
every word that decodes is the word of the instruction it decodes to, so no bit is dropped and no two words mean one instruction. -/
def Obligations.DecodeEncode : Prop :=
  (∀ i : Instr, i.isWord = true → i.wf = true → ∃ w : W32, encode i = some w ∧ decode w = .ok i) ∧
  (∀ (w : W32) (i : Instr), decode w = .ok i → i.isWord = true ∧ i.wf = true ∧ encode i = some w) ∧
  (∀ c e s t b wb k y l p, ∃ w : W32, encode (.clauseHeader c e s t b wb k y l p) = some w ∧
    decodeHeader w = .ok (.clauseHeader c e s t b wb k y l p)) ∧
  (∀ (w : W32) (i : Instr), decodeHeader w = .ok i → encode i = some w) ∧
  (∀ gn gs d sr md, ∃ w : W32, encode (.bankMovePort gn gs d sr md) = some w ∧ decodeMove w = .bankMovePort gn gs d sr md) ∧
  (∀ gn gs d im md, ∃ w : W32, encode (.bankMoveImmediate gn gs d im md) = some w ∧ decodeMove w = .bankMoveImmediate gn gs d im md) ∧
  (∀ w : W32, encode (decodeMove w) = some w)

/-- R19, R21, R35, R74: what a step is. An agenda's event is exec of it, and a request of it that has to wait is noted at its line; a path takes the header or the word its code address holds, decoded, in
focus; a word that cannot be decoded traps; an engine takes the move at its PC. With no agenda, a step is the first due event or the head
of the plan, which is the model's own order (log 1). -/
def Obligations.StepRunsDecoded : Prop :=
  (∀ (s : State) (i : Instr) (r : List Action), s.agenda = .event i :: r → step s = noted (.event i) (exec i { s with agenda := r })) ∧
  (∀ (a : Action) (o : Host.Outcome State Fault Refusal), (∀ t, o = .next t → t.coh.waits = none) → noted a o = o) ∧
  (∀ (a b : Action) (t : State) (line : Nat), t.coh.waits = some line → askAgain a = some b → lineHeld t line = true → (line, b) ∉ t.coh.holds →
    noted a (.next t) = .next { t with coh := { t.coh with waits := none, holds := t.coh.holds ++ [(line, b)] } }) ∧
  (∀ (s : State) (g l : Nat) (r : List Action) (cx : Ctx) (ws : List W32) (sl : List Nat), s.agenda = .path g l :: r →
    let s1 := { s with agenda := r, focus := some (g, l) }
    let i := wixOf cx.path.pc
    let h := codeAt ws i
    let w := codeAt ws (i + cx.path.widx)
    let q := { cx.path with hdr := h, cur := w }
    let s2 := modGroup s1 cx.gk (fun x => modPath x cx.lane (fun _ => q))
    ctxOf s1 = some cx → cx.path.wait = .ready → cx.grp.replays = [] →
    (∀ x, x ∈ cx.grp.words → x.replay = true → wordOpen x = false ∧ wordFaulted x = false) →
    fetchPath s1 cx.grp.core cx.path = .code ws sl →
    (∀ x, cx.path.widx = 0 → decodeHeaderNat h = .ok x → step s = noted (.path g l) (exec x s1)) ∧
    (cx.path.widx ≠ 0 → holdsOctets cx.path = true ∨ octetsFree s1 cx.gk cx.grp cx.path = true → headerOk ws i = true → cx.path.widx ≤ hdrCount h →
      (classBad ws cx.path h cx.path.widx w = true → step s = noted (.path g l) (.next (raiseTrap cx (illegalTrap q .class_) s2))) ∧
      (classBad ws cx.path h cx.path.widx w = false →
        (∀ x, decodeNat (if fOP w = 0xF0 then w else rotWord cx.path.loop w) = .ok x → step s = noted (.path g l) (exec x s2)) ∧
        (∀ e, decodeNat (if fOP w = 0xF0 then w else rotWord cx.path.loop w) = .error e →
          step s = noted (.path g l) (.next (raiseTrap cx (illegalTrap q e) s2)))))) ∧
  (∀ (s : State) (core : Nat) (p : Path), (∀ lp, p.loop = some lp → lp.pass = 0 ∨ lp.captured = []) →
    fetchPath s core p = fetchAt s core p.pc) ∧
  (∀ (s : State) (k : Nat) (r : List Action) (c : BgCmd) (w : W32), s.agenda = .bge k :: r → runOf s k = some c → bitsOf c.blk 192 1 = 0 →
    (getBge s k).moves[(getBge s k).pc]? = some w → step s = noted (.bge k) (exec (decodeMove w) { s with agenda := r, bfocus := some k })) ∧
  (∀ (s : State) (a : Action) (r : List Action), s.agenda = [] → dueNext s = none → plan s = a :: r → step s = act a { s with agenda := r }) ∧
  (∀ (s t : State), s.agenda = [] → dueNext s = some t → step s = .next t)

/-- R3, R47, R161: every step from any state whose memories are in canonical form gives a state whose memories are. The form is the model's
own (log 4); that every byte stored is the byte read is stated with the instructions. -/
def Obligations.StepKeepsInv : Prop := ∀ s t : State, Inv s → step s = .next t → Inv t

/-- Tables 4.1, 5.6, 6.1, 13.3, 15.8, 15.11, 16.2, 16.4, 16.7: what reset leaves, as the register window and an engine read it; nothing is resident.
The memory's contents and the management clocks are the model's choice (log 4, log 6). -/
def Obligations.ResetState : Prop :=
  Inv State.reset ∧ State.reset.groups = [] ∧ State.reset.blocks = [] ∧ State.reset.esc.insts = [] ∧
  (∀ off, off ∈ [0x100, 0x110, 0x200, 0x278, 0x300, 0x308, 0x310, 0x318, 0x320, 0x408, 0x500, 0x508, 0x600, 0x608, 0x610, 0x618, 0x700, 0x708, 0x710] →
    regRead State.reset off = 0) ∧
  regRead State.reset 0x400 = 0x0100010001000100 ∧ regRead State.reset 0x13000 = 0x3FFFF ∧ regRead State.reset 0x13008 = 1000 ∧
  (∀ i, i < 1024 → regRead State.reset (0x10000 + 8 * i) = 2) ∧ (∀ j, j < 256 → regRead State.reset (0x12000 + 8 * j) = 2) ∧
  (regRead State.reset 0x620).toNat % 8 = 0 ∧
  (∀ k, let b := getBge State.reset k
    b.valid = false ∧ b.full0 = false ∧ b.full1 = false ∧ b.c = 0 ∧ b.rowptr = 0 ∧ b.colptr = 0 ∧ b.dcfg = 0 ∧ b.addo = 0 ∧ b.addq = 0 ∧ b.cmpo = 0 ∧
    b.shfo = 0 ∧ b.shfq = 0 ∧ b.run = none ∧ (∀ j, tgetD b.vs j 0 = 0 ∧ tgetD b.bs j 0x7F = 0x7F ∧ tgetD b.chs j 0x3F8038 = 0x3F8038 ∧
      tgetD b.acc j 0 = 0 ∧ tgetD b.g j 0 = 0 ∧ tgetD b.l j 0 = 0)) ∧
  (∀ st x, tgetD (getStack State.reset st).leases x Lease.reset = Lease.reset ∧ Lease.reset.st = .free) ∧
  (∀ h b core gid l0 fib low, (newGroup h b core gid l0 fib low).tvec = 0xFFFF0000)
end

