-- ==== Sys2Proof/Laws/Table.lean ====
section
/-! SUPPORT. What tables and byte memory answer after a change, and that every change of a cell list keeps its canonical form. -/

namespace Sys2Proof.Laws

set_option Elab.async false

open Sys2Proof.Machine

/-! ## Tables -/

@[simp] theorem tget_nil {α : Type} (x : Nat) : tget ([] : Tbl α) x = none := rfl
@[simp] theorem tget_tset_same {α : Type} (t : Tbl α) (x : Nat) (a : α) : tget (tset t x a) x = some a := by
  induction t with
  | nil => simp [tset, tget]
  | cons e t ih => obtain ⟨k, v⟩ := e; simp only [tset]; split
                   · simp [tget]
                   · split
                     · simp [tget]
                     · rename_i h; simp [tget, Ne.symm h, ih]
theorem tget_tset_other {α : Type} (t : Tbl α) (x y : Nat) (a : α) (h : y ≠ x) : tget (tset t x a) y = tget t y := by
  induction t with
  | nil => simp [tset, tget, Ne.symm h]
  | cons e t ih => obtain ⟨k, v⟩ := e; simp only [tset]; split
                   · simp [tget, Ne.symm h]
                   · split
                     · rename_i e; subst e; simp [tget, Ne.symm h]
                     · simp only [tget, ih]
theorem tget_tset {α : Type} (t : Tbl α) (x y : Nat) (a : α) : tget (tset t x a) y = if y = x then some a else tget t y := by
  by_cases h : y = x
  · subst h; simp
  · simp [h, tget_tset_other t x y a h]
@[simp] theorem tgetD_tset_same {α : Type} (t : Tbl α) (x : Nat) (a d : α) : tgetD (tset t x a) x d = a := by simp [tgetD]
theorem tgetD_tset_other {α : Type} (t : Tbl α) (x y : Nat) (a d : α) (h : y ≠ x) : tgetD (tset t x a) y d = tgetD t y d := by
  simp [tgetD, tget_tset_other t x y a h]
@[simp] theorem tget_tdel_same {α : Type} (t : Tbl α) (x : Nat) : tget (tdel t x) x = none := by
  induction t with
  | nil => rfl
  | cons e t ih => obtain ⟨k, v⟩ := e; simp only [tdel]; split
                   · exact ih
                   · rename_i h; simp [tget, h, ih]
theorem tget_tdel_other {α : Type} (t : Tbl α) (x y : Nat) (h : y ≠ x) : tget (tdel t x) y = tget t y := by
  induction t with
  | nil => rfl
  | cons e t ih => obtain ⟨k, v⟩ := e; simp only [tdel]; split
                   · rename_i e; subst e; simp [tget, Ne.symm h, ih]
                   · simp only [tget, ih]
/-- What a table holds after an entry is written, was written or was there. -/
theorem mem_tset {α : Type} (t : Tbl α) (x : Nat) (a : α) (e : Nat × α) (h : e ∈ tset t x a) : e = (x, a) ∨ e ∈ t := by
  induction t with
  | nil => simpa [tset] using h
  | cons q t ih =>
    obtain ⟨k, v⟩ := q
    simp only [tset] at h
    split at h
    · simpa using h
    · split at h
      · simp only [List.mem_cons] at h ⊢; rcases h with h | h
        · exact .inl h
        · exact .inr (.inr h)
      · simp only [List.mem_cons] at h ⊢; rcases h with h | h
        · exact .inr (.inl h)
        · rcases ih h with h | h
          · exact .inl h
          · exact .inr (.inr h)
theorem mem_tdel {α : Type} (t : Tbl α) (x : Nat) (e : Nat × α) (h : e ∈ tdel t x) : e ∈ t := by
  induction t with
  | nil => exact h
  | cons q t ih =>
    obtain ⟨k, v⟩ := q
    simp only [tdel] at h
    split at h
    · exact .tail _ (ih h)
    · simp only [List.mem_cons] at h ⊢; rcases h with h | h
      · exact .inl h
      · exact .inr (ih h)
theorem mem_of_tget {α : Type} (t : Tbl α) (x : Nat) (a : α) (h : tget t x = some a) : (x, a) ∈ t := by
  induction t with
  | nil => cases h
  | cons q t ih =>
    obtain ⟨k, v⟩ := q
    simp only [tget] at h
    split at h
    · rename_i e; subst e; injection h with h; subst h; exact .head _
    · exact .tail _ (ih h)

/-! ## The canonical form of byte memory -/

theorem cellsWfFrom_mono (l : List Host.Cell) (a b : Nat) (h : a ≤ b) (w : cellsWfFrom b l = true) : cellsWfFrom a l = true := by
  cases l with
  | nil => rfl
  | cons e t => obtain ⟨k, v⟩ := e; simp only [cellsWfFrom, Bool.and_eq_true, decide_eq_true_eq] at w ⊢; exact ⟨⟨by omega, w.1.2⟩, w.2⟩
theorem cellsSet_wfFrom (l : List Host.Cell) (lo x : Nat) (b : Byte) (h : cellsWfFrom lo l = true) (hx : lo ≤ x) : cellsWfFrom lo (cellsSet l x b) = true := by
  induction l generalizing lo with
  | nil => simp only [cellsSet]; split
           · rfl
           · rename_i z; simp [cellsWfFrom, hx]; exact z
  | cons e t ih =>
    obtain ⟨k, v⟩ := e
    simp only [cellsWfFrom, Bool.and_eq_true, decide_eq_true_eq] at h
    simp only [cellsSet]
    split
    · split
      · simp only [cellsWfFrom, Bool.and_eq_true, decide_eq_true_eq]; exact h
      · rename_i lt z; simp only [cellsWfFrom, Bool.and_eq_true, decide_eq_true_eq]
        exact ⟨⟨hx, by simpa using z⟩, ⟨by omega, h.1.2⟩, h.2⟩
    · split
      · rename_i e; subst e; split
        · exact cellsWfFrom_mono t _ _ (by omega) h.2
        · rename_i z; simp only [cellsWfFrom, Bool.and_eq_true, decide_eq_true_eq]; exact ⟨⟨hx, by simpa using z⟩, h.2⟩
      · rename_i n m; simp only [cellsWfFrom, Bool.and_eq_true, decide_eq_true_eq]; exact ⟨h.1, ih _ h.2 (by omega)⟩
theorem cellsSet_wf (l : List Host.Cell) (x : Nat) (b : Byte) (h : cellsWf l = true) : cellsWf (cellsSet l x b) = true := cellsSet_wfFrom l 0 x b h (Nat.zero_le x)
theorem cellsWrite_wf (l : List Host.Cell) (a n v : Nat) (h : cellsWf l = true) : cellsWf (cellsWrite l a n v) = true := by
  induction n generalizing l a v with
  | zero => exact h
  | succ n ih => exact ih _ _ _ (cellsSet_wf l a _ h)
theorem cellsMerge_wf (l : List Host.Cell) (a n m v : Nat) (h : cellsWf l = true) : cellsWf (cellsMerge l a n m v) = true := by
  induction n generalizing l a m v with
  | zero => exact h
  | succ n ih => simp only [cellsMerge]; split
                 · exact ih _ _ _ _ (cellsSet_wf l a _ h)
                 · exact ih _ _ _ _ h

/-! ## Bytes read after a write -/

/-- Below its first cell a list in canonical form reads 0. -/
theorem cellsGet_below (l : List Host.Cell) (lo x : Nat) (h : cellsWfFrom lo l = true) (hx : x < lo) : cellsGet l x = 0 := by
  cases l with
  | nil => rfl
  | cons e t => obtain ⟨k, v⟩ := e; simp only [cellsWfFrom, Bool.and_eq_true, decide_eq_true_eq] at h
                simp [cellsGet, show ¬ k = x by omega, show x < k by omega]
theorem cellsGet_cellsSet_from (l : List Host.Cell) (lo x y : Nat) (b : Byte) (h : cellsWfFrom lo l = true) :
    cellsGet (cellsSet l x b) y = if y = x then b else cellsGet l y := by
  induction l generalizing lo with
  | nil =>
    simp only [cellsSet]; split
    · rename_i z; simp [cellsGet, z]
    · simp only [cellsGet]; split
      · rename_i e; simp [e]
      · rename_i e; simp [Ne.symm e]
  | cons e t ih =>
    obtain ⟨k, v⟩ := e
    simp only [cellsWfFrom, Bool.and_eq_true, decide_eq_true_eq] at h
    simp only [cellsSet]
    split
    · rename_i lt
      split
      · rename_i z; by_cases e : y = x
        · subst e; simp [cellsGet, z, lt, show ¬ k = y by omega]
        · simp [e]
      · by_cases e : y = x
        · subst e; simp [cellsGet]
        · by_cases f : y < x
          · simp [cellsGet, e, Ne.symm e, f, show ¬ k = y by omega, show y < k by omega]
          · simp [cellsGet, e, Ne.symm e, f]
    · split
      · rename_i e; subst e
        split
        · rename_i z; by_cases e : y = x
          · subst e; rw [cellsGet_below t _ _ h.2 (by omega)]; simp [z]
          · by_cases f : y < x
            · rw [cellsGet_below t _ _ h.2 (by omega)]; simp [cellsGet, e, Ne.symm e, f]
            · simp [cellsGet, e, Ne.symm e, f]
        · by_cases e : y = x
          · subst e; simp [cellsGet]
          · simp [cellsGet, e, Ne.symm e]
      · rename_i n m
        simp only [cellsGet]
        by_cases e : k = y
        · simp [e, show ¬ y = x by omega]
        · simp only [e, if_false]
          split
          · simp [show ¬ y = x by omega]
          · exact ih _ h.2
/-- A byte after a byte was written. -/
theorem cellsGet_cellsSet (l : List Host.Cell) (x y : Nat) (b : Byte) (h : cellsWf l = true) : cellsGet (cellsSet l x b) y = if y = x then b else cellsGet l y :=
  cellsGet_cellsSet_from l 0 x y b h
/-- A byte after a span was written. -/
theorem cellsGet_cellsWrite (l : List Host.Cell) (a n v y : Nat) (h : cellsWf l = true) :
    cellsGet (cellsWrite l a n v) y = if a ≤ y ∧ y < a + n then BitVec.ofNat 8 (v / 256 ^ (y - a)) else cellsGet l y := by
  induction n generalizing l a v with
  | zero => simp only [cellsWrite, show ¬ (a ≤ y ∧ y < a + 0) by omega, if_false]
  | succ n ih =>
    simp only [cellsWrite]
    rw [ih _ _ _ (cellsSet_wf l a _ h), cellsGet_cellsSet l a y _ h]
    by_cases e : y = a
    · subst e; simp [show ¬ (y + 1 ≤ y ∧ y < y + 1 + n) by omega]
    · by_cases f : a + 1 ≤ y ∧ y < a + 1 + n
      · rw [if_pos f, if_pos (by omega), Nat.div_div_eq_div_mul, show y - a = y - (a + 1) + 1 by omega, Nat.pow_succ']
      · rw [if_neg f, if_neg e, if_neg (by omega)]
/-- A byte after bytes under a mask were written. -/
theorem cellsGet_cellsMerge (l : List Host.Cell) (a n m v y : Nat) (h : cellsWf l = true) :
    cellsGet (cellsMerge l a n m v) y = if a ≤ y ∧ y < a + n ∧ m / 2 ^ (y - a) % 2 = 1 then BitVec.ofNat 8 (v / 256 ^ (y - a)) else cellsGet l y := by
  induction n generalizing l a m v with
  | zero => simp only [cellsMerge, show ¬ (a ≤ y ∧ y < a + 0 ∧ m / 2 ^ (y - a) % 2 = 1) by omega, if_false]
  | succ n ih =>
    have w : cellsWf (if m % 2 = 1 then cellsSet l a (BitVec.ofNat 8 v) else l) = true := by
      split
      · exact cellsSet_wf l a _ h
      · exact h
    simp only [cellsMerge]
    rw [ih _ _ _ _ w]
    by_cases e : y = a
    · subst e
      rw [if_neg (show ¬ (y + 1 ≤ y ∧ y < y + 1 + n ∧ m / 2 / 2 ^ (y - (y + 1)) % 2 = 1) by omega)]
      simp only [Nat.sub_self, Nat.pow_zero, Nat.div_one]
      by_cases b : m % 2 = 1
      · rw [if_pos b, if_pos ⟨Nat.le_refl _, by omega, b⟩, cellsGet_cellsSet l y y _ h, if_pos rfl]
      · rw [if_neg b, if_neg (by omega)]
    · have q : cellsGet (if m % 2 = 1 then cellsSet l a (BitVec.ofNat 8 v) else l) y = cellsGet l y := by
        split
        · rw [cellsGet_cellsSet l a y _ h, if_neg e]
        · rfl
      rw [q]
      by_cases f : a + 1 ≤ y ∧ y < a + 1 + n
      · rw [Nat.div_div_eq_div_mul, Nat.div_div_eq_div_mul, ← Nat.pow_succ', ← Nat.pow_succ', show (y - (a + 1)).succ = y - a by omega]
        by_cases b : m / 2 ^ (y - a) % 2 = 1
        · rw [if_pos ⟨f.1, f.2, b⟩, if_pos ⟨by omega, by omega, b⟩]
        · rw [if_neg (fun c => b c.2.2), if_neg (fun c => b c.2.2)]
      · rw [if_neg (fun c => f ⟨c.1, c.2.1⟩), if_neg (fun c => f ⟨by omega, by omega⟩)]

end Sys2Proof.Laws
end

