-- ==== Sys2Proof/Laws/State.lean ====
section
/-! SUPPORT. Each field of the state, and of a group, after each update: one lemma for each field and update, so that no later proof
unfolds a record update; and what the accessors answer after the updates of their own tables. -/

namespace Sys2Proof.Laws

set_option Elab.async false

open Sys2Proof.Machine

/-! ## Fields of the state that an update leaves -/

@[simp] theorem modCore_agenda (s : State) (c : Nat) (f : Core → Core) : (modCore s c f).agenda = s.agenda := rfl
@[simp] theorem modCore_focus (s : State) (c : Nat) (f : Core → Core) : (modCore s c f).focus = s.focus := rfl
@[simp] theorem modCore_bfocus (s : State) (c : Nat) (f : Core → Core) : (modCore s c f).bfocus = s.bfocus := rfl
@[simp] theorem modCore_free (s : State) (c : Nat) (f : Core → Core) : (modCore s c f).free = s.free := rfl
@[simp] theorem modCore_nextId (s : State) (c : Nat) (f : Core → Core) : (modCore s c f).nextId = s.nextId := rfl
@[simp] theorem modCore_time (s : State) (c : Nat) (f : Core → Core) : (modCore s c f).time = s.time := rfl
@[simp] theorem modCore_mem (s : State) (c : Nat) (f : Core → Core) : (modCore s c f).mem = s.mem := rfl
@[simp] theorem modCore_coh (s : State) (c : Nat) (f : Core → Core) : (modCore s c f).coh = s.coh := rfl
@[simp] theorem modCore_xl (s : State) (c : Nat) (f : Core → Core) : (modCore s c f).xl = s.xl := rfl
@[simp] theorem modCore_groups (s : State) (c : Nat) (f : Core → Core) : (modCore s c f).groups = s.groups := rfl
@[simp] theorem modCore_blocks (s : State) (c : Nat) (f : Core → Core) : (modCore s c f).blocks = s.blocks := rfl
@[simp] theorem modCore_clusters (s : State) (c : Nat) (f : Core → Core) : (modCore s c f).clusters = s.clusters := rfl
@[simp] theorem modCore_stackTbl (s : State) (c : Nat) (f : Core → Core) : (modCore s c f).stackTbl = s.stackTbl := rfl
@[simp] theorem modCore_bges (s : State) (c : Nat) (f : Core → Core) : (modCore s c f).bges = s.bges := rfl
@[simp] theorem modCore_fab (s : State) (c : Nat) (f : Core → Core) : (modCore s c f).fab = s.fab := rfl
@[simp] theorem modCore_esc (s : State) (c : Nat) (f : Core → Core) : (modCore s c f).esc = s.esc := rfl
@[simp] theorem modCore_mgmt (s : State) (c : Nat) (f : Core → Core) : (modCore s c f).mgmt = s.mgmt := rfl
@[simp] theorem modCore_fuses (s : State) (c : Nat) (f : Core → Core) : (modCore s c f).fuses = s.fuses := rfl
@[simp] theorem modCluster_agenda (s : State) (c : Nat) (f : Cluster → Cluster) : (modCluster s c f).agenda = s.agenda := rfl
@[simp] theorem modCluster_focus (s : State) (c : Nat) (f : Cluster → Cluster) : (modCluster s c f).focus = s.focus := rfl
@[simp] theorem modCluster_bfocus (s : State) (c : Nat) (f : Cluster → Cluster) : (modCluster s c f).bfocus = s.bfocus := rfl
@[simp] theorem modCluster_free (s : State) (c : Nat) (f : Cluster → Cluster) : (modCluster s c f).free = s.free := rfl
@[simp] theorem modCluster_nextId (s : State) (c : Nat) (f : Cluster → Cluster) : (modCluster s c f).nextId = s.nextId := rfl
@[simp] theorem modCluster_time (s : State) (c : Nat) (f : Cluster → Cluster) : (modCluster s c f).time = s.time := rfl
@[simp] theorem modCluster_mem (s : State) (c : Nat) (f : Cluster → Cluster) : (modCluster s c f).mem = s.mem := rfl
@[simp] theorem modCluster_coh (s : State) (c : Nat) (f : Cluster → Cluster) : (modCluster s c f).coh = s.coh := rfl
@[simp] theorem modCluster_xl (s : State) (c : Nat) (f : Cluster → Cluster) : (modCluster s c f).xl = s.xl := rfl
@[simp] theorem modCluster_cores (s : State) (c : Nat) (f : Cluster → Cluster) : (modCluster s c f).cores = s.cores := rfl
@[simp] theorem modCluster_groups (s : State) (c : Nat) (f : Cluster → Cluster) : (modCluster s c f).groups = s.groups := rfl
@[simp] theorem modCluster_blocks (s : State) (c : Nat) (f : Cluster → Cluster) : (modCluster s c f).blocks = s.blocks := rfl
@[simp] theorem modCluster_stackTbl (s : State) (c : Nat) (f : Cluster → Cluster) : (modCluster s c f).stackTbl = s.stackTbl := rfl
@[simp] theorem modCluster_bges (s : State) (c : Nat) (f : Cluster → Cluster) : (modCluster s c f).bges = s.bges := rfl
@[simp] theorem modCluster_fab (s : State) (c : Nat) (f : Cluster → Cluster) : (modCluster s c f).fab = s.fab := rfl
@[simp] theorem modCluster_esc (s : State) (c : Nat) (f : Cluster → Cluster) : (modCluster s c f).esc = s.esc := rfl
@[simp] theorem modCluster_mgmt (s : State) (c : Nat) (f : Cluster → Cluster) : (modCluster s c f).mgmt = s.mgmt := rfl
@[simp] theorem modCluster_fuses (s : State) (c : Nat) (f : Cluster → Cluster) : (modCluster s c f).fuses = s.fuses := rfl
@[simp] theorem setGroup_agenda (s : State) (g : Nat) (x : Group) : (setGroup s g x).agenda = s.agenda := rfl
@[simp] theorem setGroup_focus (s : State) (g : Nat) (x : Group) : (setGroup s g x).focus = s.focus := rfl
@[simp] theorem setGroup_bfocus (s : State) (g : Nat) (x : Group) : (setGroup s g x).bfocus = s.bfocus := rfl
@[simp] theorem setGroup_free (s : State) (g : Nat) (x : Group) : (setGroup s g x).free = s.free := rfl
@[simp] theorem setGroup_nextId (s : State) (g : Nat) (x : Group) : (setGroup s g x).nextId = s.nextId := rfl
@[simp] theorem setGroup_time (s : State) (g : Nat) (x : Group) : (setGroup s g x).time = s.time := rfl
@[simp] theorem setGroup_mem (s : State) (g : Nat) (x : Group) : (setGroup s g x).mem = s.mem := rfl
@[simp] theorem setGroup_coh (s : State) (g : Nat) (x : Group) : (setGroup s g x).coh = s.coh := rfl
@[simp] theorem setGroup_xl (s : State) (g : Nat) (x : Group) : (setGroup s g x).xl = s.xl := rfl
@[simp] theorem setGroup_cores (s : State) (g : Nat) (x : Group) : (setGroup s g x).cores = s.cores := rfl
@[simp] theorem setGroup_blocks (s : State) (g : Nat) (x : Group) : (setGroup s g x).blocks = s.blocks := rfl
@[simp] theorem setGroup_clusters (s : State) (g : Nat) (x : Group) : (setGroup s g x).clusters = s.clusters := rfl
@[simp] theorem setGroup_stackTbl (s : State) (g : Nat) (x : Group) : (setGroup s g x).stackTbl = s.stackTbl := rfl
@[simp] theorem setGroup_bges (s : State) (g : Nat) (x : Group) : (setGroup s g x).bges = s.bges := rfl
@[simp] theorem setGroup_fab (s : State) (g : Nat) (x : Group) : (setGroup s g x).fab = s.fab := rfl
@[simp] theorem setGroup_esc (s : State) (g : Nat) (x : Group) : (setGroup s g x).esc = s.esc := rfl
@[simp] theorem setGroup_mgmt (s : State) (g : Nat) (x : Group) : (setGroup s g x).mgmt = s.mgmt := rfl
@[simp] theorem setGroup_fuses (s : State) (g : Nat) (x : Group) : (setGroup s g x).fuses = s.fuses := rfl
@[simp] theorem modGroup_agenda (s : State) (g : Nat) (f : Group → Group) : (modGroup s g f).agenda = s.agenda := by unfold modGroup; split <;> rfl
@[simp] theorem modGroup_focus (s : State) (g : Nat) (f : Group → Group) : (modGroup s g f).focus = s.focus := by unfold modGroup; split <;> rfl
@[simp] theorem modGroup_bfocus (s : State) (g : Nat) (f : Group → Group) : (modGroup s g f).bfocus = s.bfocus := by unfold modGroup; split <;> rfl
@[simp] theorem modGroup_free (s : State) (g : Nat) (f : Group → Group) : (modGroup s g f).free = s.free := by unfold modGroup; split <;> rfl
@[simp] theorem modGroup_nextId (s : State) (g : Nat) (f : Group → Group) : (modGroup s g f).nextId = s.nextId := by unfold modGroup; split <;> rfl
@[simp] theorem modGroup_time (s : State) (g : Nat) (f : Group → Group) : (modGroup s g f).time = s.time := by unfold modGroup; split <;> rfl
@[simp] theorem modGroup_mem (s : State) (g : Nat) (f : Group → Group) : (modGroup s g f).mem = s.mem := by unfold modGroup; split <;> rfl
@[simp] theorem modGroup_coh (s : State) (g : Nat) (f : Group → Group) : (modGroup s g f).coh = s.coh := by unfold modGroup; split <;> rfl
@[simp] theorem modGroup_xl (s : State) (g : Nat) (f : Group → Group) : (modGroup s g f).xl = s.xl := by unfold modGroup; split <;> rfl
@[simp] theorem modGroup_cores (s : State) (g : Nat) (f : Group → Group) : (modGroup s g f).cores = s.cores := by unfold modGroup; split <;> rfl
@[simp] theorem modGroup_blocks (s : State) (g : Nat) (f : Group → Group) : (modGroup s g f).blocks = s.blocks := by unfold modGroup; split <;> rfl
@[simp] theorem modGroup_clusters (s : State) (g : Nat) (f : Group → Group) : (modGroup s g f).clusters = s.clusters := by unfold modGroup; split <;> rfl
@[simp] theorem modGroup_stackTbl (s : State) (g : Nat) (f : Group → Group) : (modGroup s g f).stackTbl = s.stackTbl := by unfold modGroup; split <;> rfl
@[simp] theorem modGroup_bges (s : State) (g : Nat) (f : Group → Group) : (modGroup s g f).bges = s.bges := by unfold modGroup; split <;> rfl
@[simp] theorem modGroup_fab (s : State) (g : Nat) (f : Group → Group) : (modGroup s g f).fab = s.fab := by unfold modGroup; split <;> rfl
@[simp] theorem modGroup_esc (s : State) (g : Nat) (f : Group → Group) : (modGroup s g f).esc = s.esc := by unfold modGroup; split <;> rfl
@[simp] theorem modGroup_mgmt (s : State) (g : Nat) (f : Group → Group) : (modGroup s g f).mgmt = s.mgmt := by unfold modGroup; split <;> rfl
@[simp] theorem modGroup_fuses (s : State) (g : Nat) (f : Group → Group) : (modGroup s g f).fuses = s.fuses := by unfold modGroup; split <;> rfl
@[simp] theorem modBlock_agenda (s : State) (b : Nat) (f : Block → Block) : (modBlock s b f).agenda = s.agenda := by unfold modBlock; split <;> rfl
@[simp] theorem modBlock_focus (s : State) (b : Nat) (f : Block → Block) : (modBlock s b f).focus = s.focus := by unfold modBlock; split <;> rfl
@[simp] theorem modBlock_bfocus (s : State) (b : Nat) (f : Block → Block) : (modBlock s b f).bfocus = s.bfocus := by unfold modBlock; split <;> rfl
@[simp] theorem modBlock_free (s : State) (b : Nat) (f : Block → Block) : (modBlock s b f).free = s.free := by unfold modBlock; split <;> rfl
@[simp] theorem modBlock_nextId (s : State) (b : Nat) (f : Block → Block) : (modBlock s b f).nextId = s.nextId := by unfold modBlock; split <;> rfl
@[simp] theorem modBlock_time (s : State) (b : Nat) (f : Block → Block) : (modBlock s b f).time = s.time := by unfold modBlock; split <;> rfl
@[simp] theorem modBlock_mem (s : State) (b : Nat) (f : Block → Block) : (modBlock s b f).mem = s.mem := by unfold modBlock; split <;> rfl
@[simp] theorem modBlock_coh (s : State) (b : Nat) (f : Block → Block) : (modBlock s b f).coh = s.coh := by unfold modBlock; split <;> rfl
@[simp] theorem modBlock_xl (s : State) (b : Nat) (f : Block → Block) : (modBlock s b f).xl = s.xl := by unfold modBlock; split <;> rfl
@[simp] theorem modBlock_cores (s : State) (b : Nat) (f : Block → Block) : (modBlock s b f).cores = s.cores := by unfold modBlock; split <;> rfl
@[simp] theorem modBlock_groups (s : State) (b : Nat) (f : Block → Block) : (modBlock s b f).groups = s.groups := by unfold modBlock; split <;> rfl
@[simp] theorem modBlock_clusters (s : State) (b : Nat) (f : Block → Block) : (modBlock s b f).clusters = s.clusters := by unfold modBlock; split <;> rfl
@[simp] theorem modBlock_stackTbl (s : State) (b : Nat) (f : Block → Block) : (modBlock s b f).stackTbl = s.stackTbl := by unfold modBlock; split <;> rfl
@[simp] theorem modBlock_bges (s : State) (b : Nat) (f : Block → Block) : (modBlock s b f).bges = s.bges := by unfold modBlock; split <;> rfl
@[simp] theorem modBlock_fab (s : State) (b : Nat) (f : Block → Block) : (modBlock s b f).fab = s.fab := by unfold modBlock; split <;> rfl
@[simp] theorem modBlock_esc (s : State) (b : Nat) (f : Block → Block) : (modBlock s b f).esc = s.esc := by unfold modBlock; split <;> rfl
@[simp] theorem modBlock_mgmt (s : State) (b : Nat) (f : Block → Block) : (modBlock s b f).mgmt = s.mgmt := by unfold modBlock; split <;> rfl
@[simp] theorem modBlock_fuses (s : State) (b : Nat) (f : Block → Block) : (modBlock s b f).fuses = s.fuses := by unfold modBlock; split <;> rfl
@[simp] theorem modStack_agenda (s : State) (k : Nat) (f : Stack → Stack) : (modStack s k f).agenda = s.agenda := rfl
@[simp] theorem modStack_focus (s : State) (k : Nat) (f : Stack → Stack) : (modStack s k f).focus = s.focus := rfl
@[simp] theorem modStack_bfocus (s : State) (k : Nat) (f : Stack → Stack) : (modStack s k f).bfocus = s.bfocus := rfl
@[simp] theorem modStack_free (s : State) (k : Nat) (f : Stack → Stack) : (modStack s k f).free = s.free := rfl
@[simp] theorem modStack_nextId (s : State) (k : Nat) (f : Stack → Stack) : (modStack s k f).nextId = s.nextId := rfl
@[simp] theorem modStack_time (s : State) (k : Nat) (f : Stack → Stack) : (modStack s k f).time = s.time := rfl
@[simp] theorem modStack_mem (s : State) (k : Nat) (f : Stack → Stack) : (modStack s k f).mem = s.mem := rfl
@[simp] theorem modStack_coh (s : State) (k : Nat) (f : Stack → Stack) : (modStack s k f).coh = s.coh := rfl
@[simp] theorem modStack_xl (s : State) (k : Nat) (f : Stack → Stack) : (modStack s k f).xl = s.xl := rfl
@[simp] theorem modStack_cores (s : State) (k : Nat) (f : Stack → Stack) : (modStack s k f).cores = s.cores := rfl
@[simp] theorem modStack_groups (s : State) (k : Nat) (f : Stack → Stack) : (modStack s k f).groups = s.groups := rfl
@[simp] theorem modStack_blocks (s : State) (k : Nat) (f : Stack → Stack) : (modStack s k f).blocks = s.blocks := rfl
@[simp] theorem modStack_clusters (s : State) (k : Nat) (f : Stack → Stack) : (modStack s k f).clusters = s.clusters := rfl
@[simp] theorem modStack_bges (s : State) (k : Nat) (f : Stack → Stack) : (modStack s k f).bges = s.bges := rfl
@[simp] theorem modStack_fab (s : State) (k : Nat) (f : Stack → Stack) : (modStack s k f).fab = s.fab := rfl
@[simp] theorem modStack_esc (s : State) (k : Nat) (f : Stack → Stack) : (modStack s k f).esc = s.esc := rfl
@[simp] theorem modStack_mgmt (s : State) (k : Nat) (f : Stack → Stack) : (modStack s k f).mgmt = s.mgmt := rfl
@[simp] theorem modStack_fuses (s : State) (k : Nat) (f : Stack → Stack) : (modStack s k f).fuses = s.fuses := rfl
@[simp] theorem modBge_agenda (s : State) (k : Nat) (f : Bge → Bge) : (modBge s k f).agenda = s.agenda := rfl
@[simp] theorem modBge_focus (s : State) (k : Nat) (f : Bge → Bge) : (modBge s k f).focus = s.focus := rfl
@[simp] theorem modBge_bfocus (s : State) (k : Nat) (f : Bge → Bge) : (modBge s k f).bfocus = s.bfocus := rfl
@[simp] theorem modBge_free (s : State) (k : Nat) (f : Bge → Bge) : (modBge s k f).free = s.free := rfl
@[simp] theorem modBge_nextId (s : State) (k : Nat) (f : Bge → Bge) : (modBge s k f).nextId = s.nextId := rfl
@[simp] theorem modBge_time (s : State) (k : Nat) (f : Bge → Bge) : (modBge s k f).time = s.time := rfl
@[simp] theorem modBge_mem (s : State) (k : Nat) (f : Bge → Bge) : (modBge s k f).mem = s.mem := rfl
@[simp] theorem modBge_coh (s : State) (k : Nat) (f : Bge → Bge) : (modBge s k f).coh = s.coh := rfl
@[simp] theorem modBge_xl (s : State) (k : Nat) (f : Bge → Bge) : (modBge s k f).xl = s.xl := rfl
@[simp] theorem modBge_cores (s : State) (k : Nat) (f : Bge → Bge) : (modBge s k f).cores = s.cores := rfl
@[simp] theorem modBge_groups (s : State) (k : Nat) (f : Bge → Bge) : (modBge s k f).groups = s.groups := rfl
@[simp] theorem modBge_blocks (s : State) (k : Nat) (f : Bge → Bge) : (modBge s k f).blocks = s.blocks := rfl
@[simp] theorem modBge_clusters (s : State) (k : Nat) (f : Bge → Bge) : (modBge s k f).clusters = s.clusters := rfl
@[simp] theorem modBge_stackTbl (s : State) (k : Nat) (f : Bge → Bge) : (modBge s k f).stackTbl = s.stackTbl := rfl
@[simp] theorem modBge_fab (s : State) (k : Nat) (f : Bge → Bge) : (modBge s k f).fab = s.fab := rfl
@[simp] theorem modBge_esc (s : State) (k : Nat) (f : Bge → Bge) : (modBge s k f).esc = s.esc := rfl
@[simp] theorem modBge_mgmt (s : State) (k : Nat) (f : Bge → Bge) : (modBge s k f).mgmt = s.mgmt := rfl
@[simp] theorem modBge_fuses (s : State) (k : Nat) (f : Bge → Bge) : (modBge s k f).fuses = s.fuses := rfl
@[simp] theorem raiseMsix_agenda (s : State) (v : Nat) : (raiseMsix s v).agenda = s.agenda := rfl
@[simp] theorem raiseMsix_focus (s : State) (v : Nat) : (raiseMsix s v).focus = s.focus := rfl
@[simp] theorem raiseMsix_bfocus (s : State) (v : Nat) : (raiseMsix s v).bfocus = s.bfocus := rfl
@[simp] theorem raiseMsix_free (s : State) (v : Nat) : (raiseMsix s v).free = s.free := rfl
@[simp] theorem raiseMsix_nextId (s : State) (v : Nat) : (raiseMsix s v).nextId = s.nextId := rfl
@[simp] theorem raiseMsix_time (s : State) (v : Nat) : (raiseMsix s v).time = s.time := rfl
@[simp] theorem raiseMsix_mem (s : State) (v : Nat) : (raiseMsix s v).mem = s.mem := rfl
@[simp] theorem raiseMsix_coh (s : State) (v : Nat) : (raiseMsix s v).coh = s.coh := rfl
@[simp] theorem raiseMsix_xl (s : State) (v : Nat) : (raiseMsix s v).xl = s.xl := rfl
@[simp] theorem raiseMsix_cores (s : State) (v : Nat) : (raiseMsix s v).cores = s.cores := rfl
@[simp] theorem raiseMsix_groups (s : State) (v : Nat) : (raiseMsix s v).groups = s.groups := rfl
@[simp] theorem raiseMsix_blocks (s : State) (v : Nat) : (raiseMsix s v).blocks = s.blocks := rfl
@[simp] theorem raiseMsix_clusters (s : State) (v : Nat) : (raiseMsix s v).clusters = s.clusters := rfl
@[simp] theorem raiseMsix_stackTbl (s : State) (v : Nat) : (raiseMsix s v).stackTbl = s.stackTbl := rfl
@[simp] theorem raiseMsix_bges (s : State) (v : Nat) : (raiseMsix s v).bges = s.bges := rfl
@[simp] theorem raiseMsix_fab (s : State) (v : Nat) : (raiseMsix s v).fab = s.fab := rfl
@[simp] theorem raiseMsix_esc (s : State) (v : Nat) : (raiseMsix s v).esc = s.esc := rfl
@[simp] theorem memMerge_agenda (s : State) (line : Nat) (m : LineMask) (d : Line) (p : BitVec 4) : (memMerge s line m d p).agenda = s.agenda := rfl
@[simp] theorem memMerge_focus (s : State) (line : Nat) (m : LineMask) (d : Line) (p : BitVec 4) : (memMerge s line m d p).focus = s.focus := rfl
@[simp] theorem memMerge_bfocus (s : State) (line : Nat) (m : LineMask) (d : Line) (p : BitVec 4) : (memMerge s line m d p).bfocus = s.bfocus := rfl
@[simp] theorem memMerge_free (s : State) (line : Nat) (m : LineMask) (d : Line) (p : BitVec 4) : (memMerge s line m d p).free = s.free := rfl
@[simp] theorem memMerge_nextId (s : State) (line : Nat) (m : LineMask) (d : Line) (p : BitVec 4) : (memMerge s line m d p).nextId = s.nextId := rfl
@[simp] theorem memMerge_time (s : State) (line : Nat) (m : LineMask) (d : Line) (p : BitVec 4) : (memMerge s line m d p).time = s.time := rfl
@[simp] theorem memMerge_coh (s : State) (line : Nat) (m : LineMask) (d : Line) (p : BitVec 4) : (memMerge s line m d p).coh = s.coh := rfl
@[simp] theorem memMerge_xl (s : State) (line : Nat) (m : LineMask) (d : Line) (p : BitVec 4) : (memMerge s line m d p).xl = s.xl := rfl
@[simp] theorem memMerge_cores (s : State) (line : Nat) (m : LineMask) (d : Line) (p : BitVec 4) : (memMerge s line m d p).cores = s.cores := rfl
@[simp] theorem memMerge_groups (s : State) (line : Nat) (m : LineMask) (d : Line) (p : BitVec 4) : (memMerge s line m d p).groups = s.groups := rfl
@[simp] theorem memMerge_blocks (s : State) (line : Nat) (m : LineMask) (d : Line) (p : BitVec 4) : (memMerge s line m d p).blocks = s.blocks := rfl
@[simp] theorem memMerge_clusters (s : State) (line : Nat) (m : LineMask) (d : Line) (p : BitVec 4) : (memMerge s line m d p).clusters = s.clusters := rfl
@[simp] theorem memMerge_stackTbl (s : State) (line : Nat) (m : LineMask) (d : Line) (p : BitVec 4) : (memMerge s line m d p).stackTbl = s.stackTbl := rfl
@[simp] theorem memMerge_bges (s : State) (line : Nat) (m : LineMask) (d : Line) (p : BitVec 4) : (memMerge s line m d p).bges = s.bges := rfl
@[simp] theorem memMerge_fab (s : State) (line : Nat) (m : LineMask) (d : Line) (p : BitVec 4) : (memMerge s line m d p).fab = s.fab := rfl
@[simp] theorem memMerge_esc (s : State) (line : Nat) (m : LineMask) (d : Line) (p : BitVec 4) : (memMerge s line m d p).esc = s.esc := rfl
@[simp] theorem memMerge_mgmt (s : State) (line : Nat) (m : LineMask) (d : Line) (p : BitVec 4) : (memMerge s line m d p).mgmt = s.mgmt := rfl
@[simp] theorem writeBack_agenda (s : State) (x : L1Line) : (writeBack s x).agenda = s.agenda := by unfold writeBack; split <;> rfl
@[simp] theorem writeBack_focus (s : State) (x : L1Line) : (writeBack s x).focus = s.focus := by unfold writeBack; split <;> rfl
@[simp] theorem writeBack_bfocus (s : State) (x : L1Line) : (writeBack s x).bfocus = s.bfocus := by unfold writeBack; split <;> rfl
@[simp] theorem writeBack_free (s : State) (x : L1Line) : (writeBack s x).free = s.free := by unfold writeBack; split <;> rfl
@[simp] theorem writeBack_nextId (s : State) (x : L1Line) : (writeBack s x).nextId = s.nextId := by unfold writeBack; split <;> rfl
@[simp] theorem writeBack_time (s : State) (x : L1Line) : (writeBack s x).time = s.time := by unfold writeBack; split <;> rfl
@[simp] theorem writeBack_coh (s : State) (x : L1Line) : (writeBack s x).coh = s.coh := by unfold writeBack; split <;> rfl
@[simp] theorem writeBack_xl (s : State) (x : L1Line) : (writeBack s x).xl = s.xl := by unfold writeBack; split <;> rfl
@[simp] theorem writeBack_cores (s : State) (x : L1Line) : (writeBack s x).cores = s.cores := by unfold writeBack; split <;> rfl
@[simp] theorem writeBack_groups (s : State) (x : L1Line) : (writeBack s x).groups = s.groups := by unfold writeBack; split <;> rfl
@[simp] theorem writeBack_blocks (s : State) (x : L1Line) : (writeBack s x).blocks = s.blocks := by unfold writeBack; split <;> rfl
@[simp] theorem writeBack_clusters (s : State) (x : L1Line) : (writeBack s x).clusters = s.clusters := by unfold writeBack; split <;> rfl
@[simp] theorem writeBack_stackTbl (s : State) (x : L1Line) : (writeBack s x).stackTbl = s.stackTbl := by unfold writeBack; split <;> rfl
@[simp] theorem writeBack_bges (s : State) (x : L1Line) : (writeBack s x).bges = s.bges := by unfold writeBack; split <;> rfl
@[simp] theorem writeBack_fab (s : State) (x : L1Line) : (writeBack s x).fab = s.fab := by unfold writeBack; split <;> rfl
@[simp] theorem writeBack_esc (s : State) (x : L1Line) : (writeBack s x).esc = s.esc := by unfold writeBack; split <;> rfl
@[simp] theorem writeBack_mgmt (s : State) (x : L1Line) : (writeBack s x).mgmt = s.mgmt := by unfold writeBack; split <;> rfl
@[simp] theorem modSpad_agenda (s : State) (c b : Nat) (f : Spad → Spad) : (modSpad s c b f).agenda = s.agenda := by unfold modSpad; split <;> rfl
@[simp] theorem modSpad_focus (s : State) (c b : Nat) (f : Spad → Spad) : (modSpad s c b f).focus = s.focus := by unfold modSpad; split <;> rfl
@[simp] theorem modSpad_bfocus (s : State) (c b : Nat) (f : Spad → Spad) : (modSpad s c b f).bfocus = s.bfocus := by unfold modSpad; split <;> rfl
@[simp] theorem modSpad_free (s : State) (c b : Nat) (f : Spad → Spad) : (modSpad s c b f).free = s.free := by unfold modSpad; split <;> rfl
@[simp] theorem modSpad_nextId (s : State) (c b : Nat) (f : Spad → Spad) : (modSpad s c b f).nextId = s.nextId := by unfold modSpad; split <;> rfl
@[simp] theorem modSpad_time (s : State) (c b : Nat) (f : Spad → Spad) : (modSpad s c b f).time = s.time := by unfold modSpad; split <;> rfl
@[simp] theorem modSpad_mem (s : State) (c b : Nat) (f : Spad → Spad) : (modSpad s c b f).mem = s.mem := by unfold modSpad; split <;> rfl
@[simp] theorem modSpad_coh (s : State) (c b : Nat) (f : Spad → Spad) : (modSpad s c b f).coh = s.coh := by unfold modSpad; split <;> rfl
@[simp] theorem modSpad_xl (s : State) (c b : Nat) (f : Spad → Spad) : (modSpad s c b f).xl = s.xl := by unfold modSpad; split <;> rfl
@[simp] theorem modSpad_groups (s : State) (c b : Nat) (f : Spad → Spad) : (modSpad s c b f).groups = s.groups := by unfold modSpad; split <;> rfl
@[simp] theorem modSpad_blocks (s : State) (c b : Nat) (f : Spad → Spad) : (modSpad s c b f).blocks = s.blocks := by unfold modSpad; split <;> rfl
@[simp] theorem modSpad_clusters (s : State) (c b : Nat) (f : Spad → Spad) : (modSpad s c b f).clusters = s.clusters := by unfold modSpad; split <;> rfl
@[simp] theorem modSpad_stackTbl (s : State) (c b : Nat) (f : Spad → Spad) : (modSpad s c b f).stackTbl = s.stackTbl := by unfold modSpad; split <;> rfl
@[simp] theorem modSpad_bges (s : State) (c b : Nat) (f : Spad → Spad) : (modSpad s c b f).bges = s.bges := by unfold modSpad; split <;> rfl
@[simp] theorem modSpad_fab (s : State) (c b : Nat) (f : Spad → Spad) : (modSpad s c b f).fab = s.fab := by unfold modSpad; split <;> rfl
@[simp] theorem modSpad_esc (s : State) (c b : Nat) (f : Spad → Spad) : (modSpad s c b f).esc = s.esc := by unfold modSpad; split <;> rfl
@[simp] theorem modSpad_mgmt (s : State) (c b : Nat) (f : Spad → Spad) : (modSpad s c b f).mgmt = s.mgmt := by unfold modSpad; split <;> rfl
@[simp] theorem modSpad_fuses (s : State) (c b : Nat) (f : Spad → Spad) : (modSpad s c b f).fuses = s.fuses := by unfold modSpad; split <;> rfl
@[simp] theorem modTx_agenda (s : State) (chip plane sn : Nat) (f : FabTx → FabTx) : (modTx s chip plane sn f).agenda = s.agenda := rfl
@[simp] theorem modTx_focus (s : State) (chip plane sn : Nat) (f : FabTx → FabTx) : (modTx s chip plane sn f).focus = s.focus := rfl
@[simp] theorem modTx_bfocus (s : State) (chip plane sn : Nat) (f : FabTx → FabTx) : (modTx s chip plane sn f).bfocus = s.bfocus := rfl
@[simp] theorem modTx_free (s : State) (chip plane sn : Nat) (f : FabTx → FabTx) : (modTx s chip plane sn f).free = s.free := rfl
@[simp] theorem modTx_nextId (s : State) (chip plane sn : Nat) (f : FabTx → FabTx) : (modTx s chip plane sn f).nextId = s.nextId := rfl
@[simp] theorem modTx_time (s : State) (chip plane sn : Nat) (f : FabTx → FabTx) : (modTx s chip plane sn f).time = s.time := rfl
@[simp] theorem modTx_mem (s : State) (chip plane sn : Nat) (f : FabTx → FabTx) : (modTx s chip plane sn f).mem = s.mem := rfl
@[simp] theorem modTx_coh (s : State) (chip plane sn : Nat) (f : FabTx → FabTx) : (modTx s chip plane sn f).coh = s.coh := rfl
@[simp] theorem modTx_xl (s : State) (chip plane sn : Nat) (f : FabTx → FabTx) : (modTx s chip plane sn f).xl = s.xl := rfl
@[simp] theorem modTx_cores (s : State) (chip plane sn : Nat) (f : FabTx → FabTx) : (modTx s chip plane sn f).cores = s.cores := rfl
@[simp] theorem modTx_groups (s : State) (chip plane sn : Nat) (f : FabTx → FabTx) : (modTx s chip plane sn f).groups = s.groups := rfl
@[simp] theorem modTx_blocks (s : State) (chip plane sn : Nat) (f : FabTx → FabTx) : (modTx s chip plane sn f).blocks = s.blocks := rfl
@[simp] theorem modTx_clusters (s : State) (chip plane sn : Nat) (f : FabTx → FabTx) : (modTx s chip plane sn f).clusters = s.clusters := rfl
@[simp] theorem modTx_stackTbl (s : State) (chip plane sn : Nat) (f : FabTx → FabTx) : (modTx s chip plane sn f).stackTbl = s.stackTbl := rfl
@[simp] theorem modTx_bges (s : State) (chip plane sn : Nat) (f : FabTx → FabTx) : (modTx s chip plane sn f).bges = s.bges := rfl
@[simp] theorem modTx_esc (s : State) (chip plane sn : Nat) (f : FabTx → FabTx) : (modTx s chip plane sn f).esc = s.esc := rfl
@[simp] theorem modTx_mgmt (s : State) (chip plane sn : Nat) (f : FabTx → FabTx) : (modTx s chip plane sn f).mgmt = s.mgmt := rfl
@[simp] theorem modTx_fuses (s : State) (chip plane sn : Nat) (f : FabTx → FabTx) : (modTx s chip plane sn f).fuses = s.fuses := rfl
@[simp] theorem freshId_agenda (s : State) : ((freshId s).2).agenda = s.agenda := rfl
@[simp] theorem freshId_focus (s : State) : ((freshId s).2).focus = s.focus := rfl
@[simp] theorem freshId_bfocus (s : State) : ((freshId s).2).bfocus = s.bfocus := rfl
@[simp] theorem freshId_free (s : State) : ((freshId s).2).free = s.free := rfl
@[simp] theorem freshId_time (s : State) : ((freshId s).2).time = s.time := rfl
@[simp] theorem freshId_mem (s : State) : ((freshId s).2).mem = s.mem := rfl
@[simp] theorem freshId_coh (s : State) : ((freshId s).2).coh = s.coh := rfl
@[simp] theorem freshId_xl (s : State) : ((freshId s).2).xl = s.xl := rfl
@[simp] theorem freshId_cores (s : State) : ((freshId s).2).cores = s.cores := rfl
@[simp] theorem freshId_groups (s : State) : ((freshId s).2).groups = s.groups := rfl
@[simp] theorem freshId_blocks (s : State) : ((freshId s).2).blocks = s.blocks := rfl
@[simp] theorem freshId_clusters (s : State) : ((freshId s).2).clusters = s.clusters := rfl
@[simp] theorem freshId_stackTbl (s : State) : ((freshId s).2).stackTbl = s.stackTbl := rfl
@[simp] theorem freshId_bges (s : State) : ((freshId s).2).bges = s.bges := rfl
@[simp] theorem freshId_fab (s : State) : ((freshId s).2).fab = s.fab := rfl
@[simp] theorem freshId_esc (s : State) : ((freshId s).2).esc = s.esc := rfl
@[simp] theorem freshId_mgmt (s : State) : ((freshId s).2).mgmt = s.mgmt := rfl
@[simp] theorem drawFree_agenda (s : State) : ((drawFree s).2).agenda = s.agenda := rfl
@[simp] theorem drawFree_focus (s : State) : ((drawFree s).2).focus = s.focus := rfl
@[simp] theorem drawFree_bfocus (s : State) : ((drawFree s).2).bfocus = s.bfocus := rfl
@[simp] theorem drawFree_nextId (s : State) : ((drawFree s).2).nextId = s.nextId := rfl
@[simp] theorem drawFree_time (s : State) : ((drawFree s).2).time = s.time := rfl
@[simp] theorem drawFree_mem (s : State) : ((drawFree s).2).mem = s.mem := rfl
@[simp] theorem drawFree_coh (s : State) : ((drawFree s).2).coh = s.coh := rfl
@[simp] theorem drawFree_xl (s : State) : ((drawFree s).2).xl = s.xl := rfl
@[simp] theorem drawFree_cores (s : State) : ((drawFree s).2).cores = s.cores := rfl
@[simp] theorem drawFree_groups (s : State) : ((drawFree s).2).groups = s.groups := rfl
@[simp] theorem drawFree_blocks (s : State) : ((drawFree s).2).blocks = s.blocks := rfl
@[simp] theorem drawFree_clusters (s : State) : ((drawFree s).2).clusters = s.clusters := rfl
@[simp] theorem drawFree_stackTbl (s : State) : ((drawFree s).2).stackTbl = s.stackTbl := rfl
@[simp] theorem drawFree_bges (s : State) : ((drawFree s).2).bges = s.bges := rfl
@[simp] theorem drawFree_fab (s : State) : ((drawFree s).2).fab = s.fab := rfl
@[simp] theorem drawFree_esc (s : State) : ((drawFree s).2).esc = s.esc := rfl
@[simp] theorem drawFree_mgmt (s : State) : ((drawFree s).2).mgmt = s.mgmt := rfl

/-! ## Fields of a group that an update leaves -/

@[simp] theorem setFibre_block (g : Group) (l : Nat) (f : Fibre) : (setFibre g l f).block = g.block := rfl
@[simp] theorem setFibre_index (g : Group) (l : Nat) (f : Fibre) : (setFibre g l f).index = g.index := rfl
@[simp] theorem setFibre_wcode (g : Group) (l : Nat) (f : Fibre) : (setFibre g l f).wcode = g.wcode := rfl
@[simp] theorem setFibre_depth (g : Group) (l : Nat) (f : Fibre) : (setFibre g l f).depth = g.depth := rfl
@[simp] theorem setFibre_core (g : Group) (l : Nat) (f : Fibre) : (setFibre g l f).core = g.core := rfl
@[simp] theorem setFibre_gid (g : Group) (l : Nat) (f : Fibre) : (setFibre g l f).gid = g.gid := rfl
@[simp] theorem setFibre_lane0 (g : Group) (l : Nat) (f : Fibre) : (setFibre g l f).lane0 = g.lane0 := rfl
@[simp] theorem setFibre_fused (g : Group) (l : Nat) (f : Fibre) : (setFibre g l f).fused = g.fused := rfl
@[simp] theorem setFibre_producer (g : Group) (l : Nat) (f : Fibre) : (setFibre g l f).producer = g.producer := rfl
@[simp] theorem setFibre_sregs (g : Group) (l : Nat) (f : Fibre) : (setFibre g l f).sregs = g.sregs := rfl
@[simp] theorem setFibre_paths (g : Group) (l : Nat) (f : Fibre) : (setFibre g l f).paths = g.paths := rfl
@[simp] theorem setFibre_tdepth (g : Group) (l : Nat) (f : Fibre) : (setFibre g l f).tdepth = g.tdepth := rfl
@[simp] theorem setFibre_tvec (g : Group) (l : Nat) (f : Fibre) : (setFibre g l f).tvec = g.tvec := rfl
@[simp] theorem setFibre_lcause (g : Group) (l : Nat) (f : Fibre) : (setFibre g l f).lcause = g.lcause := rfl
@[simp] theorem setFibre_imp (g : Group) (l : Nat) (f : Fibre) : (setFibre g l f).imp = g.imp := rfl
@[simp] theorem setFibre_monitor (g : Group) (l : Nat) (f : Fibre) : (setFibre g l f).monitor = g.monitor := rfl
@[simp] theorem setFibre_words (g : Group) (l : Nat) (f : Fibre) : (setFibre g l f).words = g.words := rfl
@[simp] theorem setFibre_barPhase (g : Group) (l : Nat) (f : Fibre) : (setFibre g l f).barPhase = g.barPhase := rfl
@[simp] theorem setFibre_pend (g : Group) (l : Nat) (f : Fibre) : (setFibre g l f).pend = g.pend := rfl
@[simp] theorem setFibre_lastIssue (g : Group) (l : Nat) (f : Fibre) : (setFibre g l f).lastIssue = g.lastIssue := rfl
@[simp] theorem setFibre_stopReq (g : Group) (l : Nat) (f : Fibre) : (setFibre g l f).stopReq = g.stopReq := rfl
@[simp] theorem setFibre_replays (g : Group) (l : Nat) (f : Fibre) : (setFibre g l f).replays = g.replays := rfl
@[simp] theorem setFibre_bgwaits (g : Group) (l : Nat) (f : Fibre) : (setFibre g l f).bgwaits = g.bgwaits := rfl
@[simp] theorem setFibre_frame0 (g : Group) (l : Nat) (f : Fibre) : (setFibre g l f).frame0 = g.frame0 := rfl
@[simp] theorem setFibre_frame1 (g : Group) (l : Nat) (f : Fibre) : (setFibre g l f).frame1 = g.frame1 := rfl
@[simp] theorem setFibre_frameOut (g : Group) (l : Nat) (f : Fibre) : (setFibre g l f).frameOut = g.frameOut := rfl
@[simp] theorem setFibre_atEntry (g : Group) (l : Nat) (f : Fibre) : (setFibre g l f).atEntry = g.atEntry := rfl
@[simp] theorem setFibre_held (g : Group) (l : Nat) (f : Fibre) : (setFibre g l f).held = g.held := rfl
@[simp] theorem modFibre_block (g : Group) (l : Nat) (f : Fibre → Fibre) : (modFibre g l f).block = g.block := rfl
@[simp] theorem modFibre_index (g : Group) (l : Nat) (f : Fibre → Fibre) : (modFibre g l f).index = g.index := rfl
@[simp] theorem modFibre_wcode (g : Group) (l : Nat) (f : Fibre → Fibre) : (modFibre g l f).wcode = g.wcode := rfl
@[simp] theorem modFibre_depth (g : Group) (l : Nat) (f : Fibre → Fibre) : (modFibre g l f).depth = g.depth := rfl
@[simp] theorem modFibre_core (g : Group) (l : Nat) (f : Fibre → Fibre) : (modFibre g l f).core = g.core := rfl
@[simp] theorem modFibre_gid (g : Group) (l : Nat) (f : Fibre → Fibre) : (modFibre g l f).gid = g.gid := rfl
@[simp] theorem modFibre_lane0 (g : Group) (l : Nat) (f : Fibre → Fibre) : (modFibre g l f).lane0 = g.lane0 := rfl
@[simp] theorem modFibre_fused (g : Group) (l : Nat) (f : Fibre → Fibre) : (modFibre g l f).fused = g.fused := rfl
@[simp] theorem modFibre_producer (g : Group) (l : Nat) (f : Fibre → Fibre) : (modFibre g l f).producer = g.producer := rfl
@[simp] theorem modFibre_sregs (g : Group) (l : Nat) (f : Fibre → Fibre) : (modFibre g l f).sregs = g.sregs := rfl
@[simp] theorem modFibre_paths (g : Group) (l : Nat) (f : Fibre → Fibre) : (modFibre g l f).paths = g.paths := rfl
@[simp] theorem modFibre_tdepth (g : Group) (l : Nat) (f : Fibre → Fibre) : (modFibre g l f).tdepth = g.tdepth := rfl
@[simp] theorem modFibre_tvec (g : Group) (l : Nat) (f : Fibre → Fibre) : (modFibre g l f).tvec = g.tvec := rfl
@[simp] theorem modFibre_lcause (g : Group) (l : Nat) (f : Fibre → Fibre) : (modFibre g l f).lcause = g.lcause := rfl
@[simp] theorem modFibre_imp (g : Group) (l : Nat) (f : Fibre → Fibre) : (modFibre g l f).imp = g.imp := rfl
@[simp] theorem modFibre_monitor (g : Group) (l : Nat) (f : Fibre → Fibre) : (modFibre g l f).monitor = g.monitor := rfl
@[simp] theorem modFibre_words (g : Group) (l : Nat) (f : Fibre → Fibre) : (modFibre g l f).words = g.words := rfl
@[simp] theorem modFibre_barPhase (g : Group) (l : Nat) (f : Fibre → Fibre) : (modFibre g l f).barPhase = g.barPhase := rfl
@[simp] theorem modFibre_pend (g : Group) (l : Nat) (f : Fibre → Fibre) : (modFibre g l f).pend = g.pend := rfl
@[simp] theorem modFibre_lastIssue (g : Group) (l : Nat) (f : Fibre → Fibre) : (modFibre g l f).lastIssue = g.lastIssue := rfl
@[simp] theorem modFibre_stopReq (g : Group) (l : Nat) (f : Fibre → Fibre) : (modFibre g l f).stopReq = g.stopReq := rfl
@[simp] theorem modFibre_replays (g : Group) (l : Nat) (f : Fibre → Fibre) : (modFibre g l f).replays = g.replays := rfl
@[simp] theorem modFibre_bgwaits (g : Group) (l : Nat) (f : Fibre → Fibre) : (modFibre g l f).bgwaits = g.bgwaits := rfl
@[simp] theorem modFibre_frame0 (g : Group) (l : Nat) (f : Fibre → Fibre) : (modFibre g l f).frame0 = g.frame0 := rfl
@[simp] theorem modFibre_frame1 (g : Group) (l : Nat) (f : Fibre → Fibre) : (modFibre g l f).frame1 = g.frame1 := rfl
@[simp] theorem modFibre_frameOut (g : Group) (l : Nat) (f : Fibre → Fibre) : (modFibre g l f).frameOut = g.frameOut := rfl
@[simp] theorem modFibre_atEntry (g : Group) (l : Nat) (f : Fibre → Fibre) : (modFibre g l f).atEntry = g.atEntry := rfl
@[simp] theorem modFibre_held (g : Group) (l : Nat) (f : Fibre → Fibre) : (modFibre g l f).held = g.held := rfl
@[simp] theorem sSet_block (g : Group) (r : Nat) (v : W64) : (sSet g r v).block = g.block := rfl
@[simp] theorem sSet_index (g : Group) (r : Nat) (v : W64) : (sSet g r v).index = g.index := rfl
@[simp] theorem sSet_wcode (g : Group) (r : Nat) (v : W64) : (sSet g r v).wcode = g.wcode := rfl
@[simp] theorem sSet_depth (g : Group) (r : Nat) (v : W64) : (sSet g r v).depth = g.depth := rfl
@[simp] theorem sSet_core (g : Group) (r : Nat) (v : W64) : (sSet g r v).core = g.core := rfl
@[simp] theorem sSet_gid (g : Group) (r : Nat) (v : W64) : (sSet g r v).gid = g.gid := rfl
@[simp] theorem sSet_lane0 (g : Group) (r : Nat) (v : W64) : (sSet g r v).lane0 = g.lane0 := rfl
@[simp] theorem sSet_fused (g : Group) (r : Nat) (v : W64) : (sSet g r v).fused = g.fused := rfl
@[simp] theorem sSet_producer (g : Group) (r : Nat) (v : W64) : (sSet g r v).producer = g.producer := rfl
@[simp] theorem sSet_lanes (g : Group) (r : Nat) (v : W64) : (sSet g r v).lanes = g.lanes := rfl
@[simp] theorem sSet_paths (g : Group) (r : Nat) (v : W64) : (sSet g r v).paths = g.paths := rfl
@[simp] theorem sSet_tdepth (g : Group) (r : Nat) (v : W64) : (sSet g r v).tdepth = g.tdepth := rfl
@[simp] theorem sSet_tvec (g : Group) (r : Nat) (v : W64) : (sSet g r v).tvec = g.tvec := rfl
@[simp] theorem sSet_lcause (g : Group) (r : Nat) (v : W64) : (sSet g r v).lcause = g.lcause := rfl
@[simp] theorem sSet_imp (g : Group) (r : Nat) (v : W64) : (sSet g r v).imp = g.imp := rfl
@[simp] theorem sSet_monitor (g : Group) (r : Nat) (v : W64) : (sSet g r v).monitor = g.monitor := rfl
@[simp] theorem sSet_words (g : Group) (r : Nat) (v : W64) : (sSet g r v).words = g.words := rfl
@[simp] theorem sSet_barPhase (g : Group) (r : Nat) (v : W64) : (sSet g r v).barPhase = g.barPhase := rfl
@[simp] theorem sSet_pend (g : Group) (r : Nat) (v : W64) : (sSet g r v).pend = g.pend := rfl
@[simp] theorem sSet_lastIssue (g : Group) (r : Nat) (v : W64) : (sSet g r v).lastIssue = g.lastIssue := rfl
@[simp] theorem sSet_stopReq (g : Group) (r : Nat) (v : W64) : (sSet g r v).stopReq = g.stopReq := rfl
@[simp] theorem sSet_replays (g : Group) (r : Nat) (v : W64) : (sSet g r v).replays = g.replays := rfl
@[simp] theorem sSet_bgwaits (g : Group) (r : Nat) (v : W64) : (sSet g r v).bgwaits = g.bgwaits := rfl
@[simp] theorem sSet_frame0 (g : Group) (r : Nat) (v : W64) : (sSet g r v).frame0 = g.frame0 := rfl
@[simp] theorem sSet_frame1 (g : Group) (r : Nat) (v : W64) : (sSet g r v).frame1 = g.frame1 := rfl
@[simp] theorem sSet_frameOut (g : Group) (r : Nat) (v : W64) : (sSet g r v).frameOut = g.frameOut := rfl
@[simp] theorem sSet_atEntry (g : Group) (r : Nat) (v : W64) : (sSet g r v).atEntry = g.atEntry := rfl
@[simp] theorem sSet_held (g : Group) (r : Nat) (v : W64) : (sSet g r v).held = g.held := rfl
@[simp] theorem vSet_block (g : Group) (l r : Nat) (v : W64) : (vSet g l r v).block = g.block := rfl
@[simp] theorem vSet_index (g : Group) (l r : Nat) (v : W64) : (vSet g l r v).index = g.index := rfl
@[simp] theorem vSet_wcode (g : Group) (l r : Nat) (v : W64) : (vSet g l r v).wcode = g.wcode := rfl
@[simp] theorem vSet_depth (g : Group) (l r : Nat) (v : W64) : (vSet g l r v).depth = g.depth := rfl
@[simp] theorem vSet_core (g : Group) (l r : Nat) (v : W64) : (vSet g l r v).core = g.core := rfl
@[simp] theorem vSet_gid (g : Group) (l r : Nat) (v : W64) : (vSet g l r v).gid = g.gid := rfl
@[simp] theorem vSet_lane0 (g : Group) (l r : Nat) (v : W64) : (vSet g l r v).lane0 = g.lane0 := rfl
@[simp] theorem vSet_fused (g : Group) (l r : Nat) (v : W64) : (vSet g l r v).fused = g.fused := rfl
@[simp] theorem vSet_producer (g : Group) (l r : Nat) (v : W64) : (vSet g l r v).producer = g.producer := rfl
@[simp] theorem vSet_sregs (g : Group) (l r : Nat) (v : W64) : (vSet g l r v).sregs = g.sregs := rfl
@[simp] theorem vSet_paths (g : Group) (l r : Nat) (v : W64) : (vSet g l r v).paths = g.paths := rfl
@[simp] theorem vSet_tdepth (g : Group) (l r : Nat) (v : W64) : (vSet g l r v).tdepth = g.tdepth := rfl
@[simp] theorem vSet_tvec (g : Group) (l r : Nat) (v : W64) : (vSet g l r v).tvec = g.tvec := rfl
@[simp] theorem vSet_lcause (g : Group) (l r : Nat) (v : W64) : (vSet g l r v).lcause = g.lcause := rfl
@[simp] theorem vSet_imp (g : Group) (l r : Nat) (v : W64) : (vSet g l r v).imp = g.imp := rfl
@[simp] theorem vSet_monitor (g : Group) (l r : Nat) (v : W64) : (vSet g l r v).monitor = g.monitor := rfl
@[simp] theorem vSet_words (g : Group) (l r : Nat) (v : W64) : (vSet g l r v).words = g.words := rfl
@[simp] theorem vSet_barPhase (g : Group) (l r : Nat) (v : W64) : (vSet g l r v).barPhase = g.barPhase := rfl
@[simp] theorem vSet_pend (g : Group) (l r : Nat) (v : W64) : (vSet g l r v).pend = g.pend := rfl
@[simp] theorem vSet_lastIssue (g : Group) (l r : Nat) (v : W64) : (vSet g l r v).lastIssue = g.lastIssue := rfl
@[simp] theorem vSet_stopReq (g : Group) (l r : Nat) (v : W64) : (vSet g l r v).stopReq = g.stopReq := rfl
@[simp] theorem vSet_replays (g : Group) (l r : Nat) (v : W64) : (vSet g l r v).replays = g.replays := rfl
@[simp] theorem vSet_bgwaits (g : Group) (l r : Nat) (v : W64) : (vSet g l r v).bgwaits = g.bgwaits := rfl
@[simp] theorem vSet_frame0 (g : Group) (l r : Nat) (v : W64) : (vSet g l r v).frame0 = g.frame0 := rfl
@[simp] theorem vSet_frame1 (g : Group) (l r : Nat) (v : W64) : (vSet g l r v).frame1 = g.frame1 := rfl
@[simp] theorem vSet_frameOut (g : Group) (l r : Nat) (v : W64) : (vSet g l r v).frameOut = g.frameOut := rfl
@[simp] theorem vSet_atEntry (g : Group) (l r : Nat) (v : W64) : (vSet g l r v).atEntry = g.atEntry := rfl
@[simp] theorem vSet_held (g : Group) (l r : Nat) (v : W64) : (vSet g l r v).held = g.held := rfl
@[simp] theorem predSet_block (g : Group) (l k : Nat) (b : Byte) : (predSet g l k b).block = g.block := rfl
@[simp] theorem predSet_index (g : Group) (l k : Nat) (b : Byte) : (predSet g l k b).index = g.index := rfl
@[simp] theorem predSet_wcode (g : Group) (l k : Nat) (b : Byte) : (predSet g l k b).wcode = g.wcode := rfl
@[simp] theorem predSet_depth (g : Group) (l k : Nat) (b : Byte) : (predSet g l k b).depth = g.depth := rfl
@[simp] theorem predSet_core (g : Group) (l k : Nat) (b : Byte) : (predSet g l k b).core = g.core := rfl
@[simp] theorem predSet_gid (g : Group) (l k : Nat) (b : Byte) : (predSet g l k b).gid = g.gid := rfl
@[simp] theorem predSet_lane0 (g : Group) (l k : Nat) (b : Byte) : (predSet g l k b).lane0 = g.lane0 := rfl
@[simp] theorem predSet_fused (g : Group) (l k : Nat) (b : Byte) : (predSet g l k b).fused = g.fused := rfl
@[simp] theorem predSet_producer (g : Group) (l k : Nat) (b : Byte) : (predSet g l k b).producer = g.producer := rfl
@[simp] theorem predSet_sregs (g : Group) (l k : Nat) (b : Byte) : (predSet g l k b).sregs = g.sregs := rfl
@[simp] theorem predSet_paths (g : Group) (l k : Nat) (b : Byte) : (predSet g l k b).paths = g.paths := rfl
@[simp] theorem predSet_tdepth (g : Group) (l k : Nat) (b : Byte) : (predSet g l k b).tdepth = g.tdepth := rfl
@[simp] theorem predSet_tvec (g : Group) (l k : Nat) (b : Byte) : (predSet g l k b).tvec = g.tvec := rfl
@[simp] theorem predSet_lcause (g : Group) (l k : Nat) (b : Byte) : (predSet g l k b).lcause = g.lcause := rfl
@[simp] theorem predSet_imp (g : Group) (l k : Nat) (b : Byte) : (predSet g l k b).imp = g.imp := rfl
@[simp] theorem predSet_monitor (g : Group) (l k : Nat) (b : Byte) : (predSet g l k b).monitor = g.monitor := rfl
@[simp] theorem predSet_words (g : Group) (l k : Nat) (b : Byte) : (predSet g l k b).words = g.words := rfl
@[simp] theorem predSet_barPhase (g : Group) (l k : Nat) (b : Byte) : (predSet g l k b).barPhase = g.barPhase := rfl
@[simp] theorem predSet_pend (g : Group) (l k : Nat) (b : Byte) : (predSet g l k b).pend = g.pend := rfl
@[simp] theorem predSet_lastIssue (g : Group) (l k : Nat) (b : Byte) : (predSet g l k b).lastIssue = g.lastIssue := rfl
@[simp] theorem predSet_stopReq (g : Group) (l k : Nat) (b : Byte) : (predSet g l k b).stopReq = g.stopReq := rfl
@[simp] theorem predSet_replays (g : Group) (l k : Nat) (b : Byte) : (predSet g l k b).replays = g.replays := rfl
@[simp] theorem predSet_bgwaits (g : Group) (l k : Nat) (b : Byte) : (predSet g l k b).bgwaits = g.bgwaits := rfl
@[simp] theorem predSet_frame0 (g : Group) (l k : Nat) (b : Byte) : (predSet g l k b).frame0 = g.frame0 := rfl
@[simp] theorem predSet_frame1 (g : Group) (l k : Nat) (b : Byte) : (predSet g l k b).frame1 = g.frame1 := rfl
@[simp] theorem predSet_frameOut (g : Group) (l k : Nat) (b : Byte) : (predSet g l k b).frameOut = g.frameOut := rfl
@[simp] theorem predSet_atEntry (g : Group) (l k : Nat) (b : Byte) : (predSet g l k b).atEntry = g.atEntry := rfl
@[simp] theorem predSet_held (g : Group) (l k : Nat) (b : Byte) : (predSet g l k b).held = g.held := rfl
@[simp] theorem modPath_block (g : Group) (l : Nat) (f : Path → Path) : (modPath g l f).block = g.block := rfl
@[simp] theorem modPath_index (g : Group) (l : Nat) (f : Path → Path) : (modPath g l f).index = g.index := rfl
@[simp] theorem modPath_wcode (g : Group) (l : Nat) (f : Path → Path) : (modPath g l f).wcode = g.wcode := rfl
@[simp] theorem modPath_depth (g : Group) (l : Nat) (f : Path → Path) : (modPath g l f).depth = g.depth := rfl
@[simp] theorem modPath_core (g : Group) (l : Nat) (f : Path → Path) : (modPath g l f).core = g.core := rfl
@[simp] theorem modPath_gid (g : Group) (l : Nat) (f : Path → Path) : (modPath g l f).gid = g.gid := rfl
@[simp] theorem modPath_lane0 (g : Group) (l : Nat) (f : Path → Path) : (modPath g l f).lane0 = g.lane0 := rfl
@[simp] theorem modPath_fused (g : Group) (l : Nat) (f : Path → Path) : (modPath g l f).fused = g.fused := rfl
@[simp] theorem modPath_producer (g : Group) (l : Nat) (f : Path → Path) : (modPath g l f).producer = g.producer := rfl
@[simp] theorem modPath_lanes (g : Group) (l : Nat) (f : Path → Path) : (modPath g l f).lanes = g.lanes := rfl
@[simp] theorem modPath_sregs (g : Group) (l : Nat) (f : Path → Path) : (modPath g l f).sregs = g.sregs := rfl
@[simp] theorem modPath_tdepth (g : Group) (l : Nat) (f : Path → Path) : (modPath g l f).tdepth = g.tdepth := rfl
@[simp] theorem modPath_tvec (g : Group) (l : Nat) (f : Path → Path) : (modPath g l f).tvec = g.tvec := rfl
@[simp] theorem modPath_lcause (g : Group) (l : Nat) (f : Path → Path) : (modPath g l f).lcause = g.lcause := rfl
@[simp] theorem modPath_imp (g : Group) (l : Nat) (f : Path → Path) : (modPath g l f).imp = g.imp := rfl
@[simp] theorem modPath_monitor (g : Group) (l : Nat) (f : Path → Path) : (modPath g l f).monitor = g.monitor := rfl
@[simp] theorem modPath_words (g : Group) (l : Nat) (f : Path → Path) : (modPath g l f).words = g.words := rfl
@[simp] theorem modPath_barPhase (g : Group) (l : Nat) (f : Path → Path) : (modPath g l f).barPhase = g.barPhase := rfl
@[simp] theorem modPath_pend (g : Group) (l : Nat) (f : Path → Path) : (modPath g l f).pend = g.pend := rfl
@[simp] theorem modPath_lastIssue (g : Group) (l : Nat) (f : Path → Path) : (modPath g l f).lastIssue = g.lastIssue := rfl
@[simp] theorem modPath_stopReq (g : Group) (l : Nat) (f : Path → Path) : (modPath g l f).stopReq = g.stopReq := rfl
@[simp] theorem modPath_replays (g : Group) (l : Nat) (f : Path → Path) : (modPath g l f).replays = g.replays := rfl
@[simp] theorem modPath_bgwaits (g : Group) (l : Nat) (f : Path → Path) : (modPath g l f).bgwaits = g.bgwaits := rfl
@[simp] theorem modPath_frame0 (g : Group) (l : Nat) (f : Path → Path) : (modPath g l f).frame0 = g.frame0 := rfl
@[simp] theorem modPath_frame1 (g : Group) (l : Nat) (f : Path → Path) : (modPath g l f).frame1 = g.frame1 := rfl
@[simp] theorem modPath_frameOut (g : Group) (l : Nat) (f : Path → Path) : (modPath g l f).frameOut = g.frameOut := rfl
@[simp] theorem modPath_atEntry (g : Group) (l : Nat) (f : Path → Path) : (modPath g l f).atEntry = g.atEntry := rfl
@[simp] theorem modPath_held (g : Group) (l : Nat) (f : Path → Path) : (modPath g l f).held = g.held := rfl
@[simp] theorem flagsAdd_block (g : Group) (l : Nat) (fl : Flags) : (flagsAdd g l fl).block = g.block := by unfold flagsAdd; split <;> rfl
@[simp] theorem flagsAdd_index (g : Group) (l : Nat) (fl : Flags) : (flagsAdd g l fl).index = g.index := by unfold flagsAdd; split <;> rfl
@[simp] theorem flagsAdd_wcode (g : Group) (l : Nat) (fl : Flags) : (flagsAdd g l fl).wcode = g.wcode := by unfold flagsAdd; split <;> rfl
@[simp] theorem flagsAdd_depth (g : Group) (l : Nat) (fl : Flags) : (flagsAdd g l fl).depth = g.depth := by unfold flagsAdd; split <;> rfl
@[simp] theorem flagsAdd_core (g : Group) (l : Nat) (fl : Flags) : (flagsAdd g l fl).core = g.core := by unfold flagsAdd; split <;> rfl
@[simp] theorem flagsAdd_gid (g : Group) (l : Nat) (fl : Flags) : (flagsAdd g l fl).gid = g.gid := by unfold flagsAdd; split <;> rfl
@[simp] theorem flagsAdd_lane0 (g : Group) (l : Nat) (fl : Flags) : (flagsAdd g l fl).lane0 = g.lane0 := by unfold flagsAdd; split <;> rfl
@[simp] theorem flagsAdd_fused (g : Group) (l : Nat) (fl : Flags) : (flagsAdd g l fl).fused = g.fused := by unfold flagsAdd; split <;> rfl
@[simp] theorem flagsAdd_producer (g : Group) (l : Nat) (fl : Flags) : (flagsAdd g l fl).producer = g.producer := by unfold flagsAdd; split <;> rfl
@[simp] theorem flagsAdd_sregs (g : Group) (l : Nat) (fl : Flags) : (flagsAdd g l fl).sregs = g.sregs := by unfold flagsAdd; split <;> rfl
@[simp] theorem flagsAdd_paths (g : Group) (l : Nat) (fl : Flags) : (flagsAdd g l fl).paths = g.paths := by unfold flagsAdd; split <;> rfl
@[simp] theorem flagsAdd_tdepth (g : Group) (l : Nat) (fl : Flags) : (flagsAdd g l fl).tdepth = g.tdepth := by unfold flagsAdd; split <;> rfl
@[simp] theorem flagsAdd_tvec (g : Group) (l : Nat) (fl : Flags) : (flagsAdd g l fl).tvec = g.tvec := by unfold flagsAdd; split <;> rfl
@[simp] theorem flagsAdd_lcause (g : Group) (l : Nat) (fl : Flags) : (flagsAdd g l fl).lcause = g.lcause := by unfold flagsAdd; split <;> rfl
@[simp] theorem flagsAdd_imp (g : Group) (l : Nat) (fl : Flags) : (flagsAdd g l fl).imp = g.imp := by unfold flagsAdd; split <;> rfl
@[simp] theorem flagsAdd_monitor (g : Group) (l : Nat) (fl : Flags) : (flagsAdd g l fl).monitor = g.monitor := by unfold flagsAdd; split <;> rfl
@[simp] theorem flagsAdd_words (g : Group) (l : Nat) (fl : Flags) : (flagsAdd g l fl).words = g.words := by unfold flagsAdd; split <;> rfl
@[simp] theorem flagsAdd_barPhase (g : Group) (l : Nat) (fl : Flags) : (flagsAdd g l fl).barPhase = g.barPhase := by unfold flagsAdd; split <;> rfl
@[simp] theorem flagsAdd_pend (g : Group) (l : Nat) (fl : Flags) : (flagsAdd g l fl).pend = g.pend := by unfold flagsAdd; split <;> rfl
@[simp] theorem flagsAdd_lastIssue (g : Group) (l : Nat) (fl : Flags) : (flagsAdd g l fl).lastIssue = g.lastIssue := by unfold flagsAdd; split <;> rfl
@[simp] theorem flagsAdd_stopReq (g : Group) (l : Nat) (fl : Flags) : (flagsAdd g l fl).stopReq = g.stopReq := by unfold flagsAdd; split <;> rfl
@[simp] theorem flagsAdd_replays (g : Group) (l : Nat) (fl : Flags) : (flagsAdd g l fl).replays = g.replays := by unfold flagsAdd; split <;> rfl
@[simp] theorem flagsAdd_bgwaits (g : Group) (l : Nat) (fl : Flags) : (flagsAdd g l fl).bgwaits = g.bgwaits := by unfold flagsAdd; split <;> rfl
@[simp] theorem flagsAdd_frame0 (g : Group) (l : Nat) (fl : Flags) : (flagsAdd g l fl).frame0 = g.frame0 := by unfold flagsAdd; split <;> rfl
@[simp] theorem flagsAdd_frame1 (g : Group) (l : Nat) (fl : Flags) : (flagsAdd g l fl).frame1 = g.frame1 := by unfold flagsAdd; split <;> rfl
@[simp] theorem flagsAdd_frameOut (g : Group) (l : Nat) (fl : Flags) : (flagsAdd g l fl).frameOut = g.frameOut := by unfold flagsAdd; split <;> rfl
@[simp] theorem flagsAdd_atEntry (g : Group) (l : Nat) (fl : Flags) : (flagsAdd g l fl).atEntry = g.atEntry := by unfold flagsAdd; split <;> rfl
@[simp] theorem flagsAdd_held (g : Group) (l : Nat) (fl : Flags) : (flagsAdd g l fl).held = g.held := by unfold flagsAdd; split <;> rfl

/-! ## Accessors after updates -/

@[simp] theorem getCore_modCore_same (s : State) (c : Nat) (f : Core → Core) : getCore (modCore s c f) c = f (getCore s c) := by
  simp [getCore, modCore]
theorem getCore_modCore_other (s : State) (c d : Nat) (f : Core → Core) (h : d ≠ c) : getCore (modCore s c f) d = getCore s d := by
  simp [getCore, modCore, tget_tset_other _ _ _ _ h]
@[simp] theorem getCluster_modCluster_same (s : State) (c : Nat) (f : Cluster → Cluster) : getCluster (modCluster s c f) c = f (getCluster s c) := by
  simp [getCluster, modCluster]
theorem getCluster_modCluster_other (s : State) (c d : Nat) (f : Cluster → Cluster) (h : d ≠ c) : getCluster (modCluster s c f) d = getCluster s d := by
  simp [getCluster, modCluster, tgetD_tset_other _ _ _ _ _ h]
@[simp] theorem getStack_modStack_same (s : State) (k : Nat) (f : Stack → Stack) : getStack (modStack s k f) k = f (getStack s k) := by
  simp [getStack, modStack]
theorem getStack_modStack_other (s : State) (k d : Nat) (f : Stack → Stack) (h : d ≠ k) : getStack (modStack s k f) d = getStack s d := by
  simp [getStack, modStack, tgetD_tset_other _ _ _ _ _ h]
@[simp] theorem getBge_modBge_same (s : State) (k : Nat) (f : Bge → Bge) : getBge (modBge s k f) k = f (getBge s k) := by
  simp [getBge, modBge]
theorem getBge_modBge_other (s : State) (k d : Nat) (f : Bge → Bge) (h : d ≠ k) : getBge (modBge s k f) d = getBge s d := by
  simp [getBge, modBge, tgetD_tset_other _ _ _ _ _ h]
@[simp] theorem group_setGroup_same (s : State) (g : Nat) (x : Group) : tget (setGroup s g x).groups g = some x := by simp [setGroup]
theorem group_setGroup_other (s : State) (g h : Nat) (x : Group) (n : h ≠ g) : tget (setGroup s g x).groups h = tget s.groups h := by
  simp [setGroup, tget_tset_other _ _ _ _ n]
/-- A group changed, when it is there. -/
theorem group_modGroup_same (s : State) (g : Nat) (f : Group → Group) (x : Group) (h : tget s.groups g = some x) :
    tget (modGroup s g f).groups g = some (f x) := by simp [modGroup, h]
theorem group_modGroup_other (s : State) (g k : Nat) (f : Group → Group) (n : k ≠ g) : tget (modGroup s g f).groups k = tget s.groups k := by
  unfold modGroup; split
  · exact group_setGroup_other s g k _ n
  · rfl
theorem block_modBlock_same (s : State) (b : Nat) (f : Block → Block) (x : Block) (h : tget s.blocks b = some x) :
    tget (modBlock s b f).blocks b = some (f x) := by simp [modBlock, h]
theorem block_modBlock_other (s : State) (b k : Nat) (f : Block → Block) (n : k ≠ b) : tget (modBlock s b f).blocks k = tget s.blocks k := by
  unfold modBlock; split
  · simp [tget_tset_other _ _ _ _ n]
  · rfl
@[simp] theorem getFibre_setFibre_same (g : Group) (l : Nat) (f : Fibre) : getFibre (setFibre g l f) l = f := by simp [getFibre, setFibre]
theorem getFibre_setFibre_other (g : Group) (l m : Nat) (f : Fibre) (h : m ≠ l) : getFibre (setFibre g l f) m = getFibre g m := by
  simp [getFibre, setFibre, tgetD_tset_other _ _ _ _ _ h]
@[simp] theorem getFibre_modFibre_same (g : Group) (l : Nat) (f : Fibre → Fibre) : getFibre (modFibre g l f) l = f (getFibre g l) := by simp [modFibre]
theorem getFibre_modFibre_other (g : Group) (l m : Nat) (f : Fibre → Fibre) (h : m ≠ l) : getFibre (modFibre g l f) m = getFibre g m := by
  simp [modFibre, getFibre_setFibre_other _ _ _ _ h]
/-- R202: v[r] reads what was written to it. -/
@[simp] theorem vGet_vSet_same (g : Group) (l r : Nat) (v : W64) : vGet (vSet g l r v) l r = v := by
  simp [vGet, vSet, slotOf, logicalOf]
/-- R202: a register of the window whose slot differs keeps its value. -/
theorem vGet_vSet_slot (g : Group) (l r q : Nat) (v : W64) (h : slotOf g (logicalOf (getFibre g l) q) ≠ slotOf g (logicalOf (getFibre g l) r)) :
    vGet (vSet g l r v) l q = vGet g l q := by
  simp only [vGet, vSet, getFibre_modFibre_same, slotOf, modFibre_depth, logicalOf] at *
  exact tgetD_tset_other _ _ _ _ _ h
theorem vGet_vSet_lane (g : Group) (l m r q : Nat) (v : W64) (h : m ≠ l) : vGet (vSet g l r v) m q = vGet g m q := by
  simp [vGet, vSet, slotOf, getFibre_modFibre_other _ _ _ _ h]
/-- R208: s[r] reads what was written to it, and the others keep their values. -/
@[simp] theorem sGet_sSet_same (g : Group) (r : Nat) (v : W64) : sGet (sSet g r v) r = v := by simp [sGet, sSet]
theorem sGet_sSet_other (g : Group) (r q : Nat) (v : W64) (h : q ≠ r) : sGet (sSet g r v) q = sGet g q := by
  simp [sGet, sSet, tgetD_tset_other _ _ _ _ _ h]
@[simp] theorem sGet_modFibre (g : Group) (l r : Nat) (f : Fibre → Fibre) : sGet (modFibre g l f) r = sGet g r := rfl
@[simp] theorem vGet_sSet (g : Group) (l r q : Nat) (v : W64) : vGet (sSet g q v) l r = vGet g l r := rfl
/-- R210: p[k] of a lane is written alone. -/
theorem predByte_lane (g : Group) (l m k q : Nat) (b : Byte) (h : m ≠ l) : predByte (predSet g l k b) m q = predByte g m q := by
  simp [predByte, predSet, getFibre_modFibre_other _ _ _ _ h]

end Sys2Proof.Laws
end

