-- ==== Sys2Proof/Laws/Words.lean ====
section
/-! SUPPORT. What carrying out a word can do, said once: the outcomes of runWord, and what the operations around a word (a stall, a
trap raised, the advance past it, the grouping stage) leave alone. -/

namespace Sys2Proof.Laws

set_option Elab.async false

open Sys2Proof.Machine Sys2Proof.Safety

/-! ## Outcomes of a word -/

/-- Everything that a word which answers a next state can have done. -/
theorem runWord_cases (s t : State) (pend : Ctx → Bool) (f : Ctx → WRes) (h : runWord s pend f = .next t) :
    ∃ cx, ctxOf s = some cx ∧ ((pend cx = true ∧ t = stallAt cx s) ∨ (pend cx = false ∧
      ((∃ u, f cx = .ok u ∧ t = advance cx u) ∨ (∃ u n, f cx = .go u n ∧ t = goTo cx n u) ∨ (∃ u ps, f cx = .flow u ps ∧ t = flowTo cx ps u)
        ∨ (∃ x, f cx = .trap x ∧ t = raiseTrap cx x s) ∨ (∃ u, f cx = .stall u ∧ t = stallAt cx u)))) := by
  unfold runWord at h
  split at h
  · cases h
  · rename_i cx hc
    refine ⟨cx, hc, ?_⟩
    split at h
    · rename_i p; injection h with h; exact .inl ⟨p, h.symm⟩
    · rename_i p
      refine .inr ⟨by simpa using p, ?_⟩
      split at h <;> injection h with h
      · rename_i u e; exact .inl ⟨u, e, h.symm⟩
      · rename_i u n e; exact .inr (.inl ⟨u, n, e, h.symm⟩)
      · rename_i u ps e; exact .inr (.inr (.inl ⟨u, ps, e, h.symm⟩))
      · rename_i x e; exact .inr (.inr (.inr (.inl ⟨x, e, h.symm⟩)))
      · rename_i u e; exact .inr (.inr (.inr (.inr ⟨u, e, h.symm⟩)))
/-- A word is refused only when no path is in focus. -/
theorem runWord_refused (s : State) (r : Refusal) (pend : Ctx → Bool) (f : Ctx → WRes) (h : runWord s pend f = .refused r) :
    ctxOf s = none ∧ r = .noPath := by
  unfold runWord at h
  split at h
  · rename_i e; injection h with h; exact ⟨e, h.symm⟩
  · split at h
    · cases h
    · split at h <;> cases h
/-- A word that names no pending register and completes. -/
theorem runWord_ok (s u : State) (cx : Ctx) (pend : Ctx → Bool) (f : Ctx → WRes) (hc : ctxOf s = some cx) (hp : pend cx = false) (hf : f cx = .ok u) :
    runWord s pend f = .next (advance cx u) := by simp [runWord, hc, hp, hf]
theorem runWord_go (s u : State) (cx : Ctx) (n : Tbl W32) (pend : Ctx → Bool) (f : Ctx → WRes) (hc : ctxOf s = some cx) (hp : pend cx = false)
    (hf : f cx = .go u n) : runWord s pend f = .next (goTo cx n u) := by simp [runWord, hc, hp, hf]
theorem runWord_trap (s : State) (cx : Ctx) (x : TrapInfo) (pend : Ctx → Bool) (f : Ctx → WRes) (hc : ctxOf s = some cx) (hp : pend cx = false)
    (hf : f cx = .trap x) : runWord s pend f = .next (raiseTrap cx x s) := by simp [runWord, hc, hp, hf]
/-- R21: a word that names a pending register stalls. -/
theorem runWord_pending (s : State) (cx : Ctx) (pend : Ctx → Bool) (f : Ctx → WRes) (hc : ctxOf s = some cx) (hp : pend cx = true) :
    runWord s pend f = .next (stallAt cx s) := by simp [runWord, hc, hp]
/-- The path in focus is a path of its group that holds the lane that names it. -/
theorem ctxOf_some (s : State) (cx : Ctx) (h : ctxOf s = some cx) :
    s.focus = some (cx.gk, cx.lane) ∧ tget s.groups cx.gk = some cx.grp ∧ pathOf cx.grp cx.lane = some cx.path := by
  unfold ctxOf at h
  split at h
  · cases h
  · rename_i gk l hf
    split at h
    · cases h
    · rename_i g hg
      split at h
      · cases h
      · rename_i p hp; injection h with h; subst h; exact ⟨hf, hg, hp⟩
/-- The path in focus has the lane that names it. -/
theorem ctxOf_lane (s : State) (cx : Ctx) (h : ctxOf s = some cx) : cx.path.mask.getLsbD cx.lane = true := by
  have := (ctxOf_some s cx h).2.2
  unfold pathOf at this
  simpa using List.find?_some this

/-! ## Fields that the operations around a word leave -/

@[simp] theorem perfAdd_agenda (s : State) (c e n : Nat) : (perfAdd s c e n).agenda = s.agenda := rfl
@[simp] theorem perfAdd_focus (s : State) (c e n : Nat) : (perfAdd s c e n).focus = s.focus := rfl
@[simp] theorem perfAdd_bfocus (s : State) (c e n : Nat) : (perfAdd s c e n).bfocus = s.bfocus := rfl
@[simp] theorem perfAdd_free (s : State) (c e n : Nat) : (perfAdd s c e n).free = s.free := rfl
@[simp] theorem perfAdd_nextId (s : State) (c e n : Nat) : (perfAdd s c e n).nextId = s.nextId := rfl
@[simp] theorem perfAdd_time (s : State) (c e n : Nat) : (perfAdd s c e n).time = s.time := rfl
@[simp] theorem perfAdd_mem (s : State) (c e n : Nat) : (perfAdd s c e n).mem = s.mem := rfl
@[simp] theorem perfAdd_coh (s : State) (c e n : Nat) : (perfAdd s c e n).coh = s.coh := rfl
@[simp] theorem perfAdd_xl (s : State) (c e n : Nat) : (perfAdd s c e n).xl = s.xl := rfl
@[simp] theorem perfAdd_blocks (s : State) (c e n : Nat) : (perfAdd s c e n).blocks = s.blocks := rfl
@[simp] theorem perfAdd_clusters (s : State) (c e n : Nat) : (perfAdd s c e n).clusters = s.clusters := rfl
@[simp] theorem perfAdd_stackTbl (s : State) (c e n : Nat) : (perfAdd s c e n).stackTbl = s.stackTbl := rfl
@[simp] theorem perfAdd_bges (s : State) (c e n : Nat) : (perfAdd s c e n).bges = s.bges := rfl
@[simp] theorem perfAdd_fab (s : State) (c e n : Nat) : (perfAdd s c e n).fab = s.fab := rfl
@[simp] theorem perfAdd_esc (s : State) (c e n : Nat) : (perfAdd s c e n).esc = s.esc := rfl
@[simp] theorem perfAdd_mgmt (s : State) (c e n : Nat) : (perfAdd s c e n).mgmt = s.mgmt := rfl
@[simp] theorem perfAdd_groups (s : State) (c e n : Nat) : (perfAdd s c e n).groups = s.groups := rfl
@[simp] theorem raiseTrap_agenda (s : State) (cx : Ctx) (t : TrapInfo) : (raiseTrap cx t s).agenda = s.agenda := by simp [raiseTrap]
@[simp] theorem raiseTrap_focus (s : State) (cx : Ctx) (t : TrapInfo) : (raiseTrap cx t s).focus = s.focus := by simp [raiseTrap]
@[simp] theorem raiseTrap_bfocus (s : State) (cx : Ctx) (t : TrapInfo) : (raiseTrap cx t s).bfocus = s.bfocus := by simp [raiseTrap]
@[simp] theorem raiseTrap_free (s : State) (cx : Ctx) (t : TrapInfo) : (raiseTrap cx t s).free = s.free := by simp [raiseTrap]
@[simp] theorem raiseTrap_nextId (s : State) (cx : Ctx) (t : TrapInfo) : (raiseTrap cx t s).nextId = s.nextId := by simp [raiseTrap]
@[simp] theorem raiseTrap_time (s : State) (cx : Ctx) (t : TrapInfo) : (raiseTrap cx t s).time = s.time := by simp [raiseTrap]
@[simp] theorem raiseTrap_mem (s : State) (cx : Ctx) (t : TrapInfo) : (raiseTrap cx t s).mem = s.mem := by simp [raiseTrap]
@[simp] theorem raiseTrap_coh (s : State) (cx : Ctx) (t : TrapInfo) : (raiseTrap cx t s).coh = s.coh := by simp [raiseTrap]
@[simp] theorem raiseTrap_xl (s : State) (cx : Ctx) (t : TrapInfo) : (raiseTrap cx t s).xl = s.xl := by simp [raiseTrap]
@[simp] theorem raiseTrap_blocks (s : State) (cx : Ctx) (t : TrapInfo) : (raiseTrap cx t s).blocks = s.blocks := by simp [raiseTrap]
@[simp] theorem raiseTrap_clusters (s : State) (cx : Ctx) (t : TrapInfo) : (raiseTrap cx t s).clusters = s.clusters := by simp [raiseTrap]
@[simp] theorem raiseTrap_stackTbl (s : State) (cx : Ctx) (t : TrapInfo) : (raiseTrap cx t s).stackTbl = s.stackTbl := by simp [raiseTrap]
@[simp] theorem raiseTrap_bges (s : State) (cx : Ctx) (t : TrapInfo) : (raiseTrap cx t s).bges = s.bges := by simp [raiseTrap]
@[simp] theorem raiseTrap_fab (s : State) (cx : Ctx) (t : TrapInfo) : (raiseTrap cx t s).fab = s.fab := by simp [raiseTrap]
@[simp] theorem raiseTrap_esc (s : State) (cx : Ctx) (t : TrapInfo) : (raiseTrap cx t s).esc = s.esc := by simp [raiseTrap]
@[simp] theorem raiseTrap_mgmt (s : State) (cx : Ctx) (t : TrapInfo) : (raiseTrap cx t s).mgmt = s.mgmt := by simp [raiseTrap]
@[simp] theorem raiseTrap_cores (s : State) (cx : Ctx) (t : TrapInfo) : (raiseTrap cx t s).cores = s.cores := by simp [raiseTrap]
@[simp] theorem stallAt_agenda (s : State) (cx : Ctx) : (stallAt cx s).agenda = s.agenda := by unfold stallAt; split <;> simp
@[simp] theorem stallAt_focus (s : State) (cx : Ctx) : (stallAt cx s).focus = s.focus := by unfold stallAt; split <;> simp
@[simp] theorem stallAt_bfocus (s : State) (cx : Ctx) : (stallAt cx s).bfocus = s.bfocus := by unfold stallAt; split <;> simp
@[simp] theorem stallAt_free (s : State) (cx : Ctx) : (stallAt cx s).free = s.free := by unfold stallAt; split <;> simp
@[simp] theorem stallAt_nextId (s : State) (cx : Ctx) : (stallAt cx s).nextId = s.nextId := by unfold stallAt; split <;> simp
@[simp] theorem stallAt_time (s : State) (cx : Ctx) : (stallAt cx s).time = s.time := by unfold stallAt; split <;> simp
@[simp] theorem stallAt_mem (s : State) (cx : Ctx) : (stallAt cx s).mem = s.mem := by unfold stallAt; split <;> simp
@[simp] theorem stallAt_coh (s : State) (cx : Ctx) : (stallAt cx s).coh = s.coh := by unfold stallAt; split <;> simp
@[simp] theorem stallAt_xl (s : State) (cx : Ctx) : (stallAt cx s).xl = s.xl := by unfold stallAt; split <;> simp
@[simp] theorem stallAt_blocks (s : State) (cx : Ctx) : (stallAt cx s).blocks = s.blocks := by unfold stallAt; split <;> simp
@[simp] theorem stallAt_clusters (s : State) (cx : Ctx) : (stallAt cx s).clusters = s.clusters := by unfold stallAt; split <;> simp
@[simp] theorem stallAt_stackTbl (s : State) (cx : Ctx) : (stallAt cx s).stackTbl = s.stackTbl := by unfold stallAt; split <;> simp
@[simp] theorem stallAt_bges (s : State) (cx : Ctx) : (stallAt cx s).bges = s.bges := by unfold stallAt; split <;> simp
@[simp] theorem stallAt_fab (s : State) (cx : Ctx) : (stallAt cx s).fab = s.fab := by unfold stallAt; split <;> simp
@[simp] theorem stallAt_esc (s : State) (cx : Ctx) : (stallAt cx s).esc = s.esc := by unfold stallAt; split <;> simp
@[simp] theorem stallAt_mgmt (s : State) (cx : Ctx) : (stallAt cx s).mgmt = s.mgmt := by unfold stallAt; split <;> simp
@[simp] theorem boundary_agenda (s : State) (gk : Nat) : (boundary s gk).agenda = s.agenda := by unfold boundary; split; rfl; dsimp only; split <;> simp
@[simp] theorem boundary_focus (s : State) (gk : Nat) : (boundary s gk).focus = s.focus := by unfold boundary; split; rfl; dsimp only; split <;> simp
@[simp] theorem boundary_bfocus (s : State) (gk : Nat) : (boundary s gk).bfocus = s.bfocus := by unfold boundary; split; rfl; dsimp only; split <;> simp
@[simp] theorem boundary_free (s : State) (gk : Nat) : (boundary s gk).free = s.free := by unfold boundary; split; rfl; dsimp only; split <;> simp
@[simp] theorem boundary_nextId (s : State) (gk : Nat) : (boundary s gk).nextId = s.nextId := by unfold boundary; split; rfl; dsimp only; split <;> simp
@[simp] theorem boundary_time (s : State) (gk : Nat) : (boundary s gk).time = s.time := by unfold boundary; split; rfl; dsimp only; split <;> simp
@[simp] theorem boundary_mem (s : State) (gk : Nat) : (boundary s gk).mem = s.mem := by unfold boundary; split; rfl; dsimp only; split <;> simp
@[simp] theorem boundary_coh (s : State) (gk : Nat) : (boundary s gk).coh = s.coh := by unfold boundary; split; rfl; dsimp only; split <;> simp
@[simp] theorem boundary_xl (s : State) (gk : Nat) : (boundary s gk).xl = s.xl := by unfold boundary; split; rfl; dsimp only; split <;> simp
@[simp] theorem boundary_blocks (s : State) (gk : Nat) : (boundary s gk).blocks = s.blocks := by unfold boundary; split; rfl; dsimp only; split <;> simp
@[simp] theorem boundary_clusters (s : State) (gk : Nat) : (boundary s gk).clusters = s.clusters := by unfold boundary; split; rfl; dsimp only; split <;> simp
@[simp] theorem boundary_stackTbl (s : State) (gk : Nat) : (boundary s gk).stackTbl = s.stackTbl := by unfold boundary; split; rfl; dsimp only; split <;> simp
@[simp] theorem boundary_bges (s : State) (gk : Nat) : (boundary s gk).bges = s.bges := by unfold boundary; split; rfl; dsimp only; split <;> simp
@[simp] theorem boundary_fab (s : State) (gk : Nat) : (boundary s gk).fab = s.fab := by unfold boundary; split; rfl; dsimp only; split <;> simp
@[simp] theorem boundary_esc (s : State) (gk : Nat) : (boundary s gk).esc = s.esc := by unfold boundary; split; rfl; dsimp only; split <;> simp
@[simp] theorem boundary_mgmt (s : State) (gk : Nat) : (boundary s gk).mgmt = s.mgmt := by unfold boundary; split; rfl; dsimp only; split <;> simp
@[simp] theorem countIssue_agenda (s : State) (gk : Nat) (g : Group) : (countIssue s gk g).agenda = s.agenda := by simp [countIssue]
@[simp] theorem countIssue_focus (s : State) (gk : Nat) (g : Group) : (countIssue s gk g).focus = s.focus := by simp [countIssue]
@[simp] theorem countIssue_bfocus (s : State) (gk : Nat) (g : Group) : (countIssue s gk g).bfocus = s.bfocus := by simp [countIssue]
@[simp] theorem countIssue_free (s : State) (gk : Nat) (g : Group) : (countIssue s gk g).free = s.free := by simp [countIssue]
@[simp] theorem countIssue_nextId (s : State) (gk : Nat) (g : Group) : (countIssue s gk g).nextId = s.nextId := by simp [countIssue]
@[simp] theorem countIssue_time (s : State) (gk : Nat) (g : Group) : (countIssue s gk g).time = s.time := by simp [countIssue]
@[simp] theorem countIssue_mem (s : State) (gk : Nat) (g : Group) : (countIssue s gk g).mem = s.mem := by simp [countIssue]
@[simp] theorem countIssue_coh (s : State) (gk : Nat) (g : Group) : (countIssue s gk g).coh = s.coh := by simp [countIssue]
@[simp] theorem countIssue_xl (s : State) (gk : Nat) (g : Group) : (countIssue s gk g).xl = s.xl := by simp [countIssue]
@[simp] theorem countIssue_blocks (s : State) (gk : Nat) (g : Group) : (countIssue s gk g).blocks = s.blocks := by simp [countIssue]
@[simp] theorem countIssue_clusters (s : State) (gk : Nat) (g : Group) : (countIssue s gk g).clusters = s.clusters := by simp [countIssue]
@[simp] theorem countIssue_stackTbl (s : State) (gk : Nat) (g : Group) : (countIssue s gk g).stackTbl = s.stackTbl := by simp [countIssue]
@[simp] theorem countIssue_bges (s : State) (gk : Nat) (g : Group) : (countIssue s gk g).bges = s.bges := by simp [countIssue]
@[simp] theorem countIssue_fab (s : State) (gk : Nat) (g : Group) : (countIssue s gk g).fab = s.fab := by simp [countIssue]
@[simp] theorem countIssue_esc (s : State) (gk : Nat) (g : Group) : (countIssue s gk g).esc = s.esc := by simp [countIssue]
@[simp] theorem countIssue_mgmt (s : State) (gk : Nat) (g : Group) : (countIssue s gk g).mgmt = s.mgmt := by simp [countIssue]
@[simp] theorem advance_agenda (s : State) (cx : Ctx) : (advance cx s).agenda = s.agenda := by unfold advance; dsimp only; split <;> simp
@[simp] theorem advance_focus (s : State) (cx : Ctx) : (advance cx s).focus = s.focus := by unfold advance; dsimp only; split <;> simp
@[simp] theorem advance_bfocus (s : State) (cx : Ctx) : (advance cx s).bfocus = s.bfocus := by unfold advance; dsimp only; split <;> simp
@[simp] theorem advance_free (s : State) (cx : Ctx) : (advance cx s).free = s.free := by unfold advance; dsimp only; split <;> simp
@[simp] theorem advance_nextId (s : State) (cx : Ctx) : (advance cx s).nextId = s.nextId := by unfold advance; dsimp only; split <;> simp
@[simp] theorem advance_time (s : State) (cx : Ctx) : (advance cx s).time = s.time := by unfold advance; dsimp only; split <;> simp
@[simp] theorem advance_mem (s : State) (cx : Ctx) : (advance cx s).mem = s.mem := by unfold advance; dsimp only; split <;> simp
@[simp] theorem advance_coh (s : State) (cx : Ctx) : (advance cx s).coh = s.coh := by unfold advance; dsimp only; split <;> simp
@[simp] theorem advance_xl (s : State) (cx : Ctx) : (advance cx s).xl = s.xl := by unfold advance; dsimp only; split <;> simp
@[simp] theorem advance_blocks (s : State) (cx : Ctx) : (advance cx s).blocks = s.blocks := by unfold advance; dsimp only; split <;> simp
@[simp] theorem advance_clusters (s : State) (cx : Ctx) : (advance cx s).clusters = s.clusters := by unfold advance; dsimp only; split <;> simp
@[simp] theorem advance_stackTbl (s : State) (cx : Ctx) : (advance cx s).stackTbl = s.stackTbl := by unfold advance; dsimp only; split <;> simp
@[simp] theorem advance_bges (s : State) (cx : Ctx) : (advance cx s).bges = s.bges := by unfold advance; dsimp only; split <;> simp
@[simp] theorem advance_fab (s : State) (cx : Ctx) : (advance cx s).fab = s.fab := by unfold advance; dsimp only; split <;> simp
@[simp] theorem advance_esc (s : State) (cx : Ctx) : (advance cx s).esc = s.esc := by unfold advance; dsimp only; split <;> simp
@[simp] theorem advance_mgmt (s : State) (cx : Ctx) : (advance cx s).mgmt = s.mgmt := by unfold advance; dsimp only; split <;> simp
@[simp] theorem flowTo_agenda (s : State) (cx : Ctx) (ps : List Path) : (flowTo cx ps s).agenda = s.agenda := by simp [flowTo]
@[simp] theorem flowTo_focus (s : State) (cx : Ctx) (ps : List Path) : (flowTo cx ps s).focus = s.focus := by simp [flowTo]
@[simp] theorem flowTo_bfocus (s : State) (cx : Ctx) (ps : List Path) : (flowTo cx ps s).bfocus = s.bfocus := by simp [flowTo]
@[simp] theorem flowTo_free (s : State) (cx : Ctx) (ps : List Path) : (flowTo cx ps s).free = s.free := by simp [flowTo]
@[simp] theorem flowTo_nextId (s : State) (cx : Ctx) (ps : List Path) : (flowTo cx ps s).nextId = s.nextId := by simp [flowTo]
@[simp] theorem flowTo_time (s : State) (cx : Ctx) (ps : List Path) : (flowTo cx ps s).time = s.time := by simp [flowTo]
@[simp] theorem flowTo_mem (s : State) (cx : Ctx) (ps : List Path) : (flowTo cx ps s).mem = s.mem := by simp [flowTo]
@[simp] theorem flowTo_coh (s : State) (cx : Ctx) (ps : List Path) : (flowTo cx ps s).coh = s.coh := by simp [flowTo]
@[simp] theorem flowTo_xl (s : State) (cx : Ctx) (ps : List Path) : (flowTo cx ps s).xl = s.xl := by simp [flowTo]
@[simp] theorem flowTo_blocks (s : State) (cx : Ctx) (ps : List Path) : (flowTo cx ps s).blocks = s.blocks := by simp [flowTo]
@[simp] theorem flowTo_clusters (s : State) (cx : Ctx) (ps : List Path) : (flowTo cx ps s).clusters = s.clusters := by simp [flowTo]
@[simp] theorem flowTo_stackTbl (s : State) (cx : Ctx) (ps : List Path) : (flowTo cx ps s).stackTbl = s.stackTbl := by simp [flowTo]
@[simp] theorem flowTo_bges (s : State) (cx : Ctx) (ps : List Path) : (flowTo cx ps s).bges = s.bges := by simp [flowTo]
@[simp] theorem flowTo_fab (s : State) (cx : Ctx) (ps : List Path) : (flowTo cx ps s).fab = s.fab := by simp [flowTo]
@[simp] theorem flowTo_esc (s : State) (cx : Ctx) (ps : List Path) : (flowTo cx ps s).esc = s.esc := by simp [flowTo]
@[simp] theorem flowTo_mgmt (s : State) (cx : Ctx) (ps : List Path) : (flowTo cx ps s).mgmt = s.mgmt := by simp [flowTo]
@[simp] theorem goTo_agenda (s : State) (cx : Ctx) (n : Tbl W32) : (goTo cx n s).agenda = s.agenda := by simp [goTo]
@[simp] theorem goTo_focus (s : State) (cx : Ctx) (n : Tbl W32) : (goTo cx n s).focus = s.focus := by simp [goTo]
@[simp] theorem goTo_bfocus (s : State) (cx : Ctx) (n : Tbl W32) : (goTo cx n s).bfocus = s.bfocus := by simp [goTo]
@[simp] theorem goTo_free (s : State) (cx : Ctx) (n : Tbl W32) : (goTo cx n s).free = s.free := by simp [goTo]
@[simp] theorem goTo_nextId (s : State) (cx : Ctx) (n : Tbl W32) : (goTo cx n s).nextId = s.nextId := by simp [goTo]
@[simp] theorem goTo_time (s : State) (cx : Ctx) (n : Tbl W32) : (goTo cx n s).time = s.time := by simp [goTo]
@[simp] theorem goTo_mem (s : State) (cx : Ctx) (n : Tbl W32) : (goTo cx n s).mem = s.mem := by simp [goTo]
@[simp] theorem goTo_coh (s : State) (cx : Ctx) (n : Tbl W32) : (goTo cx n s).coh = s.coh := by simp [goTo]
@[simp] theorem goTo_xl (s : State) (cx : Ctx) (n : Tbl W32) : (goTo cx n s).xl = s.xl := by simp [goTo]
@[simp] theorem goTo_blocks (s : State) (cx : Ctx) (n : Tbl W32) : (goTo cx n s).blocks = s.blocks := by simp [goTo]
@[simp] theorem goTo_clusters (s : State) (cx : Ctx) (n : Tbl W32) : (goTo cx n s).clusters = s.clusters := by simp [goTo]
@[simp] theorem goTo_stackTbl (s : State) (cx : Ctx) (n : Tbl W32) : (goTo cx n s).stackTbl = s.stackTbl := by simp [goTo]
@[simp] theorem goTo_bges (s : State) (cx : Ctx) (n : Tbl W32) : (goTo cx n s).bges = s.bges := by simp [goTo]
@[simp] theorem goTo_fab (s : State) (cx : Ctx) (n : Tbl W32) : (goTo cx n s).fab = s.fab := by simp [goTo]
@[simp] theorem goTo_esc (s : State) (cx : Ctx) (n : Tbl W32) : (goTo cx n s).esc = s.esc := by simp [goTo]
@[simp] theorem goTo_mgmt (s : State) (cx : Ctx) (n : Tbl W32) : (goTo cx n s).mgmt = s.mgmt := by simp [goTo]

end Sys2Proof.Laws
end

