-- ==== Sys2Proof/Laws/Inv.lean ====
section
/-! SUPPORT. Which operations keep the canonical form of the memories (Inv), and which give it. -/

namespace Sys2Proof.Laws

set_option Elab.async false

open Sys2Proof.Machine Sys2Proof.Safety

/-- The invariant reads memory and the scratchpads of the cores, and nothing else. -/
theorem inv_of_eq (s t : State) (m : t.mem = s.mem) (c : t.cores = s.cores) (h : Safety.Inv s) : Inv t := by
  unfold Safety.Inv at *; rw [m, c]; exact h
theorem inv_of_cells (s t : State) (m : t.mem.cells = s.mem.cells) (c : t.cores = s.cores) (h : Safety.Inv s) : Inv t := by
  unfold Safety.Inv at *; rw [m, c]; exact h
/-- Memory's bytes changed alone. -/
theorem inv_mem (s t : State) (m : cellsWf t.mem.cells = true) (c : t.cores = s.cores) (h : Safety.Inv s) : Inv t := ⟨m, by rw [c]; exact h.2⟩
/-- The scratchpads of a core of a state with Inv are in canonical form, also of a core that nothing has touched. -/
theorem inv_getCore (s : State) (c : Nat) (h : Safety.Inv s) : ∀ p, p ∈ (getCore s c).spads → cellsWf p.2.bytes = true := by
  unfold getCore
  split
  · rename_i k e; exact h.2 (c, k) (mem_of_tget _ _ _ e)
  · intro p hp; cases hp
/-- A core changed by a function that leaves its scratchpads in canonical form. -/
theorem inv_modCore (s : State) (c : Nat) (f : Core → Core) (h : Safety.Inv s) (k : ∀ p, p ∈ (f (getCore s c)).spads → cellsWf p.2.bytes = true) :
    Safety.Inv (modCore s c f) := by
  refine ⟨h.1, fun e he => ?_⟩
  rcases mem_tset _ _ _ _ he with e | e
  · subst e; exact k
  · exact h.2 _ e
/-- A core changed by a function that leaves its scratchpads. -/
theorem inv_modCore_spads (s : State) (c : Nat) (f : Core → Core) (h : Safety.Inv s) (k : ∀ x, (f x).spads = x.spads) : Safety.Inv (modCore s c f) :=
  inv_modCore s c f h (by rw [k]; exact inv_getCore s c h)
theorem inv_modSpad (s : State) (c b : Nat) (f : Spad → Spad) (h : Safety.Inv s) (k : ∀ x, cellsWf x.bytes = true → cellsWf (f x).bytes = true) :
    Safety.Inv (modSpad s c b f) := by
  unfold modSpad
  split
  · exact h
  · rename_i x e
    have hx : cellsWf x.bytes = true := by
      unfold spadOf at e; exact inv_getCore s c h _ (mem_of_tget _ _ _ e)
    refine inv_modCore s c _ h (fun p hp => ?_)
    rcases mem_tset _ _ _ _ hp with e | e
    · subst e; exact k _ hx
    · exact inv_getCore s c h _ e
/-- R161, R163: a write to a scratchpad. -/
theorem inv_spadWrite (s : State) (c b off n v : Nat) (z : Bool) (h : Safety.Inv s) : Safety.Inv (spadWrite s c b off n v z) :=
  inv_modSpad s c b _ h (fun x hx => cellsWrite_wf x.bytes off n v hx)

/-! ## Updates that leave the memories -/

@[simp] theorem inv_modGroup (s : State) (g : Nat) (f : Group → Group) (h : Safety.Inv s) : Safety.Inv (modGroup s g f) := inv_of_eq s _ (by simp) (by simp) h
@[simp] theorem inv_setGroup (s : State) (g : Nat) (x : Group) (h : Safety.Inv s) : Safety.Inv (setGroup s g x) := inv_of_eq s _ rfl rfl h
@[simp] theorem inv_modBlock (s : State) (b : Nat) (f : Block → Block) (h : Safety.Inv s) : Safety.Inv (modBlock s b f) := inv_of_eq s _ (by simp) (by simp) h
@[simp] theorem inv_modCluster (s : State) (c : Nat) (f : Cluster → Cluster) (h : Safety.Inv s) : Safety.Inv (modCluster s c f) := inv_of_eq s _ rfl rfl h
@[simp] theorem inv_modStack (s : State) (k : Nat) (f : Stack → Stack) (h : Safety.Inv s) : Safety.Inv (modStack s k f) := inv_of_eq s _ rfl rfl h
@[simp] theorem inv_modBge (s : State) (k : Nat) (f : Bge → Bge) (h : Safety.Inv s) : Safety.Inv (modBge s k f) := inv_of_eq s _ rfl rfl h
@[simp] theorem inv_raiseMsix (s : State) (v : Nat) (h : Safety.Inv s) : Safety.Inv (raiseMsix s v) := inv_of_eq s _ rfl rfl h
@[simp] theorem inv_freshId (s : State) (h : Safety.Inv s) : Safety.Inv (freshId s).2 := inv_of_eq s _ rfl rfl h
@[simp] theorem inv_drawFree (s : State) (h : Safety.Inv s) : Safety.Inv (drawFree s).2 := inv_of_eq s _ rfl rfl h
@[simp] theorem inv_modTx (s : State) (chip plane sn : Nat) (f : FabTx → FabTx) (h : Safety.Inv s) : Safety.Inv (modTx s chip plane sn f) := inv_of_eq s _ rfl rfl h
@[simp] theorem inv_perfAdd (s : State) (c e n : Nat) (h : Safety.Inv s) : Safety.Inv (perfAdd s c e n) := inv_modCore_spads s c _ h (fun _ => rfl)
@[simp] theorem inv_raiseTrap (s : State) (cx : Ctx) (t : TrapInfo) (h : Safety.Inv s) : Safety.Inv (raiseTrap cx t s) := inv_modGroup _ _ _ h
@[simp] theorem inv_stallAt (s : State) (cx : Ctx) (h : Safety.Inv s) : Safety.Inv (stallAt cx s) := by
  unfold stallAt; split
  · exact h
  · exact inv_perfAdd _ _ _ _ (inv_modGroup _ _ _ h)
@[simp] theorem inv_boundary (s : State) (gk : Nat) (h : Safety.Inv s) : Safety.Inv (boundary s gk) := by
  unfold boundary; split
  · exact h
  · dsimp only; split
    · exact inv_setGroup _ _ _ h
    · exact inv_perfAdd _ _ _ _ (inv_setGroup _ _ _ h)
@[simp] theorem inv_countIssue (s : State) (gk : Nat) (g : Group) (h : Safety.Inv s) : Safety.Inv (countIssue s gk g) := inv_modGroup _ _ _ (inv_perfAdd _ _ _ _ h)
@[simp] theorem inv_advance (s : State) (cx : Ctx) (h : Safety.Inv s) : Safety.Inv (advance cx s) := by
  unfold advance; dsimp only; split
  · exact inv_boundary _ _ (inv_modGroup _ _ _ (inv_countIssue _ _ _ h))
  · exact inv_modGroup _ _ _ (inv_countIssue _ _ _ h)
@[simp] theorem inv_flowTo (s : State) (cx : Ctx) (ps : List Path) (h : Safety.Inv s) : Safety.Inv (flowTo cx ps s) :=
  inv_boundary _ _ (inv_modGroup _ _ _ (inv_countIssue _ _ _ h))
@[simp] theorem inv_goTo (s : State) (cx : Ctx) (n : Tbl W32) (h : Safety.Inv s) : Safety.Inv (goTo cx n s) := inv_flowTo _ _ _ h
/-- A word keeps the invariant when what it does to the state before it advances, waits or flows on does. -/
theorem inv_runWord (s t : State) (pend : Ctx → Bool) (f : Ctx → WRes) (h : Safety.Inv s) (e : runWord s pend f = .next t)
    (k : ∀ cx, ctxOf s = some cx → ∀ u, (f cx = .ok u ∨ f cx = .stall u ∨ (∃ n, f cx = .go u n) ∨ ∃ ps, f cx = .flow u ps) → Safety.Inv u) : Inv t := by
  obtain ⟨cx, hc, ⟨-, rfl⟩ | ⟨-, ⟨u, q, rfl⟩ | ⟨u, n, q, rfl⟩ | ⟨u, ps, q, rfl⟩ | ⟨x, -, rfl⟩ | ⟨u, q, rfl⟩⟩⟩ := runWord_cases s t pend f e
  · exact inv_stallAt _ _ h
  · exact inv_advance _ _ (k cx hc u (.inl q))
  · exact inv_goTo _ _ _ (k cx hc u (.inr (.inr (.inl ⟨n, q⟩))))
  · exact inv_flowTo _ _ _ (k cx hc u (.inr (.inr (.inr ⟨ps, q⟩))))
  · exact inv_raiseTrap _ _ _ h
  · exact inv_stallAt _ _ (k cx hc u (.inr (.inl q)))
/-- An operation repeated over a list keeps the invariant when each turn does. -/
theorem inv_foldl {α : Type} (f : State → α → State) (l : List α) (s : State) (h : Safety.Inv s) (k : ∀ u a, Safety.Inv u → Safety.Inv (f u a)) : Safety.Inv (l.foldl f s) := by
  induction l generalizing s with
  | nil => exact h
  | cons a l ih => exact ih _ (k _ _ h)
/-- The same with more carried beside the state. -/
theorem inv_foldl_fst {α β : Type} (f : State × β → α → State × β) (l : List α) (x : State × β) (h : Safety.Inv x.1) (k : ∀ (u : State × β) a, Safety.Inv u.1 → Safety.Inv (f u a).1) :
    Safety.Inv (l.foldl f x).1 := by
  induction l generalizing x with
  | nil => exact h
  | cons a l ih => exact ih _ (k _ _ h)

/-! ## Writes to memory -/

/-- R47, R161: bytes of a line written at the home. -/
@[simp] theorem inv_memMerge (s : State) (line : Nat) (m : LineMask) (d : Line) (p : BitVec 4) (h : Safety.Inv s) : Safety.Inv (memMerge s line m d p) :=
  inv_mem s _ (cellsMerge_wf _ _ _ _ _ h.1) rfl h
@[simp] theorem inv_writeBack (s : State) (x : L1Line) (h : Safety.Inv s) : Safety.Inv (writeBack s x) := by
  unfold writeBack; split
  · exact h
  · exact inv_mem s _ (cellsMerge_wf _ _ _ _ _ h.1) rfl h
@[simp] theorem inv_l1Drop (s : State) (c line : Nat) (h : Safety.Inv s) : Safety.Inv (l1Drop s c line) := by
  unfold l1Drop; split
  · exact h
  · exact inv_modCore_spads _ _ _ (inv_writeBack _ _ h) (fun _ => rfl)
/-- R86: a slice written by a bank-group engine. -/
@[simp] theorem inv_sliceWrite (s : State) (la bank col off n v : Nat) (h : Safety.Inv s) : Safety.Inv (sliceWrite s la bank col off n v) :=
  inv_mem s _ (cellsWrite_wf _ _ _ _ h.1) rfl h
/-- A byte of memory after bytes of its line or of another were written at the home. -/
theorem memAt_memMerge (s : State) (line : Nat) (m : LineMask) (d : Line) (p : BitVec 4) (a : Nat) (h : Safety.Inv s) :
    memAt (memMerge s line m d p) a = if a / 128 = line ∧ m.getLsbD (a % 128) = true then d.extractLsb' (8 * (a % 128)) 8 else memAt s a := by
  unfold memAt memMerge
  simp only
  rw [cellsGet_cellsMerge _ _ _ _ _ _ h.1]
  have hs : ∀ k : Nat, m.toNat / 2 ^ k % 2 = 1 ↔ m.getLsbD k = true := by
    intro k; rw [← BitVec.testBit_toNat, Nat.testBit_eq_decide_div_mod_eq]; simp
  by_cases e : a / 128 = line
  · have : a - line * 128 = a % 128 := by omega
    rw [this]
    by_cases b : m.getLsbD (a % 128) = true
    · rw [if_pos ⟨by omega, by omega, (hs _).2 b⟩, if_pos ⟨e, b⟩]
      apply BitVec.eq_of_toNat_eq
      simp only [BitVec.toNat_ofNat, BitVec.extractLsb'_toNat, Nat.shiftRight_eq_div_pow, Nat.pow_mul, Nat.reducePow]
    · rw [if_neg (fun c => b ((hs _).1 c.2.2)), if_neg (fun c => b c.2)]
  · rw [if_neg (fun c => e (by omega)), if_neg (fun c => e c.1)]

end Sys2Proof.Laws
end

