-- ==== Sys2Proof/Laws/Home.lean ====
section
/-! SUPPORT. The operations of the home slices and of the L1s keep the canonical form of memory, and admitting a request writes no
byte that an owner has not left dirty. -/

namespace Sys2Proof.Laws

set_option Elab.async false

open Sys2Proof.Machine Sys2Proof.Safety

/-- Cores changed one by one by a function that leaves their scratchpads. -/
theorem inv_mapCores (s : State) (f : Nat × Core → Nat × Core) (h : Safety.Inv s) (k : ∀ x, (f x).2.spads = x.2.spads) :
    Safety.Inv { s with cores := s.cores.map f } := by
  refine ⟨h.1, fun c hc p hp => ?_⟩
  obtain ⟨x, hx, rfl⟩ := List.mem_map.1 hc
  rw [k] at hp
  exact h.2 x hx p hp

/-! ## Copies -/

theorem inv_snoopSend (s : State) (half : Nat) (keep : Bool) (h : Safety.Inv s) : Safety.Inv (snoopSend s half keep) := by
  unfold snoopSend; split
  · exact h
  · exact inv_of_eq s _ rfl rfl h
theorem inv_snoopAll (s : State) (w : Bool) (hs : List Nat) (h : Safety.Inv s) : Safety.Inv (snoopAll s w hs) := by
  refine inv_foldl _ _ _ h (fun u a hu => ?_)
  split
  · exact hu
  · exact inv_snoopSend _ _ _ hu
theorem inv_recallFrom (s : State) (line c : Nat) (h : Safety.Inv s) : Safety.Inv (recallFrom s line c) := by
  unfold recallFrom; split
  · exact h
  · split
    · exact inv_modCore_spads _ _ _ (inv_writeBack _ _ h) (fun _ => rfl)
    · exact h
theorem inv_recallOw (s : State) (line : Nat) (e : Option Nat) (h : Safety.Inv s) : Safety.Inv (recallOw s line e) := by
  refine inv_foldl _ _ _ h (fun u a hu => ?_)
  split
  · exact hu
  · exact inv_recallFrom _ _ _ hu
theorem inv_dropTracked (s : State) (line : Nat) (e : Option Nat) (h : Safety.Inv s) : Safety.Inv (dropTracked s line e) :=
  inv_mapCores s _ h (fun x => by split <;> rfl)
theorem inv_dropAll (s : State) (line : Nat) (h : Safety.Inv s) : Safety.Inv (dropAll s line) :=
  inv_mapCores _ _ (inv_recallOw s line none h) (fun _ => rfl)
theorem inv_dropUtOf (s : State) (c : Nat) (w : Nat → Bool) (h : Safety.Inv s) : Safety.Inv (dropUtOf s c w) := by
  unfold dropUtOf; split
  · exact inv_foldl _ _ _ h (fun u a hu => inv_modCore_spads _ _ _ hu (fun _ => rfl))
  · exact inv_modCore_spads _ _ _ h (fun _ => rfl)

/-! ## The home slices -/

theorem inv_llcTouch (s : State) (line : Nat) (d : BitVec 4) (h : Safety.Inv s) : Safety.Inv (llcTouch s line d) := inv_of_eq s _ rfl rfl h
theorem inv_llcForget (s : State) (line : Nat) (h : Safety.Inv s) : Safety.Inv (llcForget s line) := inv_of_eq s _ rfl rfl h
theorem inv_hostPoison (s : State) (line : Nat) (h : Safety.Inv s) : Safety.Inv (hostPoison s line) := by
  unfold hostPoison; split
  · exact h
  · exact ⟨h.1, h.2⟩
theorem inv_llcEvict (s : State) (line : Nat) (h : Safety.Inv s) : Safety.Inv (llcEvict s line) := inv_llcForget _ _ (inv_hostPoison _ _ h)
theorem inv_waitAt (s : State) (line : Nat) (h : Safety.Inv s) : Safety.Inv (waitAt s line) := inv_of_eq s _ rfl rfl h
theorem inv_llcValid (s : State) (line : Nat) (a b : BitVec 4) (h : Safety.Inv s) : Safety.Inv (llcValid s line a b) := inv_of_eq s _ rfl rfl h
theorem inv_fabSnoop (s : State) (line : Nat) (k : Bool) (h : Safety.Inv s) : Safety.Inv (fabSnoop s line k) := by
  unfold fabSnoop; split
  · exact h
  · exact inv_of_eq s _ rfl rfl h
theorem inv_snoopLine (s : State) (line : Nat) (h : Safety.Inv s) : Safety.Inv (snoopLine s line) := by
  unfold snoopLine; dsimp only
  split
  · exact inv_fabSnoop _ _ _ (inv_snoopAll _ _ _ h)
  · exact inv_snoopAll _ _ _ h
theorem inv_setRecord (s : State) (line : Nat) (r : Option (Nat × Nat × AScope)) (h : Safety.Inv s) : Safety.Inv (setRecord s line r) := inv_of_eq s _ rfl rfl h
theorem inv_llcRoom (s : State) (line : Nat) (h : Safety.Inv s) : Safety.Inv (llcRoom s line).1 := by
  unfold llcRoom; dsimp only
  split
  · exact h
  · split
    · exact h
    · split
      · exact inv_snoopLine _ _ h
      · exact inv_llcEvict _ _ (inv_dropAll _ _ h)
/-- R15, R59, R136, R158: what admitting a request sets going. -/
theorem inv_homeAdmitBy (fab : Bool) (s : State) (line : Nat) (m : LineMask) (w : Bool) (h : Safety.Inv s) :
    Safety.Inv (homeAdmitBy fab s line m w).1 := by
  unfold homeAdmitBy; dsimp only
  generalize (if line * 128 < 0x8000000000 then halvesOf line m else []) = hs
  generalize e : (if fab = true then (match tget s.coh.fsnoops line with
      | some (0, k) => ({ s with coh := { s.coh with fsnoops := tset s.coh.fsnoops line (1, k) } }, true)
      | some _ => (waitAt s line, false)
      | none => (s, true)) else (s, true)) = y
  have hy : Safety.Inv y.1 := by
    subst e
    split
    · split
      · exact inv_of_eq s _ rfl rfl h
      · exact inv_waitAt _ _ h
      · exact h
    · exact h
  split
  · exact inv_waitAt _ _ h
  · split
    · exact inv_waitAt _ _ (inv_snoopAll _ _ _ h)
    · split
      · exact inv_waitAt _ _ (inv_fabSnoop _ _ _ h)
      · split
        · exact hy
        · split
          · exact inv_llcValid _ _ _ _ (inv_llcTouch _ _ _ (inv_llcRoom _ _ hy))
          · exact inv_llcRoom _ _ hy
theorem inv_homeAdmit (s : State) (line : Nat) (m : LineMask) (w : Bool) (h : Safety.Inv s) : Safety.Inv (homeAdmit s line m w).1 :=
  inv_homeAdmitBy _ _ _ _ _ h
theorem inv_windowTake (s : State) (line : Nat) (m : LineMask) (own : Bool) (h : Safety.Inv s) : Safety.Inv (windowTake s line m own) := by
  unfold windowTake; split
  · exact h
  · exact inv_foldl _ _ _ h (fun u a hu => inv_of_eq u _ rfl rfl hu)
theorem inv_settleMonitor (s : State) (gk : Nat) (h : Safety.Inv s) : Safety.Inv (settleMonitor s gk) := by
  unfold settleMonitor; split
  · exact h
  · split
    · exact h
    · split
      · exact h
      · refine inv_boundary _ _ ?_
        split
        · exact inv_dropUtOf _ _ _ (inv_setGroup _ _ _ h)
        · exact inv_setGroup _ _ _ h
theorem inv_noteWrite (s : State) (line : Nat) (h : Safety.Inv s) : Safety.Inv (noteWrite s line) := by
  unfold noteWrite; dsimp only
  refine inv_foldl _ _ _ ?_ (fun u a hu => ?_)
  · split
    · exact h
    · exact inv_foldl _ _ _ (inv_of_eq s _ rfl rfl h) (fun u a hu => inv_settleMonitor _ _ hu)
  · split
    · exact inv_of_eq u _ rfl rfl hu
    · exact hu
/-- R161: a write served by the home slice. -/
theorem inv_homeWrite (s : State) (w : Option Nat) (line : Nat) (m : LineMask) (d : Line) (p : BitVec 4) (h : Safety.Inv s) :
    Safety.Inv (homeWrite s w line m d p) :=
  inv_noteWrite _ _ (inv_setRecord _ _ _ (inv_llcTouch _ _ _ (inv_memMerge _ _ _ _ _ (inv_dropTracked _ _ _ (inv_recallOw _ _ _ h)))))
theorem inv_homeRead (s : State) (line : Nat) (h : Safety.Inv s) : Safety.Inv (homeRead s line) := inv_recallOw _ _ _ h

/-! ## The L1s -/

theorem inv_l1Room (s : State) (c line : Nat) (h : Safety.Inv s) : Safety.Inv (l1Room s c line) := by
  unfold l1Room; dsimp only
  split
  · exact h
  · split
    · exact h
    · exact inv_l1Drop _ _ _ h
theorem inv_l1Fill (s : State) (c line : Nat) (f : L1Form) (v : BitVec 4) (h : Safety.Inv s) : Safety.Inv (l1Fill s c line f v) := by
  unfold l1Fill; split
  · exact h
  · exact inv_modCore_spads _ _ _ (inv_l1Room _ _ _ h) (fun _ => rfl)
/-- Table 7.1: a load of any type. -/
theorem inv_lineLoad (s : State) (c : Nat) (t : MType) (line : Nat) (m : LineMask) (h : Safety.Inv s) : Safety.Inv (lineLoad s c t line m).1 := by
  unfold lineLoad; dsimp only
  split
  · exact inv_modCore_spads _ _ _ h (fun _ => rfl)
  · cases t
    · exact inv_l1Fill _ _ _ _ _ (inv_windowTake _ _ _ _ (inv_recallOw _ _ _ h))
    · exact inv_l1Fill _ _ _ _ _ (inv_windowTake _ _ _ _ (inv_recallOw _ _ _ h))
    · exact inv_l1Fill _ _ _ _ _ (inv_windowTake _ _ _ _ (inv_recallOw _ _ _ h))
    · exact inv_homeRead _ _ h
theorem inv_l1Update (s : State) (k line : Nat) (m : LineMask) (d : Line) (h : Safety.Inv s) : Safety.Inv (l1Update s k line m d) :=
  inv_modCore_spads _ _ _ h (fun _ => rfl)

/-! ## Bytes -/

/-- Dropping copies that are not dirty, and what a slice notes of a line, write no byte. -/
@[simp] theorem dropTracked_mem (s : State) (line : Nat) (e : Option Nat) : (dropTracked s line e).mem = s.mem := rfl
@[simp] theorem llcTouch_mem (s : State) (line : Nat) (d : BitVec 4) : (llcTouch s line d).mem = s.mem := rfl
@[simp] theorem llcForget_mem (s : State) (line : Nat) : (llcForget s line).mem = s.mem := rfl
@[simp] theorem setRecord_mem (s : State) (line : Nat) (r : Option (Nat × Nat × AScope)) : (setRecord s line r).mem = s.mem := rfl
@[simp] theorem llcValid_mem (s : State) (line : Nat) (a b : BitVec 4) : (llcValid s line a b).mem = s.mem := rfl
@[simp] theorem fabSnoop_mem (s : State) (line : Nat) (k : Bool) : (fabSnoop s line k).mem = s.mem := by unfold fabSnoop; split <;> rfl
theorem mem_foldl {α : Type} (f : State → α → State) (l : List α) (s : State) (k : ∀ u a, (f u a).mem = u.mem) : (l.foldl f s).mem = s.mem := by
  induction l generalizing s with
  | nil => rfl
  | cons a l ih => exact (ih _).trans (k _ _)
@[simp] theorem snoopSend_mem (s : State) (half : Nat) (keep : Bool) : (snoopSend s half keep).mem = s.mem := by unfold snoopSend; split <;> rfl
@[simp] theorem snoopAll_mem (s : State) (w : Bool) (hs : List Nat) : (snoopAll s w hs).mem = s.mem :=
  mem_foldl _ _ _ (fun u a => by split <;> simp)
@[simp] theorem dropUtOf_mem (s : State) (c : Nat) (w : Nat → Bool) : (dropUtOf s c w).mem = s.mem := by
  unfold dropUtOf; split
  · exact mem_foldl _ _ _ (fun u a => by simp)
  · simp
@[simp] theorem windowTake_mem (s : State) (line : Nat) (m : LineMask) (own : Bool) : (windowTake s line m own).mem = s.mem := by
  unfold windowTake; split
  · rfl
  · exact mem_foldl _ _ _ (fun u a => rfl)
@[simp] theorem settleMonitor_mem (s : State) (gk : Nat) : (settleMonitor s gk).mem = s.mem := by
  unfold settleMonitor; split
  · rfl
  · split
    · rfl
    · split
      · rfl
      · dsimp only; rw [boundary_mem]; split <;> simp
@[simp] theorem noteWrite_mem (s : State) (line : Nat) : (noteWrite s line).mem = s.mem := by
  unfold noteWrite; dsimp only
  rw [mem_foldl _ _ _ (fun u a => by split <;> rfl)]
  split
  · rfl
  · exact mem_foldl _ _ _ (fun u a => settleMonitor_mem u a)
/-- R161: a byte of memory after a write served by the home slice: the bytes under the mask are the written ones, the others those that
the owner and memory had. -/
theorem memAt_homeWrite (s : State) (line : Nat) (m : LineMask) (d : Line) (p : BitVec 4) (w : Option Nat) (a : Nat) (h : Safety.Inv s) :
    memAt (homeWrite s w line m d p) a =
      if a / 128 = line ∧ m.getLsbD (a % 128) = true then d.extractLsb' (8 * (a % 128)) 8 else memAt (recallOw s line w) a := by
  have e := memAt_memMerge (dropTracked (recallOw s line w) line w) line m d p a (inv_dropTracked _ _ _ (inv_recallOw _ _ _ h))
  unfold homeWrite
  simp only [memAt, noteWrite_mem, setRecord_mem, llcTouch_mem, dropTracked_mem] at e ⊢
  exact e

end Sys2Proof.Laws
end

