-- ==== Sys2Proof/Laws/PerInstr.lean ====
section
/-! SUPPORT. Family Encoding: the number of an instruction's word fits 32 bits, so that the encoder drops no bit of it: one lemma
for each constructor of Instr. -/

namespace Sys2Proof.Laws

set_option Elab.async false

/-- An encoded instruction's number fits a word. -/
def Encoding.Statement (i : Instr) : Prop := ∀ n, encodeNat i = some n → n < 2 ^ 32

/-! ## Bounds of the fields -/

theorem Encoding.Width_code (x : Width) : x.code < 4 := by cases x <;> decide
theorem Encoding.SWidth_code (x : SWidth) : x.code < 4 := by cases x <;> decide
theorem Encoding.FFmt_code (x : FFmt) : x.code < 4 := by cases x <;> decide
theorem Encoding.PFmt_code (x : PFmt) : x.code < 3 := by cases x <;> decide
theorem Encoding.CFmt_code (x : CFmt) : x.code < 6 := by cases x <;> decide
theorem Encoding.IntTy_code (x : IntTy) : x.code < 8 := by cases x <;> decide
theorem Encoding.ICond_code (x : ICond) : x.code < 10 := by cases x <;> decide
theorem Encoding.FCond_code (x : FCond) : x.code < 8 := by cases x <;> decide
theorem Encoding.LaneOp_code (x : LaneOp) : x.code < 8 := by cases x <;> decide
theorem Encoding.FOp_code (x : FOp) : x.code < 3 := by cases x <;> decide
theorem Encoding.ShMode_code (x : ShMode) : x.code < 4 := by cases x <;> decide
theorem Encoding.VoteMode_code (x : VoteMode) : x.code < 3 := by cases x <;> decide
theorem Encoding.MType_code (x : MType) : x.code < 4 := by cases x <;> decide
theorem Encoding.MSize_code (x : MSize) : x.code < 4 := by cases x <;> decide
theorem Encoding.CwOp_code (x : CwOp) : x.code < 4 := by cases x <;> decide
theorem Encoding.MqaF_code (x : MqaF) : x.code < 4 := by cases x <;> decide
theorem Encoding.MqaxF_code (x : MqaxF) : x.code < 3 := by cases x <;> decide
theorem Encoding.MqaiF_code (x : MqaiF) : x.code < 3 := by cases x <;> decide
theorem Encoding.SmF_code (x : SmF) : x.code < 3 := by cases x <;> decide
theorem Encoding.AOrd_code (x : AOrd) : x.code < 4 := by cases x <;> decide
theorem Encoding.AScope_code (x : AScope) : x.code < 4 := by cases x <;> decide
theorem Encoding.FKind_code (x : FKind) : x.code < 3 := by cases x <;> decide
theorem Encoding.Scope_code (x : Scope) : x.code < 7 := by cases x <;> decide
theorem Encoding.RedTy_code (x : RedTy) : x.code < 7 := by cases x <;> decide
theorem Encoding.RedOp_code (x : RedOp) : x.code < 6 := by cases x <;> decide
theorem Encoding.RFmt_code (x : RFmt) : x.code < 2 := by cases x <;> decide
theorem Encoding.AOp_code (x : AOp) : x.code < 25 := by cases x <;> decide
theorem Encoding.F8_code (x : F8) : x.code < 2 := by cases x <;> decide
theorem Encoding.SpFmt_code (x : SpFmt) : x.code < 4 := by cases x <;> decide
theorem Encoding.DFmt_code (x : DFmt) : x.code < 4 := by cases x <;> decide
theorem Encoding.PkW_code (x : PkW) : x.code < 4 := by cases x <;> decide
theorem Encoding.Src_code (x : Src) : x.code < 107 := by cases x <;> simp only [Src.code] <;> omega
theorem Encoding.Dst_code (x : Dst) : x.code.1 < 99 ∧ x.code.2 < 2 := by cases x <;> simp only [Dst.code] <;> omega
theorem Encoding.Reg_code (x : Reg) : x.code < 96 := by cases x <;> simp only [Reg.code] <;> omega
theorem Encoding.MatB_code (x : MatB) : x.code < 128 := by cases x <;> simp only [MatB.code] <;> omega
theorem Encoding.LoopCount_code (x : LoopCount) : x.code < 128 := by cases x <;> simp only [LoopCount.code] <;> omega
theorem Encoding.incCode_lt (x : Option (Fin 32)) : incCode x < 96 := by cases x <;> simp only [incCode] <;> omega

/-! ## Words -/

theorem Encoding.clauseHeader (x0 : BitVec 4) (x1 : BitVec 2) (x2 : Bool) (x3 : Bool) (x4 : BitVec 6) (x5 : Bool) (x6 : BitVec 4) (x7 : Bool) (x8 : Bool) (x9 : Bool) : Encoding.Statement (.clauseHeader x0 x1 x2 x3 x4 x5 x6 x7 x8 x9) := by
  intro _ h; injection h with h; have := x0.isLt; have := x1.isLt; have := Bool.toNat_lt x2; have := Bool.toNat_lt x3; have := x4.isLt; have := Bool.toNat_lt x5; have := x6.isLt; have := Bool.toNat_lt x7; have := Bool.toNat_lt x8; have := Bool.toNat_lt x9; subst h; omega
theorem Encoding.pathAged (x0 : Nat) (x1 : Nat) : Encoding.Statement (.pathAged x0 x1) := by intro _ h; cases h
theorem Encoding.nop : Encoding.Statement .nop := by intro _ h; injection h with h; omega
theorem Encoding.pfx (x0 : Fin 8) (x1 : Bool) (x2 : BitVec 3) (x3 : Bool) (x4 : BitVec 7) (x5 : Bool) (x6 : BitVec 4) : Encoding.Statement (.pfx x0 x1 x2 x3 x4 x5 x6) := by
  intro _ h; injection h with h; have := x0.isLt; have := Bool.toNat_lt x1; have := x2.isLt; have := Bool.toNat_lt x3; have := x4.isLt; have := Bool.toNat_lt x5; have := x6.isLt; subst h; omega
theorem Encoding.udf (x0 : BitVec 24) : Encoding.Statement (.udf x0) := by
  intro _ h; injection h with h; have := x0.isLt; subst h; omega
theorem Encoding.bra (x0 : Target) : Encoding.Statement (.bra x0) := by
  intro _ h; injection h with h; have := x0.ovr.isLt; have := x0.wix.isLt; subst h; simp only [encT, encB]; omega
theorem Encoding.brc (x0 : Fin 8) (x1 : Bool) (x2 : Target) : Encoding.Statement (.brc x0 x1 x2) := by
  intro _ h; injection h with h; have := x0.isLt; have := Bool.toNat_lt x1; have := x2.ovr.isLt; have := x2.wix.isLt; subst h; simp only [encT, encB]; omega
theorem Encoding.jmp (x0 : Reg) : Encoding.Statement (.jmp x0) := by
  intro _ h; injection h with h; have := Encoding.Reg_code x0; subst h; simp only [encR]; omega
theorem Encoding.call (x0 : Target) : Encoding.Statement (.call x0) := by
  intro _ h; injection h with h; have := x0.ovr.isLt; have := x0.wix.isLt; subst h; simp only [encT, encB]; omega
theorem Encoding.calli (x0 : Reg) : Encoding.Statement (.calli x0) := by
  intro _ h; injection h with h; have := Encoding.Reg_code x0; subst h; simp only [encR]; omega
theorem Encoding.ret : Encoding.Statement .ret := by intro _ h; injection h with h; omega
theorem Encoding.fork (x0 : Fin 8) (x1 : Bool) (x2 : Target) : Encoding.Statement (.fork x0 x1 x2) := by
  intro _ h; injection h with h; have := x0.isLt; have := Bool.toNat_lt x1; have := x2.ovr.isLt; have := x2.wix.isLt; subst h; simp only [encT, encB]; omega
theorem Encoding.fend (x0 : Sel) : Encoding.Statement (.fend x0) := by
  intro _ h; injection h with h; subst h
  rcases x0 with _ | ⟨p, n⟩
  · simp only [encSel, encB]; omega
  · have := p.isLt; have := Bool.toNat_lt n; simp only [encSel, encB]; omega
theorem Encoding.groupEnd (x0 : Nat) : Encoding.Statement (.groupEnd x0) := by intro _ h; cases h
theorem Encoding.rejoin (x0 : Target) : Encoding.Statement (.rejoin x0) := by
  intro _ h; injection h with h; have := x0.ovr.isLt; have := x0.wix.isLt; subst h; simp only [encT, encB]; omega
theorem Encoding.brk (x0 : Sel) (x1 : BitVec 4) : Encoding.Statement (.brk x0 x1) := by
  intro _ h; injection h with h; have := x1.isLt; subst h
  rcases x0 with _ | ⟨p, n⟩
  · simp only [encSel, encB]; omega
  · have := p.isLt; have := Bool.toNat_lt n; simp only [encSel, encB]; omega
theorem Encoding.demote (x0 : Sel) : Encoding.Statement (.demote x0) := by
  intro _ h; injection h with h; subst h
  rcases x0 with _ | ⟨p, n⟩
  · simp only [encSel, encB]; omega
  · have := p.isLt; have := Bool.toNat_lt n; simp only [encSel, encB]; omega
theorem Encoding.loop (x0 : BitVec 4) (x1 : LoopCount) (x2 : Option (Fin 32)) : Encoding.Statement (.loop x0 x1 x2) := by
  intro _ h; injection h with h; have := x0.isLt; have := Encoding.LoopCount_code x1; have := Encoding.incCode_lt x2; subst h; simp only [encR]; omega
theorem Encoding.lend : Encoding.Statement .lend := by intro _ h; injection h with h; omega
theorem Encoding.bar (x0 : Fin 16) : Encoding.Statement (.bar x0) := by
  intro _ h; injection h with h; have := x0.isLt; subst h; simp only [encI]; omega
theorem Encoding.launch (x0 : Fin 32) (x1 : Fin 32) : Encoding.Statement (.launch x0 x1) := by
  intro _ h; injection h with h; have := x0.isLt; have := x1.isLt; subst h; simp only [encSS, encR]; omega
theorem Encoding.cwset (x0 : CwOp) (x1 : Fin 32) (x2 : Fin 32) : Encoding.Statement (.cwset x0 x1 x2) := by
  intro _ h; injection h with h; have := Encoding.CwOp_code x0; have := x1.isLt; have := x2.isLt; subst h; simp only [encSS, encR]; omega
theorem Encoding.mwait (x0 : Fin 32) (x1 : Fin 32) : Encoding.Statement (.mwait x0 x1) := by
  intro _ h; injection h with h; have := x0.isLt; have := x1.isLt; subst h; simp only [encSS, encR]; omega
theorem Encoding.mwaitTimeout (x0 : Nat) (x1 : Nat) : Encoding.Statement (.mwaitTimeout x0 x1) := by intro _ h; cases h
theorem Encoding.marm (x0 : Fin 32) (x1 : Fin 32) : Encoding.Statement (.marm x0 x1) := by
  intro _ h; injection h with h; have := x0.isLt; have := x1.isLt; subst h; simp only [encSS, encR]; omega
theorem Encoding.yield (x0 : BitVec 9) : Encoding.Statement (.yield x0) := by
  intro _ h; injection h with h; have := x0.isLt; subst h; simp only [encI]; omega
theorem Encoding.yieldExpiry (x0 : Nat) (x1 : Nat) : Encoding.Statement (.yieldExpiry x0 x1) := by intro _ h; cases h
theorem Encoding.movw (x0 : Fin 4) (x1 : Reg) (x2 : Bool) (x3 : BitVec 16) : Encoding.Statement (.movw x0 x1 x2 x3) := by
  intro _ h; injection h with h; have := x0.isLt; have := Encoding.Reg_code x1; have := Bool.toNat_lt x2; have := x3.isLt; subst h; omega
theorem Encoding.mov (x0 : Dst) (x1 : Src) : Encoding.Statement (.mov x0 x1) := by
  intro _ h; injection h with h; have := Encoding.Dst_code x0; have := Encoding.Src_code x1; subst h; simp only [encDA, encR]; omega
theorem Encoding.sel (x0 : Dst) (x1 : Src) (x2 : Src) (x3 : Width) : Encoding.Statement (.sel x0 x1 x2 x3) := by
  intro _ h; injection h with h; have := Encoding.Dst_code x0; have := Encoding.Src_code x1; have := Encoding.Src_code x2; have := Encoding.Width_code x3; subst h; simp only [encDAB, encR]; omega
theorem Encoding.add (x0 : Dst) (x1 : Src) (x2 : Src) (x3 : Width) : Encoding.Statement (.add x0 x1 x2 x3) := by
  intro _ h; injection h with h; have := Encoding.Dst_code x0; have := Encoding.Src_code x1; have := Encoding.Src_code x2; have := Encoding.Width_code x3; subst h; simp only [encDAB, encR]; omega
theorem Encoding.sub (x0 : Dst) (x1 : Src) (x2 : Src) (x3 : Width) : Encoding.Statement (.sub x0 x1 x2 x3) := by
  intro _ h; injection h with h; have := Encoding.Dst_code x0; have := Encoding.Src_code x1; have := Encoding.Src_code x2; have := Encoding.Width_code x3; subst h; simp only [encDAB, encR]; omega
theorem Encoding.addi (x0 : Dst) (x1 : Src) (x2 : BitVec 9) : Encoding.Statement (.addi x0 x1 x2) := by
  intro _ h; injection h with h; have := Encoding.Dst_code x0; have := Encoding.Src_code x1; have := x2.isLt; subst h; simp only [encIDA, encI]; omega
theorem Encoding.mul (x0 : Dst) (x1 : Src) (x2 : Src) (x3 : Width) : Encoding.Statement (.mul x0 x1 x2 x3) := by
  intro _ h; injection h with h; have := Encoding.Dst_code x0; have := Encoding.Src_code x1; have := Encoding.Src_code x2; have := Encoding.Width_code x3; subst h; simp only [encDAB, encR]; omega
theorem Encoding.mulhi (x0 : Dst) (x1 : Src) (x2 : Src) (x3 : SWidth) : Encoding.Statement (.mulhi x0 x1 x2 x3) := by
  intro _ h; injection h with h; have := Encoding.Dst_code x0; have := Encoding.Src_code x1; have := Encoding.Src_code x2; have := Encoding.SWidth_code x3; subst h; simp only [encDAB, encR]; omega
theorem Encoding.mad (x0 : Dst) (x1 : Src) (x2 : Src) (x3 : Width) : Encoding.Statement (.mad x0 x1 x2 x3) := by
  intro _ h; injection h with h; have := Encoding.Dst_code x0; have := Encoding.Src_code x1; have := Encoding.Src_code x2; have := Encoding.Width_code x3; subst h; simp only [encDAB, encR]; omega
theorem Encoding.div (x0 : Dst) (x1 : Src) (x2 : Src) (x3 : SWidth) : Encoding.Statement (.div x0 x1 x2 x3) := by
  intro _ h; injection h with h; have := Encoding.Dst_code x0; have := Encoding.Src_code x1; have := Encoding.Src_code x2; have := Encoding.SWidth_code x3; subst h; simp only [encDAB, encR]; omega
theorem Encoding.rem (x0 : Dst) (x1 : Src) (x2 : Src) (x3 : SWidth) : Encoding.Statement (.rem x0 x1 x2 x3) := by
  intro _ h; injection h with h; have := Encoding.Dst_code x0; have := Encoding.Src_code x1; have := Encoding.Src_code x2; have := Encoding.SWidth_code x3; subst h; simp only [encDAB, encR]; omega
theorem Encoding.min (x0 : Dst) (x1 : Src) (x2 : Src) (x3 : SWidth) : Encoding.Statement (.min x0 x1 x2 x3) := by
  intro _ h; injection h with h; have := Encoding.Dst_code x0; have := Encoding.Src_code x1; have := Encoding.Src_code x2; have := Encoding.SWidth_code x3; subst h; simp only [encDAB, encR]; omega
theorem Encoding.max (x0 : Dst) (x1 : Src) (x2 : Src) (x3 : SWidth) : Encoding.Statement (.max x0 x1 x2 x3) := by
  intro _ h; injection h with h; have := Encoding.Dst_code x0; have := Encoding.Src_code x1; have := Encoding.Src_code x2; have := Encoding.SWidth_code x3; subst h; simp only [encDAB, encR]; omega
theorem Encoding.abs (x0 : Dst) (x1 : Src) (x2 : Width) : Encoding.Statement (.abs x0 x1 x2) := by
  intro _ h; injection h with h; have := Encoding.Dst_code x0; have := Encoding.Src_code x1; have := Encoding.Width_code x2; subst h; simp only [encDA, encR]; omega
theorem Encoding.neg (x0 : Dst) (x1 : Src) (x2 : Width) : Encoding.Statement (.neg x0 x1 x2) := by
  intro _ h; injection h with h; have := Encoding.Dst_code x0; have := Encoding.Src_code x1; have := Encoding.Width_code x2; subst h; simp only [encDA, encR]; omega
theorem Encoding.adds (x0 : Dst) (x1 : Src) (x2 : Src) (x3 : SWidth) : Encoding.Statement (.adds x0 x1 x2 x3) := by
  intro _ h; injection h with h; have := Encoding.Dst_code x0; have := Encoding.Src_code x1; have := Encoding.Src_code x2; have := Encoding.SWidth_code x3; subst h; simp only [encDAB, encR]; omega
theorem Encoding.subs (x0 : Dst) (x1 : Src) (x2 : Src) (x3 : SWidth) : Encoding.Statement (.subs x0 x1 x2 x3) := by
  intro _ h; injection h with h; have := Encoding.Dst_code x0; have := Encoding.Src_code x1; have := Encoding.Src_code x2; have := Encoding.SWidth_code x3; subst h; simp only [encDAB, encR]; omega
theorem Encoding.and (x0 : Dst) (x1 : Src) (x2 : Src) : Encoding.Statement (.and x0 x1 x2) := by
  intro _ h; injection h with h; have := Encoding.Dst_code x0; have := Encoding.Src_code x1; have := Encoding.Src_code x2; subst h; simp only [encDAB, encR]; omega
theorem Encoding.or (x0 : Dst) (x1 : Src) (x2 : Src) : Encoding.Statement (.or x0 x1 x2) := by
  intro _ h; injection h with h; have := Encoding.Dst_code x0; have := Encoding.Src_code x1; have := Encoding.Src_code x2; subst h; simp only [encDAB, encR]; omega
theorem Encoding.xor (x0 : Dst) (x1 : Src) (x2 : Src) : Encoding.Statement (.xor x0 x1 x2) := by
  intro _ h; injection h with h; have := Encoding.Dst_code x0; have := Encoding.Src_code x1; have := Encoding.Src_code x2; subst h; simp only [encDAB, encR]; omega
theorem Encoding.andn (x0 : Dst) (x1 : Src) (x2 : Src) : Encoding.Statement (.andn x0 x1 x2) := by
  intro _ h; injection h with h; have := Encoding.Dst_code x0; have := Encoding.Src_code x1; have := Encoding.Src_code x2; subst h; simp only [encDAB, encR]; omega
theorem Encoding.andi (x0 : Dst) (x1 : Src) (x2 : BitVec 9) : Encoding.Statement (.andi x0 x1 x2) := by
  intro _ h; injection h with h; have := Encoding.Dst_code x0; have := Encoding.Src_code x1; have := x2.isLt; subst h; simp only [encIDA, encI]; omega
theorem Encoding.ori (x0 : Dst) (x1 : Src) (x2 : BitVec 9) : Encoding.Statement (.ori x0 x1 x2) := by
  intro _ h; injection h with h; have := Encoding.Dst_code x0; have := Encoding.Src_code x1; have := x2.isLt; subst h; simp only [encIDA, encI]; omega
theorem Encoding.xori (x0 : Dst) (x1 : Src) (x2 : BitVec 9) : Encoding.Statement (.xori x0 x1 x2) := by
  intro _ h; injection h with h; have := Encoding.Dst_code x0; have := Encoding.Src_code x1; have := x2.isLt; subst h; simp only [encIDA, encI]; omega
theorem Encoding.shl (x0 : Dst) (x1 : Src) (x2 : Src) (x3 : Width) : Encoding.Statement (.shl x0 x1 x2 x3) := by
  intro _ h; injection h with h; have := Encoding.Dst_code x0; have := Encoding.Src_code x1; have := Encoding.Src_code x2; have := Encoding.Width_code x3; subst h; simp only [encDAB, encR]; omega
theorem Encoding.shr (x0 : Dst) (x1 : Src) (x2 : Src) (x3 : Width) : Encoding.Statement (.shr x0 x1 x2 x3) := by
  intro _ h; injection h with h; have := Encoding.Dst_code x0; have := Encoding.Src_code x1; have := Encoding.Src_code x2; have := Encoding.Width_code x3; subst h; simp only [encDAB, encR]; omega
theorem Encoding.sar (x0 : Dst) (x1 : Src) (x2 : Src) (x3 : Width) : Encoding.Statement (.sar x0 x1 x2 x3) := by
  intro _ h; injection h with h; have := Encoding.Dst_code x0; have := Encoding.Src_code x1; have := Encoding.Src_code x2; have := Encoding.Width_code x3; subst h; simp only [encDAB, encR]; omega
theorem Encoding.rot (x0 : Dst) (x1 : Src) (x2 : Src) (x3 : Width) : Encoding.Statement (.rot x0 x1 x2 x3) := by
  intro _ h; injection h with h; have := Encoding.Dst_code x0; have := Encoding.Src_code x1; have := Encoding.Src_code x2; have := Encoding.Width_code x3; subst h; simp only [encDAB, encR]; omega
theorem Encoding.shli (x0 : Dst) (x1 : Src) (x2 : Width) (x3 : BitVec 6) : Encoding.Statement (.shli x0 x1 x2 x3) := by
  intro _ h; injection h with h; have := Encoding.Dst_code x0; have := Encoding.Src_code x1; have := Encoding.Width_code x2; have := x3.isLt; subst h; simp only [encIDA, encI]; omega
theorem Encoding.shri (x0 : Dst) (x1 : Src) (x2 : Width) (x3 : BitVec 6) : Encoding.Statement (.shri x0 x1 x2 x3) := by
  intro _ h; injection h with h; have := Encoding.Dst_code x0; have := Encoding.Src_code x1; have := Encoding.Width_code x2; have := x3.isLt; subst h; simp only [encIDA, encI]; omega
theorem Encoding.sari (x0 : Dst) (x1 : Src) (x2 : Width) (x3 : BitVec 6) : Encoding.Statement (.sari x0 x1 x2 x3) := by
  intro _ h; injection h with h; have := Encoding.Dst_code x0; have := Encoding.Src_code x1; have := Encoding.Width_code x2; have := x3.isLt; subst h; simp only [encIDA, encI]; omega
theorem Encoding.clz (x0 : Dst) (x1 : Src) (x2 : Width) : Encoding.Statement (.clz x0 x1 x2) := by
  intro _ h; injection h with h; have := Encoding.Dst_code x0; have := Encoding.Src_code x1; have := Encoding.Width_code x2; subst h; simp only [encDA, encR]; omega
theorem Encoding.popc (x0 : Dst) (x1 : Src) (x2 : Width) : Encoding.Statement (.popc x0 x1 x2) := by
  intro _ h; injection h with h; have := Encoding.Dst_code x0; have := Encoding.Src_code x1; have := Encoding.Width_code x2; subst h; simp only [encDA, encR]; omega
theorem Encoding.brev (x0 : Dst) (x1 : Src) (x2 : Width) : Encoding.Statement (.brev x0 x1 x2) := by
  intro _ h; injection h with h; have := Encoding.Dst_code x0; have := Encoding.Src_code x1; have := Encoding.Width_code x2; subst h; simp only [encDA, encR]; omega
theorem Encoding.bfx (x0 : Dst) (x1 : Src) (x2 : Src) (x3 : Bool) : Encoding.Statement (.bfx x0 x1 x2 x3) := by
  intro _ h; injection h with h; have := Encoding.Dst_code x0; have := Encoding.Src_code x1; have := Encoding.Src_code x2; have := Bool.toNat_lt x3; subst h; simp only [encDAB, encR]; omega
theorem Encoding.bfi (x0 : Dst) (x1 : Src) (x2 : Src) : Encoding.Statement (.bfi x0 x1 x2) := by
  intro _ h; injection h with h; have := Encoding.Dst_code x0; have := Encoding.Src_code x1; have := Encoding.Src_code x2; subst h; simp only [encDAB, encR]; omega
theorem Encoding.bdep (x0 : Dst) (x1 : Src) (x2 : Src) : Encoding.Statement (.bdep x0 x1 x2) := by
  intro _ h; injection h with h; have := Encoding.Dst_code x0; have := Encoding.Src_code x1; have := Encoding.Src_code x2; subst h; simp only [encDAB, encR]; omega
theorem Encoding.bext (x0 : Dst) (x1 : Src) (x2 : Src) : Encoding.Statement (.bext x0 x1 x2) := by
  intro _ h; injection h with h; have := Encoding.Dst_code x0; have := Encoding.Src_code x1; have := Encoding.Src_code x2; subst h; simp only [encDAB, encR]; omega
theorem Encoding.perm (x0 : Dst) (x1 : Src) (x2 : Reg) : Encoding.Statement (.perm x0 x1 x2) := by
  intro _ h; injection h with h; have := Encoding.Dst_code x0; have := Encoding.Src_code x1; have := Encoding.Reg_code x2; subst h; simp only [encR]; omega
theorem Encoding.gfmm (x0 : Dst) (x1 : Src) (x2 : Src) (x3 : Bool) : Encoding.Statement (.gfmm x0 x1 x2 x3) := by
  intro _ h; injection h with h; have := Encoding.Dst_code x0; have := Encoding.Src_code x1; have := Encoding.Src_code x2; have := Bool.toNat_lt x3; subst h; simp only [encDAB, encR]; omega
theorem Encoding.icmp (x0 : ICond) (x1 : Fin 8) (x2 : Src) (x3 : Src) (x4 : Width) : Encoding.Statement (.icmp x0 x1 x2 x3 x4) := by
  intro _ h; injection h with h; have := Encoding.ICond_code x0; have := x1.isLt; have := Encoding.Src_code x2; have := Encoding.Src_code x3; have := Encoding.Width_code x4; subst h; simp only [encR]; omega
theorem Encoding.icmpi (x0 : ICond) (x1 : Fin 8) (x2 : Src) (x3 : BitVec 9) : Encoding.Statement (.icmpi x0 x1 x2 x3) := by
  intro _ h; injection h with h; have := Encoding.ICond_code x0; have := x1.isLt; have := Encoding.Src_code x2; have := x3.isLt; subst h; simp only [encI]; omega
theorem Encoding.plog (x0 : BitVec 4) (x1 : Fin 8) (x2 : Fin 8) (x3 : Fin 8) : Encoding.Statement (.plog x0 x1 x2 x3) := by
  intro _ h; injection h with h; have := x0.isLt; have := x1.isLt; have := x2.isLt; have := x3.isLt; subst h; simp only [encR]; omega
theorem Encoding.pmovToVreg (x0 : Fin 32) (x1 : Fin 8) : Encoding.Statement (.pmovToVreg x0 x1) := by
  intro _ h; injection h with h; have := x0.isLt; have := x1.isLt; subst h; simp only [encR]; omega
theorem Encoding.pmovToPred (x0 : Fin 8) (x1 : Src) : Encoding.Statement (.pmovToPred x0 x1) := by
  intro _ h; injection h with h; have := x0.isLt; have := Encoding.Src_code x1; subst h; simp only [encR]; omega
theorem Encoding.pmovPallToVreg (x0 : Fin 32) : Encoding.Statement (.pmovPallToVreg x0) := by
  intro _ h; injection h with h; have := x0.isLt; subst h; simp only [encR]; omega
theorem Encoding.pmovVregToPall (x0 : Src) : Encoding.Statement (.pmovVregToPall x0) := by
  intro _ h; injection h with h; have := Encoding.Src_code x0; subst h; simp only [encR]; omega
theorem Encoding.lea (x0 : Dst) (x1 : Src) (x2 : Src) (x3 : Fin 4) : Encoding.Statement (.lea x0 x1 x2 x3) := by
  intro _ h; injection h with h; have := Encoding.Dst_code x0; have := Encoding.Src_code x1; have := Encoding.Src_code x2; have := x3.isLt; subst h; simp only [encDAB, encR]; omega
theorem Encoding.sext (x0 : Dst) (x1 : Src) (x2 : Fin 3) : Encoding.Statement (.sext x0 x1 x2) := by
  intro _ h; injection h with h; have := Encoding.Dst_code x0; have := Encoding.Src_code x1; have := x2.isLt; subst h; simp only [encDA, encR]; omega
theorem Encoding.zext (x0 : Dst) (x1 : Src) (x2 : Fin 3) : Encoding.Statement (.zext x0 x1 x2) := by
  intro _ h; injection h with h; have := Encoding.Dst_code x0; have := Encoding.Src_code x1; have := x2.isLt; subst h; simp only [encDA, encR]; omega
theorem Encoding.shfl (x0 : Dst) (x1 : Src) (x2 : Src) (x3 : ShMode) : Encoding.Statement (.shfl x0 x1 x2 x3) := by
  intro _ h; injection h with h; have := Encoding.Dst_code x0; have := Encoding.Src_code x1; have := Encoding.Src_code x2; have := Encoding.ShMode_code x3; subst h; simp only [encDAB, encR]; omega
theorem Encoding.bcast (x0 : Dst) (x1 : Src) (x2 : Src) : Encoding.Statement (.bcast x0 x1 x2) := by
  intro _ h; injection h with h; have := Encoding.Dst_code x0; have := Encoding.Src_code x1; have := Encoding.Src_code x2; subst h; simp only [encDAB, encR]; omega
theorem Encoding.bcastFirst (x0 : Dst) (x1 : Src) : Encoding.Statement (.bcastFirst x0 x1) := by
  intro _ h; injection h with h; have := Encoding.Dst_code x0; have := Encoding.Src_code x1; subst h; simp only [encDA, encR]; omega
theorem Encoding.vote (x0 : Dst) (x1 : Fin 8) (x2 : VoteMode) : Encoding.Statement (.vote x0 x1 x2) := by
  intro _ h; injection h with h; have := Encoding.Dst_code x0; have := x1.isLt; have := Encoding.VoteMode_code x2; subst h; simp only [encR]; omega
theorem Encoding.ired (x0 : Dst) (x1 : Src) (x2 : LaneOp) : Encoding.Statement (.ired x0 x1 x2) := by
  intro _ h; injection h with h; have := Encoding.Dst_code x0; have := Encoding.Src_code x1; have := Encoding.LaneOp_code x2; subst h; simp only [encDA, encR]; omega
theorem Encoding.iscan (x0 : Dst) (x1 : Src) (x2 : LaneOp) (x3 : Bool) : Encoding.Statement (.iscan x0 x1 x2 x3) := by
  intro _ h; injection h with h; have := Encoding.Dst_code x0; have := Encoding.Src_code x1; have := Encoding.LaneOp_code x2; have := Bool.toNat_lt x3; subst h; simp only [encDA, encR]; omega
theorem Encoding.fadd (x0 : Dst) (x1 : Src) (x2 : Src) (x3 : FFmt) : Encoding.Statement (.fadd x0 x1 x2 x3) := by
  intro _ h; injection h with h; have := Encoding.Dst_code x0; have := Encoding.Src_code x1; have := Encoding.Src_code x2; have := Encoding.FFmt_code x3; subst h; simp only [encDAB, encR]; omega
theorem Encoding.fsub (x0 : Dst) (x1 : Src) (x2 : Src) (x3 : FFmt) : Encoding.Statement (.fsub x0 x1 x2 x3) := by
  intro _ h; injection h with h; have := Encoding.Dst_code x0; have := Encoding.Src_code x1; have := Encoding.Src_code x2; have := Encoding.FFmt_code x3; subst h; simp only [encDAB, encR]; omega
theorem Encoding.fmul (x0 : Dst) (x1 : Src) (x2 : Src) (x3 : FFmt) : Encoding.Statement (.fmul x0 x1 x2 x3) := by
  intro _ h; injection h with h; have := Encoding.Dst_code x0; have := Encoding.Src_code x1; have := Encoding.Src_code x2; have := Encoding.FFmt_code x3; subst h; simp only [encDAB, encR]; omega
theorem Encoding.ffma (x0 : Dst) (x1 : Src) (x2 : Src) (x3 : FFmt) : Encoding.Statement (.ffma x0 x1 x2 x3) := by
  intro _ h; injection h with h; have := Encoding.Dst_code x0; have := Encoding.Src_code x1; have := Encoding.Src_code x2; have := Encoding.FFmt_code x3; subst h; simp only [encDAB, encR]; omega
theorem Encoding.fmin (x0 : Dst) (x1 : Src) (x2 : Src) (x3 : FFmt) : Encoding.Statement (.fmin x0 x1 x2 x3) := by
  intro _ h; injection h with h; have := Encoding.Dst_code x0; have := Encoding.Src_code x1; have := Encoding.Src_code x2; have := Encoding.FFmt_code x3; subst h; simp only [encDAB, encR]; omega
theorem Encoding.fmax (x0 : Dst) (x1 : Src) (x2 : Src) (x3 : FFmt) : Encoding.Statement (.fmax x0 x1 x2 x3) := by
  intro _ h; injection h with h; have := Encoding.Dst_code x0; have := Encoding.Src_code x1; have := Encoding.Src_code x2; have := Encoding.FFmt_code x3; subst h; simp only [encDAB, encR]; omega
theorem Encoding.fabs (x0 : Dst) (x1 : Src) (x2 : FFmt) : Encoding.Statement (.fabs x0 x1 x2) := by
  intro _ h; injection h with h; have := Encoding.Dst_code x0; have := Encoding.Src_code x1; have := Encoding.FFmt_code x2; subst h; simp only [encDA, encR]; omega
theorem Encoding.fneg (x0 : Dst) (x1 : Src) (x2 : FFmt) : Encoding.Statement (.fneg x0 x1 x2) := by
  intro _ h; injection h with h; have := Encoding.Dst_code x0; have := Encoding.Src_code x1; have := Encoding.FFmt_code x2; subst h; simp only [encDA, encR]; omega
theorem Encoding.fdiv (x0 : Dst) (x1 : Src) (x2 : Src) (x3 : FFmt) : Encoding.Statement (.fdiv x0 x1 x2 x3) := by
  intro _ h; injection h with h; have := Encoding.Dst_code x0; have := Encoding.Src_code x1; have := Encoding.Src_code x2; have := Encoding.FFmt_code x3; subst h; simp only [encDAB, encR]; omega
theorem Encoding.fsqrt (x0 : Dst) (x1 : Src) (x2 : FFmt) : Encoding.Statement (.fsqrt x0 x1 x2) := by
  intro _ h; injection h with h; have := Encoding.Dst_code x0; have := Encoding.Src_code x1; have := Encoding.FFmt_code x2; subst h; simp only [encDA, encR]; omega
theorem Encoding.frcp (x0 : Dst) (x1 : Src) (x2 : FFmt) : Encoding.Statement (.frcp x0 x1 x2) := by
  intro _ h; injection h with h; have := Encoding.Dst_code x0; have := Encoding.Src_code x1; have := Encoding.FFmt_code x2; subst h; simp only [encDA, encR]; omega
theorem Encoding.frsq (x0 : Dst) (x1 : Src) (x2 : FFmt) : Encoding.Statement (.frsq x0 x1 x2) := by
  intro _ h; injection h with h; have := Encoding.Dst_code x0; have := Encoding.Src_code x1; have := Encoding.FFmt_code x2; subst h; simp only [encDA, encR]; omega
theorem Encoding.fcmp (x0 : FCond) (x1 : Fin 8) (x2 : Src) (x3 : Src) (x4 : FFmt) : Encoding.Statement (.fcmp x0 x1 x2 x3 x4) := by
  intro _ h; injection h with h; have := Encoding.FCond_code x0; have := x1.isLt; have := Encoding.Src_code x2; have := Encoding.Src_code x3; have := Encoding.FFmt_code x4; subst h; simp only [encR]; omega
theorem Encoding.fclass (x0 : Dst) (x1 : Src) (x2 : FFmt) : Encoding.Statement (.fclass x0 x1 x2) := by
  intro _ h; injection h with h; have := Encoding.Dst_code x0; have := Encoding.Src_code x1; have := Encoding.FFmt_code x2; subst h; simp only [encDA, encR]; omega
theorem Encoding.fcpys (x0 : Dst) (x1 : Src) (x2 : Src) (x3 : FFmt) : Encoding.Statement (.fcpys x0 x1 x2 x3) := by
  intro _ h; injection h with h; have := Encoding.Dst_code x0; have := Encoding.Src_code x1; have := Encoding.Src_code x2; have := Encoding.FFmt_code x3; subst h; simp only [encDAB, encR]; omega
theorem Encoding.fdot2 (x0 : Dst) (x1 : Src) (x2 : Src) (x3 : DFmt) : Encoding.Statement (.fdot2 x0 x1 x2 x3) := by
  intro _ h; injection h with h; have := Encoding.Dst_code x0; have := Encoding.Src_code x1; have := Encoding.Src_code x2; have := Encoding.DFmt_code x3; subst h; simp only [encDAB, encR]; omega
theorem Encoding.fexp2 (x0 : Dst) (x1 : Src) (x2 : SpFmt) : Encoding.Statement (.fexp2 x0 x1 x2) := by
  intro _ h; injection h with h; have := Encoding.Dst_code x0; have := Encoding.Src_code x1; have := Encoding.SpFmt_code x2; subst h; simp only [encDA, encR]; omega
theorem Encoding.flog2 (x0 : Dst) (x1 : Src) (x2 : SpFmt) : Encoding.Statement (.flog2 x0 x1 x2) := by
  intro _ h; injection h with h; have := Encoding.Dst_code x0; have := Encoding.Src_code x1; have := Encoding.SpFmt_code x2; subst h; simp only [encDA, encR]; omega
theorem Encoding.fsin (x0 : Dst) (x1 : Src) (x2 : SpFmt) : Encoding.Statement (.fsin x0 x1 x2) := by
  intro _ h; injection h with h; have := Encoding.Dst_code x0; have := Encoding.Src_code x1; have := Encoding.SpFmt_code x2; subst h; simp only [encDA, encR]; omega
theorem Encoding.fcos (x0 : Dst) (x1 : Src) (x2 : SpFmt) : Encoding.Statement (.fcos x0 x1 x2) := by
  intro _ h; injection h with h; have := Encoding.Dst_code x0; have := Encoding.Src_code x1; have := Encoding.SpFmt_code x2; subst h; simp only [encDA, encR]; omega
theorem Encoding.ftanh (x0 : Dst) (x1 : Src) (x2 : SpFmt) : Encoding.Statement (.ftanh x0 x1 x2) := by
  intro _ h; injection h with h; have := Encoding.Dst_code x0; have := Encoding.Src_code x1; have := Encoding.SpFmt_code x2; subst h; simp only [encDA, encR]; omega
theorem Encoding.ferf (x0 : Dst) (x1 : Src) (x2 : SpFmt) : Encoding.Statement (.ferf x0 x1 x2) := by
  intro _ h; injection h with h; have := Encoding.Dst_code x0; have := Encoding.Src_code x1; have := Encoding.SpFmt_code x2; subst h; simp only [encDA, encR]; omega
theorem Encoding.frnd (x0 : Dst) (x1 : Src) (x2 : FFmt) : Encoding.Statement (.frnd x0 x1 x2) := by
  intro _ h; injection h with h; have := Encoding.Dst_code x0; have := Encoding.Src_code x1; have := Encoding.FFmt_code x2; subst h; simp only [encDA, encR]; omega
theorem Encoding.ffrac (x0 : Dst) (x1 : Src) (x2 : FFmt) : Encoding.Statement (.ffrac x0 x1 x2) := by
  intro _ h; injection h with h; have := Encoding.Dst_code x0; have := Encoding.Src_code x1; have := Encoding.FFmt_code x2; subst h; simp only [encDA, encR]; omega
theorem Encoding.fred (x0 : Dst) (x1 : Src) (x2 : FOp) (x3 : RFmt) : Encoding.Statement (.fred x0 x1 x2 x3) := by
  intro _ h; injection h with h; have := Encoding.Dst_code x0; have := Encoding.Src_code x1; have := Encoding.FOp_code x2; have := Encoding.RFmt_code x3; subst h; simp only [encDA, encR]; omega
theorem Encoding.fscan (x0 : Dst) (x1 : Src) (x2 : FOp) (x3 : Bool) (x4 : RFmt) : Encoding.Statement (.fscan x0 x1 x2 x3 x4) := by
  intro _ h; injection h with h; have := Encoding.Dst_code x0; have := Encoding.Src_code x1; have := Encoding.FOp_code x2; have := Bool.toNat_lt x3; have := Encoding.RFmt_code x4; subst h; simp only [encDA, encR]; omega
theorem Encoding.fcvt (x0 : Dst) (x1 : Src) (x2 : CFmt) (x3 : CFmt) (x4 : Bool) : Encoding.Statement (.fcvt x0 x1 x2 x3 x4) := by
  intro _ h; injection h with h; have := Encoding.Dst_code x0; have := Encoding.Src_code x1; have := Encoding.CFmt_code x2; have := Encoding.CFmt_code x3; have := Bool.toNat_lt x4; subst h; simp only [encDA, encR]; omega
theorem Encoding.icvt (x0 : Dst) (x1 : Src) (x2 : FFmt) (x3 : IntTy) : Encoding.Statement (.icvt x0 x1 x2 x3) := by
  intro _ h; injection h with h; have := Encoding.Dst_code x0; have := Encoding.Src_code x1; have := Encoding.FFmt_code x2; have := Encoding.IntTy_code x3; subst h; simp only [encDA, encR]; omega
theorem Encoding.ficvt (x0 : Dst) (x1 : Src) (x2 : CFmt) (x3 : IntTy) : Encoding.Statement (.ficvt x0 x1 x2 x3) := by
  intro _ h; injection h with h; have := Encoding.Dst_code x0; have := Encoding.Src_code x1; have := Encoding.CFmt_code x2; have := Encoding.IntTy_code x3; subst h; simp only [encDA, encR]; omega
theorem Encoding.pack (x0 : Dst) (x1 : Src) (x2 : Src) (x3 : PkW) : Encoding.Statement (.pack x0 x1 x2 x3) := by
  intro _ h; injection h with h; have := Encoding.Dst_code x0; have := Encoding.Src_code x1; have := Encoding.Src_code x2; have := Encoding.PkW_code x3; subst h; simp only [encDAB, encR]; omega
theorem Encoding.unpk (x0 : Dst) (x1 : Src) (x2 : PkW) (x3 : Bool) : Encoding.Statement (.unpk x0 x1 x2 x3) := by
  intro _ h; injection h with h; have := Encoding.Dst_code x0; have := Encoding.Src_code x1; have := Encoding.PkW_code x2; have := Bool.toNat_lt x3; subst h; simp only [encDA, encR]; omega
theorem Encoding.qmx4 (x0 : Fin 32) (x1 : Src) : Encoding.Statement (.qmx4 x0 x1) := by
  intro _ h; injection h with h; have := x0.isLt; have := Encoding.Src_code x1; subst h; simp only [encR]; omega
theorem Encoding.dqmx4 (x0 : Dst) (x1 : Src) (x2 : Src) (x3 : Fin 4) : Encoding.Statement (.dqmx4 x0 x1 x2 x3) := by
  intro _ h; injection h with h; have := Encoding.Dst_code x0; have := Encoding.Src_code x1; have := Encoding.Src_code x2; have := x3.isLt; subst h; simp only [encDAB, encR]; omega
theorem Encoding.qf8 (x0 : Dst) (x1 : Src) (x2 : Src) (x3 : F8) : Encoding.Statement (.qf8 x0 x1 x2 x3) := by
  intro _ h; injection h with h; have := Encoding.Dst_code x0; have := Encoding.Src_code x1; have := Encoding.Src_code x2; have := Encoding.F8_code x3; subst h; simp only [encDAB, encR]; omega
theorem Encoding.dqf8 (x0 : Dst) (x1 : Src) (x2 : Src) (x3 : F8) : Encoding.Statement (.dqf8 x0 x1 x2 x3) := by
  intro _ h; injection h with h; have := Encoding.Dst_code x0; have := Encoding.Src_code x1; have := Encoding.Src_code x2; have := Encoding.F8_code x3; subst h; simp only [encDAB, encR]; omega
theorem Encoding.qi8 (x0 : Dst) (x1 : Src) (x2 : Src) : Encoding.Statement (.qi8 x0 x1 x2) := by
  intro _ h; injection h with h; have := Encoding.Dst_code x0; have := Encoding.Src_code x1; have := Encoding.Src_code x2; subst h; simp only [encDAB, encR]; omega
theorem Encoding.qi4 (x0 : Dst) (x1 : Src) (x2 : Src) : Encoding.Statement (.qi4 x0 x1 x2) := by
  intro _ h; injection h with h; have := Encoding.Dst_code x0; have := Encoding.Src_code x1; have := Encoding.Src_code x2; subst h; simp only [encDAB, encR]; omega
theorem Encoding.rscl (x0 : Dst) (x1 : Src) (x2 : Fin 32) : Encoding.Statement (.rscl x0 x1 x2) := by
  intro _ h; injection h with h; have := Encoding.Dst_code x0; have := Encoding.Src_code x1; have := x2.isLt; subst h; simp only [encR]; omega
theorem Encoding.srnd (x0 : Dst) (x1 : Src) (x2 : Src) : Encoding.Statement (.srnd x0 x1 x2) := by
  intro _ h; injection h with h; have := Encoding.Dst_code x0; have := Encoding.Src_code x1; have := Encoding.Src_code x2; subst h; simp only [encDAB, encR]; omega
theorem Encoding.padd (x0 : Dst) (x1 : Src) (x2 : Src) (x3 : PFmt) : Encoding.Statement (.padd x0 x1 x2 x3) := by
  intro _ h; injection h with h; have := Encoding.Dst_code x0; have := Encoding.Src_code x1; have := Encoding.Src_code x2; have := Encoding.PFmt_code x3; subst h; simp only [encDAB, encR]; omega
theorem Encoding.psub (x0 : Dst) (x1 : Src) (x2 : Src) (x3 : PFmt) : Encoding.Statement (.psub x0 x1 x2 x3) := by
  intro _ h; injection h with h; have := Encoding.Dst_code x0; have := Encoding.Src_code x1; have := Encoding.Src_code x2; have := Encoding.PFmt_code x3; subst h; simp only [encDAB, encR]; omega
theorem Encoding.pmul (x0 : Dst) (x1 : Src) (x2 : Src) (x3 : PFmt) : Encoding.Statement (.pmul x0 x1 x2 x3) := by
  intro _ h; injection h with h; have := Encoding.Dst_code x0; have := Encoding.Src_code x1; have := Encoding.Src_code x2; have := Encoding.PFmt_code x3; subst h; simp only [encDAB, encR]; omega
theorem Encoding.pfma (x0 : Dst) (x1 : Src) (x2 : Src) (x3 : PFmt) : Encoding.Statement (.pfma x0 x1 x2 x3) := by
  intro _ h; injection h with h; have := Encoding.Dst_code x0; have := Encoding.Src_code x1; have := Encoding.Src_code x2; have := Encoding.PFmt_code x3; subst h; simp only [encDAB, encR]; omega
theorem Encoding.pmin (x0 : Dst) (x1 : Src) (x2 : Src) (x3 : PFmt) : Encoding.Statement (.pmin x0 x1 x2 x3) := by
  intro _ h; injection h with h; have := Encoding.Dst_code x0; have := Encoding.Src_code x1; have := Encoding.Src_code x2; have := Encoding.PFmt_code x3; subst h; simp only [encDAB, encR]; omega
theorem Encoding.pmax (x0 : Dst) (x1 : Src) (x2 : Src) (x3 : PFmt) : Encoding.Statement (.pmax x0 x1 x2 x3) := by
  intro _ h; injection h with h; have := Encoding.Dst_code x0; have := Encoding.Src_code x1; have := Encoding.Src_code x2; have := Encoding.PFmt_code x3; subst h; simp only [encDAB, encR]; omega
theorem Encoding.pdot (x0 : Dst) (x1 : Src) (x2 : Src) (x3 : PFmt) : Encoding.Statement (.pdot x0 x1 x2 x3) := by
  intro _ h; injection h with h; have := Encoding.Dst_code x0; have := Encoding.Src_code x1; have := Encoding.Src_code x2; have := Encoding.PFmt_code x3; subst h; simp only [encDAB, encR]; omega
theorem Encoding.mqa (x0 : Fin 32) (x1 : Fin 32) (x2 : MatB) (x3 : MqaF) : Encoding.Statement (.mqa x0 x1 x2 x3) := by
  intro _ h; injection h with h; have := x0.isLt; have := x1.isLt; have := Encoding.MatB_code x2; have := Encoding.MqaF_code x3; subst h; simp only [encR]; omega
theorem Encoding.mqax (x0 : Fin 32) (x1 : Fin 32) (x2 : MatB) (x3 : MqaxF) : Encoding.Statement (.mqax x0 x1 x2 x3) := by
  intro _ h; injection h with h; have := x0.isLt; have := x1.isLt; have := Encoding.MatB_code x2; have := Encoding.MqaxF_code x3; subst h; simp only [encR]; omega
theorem Encoding.mqai (x0 : Fin 32) (x1 : Fin 32) (x2 : MatB) (x3 : MqaiF) : Encoding.Statement (.mqai x0 x1 x2 x3) := by
  intro _ h; injection h with h; have := x0.isLt; have := x1.isLt; have := Encoding.MatB_code x2; have := Encoding.MqaiF_code x3; subst h; simp only [encR]; omega
theorem Encoding.matrixGrant (x0 : Nat) : Encoding.Statement (.matrixGrant x0) := by intro _ h; cases h
theorem Encoding.matrixRequestAged (x0 : Nat) (x1 : Nat) : Encoding.Statement (.matrixRequestAged x0 x1) := by intro _ h; cases h
theorem Encoding.matrixPassEnd (x0 : Nat) (x1 : Nat) (x2 : Bool) : Encoding.Statement (.matrixPassEnd x0 x1 x2) := by intro _ h; cases h
theorem Encoding.mtf (x0 : Fin 32) (x1 : Fin 32) : Encoding.Statement (.mtf x0 x1) := by
  intro _ h; injection h with h; have := x0.isLt; have := x1.isLt; subst h; simp only [encSS, encR]; omega
theorem Encoding.mtfr (x0 : Fin 32) (x1 : Fin 32) : Encoding.Statement (.mtfr x0 x1) := by
  intro _ h; injection h with h; have := x0.isLt; have := x1.isLt; subst h; simp only [encSS, encR]; omega
theorem Encoding.mtfLineArrival (x0 : Nat) (x1 : Nat) (x2 : Nat) (x3 : FabAns) : Encoding.Statement (.mtfLineArrival x0 x1 x2 x3) := by intro _ h; cases h
theorem Encoding.msync : Encoding.Statement .msync := by intro _ h; injection h with h; omega
theorem Encoding.smm (x0 : Fin 32) (x1 : Fin 32) (x2 : Fin 32) (x3 : SmF) : Encoding.Statement (.smm x0 x1 x2 x3) := by
  intro _ h; injection h with h; have := x0.isLt; have := x1.isLt; have := x2.isLt; have := Encoding.SmF_code x3; subst h; simp only [encR]; omega
theorem Encoding.smadd (x0 : Fin 32) (x1 : Fin 32) (x2 : Fin 32) (x3 : SmF) : Encoding.Statement (.smadd x0 x1 x2 x3) := by
  intro _ h; injection h with h; have := x0.isLt; have := x1.isLt; have := x2.isLt; have := Encoding.SmF_code x3; subst h; simp only [encR]; omega
theorem Encoding.strn (x0 : Fin 32) (x1 : Fin 32) (x2 : Fin 32) (x3 : SmF) : Encoding.Statement (.strn x0 x1 x2 x3) := by
  intro _ h; injection h with h; have := x0.isLt; have := x1.isLt; have := x2.isLt; have := Encoding.SmF_code x3; subst h; simp only [encR]; omega
theorem Encoding.schol (x0 : Fin 32) (x1 : Fin 32) (x2 : Fin 32) (x3 : SmF) : Encoding.Statement (.schol x0 x1 x2 x3) := by
  intro _ h; injection h with h; have := x0.isLt; have := x1.isLt; have := x2.isLt; have := Encoding.SmF_code x3; subst h; simp only [encR]; omega
theorem Encoding.sluf (x0 : Fin 32) (x1 : Fin 32) (x2 : Fin 32) (x3 : SmF) : Encoding.Statement (.sluf x0 x1 x2 x3) := by
  intro _ h; injection h with h; have := x0.isLt; have := x1.isLt; have := x2.isLt; have := Encoding.SmF_code x3; subst h; simp only [encR]; omega
theorem Encoding.ssol (x0 : Fin 32) (x1 : Fin 32) (x2 : Fin 32) (x3 : SmF) : Encoding.Statement (.ssol x0 x1 x2 x3) := by
  intro _ h; injection h with h; have := x0.isLt; have := x1.isLt; have := x2.isLt; have := Encoding.SmF_code x3; subst h; simp only [encR]; omega
theorem Encoding.strs (x0 : Fin 32) (x1 : Fin 32) (x2 : Fin 32) (x3 : SmF) : Encoding.Statement (.strs x0 x1 x2 x3) := by
  intro _ h; injection h with h; have := x0.isLt; have := x1.isLt; have := x2.isLt; have := Encoding.SmF_code x3; subst h; simp only [encR]; omega
theorem Encoding.sdet (x0 : Fin 32) (x1 : Fin 32) (x2 : Fin 32) (x3 : SmF) : Encoding.Statement (.sdet x0 x1 x2 x3) := by
  intro _ h; injection h with h; have := x0.isLt; have := x1.isLt; have := x2.isLt; have := Encoding.SmF_code x3; subst h; simp only [encR]; omega
theorem Encoding.ld (x0 : Reg) (x1 : Reg) (x2 : MType) (x3 : MSize) (x4 : BitVec 6) : Encoding.Statement (.ld x0 x1 x2 x3 x4) := by
  intro _ h; injection h with h; have := Encoding.Reg_code x0; have := Encoding.Reg_code x1; have := Encoding.MType_code x2; have := Encoding.MSize_code x3; have := x4.isLt; subst h; simp only [encM]; omega
theorem Encoding.st (x0 : Src) (x1 : Reg) (x2 : MType) (x3 : MSize) (x4 : BitVec 6) : Encoding.Statement (.st x0 x1 x2 x3 x4) := by
  intro _ h; injection h with h; have := Encoding.Src_code x0; have := Encoding.Reg_code x1; have := Encoding.MType_code x2; have := Encoding.MSize_code x3; have := x4.isLt; subst h; simp only [encM]; omega
theorem Encoding.lds (x0 : Reg) (x1 : Reg) (x2 : MSize) (x3 : BitVec 6) : Encoding.Statement (.lds x0 x1 x2 x3) := by
  intro _ h; injection h with h; have := Encoding.Reg_code x0; have := Encoding.Reg_code x1; have := Encoding.MSize_code x2; have := x3.isLt; subst h; simp only [encM]; omega
theorem Encoding.sts (x0 : Src) (x1 : Reg) (x2 : MSize) (x3 : BitVec 6) : Encoding.Statement (.sts x0 x1 x2 x3) := by
  intro _ h; injection h with h; have := Encoding.Src_code x0; have := Encoding.Reg_code x1; have := Encoding.MSize_code x2; have := x3.isLt; subst h; simp only [encM]; omega
theorem Encoding.gath (x0 : Fin 32) (x1 : Reg) (x2 : Fin 32) (x3 : MSize) : Encoding.Statement (.gath x0 x1 x2 x3) := by
  intro _ h; injection h with h; have := x0.isLt; have := Encoding.Reg_code x1; have := x2.isLt; have := Encoding.MSize_code x3; subst h; simp only [encR]; omega
theorem Encoding.scat (x0 : Src) (x1 : Reg) (x2 : Fin 32) (x3 : MSize) : Encoding.Statement (.scat x0 x1 x2 x3) := by
  intro _ h; injection h with h; have := Encoding.Src_code x0; have := Encoding.Reg_code x1; have := x2.isLt; have := Encoding.MSize_code x3; subst h; simp only [encR]; omega
theorem Encoding.ldu (x0 : Reg) (x1 : Reg) (x2 : MType) (x3 : MSize) (x4 : BitVec 6) : Encoding.Statement (.ldu x0 x1 x2 x3 x4) := by
  intro _ h; injection h with h; have := Encoding.Reg_code x0; have := Encoding.Reg_code x1; have := Encoding.MType_code x2; have := Encoding.MSize_code x3; have := x4.isLt; subst h; simp only [encM]; omega
theorem Encoding.pref (x0 : Bool) (x1 : Reg) (x2 : MType) (x3 : BitVec 6) : Encoding.Statement (.pref x0 x1 x2 x3) := by
  intro _ h; injection h with h; have := Bool.toNat_lt x0; have := Encoding.Reg_code x1; have := Encoding.MType_code x2; have := x3.isLt; subst h; simp only [encM]; omega
theorem Encoding.memoryResponse (x0 : Nat) (x1 : Nat) (x2 : Nat) : Encoding.Statement (.memoryResponse x0 x1 x2) := by intro _ h; cases h
theorem Encoding.pageWalkComplete (x0 : Nat) (x1 : Nat) : Encoding.Statement (.pageWalkComplete x0 x1) := by intro _ h; cases h
theorem Encoding.homeSliceWrite (x0 : WSource) : Encoding.Statement (.homeSliceWrite x0) := by intro _ h; cases h
theorem Encoding.homeSliceRead (x0 : Nat) (x1 : Nat) (x2 : Nat) : Encoding.Statement (.homeSliceRead x0 x1 x2) := by intro _ h; cases h
theorem Encoding.cflush (x0 : Reg) (x1 : Bool) : Encoding.Statement (.cflush x0 x1) := by
  intro _ h; injection h with h; have := Encoding.Reg_code x0; have := Bool.toNat_lt x1; subst h; simp only [encI]; omega
theorem Encoding.cinv (x0 : Option Reg) : Encoding.Statement (.cinv x0) := by
  intro _ h; injection h with h; subst h
  rcases x0 with _ | r
  · simp only [encI]; omega
  · have := Encoding.Reg_code r; simp only [encI]; omega
theorem Encoding.bufset (x0 : Fin 32) (x1 : Bool) (x2 : Fin 16) : Encoding.Statement (.bufset x0 x1 x2) := by
  intro _ h; injection h with h; have := x0.isLt; have := Bool.toNat_lt x1; have := x2.isLt; subst h; simp only [encI]; omega
theorem Encoding.bufget (x0 : Fin 32) (x1 : Fin 16) : Encoding.Statement (.bufget x0 x1) := by
  intro _ h; injection h with h; have := x0.isLt; have := x1.isLt; subst h; simp only [encI]; omega
theorem Encoding.atom (x0 : Fin 32) (x1 : Reg) (x2 : AOp) (x3 : AScope) (x4 : AOrd) : Encoding.Statement (.atom x0 x1 x2 x3 x4) := by
  intro _ h; injection h with h; have := x0.isLt; have := Encoding.Reg_code x1; have := Encoding.AOp_code x2; have := Encoding.AScope_code x3; have := Encoding.AOrd_code x4; subst h; simp only [encR]; omega
theorem Encoding.cas (x0 : Fin 32) (x1 : Reg) (x2 : Bool) (x3 : Bool) (x4 : AScope) (x5 : AOrd) : Encoding.Statement (.cas x0 x1 x2 x3 x4 x5) := by
  intro _ h; injection h with h; have := x0.isLt; have := Encoding.Reg_code x1; have := Bool.toNat_lt x2; have := Bool.toNat_lt x3; have := Encoding.AScope_code x4; have := Encoding.AOrd_code x5; subst h; simp only [encR]; omega
theorem Encoding.fence (x0 : Scope) (x1 : FKind) : Encoding.Statement (.fence x0 x1) := by
  intro _ h; injection h with h; have := Encoding.Scope_code x0; have := Encoding.FKind_code x1; subst h; simp only [encR]; omega
theorem Encoding.fenceModeGive (x0 : Fin 32) (x1 : Fin 32) : Encoding.Statement (.fenceModeGive x0 x1) := by
  intro _ h; injection h with h; have := x0.isLt; have := x1.isLt; subst h; simp only [encSS, encR]; omega
theorem Encoding.fenceModeTake (x0 : Fin 32) (x1 : Fin 32) : Encoding.Statement (.fenceModeTake x0 x1) := by
  intro _ h; injection h with h; have := x0.isLt; have := x1.isLt; subst h; simp only [encSS, encR]; omega
theorem Encoding.rowgive (x0 : Fin 32) (x1 : Fin 32) : Encoding.Statement (.rowgive x0 x1) := by
  intro _ h; injection h with h; have := x0.isLt; have := x1.isLt; subst h; simp only [encSS, encR]; omega
theorem Encoding.rowtake (x0 : Fin 32) (x1 : Fin 32) : Encoding.Statement (.rowtake x0 x1) := by
  intro _ h; injection h with h; have := x0.isLt; have := x1.isLt; subst h; simp only [encSS, encR]; omega
theorem Encoding.layout (x0 : Fin 32) (x1 : BitVec 6) : Encoding.Statement (.layout x0 x1) := by
  intro _ h; injection h with h; have := x0.isLt; have := x1.isLt; subst h; simp only [encI]; omega
theorem Encoding.phaseOpen (x0 : Fin 32) (x1 : Fin 32) (x2 : Fin 32) : Encoding.Statement (.phaseOpen x0 x1 x2) := by
  intro _ h; injection h with h; have := x0.isLt; have := x1.isLt; have := x2.isLt; subst h; simp only [encR]; omega
theorem Encoding.phaseEnd (x0 : Fin 32) (x1 : Fin 32) : Encoding.Statement (.phaseEnd x0 x1) := by
  intro _ h; injection h with h; have := x0.isLt; have := x1.isLt; subst h; simp only [encSS, encR]; omega
theorem Encoding.phasePublication (x0 : Nat) (x1 : Nat) : Encoding.Statement (.phasePublication x0 x1) := by intro _ h; cases h
theorem Encoding.red (x0 : Src) (x1 : Reg) (x2 : RedTy) (x3 : RedOp) : Encoding.Statement (.red x0 x1 x2 x3) := by
  intro _ h; injection h with h; have := Encoding.Src_code x0; have := Encoding.Reg_code x1; have := Encoding.RedTy_code x2; have := Encoding.RedOp_code x3; subst h; simp only [encR]; omega
theorem Encoding.redEntryApply (x0 : Nat) (x1 : Nat) (x2 : Nat) : Encoding.Statement (.redEntryApply x0 x1 x2) := by intro _ h; cases h
theorem Encoding.xcopy (x0 : Option (Fin 16)) (x1 : Fin 32) (x2 : BitVec 6) : Encoding.Statement (.xcopy x0 x1 x2) := by
  intro _ h; injection h with h; have := x1.isLt; have := x2.isLt; subst h
  rcases x0 with _ | k
  · simp only [encX, encI]; omega
  · have := k.isLt; simp only [encX, encI]; omega
theorem Encoding.xstr (x0 : Option (Fin 16)) (x1 : Fin 32) (x2 : BitVec 6) : Encoding.Statement (.xstr x0 x1 x2) := by
  intro _ h; injection h with h; have := x1.isLt; have := x2.isLt; subst h
  rcases x0 with _ | k
  · simp only [encX, encI]; omega
  · have := k.isLt; simp only [encX, encI]; omega
theorem Encoding.xlay (x0 : Option (Fin 16)) (x1 : Fin 32) (x2 : BitVec 6) : Encoding.Statement (.xlay x0 x1 x2) := by
  intro _ h; injection h with h; have := x1.isLt; have := x2.isLt; subst h
  rcases x0 with _ | k
  · simp only [encX, encI]; omega
  · have := k.isLt; simp only [encX, encI]; omega
theorem Encoding.xacc (x0 : Option (Fin 16)) (x1 : Fin 32) (x2 : BitVec 6) : Encoding.Statement (.xacc x0 x1 x2) := by
  intro _ h; injection h with h; have := x1.isLt; have := x2.isLt; subst h
  rcases x0 with _ | k
  · simp only [encX, encI]; omega
  · have := k.isLt; simp only [encX, encI]; omega
theorem Encoding.transferStart (x0 : Nat) (x1 : Nat) : Encoding.Statement (.transferStart x0 x1) := by intro _ h; cases h
theorem Encoding.transferEnd (x0 : Nat) (x1 : Nat) : Encoding.Statement (.transferEnd x0 x1) := by intro _ h; cases h
theorem Encoding.xpub (x0 : Fin 32) (x1 : Bool) (x2 : Fin 4) : Encoding.Statement (.xpub x0 x1 x2) := by
  intro _ h; injection h with h; have := x0.isLt; have := Bool.toNat_lt x1; have := x2.isLt; subst h; simp only [encI]; omega
theorem Encoding.xpubCommit (x0 : Nat) (x1 : Nat) : Encoding.Statement (.xpubCommit x0 x1) := by intro _ h; cases h
theorem Encoding.ovld (x0 : Fin 32) (x1 : Fin 32) (x2 : Fin 4) (x3 : BitVec 6) : Encoding.Statement (.ovld x0 x1 x2 x3) := by
  intro _ h; injection h with h; have := x0.isLt; have := x1.isLt; have := x2.isLt; have := x3.isLt; subst h; simp only [encI]; omega
theorem Encoding.ovpf (x0 : Fin 32) (x1 : BitVec 6) : Encoding.Statement (.ovpf x0 x1) := by
  intro _ h; injection h with h; have := x0.isLt; have := x1.isLt; subst h; simp only [encI]; omega
theorem Encoding.overlayLoadEnd (x0 : Nat) (x1 : Nat) : Encoding.Statement (.overlayLoadEnd x0 x1) := by intro _ h; cases h
theorem Encoding.waitany (x0 : Fin 32) (x1 : Fin 32) : Encoding.Statement (.waitany x0 x1) := by
  intro _ h; injection h with h; have := x0.isLt; have := x1.isLt; subst h; simp only [encSS, encR]; omega
theorem Encoding.waitall (x0 : Fin 32) : Encoding.Statement (.waitall x0) := by
  intro _ h; injection h with h; have := x0.isLt; subst h; simp only [encR]; omega
theorem Encoding.ffr (x0 : Fin 32) (x1 : Fin 32) : Encoding.Statement (.ffr x0 x1) := by
  intro _ h; injection h with h; have := x0.isLt; have := x1.isLt; subst h; simp only [encSS, encR]; omega
theorem Encoding.bgload (x0 : Fin 32) (x1 : BitVec 6) : Encoding.Statement (.bgload x0 x1) := by
  intro _ h; injection h with h; have := x0.isLt; have := x1.isLt; subst h; simp only [encI]; omega
theorem Encoding.bgvec (x0 : Fin 32) (x1 : BitVec 6) : Encoding.Statement (.bgvec x0 x1) := by
  intro _ h; injection h with h; have := x0.isLt; have := x1.isLt; subst h; simp only [encI]; omega
theorem Encoding.bgrun (x0 : Fin 32) (x1 : BitVec 6) : Encoding.Statement (.bgrun x0 x1) := by
  intro _ h; injection h with h; have := x0.isLt; have := x1.isLt; subst h; simp only [encI]; omega
theorem Encoding.bgwait (x0 : Fin 32) (x1 : BitVec 6) : Encoding.Statement (.bgwait x0 x1) := by
  intro _ h; injection h with h; have := x0.isLt; have := x1.isLt; subst h; simp only [encI]; omega
theorem Encoding.bgloadExecute (x0 : Nat) (x1 : Nat) : Encoding.Statement (.bgloadExecute x0 x1) := by intro _ h; cases h
theorem Encoding.bgloadEnd (x0 : Nat) (x1 : Nat) : Encoding.Statement (.bgloadEnd x0 x1) := by intro _ h; cases h
theorem Encoding.bgvecExecute (x0 : Nat) (x1 : Nat) : Encoding.Statement (.bgvecExecute x0 x1) := by intro _ h; cases h
theorem Encoding.bgvecEnd (x0 : Nat) (x1 : Nat) : Encoding.Statement (.bgvecEnd x0 x1) := by intro _ h; cases h
theorem Encoding.bgrunStart (x0 : Nat) (x1 : Nat) : Encoding.Statement (.bgrunStart x0 x1) := by intro _ h; cases h
theorem Encoding.bankRunEnd (x0 : Nat) (x1 : Nat) : Encoding.Statement (.bankRunEnd x0 x1) := by intro _ h; cases h
theorem Encoding.bankMovePort (x0 : Bool) (x1 : Fin 8) (x2 : BitVec 7) (x3 : BitVec 7) (x4 : BitVec 13) : Encoding.Statement (.bankMovePort x0 x1 x2 x3 x4) := by
  intro _ h; injection h with h; have := Bool.toNat_lt x0; have := x1.isLt; have := x2.isLt; have := x3.isLt; have := x4.isLt; subst h; omega
theorem Encoding.bankMoveImmediate (x0 : Bool) (x1 : Fin 8) (x2 : BitVec 7) (x3 : BitVec 16) (x4 : BitVec 4) : Encoding.Statement (.bankMoveImmediate x0 x1 x2 x3 x4) := by
  intro _ h; injection h with h; have := Bool.toNat_lt x0; have := x1.isLt; have := x2.isLt; have := x3.isLt; have := x4.isLt; subst h; omega
theorem Encoding.bankStreamEnd (x0 : Nat) : Encoding.Statement (.bankStreamEnd x0) := by intro _ h; cases h
theorem Encoding.bankChimeStep (x0 : Nat) (x1 : Nat) : Encoding.Statement (.bankChimeStep x0 x1) := by intro _ h; cases h
theorem Encoding.bankRefresh (x0 : Nat) (x1 : Nat) : Encoding.Statement (.bankRefresh x0 x1) := by intro _ h; cases h
theorem Encoding.bufferTakeTimeout (x0 : Nat) (x1 : Nat) (x2 : Nat) : Encoding.Statement (.bufferTakeTimeout x0 x1 x2) := by intro _ h; cases h
theorem Encoding.gred (x0 : Fin 32) (x1 : Reg) (x2 : Src) (x3 : Bool) : Encoding.Statement (.gred x0 x1 x2 x3) := by
  intro _ h; injection h with h; have := x0.isLt; have := Encoding.Reg_code x1; have := Encoding.Src_code x2; have := Bool.toNat_lt x3; subst h; simp only [encR]; omega
theorem Encoding.gredComplete (x0 : Nat) (x1 : Nat) : Encoding.Statement (.gredComplete x0 x1) := by intro _ h; cases h
theorem Encoding.mlr (x0 : Fin 32) (x1 : Reg) (x2 : Fin 32) (x3 : Bool) : Encoding.Statement (.mlr x0 x1 x2 x3) := by
  intro _ h; injection h with h; have := x0.isLt; have := Encoding.Reg_code x1; have := x2.isLt; have := Bool.toNat_lt x3; subst h; simp only [encR]; omega
theorem Encoding.mlrComplete (x0 : Nat) (x1 : Nat) : Encoding.Statement (.mlrComplete x0 x1) := by intro _ h; cases h
theorem Encoding.trap (x0 : BitVec 9) : Encoding.Statement (.trap x0) := by
  intro _ h; injection h with h; have := x0.isLt; subst h; simp only [encI]; omega
theorem Encoding.tret : Encoding.Statement .tret := by intro _ h; injection h with h; omega
theorem Encoding.tretFail : Encoding.Statement .tretFail := by intro _ h; injection h with h; omega
theorem Encoding.rdsr (x0 : Reg) (x1 : BitVec 8) : Encoding.Statement (.rdsr x0 x1) := by
  intro _ h; injection h with h; have := Encoding.Reg_code x0; have := x1.isLt; subst h; simp only [encI]; omega
theorem Encoding.wrsr (x0 : Src) (x1 : BitVec 8) : Encoding.Statement (.wrsr x0 x1) := by
  intro _ h; injection h with h; have := Encoding.Src_code x0; have := x1.isLt; subst h; simp only [encI]; omega
theorem Encoding.bkpt (x0 : BitVec 9) : Encoding.Statement (.bkpt x0) := by
  intro _ h; injection h with h; have := x0.isLt; subst h; simp only [encI]; omega
theorem Encoding.rdtime (x0 : Reg) : Encoding.Statement (.rdtime x0) := by
  intro _ h; injection h with h; have := Encoding.Reg_code x0; subst h; simp only [encI]; omega
theorem Encoding.perf (x0 : Reg) (x1 : Fin 8) : Encoding.Statement (.perf x0 x1) := by
  intro _ h; injection h with h; have := Encoding.Reg_code x0; have := x1.isLt; subst h; simp only [encI]; omega
theorem Encoding.trapEntry (x0 : Nat) : Encoding.Statement (.trapEntry x0) := by intro _ h; cases h
theorem Encoding.leaseReservationTimeout (x0 : Nat) (x1 : Nat) : Encoding.Statement (.leaseReservationTimeout x0 x1) := by intro _ h; cases h
theorem Encoding.sweepComplete (x0 : Nat) (x1 : Nat) : Encoding.Statement (.sweepComplete x0 x1) := by intro _ h; cases h
theorem Encoding.leaseExpiry (x0 : Nat) (x1 : Nat) : Encoding.Statement (.leaseExpiry x0 x1) := by intro _ h; cases h
theorem Encoding.bgeLeaseExpiry (x0 : Nat) (x1 : Nat) : Encoding.Statement (.bgeLeaseExpiry x0 x1) := by intro _ h; cases h
theorem Encoding.endingTimeout (x0 : Nat) (x1 : Nat) : Encoding.Statement (.endingTimeout x0 x1) := by intro _ h; cases h
theorem Encoding.clockReadback (x0 : Nat) : Encoding.Statement (.clockReadback x0) := by intro _ h; cases h
theorem Encoding.leaseReturn (x0 : Nat) (x1 : Nat) : Encoding.Statement (.leaseReturn x0 x1) := by intro _ h; cases h
theorem Encoding.layoutCommandStart (x0 : Nat) : Encoding.Statement (.layoutCommandStart x0) := by intro _ h; cases h
theorem Encoding.layoutCommandEnd (x0 : Nat) : Encoding.Statement (.layoutCommandEnd x0) := by intro _ h; cases h
theorem Encoding.xlinvWrite (x0 : Agent) (x1 : W64) : Encoding.Statement (.xlinvWrite x0 x1) := by intro _ h; cases h
theorem Encoding.xlinvComplete (x0 : Nat) (x1 : Nat) : Encoding.Statement (.xlinvComplete x0 x1) := by intro _ h; cases h
theorem Encoding.xlstatWrite (x0 : Agent) (x1 : W64) : Encoding.Statement (.xlstatWrite x0 x1) := by intro _ h; cases h
theorem Encoding.ptbaseWrite (x0 : Agent) (x1 : W64) : Encoding.Statement (.ptbaseWrite x0 x1) := by intro _ h; cases h
theorem Encoding.hostMemRead (x0 : Nat) : Encoding.Statement (.hostMemRead x0) := by intro _ h; cases h
theorem Encoding.hostMemWrite (x0 : Nat) (x1 : Bool) (x2 : BitVec 64) (x3 : BitVec 512) (x4 : Bool) : Encoding.Statement (.hostMemWrite x0 x1 x2 x3 x4) := by intro _ h; cases h
theorem Encoding.backInvalidateResponse (x0 : Nat) (x1 : Option (BitVec 512 × Bool)) : Encoding.Statement (.backInvalidateResponse x0 x1) := by intro _ h; cases h
theorem Encoding.hostSnoop (x0 : Nat) (x1 : SnoopKind) (x2 : Option (BitVec 512 × Bool)) : Encoding.Statement (.hostSnoop x0 x1 x2) := by intro _ h; cases h
theorem Encoding.linkUp (x0 : Fin 16) (x1 : Option (BitVec 16)) : Encoding.Statement (.linkUp x0 x1) := by intro _ h; cases h
theorem Encoding.fabricRequestArrival (x0 : Nat) (x1 : Nat) (x2 : Nat) (x3 : Nat) (x4 : FabReq) : Encoding.Statement (.fabricRequestArrival x0 x1 x2 x3 x4) := by intro _ h; cases h
theorem Encoding.fabricResponse (x0 : Nat) (x1 : Nat) (x2 : Nat) (x3 : FabAns) : Encoding.Statement (.fabricResponse x0 x1 x2 x3) := by intro _ h; cases h
theorem Encoding.pendingNotice (x0 : Nat) (x1 : Nat) (x2 : Nat) : Encoding.Statement (.pendingNotice x0 x1 x2) := by intro _ h; cases h
theorem Encoding.rsptExpiry (x0 : Nat) (x1 : Nat) (x2 : Nat) : Encoding.Statement (.rsptExpiry x0 x1 x2) := by intro _ h; cases h
theorem Encoding.dlrtExpiry (x0 : Nat) (x1 : Nat) (x2 : Nat) : Encoding.Statement (.dlrtExpiry x0 x1 x2) := by intro _ h; cases h
theorem Encoding.fholdExpiry (x0 : Nat) : Encoding.Statement (.fholdExpiry x0) := by intro _ h; cases h
theorem Encoding.resync (x0 : Nat) (x1 : Nat) (x2 : Nat) : Encoding.Statement (.resync x0 x1 x2) := by intro _ h; cases h
theorem Encoding.calibreWrite (x0 : Agent) (x1 : Bool) (x2 : Nat) (x3 : W64) : Encoding.Statement (.calibreWrite x0 x1 x2 x3) := by intro _ h; cases h
theorem Encoding.fholdWrite (x0 : Agent) (x1 : W64) : Encoding.Statement (.fholdWrite x0 x1) := by intro _ h; cases h
theorem Encoding.timeSample (x0 : Fin 16) (x1 : W64) : Encoding.Statement (.timeSample x0 x1) := by intro _ h; cases h
theorem Encoding.timeSampleTimeout : Encoding.Statement (.timeSampleTimeout) := by intro _ h; cases h
theorem Encoding.anchorWrite (x0 : Agent) (x1 : Fin 16) (x2 : W64) : Encoding.Statement (.anchorWrite x0 x1 x2) := by intro _ h; cases h
theorem Encoding.anchorScan (x0 : Fin 16) : Encoding.Statement (.anchorScan x0) := by intro _ h; cases h
theorem Encoding.instanceStart : Encoding.Statement (.instanceStart) := by intro _ h; cases h
theorem Encoding.nodeFire (x0 : Nat) (x1 : Nat) : Encoding.Statement (.nodeFire x0 x1) := by intro _ h; cases h
theorem Encoding.kernelNodeRun (x0 : Nat) (x1 : Nat) : Encoding.Statement (.kernelNodeRun x0 x1) := by intro _ h; cases h
theorem Encoding.transferNodeRun (x0 : Nat) (x1 : Nat) : Encoding.Statement (.transferNodeRun x0 x1) := by intro _ h; cases h
theorem Encoding.bankNodeRun (x0 : Nat) (x1 : Nat) : Encoding.Statement (.bankNodeRun x0 x1) := by intro _ h; cases h
theorem Encoding.conditionNodeRun (x0 : Nat) (x1 : Nat) : Encoding.Statement (.conditionNodeRun x0 x1) := by intro _ h; cases h
theorem Encoding.whileNodeRun (x0 : Nat) (x1 : Nat) : Encoding.Statement (.whileNodeRun x0 x1) := by intro _ h; cases h
theorem Encoding.barrierNodeRun (x0 : Nat) (x1 : Nat) : Encoding.Statement (.barrierNodeRun x0 x1) := by intro _ h; cases h
theorem Encoding.hostSignalNodeRun (x0 : Nat) (x1 : Nat) : Encoding.Statement (.hostSignalNodeRun x0 x1) := by intro _ h; cases h
theorem Encoding.nodeRunEnd (x0 : Nat) (x1 : Nat) : Encoding.Statement (.nodeRunEnd x0 x1) := by intro _ h; cases h
theorem Encoding.instanceEnd (x0 : Nat) : Encoding.Statement (.instanceEnd x0) := by intro _ h; cases h
theorem Encoding.blockPlacement : Encoding.Statement (.blockPlacement) := by intro _ h; cases h
theorem Encoding.dispatchWaitExpiry : Encoding.Statement (.dispatchWaitExpiry) := by intro _ h; cases h
theorem Encoding.blockEnd (x0 : Nat) : Encoding.Statement (.blockEnd x0) := by intro _ h; cases h
theorem Encoding.preqClose (x0 : Agent) (x1 : W64) : Encoding.Statement (.preqClose x0 x1) := by intro _ h; cases h
theorem Encoding.preqOpen (x0 : Agent) (x1 : W64) : Encoding.Statement (.preqOpen x0 x1) := by intro _ h; cases h
theorem Encoding.blockPreemptSave (x0 : Nat) : Encoding.Statement (.blockPreemptSave x0) := by intro _ h; cases h
theorem Encoding.registerWrite (x0 : Agent) (x1 : Nat) (x2 : W64) : Encoding.Statement (.registerWrite x0 x1 x2) := by intro _ h; cases h
theorem Encoding.verselWrite (x0 : Agent) (x1 : W64) : Encoding.Statement (.verselWrite x0 x1) := by intro _ h; cases h
theorem Encoding.mbVersion (x0 : Byte) : Encoding.Statement (.mbVersion x0) := by intro _ h; cases h
theorem Encoding.mbAttest (x0 : Byte) : Encoding.Statement (.mbAttest x0) := by intro _ h; cases h
theorem Encoding.mbIdcert (x0 : Byte) : Encoding.Statement (.mbIdcert x0) := by intro _ h; cases h
theorem Encoding.mbPowercap (x0 : Byte) : Encoding.Statement (.mbPowercap x0) := by intro _ h; cases h
theorem Encoding.mbPrepare (x0 : Byte) : Encoding.Statement (.mbPrepare x0) := by intro _ h; cases h
theorem Encoding.prepareQuiet : Encoding.Statement (.prepareQuiet) := by intro _ h; cases h
theorem Encoding.prepareTimeout : Encoding.Statement (.prepareTimeout) := by intro _ h; cases h
theorem Encoding.mbCommit (x0 : Byte) : Encoding.Statement (.mbCommit x0) := by intro _ h; cases h
theorem Encoding.mbAbort (x0 : Byte) : Encoding.Statement (.mbAbort x0) := by intro _ h; cases h
theorem Encoding.mbWake (x0 : Byte) : Encoding.Statement (.mbWake x0) := by intro _ h; cases h
theorem Encoding.mbRelease (x0 : Byte) : Encoding.Statement (.mbRelease x0) := by intro _ h; cases h
theorem Encoding.mbBadcmd (x0 : W64) : Encoding.Statement (.mbBadcmd x0) := by intro _ h; cases h
theorem Encoding.dvreq (x0 : Agent) (x1 : W64) : Encoding.Statement (.dvreq x0 x1) := by intro _ h; cases h
theorem Encoding.dvfloorWrite (x0 : Agent) (x1 : W64) : Encoding.Statement (.dvfloorWrite x0 x1) := by intro _ h; cases h
theorem Encoding.dvfsClockSwitch (x0 : Fin 2) : Encoding.Statement (.dvfsClockSwitch x0) := by intro _ h; cases h
theorem Encoding.dvfsRailSettled (x0 : Fin 2) : Encoding.Statement (.dvfsRailSettled x0) := by intro _ h; cases h
theorem Encoding.dvsampWindow : Encoding.Statement (.dvsampWindow) := by intro _ h; cases h
theorem Encoding.thermalTrip : Encoding.Statement (.thermalTrip) := by intro _ h; cases h
theorem Encoding.thermalRecovery : Encoding.Statement (.thermalRecovery) := by intro _ h; cases h
theorem Encoding.thermalShutdown : Encoding.Statement (.thermalShutdown) := by intro _ h; cases h
theorem Encoding.currentSample (x0 : Nat) : Encoding.Statement (.currentSample x0) := by intro _ h; cases h
theorem Encoding.idleEntry : Encoding.Statement (.idleEntry) := by intro _ h; cases h
theorem Encoding.powerOnBoot (x0 : FwSlot) (x1 : FwSlot) : Encoding.Statement (.powerOnBoot x0 x1) := by intro _ h; cases h
theorem Encoding.bgeClockStop (x0 : Nat) : Encoding.Statement (.bgeClockStop x0) := by intro _ h; cases h
theorem Encoding.commitRetained : Encoding.Statement (.commitRetained) := by intro _ h; cases h
theorem Encoding.wakeWoken : Encoding.Statement (.wakeWoken) := by intro _ h; cases h
theorem Encoding.fabricTimeReached : Encoding.Statement (.fabricTimeReached) := by intro _ h; cases h

end Sys2Proof.Laws
end

