-- ==== Sys2Proof/Tests/Slice0.lean ====
section
/-! SUPPORT. Tests of the model: ill-formed terms that WellFormed refuses, words of the spec decoded, single steps, and for every
statement with hypotheses a state and operands that meet them. Expected values are the spec's or are worked out from it by hand. -/

namespace Sys2Proof.Tests

set_option Elab.async false

open Sys2Proof.Machine Sys2Proof.Safety

/-! ## Helpers -/

/-- A property of an optional value that is there. -/
def holds {α : Type} (o : Option α) (p : α → Bool) : Bool := match o with | some x => p x | none => false
/-- A property of a next state. -/
def goes (o : Out) (p : State → Bool) : Bool := match o with | .next t => p t | _ => false
/-- A property of the path in focus. -/
def onCtx (s : State) (p : Ctx → Bool) : Bool := holds (ctxOf s) p
/-- Group 0 changed. -/
def withG (f : Group → Group) (s : State) : State := modGroup s 0 f
/-- The path of group 0 changed. -/
def withP (f : Path → Path) : State → State := withG (fun g => { g with paths := g.paths.map f })
/-- The fibre of a lane of group 0 changed. -/
def withF (l : Nat) (f : Fibre → Fibre) : State → State := withG (fun g => modFibre g l f)
/-- A group of eight fibres on core 0 whose path stands at a word, the only word of its clause, which has LND set. -/
def at1 (w : W32) : State := { placeCode State.reset (0xF7120008 :: w :: List.replicate 15 0) 1 0xF7120008 none with agenda := [] }
/-- The same with the word first of two. -/
def at2 (w : W32) : State := { placeCode State.reset (0xF7220008 :: w :: List.replicate 15 0) 1 0xF7220008 none with agenda := [] }
/-- Lane l's v[r] written in group 0. -/
def setV (l r : Nat) (v : W64) : State → State := withG (fun g => vSet g l r v)
/-- s[r] written in group 0. -/
def setS (r : Nat) (v : W64) : State → State := withG (fun g => sSet g r v)
/-- The lanes of group 0's path are each on a path at a code address afterwards. -/
def allAt (o : Out) (a : W32) (p : Path → Bool := fun _ => true) : Bool :=
  goes o (fun t => (List.range 8).all (fun l => holds (pathIn t 0 l) (fun q => q.pc = a && q.widx = 0 && p q)))
/-- The path of a lane is in a trap with a cause and sub-cause. -/
def trapped (o : Out) (l c sub : Nat) : Bool :=
  goes o (fun t => holds (pathIn t 0 l) (fun p => holds (pathTrap p) (fun x => x.cause = c && x.sub = sub)))

/-- A vector has been raised, or stays pending behind its mask. -/
def raised (t : State) (v : Nat) : Bool := if t.mgmt.vmask.testBit v then t.mgmt.vpend.testBit v else t.mgmt.msix.contains v

/-! ## Witnesses: states and operands that meet the hypotheses of the statements, with what the word does there -/

/-- Hypotheses of Runs. -/
def runsB (cx : Ctx) (d : Dst) (srcs : List (SrcKind × Src)) (third : Option SrcKind) : Bool :=
  holds (withC cx d srcs third) (fun all => !(pendingOn (namedRegs d all) cx) && all.all (fun k => srcReady cx (!d.notS) k.2))
/-- IntegerWords: a window, a uniform and a latch destination, and a third source. -/
theorem witness_IntegerWords : [Instr.add (.v 5) (.v 1) (.v 2) .w32, .add (.s 5) (.s 1) (.int 3) .w64, .add (.y 0) (.v 1) (.v 2) .w64,
      .mad (.v 31) (.v 0) (.v 31) .w8, .movw 3 (.v 0) true 0xFFFF].all (fun i => onCtx (at2 0) (fun cx => holds (intSpec i) (fun W =>
    runsB cx W.d W.kinds W.kind3 && cx.path.widx < hdrCount cx.path.hdr))) = true := by decide +kernel
/-- FloatWords, with a conversion. -/
theorem witness_FloatWords : [Instr.ffma (.v 5) (.v 1) (.v 2) .fp32, .fadd (.s 5) (.s 1) (.pinf) .fp64, .padd (.y 1) (.v 1) (.v 2) .bf16x4].all (fun i =>
      onCtx (at2 0) (fun cx => holds (fpSpec i) (fun W => runsB cx W.d W.srcs W.third)))
    && onCtx (at2 0) (fun cx => holds (convSpec (pfxOf cx) (.fcvt (.v 5) (.v 1) .fp16 .fp32 false)) (fun W => runsB cx W.d W.srcs W.third)) = true := by
  decide +kernel
/-- IntegerFrame, FloatFrame, PredicateCrossFrame, StatusFrame, MatrixFrame and SmallMatrixFrame: exec gives a next state in focus. -/
theorem witness_frames : [Instr.add (.v 5) (.v 1) (.v 2) .w32, .fadd (.v 5) (.v 1) (.v 2) .fp32, .icmp .eq 1 (.v 1) (.v 2) .w64,
      .ired (.s 3) (.v 2) .add, .rdsr (.v 3) 0, .perf (.s 3) 1].all (fun i => onCtx (at2 0) (fun _ => goes (exec i (at2 0)) (fun t => t ≠ at2 0))) = true := by
  decide +kernel
/-- PredicateWords and CrossLaneWords. -/
theorem witness_PredicateWords : onCtx (at2 0) (fun cx => !(pendingOn (srcRegs (.v 1) ++ srcRegs .lane) cx) && srcReady cx false (.v 1) && srcReady cx false .lane
    && goes (exec (.icmp .ltu 7 (.v 31) .lane .w64) (at2 0)) (fun t => pReg t 0 0 7 = 0 && pReg t 0 7 7 = 0xFF)) = true := by decide +kernel
theorem witness_CrossLaneWords : [Instr.shfl (.v 5) (.v 1) .lane .xor, .vote (.s 2) 0 .ballot, .pmovPallToVreg 3, .bcast (.y 2) (.v 1) (.v 2)].all (fun i =>
    onCtx (at2 0) (fun cx => holds (crossSpec i) (fun W => !(pendingOn (namedRegs W.d W.srcs) cx) && W.srcs.all (fun k => srcReady cx false k.2))))
    && goes (exec (.fred (.s 4) (.v 2) .add .fp32) (setV 0 2 0x7F800000 (setV 7 2 0xFF800000 (at2 0)))) (fun t => sReg t 0 4 = 0x7FC00000 && lstatOf t 0 3 ≠ 0) = true := by
  decide +kernel

/-- ControlFlow: the direct target, an indirect target with LND, a call at the lowest window, a return at WB 0 and at WB 8, room in and
on the rejoin stack, and a lane to fork into. -/
theorem witness_ControlFlow :
    let s := at1 0
    let ret := withF 7 (fun f => { f with wb := 8 }) (at1 0)
    let rj := withG (fun g => { g with lanes := g.lanes.map (fun x => (x.1, { x.2 with rejoin := [0, 0] })) }) (at1 0)
    let fk := withG (fun g => { modFibre (modFibre g 7 (fun f => { f with live := false })) 0 (fun f => { f with pred := 1 }) with
      paths := g.paths.map (fun p => { p with mask := 0x7F }) }) (at1 0)
    (onCtx s (fun cx => directTarget s cx ⟨0, 0⟩ = some 0 && allAt (exec (.bra ⟨0, 0⟩) s) 0 && allAt (exec (.brc 0 true ⟨0, 0⟩) s) 0
        && allAt (exec (.brc 0 false ⟨0, 0⟩) s) 8
        && !(pendingOn (regRegs (.v 3)) cx) && (List.range 8).all (fun l => indirectCode s 0 true (regVal cx (.v 3) l) = 0) && allAt (exec (.jmp (.v 3)) s) 0
        && !(callPending cx) && (callCheck cx).isNone && goes (exec (.call ⟨0, 0⟩) s) (fun t => vReg t 0 5 24 = 8)
        && goes (exec (.calli (.v 3)) s) (fun t => vReg t 0 5 24 = 8) && goes (exec .ret s) (fun t => (tget t.groups 0).isNone || holds (tget t.groups 0) (fun g => liveMask g = 0)))
      && onCtx ret (fun cx => !(pendingOn [24] cx) && indirectCode ret 0 false (vGet cx.grp 7 24) = 0
        && goes (exec .ret ret) (fun t => holds (pathIn t 0 7) (fun p => p.pc = 0) && (pathIn t 0 6).isNone))
      && onCtx rj (fun cx => (selLanes cx .all).all (fun l => 1 < (getFibre cx.grp l).rejoin.length) && allAt (exec (.brk .all 1) rj) 0)
      && onCtx fk (fun cx => directTarget fk cx ⟨0, 0⟩ = some 0 && freeLanes cx.grp = [7] && selected cx 0 false 0
        && goes (exec (.fork 0 false ⟨0, 0⟩) fk) (fun t => holds (pathIn t 0 7) (fun p => p.pc = 0) && pReg t 0 0 0 = 0xFF)
        && goes (exec (.fend .all) fk) (fun t => (pathIn t 0 3).isNone)
        && goes (exec (.demote (.pred 0 false)) fk) (fun t => lstatOf t 0 0 = 0x10000 && lstatOf t 0 1 = 0)
        && goes (exec (.rejoin ⟨0, 0⟩) fk) (fun t => holds (tget t.groups 0) (fun g => (getFibre g 3).rejoin = [0])))) = true := by decide +kernel

/-- ControlTraps: every lane NOLAND or out of range, and one of eight; a full and an empty rejoin stack; a window at the limit, beyond the resident
registers and below them; a target with no overlay. -/
theorem witness_ControlTraps :
    let s := (List.range 8).foldl (fun a l => setV l 3 4 a) (at1 0)
    let full := withF 7 (fun f => { f with rejoin := List.replicate 16 0 }) (at1 0)
    let win := withF 7 (fun f => { f with wb := 65504 }) (at1 0)
    let spills := withF 7 (fun f => { f with wb := 1000 }) (at1 0)
    let mix := setV 0 3 4 (at1 0)
    let rets := (List.range 8).foldl (fun a l => setV l 24 6 (withF l (fun f => { f with wb := 8 }) a)) (at1 0)
    let under := withF 7 (fun f => { f with wb := 8, low := 8 }) (at1 0)
    let only := fun (o : Out) (l c : Nat) => goes o (fun t => holds (pathIn t 0 l) (fun p => p.mask = laneBit l && holds (pathTrap p) (fun x => x.cause = c)))
    (onCtx s (fun cx => cx.path.mask ≠ 0 && (List.range 8).all (fun l => indirectCode s 0 true (regVal cx (.v 3) l) ≠ 0)
        && trapped (exec (.jmp (.v 3)) s) 0 4 0 && !(callPending cx) && (callCheck cx).isNone && trapped (exec (.calli (.v 3)) s) 7 4 0)
      && onCtx mix (fun cx => indirectCode mix 0 true (regVal cx (.v 3) 1) = 0 && indirectCode mix 0 true (regVal cx (.v 3) 0) ≠ 0
        && only (exec (.jmp (.v 3)) mix) 0 4 && goes (exec (.jmp (.v 3)) mix) (fun t => holds (pathIn t 0 1) (fun p => p.pc = 0 && p.wait = .ready)))
      && onCtx rets (fun cx => !(pendingOn [24] cx) && cx.path.mask = 0xFF && (List.range 8).all (fun l => (getFibre cx.grp l).low = 0
          && indirectCode rets 0 false (vGet cx.grp l 24) ≠ 0) && trapped (exec .ret rets) 0 4 0)
      && onCtx under (fun cx => (getFibre cx.grp 7).wb.toNat < (getFibre cx.grp 7).low.toNat + 8 && goes (exec .ret under) (fun t =>
          holds (pathIn t 0 7) (fun p => holds (pathTrap p) (fun x => x.cause = 6 && x.lanes = 0x80))))
      && onCtx spills (fun cx => !(callPending cx) && (getFibre cx.grp 7).wb.toNat + 40 ≤ 65536 && (getFibre cx.grp 7).low.toNat + cx.grp.depth < 1040
        && [Instr.call ⟨0, 0⟩, .calli (.v 3)].all (fun i => goes (exec i spills) (fun t => holds (pathIn t 0 7) (fun p => holds (pathTrap p) (fun x => x.cause = 5 && x.lanes = 0x80)))))
      && onCtx full (fun cx => directTarget full cx ⟨0, 0⟩ = some 0 && 16 ≤ (getFibre cx.grp 7).rejoin.length && trapped (exec (.rejoin ⟨0, 0⟩) full) 0 8 1)
      && onCtx s (fun cx => (selLanes cx .all).contains 0 && (getFibre cx.grp 0).rejoin.length < 0 + 1 && trapped (exec (.brk .all 0) s) 0 8 2)
      && onCtx win (fun cx => !(callPending cx) && 65536 < (getFibre cx.grp 7).wb.toNat + 40 && trapped (exec (.call ⟨0, 0⟩) win) 0 7 0 && trapped (exec (.calli (.v 3)) win) 0 7 0)
      && onCtx s (fun cx => directTarget s cx ⟨1, 0x3FFF⟩ = none && trapped (exec (.bra ⟨1, 0x3FFF⟩) s) 0 1 5)) = true := by decide +kernel
/-- Every address below 2^30 is a byte of this device's HBM, for the cores of die 0 and its engines. -/
def mapped (s : State) : State :=
  let e : TlbEntry := { va := 0, bits := 30, da := 0x3FFFF * 2 ^ 46, w := true, nc := false }
  let s1 := modCore s 0 (fun k => { k with tlb := [e] })
  { s1 with xl := { s1.xl with dieTlb0 := [e], ptbase := 1 } }
/-- A host that has chosen the launch-header and bank-program versions. -/
def selected256 (s : State) : State := { s with mgmt := { s.mgmt with versel := 0x0100010001000100 } }
/-- A graph instance as the block of group 0 sees it. -/
def inst0 : Inst :=
  { hdr := 0x1000, nnode := 1, nodes := 0x2000, iprio := 0, cw := 5, donea := 0, donev := 0, status := 0, fnode := 0xFFFF, stopped := false,
    fires := [], running := [], kept := [] }
def withInst (s : State) : State := { s with esc := { s.esc with insts := [(0, inst0)] } }

/-- LoopsAndYield: a count of 0 and of 15, an increment, LEND in the last pass and before it, YIELD 0 and 511. -/
theorem witness_LoopsAndYield :
    let s := setS 6 3 (setS 7 0x00210000_00208000 (at1 0))
    let lp : LoopSt := { ncl := 1, pass := 0, count := 2, inc := 0x0005_0000_0020_8000, body := 8, captured := [] }
    let s1 := withP (fun p => { p with loop := some lp }) s
    let s2 := withP (fun p => { p with loop := some { lp with pass := 1 } }) s
    (onCtx s (fun cx => !(pendingOn [64 + 6, 64 + 7] cx) && allAt (exec (.loop 1 (.k 15) (some 7)) s) 8 (fun p => holds p.loop (fun x => x.count = 15))
        && allAt (exec (.loop 1 (.s 6) none) s) 8 (fun p => holds p.loop (fun x => x.count = 3)) && allAt (exec (.loop 1 (.k 0) none) s) 12)
      && onCtx s1 (fun cx => holds cx.path.loop (fun lp => !(pendingOn ((if lp.inc.getLsbD 15 then [64 + bitsOf lp.inc.toNat 16 5] else [])
        ++ (if lp.inc.getLsbD 21 then [64 + bitsOf lp.inc.toNat 22 5] else [])) cx)) && allAt (exec .lend s1) 8 (fun p => holds p.loop (fun x => x.pass = 1)))
      && onCtx s2 (fun cx => cx.path.loop.isSome && allAt (exec .lend s2) 8 (fun p => p.loop.isNone))
      && allAt (exec (.yield 0) s) 8 (fun p => p.yielded && p.wait = .ready) && allAt (exec (.yield 511) s) 8 (fun p => p.wait = .yield 511)) = true := by
  decide +kernel

/-- WaitsAndGraphs: a barrier that every fibre reaches, MWAIT with and without a monitor that has triggered, MARM on a line of HBM, LAUNCH of a
pointer at the end of the address space, misaligned, and with 16 pending, and CWSET. -/
theorem witness_WaitsAndGraphs :
    let s := withInst (selected256 (mapped (setS 5 0x1FFFFFFFFFFFF80 (setS 6 64 (at1 0)))))
    let m := withG (fun g => { g with monitor := .triggered }) s
    let ar := withG (fun g => { g with monitor := .armed 7 }) s
    let full := { s with esc := { s.esc with pending := List.replicate 16 0 } }
    (onCtx s (fun cx => let r := releaseAll s 0 s.nextId 3 cx.path.mask
        r.2 && ctxOf r.1 = some cx && r.1.blocks = s.blocks && (tget s.blocks cx.grp.block).isSome
        && goes (exec (.bar 15) s) (fun t => (barOf t 0 15).phase = 1) && allAt (exec (.bar 15) s) 8
        && (blockGroups r.1 0).all (fun q => q.1 = 0) && (barOf s 0 15).joined.isEmpty)
      && onCtx (withP (fun p => { p with mask := 1 }) s) (fun cx => (liveMask cx.grp).getLsbD 7 && !((getFibre cx.grp 7).arrived.getLsbD 15)
        && goes (exec (.bar 15) (withP (fun p => { p with mask := 1 }) s)) (fun t => (barOf t 0 15).phase = 0 && holds (tget t.groups 0) (fun g => (getFibre g 0).arrived.getLsbD 15)))
      && onCtx m (fun cx => !(pendingOn [64 + 31, 64 + 6] cx) && !(readsOpen cx.grp m.nextId cx.path.mask) && (monCode cx.grp.monitor).isSome && allAt (exec (.mwait 31 6) m) 8)
      && onCtx ar (fun cx => !(readsOpen cx.grp ar.nextId cx.path.mask) && (monCode cx.grp.monitor).isNone && allAt (exec (.mwait 31 6) ar) 8 (fun p => p.wait = .mwait 31 (some 64)))
      && onCtx s (fun cx => let r := xlateNow s (some 0) 0 64
        (match r.2 with | .ok e => daCheck r.1 e 64 false false = none && tgtOf r.1 (daOf e 64) = .hbm | _ => false) && ctxOf r.1 = some cx
        && goes (exec (.marm 2 6) s) (fun t => sReg t 0 2 = 0 && holds (tget t.groups 0) (fun g => g.monitor = .armed 0)))
      && goes (exec (.launch 2 5) s) (fun t => sReg t 0 2 = 0 && t.esc.pending = [0x1FFFFFFFFFFFF80])
      && onCtx s (fun cx => (releaseAll s 0 s.nextId 4 cx.path.mask).2 && ctxOf (releaseAll s 0 s.nextId 4 cx.path.mask).1 = some cx)
      && goes (exec (.launch 2 6) s) (fun t => sReg t 0 2 = 0x8000000000000001 && t.esc.pending = [])
      && goes (exec (.launch 2 5) full) (fun t => sReg t 0 2 = 0x8000000000000002)
      && onCtx s (fun cx => holds (tget s.blocks cx.grp.block) (fun b => (tget s.esc.insts b.inst).isSome))
      && goes (exec (.cwset .add 2 6) s) (fun t => sReg t 0 2 = 5 && holds (tget t.esc.insts 0) (fun x => x.cw = 69))) = true := by decide +kernel

/-- ClauseWords: a header at the first word of the code, NOP, a prefix before a word that takes it, UDF. -/
theorem witness_ClauseWords :
    let s := { placeCode State.reset (0xF7100000 :: 0 :: List.replicate 15 0) 0 0 none with agenda := [] }
    let p := { placeCode State.reset (0xF7200000 :: 0xF0750F00 :: 0x63081431 :: List.replicate 15 0) 1 0xF7200000 none with agenda := [] }
    (onCtx s (fun cx => cx.path.widx = 0 && (match fetchPath s 0 cx.path with
          | .code ws _ => codeAt ws 0 = 0xF7100000 && headerOk ws 0 && !(clauseWaits s cx.grp cx.path ws) | _ => false)
        && pathFree cx.grp cx.path && cx.path.lndCheck &&& cx.path.mask = 0 && octetsFree s 0 cx.grp cx.path && takesTurn s 0 cx.grp cx.path
        && goes (exec (.clauseHeader 1 0 false false 0 false 0 false false false) s) (fun t => holds (pathIn t 0 0) (fun q => q.widx = 1)))
      && onCtx p (fun cx => holds (nextWord p cx) (fun nw => pfxLegal (pfxOfNat 0xF0750F00) nw)
        && goes (exec (.pfx 3 true 2 true 7 true 0) p) (fun t => holds (pathIn t 0 0) (fun q => q.pfx = some 0xF0750F00 && q.widx = 2)))
      && goes (exec .nop (at2 0)) (fun t => holds (pathIn t 0 0) (fun q => q.widx = 2) && counter t 0 1 = 1)
      && trapped (exec (.udf 0xFFFFFF) (at1 0)) 0 1 2) = true := by decide +kernel

/-- PathEvents: an age of 1,024, a deadline that is now, a YIELD that has counted down, a group with no fibre left. -/
theorem witness_PathEvents :
    let p := fun (f : Path → Path) => withP (fun q => f { q with widx := 0, hdr := 0 }) (at1 0)
    let aged := p (fun q => { q with age := 1024 })
    let mw := p (fun q => { q with wait := .mwait 3 (some 0) })
    let yl := p (fun q => { q with wait := .yield 0 })
    let dead := withG (fun g => { g with lanes := g.lanes.map (fun x => (x.1, { x.2 with live := false })) }) (at1 0)
    (goes (exec (.pathAged 0 0) aged) (fun t => counter t 0 5 = 1) && goes (exec (.mwaitTimeout 0 0) mw) (fun t => sReg t 0 3 = 1 && holds (pathIn t 0 7) (fun q => q.wait = .ready))
      && goes (exec (.yieldExpiry 0 7) yl) (fun t => holds (pathIn t 0 7) (fun q => q.wait = .ready))
      && holds (tget dead.groups 0) (fun x => liveMask x = 0 && !(x.words.any wordOpen)) && (getCluster dead 0).mat.isEmpty
      && goes (exec (.groupEnd 0) dead) (fun t => (tget t.groups 0).isNone && holds (tget t.blocks 0) (fun b => b.groups.isEmpty))) = true := by
  decide +kernel

/-- Group 0 with lane 7 in a trap at its word, and a frame region at address 0. -/
def trapState : State :=
  let s := mapped (setS 24 0x55 (setV 7 24 0x77 (at1 0)))
  withP (fun p => { p with wait := .trap (mkTrap p 10 0 5 p.mask []) }) { s with mgmt := { s.mgmt with tfbase := 1 } }
/-- SoftwareTraps: TRAP 0 and BKPT 511, TRET at depth 0, TRET.fail. -/
theorem witness_SoftwareTraps :
    let s := at1 0
    (onCtx s (fun cx => cx.grp.tdepth = 0 && (tget s.blocks cx.grp.block).isSome) && trapped (exec .tret s) 0 1 7
      && goes (exec .tretFail s) (fun t => holds (tget t.blocks 0) (fun b => b.fatal)) && trapped (exec (.trap 0) s) 7 10 0 && trapped (exec (.bkpt 511) s) 0 11 0) = true := by
  decide +kernel
/-- TrapEntry: a frame that is written; a trap at depth 2; traps not delivered. -/
theorem witness_TrapEntry :
    let s := trapState
    let deep := withG (fun g => { g with tdepth := 2 }) s
    (holds (tget s.groups 0) (fun g => groupTrapping g && groupSettled s 0 g && g.tdepth < 2 && !g.frameOut && holds (tget s.blocks g.block) (fun b => !b.fatal)
        && !(mbAny s g.core (fun x => x.groups.contains 0)) && (let d := sbDrainAll s g.core (fun x => x.groups.contains 0); d.2 && d.1 = s)
        && (let r := writeParts s g.core (frameAddr s 0 g.tdepth).toNat (frameParts s g)
            (match r.2 with | .ok _ => true | _ => false) && r.1.fab.tx = s.fab.tx && tget r.1.groups 0 = some g && s.fab.tx.isEmpty)
        && goes (exec (.trapEntry 0) s) (fun t => holds (tget t.groups 0) (fun y => y.tdepth = 1 && y.frame0 = 0
          && y.paths.map (fun p => (p.mask, p.pc)) = [(0xFF, 0xFFFF0000)])))
      && holds (tget deep.groups 0) (fun g => groupTrapping g && groupSettled deep 0 g)
      && goes (exec (.trapEntry 0) deep) (fun t => holds (tget t.blocks 0) (fun b => b.fatal))
      && goes (exec (.trapEntry 0) (withP (fun p => { p with wait := .trap (mkTrap p 10 0 5 p.mask []) }) (at1 0))) (fun t => holds (tget t.blocks 0) (fun b => b.fatal)))
      = true := by decide +kernel
/-- The state in which the handler of that trap begins. -/
def handlerState : State := match exec (.trapEntry 0) trapState with | .next t => setS 24 0 (setV 7 24 0 { t with focus := some (0, 0) }) | _ => trapState
/-- TrapReturn: the handler returns, and v24, s24 and the path are as they were. -/
theorem witness_TrapReturn :
    onCtx handlerState (fun cx => cx.grp.tdepth = 1 && !(cx.grp.words.any wordOpen) && !(regsPending cx.grp (liveMask cx.grp) tretRegs)
      && (let r := readFrame handlerState cx.grp cx.grp.frame0
          match r.2 with
          | .ok h ps _ _ => holds (tget r.1.groups 0) (fun g => framePathsOk (liveMask g) h ps)
          | _ => false)
      && goes (exec .tret handlerState) (fun t => vReg t 0 7 24 = 0x77 && sReg t 0 24 = 0x55 && holds (tget t.groups 0) (fun y => y.tdepth = 0
          && y.paths.map (fun p => (p.mask, p.pc)) = [(0xFF, 0)]))) = true := by decide +kernel
/-- StatusRegisters: every index that the tables name and one they do not; WINBASE at the highest legal window. -/
theorem witness_StatusRegisters :
    let s := withInst (setS 4 32 (setS 5 0x1_0000_0007 (at1 0)))
    (onCtx s (fun cx => !(pendingOn [3] cx) && !(pendingOn [64 + 3] cx) && !(pendingOn (srcRegs (.s 4)) cx)
        && (List.range 8).all (fun l => winbaseOk cx.grp (readSrc cx .int (.s 4) l)))
      && goes (exec (.rdsr (.v 3) 2) s) (fun t => vReg t 0 7 3 = 0x40_0000_0000) && goes (exec (.rdsr (.s 3) 9) s) (fun t => sReg t 0 3 = 0xFFFF0000)
      && goes (exec (.rdsr (.v 3) 3) (withF 7 (fun f => { f with spilla := 0xFF }) s)) (fun t => vReg t 0 7 3 = 0xF8)
      && goes (exec (.rdsr (.s 3) 255) s) (fun t => sReg t 0 3 = 0) && goes (exec (.wrsr (.s 4) 2) s) (fun t => holds (tget t.groups 0) (fun g => (getFibre g 0).wb = 32))
      && goes (exec (.wrsr (.s 5) 9) s) (fun t => holds (tget t.groups 0) (fun g => g.tvec = 4))
      && goes (exec (.wrsr (.s 5) 5) s) (fun t => holds (tget t.esc.insts 0) (fun x => x.cw = 0x100000007))
      && goes (exec (.wrsr .ones 0) s) (fun t => lstatOf t 0 0 = 0x31F)) = true := by decide +kernel

/-- MatrixWords, MatrixTraps: B in registers and a tile of zeros at the last place it fits; a D that is no multiple of 4; a tile past the end. -/
theorem witness_MatrixWords :
    let s := setS 5 32512 (setS 6 32544 (setV 0 0 0x3F803F803F803F80 (setV 0 4 0x3F803F803F803F80 (at2 0))))
    (onCtx s (fun cx => [Instr.mqa 8 0 (.v 4) .bf16, .mqa 8 0 (.tile 5) .fp16, .mqai 8 0 (.v 4) .s4].all (fun i => holds (matSpec i) (fun q =>
          !(regsPending cx.grp cx.path.mask (matRegsOf (pfxOf cx) q.1 q.2.1 q.2.2.1 q.2.2.2)) && (matC q.2.2.2 (pfxOf cx) 8).isSome
          && goes (exec i s) (fun t => ((getCluster t 0).mat.map (fun r => (r.granted, r.outs.length))) = [(false, 32)])))
        && !(partLanes cx).isEmpty && (getCluster s 0).mat.isEmpty && (match readTile s cx 32512 256 with | .inr x => x = (0, false) | _ => false)
        && (match readTile s cx 32544 256 with | .inl e => e = scSpRange | _ => false))
      && goes (exec (.mqa 8 0 (.v 4) .bf16) s) (fun t => (getCluster t 0).mat.map (fun r => r.outs.take 1) = [[(0, 8, 0x0000000040800000)]])
      && trapped (exec (.mqa 9 0 (.v 4) .bf16) s) 0 1 5 && goes (exec (.mqa 8 0 (.tile 6) .bf16) s) (fun t =>
          holds (tget t.groups 0) (fun g => g.words.map (fun w => (w.op, w.lanes.map (fun y => (y.1, y.2.st))))
            = [(.tile, (List.range 8).map (fun l => (l, .listed scSpRange 0)))]))
      && (let w := withG (fun g => { g with words := [{ id := 0, op := .fence .device .acq, mask := 0xFF, uni := false, caddr := 0, widx := 1, word := 0, pfxw := 0, blk := 0, ans := [], replay := false, lanes := [(0, { st := .walk, va := 0, d0 := 0, d1 := 0, dlog := 0 })] }] }) { s with nextId := 9 }
          onCtx w (fun cx => tileWaits cx.grp w.nextId cx.path.mask && goes (exec (.mqa 8 0 (.tile 5) .fp16) w) (fun t => (getCluster t 0).mat.isEmpty
            && holds (pathIn t 0 0) (fun p => p.widx = 1))) && onCtx s (fun cx => !(tileWaits cx.grp s.nextId cx.path.mask)))) = true := by decide +kernel
/-- A request of group 0 in cluster 0's table. -/
def matReq (granted : Bool) (posted : Nat) : MatReq :=
  { id := 7, core := 0, group := 0, prio := 0, posted := posted, aged := false, granted := granted, int := true, outs := [(0, 8, 5), (7, 31, 6)],
    zeros := [(1, 8)], poison := false }
/-- MatrixEvents: a request that can be granted, one that has waited 256 cycles, a pass that ends with and without an error, MSYNC. -/
theorem witness_MatrixEvents :
    let s := fun (r : MatReq) => modCluster (setV 1 8 9 (at2 0)) 0 (fun c => { c with mat := [r] })
    let old := modCore (s (matReq false 0)) 0 (fun k => { k with perf := [(0, 256)] })
    ((nextReq (s (matReq false 0)) 0).isSome && goes (exec (.matrixGrant 0) (s (matReq false 0))) (fun t => (getCluster t 0).mat.map (·.granted) = [true])
      && goes (exec (.matrixRequestAged 0 7) old) (fun t => (getCluster t 0).mat.map (·.aged) = [true])
      && goes (exec (.matrixPassEnd 0 7 false) (s (matReq true 0))) (fun t => vReg t 0 0 8 = 5 && vReg t 0 7 31 = 6 && vReg t 0 1 8 = 0 && (getCluster t 0).mat.isEmpty)
      && goes (exec (.matrixPassEnd 0 7 true) (s (matReq true 0))) (fun t => vReg t 0 7 31 = 0x8000000080000000)
      && holds (tget (s (matReq true 0)).groups 0) (fun g => ((matReq true 0).outs.map (fun x => (x.1, slotOf g x.2.1))
        ++ (matReq true 0).zeros.map (fun x => (x.1, slotOf g x.2))).eraseDups.length = 3)
      && goes (exec .msync (at2 0)) (fun t => holds (pathIn t 0 0) (fun p => p.widx = 2))) = true := by decide +kernel
/-- A fetch of two rows of one line each from address 4,096 to the start of the scratchpad. -/
def mtfBlk : Nat := 4096 + 128 * 2 ^ 64 + 128 * 2 ^ 96 + 2 * 2 ^ 112
/-- TileFetch: the start of MTF and of MTFR at the last line, and a line that lands from memory. -/
theorem witness_TileFetch :
    let s := fun (b : Nat) => let x := mapped (setS 5 64 (at2 0)); { x with mem := { x.mem with cells := cellsWrite [] 64 64 b } }
    let s1 := s mtfBlk
    let f := match exec (.mtf 2 5) s1 with | .next t => t | _ => s1
    (onCtx s1 (fun cx => !(pendingOn [64 + 2, 64 + 5] cx) && (getCore s1 0).fetches.isEmpty && !(storesOpen cx.grp s1.nextId (BitVec.allOnes 64)) && memGate s1 0
        && (let r := spanRead s1 (some 0) 0 64 64
            (match r.2 with | .ok b => b = mtfBlk && !(mtfBad r.1 0 0 b false) | _ => false) && (getCore r.1 0).fetches.isEmpty))
      && onCtx (s (mtfBlk + 2 ^ 160)) (fun _ => goes (exec (.mtfr 2 5) (s (mtfBlk + 2 ^ 160))) (fun t => (getCore t 0).fetches.map (fun f => (f.start, f.d)) = [(1, 2)]))
      && holds (getCore f 0).fetches.head? (fun x => x.stop.isNone && x.start = 0 && mtfLines x.blk = 2 && x.landed.isEmpty && f.fab.tx.isEmpty
        && (let q := xlateNow f (some 0) 0 (mtfVa x.blk 1)
            (match q.2 with | .ok e => tgtOf q.1 (daOf e 4224) = .hbm && (ownBuffers q.1 0 (devLine q.1 33)).2
              && (homeAdmit (ownBuffers q.1 0 (devLine q.1 33)).1 33 (BitVec.allOnes 128) false).2 | _ => false))
        && goes (exec (.mtfLineArrival 0 x.id 1 { code := 0, data := 0 }) f) (fun t => (getCore t 0).fetches.map (·.landed) = [[1]])
        && (let c := fetchClear f 0 x; c.2 && (hostFails c.1 4224).isNone && (admitType .o c.1 33 (BitVec.allOnes 128) false).2
            && (match (xlateNow c.1 (some 0) 0 4224).2 with | .ok e => (daCheck c.1 e 4224 false false).isNone | _ => false))
        && (spadOf f 0 0).isSome && mtfNext x = 0 && mtfNext { x with landed := [0] } = 1 && spadAt (fetchLand f 0 x 1 0xABCD 0) 0 0 128 = 0xCD
        && (let u := fetchLand (fetchLand f 0 x 1 7 0) 0 { x with landed := [1] } 0 9 0
            (getCore u 0).fetches.isEmpty && sReg u 0 2 = 0x20000 && memAt u 84 = 2 && spadAt u 0 0 0 = 9)
        && (let u := fetchLand f 0 x 1 7 2; (getCore u 0).fetches.isEmpty && sReg u 0 2 = 0x003 && memAt u 96 = 0x80 && memAt u 97 = 0x10)
        && (let tx : FabTx := { chip := 5, plane := 2, sn := 0, origin := .mtf 0 x.id 1, req := .read 0 128 false, timer := 0, resends := 0, reported := false, low := 0 }
            let r := { f with fab := { f.fab with tx := [tx] } }
            goes (exec (.mtfLineArrival 0 x.id 1 { code := 0, data := 0x55 }) r) (fun t => spadAt t 0 0 128 = 0x55 && t.fab.tx.isEmpty)
            && goes (exec (.mtfLineArrival 0 x.id 1 { code := 2, data := 0 }) r) (fun t => sReg t 0 2 = 0x204)))) = true := by
  decide +kernel
/-- SmallMatrixWords and SmallMatrixFrame: a 2 × 2 factorization, the largest sizes of SMM, a size of 0. -/
theorem witness_SmallMatrixWords :
    let s := setS 3 2 (setS 4 6 (setS 5 0 (setV 0 10 0x40000000_3F800000 (setV 0 11 0x40800000_40400000 (at2 0)))))
    let p := withP (fun q => { q with pfx := some 0xF0008500 }) (setS 2 0x1B6 s)
    (onCtx s (fun cx => holds (smSpec (.sluf 12 10 3 .fp32)) (fun W => W.shape cx = some 3 && (let w := shapeOf 2
          !(regsPending cx.grp cx.path.mask ((64 + 3) :: (W.uses w ++ rangeFrom 12 (min (W.nd w) 32)))) && !w.rest && W.ok w && W.nd w ≤ 20
          && (W.uses w).all (· < 32) && !(W.ok (shapeOf 0))))
        && goes (exec (.sluf 12 10 3 .fp32) s) (fun t => vReg t 0 0 14 = 0x0101 && vReg t 0 0 12 = 0x40800000_40400000)
        && trapped (exec (.sluf 12 10 5 .fp32) s) 0 1 5)
      && onCtx p (fun cx => holds (smSpec (.smm 0 6 12 .fp32)) (fun W => W.shape cx = some 2 && W.ok (shapeOf 0x1B6) && W.nd (shapeOf 0x1B6) = 18))) = true := by
  decide +kernel

/-- The state that exec gives. -/
def after (i : Instr) (s : State) : State := match exec i s with | .next t => t | _ => s
/-- Bytes of a number in memory. -/
def withMem (a n v : Nat) (s : State) : State := { s with mem := { s.mem with cells := cellsWrite s.mem.cells a n v } }
/-- Group 0 with s5 = 65,408 + 8, every v3 = 8 × lane + 256, v4 = lane + 1, with every low address mapped. -/
def memState : State :=
  setS 5 0xFF88 ((List.range 8).foldl (fun a l => setV l 4 (BitVec.ofNat 64 (l + 1)) (setV l 3 (BitVec.ofNat 64 (256 + 8 * l)) a)) (mapped (at2 0)))
/-- No word or record of the group is under way. -/
def nothingOut (s : State) : Bool :=
  holds (tget s.groups 0) (fun g => g.words.isEmpty && g.replays.isEmpty && g.bgwaits.isEmpty) && s.stackTbl.isEmpty
/-- The record of the latest memory word of group 0. -/
def lastWord (s : State) : Option MemWord := match tget s.groups 0 with | some g => g.words.getLast? | none => none
def pathWidx (s : State) : Nat := match pathIn s 0 0 with | some p => p.widx | none => 0
/-- MemoryIssue: the gate open with a lane and without one, and closed; MemoryIssueFrame: a group with nothing under way. -/
theorem witness_MemoryIssue :
    let s := memState
    let none_ := withP (fun p => { p with pfx := some 0xF0100000 }) s
    let shut := after (.cflush (.v 3) false) s
    ([Instr.ld (.v 6) (.v 3) .u .b8 0x3F, .st (.v 4) (.v 3) .w .b1 0x20, .atom 4 (.v 3) .addN32 .dev .ar, .cas 30 (.v 3) false true .core .rlx, .gath 6 (.v 3) 5 .b2].all (fun i =>
        onCtx s (fun cx => holds (memSpec i) (fun W => !(pendingOn W.regs cx) && !(W.ents cx).isEmpty && memGate (settleGroup (cleared W cx s) 0) 0
          && holds (tget (settleGroup (cleared W cx s) 0).groups 0) (fun g => ((pendList s 0).length + newPages s 0 W.op ((W.ents cx).map (fun e => e.2.1.toNat))) ≤ 1024
            && (g.words.filter wordWalks).length < 32) && nothingOut s && cx.grp.words.isEmpty)
          && goes (exec i s) (fun t => (lastWord t).isSome && holds (pathIn t 0 0) (fun p => p.widx = 2))))
      && onCtx none_ (fun cx => holds (memSpec (.ld (.v 6) (.v 3) .u .b8 0)) (fun W => (W.ents cx).isEmpty && memGate (settleGroup (cleared W cx none_) 0) 0)
          && goes (exec (.ld (.v 6) (.v 3) .u .b8 0) none_) (fun t => (lastWord t).isNone && holds (pathIn t 0 0) (fun p => p.widx = 2)))
      && onCtx shut (fun cx => holds (memSpec (.ld (.v 6) (.v 3) .u .b8 0)) (fun W => !(W.ents cx).isEmpty && !(memGate (settleGroup (cleared W cx shut) 0) 0)))
      && [Instr.st (.v 4) (.v 3) .s .b8 0, .st (.v 4) (.v 3) .o .b8 0, .red (.v 4) (.v 3) .n32 .add, .fence .device .ar].all (fun i => (memSpec i).isSome
          && (getCore s 0).sb.isEmpty && ((getCore s 0).tlb ++ dieTlb s 0).all (fun e => !e.nc) && s.cores.all (fun c => c.2.l1.isEmpty)
          && goes (exec i s) (fun t => memAt t 256 = 0 && holds (pathIn t 0 0) (fun p => p.widx = 2)))
      && goes (exec (.ld (.v 6) (.v 3) .u .b8 0) shut) (fun t => holds (lastWord t) (fun w => w.op = .cflush false) && holds (pathIn t 0 0) (fun p => p.widx = pathWidx shut))) = true := by decide +kernel
/-- ScratchpadWords: the last byte that fits, two lanes at one place, and a scale table of one channel. -/
theorem witness_ScratchpadWords :
    let s := setS 5 32767 (setS 6 0x1_0000_0000 (setV 2 4 0xC0 (setV 7 4 0x38 (at2 0))))
    let t := after (.sts (.v 4) (.s 5) .b1 0) s
    let z := setV 0 2 0x40000000 (after (.sts (.v 4) (.s 6) .b1 0) (setS 6 0 s))
    (onCtx s (fun cx => nothingOut s && cx.grp.words.isEmpty && (partLanes cx).all (fun _ => spadReadBad s 0 0 32767 1 = none && spadWriteBad s 0 0 32767 1 = none)
        && !(pendingOn (srcRegs (.v 4) ++ regRegs (.s 5)) cx) && srcReady cx false (.v 4) && (getFibre cx.grp 0).low = 0 && 31 < cx.grp.depth)
      && spadAt t 0 0 32767 = 0x38 && spadAt t 0 0 32766 = 0 && goes (exec (.lds (.v 9) (.s 5) .b1 0) t) (fun u => vReg u 0 3 9 = 0x38)
      && goes (exec (.lds (.s 9) (.s 5) .b1 0) t) (fun u => sReg u 0 9 = 0x38)
      && (match rsclLane (setS 6 0x1_0000_0000 z) 0 0 0x40000000 0x1_0000_0000 with | .inr _ => true | .inl _ => false)
      && goes (exec (.rscl (.v 9) (.v 2) 6) (setS 6 0x1_0000_0000 z)) (fun u => vReg u 0 0 9 = 0)
      && goes (exec (.rscl (.s 9) (.v 2) 6) (setS 6 0x1_0000_0000 z)) (fun u => sReg u 0 9 = 0 && lstatOf u 0 0 = 0)
      && goes (exec (.rscl (.y 0) (.v 2) 6) (withP (fun p => { p with widx := 1 }) (setS 6 0x1_0000_0000 z))) (fun u => holds (pathIn u 0 0) (fun p => holds p.y0 (fun y => tgetD y.vals 0 5 = 0)))) = true := by decide +kernel
/-- LaneTranslation: misaligned, the last byte of the address space and beyond it, a hit and a miss. -/
theorem witness_LaneTranslation :
    let bad := after (.ld (.v 6) (.s 5) .u .b8 1) (setS 5 4 memState)
    let high := after (.ld (.v 6) (.s 5) .u .b8 0) (setS 5 0x200000000000000 memState)
    let edge := after (.ldu (.v 6) (.s 5) .u .b8 0) (setS 5 0x1FFFFFFFFFFFFFC memState)
    let miss := after (.ld (.v 6) (.s 5) .u .b8 0) (setS 5 0x1FFFFFFFFFFFFF8 memState)
    let hit := after (.ld (.v 6) (.v 3) .u .b8 0) memState
    let st := fun (s : State) (l : Nat) (p : LaneSt → Bool) => holds (lastWord s) (fun w => holds (tget w.lanes l) (fun a => p a.st))
    (st bad 7 (fun x => x = .listed scMisalign 0) && st high 0 (fun x => x = .listed scNonCanon 0)
      && st edge 0 (fun x => x = .listed scNonCanon 0) && pageRoom memState 0 0x1FFFFFFFFFF && st miss 0 (fun x => x = .walk)
      && pendList miss 0 = [0x1FFFFFFFFFF] && holds (tget miss.groups 0) (fun g => !(pageAhead g memState.nextId 0x1FFFFFFFFFF)) && st hit 7 (fun x => x = .req (0x3FFFF * 2 ^ 46 + 312) 0 false)) = true := by decide +kernel
/-- A page table at 4,096 whose root entry 0 is a table entry to itself, entry 1 malformed, entry 2 a leaf; PTBASE names it. -/
def walkState : State :=
  let s := withMem (4096 + 16) 8 0x7 (withMem (4096 + 8) 8 0x21 (withMem 4096 8 (4096 * 1 + 1) (at2 0)))
  { s with xl := { s.xl with ptbase := 0x1001, pend0 := [0] } }
/-- PageWalks: entries that are absent, malformed, a table and a leaf; a page that a walk gives. -/
theorem witness_PageWalks :
    let e := fun (va n : Nat) => (walkAt.entry va walkState 4096 n).2
    (holds (e 0x1000000000000 4) (fun p => p = (0x21, false) && pteBad 4 0x21) && holds (e 0 4) (fun p => p = (0x1001, false) && !(pteBad 4 0x1001))
      && holds (e 0x3000000000000 4) (fun p => p = (0, false)) && holds (e (2 * 2 ^ 16) 0) (fun p => p = (7, false) && !(pteBad 0 7))
      && (match walkAt 0 0x20000 0 walkState 4096 with | (_, .leaf x) => x.da = 0 && x.w && !x.nc && x.va = 0x20000 | _ => false)
      && (match (walk walkState 0 0).2 with | .fault sub => sub = scBadPte || sub = scNotMapped | .leaf _ => false | .held _ => false)
      && (pendList walkState 0).take 128 = [0]
      && !(State.reset.xl.ptbase.getLsbD 0) && (match (walk State.reset 0 0).2 with | .fault sub => sub = scNotMapped | _ => false)) = true := by decide +kernel
/-- LoadEvents: a lane whose home answers, data that comes, a plain copy in memory. -/
theorem witness_LoadEvents :
    let s := after (.ld (.v 6) (.v 3) .u .b8 0) (withMem 256 8 0x123456789 memState)
    let id := (match lastWord s with | some w => w.id | none => 0)
    let d := after (.homeSliceRead 0 id 0) s
    let pf := after (.pref true (.v 3) .w 0) memState
    let line := devLine s 2
    (holds (wordAt s 0 id) (fun x => holds (tget x.2.lanes 0) (fun a => a.st = .req (0x3FFFF * 2 ^ 46 + 256) 0 false && inOrder x.1 x.2 0 a
          && (let q := loadPiece x.2.op a (0x3FFFF * 2 ^ 46 + 256) 0
              tgtOf s q.1 = .hbm && (match laneLine s 0 0 .u true 2 (spanMask 0 8) false with | (_, some (_, pz)) => pz &&& spanSectors 0 8 = 0 | _ => false))))
      && (match laneLine s 0 0 .u true 2 (spanMask 0 8) false, homeAdmit s 2 (spanMask 0 8) false with
          | (a, some _), (b, true) => a = homeRead b 2 | _, _ => false)
      && (sbGet (getCore s 0) line).isNone && !(mbAny s 0 (·.line = line)) && (homeRead s 2).cores.all (fun c => c.2.regions.isEmpty)
      && holds (wordAt d 0 id) (fun x => holds (tget x.2.lanes 0) (fun a => a.st = .data 0x123456789 0))
      && goes (exec (.memoryResponse 0 id 0) d) (fun t => vReg t 0 0 6 = 0x123456789 && vReg t 0 1 6 = 0)
      && holds (lastWord pf) (fun w => holds (tget w.lanes 1) (fun a => (match a.st with | .req _ _ _ => true | _ => false)))
      && !(heldLa pf 256) && memPoison pf 2 = 0 && (homeAdmit pf 2 (spanMask 0 1) false).2
      && holds (lastWord pf) (fun w => goes (exec (.homeSliceRead 0 w.id 0) pf) (fun t => t ≠ pf))) = true := by decide +kernel
/-- StoreEvents: the three types of store to one line by eight lanes, a drained entry and an eviction from a full set. -/
theorem witness_StoreEvents :
    let s := fun (t : MType) => withG (fun g => { g with words := g.words.map (fun w => { w with op := .store t .b8 }) }) (after (.st (.v 4) (.v 3) .w .b8 0) memState)
    let id := memState.nextId
    let dl := devLine memState 2
    let ev := fun (t : MType) => after (.homeSliceWrite (.lane 0 id 7)) (s t)
    let dr := modCore (ev .s) 0 (fun k => { k with sb := k.sb.map (fun e => { e with draining := true }) })
    let full := modCore memState 0 (fun k => { k with l1 := (List.range 8).map (fun j =>
      { line := 2 + j * l1Sets memState 0, form := .ow, valid := 15, dirty := 1, poison := 0, data := 0x77 }) })
    (([MType.s, .w, .u, .o].all (fun t => holds (wordAt (s t) 0 id) (fun x => let ls := lanesAtLine (s t) x.2 dl false
          ls.length = 8 && ls.all (fun y => inOrder x.1 x.2 y.1 y.2) && !(mbAny (s t) 0 (·.line = dl)) && !(takenAt (s t) 0 (some id) (some dl)) && (tget (getCore (s t) (regionCore (s t) 0)).regions 0).isNone
          && (sbGet (getCore (s t) 0) dl).isNone && (homeAdmit (s t) 2 (mergeLanes 8 ls).1 true).2 && (sbRoom (s t) 0 dl).2
          && (mergeLanes 8 ls).1.getLsbD 63 && !((mergeLanes 8 ls).1.getLsbD 64) && (mergeLanes 8 ls).2.extractLsb' 448 64 = 8)))
      && memAt (ev .w) 256 = 1 && memAt (ev .u) 312 = 8 && memAt (ev .s) 256 = 0 && memAt (ev .o) 256 = 0
      && holds (l1Get (getCore (ev .o) 0) 2) (fun y => y.form = .ow && y.dirty = 3)
      && holds (sbGet (getCore dr 0) dl) (fun e => e.draining && e.mask = BitVec.ofNat 128 (2 ^ 64 - 1) && (homeAdmit dr 2 e.mask true).2) && dlLocal dr dl
      && memAt (after (.homeSliceWrite (.storeBuf 0 dl)) dr) 312 = 8
      && (let y := 2 + 7 * l1Sets full 0
          (l1Get (getCore full 0) y).isSome && ((getCore full 0).l1.filter (fun v => l1SetOf full 0 v.line = l1SetOf full 0 y)).length = 8
          && memAt (after (.homeSliceWrite (.l1Evict 0 y)) full) (y * 128) = 0x77 && (l1Get (getCore (after (.homeSliceWrite (.l1Evict 0 y)) full) 0) y).isNone)) = true := by
  decide +kernel
/-- AtomicEvents: ATOM.add and CAS on the last element of a line, with every order part done at once. -/
theorem witness_AtomicEvents :
    let s0 := setS 6 376 (withMem 376 8 5 (setV 0 8 5 (setV 0 9 0x99 memState)))
    let at_ := after (.atom 4 (.s 6) .addN64 .dev .ar) s0
    let cs := after (.cas 8 (.s 6) false true .core .rlx) s0
    let id := s0.nextId
    let ok := fun (s : State) => holds (wordAt s 0 id) (fun x => holds (tget x.2.lanes 0) (fun a => a.st = .req (0x3FFFF * 2 ^ 46 + 376) 0 false
      && tgtOf s (0x3FFFF * 2 ^ 46 + 376) = .hbm && inOrder x.1 x.2 0 a
      && (let b := ownBuffers s 0 (dlOf s (0x3FFFF * 2 ^ 46 + 376))
          let w := atomWrites b.1 x.2.op a (0x3FFFF * 2 ^ 46 + 376)
          let r := if ordRel (opOrd x.2.op) && w then releaseTry b.1 0 id (ascopeRank (opScope x.2.op)) (laneBit 0) else (b.1, true)
          let h := homeAdmit r.1 2 (spanMask 120 8) true
          r.2 && b.2 && h.2 && memPoison (recallOw h.1 2 none) 2 &&& spanSectors 120 8 = 0 && lineRead (memLine (recallOw h.1 2 none) 2) 120 8 = 5
            && cellsWf (recallOw h.1 2 none).mem.cells && (recallOw h.1 2 none).cores.all (fun c => c.2.l1.isEmpty))))
    (holds (wordAt at_ 0 id) (fun x =>
        let w := { x.2 with ans := [(promKey 0, at_.fab.chipid * 65536 + 3, 0)] }
        (acquireTry at_ 0 0 id 0 x.2).2 && (promoteCore at_ 3 0).2 && (acquireTry at_ 0 0 id 0 w).2 && !(mbAny (promoteCore at_ 3 0).1 3 (fun _ => true)))
      && ok at_ && ok cs && memAt (after (.homeSliceWrite (.lane 0 id 0)) at_) 376 = 6 && memAt (after (.homeSliceWrite (.lane 0 id 0)) cs) 376 = 0x99
      && holds (wordAt (after (.homeSliceWrite (.lane 0 id 0)) cs) 0 id) (fun x => holds (tget x.2.lanes 0) (fun a => a.st = .data 5 1))) = true := by decide +kernel
/-- CacheWords: CFLUSH of a line the L1 owns; CINV of a UT copy; FENCE with nothing outstanding; the last buffer index and one past the buffers. -/
theorem witness_CacheWords :
    let ow := modCore (setS 6 256 memState) 0 (fun k => { k with l1 := [{ line := 2, form := .ow, valid := 15, dirty := 1, poison := 0, data := 0x77 }] })
    let fl := after (.cflush (.s 6) false) ow
    let ut := modCore memState 0 (fun k => { k with l1 := [{ line := 2, form := .ut, valid := 15, dirty := 0, poison := 0, data := 0 }] })
    let id := ow.nextId
    (holds (wordAt fl 0 id) (fun x => holds (tget x.2.lanes 0) (fun a => a.st = .req (0x3FFFF * 2 ^ 46 + 256) 0 false && inOrder x.1 x.2 0 a)
        && !(heldLa fl 256) && !(givingLa fl 256) && !(takenAt fl 0 none (some (dlOf fl (0x3FFFF * 2 ^ 46 + 256)))) && (sbDrain fl 0 (dlOf fl (0x3FFFF * 2 ^ 46 + 256))).2)
      && (l1Get (getCore (after (.homeSliceWrite (.lane 0 id 0)) fl) 0) 2).isNone && memAt (after (.homeSliceWrite (.lane 0 id 0)) fl) 256 = 0x77
      && (l1Get (getCore ow 0) 2).isSome && memAt (l1Drop ow 0 2) 256 = 0x77 && memAt (l1Drop ow 0 2) 288 = memAt ow 288
      && nothingOut ut && !(takenAt ut 0 none none) && !(drainsOpen ut 0) && onCtx ut (fun cx => cx.grp.words.isEmpty) && (getCore ut 0).sb.isEmpty && (getCore ut 0).mb.isEmpty && onCtx ut (fun cx => !(fabOpen ut 0 cx.path.mask))
      && (getCore (after (.cinv none) ut) 0).l1.isEmpty && (getCore (after (.fence .fabric .acq) ut) 0).l1.isEmpty && (getCore (after (.fence .group .ar) ut) 0).l1.length = 1
      && onCtx ut (fun cx => (tget ut.blocks cx.grp.block).isSome) && goes (exec (.bufget 2 15) ut) (fun t => sReg t 0 2 = 0xFF)
      && goes (exec (.bufset 2 true 15) ut) (fun t => sReg t 0 2 = 2)) = true := by decide +kernel

/-- LeaseWords: ROWGIVE of 64 row sets and of 0, ROWTAKE and FENCE.MODE of every state of a lease, of a stale handle and of a value that is no
handle, and LAYOUT. -/
theorem witness_LeaseWords :
    let blk := 0x100000 + 64 * 2 ^ 64 + 1 * 2 ^ 80 + 0x10000000 * 2 ^ 128
    let s0 := setS 5 0x2000 (withMem 0x2000 32 blk (mapped (at2 0)))
    let s := { s0 with time := { s0.time with mode := .selfTimed } }
    let g := after (.rowgive 2 5) s
    let in_ := fun (k : LeaseSt) => modLease (setS 3 0 s) 0 0 (fun y => { y with st := k })
    let l := setS 6 0x4000 (withMem 0x4000 64 (0x100000 * 2 ^ 64) s)
    (onCtx s (fun cx => !(pendingOn [64 + 2, 64 + 5] cx) && memGate s 0 && !(storesOpen cx.grp s.nextId (BitVec.allOnes 64)) && nothingOut s && cx.grp.words.isEmpty
        && (match spanRead s (some 0) 0 0x2000 32 with | (u, .ok b) => b = blk && (rowGive u 0 b).2 = some 0 && (rowGive u 0 (blk - 64 * 2 ^ 64)).2 = some 0x8000000000000005 | _ => false))
      && sReg g 0 2 = 0 && (leaseEntry g 0 0).st = .reserved && (leaseEntry g 0 0).rowSets.length = 64
      && goes (exec (.rowtake 2 3) (setS 3 65536 s)) (fun t => sReg t 0 2 = 1) && goes (exec (.rowtake 2 3) (setS 3 1024 s)) (fun t => sReg t 0 2 = 1)
      && goes (exec (.rowtake 2 3) (in_ .free)) (fun t => sReg t 0 2 = 1) && goes (exec (.rowtake 2 3) (in_ .ending)) (fun t => sReg t 0 2 = 2)
      && goes (exec (.rowtake 2 3) (in_ .returning)) (fun t => sReg t 0 2 = 2) && (cancelLease (in_ .reserved) 0 0).2
      && goes (exec (.rowtake 2 3) (in_ .reserved)) (fun t => sReg t 0 2 = 0 && (leaseEntry t 0 0).st = .free)
      && goes (exec (.rowtake 2 3) (in_ (.giving false))) (fun t => sReg t 0 2 = 0 && (leaseEntry t 0 0).st = .giving true)
      && goes (exec (.rowtake 2 3) (in_ .held)) (fun t => sReg t 0 2 = 0 && (leaseEntry t 0 0).st = .ending && (leaseEntry t 0 0).cause = 1)
      && goes (exec (.fenceModeGive 2 3) (setS 3 65536 s)) (fun t => sReg t 0 2 = 1) && goes (exec (.fenceModeTake 2 3) (setS 3 65536 s)) (fun t => sReg t 0 2 = 1)
      && goes (exec (.fenceModeGive 2 3) (in_ .held)) (fun t => sReg t 0 2 = 2) && goes (exec (.fenceModeTake 2 3) (in_ .held)) (fun t => (getStack t 0).modeWaits.length = 1)
      && goes (exec (.fenceModeTake 2 3) (in_ .reserved)) (fun t => sReg t 0 2 = 2)
      && goes (exec (.fenceModeGive 2 3) (in_ .reserved)) (fun t => (leaseEntry t 0 0).st = .giving false && (getStack t 0).modeWaits.length = 1)
      && goes (exec (.layout 6 63) l) (fun t => !(tagOn t 0 63) && (getStack t 0).layq.length = 1)
      && (getStack l 0).layq.isEmpty && tagFree l 0 63 && (releaseAll l 0 l.nextId 5 (BitVec.allOnes 64)).2) = true := by decide +kernel
/-- PublicationPhases: sizes of 0, of 2^24 and past the end of the address space, an overlap, the fourth region, and the three answers of PHASE.end. -/
theorem witness_PublicationPhases :
    let s := setS 4 256 (setS 5 (2 ^ 24) (at2 0))
    let r : Region := { block := 0, base := 4096, size := 128, early := false, lines := [], atHome := [], ending := none }
    let three := modCore (setS 4 8192 s) 0 (fun k => { k with regions := [(0, r), (1, r), (2, r)] })
    let three' := setS 5 128 three
    let four := modCore three' 0 (fun k => { k with regions := [(0, r), (1, r), (2, r), (3, r)] })
    let lines := modCore s 0 (fun k => { k with regions := [(3, { r with lines := [(2, 1, 0x77), (32, 2, 0x5500)] })] })
    let lost := { setS 6 3 s with blocks := s.blocks.map (fun b => (b.1, { b.2 with lostRegions := [3] })) }
    let e := after (.phaseEnd 2 6) (setS 6 0 three')
    (onCtx s (fun cx => !(pendingOn [64 + 2, 64 + 4, 64 + 5] cx) && memGate s 0 && nothingOut s && (tget s.blocks cx.grp.block).isSome && (getCore s 0).sb.isEmpty)
      && goes (exec (.phaseOpen 2 4 5) s) (fun t => sReg t 0 2 = 0) && goes (exec (.phaseOpen 2 4 5) (setS 5 0 s)) (fun t => sReg t 0 2 = 0x8000000000000001)
      && goes (exec (.phaseOpen 2 4 5) (setS 4 0xFFFFFFFFFFFFFF80 s)) (fun t => sReg t 0 2 = 0x8000000000000001)
      && goes (exec (.phaseOpen 2 4 5) three') (fun t => sReg t 0 2 = 3) && goes (exec (.phaseOpen 2 4 5) four) (fun t => sReg t 0 2 = 0x8000000000000003) && goes (exec (.phaseOpen 2 4 5) (setS 4 4096 three')) (fun t => sReg t 0 2 = 0x8000000000000002)
      && holds (tget (getCore e (regionCore e 0)).regions 0) (fun q => q.ending.isSome) && regionCore e 0 = 0
      && goes (exec (.phaseEnd 2 6) (setS 6 4 s)) (fun t => sReg t 0 2 = 0x8000000000000004) && goes (exec (.phaseEnd 2 6) lost) (fun t => sReg t 0 2 = 0x8000000000000005)
      && (let q := shadowAdmit lines [(2, 1, 0x77, 0), (32, 2, 0x5500, 0)]; let u := publishTry lines 0 3
          q.2 && u.2 && memAt u.1 256 = 0x77 && memAt u.1 4097 = 0x55 && memAt u.1 4096 = 0 && (tget (getCore u.1 0).regions 3).isNone)
      && (let h := modLease (setS 3 0 lines) 0 0 (fun y => { y with st := .held, rowSets := [0] }); !(shadowAdmit h [(2, 1, 0x77, 0), (32, 2, 0x5500, 0)]).2 && !(publishTry h 0 3).2)
      && (publishTry e 0 0).2 && goes (exec (.phasePublication 0 0) e) (fun t => sReg t 0 2 = 0 && (tget (getCore t 0).regions 0).isNone)
      && memAt (shadowCommit s (2, 1, 0x77, 0)) 256 = 0x77 && memAt (shadowCommit s (2, 1, 0x77, 0)) 257 = 0) = true := by decide +kernel
/-- Reductions: a lane that finds no entry and one that finds its entry, and a flushed element at its home. -/
theorem witness_Reductions :
    let s := withG (fun g => { g with paths := g.paths.map (fun p => { p with mask := 1 }) }) memState
    let r1 := after (.red (.v 4) (.v 3) .n32 .add) s
    let fl := modCore r1 0 (fun k => { k with mb := k.mb.map (fun e => { e with flushed := true }) })
    let dl := devLine s 2
    let held := modCore r1 0 (fun k => { k with mb := [] })
    let lane0 : LaneAcc := { st := .req (0x3FFFF * 2 ^ 46 + 256) 0 false, va := 256, d0 := 7, d1 := 0, dlog := 0 }
    let word : MemWord := { id := 50, op := .red .n32 .add, mask := 1, uni := false, caddr := 0, widx := 1, word := 0, pfxw := 0, blk := 0, ans := [], replay := false, lanes := [(0, lane0)] }
    let w := withG (fun g => { g with words := [word] })
    let nc := withG (fun g => { g with words := [{ word with lanes := [(0, { lane0 with st := .req (0x3FFFF * 2 ^ 46 + 256) 0 true })] }] })
    let far := withG (fun g => { g with words := [{ word with lanes := [(0, { lane0 with st := .req (5 * 2 ^ 46 + 256) 0 true })] }] })
    let net := fun (x : State) => { x with fab := { x.fab with chipid := 7, links := (List.range 16).map (fun k => (k, 0x100)), calm := [(5, 1)] } }
    let ent := fun (k : Nat) => ({ line := k, ty := .n32, op := .add, vals := [(124, 1), (0, 2)], groups := [0], blocks := [0], flushed := false } : MbEntry)
    let buf := fun (es : List MbEntry) (x : State) => modCore x 0 (fun k => { k with mb := es })
    let rm := net (buf [{ ent (5 * 2 ^ 39 + 2) with flushed := true }] s)
    let asked := fun (o : Out) (k : Nat) => goes o (fun t => (getCore t 0).mb.map (fun e => (e.flushed, decide (e.line = k))) = (getCore t 0).mb.map (fun e => (decide (e.line = k), decide (e.line = k))) && (getCore t 0).mb.any (·.line = k))
    let ok := fun (x : State) => holds (wordAt x 0 50) (fun y => holds (tget y.2.lanes 0) (fun a => inOrder y.1 y.2 0 a))
    (holds ((getCore r1 0).mb.find? (·.line = dl)) (fun e => tget e.vals 0 = some 1 && !e.flushed)
      && ok (w r1) && ok (w held) && !(takenAt (w r1) 0 none (some dl))
      && asked (exec (.homeSliceWrite (.lane 0 50 0)) (w (buf [{ ent dl with op := .xor }] s))) dl
      && asked (exec (.homeSliceWrite (.lane 0 50 0)) (w (buf ((List.range 32).map (fun k => ent (dl + 40 - k))) s))) (dl + 9)
      && tgtOf s (0x3FFFF * 2 ^ 46 + 256) = .hbm && (admitType .u s 2 (spanMask 0 4) true).2 && memAt (after (.homeSliceWrite (.lane 0 50 0)) (nc s)) 256 = 7
      && tgtOf (net s) (5 * 2 ^ 46 + 256) = .remote && fabRefuse (net s) 5 256 = none && fabRoom (net s) 5 256
      && goes (exec (.homeSliceWrite (.lane 0 50 0)) (far (net s))) (fun t => t.fab.tx.map (·.req) = [.red 2 .n32 .add 15 [(0, 7)] true])
      && !(dlLocal rm (5 * 2 ^ 39 + 2)) && fabRefuse rm 5 256 = none && fabRoom rm 5 256 && fabRefuse rm 6 256 = some 1
      && goes (exec (.redEntryApply 0 (5 * 2 ^ 39 + 2) 0) rm) (fun t => t.fab.tx.map (·.req) = [.red 2 .n32 .add (15 * 2 ^ 124 + 15) [(124, 1), (0, 2)] false])
      && goes (exec (.redEntryApply 0 (5 * 2 ^ 39 + 2) 0) (after (.redEntryApply 0 (5 * 2 ^ 39 + 2) 0) rm)) (fun t => t.fab.tx.length = 1)
      && goes (exec (.redEntryApply 0 (6 * 2 ^ 39 + 2) 0) (net (buf [{ ent (6 * 2 ^ 39 + 2) with flushed := true }] s))) (fun t => (getCore t 0).mb.isEmpty)
      && (getCore (fabDeliver rm { chip := 5, plane := 2, sn := 0, req := .read 0 1 false, low := 0, origin := .merge 0 (5 * 2 ^ 39 + 2) [0] [0], timer := 0, resends := 0, reported := false } { code := 0, data := 0 }) 0).mb.isEmpty
      && (getCore (w held) 0).mb.isEmpty
      && holds ((getCore (after (.homeSliceWrite (.lane 0 50 0)) (w r1)) 0).mb.head?) (fun e => tget e.vals 0 = some 8)
      && holds ((getCore (after (.homeSliceWrite (.lane 0 50 0)) (w held)) 0).mb.head?) (fun e => tget e.vals 0 = some 7)
      && dlLocal fl dl && (homeAdmit fl 2 (spanMask 0 4) true).2 && cellsWf (recallOw (homeAdmit fl 2 (spanMask 0 4) true).1 2 none).mem.cells
      && memAt (after (.redEntryApply 0 dl 0) fl) 256 = 1) = true := by decide +kernel

/-- A parameter block of an XCOPY of 64 bytes from 4,096 to 12,288. -/
def xblk : Nat := 0x1000 + 0x3000 * 2 ^ 64 + 64 * 2 ^ 128
def xState (b : Nat) : State := setS 5 0x2000 (withMem 0x2000 64 b (withMem 0x103F 1 0xAB (mapped (at2 0))))
/-- A command of the transfer engine of cluster 0. -/
def xcmd (b : Nat) (fin : Option (Nat × Nat × Nat)) (started : Bool) : XCmd :=
  { id := 9, kind := .xcopy, core := 0, block := 0, group := 0, tag := some 63, bar := none, baddr := 0x2000, blk := b, d := 0, slot := 0, node := none,
    started := started, fills := none, drains := none, prog := 0, rerr := none, fin := fin }
def withCmd (x : XCmd) (s : State) : State := modCluster s 0 (fun c => { c with cmds := [x] })
/-- TransferWords: a group that is no producer, a producer with a barrier slot and the last tag. -/
theorem witness_TransferWords :
    let s := xState xblk
    let p := withG (fun g => { g with producer := true }) s
    (onCtx (withG (fun g => { g with producer := false }) s) (fun cx => !cx.grp.producer && !(pendingOn [64 + 5] cx))
      && trapped (exec (.xlay none 5 3) (withG (fun g => { g with producer := false }) s)) 0 9 0
      && onCtx p (fun cx => tagFree p 0 63 && memGate p 0 && (let r := releaseAll p 0 p.nextId 5 (BitVec.allOnes 64)
          r.2 && !(storesOpen cx.grp r.1.nextId (BitVec.allOnes 64)) && memGate r.1 0
            && (match spanRead r.1 (some 0) 0 0x2000 64 with | (u, .ok b) => b = xblk && (getCluster u 0).cmds.isEmpty && (barOf u 0 15).joins = 0 | _ => false)))
      && goes (exec (.xcopy (some 15) 5 63) p) (fun t => !(tagOn t 0 63) && (getCluster t 0).cmds.map (fun x => (x.blk, x.bar)) = [(xblk, some 15)]
          && (barOf t 0 15).joins = 1)) = true := by decide +kernel
/-- TransferEvents: a start that fails its checks, of no bytes, from an empty buffer, and one that goes on; its bytes; its end. -/
theorem witness_TransferEvents :
    let s := fun (b : Nat) => withCmd (xcmd b none false) (xState b)
    let withBuf := fun (x : State) => { x with blocks := x.blocks.map (fun b => (b.1, { b.2 with hdr := { b.2.hdr with bufs := [64] } })) }
    let drain := withBuf (s (0x3000 * 2 ^ 64 + 64 * 2 ^ 128 + 2 ^ 180))
    let fill := withBuf (s (0x1000 + 64 * 2 ^ 128 + 2 ^ 181))
    let e := withCmd (xcmd xblk (some (0, 0, 0)) true) (xState xblk)
    let fin := fun (x : State) => (getCluster x 0).cmds.map (fun y => (y.started, y.fin))
    (xBad (s (xblk + 2 ^ 432)) 0 (xcmd (xblk + 2 ^ 432) none false) && fin (after (.transferStart 0 9) (s (xblk + 2 ^ 432))) = [(true, some (1, 0, 0))]
      && fin (after (.transferStart 0 9) (s (xblk - 64 * 2 ^ 128))) = [(true, some (0, 0, 0))] && fin (after (.transferStart 0 9) (s xblk)) = [(true, none)]
      && (xDrain drain 0 (xcmd (0x3000 * 2 ^ 64 + 64 * 2 ^ 128 + 2 ^ 180) none false)).isSome && fin (after (.transferStart 0 9) drain) = [(true, some (5, 0, 0))]
      && fin (after (.transferStart 0 9) fill) = [(true, none)] && instState (after (.transferStart 0 9) fill) 0 0 = .filling
      && (match unitBytes (s xblk) 0 (xcmd xblk none true) 0 with
          | (r, .ok v none, k) => v = 0xAB * 2 ^ 504 && k = 0
            && (match giveSpan r 0 0 none (xUnit 0 (xcmd xblk none true) 0).2.1 v none k (!(unitOut (s xblk) 0 9 0)) with | (_, .ok _ none) => true | _ => false)
          | _ => false)
      && (match (copyUnit (s xblk) 0 (xcmd xblk none true) 0).2 with | .done => true | _ => false)
      && (match spadOf e 0 0 with | some p => cellsWf p.bytes && spadRead (giveSpan e 0 0 none ⟨some 0, 0, 64⟩ 7 none 0 true).1 0 0 0 64 = 7 | none => false)
      && (let r := xReport e 0 (xcmd xblk (some (0, 0, 0)) true) (xFinal 0 (xcmd xblk (some (0, 0, 0)) true) (0, 0, 0))
          r.2 && !(xOut r.1 0 9)) && !(xOut e 0 9)
      && (getCluster (after (.transferEnd 0 9) e) 0).cmds.isEmpty && tagOn (after (.transferEnd 0 9) e) 0 63
      && (spadOf e 0 0).isSome
      && (match xlateNow e none 0 0x3010 with | (u, .ok t) => (daCheck u t 0x3010 true false).isNone && tgtOf u (daOf t 0x3010) = .hbm && (admitType .o u 96 (spanMask 16 112) true).2 | _ => false)
      && (match accWrite e none 0 0x3010 112 (2 ^ 895) 0 false with | (w, .ok k) => k = 0 && memAt w 0x307F = 0x80 && memAt w 0x300F = 0 | _ => false)
      && (match accWrite e none 0 0x2030 6 (5 + 2 ^ 32) 0 false with | (r, .ok _) => (match accWrite r none 0 0x2038 8 9 0 false with | (_, .ok _) => true | _ => false) | _ => false)
      && (let t := xReport e 0 (xcmd xblk (some (0, 0, 0)) true) (5, 1, 0, 9); t.2 && memAt t.1 0x2030 = 5 && memAt t.1 0x2034 = 1 && memAt t.1 0x2038 = 9)
      && (let y := withBuf (xState xblk); (tget y.blocks 0).isSome && instState (xBuffers y { xcmd xblk none true with fills := some 0 } true) 0 0 = .full
          && instState (xBuffers y { xcmd xblk none true with drains := some 0 } false) 0 0 = .full && instState (xBuffers y { xcmd xblk none true with drains := some 0 } true) 0 0 = .empty)) = true := by decide +kernel
/-- ShadowSets: XPUB of both kinds of group, and every answer of XPUB_COMMIT. -/
theorem witness_ShadowSets :
    let s := at2 0
    let p := withG (fun g => { g with producer := true }) s
    let q : XPub := { id := 9, set := 3, discard := false, group := 0, block := 0, d := 2, waits := [] }
    let c := fun (own : Tbl Nat) (dis : Bool) => modCluster s 0 (fun c => { c with pubs := [{ q with discard := dis }], shOwner := own, shadow := [(3, [(2, 1, 0x77, 0)])] })
    let lost := fun (x : State) => { x with blocks := x.blocks.map (fun b => (b.1, { b.2 with lostSets := [3] })) }
    (trapped (exec (.xpub 2 false 3) (withG (fun g => { g with producer := false }) s)) 0 9 0
      && onCtx p (fun cx => cx.grp.producer && memGate p 0 && !(pendingOn [64 + 2] cx))
      && goes (exec (.xpub 2 true 3) p) (fun t => (getCluster t 0).pubs.map (fun x => (x.set, x.discard)) = [(3, true)])
      && goes (exec (.xpubCommit 0 3) (lost (c [(3, 0)] false))) (fun t => sReg t 0 2 = 0x8000000000000002)
      && goes (exec (.xpubCommit 0 3) (c [] false)) (fun t => sReg t 0 2 = 0) && goes (exec (.xpubCommit 0 3) (c [(3, 7)] false)) (fun t => sReg t 0 2 = 0x8000000000000001)
      && goes (exec (.xpubCommit 0 3) (c [(3, 0)] true)) (fun t => sReg t 0 2 = 256 && memAt t 256 = 0)
      && (shadowAdmit (c [(3, 0)] false) [(2, 1, 0x77, 0)]).2
      && goes (exec (.xpubCommit 0 3) (c [(3, 0)] false)) (fun t => sReg t 0 2 = 256 && memAt t 256 = 0x77)) = true := by decide +kernel
/-- An overlay descriptor at 8,192 of 4 bytes of code at 12,288, with its checksum, for overlay 9. -/
def ovDesc : Nat := 9 + 4 * 2 ^ 32 + (0x3FFFF * 2 ^ 46 + 0x3000) * 2 ^ 64 + crc32 4 0 * 2 ^ 1216
def ovCmd (started : Bool) (fin : Option (Nat × Nat × Nat)) : XCmd :=
  { xcmd ovDesc fin started with kind := .ovld, slot := 3, d := 2 }
/-- Overlays: OVLD and OVPF, a load that begins in the last slot, one that ends, and the code it read. -/
theorem witness_Overlays :
    let s := setS 5 0x2000 (withMem 0x2000 256 ovDesc (mapped (at2 0)))
    let st := withCmd (ovCmd false none) s
    let e := withCmd (ovCmd true (some (0, 0, 0))) s
    (onCtx s (fun cx => !(pendingOn [64 + 5, 64 + 2] cx) && tagFree s 0 0 && memGate s 0 && (releaseAll s 0 s.nextId 5 (BitVec.allOnes 64)).2)
      && goes (exec (.ovld 2 5 3 0) s) (fun t => !(tagOn t 0 0) && (getCluster t 0).cmds.map (·.slot) = [3])
      && goes (exec (.ovpf 5 63) s) (fun t => !(tagOn t 0 63) && (getCluster t 0).cmds.length = 1)
      && (match spanRead st none 0 0x2000 256 with | (u, .ok d) => d = ovDesc && !(descBad 0x2000 d) && !(slotBusy u 0 .empty) && (getCluster u 0).slots.length = 4 | _ => false)
      && goes (exec (.transferStart 0 9) st) (fun t => (getCluster t 0).slots[3]? = some (.loading 9))
      && goes (exec (.overlayLoadEnd 0 9) e) (fun t => (getCluster t 0).cmds.isEmpty && sReg t 0 2 = 0 && tagOn t 0 63)
      && ((getCluster st 0).slots.zipIdx.all (fun y => y.2 = 3 || slotNumber y.1 ≠ some 9))
      && (match forEngine e 9 (fun q => codeRead q 0 (0x3FFFF * 2 ^ 46 + 0x3000) 4) with
          | (u, .ok v) => crc32 4 v = bitsOf ovDesc 1216 32 && (getCluster u 0).slots.length = 4 | _ => false)
      && (getCluster (ovLoad e 0 (ovCmd true none)) 0).slots[3]? = some (.resident 9 [0] [] 1)
      && (let f := withP (fun p => { p with wait := .frozen, pc := 0x90000 }) s
          goes (.next (thawGroup f 9 0 false)) (fun t => holds (tget t.groups 0) (fun g => g.paths.all (fun p => (pathTrap p).isSome)))
          && thawGroup f 8 0 false = f)) = true := by decide +kernel
/-- TagWords: no tag asked for, tag 63 ready and not ready. -/
theorem witness_TagWords :
    let s := setS 5 (1 <<< 63) (at2 0)
    let busy := modCore s 0 (fun k => { k with tags := 0x7FFFFFFFFFFFFFFF })
    let reads := setS 5 (1 <<< 63) (after (.ld (.v 6) (.s 7) .u .b8 0) (setS 7 0x1FFFFFFFFFFFFF8 memState))
    (onCtx reads (fun cx => readsOpen cx.grp reads.nextId cx.path.mask) && goes (exec (.waitany 2 5) reads) (fun t => sReg t 0 2 = 0 && pathWidx t = pathWidx reads)
      && goes (exec (.waitall 5) reads) (fun t => pathWidx t = pathWidx reads) && onCtx s (fun cx => !(readsOpen cx.grp s.nextId cx.path.mask))
      && onCtx s (fun cx => !(pendingOn [64 + 2, 64 + 5] cx) && memGate s 0) && goes (exec (.waitany 2 5) s) (fun t => sReg t 0 2 = 1 <<< 63)
      && goes (exec (.waitany 2 6) busy) (fun t => sReg t 0 2 = 0 && holds (pathIn t 0 0) (fun p => p.widx = 2))
      && goes (exec (.waitany 2 5) busy) (fun t => holds (pathIn t 0 0) (fun p => p.widx = 1))
      && goes (exec (.ffr 2 5) s) (fun t => sReg t 0 2 = 63) && goes (exec (.ffr 2 6) s) (fun t => sReg t 0 2 = 64)
      && goes (exec (.waitall 5) s) (fun t => holds (pathIn t 0 0) (fun p => p.widx = 2)) && goes (exec (.waitall 5) busy) (fun t => holds (pathIn t 0 0) (fun p => p.widx = 1))
      && goes (exec (.bgwait 2 63) s) (fun t => sReg t 0 2 = tagValue s 0 63)
      && goes (exec (.bgwait 2 63) busy) (fun t => !(memGate t 0) && goes (.next (tagReady t 0 63 .bank 5 0)) (fun u => sReg u 0 2 = 5))) = true := by decide +kernel

/-- Blocks of BGLOAD, BGVEC and BGRUN for engine 0 of stack 0: an image at 16,384, vectors at 12,288 to entry 255, a run with one lease, its
record at 20,480. -/
def bSet : Nat := 1 + 2 ^ 32
def ldBlk : Nat := bSet + 0x4000 * 2 ^ 64
def vcBlk : Nat := bSet + 0x3000 * 2 ^ 64 + 255 * 2 ^ 128 + 1 * 2 ^ 136
def rnBlk : Nat := bSet + 0x200000 * 2 ^ 64 + 0x5000 * 2 ^ 128 + 1 * 2 ^ 208 + 9 * 2 ^ 288
def bankWord : W32 := 0xAA000050
def imgHead : Nat := 0x4D504742 + 0x0100 * 2 ^ 32 + 1 * 2 ^ 48 + crc32 4 bankWord.toNat * 2 ^ 64
/-- Group 0 with a block of 128 bytes at the address in s5, the image, an entry of vectors, and a lease of row set 32, at virtual address 2^21. -/
def bState (b : Nat) : State :=
  let s := setS 5 0x2000 (withMem 0x2000 128 b (withMem 0x4000 32 imgHead (withMem 0x4020 4 bankWord.toNat (withMem 0x3000 64 0xABCD (mapped (selected256 (at2 0)))))))
  modLease s 0 0 (fun y => { y with st := .held, rowSets := [32], vbase := 0x200000, e := 500000 })
def bCmd (k : BgKind) (b : Nat) (started : Bool) : BgCmd := { bgNew 9 k 0 0 0 (some 63) none 0x2000 b with started := started }
def withBg (c : BgCmd) (s : State) : State := modStack s 0 (fun k => if c.kind = .vec then { k with vecq := [c] } else { k with cmdq := [c] })
/-- Engine 0 runs a program of two moves, with the lease's row in the row-translation cache. -/
def runState (c : BgCmd) (ms : List W32) : State :=
  let s := modBge (withBg c (bState rnBlk)) 0 (fun b => { startBge c b with moves := ms, valid := true, pc := 0 })
  { modStack s 0 (fun k => { k with rowCache := [⟨32, 32, 1, 0⟩] }) with bfocus := some 0, agenda := [] }
/-- BankCommands: each word accepted and each event at its turn. -/
theorem witness_BankCommands :
    let acc := fun (b n : Nat) => let s := bState b
      onCtx s (fun cx => !(pendingOn [64 + 5] cx) && tagFree s 0 63 && memGate s 0 && (let r := releaseAll s 0 s.nextId 5 (BitVec.allOnes 64)
        r.2 && !(storesOpen cx.grp r.1.nextId (BitVec.allOnes 64)) && memGate r.1 0
          && (match spanRead r.1 (some 0) 0 0x2000 n with | (u, .ok v) => v = b && bgRoom .load u b && bgRoom .vec u b && bgRoom .run u b | _ => false)))
    let ld := fun (b : Nat) (st : Bool) => withBg (bCmd .load b st) (bState b)
    let vc := fun (st : Bool) => withBg (bCmd .vec vcBlk st) (bState vcBlk)
    let rn := fun (b : Nat) => withBg (bCmd .run b false) (bState b)
    let stat := fun (t : State) => ((getStack t 0).cmdq ++ (getStack t 0).vecq).map (fun c => (c.started, c.stat))
    (acc ldBlk 32 && acc vcBlk 32 && acc rnBlk 128 && setList ldBlk = [0]
      && goes (exec (.bgload 5 63) (bState ldBlk)) (fun t => !(tagOn t 0 63) && (getStack t 0).cmdq.map (·.set) = [[0]])
      && goes (exec (.bgvec 5 0) (bState vcBlk)) (fun t => (getStack t 0).vecq.length = 1)
      && goes (exec (.bgrun 5 63) (bState rnBlk)) (fun t => !(tagOn t 0 63) && (getStack t 0).cmdq.length = 1)
      && goes (exec (.bgrun 5 63) (bState (rnBlk + 2 ^ 128))) (fun t => tagOn t 0 63 && tagValue t 0 63 = 4)
      && bgTurn (ld ldBlk false) 0 (bCmd .load ldBlk false)
      && stat (after (.bgloadExecute 0 9) (ld (ldBlk + 2 ^ 136) false)) = [(true, 1)]
      && stat (after (.bgloadExecute 0 9) (withMem 0x4000 1 0 (ld ldBlk false))) = [(true, 4)]
      && stat (after (.bgloadExecute 0 9) (withMem 0x4020 1 7 (ld ldBlk false))) = [(true, 6)]
      && stat (after (.bgloadExecute 0 9) (ld ldBlk false)) = [(true, 0)]
      && (let b := getBge (after (.bgloadExecute 0 9) (ld ldBlk false)) 0; b.valid && b.moves = [bankWord] && b.header = imgHead)
      && goes (exec (.bgloadEnd 0 9) (ld ldBlk true)) (fun t => tagOn t 0 63 && (getStack t 0).cmdq.isEmpty && memAt t 0x2010 = 0)
      && (match accWrite (ld ldBlk true) none 0 0x2010 1 6 0 false with | (_, .ok _) => true | _ => false) && (bgReport (ld ldBlk true) 0 (bCmd .load ldBlk true) 0x2010 1 6).2
      && memAt (bgReport (ld ldBlk true) 0 (bCmd .load ldBlk true) 0x2010 1 6).1 0x2010 = 6
      && tgetD (getBge (after (.bgvecExecute 0 9) (vc false)) 0).vs 255 0 = 0xABCD && !(vecFull (getBge (vc false) 0) 255)
      && goes (exec (.bgvecEnd 0 9) (vc true)) (fun t => tagOn t 0 63 && (getBge t 0).full1 && !(getBge t 0).full0)
      && stat (after (.bgrunStart 0 9) (rn (rnBlk + 2 ^ 193))) = [(false, 1)]
      && stat (after (.bgrunStart 0 9) (rn (rnBlk + 1024 * 2 ^ 512))) = [(false, 2)]
      && stat (after (.bgrunStart 0 9) (modLease (rn rnBlk) 0 0 (fun y => { y with st := .ending }))) = [(false, 3)]
      && stat (after (.bgrunStart 0 9) (modBge (rn rnBlk) 0 (fun b => { b with moves := [bankWord], valid := true }))) = [(true, 0)]
      && (let b := getBge (after (.bgrunStart 0 9) (modBge (rn rnBlk) 0 (fun b => { b with moves := [bankWord], valid := true }))) 0
          b.run = some 9 && b.pc = 0 && tgetD b.g 0 0 = 9)
      && (let c := { bCmd .run rnBlk true with stops := [(0, ⟨6, 0, 0, 0, 0, 0, 77⟩)] }
          goes (exec (.bankRunEnd 0 9) (withBg c (bState rnBlk))) (fun t => tagOn t 0 63 && tagValue t 0 63 = 6 * 256 + 65536 && (getStack t 0).cmdq.isEmpty
            && memAt t 0x5001 = 6))) = true := by decide +kernel
/-- BankMoves: a move that is illegal, one out of range, a false guard, a held move, a source that stops, HALT 255, and a write to each kind of port. -/
theorem witness_BankMoves :
    let c := bCmd .run rnBlk true
    let s := runState c [bankWord, bankWord]
    let im := fun (gn : Bool) (gs : Fin 8) (d : BitVec 7) (x : BitVec 16) (md : BitVec 4) => Instr.bankMoveImmediate gn gs d x md
    let e := fun (i : Instr) (s : State) (p : Bge → Bool) => goes (exec i s) (fun t => p (getBge t 0) && (getBge t 0).pc = 1)
    let ends := fun (i : Instr) (s : State) (st : Nat) => goes (exec i s) (fun t => (getBge t 0).run.isNone && ((getStack t 0).cmdq.all (fun c => holds (tget c.stops 0) (fun x => x.stat = st))))
    let busy := modBge s 0 (fun b => { b with stream := some ⟨.accst 0 0, 0, 0⟩ })
    (holds (runOf s 0) (fun x => x = c) && (match rowAt s 0 c 0 with | .ok la _ _ => la = 32 * 65536 | _ => false)
      && ends (im true 0 0 0 0) s 7 && ends (im false 0 0x0C 32 0) s 8 && ends (.bankMovePort false 0 0x0C 0x0F 0) (modBge s 0 (fun b => { b with clock := 40 })) 8
      && e (im false 1 0 5 0) s (fun b => tgetD b.g 0 0 = 9)
      && goes (exec (im false 0 0x24 0 0) busy) (fun t => (getBge t 0).pc = 0 && (getBge t 0).run.isSome)
      && moveHeldAcc (getBge busy 0) ⟨false, 0, 0x28, none, 1, 3⟩ 1
      && ends (.bankMovePort false 0 0 0x10 0) (modBge s 0 (fun b => { b with rowptr := 1 })) 4
      && ends (im false 0 0x24 255 0) s 0
      && e (im false 0 7 65535 0) s (fun b => tgetD b.g 7 0 = 65535) && e (im false 0 0x0A 65535 0) s (fun b => tgetD b.l 2 0 = 65535)
      && e (im false 0 0x0B 65535 0) s (fun b => b.rowptr = 65535) && e (im false 0 0x0C 31 0) s (fun b => b.colptr = 31) && e (im false 0 0x0D 9 0) s (fun b => b.dcfg = 9)
      && e (im false 0 0x18 9 0) s (fun b => b.addo = 9) && e (im false 0 0x19 1 1) s (fun b => b.addq = 0xFFFFFFFF) && e (im false 0 0x1B 9 0) s (fun b => b.cmpo = 9)
      && e (im false 0 0x1C 0 3) s (fun b => b.c = 8) && e (im false 0 0x1D 9 0) s (fun b => b.shfo = 9)
      && e (im false 0 0x1E 32 0) (modBge s 0 (fun b => { b with shfo := 5 })) (fun b => b.shfq = 0)
      && e (im false 0 0x20 1 0) s (fun _ => true) && e (im false 0 0x21 0 0) (modBge s 0 (fun b => { b with l := [(0, 1)] })) (fun b => tgetD b.l 0 0 = 0)
      && e (im false 0 0x25 65535 7) s (fun b => holds b.stream (fun y => y.kind = .dot true true true 65535))
      && e (im false 0 0x26 15 0) (modBge s 0 (fun b => { b with acc := [(59, 7), (60, 7)] })) (fun b => tgetD b.acc 60 0 = 0 && tgetD b.acc 59 0 = 7)
      && e (im false 0 0x28 7 15) s (fun b => tgetD b.acc 15 0 = 7)
      && e (im false 0 0x29 0 0) (modBge s 0 (fun b => { b with acc := [(0, 0x40000000)] })) (fun b => tgetD b.acc 0 0 = 0x40000000)
      && e (im false 0 0x2A 7 15) s (fun b => tgetD b.chs 15 0 = 7)
      && e (im false 0 0x2B (64 + 63 * 128) 0) s (fun b => holds b.stream (fun y => y.kind = .bsld 64 63))
      && e (im false 0 0x2D 31 0) s (fun b => holds b.stream (fun y => y.kind = .accst 7 3)) && e (im false 0 0x2E 31 0) s (fun b => holds b.stream (fun y => y.kind = .accld 7 3))
      && (let ps := runState { bCmd .run (rnBlk + 32 * 2 ^ 224 + 32 * 2 ^ 256) true with spad := 0 } [bankWord, bankWord]
          let dirty := modSpad (modBge ps 0 (fun b => { b with acc := [(1, 0x11223344), (8, 0x55)] })) 0 0 (fun x => { x with poison := [1, 2] })
          (spadOf dirty 0 0).isSome && goes (exec (im false 0 0x2C (1 + 7 * 64) 0) dirty) (fun t => spadAt t 0 0 32 = 0x44 && spadAt t 0 0 35 = 0x11 && spadAt t 0 0 60 = 0x55
            && holds (spadOf t 0 0) (fun x => x.poison = [2]) && (getBge t 0).pc = 1))
      && ends (im false 0 0x2C (1 + 63 * 64) 0) s 8
      && e (im false 0 0x2F 2 0) (modBge s 0 (fun b => { b with full0 := true, full1 := true })) (fun b => !b.full0 && !b.full1)
      && goes (exec (im false 0 0x17 0xBEEF 7) s) (fun t => memAt t (32 * 65536 + 3 * 1024 + 28) = 0xEF && memAt t (32 * 65536 + 3 * 1024 + 29) = 0xBE)) = true := by
  decide +kernel
/-- BankEvents: streams of one slice, poisoned and not; a stop; a step of a chime and one that disagrees; an expiry; a refresh. -/
theorem witness_BankEvents :
    let c := bCmd .run rnBlk true
    let s := runState c [bankWord, bankWord]
    let str := fun (k : StreamKind) => modBge s 0 (fun b => { b with stream := some ⟨k, 0, 0⟩, acc := [(8, 0x3F800000)], colptr := 31 })
    let bad := { str (.accld 1 2) with mem := { s.mem with poison := [(32 * 65536 + 2 * 1024 + 31 * 32) / 32] } }
    let ch := { bCmd .run (rnBlk + 2 ^ 192) true with set := [0] }
    let cs := runState ch [0xAA000050, bankWord]
    let jmp : BgMove := ⟨true, 2, 0x20, none, 5, 0⟩
    let two := modBge (withBg { ch with set := [0, 1] } cs) 1 (fun _ => { getBge cs 0 with c := 8 })
    let dis := modBge (withBg { ch with set := [0, 1] } cs) 1 (fun _ => { getBge cs 0 with c := 2 })
    let ex := runState { c with e := 100 } [bankWord]
    (goes (exec (.bankStreamEnd 0) (str (.accst 1 2))) (fun t => (getBge t 0).stream.isNone && memAt t (32 * 65536 + 2 * 1024 + 31 * 32 + 3) = 0x3F)
      && goes (exec (.bankStreamEnd 0) (str (.accld 1 2))) (fun t => (getBge t 0).stream.isNone && (getBge t 0).colptr = 0 && (getBge t 0).rowptr = 1 && tgetD (getBge t 0).acc 8 9 = 0)
      && goes (exec (.bankStreamEnd 0) bad) (fun t => (getBge t 0).run.isNone)
      && (let full := fun (k : StreamKind) (n : Nat) => modBge (withMem (32 * 65536 + 31 * 32) 4 0x40003FC0 s) 0 (fun b =>
            { b with stream := some ⟨k, n, 0⟩, vs := [(0, 0x3F803F80), (128, 0)], full0 := true, full1 := true, colptr := 31 })
          (match rowAt (full (.bsld 1 63) 0) 0 c 0 with | .ok la _ _ => la = 32 * 65536 && (List.range 4).all (fun q => !(sliceRead s la q 31).2) | _ => false)
          && goes (exec (.bankStreamEnd 0) (full (.dot false true false 2) 0)) (fun t => tgetD (getBge t 0).acc 0 9 = 0x40600000 && tgetD (getBge t 0).acc 1 9 = 0 && (getBge t 0).stream.isNone)
          && goes (exec (.bankStreamEnd 0) (full (.dot true false true 2) 0)) (fun t => (getBge t 0).full0 && (getBge t 0).stream.isNone)
          && goes (exec (.bankStreamEnd 0) (full (.bsld 1 63) 0)) (fun t => tgetD (getBge t 0).bs (32 * 63) 0 = 0xC0 && tgetD (getBge t 0).bs (32 * 63 + 1) 0 = 0x3F)
          && streamWaits (modBge (full (.dot false true false 2) 0) 0 (fun b => { b with full0 := false }) |> (fun x => getBge x 0)) ⟨.dot false true false 2, 0, 0⟩
          && goes (exec (.bankStreamEnd 0) (modBge (full (.dot false true false 2) 0) 0 (fun b => { b with full0 := false }))) (fun t => (getBge t 0).stream.isSome && (getBge t 0).colptr = 31)
          && goes (exec (.bankStreamEnd 0) (let y := full (.bsld 1 63) 0; { y with mem := { y.mem with poison := bad.mem.poison } })) (fun t => (getBge t 0).run.isNone))
      && anyRunning cs [0] && (match moveIn cs 0 ch jmp with | .stall => false | _ => true) && moveOfWord 0xAA000050 = jmp
      && goes (exec (.bankChimeStep 0 9) (modBge cs 0 (fun b => { b with c := 2 }))) (fun t => (getBge t 0).pc = 1 && (getStack t 0).cmdq.map (·.pc) = [1])
      && agreeKey two 0 ch jmp = agreeKey two 1 ch jmp && !(agreeKey dis 0 ch jmp = agreeKey dis 1 ch jmp) && !(moveIllegal jmp) && mustAgree 0x20
      && (getStack (chimeMove dis 0 { ch with set := [0, 1] } jmp) 0).cmdq.all (fun x => x.stops.length = 2)
      && goes (exec (.bgeLeaseExpiry 0 3) ex) (fun t => (getBge t 0).run.isSome) && goes (exec (.bgeLeaseExpiry 0 3) (modBge ex 0 (fun b => { b with clock := 100 }))) (fun t => (getBge t 0).run.isNone)
      && goes (exec (.bankRefresh 0 3) s) (fun _ => true) && goes (exec (.bufferTakeTimeout 0 3 9) s) (fun t => (getStack t 0).taken = [(0, 3, 9)])
      && goes (exec (.bgeClockStop 0) s) (fun t => (getBge t 0).stopped)) = true := by decide +kernel

/-- A memory word of group 0 with a lane. -/
def wordOf (op : MemOp) (blk : Nat) (st : LaneSt) (d0 d1 : W64) : MemWord :=
  { id := 50, op := op, mask := 1, uni := false, caddr := 0, widx := 1, word := 0, pfxw := 0, blk := blk, ans := [], replay := false,
    lanes := [(0, { st := st, va := 256, d0 := d0, d1 := d1, dlog := 4 })] }
def withWord (w : MemWord) : State → State := withG (fun g => { g with words := [w] })
/-- The only word of group 0 has its destinations in the window, and nothing waits beside it. -/
def inSlotsB (s : State) : Bool :=
  holds (tget s.groups 0) (fun x => x.replays.isEmpty && (match x.words with
    | [w] => !w.uni && !w.lanes.isEmpty && w.lanes.length = 1 && w.lanes.all (fun y => y.2.dlog < 65536 && (getFibre x y.1).low.toNat ≤ y.2.dlog
        && y.2.dlog < (getFibre x y.1).low.toNat + x.depth) && !(match w.op with | .fence _ _ => true | _ => false)
    | _ => false))
/-- SumWords: MLR with lanes and without; a GRED of one lane, 2.0 × 3.0; an MLR of one member that answered 1.5. -/
theorem witness_SumWords :
    let blk := 1 + 5 * 2 ^ 256
    let s := setS 6 0x2000 (withMem 0x2000 256 blk memState)
    let none_ := withP (fun p => { p with pfx := some 0xF0100000 }) s
    let g := withWord { wordOf (.gred true) 0 (.data 0x40000000 3) 0x40400000 0 with ans := [(1, 31, 0)] } (setV 1 31 7 s)
    let mw := { wordOf (.mlr true) blk (.req (0x3FFFF * 2 ^ 46 + 256) 0 false) 0 0x2000 with ans := [(0, 0, 0x3FC00000)] }
    let m := withWord mw s
    (onCtx s (fun cx => !(pendingOn (4 :: (64 + 6) :: regRegs (.v 3)) cx) && !(partLanes cx).isEmpty && nothingOut s && settleGroup s 0 = s
        && !(storesOpen cx.grp s.nextId (BitVec.allOnes 64)) && memGate s 0
        && (match spanRead s (some 0) 0 0x2000 256 with
            | (u, .ok b) => b = blk && memGate (settleGroup (zeroMasked cx u 4) 0) 0 && (pendList (settleGroup (zeroMasked cx u 4) 0) 0).length + 9 ≤ 1024 | _ => false))
      && goes (exec (.mlr 4 (.v 3) 6 true) s) (fun t => holds (lastWord t) (fun w => w.blk = blk && w.lanes.length = 8))
      && onCtx none_ (fun cx => (partLanes cx).isEmpty) && goes (exec (.mlr 4 (.v 3) 6 true) none_) (fun t => holds (pathIn t 0 0) (fun p => p.widx = 2))
      && goes (exec (.gredComplete 0 50) g) (fun t => vReg t 0 0 4 = 0x40C00000 && vReg t 0 1 31 = 0)
      && inSlotsB g && inSlotsB m
      && onCtx s (fun cx => (match spanRead (settleGroup s 0) (some 0) 0 0x2000 256 with
          | (u, .ok b) => b = blk && tget u.groups 0 = some cx.grp && nothingOut u
              && (pendList u 0).length + newPages u 0 (.mlr true) ((partLanes cx).map (fun l => (base cx (.v 3) l).toNat)) ≤ 1024
              && (partLanes cx).all (fun l => (base cx (.v 3) l).toNat % 4 = 0 && canonical ((base cx (.v 3) l).toNat + 3) && (tlbLook u 0 (base cx (.v 3) l).toNat).isSome)
          | _ => false))
      && goes (exec (.mlr 4 (.v 3) 6 true) s) (fun t => holds (lastWord t) (fun w => holds (tget w.lanes 7) (fun y => y.st = .req 312 0 false)))
      && (match spanWrite m (some 0) 0 0x2008 9 1 with | (u, .ok _) => (tget u.groups 0).isSome && u.groups = m.groups | _ => false)
      && (0, BitVec.ofNat 64 0x40C00000) ∈ gredSums true [(1, 4, 7, 7), (0, 3, 0x40000000, 0x40400000)]
      && holds (wordAt m 0 50) (fun y => mlrReady y.2 0 && !(mlrBad y.2.blk))
      && goes (exec (.mlrComplete 0 50) m) (fun t => vReg t 0 0 4 = 0x3FC00000 + 2 ^ 40 && (match spanRead t (some 0) 0 0x2008 9 with | (_, .ok v) => v = 1 | _ => false))
      && mlrLane mw 0 = 0x3FC00000 + 2 ^ 40) = true := by decide +kernel
/-- LeaseEvents: every event due and not due, in each state of a lease. -/
theorem witness_LeaseEvents :
    let s := bState 0
    let l := fun (k : LeaseSt) (f : Lease → Lease) => modLease s 0 127 (fun _ => f { Lease.reset with st := k, rowSets := [64], vbase := 0x400000, lrec := 0x5000, dur := 1 })
    let at_ := fun (n : Nat) (x : State) => { x with time := { x.time with now := n } }
    let st := fun (o : Out) => match o with | .next t => (leaseEntry t 0 127).st | _ => .free
    let idle := fun (i : Instr) (x : State) => goes (exec i x) (fun t => t = x)
    let give := l (.giving false) id
    let held := l .held (fun y => { y with e := 1000 })
    let end_ := l .ending (fun y => { y with tend := 3000 })
    let busy := { give with coh := { give.coh with host := [(64 * 65536 / 64, true)] } }
    let wt := modStack end_ 0 (fun k => { k with modeWaits := [{ give := false, handle := 127, group := 0, id := 99 }] })
    let dr := modBge (modBge (modBge (modBge (at_ 5000 (at2 0)) 0 (fun b => { b with clock := 4999 })) 1 (fun b => { b with clock := 5001 })) 2 (fun b => { b with clock := 0, stopped := true }))
      512 (fun b => { b with clock := 1 })
    let lb := fun (m f : Nat) (bad : Bool) => ({ id := 9, core := 0, block := 0, tag := 63, baddr := 0x2000, blk := m + f, badDst := bad, started := false, stat := 0, done := 0, ended := false } : LayCmd)
    let ly := fun (c : LayCmd) => modStack (at2 0) 0 (fun k => { k with layq := [c] })
    (st (exec (.leaseReservationTimeout 0 127) (at_ 1000 (l .reserved id))) = .free && (leaseEntry (l .reserved id) 0 127).tres = 0
      && idle (.leaseReservationTimeout 0 127) (at_ 999 (l .reserved id))
      && goes (exec (.sweepComplete 0 127) give) (fun t => let x := leaseEntry t 0 127; x.st = .held && x.e = 1000 && x.tstart = 0)
      && st (exec (.sweepComplete 0 127) (l (.giving true) id)) = .free && sweepBusy busy [64]
      && goes (exec (.sweepComplete 0 127) busy) (fun t => t = sweepSnoops busy [64])
      && st (exec (.leaseExpiry 0 127) (at_ 1000 held)) = .ending && idle (.leaseExpiry 0 127) (at_ 999 held)
      && goes (exec (.leaseExpiry 0 127) (at_ 1000 held)) (fun t => leaseEntry t 0 0 = leaseEntry s 0 0)
      && st (exec (.endingTimeout 0 127) (at_ 5000 end_)) = .free && idle (.endingTimeout 0 127) (at_ 4999 end_) && (runsUnder end_ 0 127).isEmpty
      && takeWaits wt 0 127 && st (exec (.leaseReturn 0 127) wt) = .free && st (exec (.leaseReturn 0 127) (l .returning id)) = .free
      && (recordTry s 0x5000 0).2
      && (leaseEntry (freeLease (l .ending (fun y => { y with gen := 63 })) 0 127).1 0 127) = Lease.reset
      && (getBge (stopAll (runState (bCmd .run rnBlk true) [bankWord]) (bCmd .run rnBlk true) 2) 0).run.isNone
      && (driftLeases dr 0).isEmpty
      && goes (exec (.clockReadback 0) dr) (fun t => (getBge t 0).clock = 5000 && (getBge t 1).clock = 5000 && (getBge t 2).clock = 0 && (getBge t 512).clock = 1 && (getStack t 0).readback = 5000)
      && idle (.clockReadback 0) (at_ 999 (at2 0))
      && layBad 0 && goes (exec (.layoutCommandStart 0) (ly (lb 0 0 false))) (fun t => (getStack t 0).layq.map (fun c => (c.started, c.stat, c.ended)) = [(true, 1, true)])
      && goes (exec (.layoutCommandEnd 0) (mapped (ly { lb 0 0 false with started := true, stat := 1, ended := true }))) (fun t => (getStack t 0).layq.isEmpty && tagOn t 0 63
          && memAt t 0x2030 = 1)) = true := by decide +kernel

/-- HostAccess: each register with a value that is malformed, kept or held; a page invalidated; host reads and writes with the port open and closed; the
three kinds of answer to a snoop; the host's own snoop of a line of its window. -/
theorem witness_HostAccess :
    let s := memState
    let r := { s with groups := [], blocks := [] }
    let full := { s with xl := { s.xl with invq0 := (List.range 16).map (fun k => (k, 0)) } }
    let xl := fun (i : Instr) (x : State) (p : Xl → Bool) => goes (exec i x) (fun t => p t.xl)
    let inv := { s with xl := { s.xl with invq1 := [(0, 0)] } }
    let closed := { s with mgmt := { s.mgmt with phase := .retained } }
    let sn := fun (n : Nat) (k : Bool) => { s with coh := { s.coh with snoops := [(4, n, k)] } }
    let own := { s with coh := { s.coh with host := [(4, true)] } }
    let wh := 0x100000000000 / 64
    let win := { s with coh := { s.coh with window := [(wh, true)] } }
    (!(s.mgmt.off) && s.mgmt.booted && !(hostClosed s) && s.xl.waiting.isEmpty && s.coh.heldHost.isEmpty
      && xlinvBad (BitVec.allOnes 64) && xl (.xlinvWrite .host (BitVec.allOnes 64)) s (fun x => x.perr)
      && !(xlinvBad 0x40000002) && xl (.xlinvWrite .host 0x40000002) s (fun x => x.invq0 = [(0x40000000, 2)] && x.invq1 = [(0x40000000, 2)])
      && xl (.xlinvWrite .host 0x40000002) full (fun x => x.waiting = [(0x108, 0x40000002)])
      && xl (.xlstatWrite .fw 2) { s with xl := { s.xl with perr := true } } (fun x => !x.perr)
      && xl (.ptbaseWrite .fw 0x5001) r (fun x => x.ptbase = 0x5001) && xl (.ptbaseWrite .fw 0x5001) s (fun x => x.perr && x.ptbase = s.xl.ptbase)
      && (invQueue inv 1)[0]? = some (0, 0) && (let d := invDrop inv 1 (0, 0); (let u := invDrain d 1; u.2 && !(fabOutDie u.1 1) && u.1.groups = d.groups && u.1.xl = d.xl))
      && xl (.xlinvComplete 1 0) inv (fun x => x.invq1.isEmpty)
      && hostClosed closed && goes (exec (.hostMemRead 4) closed) (fun t => t.mgmt.hostOut.head? = some (4, 0, true) && t.mgmt.hostDrop = 1)
      && goes (exec (.hostMemWrite 4 true (BitVec.allOnes 64) 5 false) closed) (fun t => memAt t 256 = 0 && t.mgmt.hostDrop = 1)
      && (hostAdmit (wake s) 4 false).2 && (hostAdmit (wake s) 4 true).2 && goes (exec (.hostMemRead 4) (withMem 256 1 7 s)) (fun t => holds t.mgmt.hostOut.head? (fun x => x = (4, 7, false)))
      && goes (exec (.hostMemWrite 4 true 1 5 false) s) (fun t => memAt t 256 = 5 && tget t.coh.host 4 = some true)
      && cellsWf (recallOw s 2 none).mem.cells
      && !((hostAdmit (wake (sn 2 false)) 4 false).2) && goes (exec (.hostMemRead 4) (sn 2 false)) (fun t => t.coh.heldHost = [.hostMemRead 4])
      && goes (exec (.backInvalidateResponse 4 none) (sn 1 false)) (fun t => tget t.coh.snoops 4 = some (2, false))
      && goes (exec (.backInvalidateResponse 4 none) (sn 2 true)) (fun t => tget t.coh.snoops 4 = none && tget t.coh.host 4 = some false)
      && goes (exec (.backInvalidateResponse 4 (some (9, false))) (sn 2 false)) (fun t => memAt t 256 = 9 && tget t.coh.snoops 4 = none)
      && (tget own.coh.host 4 = some true)
      && (let g := modLease (sn 2 false) 0 0 (fun y => { y with st := .giving false, rowSets := [0] }); heldLa g 256
          && goes (exec (.backInvalidateResponse 4 (some (9, false))) g) (fun t => memAt t 256 = 9 && tget t.coh.snoops 4 = none && (llcLines t 2).all (fun y => y.1 ≠ 2)))
      && goes (exec (.hostSnoop wh .inv none) { win with mgmt := { win.mgmt with phase := .retained } }) (fun t => t.mgmt.hostDrop = 1 && t.mgmt.hostOut.isEmpty)
      && tgtLocal (wh * 64) = .host && goes (exec (.hostSnoop wh .inv none) win) (fun t => tget t.coh.window wh = none && t.mgmt.hostOut.length = 1)
      && goes (exec (.hostSnoop wh .data none) win) (fun t => tget t.coh.window wh = some false && t.mgmt.hostOut.length = 1)) = true := by decide +kernel
/-- FabricTransport: a request in order, one answered again, one beyond the window, a resynchronisation; a read and a write at this home; a load's and a store's
answers; PENDING; the timers before and at their time; FHOLD before and at its time. -/
theorem witness_FabricTransport :
    let s := let x := withMem 256 1 0x77 memState; { x with fab := { x.fab with chipid := 7, links := (List.range 16).map (fun k => (k, 0x100)) } }
    let rq : FabReq := .read 256 8 false
    let k := fabKey 5 15
    let at_ := fun (n : Nat) (x : State) => { x with time := { x.time with now := n } }
    let tx := fun (o : FabOrigin) => ({ chip := 5, plane := 2, sn := 0, origin := o, req := rq, timer := 0, resends := 0, reported := false, low := 0 } : FabTx)
    let w := fun (o : MemOp) => { wordOf o 0 (.remote 5 2 0) 7 0 with lanes := [(0, { st := .remote 5 2 0, va := 256, d0 := 7, d1 := 0, dlog := 4 })] }
    let out := fun (o : MemOp) => let x := withWord (w o) s; { x with fab := { x.fab with tx := [tx (.lane 0 50 0)] } }
    let up := { s with fab := { s.fab with tx := [tx (.lane 0 50 0)], calm := [(5, 1)] } }
    let tired := { up with fab := { up.fab with tx := [{ tx (.lane 0 50 0) with resends := 8 }] } }
    let dn := { s with fab := { s.fab with fhold := 1 } }
    let seen := fun (x : State) => let y := withWord (w (.load .u .b8)) x; { y with fab := { y.fab with tx := [tx (.lane 0 50 0)] } }
    (!(fabShut s 15) && !(fabShut s 2) && !(fabRetained s) && fabShut { s with mgmt := { s.mgmt with off := true } } 15 && fabRetained { s with mgmt := { s.mgmt with phase := .retained } }
      && goes (exec (.fabricRequestArrival 5 15 0 0 rq) s) (fun t => t.fab.out.map (fun x => (x.sn, x.ans)) = [(0, some { code := 0, data := 0x77 })] && (getRx t k).nexp = 1)
      && goes (exec (.fabricRequestArrival 5 15 0 0 rq) (after (.fabricRequestArrival 5 15 0 0 rq) s)) (fun t => t.fab.out.length = 2 && (getRx t k).nexp = 1)
      && goes (exec (.fabricRequestArrival 5 15 1024 0 rq) s) (fun t => t.fab.out.isEmpty && (getRx t k).window.isEmpty)
      && goes (exec (.resync 5 15 9) s) (fun t => (getRx t k).nexp = 9)
      && goes (exec (.fabricRequestArrival 5 15 0 0 rq) { s with mgmt := { s.mgmt with phase := .retained } }) (fun t => t.fab.out.map (·.ans) = [none])
      && tgtLocal 256 = .hbm && (homeAdmitBy true s 2 (spanMask 0 8) false).2 && (homeAdmitBy true s 2 (BitVec.allOnes 128) true).2 && cellsWf (recallOw s 2 none).mem.cells
      && (memPoison (recallOw s 2 none) 2 &&& spanSectors 0 8) = 0
      && (match rxServe s 5 (.write 256 1 5 0 false) with | (u, some a) => a.code = 0 && memAt u 256 = 5 | _ => false)
      && (match rxServe { s with mem := { s.mem with poison := [8] } } 5 (.read 256 8 false) with | (_, some a) => a.code = 3 && a.poison = 1 | _ => false)
      && tgtLocal 0x8000000000 ≠ .hbm && (rxServe s 5 (.read 0x8000000000 8 false)).2 = some { code := 2, data := 0 }
      && (let h := modLease s 0 0 (fun y => { y with st := .held, rowSets := [0] }); !(homeAdmitBy true h 2 (spanMask 0 8) false).2 && (rxServe h 5 (.read 256 8 false)).2.isNone)
      && holds ((out (.load .u .b8)).fab.tx.find? (fabIs 5 2 0)) (fun t => (remoteLanes (w (.load .u .b8)) t).map (·.1) = [0])
      && goes (exec (.fabricResponse 5 2 0 { code := 0, data := 0x99 }) (out (.load .u .b8))) (fun t => t.fab.tx.isEmpty && holds (wordAt t 0 50) (fun x =>
          x.2.lanes.map (fun y => y.2.st) = [.data 0x99 1]))
      && goes (exec (.fabricResponse 5 2 0 { code := 7, data := 0 }) (out (.load .u .b8))) (fun t => holds (lastWord t) (fun x => x.lanes.map (fun y => y.2.st) = [.listed scRemote 7]))
      && goes (exec (.fabricResponse 5 2 0 { code := 0, data := 0 }) (out (.store .u .b8))) (fun t => holds (tget t.groups 0) (fun g => g.words.isEmpty && g.replays.isEmpty))
      && goes (exec (.fabricResponse 5 2 0 { code := 3, data := 0 }) (out (.store .u .b8))) (fun t => t.fab.tx.isEmpty)
      && goes (exec (.pendingNotice 5 2 0) (at_ 7 up)) (fun t => t.fab.tx.map (·.timer) = [7])
      && fabSends up 2 && !(fabDown up 5) && goes (exec (.rsptExpiry 5 2 0) (at_ 19999 up)) (fun t => t = at_ 19999 up)
      && goes (exec (.rsptExpiry 5 2 0) (at_ 20000 up)) (fun t => t.fab.tx.map (fun x => (x.resends, x.timer)) = [(1, 20000)])
      && goes (exec (.rsptExpiry 5 2 0) (at_ 20000 tired)) (fun t => t.fab.failing = [5] && t.fab.tx.map (·.reported) = [true])
      && fabDown dn 5 && goes (exec (.fholdExpiry 5) (at_ 999999 dn)) (fun t => t = at_ 999999 dn)
      && goes (exec (.fholdExpiry 5) (at_ 1000000 dn)) (fun t => t.fab.holdOut = [calKey s 5] && fabRefuse t 5 256 = some 1)
      && goes (exec (.fholdExpiry 5) (at_ 1000000 (seen dn))) (fun t => t.fab.tx.isEmpty)) = true := by decide +kernel
/-- FabricRegisters: links of one version and of another, every agent's writes, and the four modes of the clock. -/
theorem witness_FabricRegisters :
    let s := at2 0
    let md := fun (m : TimeMode) (n : Nat) => { s with time := { s.time with mode := m, now := n } }
    let off := fun (n : Nat) => { s with time := { s.time with mode := .waiting, sinceOff := n } }
    let lk := fun (x : State) => { x with fab := { x.fab with links := [(15, 0x100)] } }
    let le := fun (x : State) => modLease x 0 0 (fun y => { y with st := .held })
    let tm := fun (i : Instr) (x : State) (p : TimeSt → Bool) => goes (exec i x) (fun t => p t.time)
    (goes (exec (.linkUp 15 (some 0x1FF)) s) (fun t => tget t.fab.links 15 = some 0x100 && t.fab.portDown.isEmpty)
      && goes (exec (.linkUp 15 (some 0x200)) s) (fun t => tget t.fab.links 15 = none && t.fab.portDown = [15]) && goes (exec (.linkUp 0 none) s) (fun t => t.fab.portDown = [0])
      && (let tx : FabTx := { chip := 5, plane := 15, sn := 0, req := .read 0 1 false, low := 0, origin := .merge 0 9 [0] [0], timer := 0, resends := 0, reported := false }
          let y := { s with fab := { s.fab with chipid := 7, tx := [tx], links := [(15, 0x100)], calm := [(5, 1)] } }
          calKey y 5 = 5 && goes (exec (.linkUp 15 none) y) (fun t => t.fab.tx.isEmpty) && goes (exec (.linkUp 14 none) y) (fun t => t.fab.tx = y.fab.tx)
          && goes (exec (.calibreWrite .fw false 5 0) y) (fun t => t.fab.tx.isEmpty) && goes (exec (.calibreWrite .fw false 5 1) (after (.calibreWrite .fw false 5 3) y)) (fun t => t.fab.tx.length = 1))
      && goes (exec (.calibreWrite .core false 5 1) s) (fun t => t = s) && goes (exec (.fholdWrite .core 5) s) (fun t => t = s)
      && goes (exec (.calibreWrite .fw false 1023 (BitVec.allOnes 64)) s) (fun t => tgetD t.fab.calm 1023 2 = 0xFFFF000FFF)
      && goes (exec (.calibreWrite .fw false 5 2) (after (.calibreWrite .fw false 5 0) s)) (fun t => tget t.fab.downSince 5 = some 0)
      && goes (exec (.calibreWrite .fw true 255 0xFFFF) s) (fun t => tgetD t.fab.calp 255 2 = 0xFFF)
      && goes (exec (.fholdWrite .fw 0) s) (fun t => t.fab.fhold = 4000) && goes (exec (.fholdWrite .fw 1) s) (fun t => t.fab.fhold = 1)
      && goes (exec (.fholdWrite .fw 4001) s) (fun t => t.fab.fhold = 4000)
      && tm (.timeSample 15 77) (md .waiting 0) (fun x => x.mode = .fabric && x.now = 77) && tm (.timeSample 15 77) (md .fabric 70) (fun x => x.now = 70 && x.adj = 7)
      && tm (.timeSample 15 77) (md (.joining 60) 90) (fun x => x.mode = .joining 77) && tm (.timeSample 15 77) (md .selfTimed 77) (fun x => x.mode = .fabric)
      && tm (.timeSample 15 77) (lk (md .selfTimed 78)) (fun x => x.mode = .joining 77 && x.now = 78) && tm (.timeSample 15 77) (le (lk (md .selfTimed 7))) (fun x => x.mode = .selfTimed && x.linked)
      && tm .timeSampleTimeout (off 9999999) (fun x => x.mode = .waiting) && tm .timeSampleTimeout (off 10000000) (fun x => x.mode = .selfTimed)
      && tm .fabricTimeReached (md (.joining 60) 61) (fun x => x.mode = .joining 60) && tm .fabricTimeReached (md (.joining 61) 61) (fun x => x.mode = .fabric)
      && goes (exec .fabricTimeReached (modCore (md (.joining 70) 61) 0 (fun k => { k with timeCopy := 61 }))) (fun t => t.time.now = 70 && (getCore t 0).timeCopy = 70)) = true := by
  decide +kernel

/-- A graph header at 24,576 of one node at 28,672; a node of a type with NDEP 1 and its parameters; a launch header of 8 blocks of one fibre. -/
def gHead : Nat := 0x48505247 + 2 ^ 40 + 2 ^ 48 + 0x7000 * 2 ^ 64 + 5 * 2 ^ 128
def ndOf (ty p0 p1 p2 p3 : Nat) : Nat := ty + 2 ^ 8 + (2 ^ 64 - 1) * 2 ^ 64 + p0 * 2 ^ 128 + p1 * 2 ^ 192 + p2 * 2 ^ 256 + p3 * 2 ^ 320
def lHead : Nat := 0x4E55414C + 2 ^ 40 + 2 ^ 50 + 0x100 * 2 ^ 64 + 4 * 2 ^ 96 + 3 * 2 ^ 128 + 7 * 2 ^ 192
def gInst : Inst := { inst0 with hdr := 0x6000, nodes := 0x7000 }
/-- The node in memory, and the instance named 0. -/
def gState (n : Nat) : State :=
  let s := withMem 0x7000 64 n (withMem 0x6000 128 gHead (mapped (selected256 (at2 0))))
  { s with esc := { s.esc with insts := [(0, gInst)] } }
def onInst (f : Inst → Inst) (s : State) : State := { s with esc := { s.esc with insts := s.esc.insts.map (fun x => (x.1, f x.2)) } }
def withRun (n : Nat) (st : Option Nat) (s : State) : State :=
  { s with esc := { s.esc with runs := [{ inst := 0, node := 0, blk := n, status := st, which := 0, waiting := false, order := 0 }] } }
/-- GraphInstances: an anchor written with and without a chosen version, a scan, starts good and bad, a firing, the end of a run, a decrement, the end. -/
theorem witness_GraphInstances :
    let n := ndOf 5 0 0 0 0
    let s := gState n
    let anch := fun (v : W64) => let x := withMem 0x8078 8 0x6000 s; { x with esc := { x.esc with anch := [(15, v)], scans := [15] } }
    let start := fun (v : W64) => { s with esc := { s.esc with starts := [v], insts := [] } }
    let all := fun (x : State) => { x with esc := { x.esc with insts := (List.range 64).map (fun k => (k, gInst)) } }
    let fires := onInst (fun x => { x with fires := [0] }) s
    let ran := withRun n (some 0) (onInst (fun x => { x with running := [0] }) s)
    (goes (exec (.anchorWrite .fw 15 0x8001) s) (fun t => tgetD t.esc.anch 15 0 = 0x8001 && t.esc.scans = [15])
      && goes (exec (.anchorWrite .host 15 0x8001) (at2 0)) (fun t => tgetD t.esc.anch 15 0 = 0x8000 && t.esc.scans.isEmpty)
      && escRuns s && goes (exec (.anchorScan 15) (anch 0x8000)) (fun t => t.esc.scans.isEmpty && t.esc.starts.isEmpty)
      && goes (exec (.anchorScan 15) (all (anch 0x8001))) (fun t => t.esc.scans = [15])
      && (let h := homeAdmit (wake (anch 0x8001)) 256 (BitVec.allOnes 128) true; h.2 && tget h.1.coh.records 256 = none
          && (let u := recallOw h.1 256 none; cellsWf u.mem.cells && memPoison u 256 = 0 && u.cores.all (fun y => y.2.l1.isEmpty)))
      && goes (exec (.anchorScan 15) (anch 0x8001)) (fun t => t.esc.starts = [0x6000] && memAt t 0x8079 = 0)
      && goes (exec .instanceStart (start 0x6001)) (fun t => holds (getInst t 0) (fun x => x.status = 1))
      && (match escRead (start 0x6000) 0x6000 128 with | (r, .ok h) => h = gHead && !(graphBad h) && (escFree r [(0x6018, 3), (0x7000, 8)]).2 | _ => false)
      && goes (exec .instanceStart (start 0x6000)) (fun t => holds (getInst t 0) (fun x => x.status = 0 && x.nnode = 1 && x.fires.isEmpty) && memAt t 0x6018 = 0xFF && memAt t 0x7003 = 1)
      && graphBad 0 && holds (getInst (instBegin (start 0) 0x6000 0) 0) (fun x => x.status = 1)
      && goes (exec (.nodeFire 0 0) fires) (fun t => t.esc.ready.map (fun r => (r.inst, r.node, r.cw)) = [(0, 0, 5)] && memAt t 0x7003 = 1)
      && goes (exec (.nodeFire 0 0) (withMem 0x7000 1 7 fires)) (fun t => t.esc.runs.map (·.status) = [some 3])
      && goes (exec (.nodeRunEnd 0 0) ran) (fun t => t.esc.runs.isEmpty && memAt t 0x7004 = 1 && holds (getInst t 0) (fun x => x.running.isEmpty))
      && holds (getInst (decrement (withMem 0x7003 1 1 s) 0 0).1 0) (fun x => x.fires = [0]) && memAt (decrement (withMem 0x7003 1 2 s) 0 0).1 0x7003 = 1
      && (decrement (withMem 0x7003 1 2 s) 0 0).2
      && (match nodeInit s 0x7000 with | (t, some (some d)) => d = ndDep n && memAt t 0x7003 = 1 && memAt t 0x7004 = 0 | _ => false)
      && (let u := instInit (onInst (fun x => { x with nnode := 1, init := some (1, [0], none) }) s) 0;
          holds (getInst u 0) (fun x => x.init.isNone && x.fires = [0]) && memAt u 0x6018 = 0xFF)
      && (let e := onInst (fun x => { x with donea := 0x6100, donev := 9 }) s;
          let c := instClose (escFree e [(0x6018, 3), (0x6030, 8)]).1 0 { gInst with donea := 0x6100, donev := 9 };
          (escStore c 0x6100 9 (.node 64 0)).2 = .done && !(escOut c) && hostFails c 0x6100 = none
          && goes (exec (.instanceEnd 0) e) (fun t => (getInst t 0).isNone && memAt t 0x6100 = 9 && memAt t 0x6018 = 0))
      && goes (exec (.instanceEnd 0) (onInst (fun x => { x with donea := 0x6100, donev := 9 }) { s with coh := { s.coh with host := [(388, true)] } }))
          (fun t => holds (getInst t 0) (fun x => x.closing) && (tget t.coh.snoops 388).isSome)
      && graphBad gHead = false && (getInst (instBegin (start 0) 0x6000 gHead) 0).isSome
      && (decrement (onInst (fun x => { x with stopped := true }) (withMem 0x7003 1 1 s)) 0 0).2
      && holds (getInst (decrement (onInst (fun x => { x with stopped := true }) (withMem 0x7003 1 1 s)) 0 0).1 0) (fun x => x.fires.isEmpty)
      && memAt (decrement (onInst (fun x => { x with stopped := true }) (withMem 0x7003 1 1 s)) 0 0).1 0x7003 = 0
      && (let q := { s with mgmt := { s.mgmt with phase := .quiet } }; escWrites s && !(escWrites q) && goes (exec (.instanceEnd 0) q) (fun t => t = q))
      && goes (exec (.instanceEnd 0) (onInst (fun x => { x with status := 2, fnode := 3, stopped := true }) s)) (fun t => (getInst t 0).isNone && memAt t 0x6018 = 2 && memAt t 0x6019 = 0)
      && instQuiet s 0 gInst && goes (exec (.instanceEnd 0) s) (fun t => (getInst t 0).isNone && memAt t 0x6018 = 0 && memAt t 0x6019 = 0xFF)) = true := by decide +kernel
/-- A node of some contents at the head of the ready queue. -/
def readyNode (n : Nat) : State := let s := gState n; { s with esc := { s.esc with ready := [{ prio := 0, inst := 0, node := 0, blk := n, cw := 5, order := 0 }] } }
/-- NodeRuns: a node of every type. -/
theorem witness_NodeRuns :
    let k := fun (x : Nat) => withMem 0x9000 128 lHead (readyNode (ndOf 0 x 0 0 0))
    let tr := fun (x : Nat) => readyNode (ndOf 1 x 0x0000 0 0)
    let bk := fun (t x : Nat) => withMem 0x9000 128 (if t = 0 then ldBlk else rnBlk + 4 * 2 ^ 256) (readyNode (ndOf 2 x t 0 0))
    let bn := fun (t b : Nat) => withMem 0x9000 128 b (readyNode (ndOf 2 0x9000 t 0 0))
    let full := modStack (bk 0 0x9000) 0 (fun q => { q with cmdq := List.replicate 16 (bCmd .load ldBlk false) })
    let busy := modCluster (tr 0x9000) 0 (fun c => { c with cmds := List.replicate 64 (xcmd 0 none false) })
    let cd := readyNode (ndOf 3 7 5 0 0)
    let wh := readyNode (ndOf 4 7 5 0 3)
    let sg := readyNode (ndOf 6 0x9000 77 1 0)
    let bad := readyNode (ndOf 6 0x8000000000000000 77 1 0)
    let st := fun (i : Instr) (s : State) (x : Option Nat) (w : Nat) (b : Bool) => goes (exec i s) (fun t => t.esc.runs.map (fun r => (r.status, r.which, r.waiting)) = [(x, w, b)])
    (holds (readyHead cd) (fun r => r.inst = 0) && escRuns cd && (runAt cd 0 0).isNone && !(launchBad lHead)
      && st (.kernelNodeRun 0 0) (k 0x9000) none 0 false && goes (exec (.kernelNodeRun 0 0) (k 0x9000)) (fun t => t.esc.launches.map (·.total) = [8])
      && st (.kernelNodeRun 0 0) (k 0x9001) (some 1) 0 false && st (.kernelNodeRun 0 0) (k 0x6000) (some 1) 0 false
      && st (.transferNodeRun 0 0) busy none 0 true && st (.transferNodeRun 0 0) (tr 0x9001) (some 4) 0 false
      && st (.transferNodeRun 0 0) (tr 0x9000) none 0 false && goes (exec (.transferNodeRun 0 0) (tr 0x9000)) (fun t => (getCluster t 0).cmds.map (·.node) = [some (0, 0)])
      && st (.bankNodeRun 0 0) (bk 0 0x9000) none 0 false && goes (exec (.bankNodeRun 0 0) (bk 0 0x9000)) (fun t => (getStack t 0).cmdq.map (fun c => (c.node, c.blk)) = [(some (0, 0), ldBlk)])
      && st (.bankNodeRun 0 0) (bn 1 vcBlk) none 0 false && goes (exec (.bankNodeRun 0 0) (bn 1 vcBlk)) (fun t => (getStack t 0).vecq.map (fun c => (c.kind, c.node, c.set)) = [(.vec, some (0, 0), [0])])
      && st (.bankNodeRun 0 0) (bn 2 rnBlk) none 0 false && goes (exec (.bankNodeRun 0 0) (bn 2 rnBlk)) (fun t => (getStack t 0).cmdq.map (fun c => (c.kind, c.node, c.set)) = [(.run, some (0, 0), [0])])
      && st (.bankNodeRun 0 0) (bn 2 (rnBlk + 2 ^ 128)) (some 4) 0 false && st (.bankNodeRun 0 0) (bk 0 0x9001) (some 4) 0 false && st (.bankNodeRun 0 0) (bk 2 0x9020) (some 4) 0 false
      && (match escRead (addRun (bn 2 rnBlk) { prio := 0, inst := 0, node := 0, blk := ndOf 2 0x9000 2 0 0, cw := 5, order := 0 } none 0 false) 0x9000 128 with
          | (u, .ok v) => v = rnBlk && u.esc.runs.length = 1 && bgRoom .run u v && (crecOk u none 0 (bitsOf v 128 64)).2 = some true | _ => false)
      && st (.bankNodeRun 0 0) (modStack (bn 2 rnBlk) 0 (fun q => { q with cmdq := full.stackTbl.head?.elim [] (fun x => x.2.cmdq) })) none 0 true
      && st (.bankNodeRun 0 0) full none 0 true && st (.bankNodeRun 0 0) (bk 2 0x9000) (some 3) 0 false
      && st (.conditionNodeRun 0 0) cd (some 0) 1 false && st (.conditionNodeRun 0 0) (readyNode (ndOf 3 7 5 1 0)) (some 0) 2 false
      && st (.whileNodeRun 0 0) wh (some 0) 1 false && goes (exec (.whileNodeRun 0 0) wh) (fun t => holds (getInst t 0) (fun x => x.cw = 8))
      && st (.barrierNodeRun 0 0) (readyNode (ndOf 5 0 0 0 0)) (some 0) 0 false
      && st (.hostSignalNodeRun 0 0) bad (some 4) 0 false && st (.hostSignalNodeRun 0 0) sg (some 0) 0 false
      && goes (exec (.hostSignalNodeRun 0 0) sg) (fun t => memAt t 0x9000 = 77 && raised t 0)
      && (match xlateNow sg none 0 0x9000 with
          | (u, .ok e) => (daCheck u e 0x9000 true true).isNone && tgtOf u (daOf e 0x9000) = .hbm
              && (homeAdmit u (lineOf (localOf (daOf e 0x9000))) (spanMask 0 8) true).2
          | _ => false)) = true := by decide +kernel
/-- Dispatching: a launch's blocks placed and one with nowhere to go, a wait before and at its time, an end, PREQ, a block due to be saved and no slot, and the encoding. -/
theorem witness_Dispatching :
    let s := after (.kernelNodeRun 0 0) (withMem 0x9000 128 lHead (readyNode (ndOf 0 0x9000 0 0 0)))
    let h := launchHdr lHead
    let g := newGroup h 4 7 0 3 9 5
    let p := after .blockPlacement s
    let shut := after (.preqClose .fw 128) s
    let late := fun (n : Nat) => let x := after .blockPlacement shut; { x with time := { x.time with now := n } }
    let over_ := { p with blocks := p.blocks.map (fun b => (b.1, { b.2 with groups := [] })) }
    let due := { p with blocks := p.blocks.map (fun b => (b.1, { b.2 with preempt := true })) }
    let b := (p.blocks.getLast?.map Prod.fst).getD 0
    (!(s.mgmt.off) && s.mgmt.phase = .run && (findRoom s h 0 0).isSome && holds (findRoom s h 0 0) (fun r => r.1 < 128 && r.2.length = 1)
      && p.blocks.length = s.blocks.length + 1 && p.groups.length = s.groups.length + 1
      && h.args.length = 4 && launchW h = 8 && sGet g 0 = 7 && launchBs h = 1 && holds (tget g.lanes 0) (fun f => f.live)
      && holds ((waitingLaunches (late 0)).head?) (fun l => l.since = some 0) && goes (exec .dispatchWaitExpiry (late 99999)) (fun t => t.esc.reserved.isNone)
      && goes (exec .dispatchWaitExpiry (late 100000)) (fun t => t.esc.reserved.isNone)
      && (let x := late 100000; let y := { x with clusters := x.clusters.map (fun c => (c.1, if c.1 = 5 then { c.2 with closed := false } else c.2)) }
          goes (exec .dispatchWaitExpiry y) (fun t => t.esc.reserved = some (0, 0, 5)))
      && holds (tget over_.blocks b) (fun k => k.groups.isEmpty && !(blockBusy over_ b k) && (drainBlock over_ b k).2
          && (publishAll (drainBlock over_ b k).1 b k false).2 && !(blockFab over_ b k))
      && goes (exec (.blockEnd b) over_) (fun t => (tget t.blocks b).isNone && t.esc.launches.map (·.live) = [0])
      && goes (exec (.preqClose .core 128) s) (fun t => t = s) && (getCluster shut 127).closed && goes (exec (.preqOpen .host 128) shut) (fun t => !(getCluster t 127).closed)
      && goes (exec (.preqClose .fw 127) s) (fun t => (getCluster t 127).closed && !(getCluster t 0).closed)
      && holds (tget due.blocks b) (fun k => k.preempt && !k.fatal && !k.groups.isEmpty && k.groups.all (fun g => holds (tget due.groups g) groupParked)
          && (let d := preemptTransient due b k; commandsDone d b k && (preemptDrain d b k).2) && (freeSlot due).isNone
          && holds (tget (saveBlock due b k).blocks b) (fun y => y.noSlot && !y.preempt && !y.groups.isEmpty))
      && decodeBlock (encodeBlock [1, 2, 3, 4, 5, 6, 7, 0xFFFFFFFFFFFFFF82] ++ [9]) = ([1, 2, 3, 4, 5, 6, 7, 0xFFFFFFFFFFFFFF82], [9])
      && tgetD (slotsDecode 32 (slotsEncode 32 { newFibre h 0 with slots := [(31, 77)] })) 31 0 = 77
      && cellsGet (padDecode 1 (padEncode { first := 0, parts := 1, bytes := [(32767, 5)], poison := [] })) 32767 = 5) = true := by decide +kernel

/-- A machine with a version chosen, a report area at 65,536 and SUSPBASE set. -/
def mgState : State :=
  let s := selected256 State.reset
  { s with mgmt := { s.mgmt with mbarg := 0x10000, suspbase := 0x4000001 } }
def inPhase (p : Phase) (s : State) : State := { s with mgmt := { s.mgmt with phase := p, mbBusy := true, mbCur := 255 } }
def free_ (p : Phase) (s : State) : State := { s with mgmt := { s.mgmt with phase := p } }
/-- MailboxAndSuspend, but for IDCERT: each command in each case, and the events of each phase. -/
theorem witness_MailboxAndSuspend :
    let s := mgState
    let no := selected256 State.reset
    let busy := inPhase .run s
    let dn := fun (i : Instr) (x : State) (st : Nat) => goes (exec i x) (fun t => !(t.mgmt.mbBusy) && t.mgmt.mbStatus = st && t.mgmt.mbSeq = 255 && raised t 1)
    let a := recallOw s 512 none
    let blk : Block := { hdr := launchHdr 0, bn := 0, cores := [], groups := [], bars := [], bufs := [], lostSets := [], lostRegions := [],
                         inst := 0, node := 0, fatal := false, preempt := false, noSlot := true }
    let nosl := { inPhase .preparing s with blocks := [(0, blk)] }
    let work := { inPhase .preparing s with blocks := [(0, { blk with noSlot := false })] }
    let resv := modLease (inPhase .preparing s) 0 127 (fun _ => { Lease.reset with st := .reserved, rowSets := [64], vbase := 0x400000, lrec := 0x5000, dur := 1 })
    let slot : FwSlot := { keyDigest := 9, keyBits := 4096, exponent := 65537, verifies := true, svn := 7 }
    let fused := { after .thermalShutdown s with fuses := { rootDigest := 9, minSvn := 7 } }
    let late := fun (n : Nat) => let x := inPhase .preparing s; { x with time := { x.time with now := n } }
    (!(s.mgmt.off) && s.xl.waiting.isEmpty && s.mgmt.booted && !(s.mgmt.mbBusy) && selFw s ≠ 0 && s.mgmt.phase = .run && selFw State.reset = 0
      && goes (exec (.mbVersion 255) busy) (fun t => t = busy) && goes (exec (.mbBadcmd 0xFF0A) busy) (fun t => t = busy)
      && dn (.mbBadcmd 0xFF0A) s 1 && dn (.mbBadcmd 0xFF00) s 1 && dn (.mbBadcmd 0x1FF01) s 1 && dn (.mbVersion 255) s 0
      && dn (.mbAttest 255) State.reset 7 && dn (.mbRelease 255) s 6 && dn (.mbPrepare 255) (free_ .quiet s) 6
      && dn (.mbAttest 255) { s with mgmt := { s.mgmt with mbarg := 0x8000000000 } } 2 && dn (.mbIdcert 255) { s with mgmt := { s.mgmt with mbarg := 1 } } 2
      && reportArea s = some 0x10000 && (mgmtWrite a 0x10000 768 (attestReport a (lineRead (memLine a 512) 0 64))).2
      && dn (.mbPowercap 255) { s with mgmt := { s.mgmt with mbarg := 300 } } 0 && dn (.mbPowercap 255) { s with mgmt := { s.mgmt with mbarg := 299 } } 2
      && (let bz := { s with mgmt := { s.mgmt with fwBusy := true } }; dn (.mbVersion 255) bz 3 && dn (.mbPowercap 255) { bz with mgmt := { bz.mgmt with mbarg := 300 } } 3
          && dn (.mbRelease 255) (free_ .woken bz) 3 && mbPhaseOk 9 .woken && !(mbArgBad s 9))
      && dn (.mbCommit 255) (free_ .quiet no) 2 && dn (.mbAbort 255) (free_ .quiet no) 2 && dn (.mbWake 255) (free_ .retained no) 2 && dn (.mbRelease 255) (free_ .woken no) 2
      && (raiseSvn s 8).fuses.minSvn = 8 && (raiseSvn fused 8).fuses.minSvn = 7
      && (let v := maskVector (after (.mbVersion 255) s) 1 false; v.mgmt.msix = [1] && !(v.mgmt.vpend.testBit 1) && !(v.mgmt.vmask.testBit 1) && v.mgmt.vmask.testBit 3
          && goes (exec (.mbVersion 255) v) (fun t => t.mgmt.msix = [1, 1]))
      && dn (.mbPrepare 255) no 2 && goes (exec (.mbPrepare 255) s) (fun t => t.mgmt.phase = .preparing && t.mgmt.mbBusy && t.esc.stopped && (getCluster t 127).closed)
      && goes (exec (.mbCommit 255) (free_ .quiet s)) (fun t => t.mgmt.phase = .committing) && dn (.mbAbort 255) (free_ .quiet s) 0
      && goes (exec (.mbWake 255) (free_ .retained s)) (fun t => t.mgmt.phase = .waking) && dn (.mbRelease 255) (free_ .woken s) 0
      && dn .prepareQuiet nosl 4 && !(allIdle work) && goes (exec .prepareQuiet work) (fun t => t = work)
      && goes (exec .prepareQuiet resv) (fun t => (leaseEntry t 0 127).st = .free && t.mgmt.phase = .preparing)
      && allIdle (late 0) && dn .prepareQuiet (late 0) 0 && dn .prepareTimeout (late 3000000000) 5 && goes (exec .prepareTimeout (late 2999999999)) (fun t => t = late 2999999999)
      && (inPhase .committing s).coh.host.isEmpty && (inPhase .committing s).coh.snoops.isEmpty && dn .wakeWoken (inPhase .waking s) 0
      && goes (exec (.powerOnBoot slot { slot with svn := 5 }) s) (fun t => t = s)
      && goes (exec (.powerOnBoot { slot with keyBits := 2048 } { slot with svn := 6 }) fused) (fun t => !(t.mgmt.off) && !(t.mgmt.booted) && t.mgmt.verFw = 0 && t.fuses = fused.fuses)
      && goes (exec (.powerOnBoot { slot with verifies := false } slot) fused) (fun t => t.mgmt.booted && t.mgmt.verFw = 256)) = true := by decide +kernel

/-- Lines of HBM each admitted one after another in a machine with no host copies. -/
def admitted : List Nat → State → Bool
  | [], s => s.coh.host.isEmpty && s.coh.snoops.isEmpty
  | n :: t, s => s.coh.host.isEmpty && s.coh.snoops.isEmpty && decide ((llcLines s n).length < 16) && decide (n * 128 < 0x8000000000)
      && (homeAdmit s n 0 true).2 && admitted t (homeAdmit s n 0 true).1
/-- Without host copies a line of HBM with room in its set is admitted whatever bytes of it are asked for. -/
theorem homeAdmit_noHost (s : State) (n : Nat) (m : LineMask) (h : s.coh.host = []) (k : s.coh.snoops = []) (r : (llcLines s n).length < 16)
    (b : n * 128 < 0x8000000000) : homeAdmit s n m true = homeAdmit s n 0 true := by
  have c : ∀ l : List Nat, l.all (halfClear s true) = true := by
    intro l; simp [halfClear, h, k, tget]
  have f : ∀ x : LineMask, fillValid s n x = fillValid s n 0 := by
    intro x; simp [fillValid, halfClear, h, k, tget, b]
  have q : llcRoom s n = (s, true) := by simp [llcRoom, r]
  unfold homeAdmit homeAdmitBy
  simp [c, q, f m]
theorem admitted_fold (ps : List (Nat × Nat × Nat)) (s : State) (h : admitted (ps.map (fun p => lineOf p.1)) s = true) :
    (ps.foldl (fun (a : State × Bool) p => ((homeAdmit a.1 (lineOf p.1) (spanMask (p.1 % 128) p.2.1) true).1,
      a.2 && (homeAdmit a.1 (lineOf p.1) (spanMask (p.1 % 128) p.2.1) true).2)) (s, true)).2 = true := by
  induction ps generalizing s with
  | nil => rfl
  | cons p t ih =>
    simp only [List.map_cons, admitted, Bool.and_eq_true, List.isEmpty_iff] at h
    simp only [decide_eq_true_eq] at h
    simp only [List.foldl_cons, homeAdmit_noHost s _ (spanMask (p.1 % 128) p.2.1) h.1.1.1.1.1 h.1.1.1.1.2 h.1.1.1.2 h.1.1.2, h.1.2, Bool.and_self]
    exact ih _ h.2
/-- Lines of a span that begins at a line. -/
theorem pieces_lines (k l n o : Nat) (h : n ≤ 128 * k) : (pieces k (128 * l) n o).map (fun p => lineOf p.1) = rangeFrom l ((n + 127) / 128) := by
  induction k generalizing l n o with
  | zero => have : n = 0 := by omega
            subst this; rfl
  | succ k ih =>
    by_cases z : n = 0
    · subst z; rfl
    · obtain ⟨q, hq⟩ : ∃ q, (n + 127) / 128 = q + 1 := ⟨(n + 127) / 128 - 1, by omega⟩
      simp only [pieces, z, if_false, List.map_cons, hq, rangeFrom, lineOf, Nat.mul_mod_right, Nat.sub_zero,
        Nat.mul_div_cancel_left _ (show 0 < 128 by omega)]
      by_cases b : n ≤ 128
      · have : q = 0 := by omega
        subst this
        simp [Nat.min_eq_left b, Nat.sub_self]
        cases k <;> simp [pieces, rangeFrom]
      · rw [Nat.min_eq_right (by omega), show 128 * l + 128 = 128 * (l + 1) by omega]
        have := ih (l + 1) (n - 128) (o + 128) (by omega)
        rw [show (n - 128 + 127) / 128 = q by omega] at this
        rw [← this]; rfl
theorem admitted_lines : (List.range 34).all (fun k => admitted (rangeFrom 512 k) mgState) = true := by decide +kernel
/-- MailboxAndSuspend, IDCERT: the certificate has room at the report area whatever it is. -/
theorem witness_MailboxCertificate (v : Nat) : reportArea mgState = some 65536 ∧ (mgmtWrite mgState 65536 (Config.certLen % 4093 + 4) v).2 = true := by
  refine ⟨by decide +kernel, ?_⟩
  generalize hn : Config.certLen % 4093 + 4 = n
  have hb : n < 4097 := by omega
  have e := pieces_lines (n / 128 + 2) 512 n 0 (by omega)
  have a := List.all_eq_true.1 admitted_lines ((n + 127) / 128) (List.mem_range.2 (by omega))
  have f := admitted_fold (pieces (n / 128 + 2) (128 * 512) n 0) mgState (by rw [e]; exact a)
  rw [show (65536 : Nat) = 128 * 512 from rfl]
  simp only [mgmtWrite, f, Bool.not_true, Bool.false_eq_true, if_false]

/-- RegistersAndPower: writes of every agent, the two kinds of step before and at its time, the window, temperature, current, idle. -/
theorem witness_RegistersAndPower :
    let s := State.reset
    let ones : W64 := BitVec.allOnes 64
    let at_ := fun (n : Nat) (x : State) => { x with time := { x.time with now := n } }
    let up := { s with mgmt := { s.mgmt with step1 := some { target := 4, switched := false, from_ := 0, since := 0, req := 1 }, last := 9 } }
    let down := { s with mgmt := { s.mgmt with op0 := 4, step0 := some { target := 0, switched := false, from_ := 4, since := 0, req := 1 } } }
    let sw := { s with mgmt := { s.mgmt with step0 := some { target := 0, switched := true, from_ := 4, since := 0, req := 1 }, last := 9 } }
    let still := fun (i : Instr) (x : State) => goes (exec i x) (fun t => t = x)
    (!(mayWrite .core 0x300) && still (.registerWrite .core 0x300 ones) s
      && goes (exec (.registerWrite .fw 0x300 ones) s) (fun t => regRead t 0x300 = 0x01FFFFFFC0000001)
      && goes (exec (.registerWrite .host 0x310 ones) s) (fun t => regRead t 0x310 = 0xFFFF)
      && goes (exec (.registerWrite .host 0x708 ones) s) (fun t => regRead t 0x708 = ones)
      && goes (exec (.verselWrite .host 0x0100020001FF0100) s) (fun t => t.mgmt.versel = 0x0100000001000100 || t.mgmt.versel = 0x0100000000000100)
      && still (.dvreq .fw 7) s && still (.dvreq .fw 0x24) s
      && goes (exec (.dvreq .fw 0x18) up) (fun t => t.mgmt.last = 3)
      && still (.dvfloorWrite .fw 1) s && goes (exec (.dvfloorWrite .fw 4) { s with mgmt := { s.mgmt with op0 := 4, op1 := 7 } }) (fun t => t.mgmt.swFloor = 4)
      && railTicks 0 4 = 12000 && still (.dvfsClockSwitch 1) (at_ 11999 up) && goes (exec (.dvfsClockSwitch 1) (at_ 12000 up)) (fun t => opOf t 1 = 4 && holds (stepOf t 1) (fun x => x.switched))
      && still (.dvfsClockSwitch 0) (at_ 4999 down) && goes (exec (.dvfsClockSwitch 0) (at_ 5000 down)) (fun t => opOf t 0 = 0 && holds (stepOf t 0) (fun x => x.switched))
      && still (.dvfsRailSettled 0) (at_ 11999 sw) && goes (exec (.dvfsRailSettled 0) (at_ 12000 sw)) (fun t => (stepOf t 0).isNone && t.mgmt.last = 0)
      && goes (exec (.dvfsRailSettled 1) (after (.dvfsClockSwitch 1) (at_ 12000 up))) (fun t => (stepOf t 1).isNone && t.mgmt.last = 0 && opOf t 1 = 4)
      && goes (exec (.dvfsRailSettled 0) (at_ 12000 { sw with mgmt := { sw.mgmt with step1 := some { target := 4, switched := false, from_ := 0, since := 0, req := 1 } } }))
          (fun t => (stepOf t 0).isNone && t.mgmt.last = 9)
      && goes (exec (.registerWrite .host 0x310 1) { s with mgmt := { s.mgmt with idle := true } }) (fun t => !t.mgmt.idle)
      && still .dvsampWindow (at_ 9999 s) && goes (exec .dvsampWindow (at_ 10000 { s with mgmt := { s.mgmt with winTotal := [(1, 9)], winStall := [(1, 4)] } })) (fun t => t.mgmt.samp1 = 0x900000004)
      && goes (exec .thermalTrip up) (fun t => t.mgmt.tlim && t.mgmt.last = 4 && raised t 3) && goes (exec .thermalTrip s) (fun t => t.mgmt.last = s.mgmt.last)
      && goes (exec .thermalRecovery (after .thermalTrip s)) (fun t => !(t.mgmt.tlim))
      && still (.currentSample 3420) s && goes (exec (.currentSample 3421) s) (fun t => t.mgmt.throttling && t.mgmt.thrCnt = 1)
      && goes (exec (.currentSample 3239) (after (.currentSample 3421) s)) (fun t => !(t.mgmt.throttling))
      && quietNow s && goes (exec .idleEntry { s with mgmt := { s.mgmt with idleFor := 1000000 } }) (fun t => t.mgmt.idle)
      && goes (exec .thermalShutdown (at2 0)) (fun t => t.mgmt.off && t.groups.isEmpty)) = true := by decide +kernel
/-- RegistersAndPower, DVREQ: whatever the part's fastest point and floor, a request for that point from OP0 starts its steps, and is denied while too hot or
throttled. (A target above BINOP exists only on a part whose BINOP is 4.) -/
theorem witness_DvreqSteps : State.reset.mgmt.op0 = 0 ∧ State.reset.mgmt.swFloor = 0 ∧ stepOf State.reset 0 = none ∧ stepOf State.reset 1 = none ∧
    State.reset.mgmt.phase = .run ∧ max fFloor 0 ≤ binOp ∧ 0 < max fFloor 1 ∧ binOp < 8 ∧ binOp ≠ 0 ∧ ∃ v : W64, v.toNat % 8 = binOp ∧ v.toNat / 8 % 4 = 3 ∧ v.toNat / 32 = 0 := by
  have f : fFloor ≤ binOp := Nat.le_of_lt_succ (Nat.mod_lt _ (Nat.succ_pos _))
  have b : binOp = 7 ∨ binOp = 4 := by unfold binOp; split <;> simp
  refine ⟨rfl, rfl, rfl, rfl, rfl, by omega, by omega, by omega, by omega, ?_⟩
  rcases b with b | b
  · exact ⟨0x1F, by rw [b]; decide, by decide, by decide⟩
  · exact ⟨0x1C, by rw [b]; decide, by decide, by decide⟩
/-- StepRunsDecoded: an agenda with an event, with a path at a header and at a word good and bad, with an engine; no agenda with an event due and none. -/
theorem witness_StepRunsDecoded :
    let s := { placeCode State.reset (0xF7320008 :: 0x26C00414 :: 0x00000001 :: List.replicate 14 0) 1 0xF7320008 none with agenda := [.path 0 7] }
    let s2 := withP (fun p => { p with widx := 2 }) s
    let ag := fun (x : State) (a : Action) => { x with agenda := [a] }
    let b := ag (modBge (runState (bCmd .run rnBlk true) [bankWord, bankWord]) 0 (fun b => { b with c := 2 })) (.bge 0)
    let due := { State.reset with time := { State.reset.time with mode := .waiting, sinceOff := 10000000 } }
    (goes (step (ag (at2 0) (.event .thermalTrip))) (fun t => t.mgmt.tlim)
      && onCtx { s with focus := some (0, 7), agenda := [] } (fun cx => cx.path.wait = .ready && cx.grp.replays.isEmpty && cx.grp.words.isEmpty
          && (match fetchAt s 0 cx.path.pc with | .code ws _ => headerOk ws (wixOf cx.path.pc) && codeAt ws (wixOf cx.path.pc + 1) = 0x26C00414 | _ => false))
      && goes (step (ag s2 (.path 0 7))) (fun t => holds (pathIn t 0 0) (fun p => holds (pathTrap p) (fun x => x.cause = 1)))
      && goes (step s) (fun t => holds (pathIn t 0 0) (fun p => p.cur = 0x26C00414 && holds p.y0 (fun _ => true)))
      && goes (step b) (fun t => (getBge t 0).pc = 1 && getBge t 0 = { getBge b 0 with pc := 1 }) && holds (runOf b 0) (fun c => bitsOf c.blk 192 1 = 0)
      && (let t := let x := modLease (at2 0) 0 0 (fun y => { y with st := .held, rowSets := [0] }); { x with coh := { x.coh with waits := some 2 } }
          lineHeld t 2 && askAgain (.path 0 0) = some (.path 0 0) && goes (noted (.path 0 0) (.next t)) (fun u => u.coh.holds = [(2, .path 0 0)] && u.coh.waits = none))
      && (dueNext State.reset).isNone && (dueNext due).isSome && goes (step State.reset) (fun _ => true)) = true := by decide +kernel
/-- DecodeEncode, StepKeepsInv and ResetState: instructions that are well formed, with words that decode; a state with Inv and its step. -/
theorem witness_DecodeEncode :
    [Instr.add (.y 2) (.maxf) (.v 31) .w8, .st (.neg 7) (.s 31) .u .b8 0x3F, .trap 511, .fend .all].all (fun i => (i.isWord && !i.wf) || (match encode i with
      | some w => (match decode w with | .ok j => decide (j = i) | .error _ => false) | none => false)) = true := by decide +kernel
theorem witness_StepKeepsInv :
    let inv := fun (s : State) => cellsWf s.mem.cells && s.cores.all (fun c => c.2.spads.all (fun p => cellsWf p.2.bytes))
    (inv State.reset && inv (withMem 0 8 5 memState) && !((withMem 0 8 5 memState).cores.all (fun c => c.2.spads.isEmpty))
      && goes (step (withMem 0 8 5 memState)) inv) = true := by decide +kernel

/-! ## Ill-formed terms (WellFormed) -/

/-- Table 2.4: a floating-point constant to an integer instruction; a lane number to a floating-point one. -/
theorem test_wf_source : (Instr.add (.v 0) (.fpc 1) (.v 1) .w64).wf = false ∧ (Instr.fadd (.v 0) .lane (.v 1) .fp32).wf = false ∧
    (Instr.icmp .eq 0 (.v 1) .pinf .w64).wf = false ∧ (Instr.fcmp .lt 0 .octet (.v 1) .fp32).wf = false := by decide
/-- R209: a lane's source with a uniform destination; a PERM, SHFL or scan to a uniform register. -/
theorem test_wf_uniform : (Instr.add (.s 0) (.v 1) (.s 1) .w64).wf = false ∧ (Instr.add (.s 0) .lane (.s 1) .w64).wf = false ∧
    (Instr.shfl (.s 0) (.v 1) (.v 2) .idx).wf = false ∧ (Instr.perm (.s 0) (.s 1) (.v 2)).wf = false ∧ (Instr.iscan (.s 0) (.v 1) .add false).wf = false := by decide
/-- PERM whose six control registers pass v31; a format of SMM, STRN and SLUF that they do not have; LOOP of no clauses. -/
theorem test_wf_limits : (Instr.perm (.v 0) (.v 1) (.v 27)).wf = false ∧ (Instr.smm 0 6 12 .sym64).wf = false ∧ (Instr.strn 0 6 3 .sym64).wf = false ∧
    (Instr.sluf 0 6 3 .sym64).wf = false ∧ (Instr.loop 0 (.k 3) none).wf = false := by decide
/-- A lane's address with a uniform destination; PREF with type .u; a relaxed order beyond the core; CAS at v31 or with a failing order that its order does not hold;
an operation that a RED type lacks. -/
theorem test_wf_memory : (Instr.ld (.s 0) (.v 1) .o .b8 0).wf = false ∧ (Instr.pref false (.v 1) .u 0).wf = false ∧ (Instr.atom 0 (.v 1) .addN32 .dev .rlx).wf = false ∧
    (Instr.cas 31 (.v 1) false true .core .rlx).wf = false ∧ (Instr.cas 3 (.v 1) true true .core .rlx).wf = false ∧ (Instr.red (.v 4) (.v 1) .fp32 .and).wf = false := by decide
/-- A status register that has no window copy, or no uniform copy; store data, a scale and a weight that their instructions do not take. -/
theorem test_wf_status : (Instr.wrsr (.v 1) 1).wf = false ∧ (Instr.rdsr (.s 1) 0).wf = false ∧ (Instr.wrsr .pinf 0).wf = false ∧
    (Instr.st .pinf (.v 1) .o .b8 0).wf = false ∧ (Instr.dqmx4 (.v 0) (.v 1) .ninf 0).wf = false ∧ (Instr.gred 0 (.v 1) .lane true).wf = false := by decide

/-! ## Words of the spec decoded (every family) -/

/-- A word reads as an instruction, or as illegal with a sub-cause. -/
def word (w : Nat) (i : Instr) : Bool := match decodeNat w with | .ok j => j = i | .error _ => false
def wrong (w : Nat) (e : Illegal) : Bool := match decodeNat w with | .ok _ => false | .error x => x = e

/-- Tables 2.5, 2.6, 14.2: words of the control family and of a clause. -/
theorem test_decode_control : word 0x02400040 (.brc 2 false ⟨0, 64⟩) = true ∧ word 0x13000064 (.yield 100) = true ∧
    word 0x0AA00002 (.brk (.pred 5 false) 2) = true ∧ (match decodeHeaderNat 0xF7220000 with | .ok i => decide (i = (.clauseHeader 2 0 true false 0 false 0 false false false)) | .error _ => false) = true := by decide +kernel
/-- Table 10.5 and the examples of chapter 10. -/
theorem test_decode_vector : word 0x26C00414 (.add (.y 0) (.v 1) (.v 2) .w64) = true ∧ word 0x491004A0 (.perm (.v 8) (.v 1) (.v 20)) = true ∧
    word 0x78080801 (.fred (.v 4) (.v 2) .add .fp32) = true ∧ word 0x850C0800 (.qmx4 6 (.v 2)) = true := by decide +kernel
/-- Table 11.4 and the examples of chapter 11. -/
theorem test_decode_matrix : word 0xA0100228 (.mqa 8 0 (.tile 5) .bf16) = true ∧ word 0xA3851400 (.mtf 2 5) = true ∧
    word 0xB4182A18 (.sluf 12 10 3 .fp32) = true := by decide +kernel
/-- Tables 7.5, 8.2 and 12.6, and the examples of chapters 03 and 06. -/
theorem test_decode_memory : word 0xC00C0C80 (.ld (.v 6) (.v 3) .o .b4 0) = true ∧ word 0xD0080600 (.red (.v 4) (.v 1) .fp32 .add) = true ∧
    word 0xCC892800 (.rowgive 4 10) = true ∧ word 0xE0251003 (.xcopy (some 2) 4 3) = true ∧ word 0xEF100A28 (.mlr 8 (.v 2) 5 false) = true := by decide +kernel
/-- Bank moves and bank commands (chapter 04), and the words of chapter 15. -/
theorem test_decode_bank_and_system : decodeMoveNat 0xAA000050 = .bankMoveImmediate true 2 0x20 5 0 ∧ decodeMoveNat 0x00B34000 = .bankMovePort false 0 0x0B 0x1A 0 ∧
    word 0xEC011809 (.bgrun 6 9) = true ∧ word 0xF3880009 (.rdsr (.s 4) 9) = true ∧ word 0xF80A0003 (.perf (.v 5) 3) = true := by decide +kernel
/-- Table 2.8: a word that sets a bit that must be 0, an operand value that is not assigned, and an opcode that is not. -/
theorem test_decode_refused : wrong 0x00000001 .reserved = true ∧ wrong 0xFE000000 .unassigned = true := by decide +kernel

/-! ## Single steps, with the spec's own results -/

/-- The next step of a group whose path stands at a word. -/
def runs (w : W32) (f : State → State) : Out := step { f (at2 w) with agenda := [.path 0 0] }
/-- R234: DIV.s32 of two pairs, 7 ÷ 0 and −2^31 ÷ −1. -/
theorem test_div_s32 : goes (exec (.div (.v 4) (.v 1) (.v 2) .s32) (setV 0 1 0x8000000000000007 (setV 0 2 0xFFFFFFFF00000000 (at2 0))))
    (fun t => vReg t 0 0 4 = 0x80000000FFFFFFFF) = true := by decide +kernel
/-- R238: the PERM that reverses a word's bits. -/
theorem test_perm_reverses : goes (runs 0x491004A0 (fun s => setV 0 1 1 (setV 0 20 0x5555555555555555 (setV 0 21 0x3333333333333333 (setV 0 22 0x0F0F0F0F0F0F0F0F
    (setV 0 23 0x00FF00FF00FF00FF (setV 0 24 0x0000FFFF0000FFFF (setV 0 25 0x00000000FFFFFFFF s))))))))
    (fun t => vReg t 0 0 8 = 0x8000000000000000) = true := by decide +kernel
/-- R254, Table 10.12: the full tree of FRED with lanes 1 and 4 inactive; lane 1 keeps its value. -/
theorem test_fred_tree : goes (runs 0x78080801 (fun s => withP (fun p => { p with mask := 0b11101101 }) (setV 0 2 0x4B800000 (setV 2 2 0x3F800000 (setV 3 2 0x3F800000
    (setV 5 2 0xCB800000 (setV 6 2 0x3F800000 (setV 7 2 0x3F800000 s)))))))) (fun t => vReg t 0 7 4 = 0x40800000 && vReg t 0 1 4 = 0) = true := by decide +kernel
/-- R259: QMX4 of an octet with amax 5.0: elements 6, 9, 0 and 2, and the scale 0x7F. -/
theorem test_qmx4 : goes (runs 0x850C0800 (setV 0 2 0x3F803E80BE9A40A0)) (fun t => vReg t 0 0 6 = 0x7F2096 && vReg t 0 1 6 = 0x7F0000) = true := by
  decide +kernel
/-- R105: the sums of GRED's example. -/
theorem test_gred_sums : gredSums true [(0, 8, 0x4B800000, 0x3F800000), (1, 9, 0x40400000, 0x3F800000), (2, 9, 0x40800000, 0x3F800000), (3, 8, 0x3F800000, 0x3F800000),
      (4, 7, 0x3F000000, 0x3F800000), (5, 8, 0x3F800000, 0x3F800000), (6, 8, 0xCB800000, 0x3F800000)]
    = [(0, 0), (1, 0x40E00000), (2, 0x80000000), (3, 0x80000000), (4, 0x3F000000), (5, 0x80000000), (6, 0x80000000)] := by decide +kernel
/-- R151: the sum of MLR's example, and with member 2 absent. -/
theorem test_mlr_sum :
    let w := fun (c : Nat) => { wordOf (.mlr false) (4 + 0x400 * 2 ^ 256 + 0x401 * 2 ^ 288 + 0x402 * 2 ^ 320 + 0x403 * 2 ^ 352) .walk 0 0 with
      ans := [(0, 0, 0x4B80), (1, 0, 0x3F80), (2, c, 0x3F80), (3, 0, 0xCB80)] }
    mlrLane (w 0) 0 = 0x40000000000 ∧ mlrLane (w 1) 0 = 0x30100000000 := by decide +kernel
/-- R82: DOT of one BF16 element, 1.5 × −2.0, with INIT and without. -/
theorem test_dot_element : dotGo { Bge.reset with vs := [(0, 0xC000)] } false true 0 0x3FC0 1 0 0x3F800000 = 0xC0400000 ∧
    dotGo { Bge.reset with vs := [(0, 0xC000)] } false false 0 0x3FC0 1 0 0x3F800000 = 0xC0000000 := by decide +kernel
/-- R389: the DELTA8 block of the example. -/
theorem test_delta8 : encodeBlock [0x1000, 0x1008, 0x1010, 0x1018, 0x1020, 0x1028, 0x1030, 0x1038]
    = [2, 0, 0x10, 0, 0, 0, 0, 0, 0, 8, 0x10, 0x18, 0x20, 0x28, 0x30, 0x38] := by decide +kernel
/-- R211: a compare over 16-bit elements with results 1, 0, 0, 1. -/
theorem test_compare_mask : goes (exec (.icmp .eq 1 (.v 1) (.v 2) .w16) (setV 0 1 0x0004000300020001 (setV 0 2 0x0004000000000001 (at2 0))))
    (fun t => pReg t 0 0 1 = 0b11000011) = true := by decide +kernel
/-- Table 14.3, pass 1: BRK takes lanes 0 to 3 to the target of depth 1, and the path goes on with the others. -/
theorem test_break_splits : goes (exec (.brk (.pred 1 false) 0) (withG (fun g => { g with lanes := g.lanes.map (fun x =>
      (x.1, { x.2 with rejoin := [0x100], pred := if x.1 < 4 then 0xFF00 else 0 })) }) (at2 0)))
    (fun t => holds (tget t.groups 0) (fun g => (g.paths.map (·.mask)).contains 0xF0)) = true := by decide +kernel
/-- R26, Table 2.6: the example clause adds v1 to v2 into a latch, then 3 to it, in v5. -/
theorem test_clause_latch : goes (runs 0x26C00414 (fun s => setV 0 1 40 (setV 0 2 2 s)))
    (fun t => goes (exec (.add (.v 5) (.y 0) (.int 3) .w64) { t with focus := some (0, 0) }) (fun u => vReg u 0 0 5 = 45)) = true := by decide +kernel
/-- R394: TRAP 5 is a trap with cause SOFTWARE and INFO 5 at a vector that the handler READS. -/
theorem test_trap_word : goes (step (State.reset.withFetchWord 32 0xF1000005)) (fun t => holds (pathIn t 0 0) (fun p => holds (pathTrap p) (fun x => x.cause = 10 && x.info = 5))) = true := by decide +kernel
/-- The device of reset runs a word that is placed for it: NOP advances. -/
theorem test_placed_word : goes (step (State.reset.withFetchWord 32 0)) (fun t => holds (pathIn t 0 0) (fun p => p.widx = 2 || p.pc = 8)) = true := by decide +kernel
/-- R445: over 10,000 ticks the 256 cores of a die make 2,560,000 cycles at OP4, 2,048,000 at OP2 and 3,072,000 at OP7; the cycles of
20 ticks repeat. -/
theorem test_plan_cycles :
    [4, 2, 7].map (fun op => ((List.range 20).map (fun t =>
      dieCycles { State.reset with time := { State.reset.time with now := t }, mgmt := { State.reset.mgmt with op0 := op } } 0)).foldl (· + ·) 0 * 500 * 256)
      = [2560000, 2048000, 3072000] := by decide +kernel
/-- Table 7.2: what a request type is served as in the host window, and in a page with NC = 1. -/
theorem test_served_type : [servedType .s false .host, servedType .w false .host, servedType .u false .host, servedType .s true .hbm, servedType .s false .hbm]
    = [.o, .o, .u, .u, .s] := by decide +kernel

end Sys2Proof.Tests
end

section
/-! SUPPORT. Every function of the model that gives a state, and each result that carries one, keeps the canonical form of the memories (Inv):
one lemma for each, in the order in which they call each other, up to the step. -/

namespace Sys2Proof.Proofs

open Sys2Proof.Machine Sys2Proof.Safety Sys2Proof.Laws

/-! ### Results that carry a state -/

/-- An outcome that goes on to a state goes on to one with Inv. -/
inductive OutInv : Out → Prop
  | next {t : State} (h : Safety.Inv t) : OutInv (.next t)
  | fault {r : Fault} : OutInv (.fault r)
  | refused {r : Refusal} : OutInv (.refused r)
/-- The state that a word's result carries, if it carries one, has Inv. -/
inductive ResInv : WRes → Prop
  | ok {u : State} (h : Safety.Inv u) : ResInv (.ok u)
  | go {u : State} {n : Tbl W32} (h : Safety.Inv u) : ResInv (.go u n)
  | flow {u : State} {ps : List Path} (h : Safety.Inv u) : ResInv (.flow u ps)
  | trap {x : TrapInfo} : ResInv (.trap x)
  | stall {u : State} (h : Safety.Inv u) : ResInv (.stall u)
/-- A state that is there has Inv. -/
inductive OptInv : Option State → Prop
  | some {t : State} (h : Safety.Inv t) : OptInv (.some t)
  | none : OptInv .none
/-- What the next word of a path comes to leaves a state with Inv. -/
inductive NextWordInv : NextWord → Prop
  | run {i : Instr} {u : State} (h : Safety.Inv u) : NextWordInv (.run i u)
  | stop {u : State} (h : Safety.Inv u) : NextWordInv (.stop u)
/-- The state after a bank move, if it was carried out, has Inv. -/
inductive MoveInv : MoveRes → Prop
  | next {u : State} {pc : Nat} (h : Safety.Inv u) : MoveInv (.next u pc)
  | stall : MoveInv .stall
  | stop {x y : Nat} : MoveInv (.stop x y)
/-- The state after a slice of a stream, if it was taken, has Inv. -/
inductive SliceInv : SliceRes → Prop
  | done {u : State} (h : Safety.Inv u) : SliceInv (.done u)
  | wait : SliceInv .wait
  | stop {x : Nat} : SliceInv (.stop x)
/-- The state beside another value has Inv. -/
inductive FstInv {α : Type} : State × α → Prop
  | mk {s : State} {r : α} (h : Safety.Inv s) : FstInv (s, r)

section
variable {s t a b : State} {α : Type}

theorem FstInv.inv {x : State × α} (h : FstInv x) : Safety.Inv x.1 := by cases h; assumption
theorem inv_of_fst {x : State × α} {r : α} (e : x = (t, r)) (h : Safety.Inv x.1) : Safety.Inv t := by subst e; exact h
theorem inv_of_some {x : Option State} (e : x = some t) (h : OptInv x) : Safety.Inv t := by subst e; cases h; assumption
theorem inv_of_next {x : Out} (e : x = .next t) (h : OutInv x) : Safety.Inv t := by subst e; cases h; assumption
theorem inv_of_ok {x : WRes} (e : x = .ok t) (h : ResInv x) : Safety.Inv t := by subst e; cases h; assumption
theorem inv_of_run {x : NextWord} {i : Instr} (e : x = .run i t) (h : NextWordInv x) : Safety.Inv t := by subst e; cases h; assumption
theorem inv_of_stop {x : NextWord} (e : x = .stop t) (h : NextWordInv x) : Safety.Inv t := by subst e; cases h; assumption
theorem inv_of_move {x : MoveRes} {n : Nat} (e : x = .next t n) (h : MoveInv x) : Safety.Inv t := by subst e; cases h; assumption
theorem inv_of_done {x : SliceRes} (e : x = .done t) (h : SliceInv x) : Safety.Inv t := by subst e; cases h; assumption

/-! ### Changes of the state that Inv does not see, and how changes combine -/

/-- Memory and the cores are kept: every other field may change. -/
theorem inv_with {agenda focus bfocus free nextId time coh xl groups blocks clusters stackTbl bges fab esc mgmt fuses} (h : Safety.Inv s) :
    Safety.Inv { s with
      agenda := agenda, focus := focus, bfocus := bfocus, free := free, nextId := nextId, time := time, coh := coh, xl := xl, groups := groups,
      blocks := blocks, clusters := clusters, stackTbl := stackTbl, bges := bges, fab := fab, esc := esc, mgmt := mgmt, fuses := fuses } := h
/-- A device whose cores hold nothing has no scratchpad. -/
theorem inv_withNoCores {agenda focus bfocus free nextId time coh xl groups blocks clusters stackTbl bges fab esc mgmt fuses} (h : Safety.Inv s) :
    Safety.Inv { s with
      agenda := agenda, focus := focus, bfocus := bfocus, free := free, nextId := nextId, time := time, coh := coh, xl := xl, cores := [],
      groups := groups, blocks := blocks, clusters := clusters, stackTbl := stackTbl, bges := bges, fab := fab, esc := esc, mgmt := mgmt,
      fuses := fuses } :=
  ⟨h.1, fun _ hc => absurd hc List.not_mem_nil⟩
theorem inv_withPoison {poison} (h : Safety.Inv s) : Safety.Inv { s with mem := { s.mem with poison := poison } } := h
/-- The device right after reset has Inv. -/
theorem inv_reset : Safety.Inv State.reset := ⟨rfl, fun _ hc => absurd hc List.not_mem_nil⟩
theorem inv_onCore {c : Nat} {f : Core → Core} (h : Safety.Inv s) (k : ∀ x, (f x).spads = x.spads := by intro x; rfl) :
    Safety.Inv (modCore s c f) := inv_modCore_spads s c f h k
/-- Every core changed by a function that leaves its scratchpads. -/
theorem inv_onCores {f : Nat × Core → Nat × Core} (h : Safety.Inv s) (m : t.mem.cells = s.mem.cells) (c : t.cores = s.cores.map f)
    (k : ∀ x, (f x).2.spads = x.2.spads) : Safety.Inv t :=
  inv_of_cells { s with cores := s.cores.map f } t m c (inv_mapCores s f h k)
theorem inv_ite {c : Prop} [Decidable c] (ha : Safety.Inv a) (hb : Safety.Inv b) : Safety.Inv (if c then a else b) := by
  split
  · exact ha
  · exact hb
theorem inv_ite_fst {c : Prop} [Decidable c] {x y : State × α} (ha : Safety.Inv x.1) (hb : Safety.Inv y.1) :
    Safety.Inv (if c then x else y).1 := by
  split
  · exact ha
  · exact hb
theorem inv_fst_mk {r : α} (h : Safety.Inv s) : Safety.Inv (s, r).1 := h
/-- A fold over a pair whose first part is a state. -/
theorem inv_foldl_pair {β : Type} {f : State × β → α → State × β} {l : List α} {x : State × β} (h : Safety.Inv x.1)
    (k : ∀ (u : State × β) a, Safety.Inv u.1 → FstInv (f u a)) : Safety.Inv (l.foldl f x).1 :=
  inv_foldl_fst f l x h (fun u a hu => (k u a hu).inv)
/-- A word whose result has Inv in every context leaves Inv when it runs. -/
theorem outInv_runWord {pend : Ctx → Bool} {f : Ctx → WRes} (h : Safety.Inv s) (k : ∀ cx, ResInv (f cx)) : OutInv (runWord s pend f) := by
  cases e : runWord s pend f with
  | next t =>
    refine .next (inv_runWord s t pend f h e (fun cx _ u q => ?_))
    have r := k cx
    obtain q | q | ⟨_, q⟩ | ⟨_, q⟩ := q <;> rw [q] at r <;> cases r <;> assumption
  | fault r => exact .fault
  | refused r => exact .refused
end

section
variable {s : State}

/-! ### Clause headers, control flow and barriers -/

theorem inv_noteAct {line : Nat} {a : Machine.Action} (h : Safety.Inv s) : Safety.Inv (noteAct s line a) := inv_ite (inv_with h) h
theorem inv_noteWait {a : Machine.Action} (h : Safety.Inv s) : Safety.Inv (noteWait a s) := by
  unfold noteWait; dsimp only
  split
  · exact h
  · exact inv_noteAct (inv_with h)
theorem outInv_noted {a : Action} {o : Out} (h : OutInv o) : OutInv (noted a o) := by
  cases h with
  | next h =>
    refine .next ?_
    split
    · exact inv_noteWait h
    · exact inv_with h
  | fault => exact .fault
  | refused => exact .refused
theorem inv_landFail {cx : Ctx} {k : Nat} (h : Safety.Inv s) : Safety.Inv (landFail s cx k) := inv_modGroup _ _ _ h
theorem inv_stopPath {gk l : Nat} {t : TrapInfo} (h : Safety.Inv s) : Safety.Inv (stopPath s gk l t) := inv_modGroup _ _ _ h
theorem inv_acquireDo {core rank : Nat} (h : Safety.Inv s) : Safety.Inv (acquireDo s core rank) := inv_ite (inv_dropUtOf _ _ _ h) h
theorem inv_touchSlot {core n : Nat} (h : Safety.Inv s) : Safety.Inv (touchSlot s core n) := inv_modCluster _ _ _ h
theorem inv_touchPath {core : Nat} {p : Machine.Path} (h : Safety.Inv s) : Safety.Inv (touchPath s core p) := by
  unfold touchPath
  split
  · exact inv_ite h (inv_touchSlot h)
  · exact inv_touchSlot h
theorem inv_freezePath {gk l core : Nat} (h : Safety.Inv s) : Safety.Inv (freezePath s gk l core) := inv_perfAdd _ _ _ _ (inv_modGroup _ _ _ h)
theorem inv_askStop {b : Nat} {stop : Bool} (h : Safety.Inv s) : Safety.Inv (askStop s b stop) := inv_with h
theorem inv_fatalBlock {b : Nat} (h : Safety.Inv s) : Safety.Inv (fatalBlock s b) := inv_askStop (inv_modBlock _ _ _ h)
theorem inv_fetchFail {cx : Ctx} (h : Safety.Inv s) : Safety.Inv (fetchFail cx s) := by
  unfold fetchFail
  split
  · exact h
  · exact h
  · exact inv_ite (inv_freezePath h) h
  · exact inv_ite h (inv_ite (inv_fatalBlock h) (inv_stopPath h))
theorem outInv_execClauseHeader {count : BitVec 4} {eng : BitVec 2} {wsb wte : Bool} {wt : BitVec 6} {wbe : Bool} {wb : BitVec 4} {yld lnd lcp : Bool}
    (h : Safety.Inv s) : OutInv (execClauseHeader count eng wsb wte wt wbe wb yld lnd lcp s) := by
  unfold execClauseHeader
  extract_lets _
  split
  · exact .refused
  · extract_lets _ _ s1 _
    have hs1 : Safety.Inv s1 := inv_ite (inv_acquireDo h) h
    split
    · exact .next h
    · split
      · extract_lets _
        split
        · exact .next h
        · split
          · exact .next (inv_landFail h)
          · split
            · exact .next (inv_stopPath h)
            · split
              · exact .next h
              · exact .next (inv_touchPath (inv_modGroup _ _ _ hs1))
      · exact .next (inv_fetchFail h)
theorem outInv_execPathAged {g p : Nat} (h : Safety.Inv s) : OutInv (execPathAged g p s) := by
  unfold execPathAged
  split
  · exact .next h
  · split
    · exact .next h
    · split
      · exact .next h
      · exact .next (inv_perfAdd _ _ _ _ (inv_modGroup _ _ _ h))
theorem outInv_execNop (h : Safety.Inv s) : OutInv (execNop s) := outInv_runWord h (fun _ => .ok h)
theorem outInv_execPfx {msk : Fin 8} {mske : Bool} {rnd : BitVec 3} {mz : Bool} {c : BitVec 7} {ce : Bool} {thr : BitVec 4} (h : Safety.Inv s) :
    OutInv (execPfx msk mske rnd mz c ce thr s) := by
  unfold execPfx; dsimp only
  split
  · exact .refused
  · split
    · exact .next (inv_raiseTrap _ _ _ h)
    · split
      · exact .next (inv_raiseTrap _ _ _ h)
      · exact .next (inv_modGroup _ _ _ (inv_countIssue _ _ _ h))
theorem outInv_execUdf {u : BitVec 24} (h : Safety.Inv s) : OutInv (execUdf u s) := outInv_runWord h (fun _ => .trap)
theorem resInv_operandTrap {cx : Ctx} : ResInv (operandTrap cx) := .trap
/-- A word with a direct target keeps Inv when what it does with the target does. -/
theorem outInv_withTarget {t : Target} {pend : Ctx → Bool} {f : Ctx → W32 → WRes} (h : Safety.Inv s) (k : ∀ cx a, ResInv (f cx a)) :
    OutInv (withTarget s t pend f) := by
  refine outInv_runWord h (fun cx => ?_)
  split
  · exact k _ _
  · exact .trap
theorem outInv_execBra {t : Target} (h : Safety.Inv s) : OutInv (execBra t s) := outInv_withTarget h (fun _ _ => .go h)
theorem outInv_execBrc {p : Fin 8} {n : Bool} {t : Target} (h : Safety.Inv s) : OutInv (execBrc p n t s) := outInv_withTarget h (fun _ _ => .go h)
theorem resInv_indirectFlow {cx : Ctx} {lnd : Bool} {ts : List (Nat × W64)} {upd : Machine.Group → List Nat → Machine.Group} (h : Safety.Inv s) :
    ResInv (indirectFlow s cx lnd ts upd) := by
  unfold indirectFlow; dsimp only
  split
  · exact .trap
  · exact .flow (inv_modGroup _ _ _ h)
theorem outInv_execJmp {a : Reg} (h : Safety.Inv s) : OutInv (execJmp a s) := outInv_runWord h (fun _ => resInv_indirectFlow h)
theorem outInv_execCall {t : Target} (h : Safety.Inv s) : OutInv (execCall t s) := by
  unfold execCall; dsimp only
  refine outInv_withTarget h (fun _ _ => ?_)
  split
  · exact .trap
  · exact .go (inv_modGroup _ _ _ h)
theorem outInv_execCalli {a : Reg} (h : Safety.Inv s) : OutInv (execCalli a s) := by
  unfold execCalli
  refine outInv_runWord h (fun _ => ?_)
  split
  · exact .trap
  · exact resInv_indirectFlow h
theorem inv_setBar {b k : Nat} {x : BarSlot} (h : Safety.Inv s) : Safety.Inv (setBar s b k x) := inv_modBlock _ _ _ h
theorem inv_barEval {b k : Nat} (h : Safety.Inv s) : Safety.Inv (barEval s b k) := inv_ite h (inv_with (inv_setBar h))
theorem inv_barEvalAll {b : Nat} (h : Safety.Inv s) : Safety.Inv (barEvalAll s b) := inv_foldl _ _ _ h (fun _ _ hu => inv_barEval hu)
theorem inv_endFibres {gk : Nat} {g : Machine.Group} {ls : List Nat} (h : Safety.Inv s) : Safety.Inv (endFibres s gk g ls) :=
  inv_ite h (inv_barEvalAll (inv_modGroup _ _ _ h))
theorem outInv_execRet (h : Safety.Inv s) : OutInv (execRet s) := by
  unfold execRet; dsimp only
  refine outInv_runWord h (fun _ => ?_)
  split
  · exact .trap
  · exact resInv_indirectFlow (inv_endFibres h)
theorem outInv_execFork {p : Fin 8} {n : Bool} {t : Target} (h : Safety.Inv s) : OutInv (execFork p n t s) :=
  outInv_withTarget h (fun _ _ => .flow (inv_modGroup _ _ _ h))
theorem outInv_execFend {sel : Sel} (h : Safety.Inv s) : OutInv (execFend sel s) := outInv_runWord h (fun _ => .go (inv_endFibres h))
theorem inv_mbAsk {c : Nat} {which : MbEntry → Bool} (h : Safety.Inv s) : Safety.Inv (mbAsk s c which) := inv_onCore h
theorem inv_sbAsk {c : Nat} {which : SbEntry → Bool} (h : Safety.Inv s) : Safety.Inv (sbAsk s c which) := inv_onCore h
theorem inv_leaveBuffers {gk core : Nat} (h : Safety.Inv s) : Safety.Inv (leaveBuffers s gk core) := inv_with (inv_onCore (inv_mbAsk (inv_sbAsk h)))
theorem inv_forgetGroup {gk : Nat} (h : Safety.Inv s) : Safety.Inv (forgetGroup s gk) := inv_onCores h rfl rfl (fun _ => rfl)
theorem outInv_execGroupEnd {g : Nat} (h : Safety.Inv s) : OutInv (execGroupEnd g s) := by
  unfold execGroupEnd; dsimp only
  split
  · exact .next h
  · split
    · exact .next h
    · exact .next (inv_forgetGroup (inv_with (inv_leaveBuffers (inv_modBlock _ _ _ h))))
theorem outInv_execRejoin {t : Target} (h : Safety.Inv s) : OutInv (execRejoin t s) := by
  unfold execRejoin; dsimp only
  refine outInv_withTarget h (fun _ _ => ?_)
  split
  · exact .trap
  · exact .go (inv_modGroup _ _ _ h)
theorem outInv_execBrk {sel : Sel} {n : BitVec 4} (h : Safety.Inv s) : OutInv (execBrk sel n s) := by
  unfold execBrk; dsimp only
  refine outInv_runWord h (fun _ => ?_)
  split
  · exact .trap
  · exact .go (inv_modGroup _ _ _ h)
theorem outInv_execDemote {sel : Sel} (h : Safety.Inv s) : OutInv (execDemote sel s) := outInv_runWord h (fun _ => .go (inv_modGroup _ _ _ h))
theorem outInv_execLoop {ncl : BitVec 4} {count : LoopCount} {inc : Option (Fin 32)} (h : Safety.Inv s) : OutInv (execLoop ncl count inc s) := by
  unfold execLoop; dsimp only
  refine outInv_runWord h (fun _ => ?_)
  split
  · split <;> exact .flow h
  · split <;> exact .flow h
theorem outInv_execLend (h : Safety.Inv s) : OutInv (execLend s) := by
  unfold execLend; dsimp only
  refine outInv_runWord h (fun _ => ?_)
  split
  · exact .trap
  · split <;> exact .flow (inv_modGroup _ _ _ h)
theorem inv_takeStores {gk before : Nat} {mask : LaneMask} (h : Safety.Inv s) : Safety.Inv (takeStores s gk before mask) := inv_modGroup _ _ _ h
theorem inv_impRaise {block cause src : Nat} {info : W64} (h : Safety.Inv s) : Safety.Inv (impRaise s block cause src info) := inv_with h
theorem inv_fabricTrap {blocks : List Nat} {src chip code : Nat} (h : Safety.Inv s) : Safety.Inv (fabricTrap s blocks src chip code) :=
  inv_foldl _ _ _ h (fun _ _ hu => inv_impRaise hu)
theorem inv_fabSend {chip la : Nat} {req : FabReq} {o : FabOrigin} (h : Safety.Inv s) : Safety.Inv (fabSend s chip la req o) := inv_with h
theorem inv_sbDrain {c dl : Nat} (h : Safety.Inv s) : Safety.Inv (sbDrain s c dl).1 := by
  unfold sbDrain; dsimp only
  split
  · exact h
  · split
    · exact inv_ite_fst (inv_l1Update _ _ _ _ _ (inv_onCore (inv_homeWrite _ _ _ _ _ _ (inv_windowTake _ _ _ _ (inv_homeAdmit _ _ _ _ h)))))
        (inv_sbAsk (inv_homeAdmit _ _ _ _ h))
    · split
      · exact inv_fabricTrap (inv_onCore h)
      · exact inv_ite_fst (inv_onCore (inv_fabSend h)) (inv_sbAsk h)
theorem inv_sbDrainAll {c : Nat} {which : SbEntry → Bool} (h : Safety.Inv s) : Safety.Inv (sbDrainAll s c which).1 := by
  unfold sbDrainAll; dsimp only
  exact inv_foldl_fst _ _ _ h (fun _ _ hu => inv_sbDrain hu)
theorem inv_buffersTry {gk core rank : Nat} (h : Safety.Inv s) : Safety.Inv (buffersTry s gk core rank).1 :=
  inv_ite (inv_mbAsk (inv_ite_fst (inv_sbDrainAll h) h)) (inv_ite_fst (inv_sbDrainAll h) h)
theorem inv_releaseTry {gk before rank : Nat} {mask : LaneMask} (h : Safety.Inv s) : Safety.Inv (releaseTry s gk before rank mask).1 := by
  unfold releaseTry; dsimp only
  split
  · exact h
  · exact inv_ite_fst (inv_takeStores h) (inv_ite_fst h (inv_buffersTry h))
theorem inv_releaseAll {gk before rank : Nat} {mask : LaneMask} (h : Safety.Inv s) : Safety.Inv (releaseAll s gk before rank mask).1 := by
  unfold releaseAll
  split
  · exact h
  · exact inv_ite_fst h (inv_releaseTry h)
theorem inv_barArrive {gk : Nat} {g : Machine.Group} {ls : List Nat} {k : Nat} (h : Safety.Inv s) : Safety.Inv (barArrive s gk g ls k) :=
  inv_barEval (inv_modGroup _ _ _ h)
theorem outInv_execBar {k : Fin 16} (h : Safety.Inv s) : OutInv (execBar k s) := by
  unfold execBar; dsimp only
  refine outInv_runWord h (fun _ => ?_)
  split
  · exact .stall (inv_releaseAll h)
  · exact .go (inv_barArrive (inv_releaseAll h))
theorem outInv_execLaunch {d a : Fin 32} (h : Safety.Inv s) : OutInv (execLaunch d a s) := by
  unfold execLaunch; dsimp only
  refine outInv_runWord h (fun _ => ?_)
  split
  · exact .go (inv_modGroup _ _ _ h)
  · split
    · exact .go (inv_modGroup _ _ _ h)
    · split
      · exact .stall (inv_releaseAll h)
      · exact .go (inv_modGroup _ _ _ (inv_with (inv_releaseAll h)))
theorem inv_cwPut {inst : Nat} {v : W64} (h : Safety.Inv s) : Safety.Inv (cwPut s inst v) := by
  unfold cwPut; dsimp only
  split
  · exact inv_with h
  · exact h
theorem outInv_execCwset {op : CwOp} {d a : Fin 32} (h : Safety.Inv s) : OutInv (execCwset op d a s) :=
  outInv_runWord h (fun _ => .go (inv_modGroup _ _ _ (inv_cwPut h)))
theorem outInv_execMwait {d a : Fin 32} (h : Safety.Inv s) : OutInv (execMwait d a s) := by
  unfold execMwait; dsimp only
  refine outInv_runWord h (fun _ => ?_)
  split
  · exact .flow (inv_ite (inv_acquireDo (inv_modGroup _ _ _ h)) (inv_modGroup _ _ _ h))
  · exact .flow h
theorem inv_tidyMonitors (h : Safety.Inv s) : Safety.Inv (tidyMonitors s) := inv_with h
theorem outInv_execMwaitTimeout {g p : Nat} (h : Safety.Inv s) : OutInv (execMwaitTimeout g p s) := by
  unfold execMwaitTimeout; dsimp only
  split
  · exact .next h
  · split
    · exact .next h
    · split
      · split
        · exact .next h
        · exact .next (inv_boundary _ _ (inv_settleMonitor _ _ (inv_tidyMonitors (inv_modGroup _ _ _ h))))
      · exact .next h

/-! ### Page walks, translations and armed lines -/

theorem inv_setPend {die : Nat} {l : List Nat} (h : Safety.Inv s) : Safety.Inv (setPend s die l) := inv_with h
theorem inv_askPage {die vp : Nat} (h : Safety.Inv s) : Safety.Inv (askPage s die vp) := inv_ite h (inv_setPend h)
theorem inv_pteRead {la : Nat} (h : Safety.Inv s) : Safety.Inv (pteRead s la).1 := by
  unfold pteRead; dsimp only
  exact inv_ite_fst (inv_homeRead _ _ (inv_homeAdmit _ _ _ _ h)) (inv_homeAdmit _ _ _ _ h)
theorem inv_walkAt_entry {va : Nat} {table level : Nat} (h : Safety.Inv s) : Safety.Inv (walkAt.entry va s table level).1 := inv_pteRead h
theorem inv_walkAt_step0 {va : Nat} {table level : Nat} (h : Safety.Inv s) : Safety.Inv (walkAt.step0 va s table level).1 := by
  unfold walkAt.step0; dsimp only
  split
  · exact inv_walkAt_entry h
  · exact inv_ite_fst (inv_walkAt_entry h) (inv_ite_fst (inv_walkAt_entry h) (inv_ite_fst (inv_walkAt_entry h) (inv_walkAt_entry h)))
theorem inv_setWalk {die : Nat} {l : List WalkEntry} (h : Safety.Inv s) : Safety.Inv (setWalk s die l) := inv_with h
theorem inv_walkAt {die va n table : Nat} (h : Safety.Inv s) : Safety.Inv (walkAt die va n s table).1 := by
  induction n generalizing s table with
  | zero =>
    unfold walkAt; dsimp only
    exact inv_walkAt_step0 h
  | succ n ih =>
    unfold walkAt; dsimp only
    split
    · exact inv_walkAt_entry h
    · exact inv_ite_fst (inv_walkAt_entry h)
        (inv_ite_fst (inv_walkAt_entry h)
        (inv_ite_fst (inv_walkAt_entry h) (inv_ite_fst (inv_walkAt_entry h) (ih (inv_setWalk (inv_walkAt_entry h))))))
theorem inv_walkFrom {die va : Nat} (h : Safety.Inv s) : Safety.Inv (walkFrom s die va).1 := by
  unfold walkFrom; dsimp only
  split <;> exact inv_walkAt h
theorem inv_walk {die va : Nat} (h : Safety.Inv s) : Safety.Inv (walk s die va).1 := by
  unfold walk; dsimp only
  split
  · exact h
  · split
    · exact inv_walkFrom h
    · exact inv_with (inv_walkFrom h)
theorem inv_setDieTlb {die : Nat} {l : List TlbEntry} (h : Safety.Inv s) : Safety.Inv (setDieTlb s die l) := inv_with h
theorem inv_fillDie {die : Nat} {e : TlbEntry} (h : Safety.Inv s) : Safety.Inv (fillDie s die e) := inv_setDieTlb h
theorem inv_fillCore {c : Nat} {e : TlbEntry} (h : Safety.Inv s) : Safety.Inv (fillCore s c e) := inv_onCore h
theorem inv_xlateNow {core : Option Nat} {die va : Nat} (h : Safety.Inv s) : Safety.Inv (xlateNow s core die va).1 := by
  unfold xlateNow; dsimp only
  split
  · exact h
  · split
    · exact h
    · split
      · exact h
      · split
        · exact h
        · split
          · exact inv_ite (inv_askPage h) h
          · split
            · exact inv_walk h
            · exact inv_walk h
            · split
              · exact inv_fillCore (inv_fillDie (inv_walk h))
              · exact inv_fillDie (inv_walk h)
theorem resInv_memTrap {cx : Ctx} {sub : Nat} {va : W64} : ResInv (memTrap cx sub va) := .trap
theorem inv_loseLine {line : Nat} (h : Safety.Inv s) : Safety.Inv (loseLine s line) :=
  inv_foldl _ _ _ h (fun _ _ hu => inv_settleMonitor _ _ (inv_modGroup _ _ _ hu))
theorem inv_armLine {gk line : Nat} (h : Safety.Inv s) : Safety.Inv (armLine s gk line) :=
  inv_foldl _ _ _ (inv_with (inv_tidyMonitors (inv_modGroup _ _ _ h))) (fun _ _ hu => inv_loseLine hu)
theorem outInv_execMarm {d a : Fin 32} (h : Safety.Inv s) : OutInv (execMarm d a s) := by
  unfold execMarm; dsimp only
  refine outInv_runWord h (fun _ => ?_)
  split
  · exact .stall (inv_xlateNow h)
  · exact resInv_memTrap
  · split
    · exact resInv_memTrap
    · split
      · exact .go (inv_modGroup _ _ _ (inv_armLine (inv_xlateNow h)))
      · exact .go (inv_settleMonitor _ _ (inv_modGroup _ _ _ (inv_tidyMonitors (inv_modGroup _ _ _ (inv_xlateNow h)))))
theorem outInv_execYield {n : BitVec 9} (h : Safety.Inv s) : OutInv (execYield n s) := outInv_runWord h (fun _ => .flow h)
theorem outInv_execYieldExpiry {g p : Nat} (h : Safety.Inv s) : OutInv (execYieldExpiry g p s) := by
  unfold execYieldExpiry
  split
  · exact .next h
  · split
    · exact .next h
    · split
      · exact .next (inv_boundary _ _ (inv_modGroup _ _ _ h))
      · exact .next h

/-! ### Words that write registers and predicates -/

theorem inv_writeUni {cx : Ctx} {r : Nat} {v : W64} {fl : Flags} (h : Safety.Inv s) : Safety.Inv (writeUni cx s r v fl) :=
  inv_ite h (inv_modGroup _ _ _ h)
theorem inv_writeLanes {cx : Ctx} {d : Dst} {uniMark : Bool} {res : Nat → LaneRes} (h : Safety.Inv s) : Safety.Inv (writeLanes cx s d uniMark res) :=
  inv_modGroup _ _ _ h
theorem outInv_vecWord {d : Dst} {kinds : List (SrcKind × Src)} {lane : Ctx → Nat → W64 → List W64 → LaneRes} {uni : Ctx → List W64 → FRes}
    (h : Safety.Inv s) : OutInv (vecWord s d kinds lane uni) := by
  unfold vecWord; dsimp only
  refine outInv_runWord h (fun _ => ?_)
  split
  · exact resInv_operandTrap
  · split
    · exact .ok (inv_writeUni h)
    · exact .ok (inv_writeLanes h)
theorem outInv_execMovw {q : Fin 4} {d : Reg} {k : Bool} {imm : BitVec 16} (h : Safety.Inv s) : OutInv (execMovw q d k imm s) := by
  unfold execMovw; exact outInv_vecWord h
theorem outInv_laneWord {d : Dst} {kinds : List (SrcKind × Src)} {f : Ctx → List W64 → FRes} (h : Safety.Inv s) : OutInv (laneWord s d kinds f) :=
  outInv_vecWord h
theorem outInv_int64i {d : Dst} {a : Src} {f : W64 → W64} (h : Safety.Inv s) : OutInv (int64i s d a f) := outInv_laneWord h
theorem outInv_execMov {d : Dst} {a : Src} (h : Safety.Inv s) : OutInv (execMov d a s) := outInv_int64i h
theorem outInv_withThird {d : Dst} {kind : SrcKind} {regs : List Nat} {f : Src → Out} (h : Safety.Inv s) (k : ∀ c, OutInv (f c)) :
    OutInv (withThird s d kind regs f) := by
  unfold withThird
  split
  · exact .refused
  · split
    · split
      · exact k _
      · exact outInv_runWord h (fun _ => .trap)
    · exact outInv_runWord h (fun _ => .trap)
theorem outInv_packedWord {d : Dst} {kinds : List (SrcKind × Src)} {w : Nat} {f : List Nat → FRes} (h : Safety.Inv s) :
    OutInv (packedWord s d kinds w f) :=
  outInv_vecWord h
theorem outInv_intW3 {d : Dst} {a b : Src} {w : Width} {f : Nat → Nat → Nat → Nat → Nat} (h : Safety.Inv s) : OutInv (intW3 s d a b w f) :=
  outInv_withThird h (fun _ => outInv_packedWord h)
theorem outInv_execSel {d : Dst} {a b : Src} {w : Width} (h : Safety.Inv s) : OutInv (execSel d a b w s) := outInv_intW3 h
theorem outInv_intW {d : Dst} {a b : Src} {w : Width} {f : Nat → Nat → Nat → Nat} (h : Safety.Inv s) : OutInv (intW s d a b w f) :=
  outInv_packedWord h
theorem outInv_execAdd {d : Dst} {a b : Src} {w : Width} (h : Safety.Inv s) : OutInv (execAdd d a b w s) := outInv_intW h
theorem outInv_execSub {d : Dst} {a b : Src} {w : Width} (h : Safety.Inv s) : OutInv (execSub d a b w s) := outInv_intW h
theorem outInv_execAddi {d : Dst} {a : Src} {imm : BitVec 9} (h : Safety.Inv s) : OutInv (execAddi d a imm s) := outInv_int64i h
theorem outInv_execMul {d : Dst} {a b : Src} {w : Width} (h : Safety.Inv s) : OutInv (execMul d a b w s) := outInv_intW h
theorem outInv_intS {d : Dst} {a b : Src} {t : SWidth} {f : Bool → Nat → Nat → Nat → Nat} (h : Safety.Inv s) : OutInv (intS s d a b t f) :=
  outInv_packedWord h
theorem outInv_execMulhi {d : Dst} {a b : Src} {t : SWidth} (h : Safety.Inv s) : OutInv (execMulhi d a b t s) := outInv_intS h
theorem outInv_execMad {d : Dst} {a b : Src} {w : Width} (h : Safety.Inv s) : OutInv (execMad d a b w s) := outInv_intW3 h
theorem outInv_execDiv {d : Dst} {a b : Src} {t : SWidth} (h : Safety.Inv s) : OutInv (execDiv d a b t s) := outInv_intS h
theorem outInv_execRem {d : Dst} {a b : Src} {t : SWidth} (h : Safety.Inv s) : OutInv (execRem d a b t s) := outInv_intS h
theorem outInv_execMin {d : Dst} {a b : Src} {t : SWidth} (h : Safety.Inv s) : OutInv (execMin d a b t s) := outInv_intS h
theorem outInv_execMax {d : Dst} {a b : Src} {t : SWidth} (h : Safety.Inv s) : OutInv (execMax d a b t s) := outInv_intS h
theorem outInv_intW1 {d : Dst} {a : Src} {w : Width} {f : Nat → Nat → Nat} (h : Safety.Inv s) : OutInv (intW1 s d a w f) := outInv_packedWord h
theorem outInv_execAbs {d : Dst} {a : Src} {w : Width} (h : Safety.Inv s) : OutInv (execAbs d a w s) := outInv_intW1 h
theorem outInv_execNeg {d : Dst} {a : Src} {w : Width} (h : Safety.Inv s) : OutInv (execNeg d a w s) := outInv_intW1 h
theorem outInv_execAdds {d : Dst} {a b : Src} {t : SWidth} (h : Safety.Inv s) : OutInv (execAdds d a b t s) := outInv_intS h
theorem outInv_execSubs {d : Dst} {a b : Src} {t : SWidth} (h : Safety.Inv s) : OutInv (execSubs d a b t s) := outInv_intS h
theorem outInv_int64 {d : Dst} {a b : Src} {f : W64 → W64 → W64} (h : Safety.Inv s) : OutInv (int64 s d a b f) := outInv_laneWord h
theorem outInv_execAnd {d : Dst} {a b : Src} (h : Safety.Inv s) : OutInv (execAnd d a b s) := outInv_int64 h
theorem outInv_execOr {d : Dst} {a b : Src} (h : Safety.Inv s) : OutInv (execOr d a b s) := outInv_int64 h
theorem outInv_execXor {d : Dst} {a b : Src} (h : Safety.Inv s) : OutInv (execXor d a b s) := outInv_int64 h
theorem outInv_execAndn {d : Dst} {a b : Src} (h : Safety.Inv s) : OutInv (execAndn d a b s) := outInv_int64 h
theorem outInv_execAndi {d : Dst} {a : Src} {imm : BitVec 9} (h : Safety.Inv s) : OutInv (execAndi d a imm s) := outInv_int64i h
theorem outInv_execOri {d : Dst} {a : Src} {imm : BitVec 9} (h : Safety.Inv s) : OutInv (execOri d a imm s) := outInv_int64i h
theorem outInv_execXori {d : Dst} {a : Src} {imm : BitVec 9} (h : Safety.Inv s) : OutInv (execXori d a imm s) := outInv_int64i h
theorem outInv_execShl {d : Dst} {a b : Src} {w : Width} (h : Safety.Inv s) : OutInv (execShl d a b w s) := outInv_intW h
theorem outInv_execShr {d : Dst} {a b : Src} {w : Width} (h : Safety.Inv s) : OutInv (execShr d a b w s) := outInv_intW h
theorem outInv_execSar {d : Dst} {a b : Src} {w : Width} (h : Safety.Inv s) : OutInv (execSar d a b w s) := outInv_intW h
theorem outInv_execRot {d : Dst} {a b : Src} {w : Width} (h : Safety.Inv s) : OutInv (execRot d a b w s) := outInv_intW h
theorem outInv_execShli {d : Dst} {a : Src} {w : Width} {n : BitVec 6} (h : Safety.Inv s) : OutInv (execShli d a w n s) := outInv_intW1 h
theorem outInv_execShri {d : Dst} {a : Src} {w : Width} {n : BitVec 6} (h : Safety.Inv s) : OutInv (execShri d a w n s) := outInv_intW1 h
theorem outInv_execSari {d : Dst} {a : Src} {w : Width} {n : BitVec 6} (h : Safety.Inv s) : OutInv (execSari d a w n s) := outInv_intW1 h
theorem outInv_execClz {d : Dst} {a : Src} {w : Width} (h : Safety.Inv s) : OutInv (execClz d a w s) := outInv_intW1 h
theorem outInv_execPopc {d : Dst} {a : Src} {w : Width} (h : Safety.Inv s) : OutInv (execPopc d a w s) := outInv_intW1 h
theorem outInv_execBrev {d : Dst} {a : Src} {w : Width} (h : Safety.Inv s) : OutInv (execBrev d a w s) := outInv_intW1 h
theorem outInv_execBfx {d : Dst} {a b : Src} {sgn : Bool} (h : Safety.Inv s) : OutInv (execBfx d a b sgn s) := outInv_int64 h
theorem outInv_execBfi {d : Dst} {a b : Src} (h : Safety.Inv s) : OutInv (execBfi d a b s) := outInv_withThird h (fun _ => outInv_laneWord h)
theorem outInv_execBdep {d : Dst} {a b : Src} (h : Safety.Inv s) : OutInv (execBdep d a b s) := outInv_int64 h
theorem outInv_execBext {d : Dst} {a b : Src} (h : Safety.Inv s) : OutInv (execBext d a b s) := outInv_int64 h
theorem outInv_execPerm {d : Dst} {a : Src} {b : Reg} (h : Safety.Inv s) : OutInv (execPerm d a b s) := outInv_laneWord h
theorem outInv_execGfmm {d : Dst} {a b : Src} {tr : Bool} (h : Safety.Inv s) : OutInv (execGfmm d a b tr s) := outInv_int64 h
theorem outInv_predWord {k : Fin 8} {kinds : List (SrcKind × Src)} {f : Ctx → Nat → List W64 → Byte × Flags} (h : Safety.Inv s) :
    OutInv (predWord s k kinds f) := by
  unfold predWord; dsimp only
  refine outInv_runWord h (fun _ => ?_)
  split
  · exact resInv_operandTrap
  · exact .ok (inv_modGroup _ _ _ h)
theorem outInv_execIcmp {cc : ICond} {k : Fin 8} {a b : Src} {w : Width} (h : Safety.Inv s) : OutInv (execIcmp cc k a b w s) := outInv_predWord h
theorem outInv_execIcmpi {cc : ICond} {k : Fin 8} {a : Src} {imm : BitVec 9} (h : Safety.Inv s) : OutInv (execIcmpi cc k a imm s) := outInv_predWord h
theorem outInv_execPlog {tt : BitVec 4} {d a b : Fin 8} (h : Safety.Inv s) : OutInv (execPlog tt d a b s) := outInv_predWord h
theorem outInv_execPmovToVreg {d : Fin 32} {k : Fin 8} (h : Safety.Inv s) : OutInv (execPmovToVreg d k s) := outInv_vecWord h
theorem outInv_execPmovToPred {k : Fin 8} {a : Src} (h : Safety.Inv s) : OutInv (execPmovToPred k a s) := outInv_predWord h
theorem outInv_execPmovPallToVreg {d : Fin 32} (h : Safety.Inv s) : OutInv (execPmovPallToVreg d s) := outInv_vecWord h
theorem outInv_execPmovVregToPall {a : Src} (h : Safety.Inv s) : OutInv (execPmovVregToPall a s) := by
  unfold execPmovVregToPall; dsimp only
  refine outInv_runWord h (fun _ => ?_)
  split
  · exact resInv_operandTrap
  · exact .ok (inv_modGroup _ _ _ h)
theorem outInv_execLea {d : Dst} {a b : Src} {sc : Fin 4} (h : Safety.Inv s) : OutInv (execLea d a b sc s) := outInv_int64 h
theorem outInv_execSext {d : Dst} {a : Src} {fr : Fin 3} (h : Safety.Inv s) : OutInv (execSext d a fr s) := outInv_int64i h
theorem outInv_execZext {d : Dst} {a : Src} {fr : Fin 3} (h : Safety.Inv s) : OutInv (execZext d a fr s) := outInv_int64i h
theorem outInv_crossWord {d : Dst} {kinds : List (SrcKind × Src)} {alwaysUni : Bool} {lane : Ctx → Nat → FRes} {uni : Ctx → Option FRes}
    (h : Safety.Inv s) : OutInv (crossWord s d kinds alwaysUni lane uni) := by
  unfold crossWord
  refine outInv_runWord h (fun _ => ?_)
  split
  · exact resInv_operandTrap
  · split
    · split
      · exact .ok h
      · split
        · exact .ok (inv_modGroup _ _ _ h)
        · exact .ok (inv_writeUni h)
    · exact .ok (inv_writeLanes h)
theorem outInv_execShfl {d : Dst} {a b : Src} {m : ShMode} (h : Safety.Inv s) : OutInv (execShfl d a b m s) := outInv_crossWord h
theorem outInv_execBcast {d : Dst} {a b : Src} (h : Safety.Inv s) : OutInv (execBcast d a b s) := outInv_crossWord h
theorem outInv_execBcastFirst {d : Dst} {a : Src} (h : Safety.Inv s) : OutInv (execBcastFirst d a s) := outInv_crossWord h
theorem outInv_execVote {d : Dst} {k : Fin 8} {m : VoteMode} (h : Safety.Inv s) : OutInv (execVote d k m s) := outInv_crossWord h
theorem outInv_execIred {d : Dst} {a : Src} {op : LaneOp} (h : Safety.Inv s) : OutInv (execIred d a op s) := outInv_crossWord h
theorem outInv_execIscan {d : Dst} {a : Src} {op : LaneOp} {excl : Bool} (h : Safety.Inv s) : OutInv (execIscan d a op excl s) := outInv_crossWord h
theorem outInv_fp2 {d : Dst} {a b : Src} {f : Fmt} {op : Rm → Nat → Nat → FRes} (h : Safety.Inv s) : OutInv (fp2 s d a b f op) := outInv_laneWord h
theorem outInv_execFadd {d : Dst} {a b : Src} {f : FFmt} (h : Safety.Inv s) : OutInv (execFadd d a b f s) := outInv_fp2 h
theorem outInv_execFsub {d : Dst} {a b : Src} {f : FFmt} (h : Safety.Inv s) : OutInv (execFsub d a b f s) := outInv_fp2 h
theorem outInv_execFmul {d : Dst} {a b : Src} {f : FFmt} (h : Safety.Inv s) : OutInv (execFmul d a b f s) := outInv_fp2 h
theorem outInv_fp3 {d : Dst} {a b : Src} {f fc : Fmt} {op : Rm → W64 → W64 → W64 → FRes} (h : Safety.Inv s) : OutInv (fp3 s d a b f fc op) :=
  outInv_withThird h (fun _ => outInv_laneWord h)
theorem outInv_execFfma {d : Dst} {a b : Src} {f : FFmt} (h : Safety.Inv s) : OutInv (execFfma d a b f s) := by
  unfold execFfma; exact outInv_fp3 h
theorem outInv_execFmin {d : Dst} {a b : Src} {f : FFmt} (h : Safety.Inv s) : OutInv (execFmin d a b f s) := outInv_fp2 h
theorem outInv_execFmax {d : Dst} {a b : Src} {f : FFmt} (h : Safety.Inv s) : OutInv (execFmax d a b f s) := outInv_fp2 h
theorem outInv_fp1 {d : Dst} {a : Src} {f : Fmt} {op : Rm → Nat → FRes} (h : Safety.Inv s) : OutInv (fp1 s d a f op) := outInv_laneWord h
theorem outInv_execFabs {d : Dst} {a : Src} {f : FFmt} (h : Safety.Inv s) : OutInv (execFabs d a f s) := outInv_fp1 h
theorem outInv_execFneg {d : Dst} {a : Src} {f : FFmt} (h : Safety.Inv s) : OutInv (execFneg d a f s) := outInv_fp1 h
theorem outInv_execFdiv {d : Dst} {a b : Src} {f : FFmt} (h : Safety.Inv s) : OutInv (execFdiv d a b f s) := outInv_fp2 h
theorem outInv_execFsqrt {d : Dst} {a : Src} {f : FFmt} (h : Safety.Inv s) : OutInv (execFsqrt d a f s) := outInv_fp1 h
theorem outInv_execFrcp {d : Dst} {a : Src} {f : FFmt} (h : Safety.Inv s) : OutInv (execFrcp d a f s) := outInv_fp1 h
theorem outInv_execFrsq {d : Dst} {a : Src} {f : FFmt} (h : Safety.Inv s) : OutInv (execFrsq d a f s) := outInv_fp1 h
theorem outInv_execFcmp {cc : FCond} {k : Fin 8} {a b : Src} {f : FFmt} (h : Safety.Inv s) : OutInv (execFcmp cc k a b f s) := outInv_predWord h
theorem outInv_execFclass {d : Dst} {a : Src} {f : FFmt} (h : Safety.Inv s) : OutInv (execFclass d a f s) := outInv_fp1 h
theorem outInv_execFcpys {d : Dst} {a b : Src} {f : FFmt} (h : Safety.Inv s) : OutInv (execFcpys d a b f s) := outInv_fp2 h
theorem outInv_execFdot2 {d : Dst} {a b : Src} {f : DFmt} (h : Safety.Inv s) : OutInv (execFdot2 d a b f s) := by
  unfold execFdot2; exact outInv_fp3 h
theorem outInv_execFexp2 {d : Dst} {a : Src} {f : SpFmt} (h : Safety.Inv s) : OutInv (execFexp2 d a f s) := outInv_fp1 h
theorem outInv_execFlog2 {d : Dst} {a : Src} {f : SpFmt} (h : Safety.Inv s) : OutInv (execFlog2 d a f s) := outInv_fp1 h
theorem outInv_execFsin {d : Dst} {a : Src} {f : SpFmt} (h : Safety.Inv s) : OutInv (execFsin d a f s) := outInv_fp1 h
theorem outInv_execFcos {d : Dst} {a : Src} {f : SpFmt} (h : Safety.Inv s) : OutInv (execFcos d a f s) := outInv_fp1 h
theorem outInv_execFtanh {d : Dst} {a : Src} {f : SpFmt} (h : Safety.Inv s) : OutInv (execFtanh d a f s) := outInv_fp1 h
theorem outInv_execFerf {d : Dst} {a : Src} {f : SpFmt} (h : Safety.Inv s) : OutInv (execFerf d a f s) := outInv_fp1 h
theorem outInv_execFrnd {d : Dst} {a : Src} {f : FFmt} (h : Safety.Inv s) : OutInv (execFrnd d a f s) := outInv_fp1 h
theorem outInv_execFfrac {d : Dst} {a : Src} {f : FFmt} (h : Safety.Inv s) : OutInv (execFfrac d a f s) := outInv_fp1 h
theorem outInv_execFred {d : Dst} {a : Src} {op : FOp} {f : RFmt} (h : Safety.Inv s) : OutInv (execFred d a op f s) := outInv_crossWord h
theorem outInv_execFscan {d : Dst} {a : Src} {op : FOp} {excl : Bool} {f : RFmt} (h : Safety.Inv s) : OutInv (execFscan d a op excl f s) :=
  outInv_crossWord h
theorem outInv_drawWord {d : Dst} {kinds : List (SrcKind × Src)} {f : Rm → Rm → List W64 → FRes} (h : Safety.Inv s) :
    OutInv (drawWord s d kinds f) := by
  unfold drawWord
  split
  · exact .refused
  · split
    · split
      · exact outInv_runWord h (fun _ => resInv_operandTrap)
      · split
        · exact outInv_runWord h (fun _ => resInv_operandTrap)
        · exact outInv_laneWord h
    · exact outInv_laneWord h
theorem outInv_execFcvt {d : Dst} {a : Src} {dst src : CFmt} {sat : Bool} (h : Safety.Inv s) : OutInv (execFcvt d a dst src sat s) := by
  unfold execFcvt; exact outInv_drawWord h
theorem outInv_execIcvt {d : Dst} {a : Src} {dst : FFmt} {ty : IntTy} (h : Safety.Inv s) : OutInv (execIcvt d a dst ty s) := outInv_laneWord h
theorem outInv_execFicvt {d : Dst} {a : Src} {src : CFmt} {ty : IntTy} (h : Safety.Inv s) : OutInv (execFicvt d a src ty s) := outInv_laneWord h
theorem outInv_execPack {d : Dst} {a b : Src} {w : PkW} (h : Safety.Inv s) : OutInv (execPack d a b w s) := outInv_int64 h
theorem outInv_execUnpk {d : Dst} {a : Src} {w : PkW} {hi : Bool} (h : Safety.Inv s) : OutInv (execUnpk d a w hi s) := outInv_int64i h
theorem outInv_execQmx4 {d : Fin 32} {a : Src} (h : Safety.Inv s) : OutInv (execQmx4 d a s) := by
  unfold execQmx4
  refine outInv_runWord h (fun _ => ?_)
  split
  · exact resInv_operandTrap
  · exact .ok (inv_writeLanes h)
theorem outInv_execDqmx4 {d : Dst} {a b : Src} {q : Fin 4} (h : Safety.Inv s) : OutInv (execDqmx4 d a b q s) := outInv_laneWord h
theorem outInv_execQf8 {d : Dst} {a b : Src} {k : F8} (h : Safety.Inv s) : OutInv (execQf8 d a b k s) := outInv_drawWord h
theorem outInv_execDqf8 {d : Dst} {a b : Src} {k : F8} (h : Safety.Inv s) : OutInv (execDqf8 d a b k s) := outInv_laneWord h
theorem outInv_qiWord {d : Dst} {a b : Src} {w : Nat} (h : Safety.Inv s) : OutInv (qiWord s d a b w) := outInv_laneWord h
theorem outInv_execQi8 {d : Dst} {a b : Src} (h : Safety.Inv s) : OutInv (execQi8 d a b s) := outInv_qiWord h
theorem outInv_execQi4 {d : Dst} {a b : Src} (h : Safety.Inv s) : OutInv (execQi4 d a b s) := outInv_qiWord h

/-! ### Accesses to memory, and what a core serves of its own words -/

theorem inv_ownBuffers {c dl : Nat} {but : Option Nat} (h : Safety.Inv s) : Safety.Inv (ownBuffers s c dl but).1 := by
  unfold ownBuffers; dsimp only
  exact inv_ite_fst (inv_ite_fst h (inv_sbDrain h)) (inv_ite_fst (inv_mbAsk (inv_ite_fst h (inv_sbDrain h))) (inv_ite_fst h (inv_sbDrain h)))
theorem inv_accRemote {o : FabOrigin} {da n : Nat} {nc : Bool} (h : Safety.Inv s) : Safety.Inv (accRemote s o da n nc).1 := by
  unfold accRemote; dsimp only
  split
  · exact h
  · split
    · exact h
    · split
      · exact h
      · exact inv_ite_fst (inv_fabSend h) h
theorem inv_admitType {t : MType} {line : Nat} {m : LineMask} {write : Bool} (h : Safety.Inv s) : Safety.Inv (admitType t s line m write).1 :=
  inv_ite_fst h (inv_homeAdmit _ _ _ _ h)
theorem inv_accReadAt {core : Option Nat} {die : Nat} {e : TlbEntry} {va n : Nat} (h : Safety.Inv s) :
    Safety.Inv (accReadAt s core die e va n).1 := by
  unfold accReadAt
  extract_lets _ _ _ b _ b1 _ h1 s1 s2 got _ _ _
  have hb : Safety.Inv b.1 := by
    unfold b
    split
    · exact inv_ownBuffers h
    · exact h
  have hb1 : Safety.Inv b1.1 := by
    unfold b1
    split
    · exact inv_ownBuffers h
    · exact h
  have hh1 : Safety.Inv h1.1 := by
    unfold h1
    split
    · exact inv_ite_fst hb1 (inv_admitType hb1)
    · exact inv_admitType h
  have hs1 : Safety.Inv s1 := inv_homeRead _ _ hh1
  have hs2 : Safety.Inv s2 := inv_ite hs1 (inv_windowTake _ _ _ _ hs1)
  have hgot : Safety.Inv got.1 := by
    unfold got
    split
    · exact inv_lineLoad _ _ _ _ _ hh1
    · exact hs2
  split
  · exact h
  · split
    · exact inv_ite_fst (inv_accRemote hb) hb
    · split
      · exact hb1
      · split
        · exact hb1
        · exact inv_ite_fst hh1 hgot
theorem inv_accRead {core : Option Nat} {die va n : Nat} (h : Safety.Inv s) : Safety.Inv (accRead s core die va n).1 := by
  unfold accRead; dsimp only
  split
  · exact inv_xlateNow h
  · exact inv_xlateNow h
  · exact inv_accReadAt (inv_xlateNow h)
theorem inv_readsTaken {core : Option Nat} {die : Nat} {ps : List (Nat × Nat)} (h : Safety.Inv s) : Safety.Inv (readsTaken s core die ps) :=
  inv_ite h (inv_with h)
theorem inv_spanRead {core : Option Nat} {die va n : Nat} (h : Safety.Inv s) : Safety.Inv (spanRead s core die va n).1 := by
  unfold spanRead; dsimp only
  split
  · refine inv_foldl_fst _ _ _ h (fun u1 u hu => ?_)
    split
    · split <;> exact inv_accRead hu
    · exact hu
  · refine inv_readsTaken (inv_foldl_fst _ _ _ h (fun u1 u hu => ?_))
    split
    · split <;> exact inv_accRead hu
    · exact hu
theorem inv_replayWord {gk : Nat} {g : Machine.Group} {w : MemWord} (h : Safety.Inv s) : Safety.Inv (replayWord s gk g w).1 := by
  unfold replayWord; dsimp only
  split
  · exact inv_ite_fst h (inv_with (inv_spanRead (inv_with h)))
  · exact h
theorem inv_modWord {gk id : Nat} {f : MemWord → MemWord} (h : Safety.Inv s) : Safety.Inv (modWord s gk id f) := inv_modGroup _ _ _ h
theorem inv_setLane {gk id l : Nat} {f : LaneAcc → LaneAcc} (h : Safety.Inv s) : Safety.Inv (setLane s gk id l f) := inv_modWord h
theorem inv_setSt {gk id l : Nat} {st : LaneSt} (h : Safety.Inv s) : Safety.Inv (setSt s gk id l st) := inv_setLane h
theorem inv_hostThrough {writer : Option Nat} {line : Nat} {m : LineMask} {d : Line} (h : Safety.Inv s) :
    Safety.Inv (hostThrough s writer line m d) :=
  inv_noteWrite _ _ (inv_setRecord _ _ _ (inv_memMerge _ _ _ _ _ (inv_dropTracked _ _ _ (inv_recallOw _ _ _ h))))
theorem inv_lineStoreHome {c line : Nat} {m : LineMask} {d : Line} (h : Safety.Inv s) : Safety.Inv (lineStoreHome s c line m d) :=
  inv_l1Update _ _ _ _ _ (inv_ite (inv_homeWrite _ _ _ _ _ _ h) (inv_hostThrough h))
theorem inv_lineStoreO {c line : Nat} {m : LineMask} {d : Line} (h : Safety.Inv s) : Safety.Inv (lineStoreO s c line m d) :=
  inv_ite (inv_homeWrite _ _ _ _ _ _ h)
    (inv_noteWrite _ _
    (inv_setRecord _ _ _
    (inv_onCore (inv_llcTouch _ _ _ (inv_l1Fill _ _ _ _ _ (inv_windowTake _ _ _ _ (inv_dropTracked _ _ _ (inv_recallOw _ _ _ h))))))))
theorem inv_homeStore {nc : Bool} {line : Nat} {m : LineMask} {d : Line} {p : BitVec 4} (h : Safety.Inv s) :
    Safety.Inv (homeStore nc s line m d p) :=
  inv_ite (inv_ite (inv_hostThrough h) (inv_withPoison (inv_hostThrough h))) (inv_homeWrite _ _ _ _ _ _ (inv_windowTake _ _ _ _ h))
theorem inv_accWrite {core : Option Nat} {die va n v : Nat} {p : BitVec 4} {regOk : Bool} (h : Safety.Inv s) :
    Safety.Inv (accWrite s core die va n v p regOk).1 := by
  unfold accWrite
  extract_lets r
  have hr : Safety.Inv r.1 := inv_xlateNow h
  split
  · exact hr
  · exact hr
  · extract_lets _ _ _ _ b _ b1 h1
    have hb : Safety.Inv b.1 := by
      unfold b
      split
      · exact inv_ownBuffers hr
      · exact hr
    have hb1 : Safety.Inv b1.1 := by
      unfold b1
      split
      · exact inv_ownBuffers hr
      · exact hr
    have hh1 : Safety.Inv h1.1 := inv_admitType hb1
    split
    · exact hr
    · split
      · split
        · exact hb
        · split
          · exact hb
          · exact inv_ite_fst (inv_fabSend hb) hb
      · split
        · exact hb1
        · split
          · exact hb1
          · split
            · exact hh1
            · split
              · exact inv_ite (inv_lineStoreHome hh1) (inv_lineStoreO hh1)
              · exact inv_homeStore hh1
theorem inv_spanWrite {core : Option Nat} {die va n v : Nat} (h : Safety.Inv s) : Safety.Inv (spanWrite s core die va n v).1 := by
  unfold spanWrite
  refine inv_foldl_fst _ _ _ h (fun _ _ hu => ?_)
  split
  · exact inv_accWrite hu
  · exact hu
theorem inv_txMark {n : Nat} {o : FabOrigin} (h : Safety.Inv s) : Safety.Inv (txMark s n o) := inv_with h
theorem inv_landTry {gk : Nat} {w : MemWord} {l j : Nat} {v : W64} (h : Safety.Inv s) : Safety.Inv (landTry s gk w l j v).1 := by
  unfold landTry; dsimp only
  split
  · exact h
  · exact inv_ite_fst h (inv_ite_fst (inv_setGroup _ _ _ h) (inv_ite_fst (inv_setGroup _ _ _ h) (inv_txMark (inv_spanWrite h))))
theorem inv_landLaneTry {gk : Nat} {w : MemWord} {l : Nat} {v v2 : W64} (h : Safety.Inv s) : Safety.Inv (landLaneTry s gk w l v v2).1 := by
  unfold landLaneTry; dsimp only
  split
  · exact inv_landTry (inv_landTry h)
  · exact inv_landTry h
theorem inv_landDone {gk : Nat} {w : MemWord} {l : Nat} {v v2 : W64} (h : Safety.Inv s) : Safety.Inv (landDone s gk w l v v2) := by
  unfold landDone; dsimp only
  split
  · exact inv_landLaneTry (inv_setSt h)
  · exact inv_setSt (inv_landLaneTry (inv_setSt h))
  · exact inv_setSt (inv_landLaneTry (inv_setSt h))
theorem inv_failLane {gk : Nat} {w : MemWord} {l sub fab : Nat} (h : Safety.Inv s) : Safety.Inv (failLane s gk w l sub fab) := by
  unfold failLane
  split
  · exact h
  · exact inv_ite (inv_setSt h) (inv_ite (inv_landDone h) (inv_setSt h))
theorem inv_spadLane {gk id l : Nat} (h : Safety.Inv s) : Safety.Inv (spadLane s gk id l) := by
  unfold spadLane; dsimp only
  split
  · exact h
  · split
    · exact h
    · split
      · split
        · exact inv_failLane h
        · split
          · exact inv_failLane h
          · exact inv_landDone h
      · split
        · exact inv_failLane h
        · split
          · exact inv_failLane h
          · exact inv_spadWrite _ _ _ _ _ _ _ (inv_setSt h)
      · split
        · exact inv_failLane h
        · exact inv_modGroup _ _ _ (inv_landDone h)
      · exact h
theorem inv_spadTry {gk id : Nat} (h : Safety.Inv s) : Safety.Inv (spadTry s gk id) := by
  unfold spadTry; dsimp only
  split
  · exact h
  · exact inv_ite h (inv_foldl _ _ _ h (fun _ _ hu => inv_spadLane hu))
theorem inv_giveLane {gk : Nat} {w : MemWord} {l : Nat} {a : LaneAcc} {e : TlbEntry} (h : Safety.Inv s) : Safety.Inv (giveLane s gk w l a e) := by
  unfold giveLane; dsimp only
  split
  · exact inv_failLane h
  · exact inv_ite (inv_ite (inv_setLane h) (inv_setLane h)) (inv_setSt h)
  · exact inv_setSt h
theorem inv_lookLane {gk id l : Nat} (h : Safety.Inv s) : Safety.Inv (lookLane s gk id l) := by
  unfold lookLane; dsimp only
  split
  · exact h
  · split
    · split
      · exact h
      · split
        · exact h
        · split
          · exact inv_giveLane (inv_fillCore h)
          · exact inv_ite (inv_askPage h) h
    · exact h
theorem inv_startLane {gk id l : Nat} (h : Safety.Inv s) : Safety.Inv (startLane s gk id l) := by
  unfold startLane; dsimp only
  split
  · exact h
  · split
    · exact h
    · exact inv_ite h
        (inv_ite (inv_failLane h)
        (inv_ite (inv_setSt h) (inv_ite (inv_failLane h) (inv_ite (inv_failLane (inv_setLane h)) (inv_lookLane (inv_lookLane h))))))
theorem inv_startWord {gk : Nat} {w : MemWord} (h : Safety.Inv s) : Safety.Inv (startWord s gk w) :=
  inv_spadTry (inv_foldl _ _ _ (inv_ite (inv_modWord (inv_modGroup _ _ _ h)) (inv_modGroup _ _ _ h)) (fun _ _ hu => inv_startLane hu))
theorem inv_tidy {gk : Nat} (h : Safety.Inv s) : Safety.Inv (tidy s gk) := inv_modGroup _ _ _ h
theorem inv_fenceTry {gk : Nat} {w : MemWord} (h : Safety.Inv s) : Safety.Inv (fenceTry s gk w) := by
  unfold fenceTry
  extract_lets _
  split
  · extract_lets _ r
    have hr : Safety.Inv r.1 := by
      unfold r
      split
      · exact h
      · exact inv_ite_fst (inv_buffersTry h) (inv_releaseTry h)
    split
    · exact h
    · split
      · exact h
      · extract_lets s1
        have hs1 : Safety.Inv s1 := inv_ite hr (inv_acquireDo hr)
        exact inv_ite hr (inv_tidy (inv_modWord hs1))
  · exact h
theorem inv_settleFences {gk : Nat} (h : Safety.Inv s) : Safety.Inv (settleFences s gk) := by
  unfold settleFences
  split
  · exact h
  · exact inv_foldl _ _ _ h (fun _ _ hu => inv_fenceTry hu)
theorem inv_settleAll (h : Safety.Inv s) : Safety.Inv (settleAll s) := inv_foldl _ _ _ h (fun _ _ hu => inv_settleFences hu)
theorem inv_gredList {gk : Nat} (h : Safety.Inv s) : Safety.Inv (gredList s gk) := inv_modGroup _ _ _ h
theorem inv_replayGo {n gk : Nat} (h : Safety.Inv s) : Safety.Inv (replayGo n s gk) := by
  induction n generalizing s with
  | zero =>
    unfold replayGo
    exact h
  | succ n ih =>
    unfold replayGo; dsimp only
    split
    · exact h
    · split
      · exact h
      · split
        · exact h
        · split
          · rename_i e
            exact inv_of_fst e (inv_replayWord h)
          · rename_i e
            exact ih
              (inv_settleAll
              (inv_tidy
              (inv_gredList
              (inv_ite (inv_modGroup _ _ _ (inv_modGroup _ _ _ (inv_of_fst e (inv_replayWord h))))
              (inv_startWord (inv_modGroup _ _ _ (inv_of_fst e (inv_replayWord h))))))))
theorem inv_replayNext {gk : Nat} (h : Safety.Inv s) : Safety.Inv (replayNext s gk) := by
  unfold replayNext
  split
  · exact h
  · exact inv_replayGo h
theorem inv_deferGroup {gk : Nat} (h : Safety.Inv s) : Safety.Inv (deferGroup s gk) := inv_modGroup _ _ _ h
theorem inv_settleSpad {gk : Nat} (h : Safety.Inv s) : Safety.Inv (settleSpad s gk) := by
  unfold settleSpad
  split
  · exact h
  · exact inv_foldl _ _ _ h (fun _ _ hu => inv_spadTry hu)
theorem inv_lookAgain {gk : Nat} (h : Safety.Inv s) : Safety.Inv (lookAgain s gk) := by
  unfold lookAgain; dsimp only
  split
  · exact h
  · exact inv_foldl _ _ _ h (fun _ _ hu => inv_foldl _ _ _ hu (fun _ _ hu1 => inv_lookLane (inv_lookLane hu1)))
theorem inv_settleGroup {gk : Nat} (h : Safety.Inv s) : Safety.Inv (settleGroup s gk) :=
  inv_replayNext (inv_settleAll (inv_tidy (inv_gredList (inv_deferGroup (inv_settleSpad (inv_deferGroup (inv_lookAgain h)))))))
theorem inv_serveInv {gk id l : Nat} (h : Safety.Inv s) : Safety.Inv (serveInv s gk id l) := by
  unfold serveInv
  split
  · exact h
  · split
    · split
      · exact inv_setSt (inv_dropUtOf _ _ _ h)
      · exact h
    · exact h
theorem inv_redAtHome {blocks : List Nat} {line off : Nat} {ty : RedTy} {op : RedOp} {v : Nat} {thru : Bool} (h : Safety.Inv s) :
    Safety.Inv (redAtHome s blocks line off ty op v thru) :=
  inv_ite (inv_foldl _ _ _ (inv_recallOw _ _ _ h) (fun _ _ hu => inv_impRaise hu))
    (inv_ite (inv_hostThrough (inv_recallOw _ _ _ h)) (inv_homeWrite _ _ _ _ _ _ (inv_windowTake _ _ _ _ (inv_recallOw _ _ _ h))))
theorem inv_serveRed {gk id l : Nat} (h : Safety.Inv s) : Safety.Inv (serveRed s gk id l) := by
  unfold serveRed; dsimp only
  split
  · exact h
  · split
    · split
      · split
        · exact h
        · split
          · split
            · split
              · exact inv_fabricTrap (inv_setSt h)
              · exact inv_ite h (inv_setSt (inv_fabSend h))
            · exact inv_ite (inv_setSt (inv_redAtHome (inv_admitType h))) (inv_admitType h)
          · split
            · exact inv_ite h (inv_ite (inv_mbAsk h) (inv_setSt (inv_onCore h)))
            · split
              · split
                · exact inv_mbAsk h
                · exact h
              · exact inv_setSt (inv_onCore h)
      · exact h
    · exact h
theorem inv_setPerr (h : Safety.Inv s) : Safety.Inv (setPerr s) := inv_with h
theorem inv_ptbaseTake {v : W64} (h : Safety.Inv s) : Safety.Inv (ptbaseTake s v) := inv_ite (inv_setPerr h) (inv_with h)
theorem inv_xlinvTake {v : W64} (h : Safety.Inv s) : Safety.Inv (xlinvTake s v).1 := inv_ite_fst (inv_setPerr h) (inv_ite_fst h (inv_with h))
theorem inv_xlstatTake {v : W64} (h : Safety.Inv s) : Safety.Inv (xlstatTake s v) := inv_ite (inv_with h) h
theorem inv_anchorTake {k : Nat} {v : W64} (h : Safety.Inv s) : Safety.Inv (anchorTake s k v) := inv_with h
theorem inv_regStoreCore {off : Nat} {v : W64} (h : Safety.Inv s) : Safety.Inv (regStoreCore s off v).1 :=
  inv_ite_fst (inv_ptbaseTake h) (inv_ite_fst (inv_xlinvTake h) (inv_ite_fst (inv_xlstatTake h) (inv_ite_fst (inv_anchorTake h) h)))
theorem inv_modRegion {c k : Nat} {f : Region → Region} (h : Safety.Inv s) : Safety.Inv (modRegion s c k f) := by
  unfold modRegion
  split
  · exact h
  · exact inv_onCore h
theorem inv_privSpill {rc k line : Nat} (h : Safety.Inv s) : Safety.Inv (privSpill s rc k line).1 := by
  unfold privSpill
  split
  · exact inv_fst_mk h
  · extract_lets _ a
    have ha : Safety.Inv a.1 := inv_homeAdmit _ _ _ _ h
    split
    · refine inv_fst_mk (inv_modRegion ?_)
      exact inv_homeWrite _ _ _ _ _ _ ha
    · exact ha
theorem inv_privEvict {rc k line : Nat} (h : Safety.Inv s) : Safety.Inv (privEvict s rc k line).1 := inv_ite_fst (inv_modRegion h) (inv_privSpill h)
theorem inv_privStore {c k line : Nat} {m : LineMask} {d : Line} (h : Safety.Inv s) : Safety.Inv (privStore s c k line m d).1 := by
  unfold privStore; dsimp only
  split
  · exact inv_ite_fst (inv_privEvict (inv_modRegion h)) (inv_homeAdmit _ _ _ _ h)
  · split
    · exact inv_modRegion h
    · exact inv_ite (inv_modRegion (inv_privEvict h)) (inv_privEvict h)
theorem inv_sbRead {c dl : Nat} {but : Option Nat} (h : Safety.Inv s) : Safety.Inv (sbRead s c dl but).1 :=
  inv_ite_fst h (inv_ite_fst (inv_mbAsk h) h)
theorem inv_sbRoom {c dl : Nat} (h : Safety.Inv s) : Safety.Inv (sbRoom s c dl).1 := by
  unfold sbRoom; dsimp only
  split
  · exact h
  · split
    · exact h
    · exact inv_sbDrain h
theorem inv_sbMerge {c dl : Nat} {m : LineMask} {d : Line} {g b : Nat} (h : Safety.Inv s) : Safety.Inv (sbMerge s c dl m d g b) := inv_onCore h
theorem inv_doneLanes {gk id : Nat} {ls : List (Nat × LaneAcc)} (h : Safety.Inv s) : Safety.Inv (doneLanes s gk id ls) :=
  inv_foldl _ _ _ h (fun _ _ hu => inv_setSt hu)
theorem inv_serveStore {gk id l : Nat} {onlyLocal : Bool} (h : Safety.Inv s) : Safety.Inv (serveStore s gk id l onlyLocal) := by
  unfold serveStore
  split
  · exact h
  · extract_lets _ _
    split
    · exact h
    · extract_lets _
      split
      · extract_lets +onlyGivenNames t dl ls
        split
        · exact h
        · split
          · split
            · exact h
            · exact inv_ite (inv_setSt (inv_regStoreCore h)) (inv_regStoreCore h)
          · exact h
          · extract_lets _ _ _ _ s0 _ q r s2 _ _ b _ s1 _ a
            have hs0 : Safety.Inv s0 := by
              refine inv_foldl _ _ _ h (fun _ _ hu => ?_)
              split
              · exact inv_ite (inv_setSt (inv_privStore hu)) (inv_privStore hu)
              · exact hu
            have hq : Safety.Inv q.1 := inv_sbRead hs0
            have hr : Safety.Inv r.1 := inv_ite_fst (inv_sbRoom hq) hq
            have hs2 : Safety.Inv s2 := inv_sbMerge hr
            have hb : Safety.Inv b.1 := inv_ownBuffers hs0
            have hs1 : Safety.Inv s1 := inv_fabSend hb
            have ha : Safety.Inv a.1 := inv_admitType hb
            split
            · exact hs0
            · split
              · exact inv_ite hr (inv_doneLanes (inv_ite hs2 (inv_l1Update _ _ _ _ _ hs2)))
              · split
                · split
                  · exact hs0
                  · split
                    · exact hb
                    · split
                      · exact inv_fabricTrap (inv_doneLanes hb)
                      · exact inv_ite hb (inv_foldl _ _ _ hs1 (fun _ _ hu => inv_setSt hu))
                · exact inv_ite hs0 (inv_ite hb (inv_ite ha (inv_doneLanes (inv_ite (inv_lineStoreO ha) (inv_lineStoreHome ha)))))
      · exact h
theorem inv_afterStart {gk id : Nat} (h : Safety.Inv s) : Safety.Inv (afterStart s gk id) := by
  unfold afterStart
  split
  · exact h
  · refine inv_foldl _ _ _ h (fun _ _ hu => ?_)
    split
    · exact inv_serveInv hu
    · exact inv_serveRed hu
    · exact inv_serveStore hu
    · exact hu
theorem resInv_issueMem {cx : Ctx} {op : MemOp} {d : Dst} {blk : Nat} {ents : List (Nat × W64 × W64 × W64)} {ans : Tbl (Nat × Nat)}
    (h : Safety.Inv s) : ResInv (issueMem cx s op d blk ents ans) := by
  unfold issueMem; dsimp only
  split
  · exact .stall (inv_settleGroup h)
  · split
    · exact .ok (inv_settleGroup h)
    · split
      · exact .ok (inv_settleGroup h)
      · split
        · exact .stall (inv_settleGroup h)
        · exact .ok (inv_settleGroup (inv_afterStart (inv_startWord (inv_freshId _ (inv_settleGroup h)))))
theorem inv_zeroMasked {cx : Ctx} {r : Nat} (h : Safety.Inv s) : Safety.Inv (zeroMasked cx s r) := inv_ite (inv_modGroup _ _ _ h) h

/-! ### Scaling, rounding and packed words -/

theorem outInv_execRscl {d : Dst} {a : Src} {b : Fin 32} (h : Safety.Inv s) : OutInv (execRscl d a b s) := by
  unfold execRscl
  refine outInv_runWord h (fun _ => ?_)
  extract_lets _ _ s1 _ _ _ _
  have hs1 : Safety.Inv s1 := inv_settleGroup h
  split
  · exact resInv_operandTrap
  · split
    · exact resInv_issueMem (inv_zeroMasked h)
    · exact resInv_issueMem h
    · extract_lets s2
      have hs2 : Safety.Inv s2 := inv_writeLanes hs1
      split
      · exact .stall hs1
      · split
        · exact .ok hs2
        · exact resInv_issueMem hs2
theorem outInv_execSrnd {d : Dst} {a b : Src} (h : Safety.Inv s) : OutInv (execSrnd d a b s) := outInv_int64 h
theorem outInv_packedFp {d : Dst} {kinds : List (SrcKind × Src)} {f : Fmt} {op : Rm → List Nat → FRes} (h : Safety.Inv s) :
    OutInv (packedFp s d kinds f op) :=
  outInv_vecWord h
theorem outInv_execPadd {d : Dst} {a b : Src} {f : PFmt} (h : Safety.Inv s) : OutInv (execPadd d a b f s) := outInv_packedFp h
theorem outInv_execPsub {d : Dst} {a b : Src} {f : PFmt} (h : Safety.Inv s) : OutInv (execPsub d a b f s) := outInv_packedFp h
theorem outInv_execPmul {d : Dst} {a b : Src} {f : PFmt} (h : Safety.Inv s) : OutInv (execPmul d a b f s) := outInv_packedFp h
theorem outInv_execPfma {d : Dst} {a b : Src} {f : PFmt} (h : Safety.Inv s) : OutInv (execPfma d a b f s) :=
  outInv_withThird h (fun _ => outInv_packedFp h)
theorem outInv_execPmin {d : Dst} {a b : Src} {f : PFmt} (h : Safety.Inv s) : OutInv (execPmin d a b f s) := outInv_packedFp h
theorem outInv_execPmax {d : Dst} {a b : Src} {f : PFmt} (h : Safety.Inv s) : OutInv (execPmax d a b f s) := outInv_packedFp h
theorem outInv_execPdot {d : Dst} {a b : Src} {f : PFmt} (h : Safety.Inv s) : OutInv (execPdot d a b f s) := by
  unfold execPdot; exact outInv_fp3 h

/-! ### The matrix unit, tiles and small matrices -/

theorem inv_matPost {cx : Ctx} {kd : MatKind} {d a : Nat} {bv : MatBv} {br : List Nat} {c : MatC} {pois : Bool} {zs : List (Nat × Nat)}
    (h : Safety.Inv s) : Safety.Inv (matPost s cx kd d a bv br c pois zs) :=
  inv_modGroup _ _ _ (inv_modCluster _ _ _ (inv_freshId _ h))
theorem inv_tileListed {cx : Ctx} {d sub : Nat} {v : W64} (h : Safety.Inv s) : Safety.Inv (tileListed s cx d sub v) :=
  inv_ite h (inv_modGroup _ _ _ (inv_freshId _ h))
theorem outInv_matWord {d a : Fin 32} {b : MatB} {kd : MatKind} (h : Safety.Inv s) : OutInv (matWord s d a b kd) := by
  unfold matWord
  extract_lets _
  refine outInv_runWord h (fun _ => ?_)
  extract_lets _ clear
  have hclear : ∀ u, Safety.Inv u → Safety.Inv (clear u) := fun _ hu => inv_modGroup _ _ _ hu
  split
  · exact resInv_operandTrap
  · split
    · exact resInv_operandTrap
    · split
      · exact .ok (hclear _ h)
      · split
        · exact .stall h
        · split
          · exact .ok (inv_matPost h)
          · split
            · exact .stall h
            · split
              · exact .ok (inv_tileListed (hclear _ h))
              · exact .ok (inv_matPost h)
theorem outInv_execMqa {d a : Fin 32} {b : MatB} {f : MqaF} (h : Safety.Inv s) : OutInv (execMqa d a b f s) := outInv_matWord h
theorem outInv_execMqax {d a : Fin 32} {b : MatB} {f : MqaxF} (h : Safety.Inv s) : OutInv (execMqax d a b f s) := outInv_matWord h
theorem outInv_execMqai {d a : Fin 32} {b : MatB} {f : MqaiF} (h : Safety.Inv s) : OutInv (execMqai d a b f s) := outInv_matWord h
theorem inv_tileReplay {gk id : Nat} (h : Safety.Inv s) : Safety.Inv (tileReplay s gk id) := by
  unfold tileReplay; dsimp only
  split
  · exact h
  · split
    · split
      · exact h
      · split
        · exact inv_foldl _ _ _ h (fun _ _ hu => inv_setSt hu)
        · split
          · exact h
          · split
            · exact inv_foldl _ _ _ h (fun _ _ hu => inv_setSt hu)
            · exact inv_foldl _ _ _ (inv_matPost h) (fun _ _ hu => inv_setSt hu)
    · exact h
theorem inv_tileReplays {c : Nat} (h : Safety.Inv s) : Safety.Inv (tileReplays s c) :=
  inv_foldl _ _ _ h (fun _ _ hu => inv_foldl _ _ _ hu (fun _ _ hu1 => inv_settleGroup (inv_tileReplay hu1)))
theorem inv_modReq {c id : Nat} {f : MatReq → MatReq} (h : Safety.Inv s) : Safety.Inv (modReq s c id f) := inv_modCluster _ _ _ h
theorem outInv_execMatrixGrant {c : Nat} (h : Safety.Inv s) : OutInv (execMatrixGrant c s) := by
  unfold execMatrixGrant; dsimp only
  split
  · exact .next (inv_tileReplays h)
  · exact .next (inv_modReq (inv_tileReplays h))
theorem outInv_execMatrixRequestAged {c id : Nat} (h : Safety.Inv s) : OutInv (execMatrixRequestAged c id s) := by
  unfold execMatrixRequestAged
  split
  · exact .next h
  · split
    · exact .next h
    · exact .next (inv_modReq h)
theorem outInv_execMatrixPassEnd {c id : Nat} {regErr : Bool} (h : Safety.Inv s) : OutInv (execMatrixPassEnd c id regErr s) := by
  unfold execMatrixPassEnd; dsimp only
  split
  · exact .next h
  · split
    · exact .next h
    · refine .next ?_
      split
      · split
        · exact inv_impRaise (inv_modGroup _ _ _ (inv_modCluster _ _ _ h))
        · exact inv_modGroup _ _ _ (inv_modCluster _ _ _ h)
      · exact inv_modGroup _ _ _ (inv_modCluster _ _ _ h)
/-- A parameter block is read before the word that names it goes on. -/
theorem resInv_withBlock {cx : Ctx} {va : W64} {align n : Nat} {f : State → Nat → WRes} (h : Safety.Inv s)
    (k : ∀ u v, Safety.Inv u → ResInv (f u v)) : ResInv (withBlock cx s va align n f) := by
  unfold withBlock; dsimp only
  split
  · exact .trap
  · split
    · exact k _ _ (inv_spanRead h)
    · exact .trap
    · exact .trap
    · exact .trap
    · exact .stall (inv_spanRead h)
theorem resInv_withParam {cx : Ctx} {va : W64} {align n : Nat} {f : State → Nat → WRes} (h : Safety.Inv s)
    (k : ∀ u v, Safety.Inv u → ResInv (f u v)) : ResInv (withParam cx s va align n f) := by
  unfold withParam
  split
  · exact .stall h
  · exact resInv_withBlock h k
theorem inv_uniPend {gk d id : Nat} (h : Safety.Inv s) : Safety.Inv (uniPend s gk d id) := inv_modGroup _ _ _ h
theorem inv_uniResult {gk d id : Nat} {v : W64} (h : Safety.Inv s) : Safety.Inv (uniResult s gk d id v) := inv_modGroup _ _ _ h
theorem inv_fetchEnd {core id : Nat} (h : Safety.Inv s) : Safety.Inv (fetchEnd s core id) := by
  unfold fetchEnd; dsimp only
  split
  · exact h
  · split
    · exact h
    · split
      · split
        · exact inv_spanWrite h
        · exact inv_spanWrite (inv_spanWrite h)
      · refine inv_uniResult (inv_onCore ?_)
        split
        · exact inv_spanWrite h
        · exact inv_spanWrite (inv_spanWrite h)
theorem inv_modFetch {core id : Nat} {g : Fetch → Fetch} (h : Safety.Inv s) : Safety.Inv (modFetch s core id g) := inv_onCore h
theorem inv_fetchStop {core id st fc fa : Nat} (h : Safety.Inv s) : Safety.Inv (fetchStop s core id st fc fa) := inv_fetchEnd (inv_modFetch h)
theorem inv_fetchDone {core id : Nat} (h : Safety.Inv s) : Safety.Inv (fetchDone s core id) := by
  unfold fetchDone
  split
  · exact h
  · exact inv_ite (inv_fetchStop h) h
theorem outInv_mtfWord {d a : Fin 32} {resume : Bool} (h : Safety.Inv s) : OutInv (mtfWord s d a resume) := by
  unfold mtfWord; dsimp only
  refine outInv_runWord h (fun _ => ?_)
  split
  · exact .stall h
  · exact resInv_withParam h
      (fun _ _ hu => .ok
      (inv_ite (inv_fetchEnd (inv_uniPend (inv_onCore (inv_freshId _ hu)))) (inv_fetchDone (inv_uniPend (inv_onCore (inv_freshId _ hu))))))
theorem outInv_execMtf {d a : Fin 32} (h : Safety.Inv s) : OutInv (execMtf d a s) := outInv_mtfWord h
theorem outInv_execMtfr {d a : Fin 32} (h : Safety.Inv s) : OutInv (execMtfr d a s) := outInv_mtfWord h
theorem inv_spadSetPoison {c b sec : Nat} (h : Safety.Inv s) : Safety.Inv (spadSetPoison s c b sec) := inv_modSpad _ _ _ _ h (fun _ hx => hx)
theorem inv_fetchLand {core : Nat} {f : Fetch} {n : Nat} {d : Line} {p : BitVec 4} (h : Safety.Inv s) : Safety.Inv (fetchLand s core f n d p) :=
  inv_ite (inv_fetchDone (inv_modFetch (inv_foldl _ _ _ (inv_spadWrite _ _ _ _ _ _ _ h) (fun _ _ hu => inv_spadSetPoison hu))))
    (inv_fetchStop (inv_impRaise (inv_modFetch (inv_foldl _ _ _ (inv_spadWrite _ _ _ _ _ _ _ h) (fun _ _ hu => inv_spadSetPoison hu)))))
theorem inv_fetchAnswer {core id n : Nat} {ans : FabAns} (h : Safety.Inv s) : Safety.Inv (fetchAnswer s core id n ans) := by
  unfold fetchAnswer
  split
  · exact h
  · exact inv_ite h (inv_ite (inv_fetchLand h) (inv_fetchStop h))
theorem inv_fetchClear {core : Nat} {f : Fetch} (h : Safety.Inv s) : Safety.Inv (fetchClear s core f).1 := by
  unfold fetchClear; dsimp only
  split
  · exact h
  · refine inv_foldl_fst _ _ _ h (fun _ _ hu => ?_)
    split
    · exact inv_xlateNow hu
    · exact inv_xlateNow hu
    · exact inv_ownBuffers (inv_xlateNow hu)
theorem inv_noteHold {line : Nat} {ev : Instr} (h : Safety.Inv s) : Safety.Inv (noteHold s line ev) := inv_noteAct (inv_with h)
theorem inv_fetchLine {core : Nat} {f : Fetch} {n : Nat} (h : Safety.Inv s) : Safety.Inv (fetchLine s core f n) := by
  unfold fetchLine
  extract_lets _ c r
  have hc : Safety.Inv c.1 := inv_fetchClear h
  have hr : Safety.Inv r.1 := inv_xlateNow hc
  split
  · exact hc
  · split
    · exact hr
    · exact inv_fetchStop hr
    · extract_lets _ _ _ h1 s1
      have hh1 : Safety.Inv h1.1 := inv_admitType hr
      have hs1 : Safety.Inv s1 := inv_ite (inv_homeRead _ _ hh1) (inv_windowTake _ _ _ _ (inv_homeRead _ _ hh1))
      split
      · exact inv_fetchStop hr
      · split
        · split
          · exact inv_fetchStop hr
          · exact inv_ite (inv_fabSend hr) hr
        · split
          · exact inv_fetchStop hr
          · exact inv_ite (inv_noteHold hh1) (inv_fetchLand hs1)
theorem outInv_execMtfLineArrival {core id line : Nat} {ans : FabAns} (h : Safety.Inv s) : OutInv (execMtfLineArrival core id line ans s) := by
  unfold execMtfLineArrival; dsimp only
  split
  · exact .next h
  · split
    · exact .next (inv_fetchEnd h)
    · split
      · exact .next h
      · split
        · exact .next (inv_fetchAnswer (inv_with h))
        · exact .next (inv_fetchLine h)
theorem outInv_execMsync (h : Safety.Inv s) : OutInv (execMsync s) := outInv_runWord h (fun _ => .ok h)
theorem outInv_smWord {d : Fin 32} {shReg : Ctx → Option Nat} {uses : Shape → List Nat} {nd : Shape → Nat} {ok : Shape → Bool}
    {lane : Ctx → Shape → Nat → SmRes} (h : Safety.Inv s) : OutInv (smWord s d shReg uses nd ok lane) := by
  unfold smWord; dsimp only
  refine outInv_runWord h (fun _ => ?_)
  split
  · exact resInv_operandTrap
  · exact .ok (inv_modGroup _ _ _ h)
theorem outInv_execSmm {d a b : Fin 32} {f : SmF} (h : Safety.Inv s) : OutInv (execSmm d a b f s) := outInv_smWord h
theorem outInv_execSmadd {d a b : Fin 32} {f : SmF} (h : Safety.Inv s) : OutInv (execSmadd d a b f s) := outInv_smWord h
theorem outInv_execStrn {d a b : Fin 32} {f : SmF} (h : Safety.Inv s) : OutInv (execStrn d a b f s) := outInv_smWord h
theorem outInv_execSchol {d a b : Fin 32} {f : SmF} (h : Safety.Inv s) : OutInv (execSchol d a b f s) := outInv_smWord h
theorem outInv_execSluf {d a b : Fin 32} {f : SmF} (h : Safety.Inv s) : OutInv (execSluf d a b f s) := outInv_smWord h
theorem outInv_execSsol {d a b : Fin 32} {f : SmF} (h : Safety.Inv s) : OutInv (execSsol d a b f s) := outInv_smWord h
theorem outInv_execStrs {d a b : Fin 32} {f : SmF} (h : Safety.Inv s) : OutInv (execStrs d a b f s) := outInv_smWord h
theorem outInv_execSdet {d a b : Fin 32} {f : SmF} (h : Safety.Inv s) : OutInv (execSdet d a b f s) := outInv_smWord h

/-! ### Loads and stores, and the answers to them -/

theorem outInv_loadWord {d a : Reg} {op : MemOp} {n : Nat} {off : BitVec 6} (h : Safety.Inv s) : OutInv (loadWord s d a op n off) := by
  unfold loadWord; dsimp only
  refine outInv_runWord h (fun _ => ?_)
  split
  · exact resInv_issueMem h
  · exact resInv_issueMem (inv_zeroMasked h)
theorem outInv_execLd {d a : Reg} {t : MType} {z : MSize} {off : BitVec 6} (h : Safety.Inv s) : OutInv (execLd d a t z off s) := outInv_loadWord h
theorem outInv_storeWord {d : Src} {a : Reg} {op : MemOp} {n : Nat} {off : BitVec 6} (h : Safety.Inv s) : OutInv (storeWord s d a op n off) := by
  unfold storeWord
  refine outInv_runWord h (fun _ => ?_)
  split
  · exact resInv_operandTrap
  · exact resInv_issueMem h
theorem outInv_execSt {d : Src} {a : Reg} {t : MType} {z : MSize} {off : BitVec 6} (h : Safety.Inv s) : OutInv (execSt d a t z off s) :=
  outInv_storeWord h
theorem outInv_execLds {d a : Reg} {z : MSize} {off : BitVec 6} (h : Safety.Inv s) : OutInv (execLds d a z off s) := outInv_loadWord h
theorem outInv_execSts {d : Src} {a : Reg} {z : MSize} {off : BitVec 6} (h : Safety.Inv s) : OutInv (execSts d a z off s) := outInv_storeWord h
theorem outInv_execGath {d : Fin 32} {a : Reg} {b : Fin 32} {z : MSize} (h : Safety.Inv s) : OutInv (execGath d a b z s) :=
  outInv_runWord h (fun _ => resInv_issueMem (inv_zeroMasked h))
theorem outInv_execScat {d : Src} {a : Reg} {b : Fin 32} {z : MSize} (h : Safety.Inv s) : OutInv (execScat d a b z s) := by
  unfold execScat
  refine outInv_runWord h (fun _ => ?_)
  split
  · exact resInv_operandTrap
  · exact resInv_issueMem h
theorem outInv_execLdu {d a : Reg} {t : MType} {z : MSize} {off : BitVec 6} (h : Safety.Inv s) : OutInv (execLdu d a t z off s) := outInv_loadWord h
theorem outInv_execPref {k : Bool} {a : Reg} {t : MType} {off : BitVec 6} (h : Safety.Inv s) : OutInv (execPref k a t off s) :=
  outInv_runWord h (fun _ => resInv_issueMem h)
theorem inv_landValue {gk : Nat} {w : MemWord} {l j : Nat} {v : W64} (h : Safety.Inv s) : Safety.Inv (landValue s gk w l j v) := inv_landTry h
theorem inv_wordResult {gk id : Nat} {v : W64} (h : Safety.Inv s) : Safety.Inv (wordResult s gk id v) := by
  unfold wordResult; dsimp only
  split
  · exact h
  · exact inv_settleGroup (inv_landValue (inv_modWord h))
theorem inv_sweepSnoops {rs : List Nat} (h : Safety.Inv s) : Safety.Inv (sweepSnoops s rs) :=
  inv_foldl _ _ _ (inv_foldl _ _ _ h (fun _ _ hu => inv_snoopSend _ _ _ hu)) (fun _ _ hu => inv_fabSnoop _ _ _ hu)
theorem inv_sweep {rs : List Nat} (h : Safety.Inv s) : Safety.Inv (sweep s rs) :=
  inv_sweepSnoops (inv_with (inv_foldl _ _ _ h (fun _ _ hu => inv_foldl _ _ _ hu (fun _ _ hu1 => inv_l1Drop _ _ _ hu1))))
theorem inv_modLease {st x : Nat} {f : Lease → Lease} (h : Safety.Inv s) : Safety.Inv (modLease s st x f) := inv_modStack _ _ _ h
theorem inv_modeAt {gk id : Nat} {give : Bool} {k : Nat} (h : Safety.Inv s) : Safety.Inv (modeAt s gk id give k) := by
  unfold modeAt
  extract_lets _ _ wait
  have hwait : ∀ u, Safety.Inv u → Safety.Inv (wait u) := fun _ hu => inv_modStack _ _ _ (inv_modWord hu)
  split
  · exact inv_wordResult h
  · split
    · exact inv_wordResult h
    · exact hwait _ (inv_sweep (inv_modLease h))
    · exact hwait _ h
    · exact inv_wordResult h
    · exact inv_wordResult h
    · exact inv_wordResult h
    · exact hwait _ h
    · exact hwait _ h
    · exact hwait _ h
    · exact inv_wordResult h
    · exact inv_wordResult h
theorem inv_modeTry {gk id : Nat} (h : Safety.Inv s) : Safety.Inv (modeTry s gk id) := by
  unfold modeTry; dsimp only
  split
  · exact h
  · split
    · exact inv_ite h (inv_ite (inv_releaseTry h) (inv_modeAt (inv_releaseTry h)))
    · exact h
theorem inv_phendTry {gk id : Nat} (h : Safety.Inv s) : Safety.Inv (phendTry s gk id) := by
  unfold phendTry; dsimp only
  split
  · exact h
  · exact inv_ite h
      (inv_ite (inv_ite (inv_releaseAll h) (inv_modRegion (inv_modWord (inv_releaseAll h)))) (inv_ite (inv_wordResult h) (inv_wordResult h)))
theorem inv_gotPiece {gk : Nat} {w : MemWord} {l : Nat} {a : LaneAcc} {p : Nat × Nat × Nat × Bool} {da da2 : Nat} {nc : Bool} {v : Nat}
    (h : Safety.Inv s) : Safety.Inv (gotPiece s gk w l a p da da2 nc v) :=
  inv_ite (inv_setSt h) (inv_setLane h)
theorem inv_keepBuffered {gk id l c dl : Nat} {t : MType} (h : Safety.Inv s) : Safety.Inv (keepBuffered s gk id l c dl t) := by
  unfold keepBuffered
  split <;> exact inv_modWord h
theorem inv_laneLine {c b : Nat} {t : MType} {priv : Bool} {line : Nat} {m : LineMask} {onlyHit : Bool} (h : Safety.Inv s) :
    Safety.Inv (laneLine s c b t priv line m onlyHit).1 := by
  unfold laneLine; dsimp only
  exact inv_ite_fst (inv_ite_fst (inv_sbRead h) (inv_ownBuffers h))
    (inv_ite_fst h
    (inv_ite_fst (inv_ite_fst (inv_ite_fst (inv_sbRead h) (inv_ownBuffers h)) (inv_admitType (inv_ite_fst (inv_sbRead h) (inv_ownBuffers h))))
    (inv_lineLoad _ _ _ _ _
    (inv_ite_fst (inv_ite_fst (inv_sbRead h) (inv_ownBuffers h)) (inv_admitType (inv_ite_fst (inv_sbRead h) (inv_ownBuffers h)))))))
theorem inv_serveLoad {gk id l : Nat} {onlyHit : Bool} (h : Safety.Inv s) : Safety.Inv (serveLoad s gk id l onlyHit) := by
  unfold serveLoad
  split
  · exact h
  · split
    · exact h
    · extract_lets _
      split
      · extract_lets _ _ _ _ b _ s1 _ r
        have hb : Safety.Inv b.1 := inv_ite_fst (inv_sbRead h) (inv_ownBuffers h)
        have hs1 : Safety.Inv s1 := inv_setSt (inv_fabSend (inv_keepBuffered hb))
        have hr : Safety.Inv r.1 := inv_laneLine h
        split
        · exact h
        · split
          · exact inv_gotPiece h
          · split
            · exact h
            · split
              · exact hb
              · split
                · exact inv_failLane hb
                · exact inv_ite hb (inv_ite hs1 (inv_setLane hs1))
          · split
            · exact hr
            · extract_lets q
              have hq : Safety.Inv q := inv_gotPiece hr
              exact inv_ite (inv_ite (inv_failLane hr) hr) (inv_ite hq (inv_setLane hq))
      · exact h
theorem inv_promoteCore {rc before : Nat} (h : Safety.Inv s) : Safety.Inv (promoteCore s rc before).1 := inv_mbAsk (inv_sbDrainAll h)
theorem inv_promoteAsk {gk id l line chip rc : Nat} (h : Safety.Inv s) : Safety.Inv (promoteAsk s gk id l line chip rc).1 := by
  unfold promoteAsk
  split
  · exact h
  · exact inv_ite_fst h (inv_ite_fst h (inv_fabSend h))
theorem inv_acquireTry {core gk id l : Nat} {w : MemWord} (h : Safety.Inv s) : Safety.Inv (acquireTry s core gk id l w).1 := by
  unfold acquireTry; dsimp only
  split
  · exact h
  · exact inv_ite_fst (inv_acquireDo (inv_modWord (inv_ite_fst (inv_promoteCore h) (inv_promoteAsk h))))
      (inv_ite_fst (inv_promoteCore h) (inv_promoteAsk h))
theorem outInv_laneResponse {g id l : Nat} (h : Safety.Inv s) : OutInv (laneResponse g id l s) := by
  unfold laneResponse
  extract_lets s1
  have hs1 : Safety.Inv s1 := by
    unfold s1
    split
    · split
      · exact inv_serveLoad h
      · exact inv_serveLoad h
      · exact h
    · exact h
  split
  · exact .next hs1
  · extract_lets p
    have hp : Safety.Inv p.1 := inv_acquireTry hs1
    split
    · exact .next hs1
    · split
      · exact .next (inv_settleGroup hs1)
      · split
        · exact .next (inv_settleGroup hs1)
        · exact .next (inv_settleGroup (inv_ite (inv_landDone hp) hp))
      · exact .next (inv_settleGroup hs1)
theorem outInv_execMemoryResponse {g id l : Nat} (h : Safety.Inv s) : OutInv (execMemoryResponse g id l s) := by
  unfold execMemoryResponse
  split
  · exact .next h
  · split
    · exact .next (inv_modeTry h)
    · exact .next (inv_phendTry h)
    · exact outInv_laneResponse h
theorem inv_walkGive {die vp : Nat} {r : WalkRes} (h : Safety.Inv s) : Safety.Inv (walkGive s die vp r) := by
  unfold walkGive; dsimp only
  refine inv_foldl _ _ _ (inv_setPend (inv_foldl _ _ _ h (fun u1 a1 hu => ?_))) (fun u1 a1 hu => ?_)
  · split
    · exact hu
    · refine inv_foldl _ _ _ hu (fun _ _ hu1 => inv_foldl _ _ _ hu1 (fun _ _ hu2 => ?_))
      split
      · exact hu2
      · split
        · exact hu2
        · split
          · exact hu2
          · split
            · exact inv_ite (inv_failLane hu2) hu2
            · exact inv_ite (inv_lookLane (inv_giveLane (inv_fillCore hu2))) hu2
            · exact hu2
  · split
    · exact inv_deferGroup hu
    · exact inv_settleGroup (inv_foldl _ _ _ (inv_deferGroup hu) (fun _ _ hu1 => inv_afterStart hu1))
theorem outInv_execPageWalkComplete {die vpage : Nat} (h : Safety.Inv s) : OutInv (execPageWalkComplete die vpage s) := by
  unfold execPageWalkComplete; dsimp only
  split
  · exact .next h
  · split
    · exact .next (inv_noteHold (inv_walk h))
    · exact .next (inv_walkGive (inv_fillDie (inv_walk h)))
    · exact .next (inv_walkGive (inv_walk h))
theorem inv_holdLane {g id l : Nat} {ev : Instr} (h : Safety.Inv s) : Safety.Inv (holdLane s g id l ev) := by
  unfold holdLane; dsimp only
  split
  · exact h
  · split
    · exact h
    · split
      · exact inv_ite (inv_noteHold h) h
      · exact h
theorem inv_acquireBegin {gk id l core line : Nat} {op : MemOp} {rel : Option (Nat × Nat × AScope)} (h : Safety.Inv s) :
    Safety.Inv (acquireBegin s gk id l core line op rel) := by
  unfold acquireBegin; dsimp only
  split
  · exact inv_ite (inv_modWord h) (inv_acquireDo h)
  · exact inv_acquireDo h
theorem inv_unguess {gk id l : Nat} (h : Safety.Inv s) : Safety.Inv (unguess s gk id l) := inv_modGroup _ _ _ h
theorem inv_atomRead {gk : Nat} {g : Machine.Group} {w : MemWord} {l line old v2 : Nat} {ok : Bool} {rel : Option (Nat × Nat × AScope)}
    (h : Safety.Inv s) : Safety.Inv (atomRead s gk g w l line old v2 ok rel) :=
  inv_ite (inv_acquireBegin (inv_unguess (inv_setSt h))) (inv_setSt h)
theorem inv_serveAtom {gk id l : Nat} (h : Safety.Inv s) : Safety.Inv (serveAtom s gk id l) := by
  unfold serveAtom
  split
  · exact h
  · extract_lets _ _
    split
    · exact h
    · split
      · extract_lets _ _ _ b _ _ r _ _ s1 _ _ _ h1 _ s11 _ _ _ _ s3 s2
        have hb : Safety.Inv b.1 := inv_ownBuffers h
        have hr : Safety.Inv r.1 := inv_ite_fst (inv_releaseTry hb) hb
        have hs1 : Safety.Inv s1 := inv_ite (inv_modWord hr) hr
        have hh1 : Safety.Inv h1.1 := inv_admitType hr
        have hs11 : Safety.Inv s11 := inv_ite (inv_recallOw _ _ _ hh1) (inv_windowTake _ _ _ _ (inv_recallOw _ _ _ hh1))
        have hs3 : Safety.Inv s3 := inv_l1Update _ _ _ _ _ (inv_ite (inv_hostThrough hs11) (inv_homeWrite _ _ _ _ _ _ hs11))
        have hs2 : Safety.Inv s2 := inv_ite (inv_ite (inv_setRecord _ _ _ hs3) hs3) hs11
        split
        · exact h
        · split
          · exact hb
          · split
            · exact hr
            · split
              · split
                · exact inv_failLane hr
                · exact inv_ite hr (inv_setSt (inv_fabSend hs1))
              · exact inv_ite hh1 (inv_ite (inv_failLane hs11) (inv_atomRead hs2))
      · exact h
theorem inv_serveFlush {gk id l : Nat} (h : Safety.Inv s) : Safety.Inv (serveFlush s gk id l) := by
  unfold serveFlush; dsimp only
  split
  · exact h
  · split
    · split
      · exact inv_ite (inv_setSt h)
          (inv_ite (inv_waitAt _ _ h)
          (inv_ite (inv_setSt h)
          (inv_ite h
          (inv_ite (inv_sbDrain h)
          (inv_ite (inv_setSt (inv_l1Drop _ _ _ (inv_sbDrain h)))
          (inv_ite (inv_snoopLine _ _ (inv_l1Drop _ _ _ (inv_sbDrain h)))
          (inv_setSt (inv_llcEvict _ _ (inv_dropAll _ _ (inv_l1Drop _ _ _ (inv_sbDrain h)))))))))))
      · exact h
    · exact h
theorem outInv_execHomeSliceWrite {src : WSource} (h : Safety.Inv s) : OutInv (execHomeSliceWrite src s) := by
  unfold execHomeSliceWrite; dsimp only
  split
  · split
    · exact .next h
    · refine .next (inv_settleGroup (inv_holdLane ?_))
      split
      · exact inv_serveStore h
      · exact inv_serveAtom h
      · exact inv_serveAtom h
      · exact inv_serveRed h
      · exact inv_serveFlush h
      · exact inv_serveInv h
      · exact h
  · split
    · exact .next h
    · split
      · exact .next h
      · exact .next (inv_settleAll (inv_ite (inv_sbDrain h) (inv_noteHold (inv_sbDrain h))))
  · split
    · split
      · exact .next (inv_l1Drop _ _ _ h)
      · exact .next h
    · exact .next h
theorem inv_servePref {gk id l : Nat} (h : Safety.Inv s) : Safety.Inv (servePref s gk id l) := by
  unfold servePref
  split
  · exact h
  · split
    · split
      · extract_lets _ _ _ _ h1 _
        have hh1 : Safety.Inv h1.1 := inv_admitType h
        split
        · exact inv_ite (inv_setSt h) (inv_ite hh1 (inv_setSt (inv_ite hh1 (inv_lineLoad _ _ _ _ _ hh1))))
        · exact inv_ite (inv_setSt h) (inv_ite hh1 (inv_setSt (inv_ite hh1 (inv_lineLoad _ _ _ _ _ hh1))))
        · exact inv_ite (inv_setSt h) (inv_ite h (inv_setSt (inv_fabSend h)))
        · exact inv_setSt h
      · exact h
    · exact h
theorem inv_mlrKeep {gk id l i code v : Nat} (h : Safety.Inv s) : Safety.Inv (mlrKeep s gk id l i code v) := inv_modWord h
theorem inv_mlrAsk {gk id l i off n : Nat} {nc : Bool} (h : Safety.Inv s) : Safety.Inv (mlrAsk s gk id l i off n nc) := by
  unfold mlrAsk
  extract_lets _ _
  split
  · exact h
  · extract_lets _ _ _ b h1 s1
    have hb : Safety.Inv b.1 := inv_ownBuffers h
    have hh1 : Safety.Inv h1.1 := inv_admitType hb
    have hs1 : Safety.Inv s1 := inv_ite (inv_homeRead _ _ hh1) (inv_windowTake _ _ _ _ (inv_homeRead _ _ hh1))
    split
    · exact h
    · split
      · exact hb
      · split
        · split
          · exact inv_ite hh1 (inv_ite (inv_mlrKeep hs1) (inv_mlrKeep hs1))
          · exact inv_ite hh1 (inv_ite (inv_mlrKeep hs1) (inv_mlrKeep hs1))
          · exact inv_mlrKeep hb
        · split
          · exact inv_mlrKeep hb
          · exact inv_ite (inv_fabSend hb) hb
theorem inv_serveMlr {gk id l : Nat} (h : Safety.Inv s) : Safety.Inv (serveMlr s gk id l) := by
  unfold serveMlr
  split
  · exact h
  · split
    · split
      · exact inv_ite h (inv_foldl _ _ _ h (fun _ _ hu => inv_mlrAsk hu))
      · exact h
    · exact h
theorem outInv_execHomeSliceRead {g id l : Nat} (h : Safety.Inv s) : OutInv (execHomeSliceRead g id l s) := by
  unfold execHomeSliceRead
  split
  · exact .next h
  · refine .next (inv_settleGroup (inv_holdLane ?_))
    split
    · exact inv_serveLoad h
    · exact inv_serveLoad h
    · exact inv_serveLoad h
    · exact inv_servePref h
    · exact inv_serveMlr h
    · exact h

/-! ### Lines, buffers, atomics and fences -/

theorem outInv_execCflush {a : Reg} {k : Bool} (h : Safety.Inv s) : OutInv (execCflush a k s) := outInv_runWord h (fun _ => resInv_issueMem h)
theorem outInv_execCinv {a : Option Reg} (h : Safety.Inv s) : OutInv (execCinv a s) := by
  unfold execCinv; dsimp only
  refine outInv_runWord h (fun _ => ?_)
  split
  · exact resInv_issueMem h
  · split
    · exact .ok (inv_dropUtOf _ _ _ (inv_settleGroup h))
    · exact .stall (inv_settleGroup h)
theorem inv_setBuf {b c n : Nat} {x : BufSt} (h : Safety.Inv s) : Safety.Inv (setBuf s b c n x) := inv_modBlock _ _ _ h
theorem outInv_execBufset {d : Fin 32} {f : Bool} {n : Fin 16} (h : Safety.Inv s) : OutInv (execBufset d f n s) := by
  unfold execBufset; dsimp only
  refine outInv_runWord h (fun _ => ?_)
  split
  · exact .stall (inv_settleGroup h)
  · split
    · exact .ok (inv_modGroup _ _ _ (inv_settleGroup h))
    · split
      · exact .ok (inv_modGroup _ _ _ (inv_settleGroup h))
      · split
        · exact .ok (inv_modGroup _ _ _ (inv_settleGroup h))
        · exact .ok (inv_modGroup _ _ _ (inv_settleGroup h))
        · exact .ok (inv_modGroup _ _ _ (inv_ite (inv_setBuf (inv_settleGroup h)) (inv_settleGroup h)))
        · exact .ok (inv_modGroup _ _ _ (inv_ite (inv_settleGroup h) (inv_setBuf (inv_settleGroup h))))
theorem outInv_execBufget {d : Fin 32} {n : Fin 16} (h : Safety.Inv s) : OutInv (execBufget d n s) := by
  unfold execBufget; dsimp only
  refine outInv_runWord h (fun _ => ?_)
  split
  · exact .stall (inv_settleGroup h)
  · exact .ok (inv_modGroup _ _ _ (inv_settleGroup h))
theorem outInv_execAtom {d : Fin 32} {a : Reg} {op : AOp} {sc : AScope} {ord : AOrd} (h : Safety.Inv s) : OutInv (execAtom d a op sc ord s) :=
  outInv_runWord h (fun _ => resInv_issueMem h)
theorem outInv_execCas {d : Fin 32} {a : Reg} {facq is64 : Bool} {sc : AScope} {ord : AOrd} (h : Safety.Inv s) :
    OutInv (execCas d a facq is64 sc ord s) :=
  outInv_runWord h (fun _ => resInv_issueMem h)
theorem outInv_execFence {sc : Scope} {k : FKind} (h : Safety.Inv s) : OutInv (execFence sc k s) := outInv_runWord h (fun _ => resInv_issueMem h)
theorem outInv_lateWord {d a : Fin 32} {op : MemOp} {go : State → Nat → Nat → State} (h : Safety.Inv s)
    (k : ∀ u g i, Safety.Inv u → Safety.Inv (go u g i)) : OutInv (lateWord s d a op go) := by
  refine outInv_runWord h (fun cx => ?_)
  split
  · rename_i s1 e
    exact .ok (k _ _ _ (inv_of_ok e (resInv_issueMem h)))
  · exact resInv_issueMem h
theorem outInv_execFenceModeGive {d a : Fin 32} (h : Safety.Inv s) : OutInv (execFenceModeGive d a s) :=
  outInv_lateWord h (fun _ _ _ hu => inv_modeTry hu)
theorem outInv_execFenceModeTake {d a : Fin 32} (h : Safety.Inv s) : OutInv (execFenceModeTake d a s) :=
  outInv_lateWord h (fun _ _ _ hu => inv_modeTry hu)

/-! ### Rows, modes, and requests that wait for them -/

theorem inv_pageOf {core va : Nat} (h : Safety.Inv s) : Safety.Inv (pageOf s core va).1 := by
  unfold pageOf; dsimp only
  split <;> exact inv_xlateNow h
theorem inv_pagesOf {core : Nat} {vas : List Nat} (h : Safety.Inv s) : Safety.Inv (pagesOf s core vas).1 := by
  induction vas generalizing s with
  | nil =>
    unfold pagesOf; dsimp only
    exact h
  | cons a l ih =>
    unfold pagesOf; dsimp only
    split
    · exact inv_pageOf h
    · exact inv_pageOf h
    · exact ih (inv_pageOf h)
theorem inv_rowGive {core blk : Nat} (h : Safety.Inv s) : Safety.Inv (rowGive s core blk).1 := by
  unfold rowGive; dsimp only
  split
  · exact h
  · split
    · exact inv_pagesOf h
    · exact inv_pagesOf h
    · split
      · exact inv_pagesOf h
      · split
        · exact inv_pagesOf h
        · split
          · exact inv_pagesOf h
          · split
            · exact inv_pagesOf h
            · exact inv_ite_fst (inv_pagesOf h) (inv_modLease (inv_pagesOf h))
theorem outInv_execRowgive {d a : Fin 32} (h : Safety.Inv s) : OutInv (execRowgive d a s) := by
  unfold execRowgive; dsimp only
  refine outInv_runWord h (fun _ => resInv_withParam h (fun _ _ hu => ?_))
  split
  · exact .stall (inv_rowGive hu)
  · exact .ok (inv_modGroup _ _ _ (inv_rowGive hu))
theorem inv_recordAdmit {line n : Nat} (h : Safety.Inv s) : Safety.Inv (recordAdmit s line n).1 :=
  inv_ite_fst (inv_ite_fst (inv_snoopLine _ _ h) h) (inv_homeAdmit _ _ _ _ h)
theorem inv_recordPut {line n v : Nat} (h : Safety.Inv s) : Safety.Inv (recordPut s line n v) :=
  inv_ite (inv_noteWrite _ _ (inv_memMerge _ _ _ _ _ (inv_dropAll _ _ h))) (inv_homeWrite _ _ _ _ _ _ h)
theorem inv_recordTry {la v : Nat} (h : Safety.Inv s) : Safety.Inv (recordTry s la v).1 := by
  unfold recordTry; dsimp only
  exact inv_ite_fst (inv_foldl _ _ _ (inv_foldl_fst _ _ _ h (fun _ _ hu => inv_recordAdmit hu)) (fun _ _ hu => inv_recordPut hu))
    (inv_foldl_fst _ _ _ h (fun _ _ hu => inv_recordAdmit hu))
theorem inv_modeResolve {st k : Nat} {give take : Option Nat} (h : Safety.Inv s) : Safety.Inv (modeResolve s st k give take) :=
  inv_foldl _ _ _ (inv_modStack _ _ _ h) (fun _ _ hu => inv_wordResult hu)
theorem inv_trackRoom {line : Nat} (h : Safety.Inv s) : Safety.Inv (trackRoom s line).1 := by
  unfold trackRoom; dsimp only
  split
  · exact h
  · split
    · exact h
    · exact inv_snoopAll _ _ _ h
theorem inv_hostAdmit {half : Nat} {write : Bool} (h : Safety.Inv s) : Safety.Inv (hostAdmit s half write).1 := by
  unfold hostAdmit; dsimp only
  split
  · exact h
  · split
    · exact inv_fabSnoop _ _ _ h
    · split
      · exact inv_with h
      · exact h
      · exact inv_ite_fst (inv_trackRoom h) (inv_llcRoom _ _ (inv_trackRoom h))
theorem inv_hostAnswer {half : Nat} (h : Safety.Inv s) : Safety.Inv (hostAnswer s half) := inv_with h
theorem inv_setHost {half : Nat} {st : Option Bool} (h : Safety.Inv s) : Safety.Inv (setHost s half st) := inv_with h
theorem inv_hostRead {half : Nat} (h : Safety.Inv s) : Safety.Inv (hostRead s half) :=
  inv_hostAnswer (inv_setHost (inv_llcValid _ _ _ _ (inv_llcTouch _ _ _ (inv_homeRead _ _ h))))
theorem inv_dropHalf {half : Nat} (h : Safety.Inv s) : Safety.Inv (dropHalf s half) := inv_onCores (inv_recallOw _ _ _ h) rfl rfl (fun _ => rfl)
theorem inv_hostMerge {half : Nat} {m : LineMask} {d : BitVec 512} {poison : Bool} (h : Safety.Inv s) : Safety.Inv (hostMerge s half m d poison) :=
  inv_noteWrite _ _ (inv_setRecord _ _ _ (inv_llcTouch _ _ _ (inv_ite (inv_withPoison (inv_memMerge _ _ _ _ _ h)) (inv_memMerge _ _ _ _ _ h))))
theorem inv_hostWrite {half : Nat} {own : Bool} {mask : BitVec 64} {data : BitVec 512} {poison : Bool} (h : Safety.Inv s) :
    Safety.Inv (hostWrite s half own mask data poison) :=
  inv_setHost (inv_llcValid _ _ _ _ (inv_llcTouch _ _ _ (inv_ite (inv_dropHalf h) (inv_hostMerge (inv_dropHalf h)))))
theorem inv_hostTry {i : Instr} (h : Safety.Inv s) : Safety.Inv (hostTry s i).1 := by
  unfold hostTry; dsimp only
  split
  · exact inv_ite_fst (inv_hostRead (inv_hostAdmit h)) (inv_hostAdmit h)
  · exact inv_ite_fst (inv_hostWrite (inv_hostAdmit h)) (inv_hostAdmit h)
  · exact h
theorem inv_hostAgain {i : Instr} (h : Safety.Inv s) : Safety.Inv (hostAgain s i) := inv_ite h (inv_ite (inv_with (inv_hostTry h)) (inv_hostTry h))
theorem inv_rxAdmit {la : Nat} {m : LineMask} {write pass : Bool} {f : State → State × Option FabAns} (h : Safety.Inv s)
    (k : ∀ u, Safety.Inv u → Safety.Inv (f u).1) : Safety.Inv (rxAdmit s la m write pass f).1 := by
  unfold rxAdmit; dsimp only
  split
  · split
    · exact k _ (inv_homeAdmitBy _ _ _ _ _ h)
    · exact inv_homeAdmitBy _ _ _ _ _ h
  · exact h
theorem inv_fabNote {line : Nat} {write pass : Bool} (h : Safety.Inv s) : Safety.Inv (fabNote s line write pass) := inv_ite h (inv_with h)
theorem inv_rxElem {la n : Nat} {pass : Bool} {rec_ : Option (Nat × Nat × AScope)} {f : Nat → Nat × Bool} (h : Safety.Inv s) :
    Safety.Inv (rxElem s la n pass rec_ f).1 := by
  unfold rxElem; dsimp only
  exact inv_ite_fst (inv_fabNote (inv_recallOw _ _ _ h))
    (inv_fabNote (inv_ite (inv_setRecord _ _ _ (inv_homeWrite _ _ _ _ _ _ (inv_recallOw _ _ _ h))) (inv_recallOw _ _ _ h)))
theorem inv_rxAtom {chip la n : Nat} {pass : Bool} {acq : Nat → Option (AScope × Nat)} {rel : Option (AScope × Nat)} {f : Nat → Nat × Bool}
    (h : Safety.Inv s) : Safety.Inv (rxAtom s chip la n pass acq rel f).1 :=
  inv_rxAdmit h (fun _ hu => inv_rxElem hu)
theorem inv_rxRed {line n : Nat} {ty : RedTy} {op : RedOp} {vals : List (Nat × W64)} (h : Safety.Inv s) :
    Safety.Inv (rxRed s line n ty op vals).1 := by
  unfold rxRed; dsimp only
  exact inv_foldl_fst _ _ _ h (fun _ _ hu => inv_ite_fst (inv_recallOw _ _ _ hu) (inv_homeWrite _ _ _ _ _ _ (inv_recallOw _ _ _ hu)))
theorem inv_rxServe {chip : Nat} {req : FabReq} (h : Safety.Inv s) : Safety.Inv (rxServe s chip req).1 := by
  unfold rxServe
  split
  · exact inv_rxAdmit h (fun _ hu => inv_fabNote (inv_homeRead _ _ hu))
  · exact inv_rxAdmit h (fun _ hu => inv_fabNote (inv_homeWrite _ _ _ _ _ _ hu))
  · extract_lets _
    exact inv_rxAtom h
  · extract_lets _ _
    exact inv_rxAtom h
  · extract_lets _
    exact inv_rxAdmit h (fun _ hu => inv_rxElem hu)
  · exact inv_rxAdmit h (fun _ hu => inv_fabNote (inv_rxRed hu))
  · extract_lets r
    have hr : Safety.Inv r.1 := inv_promoteCore h
    exact hr
theorem inv_rxSend {chip plane sn : Nat} {a : Option FabAns} (h : Safety.Inv s) : Safety.Inv (rxSend s chip plane sn a) := inv_with h
theorem inv_setRx {k : Nat} {x : RxSt} (h : Safety.Inv s) : Safety.Inv (setRx s k x) := inv_with h
theorem inv_rxRun {chip plane n : Nat} (h : Safety.Inv s) : Safety.Inv (rxRun chip plane n s) := by
  induction n generalizing s with
  | zero =>
    unfold rxRun
    exact h
  | succ n ih =>
    unfold rxRun; dsimp only
    split
    · exact h
    · split
      · exact inv_noteHold (inv_rxServe h)
      · exact ih (inv_rxSend (inv_setRx (inv_rxServe h)))
theorem inv_rxRetry (h : Safety.Inv s) : Safety.Inv (rxRetry s) := inv_foldl _ _ _ h (fun _ _ hu => inv_rxRun hu)
theorem inv_heldRetry (h : Safety.Inv s) : Safety.Inv (heldRetry s) := inv_foldl _ _ _ (inv_rxRetry h) (fun _ _ hu => inv_hostAgain hu)
theorem inv_outState {o : Out} (ho : OutInv o) (h : Safety.Inv s) : Safety.Inv (outState o s) := by
  cases ho with
  | next ht => exact ht
  | fault => exact h
  | refused => exact h
theorem outInv_execRedEntryApply {core line el : Nat} (h : Safety.Inv s) : OutInv (execRedEntryApply core line el s) := by
  unfold execRedEntryApply
  extract_lets _ _
  split
  · exact .next h
  · extract_lets _ h1 _ _
    have hh1 : Safety.Inv h1.1 := inv_homeAdmit _ _ _ _ h
    split
    · exact .next h
    · split
      · split
        · exact .next h
        · extract_lets s1
          have hs1 : Safety.Inv s1 := inv_redAtHome hh1
          split
          · exact .next (inv_noteHold hh1)
          · exact .next (inv_settleAll (inv_onCore hs1))
      · split
        · exact .next h
        · split
          · exact .next (inv_settleAll (inv_fabricTrap (inv_onCore h)))
          · split
            · exact .next h
            · exact .next (inv_fabSend h)

/-! ### Transfers -/

theorem inv_modCmd {cl id : Nat} {f : XCmd → XCmd} (h : Safety.Inv s) : Safety.Inv (modCmd s cl id f) := inv_modCluster _ _ _ h
/-- What is done in an engine's name keeps Inv. -/
theorem inv_forEngine {α : Type} {id : Nat} {f : State → State × α} (h : Safety.Inv s) (k : ∀ u, Safety.Inv u → Safety.Inv (f u).1) :
    Safety.Inv (forEngine s id f).1 :=
  inv_with (k _ (inv_with h))
theorem inv_spansTaken {die : Nat} {xs : List EngSpan} (h : Safety.Inv s) : Safety.Inv (spansTaken s die xs) := inv_readsTaken h
theorem inv_accAnswer {cl : Nat} {x : XCmd} {u va : Nat} (h : Safety.Inv s) : Safety.Inv (accAnswer s cl x u va).1 := by
  unfold accAnswer
  split
  · exact h
  · split
    · exact inv_modCmd h
    · exact h
theorem inv_takePiece {die b : Nat} {sp : Option Nat} {va n : Nat} (h : Safety.Inv s) : Safety.Inv (takePiece s die b sp va n).1 := by
  unfold takePiece; dsimp only
  split
  · exact h
  · split <;> exact inv_accRead h
theorem inv_takeSpans {die b : Nat} {xs : List EngSpan} (h : Safety.Inv s) : Safety.Inv (takeSpans s die b xs).1 := by
  unfold takeSpans; dsimp only
  refine inv_foldl_fst _ _ _ h (fun _ _ hu => ?_)
  split
  · split <;> exact inv_takePiece hu
  · exact hu
theorem inv_accFar {cl : Nat} {x : XCmd} {u va da src : Nat} {nc : Bool} (h : Safety.Inv s) : Safety.Inv (accFar s cl x u va da src nc).1 := by
  unfold accFar
  split
  · exact h
  · exact inv_ite_fst (inv_modCmd (inv_fabSend h)) h
theorem inv_shadowPut {cl k line : Nat} {m : LineMask} {d : Line} {p : BitVec 4} (h : Safety.Inv s) : Safety.Inv (shadowPut s cl k line m d p) :=
  inv_modCluster _ _ _ h
theorem inv_accMem {cl : Nat} {x : XCmd} {u va n src : Nat} (h : Safety.Inv s) : Safety.Inv (accMem s cl x u va n src).1 := by
  unfold accMem
  extract_lets r
  have hr : Safety.Inv r.1 := inv_xlateNow h
  split
  · exact hr
  · exact hr
  · extract_lets _ _ _ _ _ h1 s1 _ _ _
    have hh1 : Safety.Inv h1.1 := inv_admitType hr
    have hs1 : Safety.Inv s1 := inv_recallOw _ _ _ hh1
    split
    · exact hr
    · split
      · exact hr
      · split
        · exact inv_accFar hr
        · split
          · exact hr
          · exact inv_ite_fst hh1 (inv_ite_fst hs1 (inv_ite_fst (inv_ite_fst (inv_shadowPut hs1) hs1) (inv_homeStore hs1)))
theorem inv_accUnit {cl : Nat} {x : XCmd} {u : Nat} (h : Safety.Inv s) : Safety.Inv (accUnit s cl x u).1 := by
  unfold accUnit; dsimp only
  split
  · split
    · exact inv_accAnswer h
    · exact inv_spansTaken (inv_accAnswer h)
  · split
    · split
      · exact inv_spansTaken (inv_takeSpans h)
      · split
        · split
          · exact inv_accMem (inv_takeSpans h)
          · exact inv_spansTaken (inv_accMem (inv_takeSpans h))
        · exact inv_ite_fst (inv_spansTaken (inv_takeSpans h)) (inv_spansTaken (inv_spadWrite _ _ _ _ _ _ _ (inv_takeSpans h)))
    · exact inv_takeSpans h
theorem inv_unitBytes {cl : Nat} {x : XCmd} {u : Nat} (h : Safety.Inv s) : Safety.Inv (unitBytes s cl x u).1 := by
  unfold unitBytes; dsimp only
  split
  · exact inv_ite_fst h (inv_takeSpans h)
  · exact inv_takeSpans h
theorem inv_givePieceOk {die : Nat} {sh : Option (Nat × Nat)} {va n : Nat} (h : Safety.Inv s) : Safety.Inv (givePieceOk s die sh va n).1 := by
  unfold givePieceOk; dsimp only
  split
  · exact inv_xlateNow h
  · exact inv_xlateNow h
  · split
    · exact inv_xlateNow h
    · split
      · exact inv_ite_fst (inv_xlateNow h) (inv_ite_fst (inv_xlateNow h) (inv_xlateNow h))
      · split
        · split <;> exact inv_xlateNow h
        · split
          · exact inv_xlateNow h
          · exact inv_admitType (inv_xlateNow h)
theorem inv_givePiece {die : Nat} {sh : Option (Nat × Nat)} {va n v : Nat} {p : BitVec 4} (h : Safety.Inv s) :
    Safety.Inv (givePiece s die sh va n v p).1 := by
  unfold givePiece; dsimp only
  split
  · exact inv_accWrite h
  · split
    · exact inv_ite_fst (inv_shadowPut h) h
    · exact h
    · exact h
theorem inv_givePieces {die : Nat} {sh : Option (Nat × Nat)} {v : Nat} {poi : Option (Nat × Nat)} {ps : List (Nat × Nat × Nat)} (h : Safety.Inv s) :
    Safety.Inv (givePieces s die sh v poi ps).1 := by
  unfold givePieces; dsimp only
  refine inv_foldl_fst _ _ _ h (fun _ _ hu => ?_)
  split
  · split
    · exact inv_givePiece hu
    · exact hu
  · exact hu
theorem inv_giveSpan {die b : Nat} {sh : Option (Nat × Nat)} {x : EngSpan} {v : Nat} {poi : Option (Nat × Nat)} {k : Nat} {answered : Bool}
    (h : Safety.Inv s) : Safety.Inv (giveSpan s die b sh x v poi k answered).1 := by
  unfold giveSpan
  extract_lets _ _ _ _ chk r q
  have hchk : Safety.Inv chk.1 := by
    unfold chk
    refine inv_foldl_fst _ _ _ h (fun _ _ hu => ?_)
    split
    · exact inv_givePieceOk hu
    · exact hu
  have hr : Safety.Inv r.1 := inv_givePieces hchk
  have hq : Safety.Inv q.1 := inv_givePieces hr
  split
  · exact inv_foldl _ _ _ h (fun _ _ hu => inv_foldl _ _ _ (inv_spadWrite _ _ _ _ _ _ _ hu) (fun _ _ hu1 => inv_spadSetPoison hu1))
  · split
    · split
      · split
        · exact hr
        · split
          · exact hr
          · split
            · exact hq
            · exact hchk
      · exact inv_ite_fst hchk hr
      · exact hchk
    · exact hchk
theorem inv_copyUnit {cl : Nat} {x : XCmd} {u : Nat} (h : Safety.Inv s) : Safety.Inv (copyUnit s cl x u).1 := by
  unfold copyUnit; dsimp only
  split
  · split
    · exact inv_spansTaken (inv_txMark (inv_giveSpan (inv_unitBytes h)))
    · exact inv_spansTaken (inv_modCmd (inv_txMark (inv_giveSpan (inv_unitBytes h))))
    · exact inv_txMark (inv_giveSpan (inv_unitBytes h))
  · exact inv_unitBytes h
theorem inv_xLoop {cl : Nat} {x : XCmd} {n u : Nat} (h : Safety.Inv s) : Safety.Inv (xLoop cl x n s u).1 := by
  induction n generalizing s u with
  | zero =>
    unfold xLoop; dsimp only
    exact h
  | succ n ih =>
    unfold xLoop; dsimp only
    split
    · exact h
    · split
      · exact ih (inv_ite_fst (inv_accUnit h) (inv_copyUnit h))
      · exact inv_ite_fst (inv_accUnit h) (inv_copyUnit h)
      · exact inv_ite_fst (inv_accUnit h) (inv_copyUnit h)
theorem inv_spanHolds {die : Nat} {xs : List EngSpan} {ev : Instr} (h : Safety.Inv s) : Safety.Inv (spanHolds s die xs ev) := by
  unfold spanHolds
  refine inv_foldl _ _ _ h (fun _ _ hu => ?_)
  split
  · exact hu
  · refine inv_foldl _ _ _ hu (fun _ _ hu1 => ?_)
    split
    · exact inv_ite (inv_noteHold hu1) hu1
    · exact hu1
theorem inv_xRun {cl : Nat} {x : XCmd} (h : Safety.Inv s) : Safety.Inv (xRun s cl x) :=
  inv_ite (inv_modCmd h)
    (inv_ite (inv_modCmd (inv_forEngine h (fun _ hu => inv_xLoop hu))) (inv_spanHolds (inv_modCmd (inv_forEngine h (fun _ hu => inv_xLoop hu)))))
theorem inv_xReport {cl : Nat} {x : XCmd} {f : Nat × Nat × Nat × Nat} (h : Safety.Inv s) : Safety.Inv (xReport s cl x f).1 := by
  unfold xReport; dsimp only
  split
  · exact inv_txMark (inv_accWrite h)
  · split
    · exact inv_txMark (inv_accWrite (inv_accWrite h))
    · exact inv_modCmd (inv_txMark (inv_accWrite (inv_accWrite h)))
theorem inv_tagReady {core n : Nat} {kind : TagKind} {status : W64} {block : Nat} (h : Safety.Inv s) :
    Safety.Inv (tagReady s core n kind status block) :=
  inv_with (inv_ite (inv_acquireDo (inv_onCore h)) (inv_onCore h))
theorem inv_barCommand {b k id : Nat} (h : Safety.Inv s) : Safety.Inv (barCommand s b k id) := inv_barEval (inv_setBar h)
theorem inv_nodeNote {node : Option (Nat × Nat)} {status : Nat} (h : Safety.Inv s) : Safety.Inv (nodeNote s node status) := by
  unfold nodeNote; dsimp only
  split
  · exact h
  · exact inv_with h
theorem inv_cmdDone {core id : Nat} {tag : Option Nat} {kind : TagKind} {status : W64} {block : Nat} {bar : Option Nat} {node : Option (Nat × Nat)}
    (h : Safety.Inv s) : Safety.Inv (cmdDone s core id tag kind status block bar node) := by
  unfold cmdDone; dsimp only
  refine inv_nodeNote ?_
  split
  · refine inv_barCommand ?_
    split
    · exact inv_tagReady h
    · exact h
  · split
    · exact inv_tagReady h
    · exact h
theorem inv_dropCmd {cl id : Nat} (h : Safety.Inv s) : Safety.Inv (dropCmd s cl id) := inv_modCluster _ _ _ h
theorem inv_setInst {b i : Nat} {x : BufSt} (h : Safety.Inv s) : Safety.Inv (setInst s b i x) := inv_setBuf h
theorem inv_xBuffers {x : XCmd} {done : Bool} (h : Safety.Inv s) : Safety.Inv (xBuffers s x done) := by
  unfold xBuffers; dsimp only
  split
  · refine inv_setInst ?_
    split
    · exact inv_setInst h
    · exact h
  · split
    · exact inv_setInst h
    · exact h
theorem inv_xComplete {c : Nat} {y : XCmd} {f : Nat × Nat × Nat × Nat} (h : Safety.Inv s) : Safety.Inv (xComplete s c y f) :=
  inv_cmdDone (inv_dropCmd (inv_xBuffers (inv_ite (inv_impRaise h) h)))
theorem outInv_execTransferEnd {c id : Nat} (h : Safety.Inv s) : OutInv (execTransferEnd c id s) := by
  unfold execTransferEnd
  split
  · exact .next h
  · extract_lets s1
    have hs1 : Safety.Inv s1 := inv_ite h (inv_xRun h)
    split
    · exact .next hs1
    · split
      · exact .next hs1
      · extract_lets _ r
        have hr : Safety.Inv r.1 := inv_ite_fst hs1 (inv_xReport hs1)
        split
        · exact .next hs1
        · split
          · exact .next hr
          · exact .next (inv_xComplete hr)

/-! ### Loads of bank images and vectors -/

theorem inv_modBgCmd {st id : Nat} {f : BgCmd → BgCmd} (h : Safety.Inv s) : Safety.Inv (modBgCmd s st id f) := inv_modStack _ _ _ h
theorem inv_ctlRead {st id va n : Nat} (h : Safety.Inv s) : Safety.Inv (ctlRead s st id va n).1 := inv_forEngine h (fun _ hu => inv_spanRead hu)
theorem inv_clearValid {ks : List Nat} (h : Safety.Inv s) : Safety.Inv (clearValid s ks) := inv_foldl _ _ _ h (fun _ _ hu => inv_modBge _ _ _ hu)
theorem inv_storeImage {ks : List Nat} {k : Nat} {ms : List W32} (h : Safety.Inv s) : Safety.Inv (storeImage s ks k ms) :=
  inv_foldl _ _ _ h (fun _ _ hu => inv_modBge _ _ _ hu)
theorem outInv_execBgloadExecute {st id : Nat} (h : Safety.Inv s) : OutInv (execBgloadExecute st id s) := by
  unfold execBgloadExecute
  extract_lets fin
  have hfin : ∀ u a1, Safety.Inv u → Safety.Inv (fin u a1) := fun _ _ hu => inv_modBgCmd hu
  split
  · exact .next h
  · extract_lets _ h1 s0
    have hh1 : Safety.Inv h1.1 := inv_ctlRead h
    have hs0 : Safety.Inv s0 := inv_clearValid hh1
    split
    · exact .next h
    · split
      · exact .next (hfin _ _ h)
      · split
        · exact .next h
        · split
          · exact .next (inv_spanHolds hh1)
          · exact .next (hfin _ _ hs0)
          · extract_lets _ m
            have hm : Safety.Inv m.1 := inv_ctlRead hs0
            split
            · exact .next (hfin _ _ hs0)
            · split
              · exact .next (hfin _ _ hs0)
              · split
                · exact .next (inv_spanHolds hm)
                · exact .next (hfin _ _ hm)
                · split
                  · exact .next (hfin _ _ hm)
                  · exact .next (hfin _ _ (inv_storeImage hm))
theorem inv_vecGo {st : Nat} {c : BgCmd} {n i : Nat} (h : Safety.Inv s) : Safety.Inv (vecGo st c n s i).1 := by
  induction n generalizing s i with
  | zero =>
    unfold vecGo; dsimp only
    exact h
  | succ n ih =>
    unfold vecGo; dsimp only
    split
    · exact inv_ctlRead h
    · exact inv_ctlRead h
    · exact ih (inv_foldl _ _ _ (inv_ctlRead h) (fun _ _ hu => inv_modBge _ _ _ hu))
theorem outInv_execBgvecExecute {st id : Nat} (h : Safety.Inv s) : OutInv (execBgvecExecute st id s) := by
  unfold execBgvecExecute; dsimp only
  split
  · exact .next h
  · split
    · exact .next h
    · split
      · exact .next (inv_modBgCmd h)
      · split
        · split
          · exact .next h
          · exact .next (inv_modBgCmd (inv_ite (inv_vecGo h) (inv_spanHolds (inv_vecGo h))))
        · split
          · exact .next h
          · exact .next (inv_modBgCmd (inv_ite (inv_vecGo h) (inv_spanHolds (inv_vecGo h))))

/-! ### Layouts and leases -/

theorem inv_stripeRow {die base c m v : Nat} {poi : Option (Nat × Nat)} (h : Safety.Inv s) : Safety.Inv (stripeRow s die base c m v poi).1 := by
  unfold stripeRow; dsimp only
  refine inv_foldl_fst _ _ _ h (fun _ _ hu => ?_)
  split
  · exact inv_ite_fst hu (inv_ite_fst (inv_giveSpan hu) hu)
  · exact hu
theorem inv_layRow {st b i src base n c : Nat} (h : Safety.Inv s) : Safety.Inv (layRow s st b i src base n c).1 := by
  unfold layRow; dsimp only
  split
  · exact h
  · split
    · split <;> exact inv_stripeRow (inv_takeSpans h)
    · exact inv_takeSpans h
    · exact inv_takeSpans h
theorem inv_layGo {st b n i : Nat} (h : Safety.Inv s) : Safety.Inv (layGo st b n s i).1 := by
  induction n generalizing s i with
  | zero =>
    unfold layGo
    exact h
  | succ n ih =>
    unfold layGo
    extract_lets r q
    have hr : Safety.Inv r.1 := inv_layRow h
    have hq : Safety.Inv q.1 := by
      unfold q
      split
      · exact inv_ite_fst (inv_layRow hr) hr
      · exact hr
    split
    · exact h
    · split
      · exact hq
      · exact ih hq
      · exact hq
theorem inv_reportTry {st id : Nat} {reported : Bool} {mark : State → State} {f : State → State × Acc} (h : Safety.Inv s)
    (km : ∀ u, Safety.Inv u → Safety.Inv (mark u)) (kf : ∀ u, Safety.Inv u → Safety.Inv (f u).1) :
    Safety.Inv (reportTry s st id reported mark f).1 := by
  unfold reportTry; dsimp only
  split
  · exact h
  · split
    · exact inv_txMark (kf _ h)
    · exact km _ (inv_txMark (kf _ h))
theorem outInv_execLayoutCommandEnd {st : Nat} (h : Safety.Inv s) : OutInv (execLayoutCommandEnd st s) := by
  unfold execLayoutCommandEnd
  split
  · exact .next h
  · extract_lets r _ _ _
    have hr : Safety.Inv r.1 := inv_ite_fst h (inv_layGo h)
    split
    · exact .next h
    · split
      · exact .next (inv_spanHolds (inv_modStack _ _ _ hr))
      · extract_lets fin w
        have hfin : ∀ a0 u1, Safety.Inv u1 → Safety.Inv (fin a0 u1) := fun _ _ hu => inv_modStack _ _ _ hu
        have hw : Safety.Inv w.1 := inv_reportTry (hfin _ _ hr) (fun _ hu => hfin _ _ hu) (fun _ hu => inv_accWrite hu)
        split
        · exact .next hw
        · exact .next (inv_cmdDone (inv_modStack _ _ _ hw))
theorem optInv_serveHeld {i : Instr} (h : Safety.Inv s) : OptInv (serveHeld i s) := by
  unfold serveHeld
  split
  · exact .some (inv_outState (outInv_execHomeSliceRead h) h)
  · exact .some (inv_outState (outInv_execHomeSliceWrite h) h)
  · exact .some (inv_outState (outInv_execRedEntryApply h) h)
  · exact .some (inv_outState (outInv_execPageWalkComplete h) h)
  · exact .some (inv_outState (outInv_execMtfLineArrival h) h)
  · exact .some (inv_outState (outInv_execTransferEnd h) h)
  · exact .some (inv_outState (outInv_execBgloadExecute h) h)
  · exact .some (inv_outState (outInv_execBgvecExecute h) h)
  · exact .some (inv_outState (outInv_execLayoutCommandEnd h) h)
  · exact .some (inv_rxRun h)
  · exact .some (inv_hostAgain h)
  · exact .some (inv_hostAgain h)
  · exact .none
theorem inv_serveList {as : List Action} (h : Safety.Inv s) : Safety.Inv (serveList as s) := by
  induction as generalizing s with
  | nil => exact inv_heldRetry h
  | cons a l ih =>
    unfold serveList
    split
    · rename_i e
      split at e
      · obtain ⟨u, eu, rfl⟩ := Option.map_eq_some_iff.1 e
        exact ih (inv_noteWait (inv_of_some eu (optInv_serveHeld h)))
      · cases e
    · exact inv_with h
theorem inv_dropHolds {which : Nat → Bool} (h : Safety.Inv s) : Safety.Inv (dropHolds s which) := inv_with h
theorem inv_serveHolds {which : Nat → Bool} (h : Safety.Inv s) : Safety.Inv (serveHolds s which) := inv_serveList (inv_dropHolds h)
theorem inv_noteRows {rs : List Nat} (h : Safety.Inv s) : Safety.Inv (noteRows s rs) := inv_foldl _ _ _ h (fun _ _ hu => inv_noteWrite _ _ hu)
theorem inv_freeLease {st x : Nat} (h : Safety.Inv s) : Safety.Inv (freeLease s st x).1 := by
  unfold freeLease
  extract_lets l r wr s1 s2 _
  have hr : Safety.Inv r.1 := inv_recordTry h
  have hs1 : Safety.Inv s1 := inv_modLease hr
  have hs2 : Safety.Inv s2 := inv_modStack _ _ _ hs1
  split
  · exact hr
  · refine inv_fst_mk ?_
    refine inv_modeResolve ?_
    refine inv_serveHolds ?_
    exact inv_noteRows hs2
theorem inv_cancelLease {st x : Nat} (h : Safety.Inv s) : Safety.Inv (cancelLease s st x).1 := inv_freeLease (inv_modLease h)
theorem inv_stopOne {k stat hcode : Nat} (h : Safety.Inv s) : Safety.Inv (stopOne s k stat hcode) := by
  unfold stopOne; dsimp only
  split
  · exact h
  · exact inv_modBgCmd (inv_modBge _ _ _ h)
theorem inv_stopAll {c : BgCmd} {stat : Nat} (h : Safety.Inv s) : Safety.Inv (stopAll s c stat) :=
  inv_foldl _ _ _ h (fun _ _ hu => inv_ite (inv_stopOne hu) hu)
theorem inv_stopUnder {st x stat : Nat} (h : Safety.Inv s) : Safety.Inv (stopUnder s st x stat) := inv_foldl _ _ _ h (fun _ _ hu => inv_stopAll hu)
theorem inv_rowTake {k : Nat} (h : Safety.Inv s) : Safety.Inv (rowTake s k).1 := by
  unfold rowTake; dsimp only
  split
  · exact h
  · split
    · exact h
    · exact inv_cancelLease h
    · exact inv_modLease h
    · exact inv_stopUnder (inv_modLease h)
    · exact h
    · exact h
theorem outInv_execRowtake {d a : Fin 32} (h : Safety.Inv s) : OutInv (execRowtake d a s) := by
  unfold execRowtake; dsimp only
  refine outInv_runWord h (fun _ => ?_)
  split
  · exact .stall h
  · split
    · exact .stall (inv_rowTake h)
    · exact .ok (inv_modGroup _ _ _ (inv_rowTake h))
theorem inv_tagTake {core n : Nat} (h : Safety.Inv s) : Safety.Inv (tagTake s core n) := inv_onCore h
theorem resInv_issueCmd {cx : Ctx} {n a align bytes : Nat} {room : State → Nat → Bool} {f : State → Nat → WRes} (h : Safety.Inv s)
    (k : ∀ u v, Safety.Inv u → ResInv (f u v)) : ResInv (issueCmd cx s n a align bytes room f) := by
  unfold issueCmd; dsimp only
  split
  · exact .stall h
  · split
    · exact .stall (inv_releaseAll h)
    · refine resInv_withParam (inv_releaseAll h) (fun u v hu => ?_)
      split
      · exact k _ _ (inv_tagTake hu)
      · exact .stall hu
theorem inv_tagBack {core n : Nat} (h : Safety.Inv s) : Safety.Inv (tagBack s core n) := inv_onCore h
theorem outInv_execLayout {a : Fin 32} {n : BitVec 6} (h : Safety.Inv s) : OutInv (execLayout a n s) := by
  unfold execLayout; dsimp only
  refine outInv_runWord h (fun _ => resInv_issueCmd h (fun _ _ hu => ?_))
  split
  · exact .stall (inv_tagBack (inv_xlateNow hu))
  · split
    · split
      · split
        · exact .stall (inv_tagBack (inv_xlateNow hu))
        · exact .ok (inv_modStack _ _ _ (inv_freshId _ (inv_xlateNow hu)))
      · split
        · exact .stall (inv_tagBack (inv_xlateNow hu))
        · exact .ok (inv_modStack _ _ _ (inv_freshId _ (inv_xlateNow hu)))
    · split
      · exact .stall (inv_tagBack (inv_xlateNow hu))
      · exact .ok (inv_modStack _ _ _ (inv_freshId _ (inv_xlateNow hu)))

/-! ### Phases, publication and transfer words -/

theorem outInv_execPhaseOpen {d a b : Fin 32} (h : Safety.Inv s) : OutInv (execPhaseOpen d a b s) := by
  unfold execPhaseOpen; dsimp only
  refine outInv_runWord h (fun _ => ?_)
  split
  · exact .stall h
  · split
    · exact .ok (inv_modGroup _ _ _ h)
    · split
      · exact .ok (inv_modGroup _ _ _ h)
      · split
        · exact .ok (inv_modGroup _ _ _ h)
        · exact .ok (inv_modGroup _ _ _ (inv_modBlock _ _ _ (inv_onCore h)))
theorem outInv_execPhaseEnd {d a : Fin 32} (h : Safety.Inv s) : OutInv (execPhaseEnd d a s) := outInv_lateWord h (fun _ _ _ hu => inv_phendTry hu)
theorem inv_shadowAdmit {ls : List (Nat × LineMask × Line × BitVec 4)} (h : Safety.Inv s) : Safety.Inv (shadowAdmit s ls).1 :=
  inv_ite_fst h (inv_foldl_fst _ _ _ h (fun _ _ hu => inv_homeAdmit _ _ _ _ hu))
theorem inv_shadowCommit {l : Nat × LineMask × Line × BitVec 4} (h : Safety.Inv s) : Safety.Inv (shadowCommit s l) :=
  inv_homeWrite _ _ _ _ _ _ (inv_with (inv_dropAll _ _ h))
theorem inv_publishTry {rc k : Nat} (h : Safety.Inv s) : Safety.Inv (publishTry s rc k).1 := by
  unfold publishTry; dsimp only
  split
  · exact h
  · exact inv_ite_fst (inv_shadowAdmit h) (inv_foldl _ _ _ (inv_onCore (inv_shadowAdmit h)) (fun _ _ hu => inv_shadowCommit hu))
theorem outInv_execPhasePublication {core handle : Nat} (h : Safety.Inv s) : OutInv (execPhasePublication core handle s) := by
  unfold execPhasePublication; dsimp only
  split
  · exact .next h
  · split
    · exact .next h
    · split
      · exact .next (inv_publishTry h)
      · exact .next (inv_wordResult (inv_publishTry h))
theorem outInv_execRed {d : Src} {a : Reg} {ty : RedTy} {op : RedOp} (h : Safety.Inv s) : OutInv (execRed d a ty op s) := by
  unfold execRed; dsimp only
  refine outInv_runWord h (fun _ => ?_)
  split
  · exact resInv_operandTrap
  · exact resInv_issueMem h
theorem resInv_xRights {cx : Ctx} : ResInv (xRights cx) := .trap
theorem inv_xAccept {cl : Nat} {x : XCmd} (h : Safety.Inv s) : Safety.Inv (xAccept s cl x) := by
  unfold xAccept; dsimp only
  split
  · exact inv_modCluster _ _ _ h
  · exact inv_setBar (inv_modCluster _ _ _ h)
theorem outInv_xIssue {kind : XKind} {bar : Option (Fin 16)} {a : Fin 32} {n : BitVec 6} (h : Safety.Inv s) : OutInv (xIssue s kind bar a n) := by
  unfold xIssue; dsimp only
  refine outInv_runWord h (fun _ => ?_)
  split
  · exact resInv_xRights
  · exact resInv_issueCmd h (fun _ _ hu => .ok (inv_xAccept (inv_freshId _ hu)))
theorem outInv_execXcopy {bar : Option (Fin 16)} {a : Fin 32} {n : BitVec 6} (h : Safety.Inv s) : OutInv (execXcopy bar a n s) := outInv_xIssue h
theorem outInv_execXstr {bar : Option (Fin 16)} {a : Fin 32} {n : BitVec 6} (h : Safety.Inv s) : OutInv (execXstr bar a n s) := outInv_xIssue h
theorem outInv_execXlay {bar : Option (Fin 16)} {a : Fin 32} {n : BitVec 6} (h : Safety.Inv s) : OutInv (execXlay bar a n s) := outInv_xIssue h
theorem outInv_execXacc {bar : Option (Fin 16)} {a : Fin 32} {n : BitVec 6} (h : Safety.Inv s) : OutInv (execXacc bar a n s) := outInv_xIssue h
theorem inv_ovRefuse {cl : Nat} {x : XCmd} {st : Nat} (h : Safety.Inv s) : Safety.Inv (ovRefuse s cl x st) := inv_modCmd h

/-! ### Overlays -/

theorem inv_setSlot {cl i : Nat} {x : OvSlot} (h : Safety.Inv s) : Safety.Inv (setSlot s cl i x) := inv_modCluster _ _ _ h
theorem inv_ovStart {cl : Nat} {x : XCmd} (h : Safety.Inv s) : Safety.Inv (ovStart s cl x) := by
  unfold ovStart
  extract_lets r _
  have hr : Safety.Inv r.1 := inv_forEngine h (fun _ hu => inv_spanRead hu)
  split
  · exact hr
  · exact inv_ovRefuse hr
  · exact inv_ovRefuse hr
  · exact inv_ovRefuse hr
  · extract_lets _ load
    have hload : ∀ a0, Safety.Inv (load a0) := fun _ => inv_modCmd (inv_setSlot hr)
    split
    · exact inv_ovRefuse hr
    · split
      · split
        · exact inv_ovRefuse hr
        · split
          · exact hload _
          · exact inv_ovRefuse hr
      · exact inv_ite (inv_ovRefuse hr) (inv_ite (inv_ovRefuse hr) (hload _))
theorem inv_xStart {cl : Nat} {x : XCmd} (h : Safety.Inv s) : Safety.Inv (xStart s cl x) := by
  unfold xStart; dsimp only
  split
  · exact inv_modCmd h
  · split
    · exact inv_modCmd h
    · split
      · split
        · exact inv_ite (inv_modCmd h) (inv_modCmd (inv_ite (inv_modCluster _ _ _ (inv_setInst (inv_setInst h))) (inv_setInst (inv_setInst h))))
        · exact inv_ite (inv_modCmd h) (inv_modCmd (inv_ite (inv_modCluster _ _ _ (inv_setInst h)) (inv_setInst h)))
      · split
        · exact inv_ite (inv_modCmd h) (inv_modCmd (inv_ite (inv_modCluster _ _ _ (inv_setInst h)) (inv_setInst h)))
        · exact inv_ite (inv_modCmd h) (inv_modCmd (inv_ite (inv_modCluster _ _ _ h) h))
theorem outInv_execTransferStart {c id : Nat} (h : Safety.Inv s) : OutInv (execTransferStart c id s) := by
  unfold execTransferStart
  split
  · exact .next h
  · split
    · exact .next h
    · split
      · exact .next (inv_ovStart h)
      · exact .next (inv_ovStart h)
      · exact .next (inv_xStart h)
theorem outInv_execXpub {d : Fin 32} {x : Bool} {k : Fin 4} (h : Safety.Inv s) : OutInv (execXpub d x k s) := by
  unfold execXpub; dsimp only
  refine outInv_runWord h (fun _ => ?_)
  split
  · exact resInv_xRights
  · split
    · exact .stall h
    · exact .ok (inv_uniPend (inv_modCluster _ _ _ (inv_freshId _ h)))
theorem inv_shadowFree {cl k : Nat} (h : Safety.Inv s) : Safety.Inv (shadowFree s cl k) := inv_modCluster _ _ _ h
theorem outInv_execXpubCommit {c k : Nat} (h : Safety.Inv s) : OutInv (execXpubCommit c k s) := by
  unfold execXpubCommit
  extract_lets _ _ _ r
  have hr : Safety.Inv r.1 := inv_shadowAdmit h
  split
  · exact .next h
  · extract_lets fin _
    have hfin : ∀ u a1, Safety.Inv u → Safety.Inv (fin u a1) := fun _ _ hu => inv_uniResult (inv_modCluster _ _ _ hu)
    split
    · exact .next (hfin _ _ (inv_modBlock _ _ _ h))
    · split
      · exact .next (hfin _ _ h)
      · split
        · exact .next (hfin _ _ h)
        · split
          · exact .next (hfin _ _ (inv_shadowFree h))
          · split
            · exact .next (hfin _ _ (inv_shadowFree (inv_foldl _ _ _ hr (fun _ _ hu => inv_shadowCommit hu))))
            · exact .next hr
theorem outInv_execOvld {d a : Fin 32} {slot : Fin 4} {n : BitVec 6} (h : Safety.Inv s) : OutInv (execOvld d a slot n s) := by
  unfold execOvld; dsimp only
  refine outInv_runWord h (fun _ => ?_)
  split
  · exact .stall h
  · split
    · exact .stall (inv_releaseAll h)
    · exact .ok (inv_uniPend (inv_xAccept (inv_freshId _ (inv_tagTake (inv_releaseAll h)))))
theorem outInv_execOvpf {a : Fin 32} {n : BitVec 6} (h : Safety.Inv s) : OutInv (execOvpf a n s) := by
  unfold execOvpf; dsimp only
  refine outInv_runWord h (fun _ => ?_)
  split
  · exact .stall h
  · split
    · exact .stall (inv_releaseAll h)
    · exact .ok (inv_xAccept (inv_freshId _ (inv_tagTake (inv_releaseAll h))))
theorem inv_codeRead {die da n : Nat} (h : Safety.Inv s) : Safety.Inv (codeRead s die da n).1 := by
  unfold codeRead; dsimp only
  split
  · refine inv_foldl_fst _ _ _ h (fun u1 u hu => ?_)
    split
    · split <;> exact inv_accReadAt hu
    · exact hu
  · refine inv_readsTaken (inv_foldl_fst _ _ _ h (fun u1 u hu => ?_))
    split
    · split <;> exact inv_accReadAt hu
    · exact hu
theorem inv_ovLoad {cl : Nat} {x : XCmd} (h : Safety.Inv s) : Safety.Inv (ovLoad s cl x) := by
  unfold ovLoad
  extract_lets _ _ r stop _ _
  have hr : Safety.Inv r.1 := inv_forEngine h (fun _ hu => inv_codeRead hu)
  have hstop : ∀ a0, Safety.Inv (stop a0) := fun _ => inv_modCmd (inv_setSlot hr)
  split
  · exact hr
  · exact hstop _
  · exact hstop _
  · exact hstop _
  · exact inv_ite (hstop _) (inv_modCmd (inv_setSlot (inv_modCluster _ _ _ hr)))
theorem inv_thawGroup {n gk : Nat} {ok : Bool} (h : Safety.Inv s) : Safety.Inv (thawGroup s n gk ok) := by
  unfold thawGroup; dsimp only
  split
  · exact h
  · exact inv_ite h (inv_ite (inv_boundary _ _ (inv_modGroup _ _ _ h)) (inv_ite (inv_fatalBlock (inv_modGroup _ _ _ h)) (inv_modGroup _ _ _ h)))
theorem inv_thaw {cl n : Nat} {ok : Bool} (h : Safety.Inv s) : Safety.Inv (thaw s cl n ok) := inv_foldl _ _ _ h (fun _ _ hu => inv_thawGroup hu)
theorem outInv_execOverlayLoadEnd {c id : Nat} (h : Safety.Inv s) : OutInv (execOverlayLoadEnd c id s) := by
  unfold execOverlayLoadEnd; dsimp only
  split
  · exact .next h
  · split
    · exact .next (inv_ite h (inv_ovLoad h))
    · split
      · exact .next (inv_ite h (inv_ovLoad h))
      · exact .next
          (inv_ite (inv_cmdDone (inv_dropCmd (inv_ite (inv_uniResult (inv_ite h (inv_ovLoad h))) (inv_ite h (inv_ovLoad h)))))
          (inv_thaw (inv_cmdDone (inv_dropCmd (inv_ite (inv_uniResult (inv_ite h (inv_ovLoad h))) (inv_ite h (inv_ovLoad h)))))))

/-! ### Waits, and the bank engine -/

theorem outInv_execWaitany {d a : Fin 32} (h : Safety.Inv s) : OutInv (execWaitany d a s) := by
  unfold execWaitany; dsimp only
  refine outInv_runWord h (fun _ => ?_)
  split
  · exact .ok (inv_modGroup _ _ _ h)
  · split
    · exact .stall h
    · exact .ok (inv_modGroup _ _ _ (inv_acquireDo h))
theorem outInv_execWaitall {a : Fin 32} (h : Safety.Inv s) : OutInv (execWaitall a s) := by
  unfold execWaitall; dsimp only
  refine outInv_runWord h (fun _ => ?_)
  split
  · exact .ok h
  · split
    · exact .stall h
    · exact .ok (inv_acquireDo h)
theorem outInv_execFfr {d a : Fin 32} (h : Safety.Inv s) : OutInv (execFfr d a s) := outInv_runWord h (fun _ => .ok (inv_modGroup _ _ _ h))
theorem inv_bgAccept {c : BgCmd} (h : Safety.Inv s) : Safety.Inv (bgAccept s c) := inv_modStack _ _ _ h
theorem outInv_bgIssue {kind : BgKind} {a : Fin 32} {n : BitVec 6} {align bytes : Nat} (h : Safety.Inv s) :
    OutInv (bgIssue s kind a n align bytes) :=
  outInv_runWord h (fun _ => resInv_issueCmd h (fun _ _ hu => .ok (inv_bgAccept (inv_freshId _ hu))))
theorem outInv_execBgload {a : Fin 32} {n : BitVec 6} (h : Safety.Inv s) : OutInv (execBgload a n s) := outInv_bgIssue h
theorem outInv_execBgvec {a : Fin 32} {n : BitVec 6} (h : Safety.Inv s) : OutInv (execBgvec a n s) := outInv_bgIssue h
theorem inv_crecOk {core : Option Nat} {die va : Nat} (h : Safety.Inv s) : Safety.Inv (crecOk s core die va).1 := by
  unfold crecOk; dsimp only
  split
  · exact h
  · split <;> exact inv_xlateNow h
theorem outInv_execBgrun {a : Fin 32} {n : BitVec 6} (h : Safety.Inv s) : OutInv (execBgrun a n s) := by
  unfold execBgrun; dsimp only
  refine outInv_runWord h (fun _ => resInv_issueCmd h (fun _ _ hu => ?_))
  split
  · exact .stall (inv_tagBack (inv_crecOk hu))
  · exact .ok (inv_tagReady (inv_crecOk hu))
  · exact .ok (inv_bgAccept (inv_freshId _ (inv_crecOk hu)))
theorem outInv_execBgwait {d : Fin 32} {n : BitVec 6} (h : Safety.Inv s) : OutInv (execBgwait d n s) := by
  unfold execBgwait
  refine outInv_runWord h (fun _ => ?_)
  split
  · exact .stall h
  · split
    · exact .ok (inv_modGroup _ _ _ (inv_acquireDo h))
    · exact .ok (inv_modGroup _ _ _ (inv_uniPend h))
theorem inv_bgReport {st : Nat} {c : BgCmd} {va n v : Nat} (h : Safety.Inv s) : Safety.Inv (bgReport s st c va n v).1 :=
  inv_reportTry h (fun _ hu => inv_modBgCmd hu) (fun _ hu => inv_accWrite hu)
theorem inv_dropBgCmd {st id : Nat} (h : Safety.Inv s) : Safety.Inv (dropBgCmd s st id) := inv_modStack _ _ _ h
theorem outInv_execBgloadEnd {st id : Nat} (h : Safety.Inv s) : OutInv (execBgloadEnd st id s) := by
  unfold execBgloadEnd; dsimp only
  split
  · exact .next h
  · split
    · exact .next h
    · split
      · exact .next (inv_bgReport h)
      · exact .next (inv_cmdDone (inv_dropBgCmd (inv_bgReport h)))
theorem outInv_execBgvecEnd {st id : Nat} (h : Safety.Inv s) : OutInv (execBgvecEnd st id s) := by
  unfold execBgvecEnd; dsimp only
  split
  · exact .next h
  · split
    · exact .next h
    · split
      · exact .next (inv_bgReport h)
      · exact .next (inv_cmdDone (inv_dropBgCmd (inv_ite (inv_bgReport h) (inv_foldl _ _ _ (inv_bgReport h) (fun _ _ hu => inv_modBge _ _ _ hu)))))
theorem optInv_rowPut {st : Nat} {own : List Nat} {e : RowEntry} (h : Safety.Inv s) : OptInv (rowPut s st own e) := by
  unfold rowPut; dsimp only
  split
  · exact .some (inv_modStack _ _ _ h)
  · split
    · exact .none
    · exact .some (inv_modStack _ _ _ h)
theorem inv_rowFill {st : Nat} {own : List Nat} {es : List RowEntry} (h : Safety.Inv s) : Safety.Inv (rowFill s st own es) := by
  induction es generalizing s with
  | nil =>
    unfold rowFill
    exact h
  | cons a l ih =>
    unfold rowFill
    split
    · rename_i e
      exact ih (inv_of_some e (optInv_rowPut h))
    · exact h
theorem inv_startRun {st : Nat} {c : BgCmd} (h : Safety.Inv s) : Safety.Inv (startRun s st c) :=
  inv_ite (inv_modBgCmd (inv_foldl _ _ _ (inv_rowFill h) (fun _ _ hu => inv_modBge _ _ _ hu)))
    (inv_foldl _ _ _
    (inv_foldl _ _ _ (inv_modBgCmd (inv_foldl _ _ _ (inv_rowFill h) (fun _ _ hu => inv_modBge _ _ _ hu))) (fun _ _ hu => inv_stopOne hu))
    (fun _ _ hu => inv_ite (inv_stopOne hu) hu))
theorem outInv_execBgrunStart {st id : Nat} (h : Safety.Inv s) : OutInv (execBgrunStart st id s) := by
  unfold execBgrunStart; dsimp only
  split
  · exact .next h
  · split
    · exact .next h
    · split
      · exact .next (inv_modBgCmd (inv_drawFree _ (inv_drawFree _ h)))
      · split
        · exact .next (inv_modBgCmd (inv_drawFree _ (inv_drawFree _ h)))
        · split
          · exact .next (inv_modBgCmd (inv_drawFree _ (inv_drawFree _ h)))
          · split
            · exact .next h
            · split
              · exact .next h
              · exact .next (inv_startRun h)
theorem outInv_execBankRunEnd {st id : Nat} (h : Safety.Inv s) : OutInv (execBankRunEnd st id s) := by
  unfold execBankRunEnd; dsimp only
  split
  · exact .next h
  · split
    · exact .next h
    · split
      · exact .next (inv_reportTry h (fun _ hu => inv_modBgCmd hu) (fun _ hu => inv_spanWrite hu))
      · exact .next (inv_cmdDone (inv_dropBgCmd (inv_reportTry h (fun _ hu => inv_modBgCmd hu) (fun _ hu => inv_spanWrite hu))))
theorem inv_touchRow {k : Nat} {c : BgCmd} (h : Safety.Inv s) : Safety.Inv (touchRow s k c) := by
  unfold touchRow; dsimp only
  split
  · exact inv_modStack _ _ _ h
  · exact h
theorem inv_noteRow {k : Nat} {c : BgCmd} {i idx bank : Nat} (h : Safety.Inv s) : Safety.Inv (noteRow s k c i idx bank) := by
  unfold noteRow; dsimp only
  split
  · exact h
  · exact inv_modBgCmd (inv_modLease h)
theorem moveInv_moveWrite {k : Nat} {c : BgCmd} {m : BgMove} {x : Nat} (h : Safety.Inv s) : MoveInv (moveWrite s k c m x) := by
  unfold moveWrite; dsimp only
  split
  · exact .stop
  · split
    · split
      · exact .stop
      · exact .stall
      · exact .next (inv_noteRow (inv_sliceWrite _ _ _ _ _ _ _ h))
    · split
      · exact .next (inv_modBge _ _ _ h)
      · split
        · exact .next (inv_spadWrite _ _ _ _ _ _ _ h)
        · exact .next (inv_modBge _ _ _ h)
theorem moveInv_moveIn {k : Nat} {c : BgCmd} {m : BgMove} (h : Safety.Inv s) : MoveInv (moveIn s k c m) := by
  unfold moveIn; dsimp only
  split
  · exact .stop
  · split
    · exact .stop
    · split
      · exact .next h
      · split
        · exact .stall
        · split
          · exact .stop
          · exact .stall
          · split
            · exact .stop
            · split
              · exact .stall
              · exact moveInv_moveWrite h
theorem inv_moveDo {k : Nat} {c : BgCmd} {m : BgMove} (h : Safety.Inv s) : Safety.Inv (moveDo s k c m).1 := inv_ite (inv_touchRow h) h
theorem moveInv_moveDo {k : Nat} {c : BgCmd} {m : BgMove} (h : Safety.Inv s) : MoveInv (moveDo s k c m).2 :=
  moveInv_moveIn (inv_ite (inv_touchRow h) h)
theorem inv_stopRun {k stat hcode : Nat} (h : Safety.Inv s) : Safety.Inv (stopRun s k stat hcode) := by
  unfold stopRun; dsimp only
  split
  · exact h
  · exact inv_ite (inv_stopOne h) (inv_foldl _ _ _ (inv_stopOne h) (fun _ _ hu => inv_ite (inv_stopOne hu) hu))
theorem inv_setPc {k pc : Nat} (h : Safety.Inv s) : Safety.Inv (setPc s k pc) := inv_ite (inv_stopRun (inv_modBge _ _ _ h)) (inv_modBge _ _ _ h)
theorem outInv_bankMove {m : BgMove} (h : Safety.Inv s) : OutInv (bankMove s m) := by
  unfold bankMove; dsimp only
  split
  · exact .refused
  · split
    · exact .refused
    · split
      · exact .next h
      · split
        · rename_i e
          exact .next (inv_setPc (inv_of_move e (moveInv_moveDo h)))
        · exact .next (inv_moveDo h)
        · exact .next (inv_stopRun (inv_moveDo h))
theorem outInv_execBankMovePort {gn : Bool} {gsel : Fin 8} {dst src : BitVec 7} {md : BitVec 13} (h : Safety.Inv s) :
    OutInv (execBankMovePort gn gsel dst src md s) :=
  outInv_bankMove h
theorem outInv_execBankMoveImmediate {gn : Bool} {gsel : Fin 8} {dst : BitVec 7} {imm : BitVec 16} {md : BitVec 4} (h : Safety.Inv s) :
    OutInv (execBankMoveImmediate gn gsel dst imm md s) :=
  outInv_bankMove h
theorem sliceInv_streamSlice {k : Nat} {t : Machine.Stream} (h : Safety.Inv s) : SliceInv (streamSlice s k t) := by
  unfold streamSlice; dsimp only
  split
  · exact .wait
  · split
    · exact .wait
    · split
      · exact .stop
      · exact .wait
      · split
        · exact .stop
        · split
          · exact .done (inv_noteRow (inv_sliceWrite _ _ _ _ _ _ _ (inv_modBge _ _ _ (inv_modStack _ _ _ (inv_touchRow h)))))
          · exact .done (inv_modBge _ _ _ (inv_modStack _ _ _ (inv_touchRow h)))
theorem inv_streamGo {k n : Nat} (h : Safety.Inv s) : Safety.Inv (streamGo k n s) := by
  induction n generalizing s with
  | zero =>
    unfold streamGo
    exact h
  | succ n ih =>
    unfold streamGo
    split
    · exact h
    · split
      · rename_i e
        exact ih (inv_of_done e (sliceInv_streamSlice h))
      · exact h
      · exact inv_stopRun h
theorem outInv_execBankStreamEnd {k : Nat} (h : Safety.Inv s) : OutInv (execBankStreamEnd k s) := by
  unfold execBankStreamEnd
  split
  · exact .next h
  · split
    · exact .next h
    · exact .next (inv_streamGo h)
theorem inv_chimeSlices {c : BgCmd} (h : Safety.Inv s) : Safety.Inv (chimeSlices s c) := by
  unfold chimeSlices
  extract_lets res s1
  have hres : Safety.Inv res.1 := by
    unfold res
    refine inv_foldl_fst _ _ _ h (fun _ _ hu => ?_)
    split
    · exact hu
    · split
      · rename_i e
        exact inv_of_done e (sliceInv_streamSlice hu)
      · exact hu
      · exact hu
  have hs1 : Safety.Inv s1 := inv_foldl _ _ _ hres (fun _ _ hu => inv_stopOne hu)
  exact inv_ite hres (inv_foldl _ _ _ hs1 (fun _ _ hu => inv_ite (inv_stopOne hu) hu))
theorem inv_chimeMove {st : Nat} {c : BgCmd} {m : BgMove} (h : Safety.Inv s) : Safety.Inv (chimeMove s st c m) := by
  unfold chimeMove; dsimp only
  split
  · exact inv_stopAll h
  · split
    · refine inv_foldl _ _ _ (inv_foldl _ _ _ (inv_foldl_fst _ _ _ h (fun u1 a1 hu => ?_)) (fun _ _ hu => inv_stopOne hu))
        (fun _ _ hu => inv_ite (inv_stopOne hu) hu)
      split
      · rename_i e
        exact inv_of_move e (moveInv_moveDo hu)
      · exact inv_moveDo hu
      · exact inv_moveDo hu
    · split
      · refine inv_stopAll (inv_foldl _ _ _ (inv_modBgCmd (inv_foldl_fst _ _ _ h (fun u1 a1 hu => ?_))) (fun _ _ hu => inv_modBge _ _ _ hu))
        split
        · rename_i e
          exact inv_of_move e (moveInv_moveDo hu)
        · exact inv_moveDo hu
        · exact inv_moveDo hu
      · refine inv_foldl _ _ _ (inv_modBgCmd (inv_foldl_fst _ _ _ h (fun u1 a1 hu => ?_))) (fun _ _ hu => inv_modBge _ _ _ hu)
        split
        · rename_i e
          exact inv_of_move e (moveInv_moveDo hu)
        · exact inv_moveDo hu
        · exact inv_moveDo hu
theorem optInv_chimeStep {st id : Nat} (h : Safety.Inv s) : OptInv (chimeStep st id s) := by
  unfold chimeStep; dsimp only
  split
  · exact .none
  · split
    · exact .none
    · split
      · exact .none
      · exact .some (inv_ite (inv_chimeSlices h) (inv_chimeMove (inv_chimeSlices h)))
theorem outInv_execBankChimeStep {st id : Nat} (h : Safety.Inv s) : OutInv (execBankChimeStep st id s) := by
  refine .next ?_
  cases e : chimeStep st id s with
  | none => exact h
  | some t => exact inv_of_some e (optInv_chimeStep h)
theorem outInv_execBankRefresh {k bank : Nat} (h : Safety.Inv s) : OutInv (execBankRefresh k bank s) := .next h
theorem outInv_execBufferTakeTimeout {k bank row : Nat} (h : Safety.Inv s) : OutInv (execBufferTakeTimeout k bank row s) :=
  .next (inv_modStack _ _ _ h)

/-! ### Sums over groups -/

theorem outInv_execGred {d : Fin 32} {a : Reg} {b : Src} {fp32 : Bool} (h : Safety.Inv s) : OutInv (execGred d a b fp32 s) := by
  unfold execGred; dsimp only
  refine outInv_runWord h (fun _ => ?_)
  split
  · exact resInv_operandTrap
  · exact resInv_issueMem (inv_ite (inv_zeroMasked h) h)
theorem inv_landEnd {g id : Nat} {ls : List Nat} {r : State × Landed × Nat} (h : Safety.Inv r.1) : Safety.Inv (landEnd g id ls r) := by
  unfold landEnd
  split
  · exact inv_foldl _ _ _ h (fun _ _ hu => inv_setSt hu)
  · exact h
  · exact inv_foldl _ _ _ h (fun _ _ hu => inv_setSt hu)
theorem inv_landAll {g : Nat} {w : MemWord} {rs : List (Nat × Nat × W64)} (h : Safety.Inv s) : Safety.Inv (landAll s g w rs).1 := by
  unfold landAll; dsimp only
  split
  · exact h
  · exact inv_foldl_fst _ _ _ h (fun _ _ hu => inv_landTry hu)
theorem outInv_execGredComplete {g id : Nat} (h : Safety.Inv s) : OutInv (execGredComplete g id s) := by
  unfold execGredComplete; dsimp only
  split
  · exact .next h
  · split
    · split
      · exact .next h
      · exact .next (inv_settleGroup (inv_landEnd (inv_landAll h)))
    · exact .next h
theorem outInv_execMlr {d : Fin 32} {a : Reg} {b : Fin 32} {fp32 : Bool} (h : Safety.Inv s) : OutInv (execMlr d a b fp32 s) := by
  unfold execMlr; dsimp only
  refine outInv_runWord h (fun _ => ?_)
  split
  · exact .ok (inv_zeroMasked h)
  · split
    · exact .stall (inv_settleGroup h)
    · exact resInv_withParam (inv_settleGroup h) (fun _ _ hu => resInv_issueMem (inv_zeroMasked hu))
theorem outInv_execMlrComplete {g id : Nat} (h : Safety.Inv s) : OutInv (execMlrComplete g id s) := by
  unfold execMlrComplete; dsimp only
  split
  · exact .next h
  · split
    · split
      · exact .next h
      · split
        · exact .next (inv_txMark (inv_spanWrite h))
        · exact .next (inv_settleGroup (inv_foldl _ _ _ (inv_txMark (inv_spanWrite h)) (fun _ _ hu => inv_failLane hu)))
        · refine .next (inv_settleGroup (inv_landEnd (inv_landAll ?_)))
          split
          · exact inv_fabricTrap (inv_txMark (inv_spanWrite h))
          · exact inv_txMark (inv_spanWrite h)
    · exact .next h

/-! ### Traps and status registers -/

theorem outInv_trapAfter {cause n : Nat} (h : Safety.Inv s) : OutInv (trapAfter s cause n) := outInv_runWord h (fun _ => .flow h)
theorem outInv_execTrap {n : BitVec 9} (h : Safety.Inv s) : OutInv (execTrap n s) := outInv_trapAfter h
theorem inv_readSpans {core base : Nat} {ps : List (Nat × Nat)} (h : Safety.Inv s) : Safety.Inv (readSpans s core base ps).1 := by
  induction ps generalizing s with
  | nil =>
    unfold readSpans; dsimp only
    exact h
  | cons a l ih =>
    unfold readSpans; dsimp only
    split
    · split
      · rename_i e
        exact inv_of_fst e (ih (inv_spanRead h))
      · exact ih (inv_spanRead h)
    · exact inv_spanRead h
    · exact inv_spanRead h
theorem inv_readFrame {g : Machine.Group} {fr : W64} (h : Safety.Inv s) : Safety.Inv (readFrame s g fr).1 := by
  unfold readFrame; dsimp only
  split
  · rename_i e
    split
    · rename_i e1
      split
      · rename_i e2
        split
        · rename_i e3
          exact inv_of_fst e3 (inv_readSpans (inv_of_fst e2 (inv_readSpans (inv_of_fst e1 (inv_readSpans (inv_of_fst e (inv_readSpans h)))))))
        · rename_i e3
          exact inv_of_fst e3 (inv_readSpans (inv_of_fst e2 (inv_readSpans (inv_of_fst e1 (inv_readSpans (inv_of_fst e (inv_readSpans h)))))))
      · rename_i e2
        exact inv_of_fst e2 (inv_readSpans (inv_of_fst e1 (inv_readSpans (inv_of_fst e (inv_readSpans h)))))
    · rename_i e1
      exact inv_of_fst e1 (inv_readSpans (inv_of_fst e (inv_readSpans h)))
  · rename_i e
    exact inv_of_fst e (inv_readSpans h)
  · rename_i e
    exact inv_of_fst e (inv_readSpans h)
theorem inv_fatalAt {cx : Ctx} (h : Safety.Inv s) : Safety.Inv (fatalAt cx s) := inv_fatalBlock (inv_modGroup _ _ _ h)
theorem outInv_execTret (h : Safety.Inv s) : OutInv (execTret s) := by
  unfold execTret; dsimp only
  split
  · exact .refused
  · split
    · exact .next (inv_raiseTrap _ _ _ h)
    · split
      · exact .next (inv_stallAt _ _ h)
      · split
        · exact .next (inv_stallAt _ _ (inv_readFrame h))
        · exact .next (inv_fatalAt (inv_readFrame h))
        · split
          · exact .next (inv_readFrame h)
          · split
            · exact .next (inv_raiseTrap _ _ _ (inv_readFrame h))
            · exact .next
                (inv_boundary _ _
                (inv_settleMonitor _ _ (inv_settleGroup (inv_endFibres (inv_countIssue _ _ _ (inv_setGroup _ _ _ (inv_with (inv_readFrame h))))))))
theorem outInv_execTretFail (h : Safety.Inv s) : OutInv (execTretFail s) := outInv_runWord h (fun _ => .ok (inv_fatalBlock h))
theorem inv_putReg {cx : Ctx} {d : Reg} {v : Nat → W64} (h : Safety.Inv s) : Safety.Inv (putReg cx s d v) := by
  unfold putReg
  split <;> exact inv_modGroup _ _ _ h
theorem outInv_execRdsr {d : Reg} {idx : BitVec 8} (h : Safety.Inv s) : OutInv (execRdsr d idx s) := by
  unfold execRdsr; dsimp only
  refine outInv_runWord h (fun _ => ?_)
  split
  · split
    · exact resInv_operandTrap
    · exact .ok (inv_putReg h)
  · exact .ok (inv_putReg h)
theorem outInv_execWrsr {a : Src} {idx : BitVec 8} (h : Safety.Inv s) : OutInv (execWrsr a idx s) := by
  unfold execWrsr
  extract_lets _ _
  refine outInv_runWord h (fun _ => ?_)
  extract_lets _ _ _ _
  split
  · split
    · exact .trap
    · exact .ok (inv_modGroup _ _ _ h)
  · split
    · exact resInv_operandTrap
    · split
      · exact .ok (inv_cwPut h)
      · split
        · exact .ok (inv_modGroup _ _ _ h)
        · exact .ok h
theorem outInv_execBkpt {n : BitVec 9} (h : Safety.Inv s) : OutInv (execBkpt n s) := outInv_trapAfter h
theorem outInv_execRdtime {d : Reg} (h : Safety.Inv s) : OutInv (execRdtime d s) := outInv_runWord h (fun _ => .ok (inv_putReg h))
theorem outInv_execPerf {d : Reg} {e : Fin 8} (h : Safety.Inv s) : OutInv (execPerf d e s) := outInv_runWord h (fun _ => .ok (inv_putReg h))
theorem inv_dropReads {gk : Nat} (h : Safety.Inv s) : Safety.Inv (dropReads s gk) := inv_with h
theorem inv_writeParts {core base : Nat} {ps : List (Nat × Nat × Nat)} (h : Safety.Inv s) : Safety.Inv (writeParts s core base ps).1 := by
  unfold writeParts
  refine inv_foldl_fst _ _ _ h (fun _ _ hu => ?_)
  split
  · exact inv_spanWrite hu
  · exact hu
theorem inv_takeTrap {gk : Nat} {g : Machine.Group} (h : Safety.Inv s) : Safety.Inv (takeTrap s gk g) := by
  unfold takeTrap
  extract_lets _ _ _ d _ r s1
  have hd : Safety.Inv d.1 := inv_sbDrainAll h
  have hr : Safety.Inv r.1 := inv_writeParts hd
  have hs1 : Safety.Inv s1 := inv_txMark hr
  split
  · exact inv_mbAsk hd
  · split
    · exact inv_fatalBlock hd
    · split
      · exact inv_ite hd (inv_setGroup _ _ _ (inv_dropReads hd))
      · split
        · split
          · exact inv_ite (inv_setGroup _ _ _ hs1) (inv_setGroup _ _ _ (inv_dropReads hs1))
          · exact hs1
        · exact hs1
        · exact inv_fatalBlock hs1
theorem outInv_execTrapEntry {g : Nat} (h : Safety.Inv s) : OutInv (execTrapEntry g s) := by
  unfold execTrapEntry
  split
  · exact .next h
  · split
    · split
      · exact .next (inv_takeTrap h)
      · exact .next h
    · split
      · exact .next (inv_takeTrap h)
      · exact .next h

/-! ### The events of leases -/

theorem outInv_execLeaseReservationTimeout {st x : Nat} (h : Safety.Inv s) : OutInv (execLeaseReservationTimeout st x s) := by
  unfold execLeaseReservationTimeout; dsimp only
  split
  · exact .next (inv_cancelLease h)
  · exact .next h
theorem inv_joinRuns {st x e : Nat} (h : Safety.Inv s) : Safety.Inv (joinRuns s st x e) := inv_foldl _ _ _ h (fun _ _ hu => inv_modBgCmd hu)
theorem outInv_execSweepComplete {st x : Nat} (h : Safety.Inv s) : OutInv (execSweepComplete st x s) := by
  unfold execSweepComplete; dsimp only
  split
  · split
    · exact .next (inv_sweepSnoops h)
    · split
      · exact .next (inv_cancelLease h)
      · exact .next (inv_modeResolve (inv_joinRuns (inv_modLease h)))
  · exact .next h
theorem outInv_execLeaseExpiry {st x : Nat} (h : Safety.Inv s) : OutInv (execLeaseExpiry st x s) := by
  unfold execLeaseExpiry; dsimp only
  split
  · exact .next (inv_modLease h)
  · exact .next h
theorem inv_chimeGo {st id n : Nat} (h : Safety.Inv s) : Safety.Inv (chimeGo st id n s) := by
  induction n generalizing s with
  | zero =>
    unfold chimeGo
    exact h
  | succ n ih =>
    unfold chimeGo
    split
    · rename_i e
      exact ih (inv_of_some e (optInv_chimeStep h))
    · exact h
theorem outInv_execBgeLeaseExpiry {k slices : Nat} (h : Safety.Inv s) : OutInv (execBgeLeaseExpiry k slices s) := by
  unfold execBgeLeaseExpiry; dsimp only
  split
  · exact .next h
  · split
    · exact .next h
    · exact .next (inv_stopRun (inv_ite (inv_chimeGo h) (inv_streamGo h)))
theorem inv_returnLease {st x : Nat} (h : Safety.Inv s) : Safety.Inv (returnLease s st x) := inv_freeLease (inv_modLease h)
theorem inv_revokeLease {st x : Nat} (h : Safety.Inv s) : Safety.Inv (revokeLease s st x) := inv_returnLease (inv_modLease (inv_stopUnder h))
theorem outInv_execEndingTimeout {st x : Nat} (h : Safety.Inv s) : OutInv (execEndingTimeout st x s) := by
  unfold execEndingTimeout; dsimp only
  split
  · exact .next (inv_ite (inv_returnLease h) (inv_revokeLease h))
  · exact .next h
theorem outInv_execClockReadback {st : Nat} (h : Safety.Inv s) : OutInv (execClockReadback st s) := by
  unfold execClockReadback; dsimp only
  split
  · exact .next h
  · exact .next (inv_with (inv_foldl _ _ _ (inv_modStack _ _ _ h) (fun _ _ hu => inv_revokeLease hu)))
theorem outInv_execLeaseReturn {st x : Nat} (h : Safety.Inv s) : OutInv (execLeaseReturn st x s) := by
  unfold execLeaseReturn
  split
  · exact .next (inv_freeLease h)
  · split
    · exact .next (inv_returnLease h)
    · exact .next h
  · exact .next h
theorem inv_hbmOrFault {die va : Nat} (h : Safety.Inv s) : Safety.Inv (hbmOrFault s die va).1 := by
  unfold hbmOrFault; dsimp only
  split <;> exact inv_xlateNow h
theorem inv_stripeOk {die : Nat} {ps : List Nat} (h : Safety.Inv s) : Safety.Inv (stripeOk s die ps).1 := by
  unfold stripeOk
  refine inv_foldl_pair h (fun u p hu => ?_)
  split
  · have hr : Safety.Inv (xlateNow u.1 none die (p * 65536)).1 := inv_xlateNow hu
    generalize xlateNow u.1 none die (p * 65536) = r at hr
    obtain ⟨t, x⟩ := r
    cases x <;> exact .mk hr
  · exact .mk hu
theorem inv_laySpan {die b : Nat} (h : Safety.Inv s) : Safety.Inv (laySpan s die b).1 := by
  unfold laySpan; dsimp only
  split
  · split
    · exact inv_ite_fst (inv_stripeOk (inv_stripeOk (inv_hbmOrFault h))) (inv_stripeOk (inv_hbmOrFault h))
    · exact inv_stripeOk (inv_hbmOrFault h)
  · exact inv_hbmOrFault h
theorem outInv_execLayoutCommandStart {st : Nat} (h : Safety.Inv s) : OutInv (execLayoutCommandStart st s) := by
  unfold execLayoutCommandStart; dsimp only
  split
  · exact .next h
  · split
    · exact .next h
    · split
      · exact .next (inv_modStack _ _ _ h)
      · split
        · exact .next (inv_modStack _ _ _ h)
        · split
          · exact .next (inv_laySpan h)
          · exact .next (inv_modStack _ _ _ (inv_laySpan h))
          · exact .next (inv_modStack _ _ _ (inv_laySpan h))

/-! ### Management, the mailbox and writes to registers -/

theorem inv_hostRefuse (h : Safety.Inv s) : Safety.Inv (hostRefuse s) := inv_with h
theorem inv_wake (h : Safety.Inv s) : Safety.Inv (wake s) := inv_with h
theorem inv_preemptBlock {b : Nat} (h : Safety.Inv s) : Safety.Inv (preemptBlock s b) := inv_askStop (inv_modBlock _ _ _ h)
theorem inv_closeClusters {cs : List Nat} (h : Safety.Inv s) : Safety.Inv (closeClusters s cs) :=
  inv_foldl _ _ _ (inv_foldl _ _ _ h (fun _ _ hu => inv_modCluster _ _ _ hu)) (fun _ _ hu => inv_preemptBlock hu)
theorem inv_openClusters {cs : List Nat} (h : Safety.Inv s) : Safety.Inv (openClusters s cs) :=
  inv_foldl _ _ _ h (fun _ _ hu => inv_modCluster _ _ _ hu)
theorem inv_preqTake {v : W64} (h : Safety.Inv s) : Safety.Inv (preqTake s v) := inv_ite (inv_closeClusters h) (inv_ite (inv_openClusters h) h)
theorem inv_verselTake {v : W64} (h : Safety.Inv s) : Safety.Inv (verselTake s v) := inv_with h
theorem inv_modMgmt {f : Mgmt → Mgmt} (h : Safety.Inv s) : Safety.Inv (modMgmt s f) := inv_with h
theorem inv_dvreqTake {v : W64} (h : Safety.Inv s) : Safety.Inv (dvreqTake s v) :=
  inv_ite h
    (inv_ite (inv_modMgmt h) (inv_ite (inv_modMgmt h) (inv_ite (inv_modMgmt h) (inv_ite (inv_modMgmt h) (inv_ite (inv_modMgmt h) (inv_modMgmt h))))))
theorem inv_dvfloorTake {v : W64} (h : Safety.Inv s) : Safety.Inv (dvfloorTake s v) := inv_ite h (inv_modMgmt h)
theorem inv_mbDone {seq st : Nat} (h : Safety.Inv s) : Safety.Inv (mbDone s seq st) := inv_modMgmt (inv_raiseMsix _ _ h)
theorem inv_mgmtWrite {la n v : Nat} (h : Safety.Inv s) : Safety.Inv (mgmtWrite s la n v).1 := by
  unfold mgmtWrite; dsimp only
  exact inv_ite_fst (inv_foldl_fst _ _ _ h (fun _ _ hu => inv_homeAdmit _ _ _ _ hu))
    (inv_foldl _ _ _ (inv_foldl_fst _ _ _ h (fun _ _ hu => inv_homeAdmit _ _ _ _ hu)) (fun _ _ hu => inv_homeWrite _ _ _ _ _ _ hu))
theorem inv_mbBegin {seq : Nat} (h : Safety.Inv s) : Safety.Inv (mbBegin s seq) := inv_modMgmt h
theorem inv_mbHold {c seq : Nat} (h : Safety.Inv s) : Safety.Inv (mbHold s c seq) := inv_modMgmt (inv_mbBegin h)
theorem inv_mbAttestDo {seq : Nat} (h : Safety.Inv s) : Safety.Inv (mbAttestDo s seq) := by
  unfold mbAttestDo; dsimp only
  split
  · exact inv_mbDone h
  · exact inv_ite (inv_mbDone (inv_with (inv_mgmtWrite (inv_recallOw _ _ _ h)))) (inv_mbHold (inv_mgmtWrite (inv_recallOw _ _ _ h)))
theorem inv_mbIdcertDo {seq : Nat} (h : Safety.Inv s) : Safety.Inv (mbIdcertDo s seq) := by
  unfold mbIdcertDo; dsimp only
  split
  · exact inv_mbDone h
  · exact inv_ite (inv_mbDone (inv_mgmtWrite h)) (inv_mbHold (inv_mgmtWrite h))
theorem inv_takeLeases (h : Safety.Inv s) : Safety.Inv (takeLeases s) := inv_foldl _ _ _ h (fun _ _ hu => inv_rowTake hu)
theorem inv_mbPrepareDo {seq : Nat} (h : Safety.Inv s) : Safety.Inv (mbPrepareDo s seq) :=
  inv_modMgmt (inv_mbBegin (inv_closeClusters (inv_takeLeases (inv_with h))))
theorem inv_reopen (h : Safety.Inv s) : Safety.Inv (reopen s) := inv_modMgmt (inv_with (inv_openClusters h))
theorem inv_mbReleaseDo {seq : Nat} (h : Safety.Inv s) : Safety.Inv (mbReleaseDo s seq) := inv_mbDone (inv_with (inv_reopen h))
theorem inv_mbRun {c seq : Nat} (h : Safety.Inv s) : Safety.Inv (mbRun s c seq) := by
  unfold mbRun
  split
  · exact inv_mbDone (inv_modMgmt h)
  · exact inv_mbAttestDo h
  · exact inv_mbIdcertDo h
  · exact inv_mbDone (inv_modMgmt h)
  · exact inv_mbPrepareDo h
  · exact inv_modMgmt (inv_mbBegin h)
  · exact inv_mbDone (inv_reopen h)
  · exact inv_modMgmt (inv_mbBegin h)
  · exact inv_mbReleaseDo h
theorem inv_mbTake {v : W64} (h : Safety.Inv s) : Safety.Inv (mbTake s v) :=
  inv_ite h
    (inv_ite (inv_mbDone h) (inv_ite (inv_mbDone h) (inv_ite (inv_mbDone h) (inv_ite (inv_mbDone h) (inv_ite (inv_mbDone h) (inv_mbRun h))))))
theorem inv_laneAnswer {gk : Nat} {g : Machine.Group} {w : MemWord} {l : Nat} {a : LaneAcc} {da v : Nat} {pass : Bool}
    {rel : Option (Nat × Nat × AScope)} (h : Safety.Inv s) : Safety.Inv (laneAnswer s gk g w l a da v pass rel) := by
  unfold laneAnswer; dsimp only
  split
  · exact inv_ite (inv_setLane h) (inv_ite (inv_setSt h) (inv_setSt h))
  · exact inv_ite (inv_setSt (inv_modWord h)) (inv_atomRead h)
theorem inv_lanesWritten {gk id block : Nat} {ls : List (Nat × LaneAcc)} {silent : Bool} {chip code : Nat} (h : Safety.Inv s) :
    Safety.Inv (lanesWritten s gk id block ls silent chip code) :=
  inv_ite (inv_doneLanes h) (inv_fabricTrap (inv_doneLanes h))
theorem inv_mlrShare {gk id i off n : Nat} {ans : FabAns} (h : Safety.Inv s) : Safety.Inv (mlrShare s gk id i off n ans) := by
  unfold mlrShare; dsimp only
  split
  · exact h
  · refine inv_foldl _ _ _ h (fun _ _ hu => ?_)
    split
    · exact inv_ite hu (inv_mlrKeep hu)
    · exact hu
theorem inv_fabDeliver {t : FabTx} {ans : FabAns} (h : Safety.Inv s) : Safety.Inv (fabDeliver s t ans) := by
  unfold fabDeliver; dsimp only
  split
  · split
    · exact h
    · exact inv_settleGroup (inv_ite (inv_foldl _ _ _ h (fun _ _ hu => inv_ite (inv_laneAnswer hu) (inv_failLane hu))) (inv_lanesWritten h))
  · exact inv_settleAll (inv_ite h (inv_fabricTrap h))
  · exact inv_settleAll (inv_ite (inv_onCore h) (inv_fabricTrap (inv_onCore h)))
  · exact h
  · split
    · exact h
    · refine inv_settleGroup ?_
      split
      · exact inv_mlrShare h
      · exact inv_mlrKeep h
  · exact inv_fetchAnswer h
  · split
    · exact h
    · split
      · exact inv_fatalBlock h
      · exact h
  · exact inv_ite h (inv_modCmd h)
  · exact inv_nodeNote (inv_ite (inv_raiseMsix _ _ h) h)
  · exact inv_with h
theorem inv_fabRetire {t : FabTx} {ans : FabAns} (h : Safety.Inv s) : Safety.Inv (fabRetire s t ans) := inv_fabDeliver (inv_with h)
theorem inv_retireAll {which : FabTx → Bool} {code : Nat} (h : Safety.Inv s) : Safety.Inv (retireAll s which code) :=
  inv_foldl _ _ _ h (fun _ _ hu => inv_fabRetire hu)
theorem inv_calStore {pod : Bool} {i : Nat} {v : W64} (h : Safety.Inv s) : Safety.Inv (calStore s pod i v) := inv_ite (inv_with h) (inv_with h)
theorem inv_resyncSend {chip : Nat} (h : Safety.Inv s) : Safety.Inv (resyncSend s chip) := inv_with h
theorem inv_sendHeld {k : Nat} (h : Safety.Inv s) : Safety.Inv (sendHeld s k) := inv_with h
theorem inv_calWrite {s0 : State} {pod : Bool} {i : Nat} {v : W64} (h : Safety.Inv s0) : Safety.Inv (calWrite s0 pod i v) :=
  inv_ite (inv_with (inv_calStore (inv_ite h (inv_retireAll (inv_calStore h)))))
    (inv_ite
    (inv_sendHeld
    (inv_ite (inv_resyncSend (inv_with (inv_calStore (inv_ite h (inv_retireAll (inv_calStore h))))))
    (inv_with (inv_calStore (inv_ite h (inv_retireAll (inv_calStore h))))))) (inv_calStore (inv_ite h (inv_retireAll (inv_calStore h)))))
theorem inv_fholdStore {v : W64} (h : Safety.Inv s) : Safety.Inv (fholdStore s v) := inv_with h
theorem inv_plainStore {off : Nat} {v : W64} (h : Safety.Inv s) : Safety.Inv (plainStore s off v) :=
  inv_ite (inv_with h) (inv_ite (inv_with h) (inv_ite (inv_with h) (inv_ite (inv_with h) (inv_ite (inv_with h) (inv_ite (inv_with h) h)))))
theorem inv_regWrite {ag : Agent} {off : Nat} {v : W64} (h : Safety.Inv s) : Safety.Inv (regWrite s ag off v) :=
  inv_ite h
    (inv_ite (inv_ptbaseTake h)
    (inv_ite (inv_xlinvTake h)
    (inv_ite (inv_xlstatTake h)
    (inv_ite (inv_anchorTake (inv_wake h))
    (inv_ite (inv_preqTake h)
    (inv_ite (inv_verselTake h)
    (inv_ite (inv_dvreqTake h)
    (inv_ite (inv_dvfloorTake h)
    (inv_ite (inv_mbTake h) (inv_ite (inv_calWrite h) (inv_ite (inv_calWrite h) (inv_ite (inv_fholdStore h) (inv_plainStore h)))))))))))))

/-! ### The register window, the host and the fabric -/

theorem outInv_regEvent {ag : Agent} {off : Nat} {v : W64} (h : Safety.Inv s) : OutInv (regEvent s ag off v) := by
  unfold regEvent; dsimp only
  split
  · exact .next h
  · split
    · exact .next (inv_hostRefuse h)
    · split
      · split
        · exact .next (inv_with (inv_wake h))
        · split
          · exact .next (inv_wake h)
          · exact .next (inv_regWrite (inv_wake h))
      · split
        · exact .next (inv_with h)
        · split
          · exact .next h
          · exact .next (inv_regWrite h)
theorem outInv_execXlinvWrite {ag : Agent} {v : W64} (h : Safety.Inv s) : OutInv (execXlinvWrite ag v s) := outInv_regEvent h
theorem inv_invDrop {die : Nat} {q : Nat × Nat} (h : Safety.Inv s) : Safety.Inv (invDrop s die q) :=
  inv_setWalk (inv_setDieTlb (inv_onCores h rfl rfl (fun _ => by split <;> rfl)))
theorem inv_invDrain {die : Nat} (h : Safety.Inv s) : Safety.Inv (invDrain s die).1 :=
  inv_foldl_fst _ _ _ h (fun _ _ hu => inv_mbAsk (inv_sbDrainAll hu))
theorem inv_hostRegAnswer {off : Nat} (h : Safety.Inv s) : Safety.Inv (hostRegAnswer s off) := inv_modMgmt h
theorem inv_heldWrites {n : Nat} (h : Safety.Inv s) : Safety.Inv (heldWrites n s) := by
  induction n generalizing s with
  | zero =>
    unfold heldWrites
    exact h
  | succ n ih =>
    unfold heldWrites; dsimp only
    split
    · exact h
    · exact inv_ite (ih (inv_hostRegAnswer (inv_with h))) (inv_ite h (ih (inv_regWrite (inv_with h))))
theorem outInv_execXlinvComplete {die idx : Nat} (h : Safety.Inv s) : OutInv (execXlinvComplete die idx s) := by
  unfold execXlinvComplete; dsimp only
  split
  · exact .next h
  · split
    · exact .next (inv_invDrain (inv_invDrop h))
    · exact .next (inv_settleAll (inv_heldWrites (inv_with (inv_invDrain (inv_invDrop h)))))
theorem outInv_execXlstatWrite {ag : Agent} {v : W64} (h : Safety.Inv s) : OutInv (execXlstatWrite ag v s) := outInv_regEvent h
theorem outInv_execPtbaseWrite {ag : Agent} {v : W64} (h : Safety.Inv s) : OutInv (execPtbaseWrite ag v s) := outInv_regEvent h
theorem outInv_hostRequest {half : Nat} {i : Instr} (h : Safety.Inv s) : OutInv (hostRequest s half i) := by
  unfold hostRequest; dsimp only
  split
  · exact .next h
  · split
    · refine .next ?_
      split <;> exact inv_with h
    · split
      · exact .next (inv_noteHold (inv_with (inv_wake h)))
      · exact .next (inv_ite (inv_settleAll (inv_hostTry (inv_wake h))) (inv_noteHold (inv_with (inv_hostTry (inv_wake h)))))
theorem outInv_execHostMemRead {half : Nat} (h : Safety.Inv s) : OutInv (execHostMemRead half s) := outInv_hostRequest h
theorem outInv_execHostMemWrite {half : Nat} {own : Bool} {mask : BitVec 64} {data : BitVec 512} {poison : Bool} (h : Safety.Inv s) :
    OutInv (execHostMemWrite half own mask data poison s) :=
  outInv_hostRequest h
theorem inv_snoopOver {line : Nat} (h : Safety.Inv s) : Safety.Inv (snoopOver s line) := inv_serveList (inv_dropHolds h)
theorem inv_llcLeave {line : Nat} (h : Safety.Inv s) : Safety.Inv (llcLeave s line) := inv_with h
theorem outInv_execBackInvalidateResponse {half : Nat} {dirty : Option (BitVec 512 × Bool)} (h : Safety.Inv s) :
    OutInv (execBackInvalidateResponse half dirty s) := by
  unfold execBackInvalidateResponse; dsimp only
  split
  · exact .next h
  · exact .next (inv_with h)
  · refine .next (inv_snoopOver ?_)
    split
    · refine inv_llcLeave (inv_setHost (inv_llcValid _ _ _ _ (inv_with ?_)))
      split
      · exact h
      · exact inv_hostMerge h
    · refine inv_setHost (inv_llcValid _ _ _ _ (inv_with ?_))
      split
      · exact h
      · exact inv_hostMerge h
theorem outInv_execHostSnoop {half : Nat} {k : SnoopKind} {data : Option (BitVec 512 × Bool)} (h : Safety.Inv s) :
    OutInv (execHostSnoop half k data s) := by
  unfold execHostSnoop; dsimp only
  split
  · exact .next h
  · split
    · exact .next (inv_hostRefuse h)
    · split
      · exact .next (inv_hostAnswer (inv_with (inv_recallOw _ _ _ (inv_wake h))))
      · refine .next ?_
        split
        · exact inv_hostPoison _ _ (inv_llcValid _ _ _ _ (inv_with (inv_hostAnswer (inv_dropHalf (inv_wake h)))))
        · exact inv_memMerge _ _ _ _ _ (inv_hostPoison _ _ (inv_llcValid _ _ _ _ (inv_with (inv_hostAnswer (inv_dropHalf (inv_wake h))))))
theorem outInv_execLinkUp {port : Fin 16} {ver : Option (BitVec 16)} (h : Safety.Inv s) : OutInv (execLinkUp port ver s) := by
  unfold execLinkUp; dsimp only
  split
  · exact .next h
  · split
    · exact .next (inv_with h)
    · exact .next (inv_retireAll (inv_with h))
theorem inv_rxTake {chip plane sn low : Nat} {req : FabReq} (h : Safety.Inv s) : Safety.Inv (rxTake s chip plane sn low req) := by
  unfold rxTake; dsimp only
  split
  · split
    · exact inv_rxSend (inv_setRx h)
    · exact inv_setRx h
  · exact inv_ite (inv_rxRun (inv_rxSend (inv_setRx h))) (inv_ite (inv_setRx h) (inv_rxRun (inv_setRx (inv_setRx h))))
theorem outInv_execFabricRequestArrival {chip plane sn low : Nat} {req : FabReq} (h : Safety.Inv s) :
    OutInv (execFabricRequestArrival chip plane sn low req s) := by
  unfold execFabricRequestArrival
  split
  · exact .next h
  · split
    · exact .next (inv_rxSend h)
    · exact .next (inv_settleAll (inv_rxTake (inv_wake h)))
theorem outInv_execFabricResponse {chip plane sn : Nat} {ans : FabAns} (h : Safety.Inv s) : OutInv (execFabricResponse chip plane sn ans s) := by
  unfold execFabricResponse
  split
  · exact .next h
  · split
    · exact .next h
    · exact .next (inv_fabRetire h)
theorem outInv_execPendingNotice {chip plane sn : Nat} (h : Safety.Inv s) : OutInv (execPendingNotice chip plane sn s) := by
  unfold execPendingNotice
  split
  · exact .next h
  · exact .next (inv_modTx _ _ _ _ _ h)
theorem outInv_execRsptExpiry {chip plane sn : Nat} (h : Safety.Inv s) : OutInv (execRsptExpiry chip plane sn s) := by
  unfold execRsptExpiry; dsimp only
  split
  · exact .next h
  · split
    · exact .next h
    · split
      · exact .next (inv_modTx _ _ _ _ _ h)
      · exact .next (inv_with (inv_modTx _ _ _ _ _ h))
theorem outInv_execDlrtExpiry {chip plane sn : Nat} (h : Safety.Inv s) : OutInv (execDlrtExpiry chip plane sn s) := .next h
theorem outInv_execFholdExpiry {chip : Nat} (h : Safety.Inv s) : OutInv (execFholdExpiry chip s) := by
  unfold execFholdExpiry; dsimp only
  split
  · exact .next h
  · exact .next (inv_retireAll (inv_with h))
theorem outInv_execResync {chip plane low : Nat} (h : Safety.Inv s) : OutInv (execResync chip plane low s) := by
  unfold execResync
  split
  · exact .next h
  · exact .next (inv_setRx h)
theorem outInv_execCalibreWrite {ag : Agent} {pod : Bool} {i : Nat} {v : W64} (h : Safety.Inv s) : OutInv (execCalibreWrite ag pod i v s) := by
  unfold execCalibreWrite
  split
  · split
    · exact .next h
    · exact outInv_regEvent h
  · split
    · exact .next h
    · exact outInv_regEvent h
theorem outInv_execFholdWrite {ag : Agent} {v : W64} (h : Safety.Inv s) : OutInv (execFholdWrite ag v s) := outInv_regEvent h
theorem inv_loadTime {v : Nat} {m : TimeMode} (h : Safety.Inv s) : Safety.Inv (loadTime s v m) := inv_onCores h rfl rfl (fun _ => rfl)
theorem outInv_execTimeSample {port : Fin 16} {v : W64} (h : Safety.Inv s) : OutInv (execTimeSample port v s) := by
  unfold execTimeSample; dsimp only
  split
  · exact .next h
  · split
    · exact .next (inv_loadTime h)
    · exact .next (inv_with h)
    · exact .next (inv_with h)
    · split
      · exact .next (inv_with h)
      · split
        · exact .next (inv_loadTime (inv_with h))
        · exact .next (inv_with h)
theorem outInv_execTimeSampleTimeout (h : Safety.Inv s) : OutInv (execTimeSampleTimeout s) := by
  unfold execTimeSampleTimeout
  split
  · exact .next (inv_loadTime h)
  · exact .next h
theorem outInv_execAnchorWrite {ag : Agent} {k : Fin 16} {v : W64} (h : Safety.Inv s) : OutInv (execAnchorWrite ag k v s) := outInv_regEvent h

/-! ### Graphs and the runs of their nodes -/

theorem inv_scanSlots {line n j : Nat} (h : Safety.Inv s) : Safety.Inv (scanSlots line n j s).1 := by
  induction n generalizing s j with
  | zero =>
    unfold scanSlots; dsimp only
    exact h
  | succ n ih =>
    unfold scanSlots; dsimp only
    exact inv_ite_fst (ih h) (inv_ite_fst h (ih (inv_with (inv_homeWrite _ _ _ _ _ _ h))))
theorem outInv_execAnchorScan {k : Fin 16} (h : Safety.Inv s) : OutInv (execAnchorScan k s) := by
  unfold execAnchorScan
  extract_lets _ _ _ h1 p _ _ s1 r _ _
  have hh1 : Safety.Inv h1.1 := inv_homeAdmit _ _ _ _ (inv_wake h)
  have hp : Safety.Inv p.1 := by
    unfold p
    split
    · exact inv_ite_fst (inv_promoteCore hh1) hh1
    · exact hh1
  have hs1 : Safety.Inv s1 := inv_with hp
  have hr : Safety.Inv r.1 := inv_scanSlots (inv_recallOw _ _ _ hs1)
  split
  · exact .next h
  · split
    · exact .next (inv_with h)
    · split
      · exact .next h
      · split
        · exact .next hp
        · exact .next (inv_ite hr (inv_with hr))
theorem inv_escFree {rs : List (Nat × Nat)} (h : Safety.Inv s) : Safety.Inv (escFree s rs).1 :=
  inv_foldl_fst _ _ _ h (fun _ _ hu => inv_givePieceOk hu)
theorem inv_escRead {va n : Nat} (h : Safety.Inv s) : Safety.Inv (escRead s va n).1 := inv_spanRead h
theorem inv_escWrite {va n v : Nat} (h : Safety.Inv s) : Safety.Inv (escWrite s va n v).1 := inv_txMark (inv_accWrite h)
theorem inv_nodeInit {va : Nat} (h : Safety.Inv s) : Safety.Inv (nodeInit s va).1 := by
  unfold nodeInit; dsimp only
  split
  · exact inv_escFree h
  · split
    · exact inv_escRead (inv_escFree h)
    · exact inv_escWrite (inv_escRead (inv_escFree h))
    · exact inv_escRead (inv_escFree h)
theorem inv_initNodes {x : Inst} {n : Nat} {q : Nat × List Nat × Option Nat} (h : Safety.Inv s) : Safety.Inv (initNodes x n s q).1 := by
  induction n generalizing s q with
  | zero =>
    unfold initNodes; dsimp only
    exact h
  | succ n ih =>
    unfold initNodes; dsimp only
    split
    · exact inv_nodeInit h
    · exact ih (inv_nodeInit h)
    · exact ih (inv_nodeInit h)
theorem inv_modInst {i : Nat} {f : Inst → Inst} (h : Safety.Inv s) : Safety.Inv (modInst s i f) := by
  unfold modInst; dsimp only
  split
  · exact inv_with h
  · exact h
theorem inv_stopInst {i n : Nat} (h : Safety.Inv s) : Safety.Inv (stopInst s i n) := by
  unfold stopInst
  split
  · exact h
  · exact inv_ite h (inv_modInst (inv_escWrite h))
theorem inv_argNode {i n : Nat} (h : Safety.Inv s) : Safety.Inv (argNode s i n) := by
  unfold argNode
  split
  · exact h
  · exact inv_stopInst (inv_escWrite h)
theorem inv_instInit {i : Nat} (h : Safety.Inv s) : Safety.Inv (instInit s i) := by
  unfold instInit; dsimp only
  split
  · exact h
  · split
    · exact h
    · split
      · split
        · exact inv_modInst (inv_escFree (inv_initNodes h))
        · split
          · exact inv_modInst (inv_escWrite (inv_escFree (inv_initNodes h)))
          · exact inv_argNode (inv_modInst (inv_escWrite (inv_escFree (inv_initNodes h))))
      · split
        · exact inv_modInst (inv_escFree (inv_initNodes h))
        · split
          · exact inv_modInst (inv_escWrite (inv_escFree (inv_initNodes h)))
          · exact inv_argNode (inv_modInst (inv_escWrite (inv_escFree (inv_initNodes h))))
theorem inv_instBegin {va : W64} {k : Nat} (h : Safety.Inv s) : Safety.Inv (instBegin s va k) := inv_ite (inv_with h) (inv_instInit (inv_with h))
/-- R335: a graph starts from the list of starts or from the pending ones. -/
theorem outInv_execInstanceStart (h : Safety.Inv s) : OutInv (execInstanceStart s) := by
  unfold execInstanceStart; dsimp only
  split
  · exact .next (inv_ite (inv_instInit h) h)
  · split
    · exact .next h
    · rename_i va s1 e
      have h1 : Safety.Inv s1 := by
        split at e
        · cases e; exact inv_with h
        · split at e
          · cases e; exact inv_with h
          · cases e
      split
      · exact .next h
      · split
        · exact .next (inv_with h1)
        · split
          · exact .next (inv_with (inv_escRead h1))
          · exact .next (inv_instBegin (inv_escRead h1))
          · exact .next (inv_with (inv_escRead h1))
theorem inv_startFiring {i : Nat} {x : Inst} {n blk : Nat} {cw : W64} {ord : Nat} (h : Safety.Inv s) : Safety.Inv (startFiring s i x n blk cw ord) :=
  inv_ite (inv_with h) (inv_with h)
theorem inv_fireHead {inst : Nat} (h : Safety.Inv s) : Safety.Inv (fireHead s inst).1 := by
  unfold fireHead; dsimp only
  split
  · exact inv_fst_mk h
  · split
    · exact inv_fst_mk h
    · split
      · exact inv_escFree h
      · split
        · exact inv_fst_mk (inv_escRead (inv_escFree h))
        · refine inv_fst_mk ?_
          split
          · refine inv_modInst (inv_with (inv_modInst ?_))
            split
            · exact inv_escWrite (inv_escRead (inv_escFree h))
            · exact inv_fst_mk (inv_escRead (inv_escFree h))
          · refine inv_startFiring (inv_modInst (inv_with (inv_modInst ?_)))
            split
            · exact inv_escWrite (inv_escRead (inv_escFree h))
            · exact inv_fst_mk (inv_escRead (inv_escFree h))
theorem outInv_execNodeFire {inst node : Nat} (h : Safety.Inv s) : OutInv (execNodeFire inst node s) := by
  unfold execNodeFire
  split
  · exact .next h
  · split
    · exact .next h
    · exact .next (inv_fireHead h)
/-- Taking a node from the ready list leaves the memories. -/
theorem inv_takeReady {s t : State} {inst node ty : Nat} {r : Ready} (e : takeReady s inst node ty = some (r, t)) (h : Safety.Inv s) :
    Safety.Inv t := by
  unfold takeReady at e
  split at e
  · cases e
  · split at e
    · cases e; exact inv_with h
    · cases e
theorem inv_addRun {r : Ready} {st : Option Nat} {which : Nat} {waiting : Bool} (h : Safety.Inv s) : Safety.Inv (addRun s r st which waiting) :=
  inv_with h
theorem outInv_execKernelNodeRun {inst node : Nat} (h : Safety.Inv s) : OutInv (execKernelNodeRun inst node s) := by
  unfold execKernelNodeRun; dsimp only
  split
  · exact .next h
  · rename_i e
    split
    · exact .next (inv_with (inv_ite_fst (inv_escRead (inv_takeReady e h)) (inv_takeReady e h)))
    · split
      · exact .next (inv_addRun (inv_ite_fst (inv_escRead (inv_takeReady e h)) (inv_takeReady e h)))
      · exact .next (inv_with (inv_addRun (inv_ite_fst (inv_escRead (inv_takeReady e h)) (inv_takeReady e h))))
    · exact .next (inv_addRun (inv_ite_fst (inv_escRead (inv_takeReady e h)) (inv_takeReady e h)))
theorem inv_modRun {inst node : Nat} {f : NodeRun → NodeRun} (h : Safety.Inv s) : Safety.Inv (modRun s inst node f) := inv_with h
theorem outInv_commandRun {inst node ty : Nat} {go : State → Nat → State × Option Nat × Bool} (h : Safety.Inv s)
    (k : ∀ u b, Safety.Inv u → Safety.Inv (go u b).1) : OutInv (commandRun s inst node ty go) := by
  unfold commandRun; dsimp only
  split
  · split
    · exact .next (inv_modRun (k _ _ h))
    · exact .next h
  · split
    · exact .next h
    · rename_i e
      exact .next (inv_modRun (k _ _ (inv_addRun (inv_takeReady e h))))
theorem inv_transferTry {inst node b : Nat} (h : Safety.Inv s) : Safety.Inv (transferTry s inst node b).1 := by
  unfold transferTry; dsimp only
  split
  · exact h
  · split
    · exact inv_ite_fst (inv_escRead h) h
    · exact inv_xAccept (inv_freshId _ (inv_ite_fst (inv_escRead h) h))
    · exact inv_ite_fst (inv_escRead h) h
theorem outInv_execTransferNodeRun {inst node : Nat} (h : Safety.Inv s) : OutInv (execTransferNodeRun inst node s) :=
  outInv_commandRun h (fun _ _ hu => inv_transferTry hu)
theorem inv_bankTry {inst node b : Nat} (h : Safety.Inv s) : Safety.Inv (bankTry s inst node b).1 := by
  unfold bankTry
  extract_lets _ _ _ q
  have hq : Safety.Inv q.1 := inv_ite_fst (inv_escRead h) h
  split
  · exact hq
  · extract_lets put c
    have hput : ∀ u, Safety.Inv u → Safety.Inv (put u).1 := fun _ hu => inv_bgAccept (inv_freshId _ hu)
    have hc : Safety.Inv c.1 := inv_crecOk hq
    split
    · exact hq
    · split
      · exact hq
      · split
        · split
          · exact hc
          · exact hc
          · exact hput _ hc
        · exact hput _ hq
  · exact hq
theorem outInv_execBankNodeRun {inst node : Nat} (h : Safety.Inv s) : OutInv (execBankNodeRun inst node s) :=
  outInv_commandRun h (fun _ _ hu => inv_bankTry hu)
theorem outInv_execConditionNodeRun {inst node : Nat} (h : Safety.Inv s) : OutInv (execConditionNodeRun inst node s) := by
  unfold execConditionNodeRun
  split
  · exact .next h
  · rename_i e
    exact .next (inv_addRun (inv_takeReady e h))
theorem outInv_execWhileNodeRun {inst node : Nat} (h : Safety.Inv s) : OutInv (execWhileNodeRun inst node s) := by
  unfold execWhileNodeRun; dsimp only
  split
  · exact .next h
  · rename_i e
    exact .next (inv_addRun (inv_ite (inv_modInst (inv_takeReady e h)) (inv_takeReady e h)))
theorem outInv_execBarrierNodeRun {inst node : Nat} (h : Safety.Inv s) : OutInv (execBarrierNodeRun inst node s) := by
  unfold execBarrierNodeRun
  split
  · exact .next h
  · rename_i e
    exact .next (inv_addRun (inv_takeReady e h))
theorem inv_escStore {va v : Nat} {o : FabOrigin} (h : Safety.Inv s) : Safety.Inv (escStore s va v o).1 := by
  unfold escStore; dsimp only
  split
  · exact inv_fst_mk (inv_xlateNow h)
  · exact inv_fst_mk (inv_xlateNow h)
  · split
    · exact inv_fst_mk (inv_xlateNow h)
    · split
      · exact inv_fst_mk (inv_xlateNow h)
      · split
        · exact inv_fst_mk (inv_regStoreCore (inv_xlateNow h))
        · split
          · exact inv_fst_mk (inv_xlateNow h)
          · exact inv_ite_fst (inv_fabSend (inv_xlateNow h)) (inv_xlateNow h)
        · split
          · exact inv_fst_mk (inv_xlateNow h)
          · exact inv_ite_fst (inv_admitType (inv_xlateNow h))
              (inv_ite (inv_hostThrough (inv_admitType (inv_xlateNow h))) (inv_homeWrite _ _ _ _ _ _ (inv_admitType (inv_xlateNow h))))
theorem inv_signalTry {inst node b : Nat} (h : Safety.Inv s) : Safety.Inv (signalTry s inst node b).1 := by
  unfold signalTry; dsimp only
  split
  · exact inv_ite (inv_raiseMsix _ _ (inv_escStore h)) (inv_escStore h)
  · exact inv_escStore h
  · exact inv_escStore h
  · exact inv_escStore h
theorem outInv_execHostSignalNodeRun {inst node : Nat} (h : Safety.Inv s) : OutInv (execHostSignalNodeRun inst node s) :=
  outInv_commandRun h (fun _ _ hu => inv_signalTry hu)
theorem inv_runNoted {x : Inst} {r : NodeRun} {st : Nat} (h : Safety.Inv s) : Safety.Inv (runNoted s x r st).1 := by
  unfold runNoted
  extract_lets _ f q w1 w
  have hf : Safety.Inv f.1 := inv_escFree h
  have hq : Safety.Inv q.1 := inv_escRead hf
  have hw1 : Safety.Inv w1.1 := inv_escWrite hq
  have hw : Safety.Inv w.1 := by
    unfold w
    split
    · extract_lets w2
      have hw2 : Safety.Inv w2.1 := inv_ite_fst hw1 (inv_escWrite hw1)
      exact hw2
    · exact hq
  exact inv_ite_fst hf (inv_ite_fst hq (inv_ite_fst (inv_argNode hw) (inv_ite (inv_stopInst hw) hw)))
theorem inv_decrement {i n : Nat} (h : Safety.Inv s) : Safety.Inv (decrement s i n).1 := by
  unfold decrement
  split
  · exact h
  · extract_lets p f r
    have hp : Safety.Inv p.1 := inv_foldl_fst _ _ _ h (fun _ _ hu => inv_ite_fst (inv_fireHead hu) hu)
    have hf : Safety.Inv f.1 := inv_ite_fst (inv_escFree hp) hp
    have hr : Safety.Inv r.1 := inv_escRead hf
    split
    · exact hf
    · split
      · exact hr
      · extract_lets _ w
        have hw : Safety.Inv w.1 := inv_escWrite hr
        exact inv_ite_fst (inv_argNode hw) (inv_ite_fst (inv_modInst hw) hw)
      · exact inv_argNode hr
theorem inv_decrements {i : Nat} {ns : List Nat} (h : Safety.Inv s) : Safety.Inv (decrements i ns s).1 := by
  induction ns generalizing s with
  | nil =>
    unfold decrements; dsimp only
    exact h
  | cons a l ih =>
    unfold decrements; dsimp only
    exact inv_ite_fst (ih (inv_decrement h)) (inv_decrement h)
theorem inv_nextKept {i n : Nat} (h : Safety.Inv s) : Safety.Inv (nextKept s i n) := by
  unfold nextKept
  split
  · exact h
  · split
    · exact inv_modInst h
    · exact inv_startFiring (inv_modInst h)
theorem outInv_execNodeRunEnd {inst node : Nat} (h : Safety.Inv s) : OutInv (execNodeRunEnd inst node s) := by
  unfold execNodeRunEnd
  split
  · split
    · exact .next h
    · extract_lets q a d _ _
      have hq : Safety.Inv q.1 := inv_runNoted h
      have ha : Safety.Inv a.1 := by
        unfold a
        split
        · exact h
        · exact hq
      have hd : Safety.Inv d.1 := inv_decrements ha
      split
      · exact .next ha
      · split
        · exact .next (inv_modRun hd)
        · exact .next (inv_nextKept (inv_with hd))
  · exact .next h
theorem inv_instClose {inst : Nat} {x : Inst} (h : Safety.Inv s) : Safety.Inv (instClose s inst x) :=
  inv_modInst (inv_escWrite (inv_ite (inv_escWrite (inv_escWrite h)) (inv_escWrite h)))
theorem outInv_execInstanceEnd {inst : Nat} (h : Safety.Inv s) : OutInv (execInstanceEnd inst s) := by
  unfold execInstanceEnd
  split
  · exact .next h
  · extract_lets f s1 w _ _
    have hf : Safety.Inv f.1 := inv_ite_fst h (inv_escFree h)
    have hs1 : Safety.Inv s1 := inv_ite hf (inv_instClose hf)
    have hw : Safety.Inv w.1 := inv_ite_fst (inv_escStore hs1) hs1
    split
    · exact .next h
    · split
      · exact .next hf
      · exact .next (inv_ite hw (inv_with hw))

/-! ### Blocks: placing, ending and preempting -/

theorem inv_modLaunch {inst node : Nat} {f : Launch → Launch} (h : Safety.Inv s) : Safety.Inv (modLaunch s inst node f) := inv_with h
theorem inv_noteWaiting (h : Safety.Inv s) : Safety.Inv (noteWaiting s) := by
  unfold noteWaiting
  split
  · exact h
  · exact inv_ite (inv_modLaunch h) h
theorem inv_l1Empty {c : Nat} (h : Safety.Inv s) : Safety.Inv (l1Empty s c) := inv_foldl _ _ _ h (fun _ _ hu => inv_l1Drop _ _ _ hu)
/-- A scratchpad begins empty. -/
theorem inv_spadMake {hd : LaunchHdr} {b c : Nat} (h : Safety.Inv s) : Safety.Inv (spadMake s hd b c) := by
  unfold spadMake
  extract_lets s1 x
  have h1 : Safety.Inv s1 := inv_ite (inv_acquireDo h) (inv_l1Empty h)
  split
  · exact inv_onCore h1
  · refine inv_modCore _ _ _ h1 (fun p hp => ?_)
    obtain rfl | hp := mem_tset _ _ _ _ hp
    · rfl
    · exact inv_getCore _ c h1 p hp
theorem inv_putGroup {b inst node : Nat} {core : Nat} {mk : Nat → Nat → Machine.Group} (h : Safety.Inv s) :
    Safety.Inv (putGroup b inst node s core mk) := by
  unfold putGroup; dsimp only
  split
  · exact h
  · exact inv_modLaunch (inv_modBlock _ _ _ (inv_setGroup _ _ _ h))
theorem inv_settleBlock {b : Nat} (h : Safety.Inv s) : Safety.Inv (settleBlock s b) := by
  unfold settleBlock
  split
  · exact inv_foldl _ _ _ h (fun _ _ hu => inv_boundary _ _ hu)
  · exact h
/-- A saved scratchpad's bytes are decoded by writes alone. -/
theorem cellsWf_padDecode (parts : Nat) (b : List Byte) : cellsWf (padDecode parts b) = true := by
  unfold padDecode
  refine List.foldlRecOn (motive := fun l => cellsWf l = true) _ _ rfl (fun l hl x _ => ?_)
  split
  · exact hl
  · exact cellsWrite_wf _ _ _ _ hl
/-- R390: the scratchpads of a block that resumes come from its image. -/
theorem inv_placeSaved {x : Saved} {cl : Nat} {cores : List Nat} (h : Safety.Inv s) : Safety.Inv (placeSaved s x cl cores) := by
  unfold placeSaved
  extract_lets k idx k1 _ s1 s2 s3 s4
  have h1 : Safety.Inv s1 := inv_with h
  have h2 : Safety.Inv s2 := inv_foldl _ _ _ h1 (fun _ _ hu => inv_spadMake hu)
  have h3 : Safety.Inv s3 := inv_foldl _ _ _ h2 (fun _ _ hu => inv_modSpad _ _ _ _ hu (fun _ _ => cellsWf_padDecode _ _))
  have h4 : Safety.Inv s4 := inv_foldl _ _ _ h3 (fun _ _ hu => inv_putGroup hu)
  exact inv_settleBlock (inv_foldl _ _ _ h4 (fun _ _ hu => inv_ite (inv_onCore hu) hu))
theorem inv_placeNew {x : Launch} {cl : Nat} {cores : List Nat} (h : Safety.Inv s) : Safety.Inv (placeNew s x cl cores) :=
  inv_modLaunch (inv_foldl _ _ _ (inv_foldl _ _ _ (inv_with (inv_freshId _ h)) (fun _ _ hu => inv_spadMake hu)) (fun _ _ hu => inv_putGroup hu))
theorem inv_placeItem {x : Saved ⊕ Launch} {r : Nat × List Nat} (h : Safety.Inv s) : Safety.Inv (placeItem s x r) := by
  unfold placeItem; dsimp only
  split
  · exact inv_placeSaved h
  · exact inv_with (inv_placeNew h)
theorem outInv_execBlockPlacement (h : Safety.Inv s) : OutInv (execBlockPlacement s) := by
  unfold execBlockPlacement; dsimp only
  split
  · exact .next h
  · split
    · exact .next (inv_noteWaiting h)
    · exact .next (inv_placeItem (inv_wake (inv_noteWaiting h)))
theorem outInv_execDispatchWaitExpiry (h : Safety.Inv s) : OutInv (execDispatchWaitExpiry s) := by
  unfold execDispatchWaitExpiry; dsimp only
  split
  · exact .next h
  · split
    · split
      · exact .next h
      · exact .next (inv_with h)
    · exact .next h
theorem inv_removeGroup {gk : Nat} (h : Safety.Inv s) : Safety.Inv (removeGroup s gk) := inv_forgetGroup (inv_with h)
theorem inv_drainBlock {b : Nat} {k : Block} (h : Safety.Inv s) : Safety.Inv (drainBlock s b k).1 :=
  inv_foldl_fst _ _ _ h (fun _ _ hu => inv_mbAsk (inv_sbDrainAll hu))
theorem inv_publishAll {b : Nat} {k : Block} {lost : Bool} (h : Safety.Inv s) : Safety.Inv (publishAll s b k lost).1 := by
  unfold publishAll; dsimp only
  refine inv_foldl_fst _ _ _ h (fun _ _ hu => ?_)
  split
  · exact inv_ite_fst (inv_ite (inv_modBlock _ _ _ (inv_publishTry hu)) (inv_publishTry hu)) hu
  · exact hu
theorem inv_launchEnded {k : Block} (h : Safety.Inv s) : Safety.Inv (launchEnded s k) := by
  unfold launchEnded; dsimp only
  split
  · exact inv_modLaunch h
  · exact inv_ite (inv_with (inv_modLaunch h)) (inv_modLaunch h)
theorem inv_spadDrop {hd : LaunchHdr} {b c : Nat} (h : Safety.Inv s) : Safety.Inv (spadDrop s hd b c) := by
  have h1 : Safety.Inv (if hd.spad = 0 && !hd.fuse then s else l1Empty s c) := inv_ite h (inv_l1Empty h)
  exact inv_modCore _ _ _ h1 (fun p hp => inv_getCore _ c h1 p (mem_tdel _ _ _ hp))
theorem inv_leaveCores {b : Nat} {k : Block} (h : Safety.Inv s) : Safety.Inv (leaveCores s b k) :=
  inv_foldl _ _ _ (inv_with (inv_foldl _ _ _ (inv_foldl _ _ _ h (fun _ _ hu => inv_shadowFree hu)) (fun _ _ hu => inv_removeGroup hu)))
    (fun _ _ hu => inv_spadDrop hu)
theorem outInv_execBlockEnd {b : Nat} (h : Safety.Inv s) : OutInv (execBlockEnd b s) := by
  unfold execBlockEnd; dsimp only
  split
  · exact .next h
  · split
    · split
      · exact .next (inv_modBlock _ _ _ (inv_foldl _ _ _ h (fun _ _ hu => inv_removeGroup hu)))
      · exact .next h
    · split
      · exact .next h
      · split
        · exact .next (inv_drainBlock h)
        · split
          · exact .next (inv_publishAll (inv_drainBlock h))
          · exact .next
              (inv_settleAll
              (inv_launchEnded
              (inv_leaveCores (inv_ite (inv_raiseMsix _ _ (inv_publishAll (inv_drainBlock h))) (inv_publishAll (inv_drainBlock h))))))
theorem outInv_execPreqClose {ag : Agent} {v : W64} (h : Safety.Inv s) : OutInv (execPreqClose ag v s) := outInv_regEvent h
theorem outInv_execPreqOpen {ag : Agent} {v : W64} (h : Safety.Inv s) : OutInv (execPreqOpen ag v s) := outInv_regEvent h
theorem inv_preemptTransient {b : Nat} {k : Block} (h : Safety.Inv s) : Safety.Inv (preemptTransient s b k) :=
  inv_foldl _ _ _ (inv_foldl _ _ _ h (fun _ _ hu => inv_foldl _ _ _ hu (fun _ _ hu1 => inv_fetchStop hu1)))
    (fun _ _ hu => inv_boundary _ _ (inv_settleMonitor _ _ (inv_tidyMonitors (inv_modGroup _ _ _ hu))))
theorem inv_preemptDrain {b : Nat} {k : Block} (h : Safety.Inv s) : Safety.Inv (preemptDrain s b k).1 := by
  unfold preemptDrain; dsimp only
  exact inv_ite_fst (inv_drainBlock h)
    (inv_ite_fst (inv_publishAll (inv_drainBlock h))
    (inv_modBlock _ _ _ (inv_foldl _ _ _ (inv_publishAll (inv_drainBlock h)) (fun _ _ hu => inv_shadowFree hu))))
theorem inv_slotFree {n : Nat} (h : Safety.Inv s) : Safety.Inv (slotFree s n).1 := inv_escFree h
theorem inv_slotImage {n : Nat} (h : Safety.Inv s) : Safety.Inv (slotImage s n) := inv_foldl _ _ _ h (fun _ _ hu => inv_escWrite (inv_with hu))
theorem inv_saveBlock {b : Nat} {k : Block} (h : Safety.Inv s) : Safety.Inv (saveBlock s b k) := by
  unfold saveBlock; dsimp only
  split
  · exact inv_askStop (inv_modBlock _ _ _ h)
  · exact inv_ite (inv_slotFree h) (inv_settleAll (inv_leaveCores (inv_with (inv_slotImage (inv_slotFree h)))))
theorem outInv_execBlockPreemptSave {b : Nat} (h : Safety.Inv s) : OutInv (execBlockPreemptSave b s) := by
  unfold execBlockPreemptSave; dsimp only
  split
  · exact .next h
  · split
    · exact .next h
    · split
      · exact .next (inv_preemptTransient h)
      · split
        · exact .next (inv_preemptDrain (inv_preemptTransient h))
        · refine .next ?_
          split
          · exact inv_saveBlock (inv_preemptDrain (inv_preemptTransient h))
          · exact inv_preemptDrain (inv_preemptTransient h)

/-! ### Registers, the mailbox and power, as events -/

theorem outInv_execRegisterWrite {ag : Agent} {off : Nat} {v : W64} (h : Safety.Inv s) : OutInv (execRegisterWrite ag off v s) := outInv_regEvent h
theorem outInv_execVerselWrite {ag : Agent} {v : W64} (h : Safety.Inv s) : OutInv (execVerselWrite ag v s) := outInv_regEvent h
theorem outInv_execMbVersion {seq : Byte} (h : Safety.Inv s) : OutInv (execMbVersion seq s) := outInv_regEvent h
theorem outInv_execMbAttest {seq : Byte} (h : Safety.Inv s) : OutInv (execMbAttest seq s) := outInv_regEvent h
theorem outInv_execMbIdcert {seq : Byte} (h : Safety.Inv s) : OutInv (execMbIdcert seq s) := outInv_regEvent h
theorem outInv_execMbPowercap {seq : Byte} (h : Safety.Inv s) : OutInv (execMbPowercap seq s) := outInv_regEvent h
theorem outInv_execMbPrepare {seq : Byte} (h : Safety.Inv s) : OutInv (execMbPrepare seq s) := outInv_regEvent h
theorem outInv_execPrepareQuiet (h : Safety.Inv s) : OutInv (execPrepareQuiet s) := by
  unfold execPrepareQuiet
  split
  · exact .next h
  · split
    · exact .next (inv_mbDone (inv_reopen h))
    · split
      · exact .next (inv_mbDone (inv_modMgmt h))
      · split
        · exact .next (inv_takeLeases h)
        · exact .next h
theorem outInv_execPrepareTimeout (h : Safety.Inv s) : OutInv (execPrepareTimeout s) := by
  unfold execPrepareTimeout
  split
  · exact .next h
  · exact .next (inv_mbDone (inv_reopen h))
theorem outInv_execMbCommit {seq : Byte} (h : Safety.Inv s) : OutInv (execMbCommit seq s) := outInv_regEvent h
theorem outInv_execMbAbort {seq : Byte} (h : Safety.Inv s) : OutInv (execMbAbort seq s) := outInv_regEvent h
theorem outInv_execMbWake {seq : Byte} (h : Safety.Inv s) : OutInv (execMbWake seq s) := outInv_regEvent h
theorem outInv_execMbRelease {seq : Byte} (h : Safety.Inv s) : OutInv (execMbRelease seq s) := outInv_regEvent h
theorem outInv_execMbBadcmd {v : W64} (h : Safety.Inv s) : OutInv (execMbBadcmd v s) := outInv_regEvent h
theorem outInv_execDvreq {ag : Agent} {v : W64} (h : Safety.Inv s) : OutInv (execDvreq ag v s) := outInv_regEvent h
theorem outInv_execDvfloorWrite {ag : Agent} {v : W64} (h : Safety.Inv s) : OutInv (execDvfloorWrite ag v s) := outInv_regEvent h
theorem outInv_execDvfsClockSwitch {die : Fin 2} (h : Safety.Inv s) : OutInv (execDvfsClockSwitch die s) := by
  unfold execDvfsClockSwitch; dsimp only
  split
  · exact .next h
  · split
    · split
      · exact .next h
      · exact .next (inv_modMgmt h)
    · split
      · exact .next h
      · exact .next (inv_modMgmt h)
theorem outInv_execDvfsRailSettled {die : Fin 2} (h : Safety.Inv s) : OutInv (execDvfsRailSettled die s) := by
  unfold execDvfsRailSettled
  split
  · exact .next h
  · split
    · exact .next h
    · exact .next (inv_modMgmt h)
theorem outInv_execDvsampWindow (h : Safety.Inv s) : OutInv (execDvsampWindow s) := by
  unfold execDvsampWindow; dsimp only
  split
  · exact .next h
  · exact .next (inv_modMgmt h)
theorem outInv_execThermalTrip (h : Safety.Inv s) : OutInv (execThermalTrip s) := by
  unfold execThermalTrip
  split
  · exact .next h
  · exact .next (inv_modMgmt (inv_raiseMsix _ _ h))
theorem outInv_execThermalRecovery (h : Safety.Inv s) : OutInv (execThermalRecovery s) := by
  unfold execThermalRecovery
  split
  · exact .next h
  · exact .next (inv_modMgmt (inv_raiseMsix _ _ h))
theorem outInv_execThermalShutdown : OutInv (execThermalShutdown s) := .next (inv_with inv_reset)
theorem outInv_execCurrentSample {amps : Nat} (h : Safety.Inv s) : OutInv (execCurrentSample amps s) := by
  unfold execCurrentSample
  split
  · exact .next h
  · split
    · exact .next (inv_modMgmt (inv_raiseMsix _ _ h))
    · split
      · exact .next (inv_modMgmt h)
      · exact .next h
theorem outInv_execIdleEntry (h : Safety.Inv s) : OutInv (execIdleEntry s) := by
  unfold execIdleEntry
  split
  · exact .next (inv_modMgmt h)
  · exact .next h
theorem outInv_execPowerOnBoot {slotA slotB : FwSlot} (h : Safety.Inv s) : OutInv (execPowerOnBoot slotA slotB s) := by
  unfold execPowerOnBoot; dsimp only
  split
  · exact .next h
  · exact .next (inv_with inv_reset)
theorem outInv_execBgeClockStop {k : Nat} (h : Safety.Inv s) : OutInv (execBgeClockStop k s) := .next (inv_modBge _ _ _ h)
theorem inv_suspendArea (h : Safety.Inv s) : Safety.Inv (suspendArea s) := inv_foldl _ _ _ h (fun _ _ hu => inv_homeWrite _ _ _ _ _ _ (inv_with hu))
theorem inv_savedLost {x : Saved} (h : Safety.Inv s) : Safety.Inv (savedLost s x).1 := inv_with h
theorem inv_frameLost {va : Nat} (h : Safety.Inv s) : Safety.Inv (frameLost s va) := by
  unfold frameLost
  refine inv_foldl _ _ _ h (fun _ _ hu => ?_)
  split
  · exact inv_ite (inv_memMerge _ _ _ _ _ (inv_with hu)) hu
  · exact hu
theorem inv_suspendLoses (h : Safety.Inv s) : Safety.Inv (suspendLoses s) := by
  unfold suspendLoses
  refine inv_foldl _ _ _ (inv_with (inv_foldl_pair h (fun _ x hu => ?_))) (fun _ _ hu => inv_frameLost hu)
  split
  · exact .mk hu
  · exact .mk (inv_savedLost hu)
/-- What the compute dies hold is lost (Table 16.8): no core is left, and none of their scratchpads. -/
theorem outInv_execCommitRetained (h : Safety.Inv s) : OutInv (execCommitRetained s) := by
  unfold execCommitRetained
  split
  · exact .next h
  · extract_lets s1 c1 s2 c2 x2 s3
    have h1 : Safety.Inv s1 := inv_foldl _ _ _ h (fun _ _ hu => inv_l1Empty hu)
    split
    · exact .next (inv_snoopAll _ _ _ h1)
    · have h2 : Safety.Inv s2 := inv_suspendArea (inv_suspendLoses (inv_with h1))
      have h3 : Safety.Inv s3 := inv_withNoCores h2
      exact .next (inv_mbDone (inv_modMgmt h3))
theorem outInv_execWakeWoken (h : Safety.Inv s) : OutInv (execWakeWoken s) := by
  unfold execWakeWoken
  split
  · exact .next h
  · exact .next (inv_mbDone (inv_modMgmt h))
theorem outInv_execFabricTimeReached (h : Safety.Inv s) : OutInv (execFabricTimeReached s) := by
  unfold execFabricTimeReached
  split
  · split
    · exact .next (inv_loadTime h)
    · exact .next h
  · exact .next h

/-! ### Every instruction and event -/

/-- Every instruction and event keeps Inv: one lemma for each. -/
theorem outInv_exec {i : Instr} (h : Safety.Inv s) : OutInv (exec i s) := by
  cases i with
  | clauseHeader => exact outInv_execClauseHeader h
  | pathAged => exact outInv_execPathAged h
  | nop => exact outInv_execNop h
  | pfx => exact outInv_execPfx h
  | udf u => exact outInv_execUdf (u := u) h
  | bra => exact outInv_execBra h
  | brc => exact outInv_execBrc h
  | jmp => exact outInv_execJmp h
  | call => exact outInv_execCall h
  | calli => exact outInv_execCalli h
  | ret => exact outInv_execRet h
  | fork => exact outInv_execFork h
  | fend => exact outInv_execFend h
  | groupEnd => exact outInv_execGroupEnd h
  | rejoin => exact outInv_execRejoin h
  | brk => exact outInv_execBrk h
  | demote => exact outInv_execDemote h
  | loop => exact outInv_execLoop h
  | lend => exact outInv_execLend h
  | bar => exact outInv_execBar h
  | launch => exact outInv_execLaunch h
  | cwset => exact outInv_execCwset h
  | mwait => exact outInv_execMwait h
  | mwaitTimeout => exact outInv_execMwaitTimeout h
  | marm => exact outInv_execMarm h
  | yield => exact outInv_execYield h
  | yieldExpiry => exact outInv_execYieldExpiry h
  | movw => exact outInv_execMovw h
  | mov => exact outInv_execMov h
  | sel => exact outInv_execSel h
  | add => exact outInv_execAdd h
  | sub => exact outInv_execSub h
  | addi => exact outInv_execAddi h
  | mul => exact outInv_execMul h
  | mulhi => exact outInv_execMulhi h
  | mad => exact outInv_execMad h
  | div => exact outInv_execDiv h
  | rem => exact outInv_execRem h
  | min => exact outInv_execMin h
  | max => exact outInv_execMax h
  | abs => exact outInv_execAbs h
  | neg => exact outInv_execNeg h
  | adds => exact outInv_execAdds h
  | subs => exact outInv_execSubs h
  | and => exact outInv_execAnd h
  | or => exact outInv_execOr h
  | xor => exact outInv_execXor h
  | andn => exact outInv_execAndn h
  | andi => exact outInv_execAndi h
  | ori => exact outInv_execOri h
  | xori => exact outInv_execXori h
  | shl => exact outInv_execShl h
  | shr => exact outInv_execShr h
  | sar => exact outInv_execSar h
  | rot => exact outInv_execRot h
  | shli => exact outInv_execShli h
  | shri => exact outInv_execShri h
  | sari => exact outInv_execSari h
  | clz => exact outInv_execClz h
  | popc => exact outInv_execPopc h
  | brev => exact outInv_execBrev h
  | bfx => exact outInv_execBfx h
  | bfi => exact outInv_execBfi h
  | bdep => exact outInv_execBdep h
  | bext => exact outInv_execBext h
  | perm => exact outInv_execPerm h
  | gfmm => exact outInv_execGfmm h
  | icmp => exact outInv_execIcmp h
  | icmpi => exact outInv_execIcmpi h
  | plog => exact outInv_execPlog h
  | pmovToVreg => exact outInv_execPmovToVreg h
  | pmovToPred => exact outInv_execPmovToPred h
  | pmovPallToVreg => exact outInv_execPmovPallToVreg h
  | pmovVregToPall => exact outInv_execPmovVregToPall h
  | lea => exact outInv_execLea h
  | sext => exact outInv_execSext h
  | zext => exact outInv_execZext h
  | shfl => exact outInv_execShfl h
  | bcast => exact outInv_execBcast h
  | bcastFirst => exact outInv_execBcastFirst h
  | vote => exact outInv_execVote h
  | ired => exact outInv_execIred h
  | iscan => exact outInv_execIscan h
  | fadd => exact outInv_execFadd h
  | fsub => exact outInv_execFsub h
  | fmul => exact outInv_execFmul h
  | ffma => exact outInv_execFfma h
  | fmin => exact outInv_execFmin h
  | fmax => exact outInv_execFmax h
  | fabs => exact outInv_execFabs h
  | fneg => exact outInv_execFneg h
  | fdiv => exact outInv_execFdiv h
  | fsqrt => exact outInv_execFsqrt h
  | frcp => exact outInv_execFrcp h
  | frsq => exact outInv_execFrsq h
  | fcmp => exact outInv_execFcmp h
  | fclass => exact outInv_execFclass h
  | fcpys => exact outInv_execFcpys h
  | fdot2 => exact outInv_execFdot2 h
  | fexp2 => exact outInv_execFexp2 h
  | flog2 => exact outInv_execFlog2 h
  | fsin => exact outInv_execFsin h
  | fcos => exact outInv_execFcos h
  | ftanh => exact outInv_execFtanh h
  | ferf => exact outInv_execFerf h
  | frnd => exact outInv_execFrnd h
  | ffrac => exact outInv_execFfrac h
  | fred => exact outInv_execFred h
  | fscan => exact outInv_execFscan h
  | fcvt => exact outInv_execFcvt h
  | icvt => exact outInv_execIcvt h
  | ficvt => exact outInv_execFicvt h
  | pack => exact outInv_execPack h
  | unpk => exact outInv_execUnpk h
  | qmx4 => exact outInv_execQmx4 h
  | dqmx4 => exact outInv_execDqmx4 h
  | qf8 => exact outInv_execQf8 h
  | dqf8 => exact outInv_execDqf8 h
  | qi8 => exact outInv_execQi8 h
  | qi4 => exact outInv_execQi4 h
  | rscl => exact outInv_execRscl h
  | srnd => exact outInv_execSrnd h
  | padd => exact outInv_execPadd h
  | psub => exact outInv_execPsub h
  | pmul => exact outInv_execPmul h
  | pfma => exact outInv_execPfma h
  | pmin => exact outInv_execPmin h
  | pmax => exact outInv_execPmax h
  | pdot => exact outInv_execPdot h
  | mqa => exact outInv_execMqa h
  | mqax => exact outInv_execMqax h
  | mqai => exact outInv_execMqai h
  | matrixGrant => exact outInv_execMatrixGrant h
  | matrixRequestAged => exact outInv_execMatrixRequestAged h
  | matrixPassEnd => exact outInv_execMatrixPassEnd h
  | mtf => exact outInv_execMtf h
  | mtfr => exact outInv_execMtfr h
  | mtfLineArrival => exact outInv_execMtfLineArrival h
  | msync => exact outInv_execMsync h
  | smm => exact outInv_execSmm h
  | smadd => exact outInv_execSmadd h
  | strn => exact outInv_execStrn h
  | schol => exact outInv_execSchol h
  | sluf => exact outInv_execSluf h
  | ssol => exact outInv_execSsol h
  | strs => exact outInv_execStrs h
  | sdet => exact outInv_execSdet h
  | ld => exact outInv_execLd h
  | st => exact outInv_execSt h
  | lds => exact outInv_execLds h
  | sts => exact outInv_execSts h
  | gath => exact outInv_execGath h
  | scat => exact outInv_execScat h
  | ldu => exact outInv_execLdu h
  | pref => exact outInv_execPref h
  | memoryResponse => exact outInv_execMemoryResponse h
  | pageWalkComplete => exact outInv_execPageWalkComplete h
  | homeSliceWrite => exact outInv_execHomeSliceWrite h
  | homeSliceRead => exact outInv_execHomeSliceRead h
  | cflush => exact outInv_execCflush h
  | cinv => exact outInv_execCinv h
  | bufset => exact outInv_execBufset h
  | bufget => exact outInv_execBufget h
  | atom => exact outInv_execAtom h
  | cas => exact outInv_execCas h
  | fence => exact outInv_execFence h
  | fenceModeGive => exact outInv_execFenceModeGive h
  | fenceModeTake => exact outInv_execFenceModeTake h
  | rowgive => exact outInv_execRowgive h
  | rowtake => exact outInv_execRowtake h
  | layout => exact outInv_execLayout h
  | phaseOpen => exact outInv_execPhaseOpen h
  | phaseEnd => exact outInv_execPhaseEnd h
  | phasePublication => exact outInv_execPhasePublication h
  | red => exact outInv_execRed h
  | redEntryApply => exact outInv_execRedEntryApply h
  | xcopy => exact outInv_execXcopy h
  | xstr => exact outInv_execXstr h
  | xlay => exact outInv_execXlay h
  | xacc => exact outInv_execXacc h
  | transferStart => exact outInv_execTransferStart h
  | transferEnd => exact outInv_execTransferEnd h
  | xpub => exact outInv_execXpub h
  | xpubCommit => exact outInv_execXpubCommit h
  | ovld => exact outInv_execOvld h
  | ovpf => exact outInv_execOvpf h
  | overlayLoadEnd => exact outInv_execOverlayLoadEnd h
  | waitany => exact outInv_execWaitany h
  | waitall => exact outInv_execWaitall h
  | ffr => exact outInv_execFfr h
  | bgload => exact outInv_execBgload h
  | bgvec => exact outInv_execBgvec h
  | bgrun => exact outInv_execBgrun h
  | bgwait => exact outInv_execBgwait h
  | bgloadExecute => exact outInv_execBgloadExecute h
  | bgloadEnd => exact outInv_execBgloadEnd h
  | bgvecExecute => exact outInv_execBgvecExecute h
  | bgvecEnd => exact outInv_execBgvecEnd h
  | bgrunStart => exact outInv_execBgrunStart h
  | bankRunEnd => exact outInv_execBankRunEnd h
  | bankMovePort => exact outInv_execBankMovePort h
  | bankMoveImmediate => exact outInv_execBankMoveImmediate h
  | bankStreamEnd => exact outInv_execBankStreamEnd h
  | bankChimeStep => exact outInv_execBankChimeStep h
  | bankRefresh k bank => exact outInv_execBankRefresh (k := k) (bank := bank) h
  | bufferTakeTimeout => exact outInv_execBufferTakeTimeout h
  | gred => exact outInv_execGred h
  | gredComplete => exact outInv_execGredComplete h
  | mlr => exact outInv_execMlr h
  | mlrComplete => exact outInv_execMlrComplete h
  | trap => exact outInv_execTrap h
  | tret => exact outInv_execTret h
  | tretFail => exact outInv_execTretFail h
  | rdsr => exact outInv_execRdsr h
  | wrsr => exact outInv_execWrsr h
  | bkpt => exact outInv_execBkpt h
  | rdtime => exact outInv_execRdtime h
  | perf => exact outInv_execPerf h
  | trapEntry => exact outInv_execTrapEntry h
  | leaseReservationTimeout => exact outInv_execLeaseReservationTimeout h
  | sweepComplete => exact outInv_execSweepComplete h
  | leaseExpiry => exact outInv_execLeaseExpiry h
  | bgeLeaseExpiry => exact outInv_execBgeLeaseExpiry h
  | endingTimeout => exact outInv_execEndingTimeout h
  | clockReadback => exact outInv_execClockReadback h
  | leaseReturn => exact outInv_execLeaseReturn h
  | layoutCommandStart => exact outInv_execLayoutCommandStart h
  | layoutCommandEnd => exact outInv_execLayoutCommandEnd h
  | xlinvWrite => exact outInv_execXlinvWrite h
  | xlinvComplete => exact outInv_execXlinvComplete h
  | xlstatWrite => exact outInv_execXlstatWrite h
  | ptbaseWrite => exact outInv_execPtbaseWrite h
  | hostMemRead => exact outInv_execHostMemRead h
  | hostMemWrite => exact outInv_execHostMemWrite h
  | backInvalidateResponse => exact outInv_execBackInvalidateResponse h
  | hostSnoop => exact outInv_execHostSnoop h
  | linkUp => exact outInv_execLinkUp h
  | fabricRequestArrival => exact outInv_execFabricRequestArrival h
  | fabricResponse => exact outInv_execFabricResponse h
  | pendingNotice => exact outInv_execPendingNotice h
  | rsptExpiry => exact outInv_execRsptExpiry h
  | dlrtExpiry chip plane sn => exact outInv_execDlrtExpiry (chip := chip) (plane := plane) (sn := sn) h
  | fholdExpiry => exact outInv_execFholdExpiry h
  | resync => exact outInv_execResync h
  | calibreWrite => exact outInv_execCalibreWrite h
  | fholdWrite => exact outInv_execFholdWrite h
  | timeSample port => exact outInv_execTimeSample (port := port) h
  | timeSampleTimeout => exact outInv_execTimeSampleTimeout h
  | anchorWrite => exact outInv_execAnchorWrite h
  | anchorScan => exact outInv_execAnchorScan h
  | instanceStart => exact outInv_execInstanceStart h
  | nodeFire => exact outInv_execNodeFire h
  | kernelNodeRun => exact outInv_execKernelNodeRun h
  | transferNodeRun => exact outInv_execTransferNodeRun h
  | bankNodeRun => exact outInv_execBankNodeRun h
  | conditionNodeRun => exact outInv_execConditionNodeRun h
  | whileNodeRun => exact outInv_execWhileNodeRun h
  | barrierNodeRun => exact outInv_execBarrierNodeRun h
  | hostSignalNodeRun => exact outInv_execHostSignalNodeRun h
  | nodeRunEnd => exact outInv_execNodeRunEnd h
  | instanceEnd => exact outInv_execInstanceEnd h
  | blockPlacement => exact outInv_execBlockPlacement h
  | dispatchWaitExpiry => exact outInv_execDispatchWaitExpiry h
  | blockEnd => exact outInv_execBlockEnd h
  | preqClose => exact outInv_execPreqClose h
  | preqOpen => exact outInv_execPreqOpen h
  | blockPreemptSave => exact outInv_execBlockPreemptSave h
  | registerWrite => exact outInv_execRegisterWrite h
  | verselWrite => exact outInv_execVerselWrite h
  | mbVersion => exact outInv_execMbVersion h
  | mbAttest => exact outInv_execMbAttest h
  | mbIdcert => exact outInv_execMbIdcert h
  | mbPowercap => exact outInv_execMbPowercap h
  | mbPrepare => exact outInv_execMbPrepare h
  | prepareQuiet => exact outInv_execPrepareQuiet h
  | prepareTimeout => exact outInv_execPrepareTimeout h
  | mbCommit => exact outInv_execMbCommit h
  | mbAbort => exact outInv_execMbAbort h
  | mbWake => exact outInv_execMbWake h
  | mbRelease => exact outInv_execMbRelease h
  | mbBadcmd => exact outInv_execMbBadcmd h
  | dvreq => exact outInv_execDvreq h
  | dvfloorWrite => exact outInv_execDvfloorWrite h
  | dvfsClockSwitch => exact outInv_execDvfsClockSwitch h
  | dvfsRailSettled => exact outInv_execDvfsRailSettled h
  | dvsampWindow => exact outInv_execDvsampWindow h
  | thermalTrip => exact outInv_execThermalTrip h
  | thermalRecovery => exact outInv_execThermalRecovery h
  | thermalShutdown => exact outInv_execThermalShutdown
  | currentSample => exact outInv_execCurrentSample h
  | idleEntry => exact outInv_execIdleEntry h
  | powerOnBoot => exact outInv_execPowerOnBoot h
  | bgeClockStop => exact outInv_execBgeClockStop h
  | commitRetained => exact outInv_execCommitRetained h
  | wakeWoken => exact outInv_execWakeWoken h
  | fabricTimeReached => exact outInv_execFabricTimeReached h

/-! ### The device's own actions, and the step -/

theorem inv_servedLanes {g : Machine.Group} (h : Safety.Inv s) : Safety.Inv (servedLanes s g).1 := by
  unfold servedLanes; dsimp only
  split
  · rename_i e
    have h1 := inv_of_fst e (inv_readSpans h)
    split
    · rename_i e1
      exact inv_of_fst e1 (inv_readSpans h1)
    · rename_i e1
      exact inv_of_fst e1 (inv_readSpans h1)
  · rename_i e
    exact inv_of_fst e (inv_readSpans h)
  · rename_i e
    exact inv_of_fst e (inv_readSpans h)
theorem optInv_spillIssue {cx : Ctx} {spill : Bool} {ls : List Nat} (h : Safety.Inv s) : OptInv (spillIssue s cx spill ls) := by
  unfold spillIssue; dsimp only
  split
  · exact .some h
  · split
    · split
      · exact .none
      · exact .some (inv_foldl _ _ _ (inv_with h) (fun _ _ hu => inv_settleGroup (inv_afterStart (inv_startWord hu))))
    · split
      · exact .none
      · exact .some (inv_foldl _ _ _ (inv_with h) (fun _ _ hu => inv_settleGroup (inv_afterStart (inv_startWord hu))))
theorem inv_moveLow {gk : Nat} {spill : Bool} {ls : List Nat} (h : Safety.Inv s) : Safety.Inv (moveLow s gk spill ls) := inv_modGroup _ _ _ h
theorem outInv_systemAct {cx : Ctx} (h : Safety.Inv s) : OutInv (systemAct cx s) := by
  unfold systemAct
  extract_lets _ _ turn
  have hturn : ∀ u a1, Safety.Inv u → Safety.Inv (turn u a1) := fun _ _ hu => inv_modGroup _ _ _ hu
  split
  · exact .next h
  · split
    · split
      · exact .next h
      · split
        · exact .next (inv_landFail h)
        · split
          · exact .next (inv_fatalBlock h)
          · split
            · exact outInv_execTret h
            · split
              · rename_i e
                split
                · exact .next (inv_fatalBlock (inv_of_fst e (inv_servedLanes h)))
                · split
                  · rename_i e1
                    exact .next (inv_touchSlot (hturn _ _ (inv_of_some e1 (optInv_spillIssue (inv_of_fst e (inv_servedLanes h))))))
                  · exact .next (inv_of_fst e (inv_servedLanes h))
              · rename_i e
                exact .next (inv_of_fst e (inv_servedLanes h))
              · rename_i e
                exact .next (inv_fatalBlock (inv_of_fst e (inv_servedLanes h)))
    · split
      · exact .next (inv_stallAt _ _ h)
      · split
        · exact .next (hturn _ _ h)
        · split
          · rename_i e
            exact .next (inv_boundary _ _ (hturn _ _ (inv_moveLow (inv_of_fst e (inv_servedLanes h)))))
          · rename_i e
            exact .next (inv_of_fst e (inv_servedLanes h))
          · rename_i e
            exact .next (inv_fatalAt (inv_of_fst e (inv_servedLanes h)))
theorem nextWordInv_fetchWord {cx : Ctx} (h : Safety.Inv s) : NextWordInv (fetchWord s cx) := by
  unfold fetchWord
  extract_lets _ _
  split
  · exact .stop h
  · split
    · extract_lets _ _ _ s1
      have hs1 : Safety.Inv s1 := inv_modGroup _ _ _ h
      split
      · split
        · exact .run h
        · split
          · exact .stop (inv_ite (inv_landFail h) (inv_stopPath h))
          · exact .stop h
      · split
        · exact .stop h
        · split
          · exact .stop (inv_modGroup _ _ _ (inv_stopPath h))
          · split
            · exact .stop (inv_raiseTrap _ _ _ hs1)
            · split
              · exact .run hs1
              · exact .stop (inv_raiseTrap _ _ _ hs1)
    · exact .stop (inv_fetchFail h)
theorem outInv_pathAct {g l : Nat} (h : Safety.Inv s) : OutInv (pathAct g l s) := by
  unfold pathAct; dsimp only
  split
  · exact .next h
  · split
    · exact outInv_systemAct (inv_with h)
    · split
      · rename_i e
        exact outInv_exec (inv_of_run e (nextWordInv_fetchWord (inv_with h)))
      · rename_i e
        exact .next (inv_of_stop e (nextWordInv_fetchWord (inv_with h)))
theorem outInv_bgeAct {k : Nat} (h : Safety.Inv s) : OutInv (bgeAct k s) := by
  unfold bgeAct
  split
  · exact .next h
  · split
    · exact .next h
    · split
      · exact .next (inv_stopRun h)
      · exact outInv_exec (inv_with h)
theorem inv_tickDo (h : Safety.Inv s) : Safety.Inv (tickDo s) := by
  unfold tickDo; dsimp only
  split
  · exact h
  · split
    · exact inv_with h
    · exact inv_with h
    · exact inv_onCores h rfl rfl (fun _ => rfl)
    · exact inv_onCores h rfl rfl (fun _ => rfl)
theorem inv_tickAll (h : Safety.Inv s) : Safety.Inv (tickAll s) := inv_modMgmt (inv_tickDo h)
theorem inv_cycleAct {core : Nat} (h : Safety.Inv s) : Safety.Inv (cycleAct core s) :=
  inv_ite h
    (inv_modMgmt
    (inv_ite (inv_perfAdd _ _ _ _ (inv_ite (inv_perfAdd _ _ _ _ (inv_with h)) (inv_perfAdd _ _ _ _ (inv_perfAdd _ _ _ _ (inv_with h)))))
    (inv_ite (inv_perfAdd _ _ _ _ (inv_with h)) (inv_perfAdd _ _ _ _ (inv_perfAdd _ _ _ _ (inv_with h))))))
theorem inv_issueAct {core : Nat} (h : Safety.Inv s) : Safety.Inv (issueAct core s) :=
  inv_ite h (inv_with (inv_foldl _ _ _ h (fun _ _ hu => inv_outState (outInv_execYieldExpiry hu) hu)))
theorem inv_sectorError {sector : Nat} (h : Safety.Inv s) : Safety.Inv (sectorError s sector) := inv_ite h (inv_withPoison h)
theorem outInv_hostRegRead {off : Nat} (h : Safety.Inv s) : OutInv (hostRegRead off s) := by
  unfold hostRegRead; dsimp only
  split
  · exact .next h
  · split
    · exact .next (inv_hostRefuse h)
    · split
      · exact .next (inv_with (inv_wake h))
      · exact .next (inv_hostRegAnswer (inv_wake h))
theorem outInv_fabSnoopDone {line : Nat} (h : Safety.Inv s) : OutInv (fabSnoopDone line s) := by
  unfold fabSnoopDone; dsimp only
  split
  · exact .next h
  · exact .next (inv_with h)
  · exact .next (inv_snoopOver (inv_with h))
theorem inv_maskVector {v : Nat} {masked : Bool} (h : Safety.Inv s) : Safety.Inv (maskVector s v masked) :=
  inv_ite h (inv_ite (inv_with h) (inv_with h))
theorem inv_raiseSvn {n : Nat} (h : Safety.Inv s) : Safety.Inv (raiseSvn s n) := inv_ite (inv_with h) h
theorem outInv_mbRetry (h : Safety.Inv s) : OutInv (mbRetry s) := .next (inv_ite (inv_mbAttestDo h) (inv_ite (inv_mbIdcertDo h) h))
/-- The first of some events that changes the state keeps Inv when each does. -/
theorem outInv_firstOf {fs : List (State → Out)} (h : Safety.Inv s) (k : ∀ f, f ∈ fs → OutInv (f s)) : OutInv (firstOf fs s) := by
  refine .next ?_
  cases e : fs.findSome? _ with
  | none => exact h
  | some t =>
    obtain ⟨f, hf, e⟩ := List.exists_of_findSome?_eq_some e
    split at e
    · rename_i eu
      split at e
      · cases e
      · cases e; exact inv_of_next eu (k f hf)
    · cases e
/-- R332, R338, R387: the events that a node, a block or the power management may have due. -/
theorem outInv_nodeActs {i n : Nat} (h : Safety.Inv s) : ∀ f, f ∈ nodeActs i n → OutInv (f s) := by
  simp only [nodeActs, List.forall_mem_cons, List.not_mem_nil, false_imp_iff, implies_true, and_true]
  exact ⟨outInv_execNodeFire h, outInv_execNodeRunEnd h, outInv_execTransferNodeRun h, outInv_execBankNodeRun h, outInv_execHostSignalNodeRun h,
    outInv_execKernelNodeRun h, outInv_execConditionNodeRun h, outInv_execWhileNodeRun h, outInv_execBarrierNodeRun h⟩
theorem outInv_powerActs (h : Safety.Inv s) : ∀ f, f ∈ powerActs → OutInv (f s) := by
  simp only [powerActs, List.forall_mem_cons, List.not_mem_nil, false_imp_iff, implies_true, and_true]
  exact ⟨outInv_execDvfsClockSwitch h, outInv_execDvfsClockSwitch h, outInv_execDvfsRailSettled h, outInv_execDvfsRailSettled h,
    outInv_execDvsampWindow h, outInv_execPrepareTimeout h, outInv_execWakeWoken h, outInv_execIdleEntry h⟩
theorem outInv_blockActs {b : Nat} (h : Safety.Inv s) : ∀ f, f ∈ [execBlockPreemptSave b, execBlockEnd b] → OutInv (f s) := by
  simp only [List.forall_mem_cons, List.not_mem_nil, false_imp_iff, implies_true, and_true]
  exact ⟨outInv_execBlockPreemptSave h, outInv_execBlockEnd h⟩
/-- One action by itself. -/
theorem outInv_actDo {a : Action} (h : Safety.Inv s) : OutInv (actDo a s) := by
  cases a with
  | event => exact outInv_exec h
  | path => exact outInv_pathAct h
  | bge => exact outInv_bgeAct h
  | tick => exact .next (inv_tickAll h)
  | cycle => exact .next (inv_cycleAct h)
  | issue => exact .next (inv_issueAct h)
  | sectorError => exact .next (inv_sectorError h)
  | spadError =>
    refine .next ?_
    split
    · exact inv_ite (inv_spadSetPoison h) h
    · exact h
  | hostRegRead => exact outInv_hostRegRead h
  | fabSnoop => exact outInv_fabSnoopDone h
  | vectorMask => exact .next (inv_maskVector h)
  | fwWork => exact .next (inv_modMgmt h)
  | raiseSvn => exact .next (inv_raiseSvn h)
  | retry =>
    dsimp only [actDo]
    split
    · rename_i e
      exact .next (inv_of_some e (optInv_serveHeld h))
    · exact outInv_exec h
  | heldRetry => exact .next (inv_heldRetry h)
  | mbRetry => exact outInv_mbRetry h
  | node => exact outInv_firstOf h (outInv_nodeActs h)
  | inst => exact outInv_execInstanceEnd h
  | scan => exact outInv_execAnchorScan h
  | block => exact outInv_firstOf h (outInv_blockActs h)
  | power => exact outInv_firstOf h (outInv_powerActs h)
  | hostCode => exact .next (inv_modMgmt h)
theorem outInv_act {a : Machine.Action} (h : Safety.Inv s) : OutInv (act a s) := outInv_noted (outInv_actDo h)
/-- The state after an event that is due. -/
theorem optInv_dueNext (h : Safety.Inv s) : OptInv (dueNext s) := by
  cases e : dueNext s with
  | none => exact .none
  | some t =>
    obtain ⟨a, -, e⟩ := List.exists_of_findSome?_eq_some e
    split at e
    · rename_i eu
      split at e
      · cases e
      · cases e; exact .some (inv_of_next eu (outInv_act h))
    · cases e
theorem outInv_stepDo (h : Safety.Inv s) : OutInv (stepDo s) := by
  unfold stepDo
  split
  · exact outInv_act (inv_with h)
  · split
    · rename_i e
      exact .next (inv_of_some e (optInv_dueNext h))
    · split
      · exact outInv_act (inv_with h)
      · exact .next h
theorem outInv_step (h : Safety.Inv s) : OutInv (step s) := outInv_stepDo h

end

/-- Settles O59: a step is an event that is due or one action, and each of them keeps the canonical form of the memories. -/
theorem stepKeepsInv : Obligations.StepKeepsInv := by
  unfold Obligations.StepKeepsInv
  intro s t h e
  exact inv_of_next e (outInv_step h)

end Sys2Proof.Proofs
end
